-- ==== Sys2Proof/Word.lean ====
section
/-! DEFINITION. The word types of the Lamop 7140 (R3, R16, R243): bytes, registers, addresses, sectors. -/

namespace Sys2Proof

/-- One byte of memory. -/
abbrev Byte := BitVec 8

/-- A 32-bit register (R16). -/
abbrev Word := BitVec 32

/-- A 64-bit pair, address or system register (R42, R77). -/
abbrev DWord := BitVec 64

/-- A 64-byte sector, the unit of the die protocol (R243, R294); byte i is bits [8i+7:8i]. -/
abbrev Sector := BitVec 512

/-- A 256-byte line (R236); byte i is bits [8i+7:8i]. -/
abbrev Line := BitVec 2048

end Sys2Proof
end

