-- ==== Sys2Proof/Machine/Alu.lean ====
section
/-! DEFINITION. The results of the integer and bit instructions (R89, R105 to R111): each a function of the operand
values. An operand arrives as 64 bits of which the type's low bits count; a result leaves as R42 writes it. -/

namespace Sys2Proof.Machine

/-- Width of the integer type IT (R89). -/
def itWidth (it : BitVec 3) : Nat :=
  if it = 0#3 ∨ it = 1#3 then 32 else if it = 2#3 ∨ it = 3#3 then 64 else if it = 4#3 ∨ it = 5#3 then 16 else 8

/-- Signedness of the integer type IT: the `.i` types have even codes (R89). -/
def itSigned (it : BitVec 3) : Bool := !it.getLsbD 0

/-- The value of the low w bits, unsigned. -/
def natLow (w : Nat) (x : DWord) : Nat := x.toNat % 2 ^ w

/-- The value of the low w bits in two's complement or unsigned. -/
def intLow (signed : Bool) (w : Nat) (x : DWord) : Int :=
  let n := natLow w x
  if signed ∧ 2 ^ (w - 1) ≤ n then (n : Int) - ((2 ^ w : Nat) : Int) else (n : Int)

/-- A number modulo 2^w. -/
def wrapNat (w : Nat) (v : Int) : Nat := (v % ((2 ^ w : Nat) : Int)).toNat

/-- A result of a w-bit type as a register holds it (R42): narrower than 32 bits, extended to 32 by signedness. -/
def packInt (signed : Bool) (w : Nat) (v : Int) : DWord :=
  let n := wrapNat w v
  if w < 32 ∧ signed ∧ 2 ^ (w - 1) ≤ n then BitVec.ofNat 64 (n + 2 ^ 32 - 2 ^ w) else BitVec.ofNat 64 n

/-- Clamp to a type's range (R105). -/
def clampInt (signed : Bool) (w : Nat) (v : Int) : Int :=
  let lo : Int := if signed then -(2 ^ (w - 1) : Nat) else 0
  let hi : Int := if signed then ((2 ^ (w - 1) - 1 : Nat) : Int) else ((2 ^ w - 1 : Nat) : Int)
  if v < lo then lo else if hi < v then hi else v

/-- Wrap or clamp to IT, and pack (R105). -/
def itResult (it : BitVec 3) (sat : Bool) (v : Int) : DWord :=
  packInt (itSigned it) (itWidth it) (if sat then clampInt (itSigned it) (itWidth it) v else v)

/-- An operand of type IT. -/
def itVal (it : BitVec 3) (x : DWord) : Int := intLow (itSigned it) (itWidth it) x

def aluAdd (it : BitVec 3) (sat : Bool) (a b : DWord) : DWord := itResult it sat (itVal it a + itVal it b)
def aluSub (it : BitVec 3) (sat : Bool) (a b : DWord) : DWord := itResult it sat (itVal it a - itVal it b)
def aluMul (it : BitVec 3) (sat : Bool) (a b : DWord) : DWord := itResult it sat (itVal it a * itVal it b)
def aluMad (it : BitVec 3) (sat : Bool) (a b c : DWord) : DWord :=
  itResult it sat (itVal it a * itVal it b + itVal it c)

/-- `MULH`: floor(A × B / 2^w) (R105). -/
def aluMulh (it : BitVec 3) (a b : DWord) : DWord :=
  itResult it false (itVal it a * itVal it b / ((2 ^ itWidth it : Nat) : Int))

/-- `MADW`: 32-bit A and B, 64-bit C and D (R105). -/
def aluMadw (it : BitVec 3) (sat : Bool) (a b c : DWord) : DWord :=
  let s := itSigned it
  let v := intLow s 32 a * intLow s 32 b + intLow s 64 c
  packInt s 64 (if sat then clampInt s 64 v else v)

/-- `ABS` (R105). -/
def aluAbs (it : BitVec 3) (sat : Bool) (a : DWord) : DWord :=
  itResult it sat (if itVal it a < 0 then - itVal it a else itVal it a)

def aluMin (it : BitVec 3) (a b : DWord) : DWord :=
  itResult it false (if itVal it a ≤ itVal it b then itVal it a else itVal it b)
def aluMax (it : BitVec 3) (a b : DWord) : DWord :=
  itResult it false (if itVal it a ≤ itVal it b then itVal it b else itVal it a)

/-- Byte i of a word. -/
def byteOf (i : Nat) (x : DWord) : DWord := (x >>> (8 * i)) &&& 0xFF#64

/-- `DOT4` (R105): signedness of the bytes of A in MOD[4], of B in MOD[5]. -/
def aluDot4 (it : BitVec 3) (sat sa sb : Bool) (a b c : DWord) : DWord :=
  let t (i : Nat) : Int := intLow sa 8 (byteOf i a) * intLow sb 8 (byteOf i b)
  itResult it sat (itVal it c + t 0 + t 1 + t 2 + t 3)

/-- `SAD` (R105): over bytes, or over halfwords. -/
def aluSad (it : BitVec 3) (sat half : Bool) (a b c : DWord) : DWord :=
  let d (x y : Nat) : Int := if x ≤ y then ((y - x : Nat) : Int) else ((x - y : Nat) : Int)
  let t (w i : Nat) : Int := d (natLow w (a >>> (w * i))) (natLow w (b >>> (w * i)))
  if half then itResult it sat (itVal it c + t 16 0 + t 16 1)
  else itResult it sat (itVal it c + t 8 0 + t 8 1 + t 8 2 + t 8 3)

/-- `ADDC` (R106): the sum and the carry (for `.sub`, no borrow). -/
def aluAddc (it : BitVec 3) (sub first : Bool) (p : Bool) (a b : DWord) : DWord × Bool :=
  let w := itWidth it
  let c : Nat := if first then (if sub then 1 else 0) else (if p then 1 else 0)
  let b' := if sub then 2 ^ w - 1 - natLow w b else natLow w b
  let s := natLow w a + b' + c
  (BitVec.ofNat 64 (s % 2 ^ w), decide (2 ^ w ≤ s))

/-- Width of the bit instructions' types (R107): IT 000 and 001 are 32 bits, 010 and 011 are 64. -/
def bitWidth (it : BitVec 3) : Nat := if it = 2#3 ∨ it = 3#3 then 64 else 32

/-- The low w bits of a 64-bit value. -/
def lowBits (w : Nat) (x : DWord) : DWord := BitVec.ofNat 64 (natLow w x)

/-- B or its complement (R107). -/
def notIf (inv : Bool) (b : DWord) : DWord := if inv then ~~~ b else b

def aluAnd (it : BitVec 3) (inv : Bool) (a b : DWord) : DWord := lowBits (bitWidth it) (a &&& notIf inv b)
def aluOr (it : BitVec 3) (inv : Bool) (a b : DWord) : DWord := lowBits (bitWidth it) (a ||| notIf inv b)
def aluXor (it : BitVec 3) (inv : Bool) (a b : DWord) : DWord := lowBits (bitWidth it) (a ^^^ notIf inv b)

/-- A bit-by-bit function: bit i of the result by `g i`, for i below w. -/
def bitsBy (w : Nat) (g : Nat → Bool) : DWord :=
  BitVec.ofNat 64 ((List.range w).foldl (fun acc i => acc + (if g i then 2 ^ i else 0)) 0)

/-- `BFN` (R108): the truth table t indexed by 8d + 4c + 2b + a. -/
def aluBfn (it : BitVec 3) (t : BitVec 16) (d a b c : DWord) : DWord :=
  bitsBy (bitWidth it) fun i =>
    t.getLsbD ((if d.getLsbD i then 8 else 0) + (if c.getLsbD i then 4 else 0)
      + (if b.getLsbD i then 2 else 0) + (if a.getLsbD i then 1 else 0))

/-- `SHL` (R107). -/
def aluShl (it : BitVec 3) (a n : DWord) : DWord :=
  let w := bitWidth it
  if w ≤ natLow 32 n then 0 else lowBits w (a <<< natLow 32 n)

/-- `SHR` (R107). -/
def aluShr (it : BitVec 3) (a n : DWord) : DWord :=
  let w := bitWidth it
  if w ≤ natLow 32 n then 0 else lowBits w a >>> natLow 32 n

/-- `SHRA` (R107). -/
def aluShra (it : BitVec 3) (a n : DWord) : DWord :=
  let w := bitWidth it
  let k := if w ≤ natLow 32 n then w else natLow 32 n
  BitVec.ofNat 64 (wrapNat w (intLow true w a / ((2 ^ k : Nat) : Int)))

/-- `ROL` (R107). -/
def aluRol (it : BitVec 3) (a n : DWord) : DWord :=
  let w := bitWidth it
  let k := natLow 32 n % w
  let x := natLow w a
  BitVec.ofNat 64 ((x * 2 ^ k + x / 2 ^ (w - k)) % 2 ^ w)

/-- `FSH` (R107): a funnel shift of B:A, right, or left for `.l`. -/
def aluFsh (it : BitVec 3) (left : Bool) (a b c : DWord) : DWord :=
  let w := bitWidth it
  let m := natLow 32 c % w
  let x := natLow w b * 2 ^ w + natLow w a
  BitVec.ofNat 64 (if left then x * 2 ^ m / 2 ^ w % 2 ^ w else x / 2 ^ m % 2 ^ w)

/-- `POPC` (R107). -/
def aluPopc (it : BitVec 3) (a : DWord) : DWord :=
  BitVec.ofNat 64 ((List.range (bitWidth it)).filter fun i => a.getLsbD i).length

/-- `CLZ` (R107): w for zero. -/
def aluClz (it : BitVec 3) (a : DWord) : DWord :=
  let w := bitWidth it
  let n := natLow w a
  BitVec.ofNat 64 (if n = 0 then w else w - 1 - n.log2)

/-- `BREV` (R107). -/
def aluBrev (it : BitVec 3) (a : DWord) : DWord :=
  bitsBy (bitWidth it) fun i => a.getLsbD (bitWidth it - 1 - i)

/-- `BFE` (R109). -/
def aluBfe (it : BitVec 3) (a b : DWord) : DWord :=
  let w := bitWidth it
  let signed := itSigned it
  let pos := natLow 8 b
  let len := if w ≤ natLow 8 (b >>> 8) then w else natLow 8 (b >>> 8)
  let sh := if w ≤ pos then w else pos
  let f : Int := intLow signed w a / ((2 ^ sh : Nat) : Int)
  let g := wrapNat len f
  let r : Int := if signed ∧ 0 < len ∧ 2 ^ (len - 1) ≤ g then (g : Int) - ((2 ^ len : Nat) : Int) else (g : Int)
  BitVec.ofNat 64 (wrapNat w r)

/-- `BFI` (R109): pos and len from C. -/
def aluBfi (it : BitVec 3) (a b c : DWord) : DWord :=
  let pos := natLow 8 c
  let len := natLow 8 (c >>> 8)
  bitsBy (bitWidth it) fun i => if pos ≤ i ∧ i < pos + len then a.getLsbD (i - pos) else b.getLsbD i

/-- Byte i of `BSEL` from the byte formed before it (R110). -/
def bselByte (a b : DWord) (s : Nat) (prev : Option (BitVec 8)) : BitVec 8 :=
  if s < 4 then (byteOf s a).truncate 8
  else if s < 8 then (byteOf (s - 4) b).truncate 8
  else if s = 9 then 0xFF#8
  else if s = 10 then
    (match prev with
     | some p => if p.getLsbD 7 then 0xFF#8 else 0
     | none => 0)
  else if s = 11 then prev.getD 0
  else 0

/-- `BSEL` (R110). -/
def aluBsel (a b c : DWord) : DWord :=
  let s (i : Nat) : Nat := natLow 4 (c >>> (4 * i))
  let b0 := bselByte a b (s 0) none
  let b1 := bselByte a b (s 1) (some b0)
  let b2 := bselByte a b (s 2) (some b1)
  let b3 := bselByte a b (s 3) (some b2)
  (b3 ++ b2 ++ b1 ++ b0 : BitVec 32).zeroExtend 64

/-- `LEA` (R111): A + (B << s), with B signed or not. -/
def aluLea (s : Nat) (signed : Bool) (a b : DWord) : DWord :=
  a + BitVec.ofInt 64 (intLow signed 32 b * ((2 ^ s : Nat) : Int))

/-- The comparisons of `ICMP` (R102): cc 000 to 101. -/
def cmpInt (cc : BitVec 3) (a b : Int) : Bool :=
  if cc = 0#3 then decide (a = b) else if cc = 1#3 then decide (a ≠ b) else if cc = 2#3 then decide (a < b)
  else if cc = 3#3 then decide (a ≤ b) else if cc = 4#3 then decide (b < a) else decide (b ≤ a)

/-- `ICMP` (R102, R103). -/
def aluIcmp (cc it : BitVec 3) (a b : DWord) : Bool := cmpInt cc (itVal it a) (itVal it b)

/-- `PLOP`'s combination (R102): and, or, xor. -/
def plopOp (op : BitVec 2) (a b : Bool) : Bool :=
  if op = 0#2 then a && b else if op = 1#2 then a || b else a != b

end Sys2Proof.Machine
end

