-- ==== Sys2Proof/Config.lean ====
section
/-! DEFINITION. The free values of the model: constants without a body for what the spec leaves open
or places outside itself. Nothing can be proved of their values, so what is proved holds for every value. -/

namespace Sys2Proof.Config

/-- An undefined register value (R17, R218, R347), by the stack's undefined-value seed and the stack
position. Log 2. -/
opaque freeReg : Nat → Nat → Word

/-- Which of the moves that the machine can make comes next, where several are possible and the manual gives no order.
Log 1. -/
opaque freeOrder : Nat → Nat

/-- Which of the translations of a page that may serve an access serves it (R352): a cached one, or the tables' own.
Log 78. -/
opaque freeXlat : Nat → Nat → Nat

/-- A free choice among the copies an `LD.S` may return (R142). Log 14. -/
opaque freePick : Nat → Nat

/-- Whether an SLH-DSA-SHAKE-256s signature over these bytes verifies (R373). Log 9. -/
opaque signatureVerifies : List Byte → Bool

/-- The smallest security version fused for an image type (R373). Log 9. -/
opaque minVersion : Nat → Nat

/-- The signature the security block makes over a report (R375), by byte index. Log 9. -/
opaque reportSignature : List Byte → Nat → Byte

/-- The device identity public key (R375), by byte index. Log 9. -/
opaque identityKey : Nat → Byte

/-- The destination block a loaded Sluice routine (transforms 32 to 255) computes from a source range
(R152, R199): routine number, routine image, source bytes, destination byte index. Log 10. -/
opaque routineByte : Nat → List Byte → List Byte → Nat → Byte

/-- Block sizes of a loaded routine: source bytes needed for a destination length (R152 "per routine"). Log 10. -/
opaque routineSource : Nat → List Byte → Nat → Nat

/-- AV1 decoding (R200, R337): whether a temporal unit, after the units decoded before it in the session, is
corrupt under R338. Log 8. -/
opaque av1Corrupt : List (List Byte) → List Byte → Bool

/-- AV1: whether the unit references a frame of the session that was damaged (R338). Log 8. -/
opaque av1RefersDamaged : List (List Byte) → List Byte → Bool

/-- AV1: whether the unit is a key frame that refreshes every reference slot (R338). Log 8. -/
opaque av1KeyRefresh : List Byte → Bool

/-- AV1: whether the unit shows a frame (R200, R337). Log 8. -/
opaque av1Shown : List (List Byte) → List Byte → Bool

/-- AV1: whether the stream is monochrome (R337). Log 8. -/
opaque av1Mono : List Byte → Bool

/-- AV1: sample depth is 10 bits rather than 8 (R338). Log 8. -/
opaque av1Ten : List Byte → Bool

/-- AV1: width and height in luma samples of the shown frame. Log 8. -/
opaque av1Width : List Byte → Nat
opaque av1Height : List Byte → Nat

/-- AV1: the decoded sample of plane p (0 Y, 1 U, 2 V) at x, y, by session history, unit, downscale and
film-grain options (R200). Log 8. -/
opaque av1Sample : List (List Byte) → List Byte → Bool → Bool → Nat → Nat → Nat → Nat

/-- The outcome of a PHY sweep point (R380): read or write, wire identity, tap, a counter. Log 13. -/
opaque phyPass : Bool → Nat → Nat → Nat → Bool

/-- The bit errors of a PRBS test (R380): wire identity and counter. Log 13. -/
opaque phyErrors : Nat → Nat → Nat

/-- The power of a context over the last 1 ms as the management controller estimates it (R341, R372). Log 12. -/
opaque powerEstimate : Nat → Nat

/-- Bytes "of no meaning" that a sector reads as once a key's generation has come round (R355). Log 19. -/
opaque wrappedKeyByte : Nat → Nat → Byte

/-- Whether a fused multiply-add of zero and infinity with a quiet NaN addend raises NV: IEEE 754-2019 clause 7.2
leaves it to the implementation (R114). Log 20. -/
opaque fmaQuietInvalid : Bool

/-- The element width code `LBCC` takes for a page (R255 fmt), which the manual does not say how it chooses: by the
page's bytes, reduced mod 3. Log 22. -/
opaque lbcFormat : List Byte → Nat

end Sys2Proof.Config
end

