-- ==== Sys2Proof/Machine/Num.lean ====
section
/-! DEFINITION. Number formats and rounding (R40 to R58): codes read as exact values, exact values rounded once to a
format. Codes are naturals below 2 to the format's width; values are exact. -/

namespace Sys2Proof.Machine

/-- The sticky flags of R56 as bits [4:0]: NV 0, DZ 1, OF 2, UF 3, NX 4. -/
abbrev Flags := BitVec 5

def flagNV : Flags := 1#5
def flagDZ : Flags := 2#5
def flagOF : Flags := 4#5
def flagUF : Flags := 8#5
def flagNX : Flags := 16#5

/-- The floating-point formats of R40 and DY8 (R43). -/
inductive Fp where
  | f64 | f32 | f16 | bf16 | e4m3 | e5m2 | e2m1 | dy8
  deriving DecidableEq, Repr

/-- The scale formats of R47. -/
inductive ScaleFmt where
  | sx8 | sf12
  deriving DecidableEq, Repr

/-- Rounding modes of R50 and R52; `sr u` carries its 16 random bits. -/
inductive Rnd where
  | rne | rtz | rdn | rup | rmm | ro
  | sr (u : Nat)
  deriving DecidableEq, Repr

/-- The exact value a code reads as, or that an operation gives before rounding: (−1)^neg × m × 2^e, an infinity,
or a NaN (R41). A zero keeps its sign. -/
inductive Val where
  | nan (signalling : Bool)
  | inf (neg : Bool)
  | fin (neg : Bool) (m : Nat) (e : Int)
  deriving DecidableEq, Repr

/-- Significand bits, with the hidden one (R40). -/
def fpPrec : Fp → Nat
  | .f64 => 53 | .f32 => 24 | .f16 => 11 | .bf16 => 8 | .e4m3 => 4 | .e5m2 => 3 | .e2m1 => 2 | .dy8 => 8

/-- Exponent bias (R40). -/
def fpBias : Fp → Int
  | .f64 => 1023 | .f32 => 127 | .f16 => 15 | .bf16 => 127 | .e4m3 => 7 | .e5m2 => 15 | .e2m1 => 1 | .dy8 => 0

/-- Exponent field width (R40). -/
def fpExpBits : Fp → Nat
  | .f64 => 11 | .f32 => 8 | .f16 => 5 | .bf16 => 8 | .e4m3 => 4 | .e5m2 => 5 | .e2m1 => 2 | .dy8 => 0

/-- Width in bits (R40). -/
def fpWidth : Fp → Nat
  | .f64 => 64 | .f32 => 32 | .f16 => 16 | .bf16 => 16 | .e4m3 => 8 | .e5m2 => 8 | .e2m1 => 4 | .dy8 => 8

/-- Whether the format has infinities (R40). -/
def fpHasInf : Fp → Bool
  | .f64 | .f32 | .f16 | .bf16 | .e5m2 => true
  | .e4m3 | .e2m1 | .dy8 => false

/-- Largest finite magnitude m × 2^e (R40). -/
def fpMax : Fp → Nat × Int
  | .f64 => (2 ^ 53 - 1, 971)
  | .f32 => (2 ^ 24 - 1, 104)
  | .f16 => (2 ^ 11 - 1, 5)
  | .bf16 => (2 ^ 8 - 1, 120)
  | .e4m3 => (7, 6)
  | .e5m2 => (7, 13)
  | .e2m1 => (3, 1)
  | .dy8 => (1, 1)

/-- The canonical NaN of R41; E2M1 and DY8 have none and take 0 with NV (R45, R51). -/
def fpNaN : Fp → Nat
  | .f64 => 0x7FF8000000000000
  | .f32 => 0x7FC00000
  | .f16 => 0x7E00
  | .bf16 => 0x7FC0
  | .e4m3 => 0x7F
  | .e5m2 => 0x7E
  | .e2m1 => 0
  | .dy8 => 0

/-- Exponent of the least significant bit of the smallest normal, which is that of every subnormal (R40). -/
def fpMinQ (f : Fp) : Int := 1 - fpBias f - (fpPrec f - 1 : Nat)

/-- One term T(s, e) of a DY8 byte in units of 2^-6 (R43). -/
def dy8Term (s : Bool) (e : Nat) : Int :=
  if e = 0 then 0 else if s then -(2 ^ (e - 1) : Nat) else ((2 ^ (e - 1) : Nat) : Int)

/-- The value of a DY8 byte in units of 2^-6 (R43). -/
def dy8Int (b : Nat) : Int :=
  dy8Term (b.testBit 7) (b / 16 % 8) + dy8Term (b.testBit 3) (b % 8)

/-- The value of a code of a format (R40, R41, R43). -/
def fpDecode (f : Fp) (code : Nat) : Val :=
  match f with
  | .dy8 => let v := dy8Int (code % 256); .fin (decide (v < 0)) v.natAbs (-6)
  | .f64 | .f32 | .f16 | .bf16 | .e4m3 | .e5m2 | .e2m1 =>
    let fw := fpPrec f - 1
    let frac := code % 2 ^ fw
    let ex := code / 2 ^ fw % 2 ^ fpExpBits f
    let neg := code.testBit (fpWidth f - 1)
    let ones := 2 ^ fpExpBits f - 1
    if ex = ones ∧ fpHasInf f then
      if frac = 0 then .inf neg else .nan (decide (frac < 2 ^ (fw - 1)))
    else if ex = ones ∧ f = .e4m3 ∧ frac = 7 then .nan false
    else if ex = 0 then .fin neg frac (fpMinQ f)
    else .fin neg (2 ^ fw + frac) (fpMinQ f + ((ex - 1 : Nat) : Int))

/-- A subnormal input under the flush control reads as a zero of its sign (R58): binary32, binary16 and BF16. -/
def flushIn (f : Fp) (ftz : Bool) (v : Val) : Val :=
  match v with
  | .fin neg m _ =>
    if ftz ∧ (f = .f32 ∨ f = .f16 ∨ f = .bf16) ∧ m < 2 ^ (fpPrec f - 1) then .fin neg 0 0 else v
  | .nan _ | .inf _ => v

/-- The value of a scale code (R47). -/
def scaleDecode (f : ScaleFmt) (code : Nat) : Val :=
  match f with
  | .sx8 => let e := code % 256
    if e = 255 then .nan false else .fin false 1 ((e : Int) - 127)
  | .sf12 => let e := code / 16 % 256
    if e = 255 then .nan false else .fin false (16 + code % 16) ((e : Int) - 131)

/-- An exact non-negative magnitude that rounding sees: between m × 2^e and (m + 1) × 2^e, equal to m × 2^e unless
`st`, and strictly between when `st`. -/
structure Mag where
  m : Nat
  e : Int
  st : Bool
  deriving DecidableEq, Repr

/-- Rounds m / 2^d (with sticky) to an integer in a mode (R50, R52); the second part says that it was inexact. -/
def roundShift (r : Rnd) (neg : Bool) (m d : Nat) (st : Bool) : Nat × Bool :=
  let k := m >>> d
  let rem := m - (k <<< d)
  let half := 2 ^ d
  if rem = 0 ∧ st = false then (k, false)
  else
    let up : Bool :=
      match r with
      | .rne => decide (2 * rem > half) || (decide (2 * rem = half) && (st || k % 2 = 1))
      | .rtz => false
      | .rdn => neg
      | .rup => !neg
      | .rmm => decide (2 * rem ≥ half)
      | .ro => false
      | .sr u => decide (rem * 2 ^ 16 / 2 ^ d + u ≥ 2 ^ 16)
    (if r = .ro then (if k % 2 = 0 then k + 1 else k) else if up then k + 1 else k, true)

/-- Rounds a magnitude to a multiple of 2^q. -/
def roundToQ (r : Rnd) (neg : Bool) (x : Mag) (q : Int) : Nat × Bool :=
  if q ≤ x.e ∧ x.st = false then (x.m <<< (x.e - q).toNat, false)
  else if q ≤ x.e then roundShift r neg (x.m <<< (x.e - q).toNat) 0 true
  else roundShift r neg x.m (q - x.e).toNat x.st

/-- Position of the leading bit, plus one. -/
def bitLen (n : Nat) : Nat := if n = 0 then 0 else n.log2 + 1

/-- Compares k × 2^q with k' × 2^q' on naturals: true when the first is the larger. -/
def dyadicGt (k : Nat) (q : Int) (k' : Nat) (q' : Int) : Bool :=
  if q' ≤ q then decide (k <<< (q - q').toNat > k') else decide (k > k' <<< (q' - q).toNat)

/-- The code of k × 2^q in a format, where k × 2^q is a value of the format and q is its quantum (k at most
2^prec). -/
def fpEncode (f : Fp) (neg : Bool) (k : Nat) (q : Int) : Nat :=
  let p := fpPrec f
  let fw := p - 1
  let s := if neg then 2 ^ (fpWidth f - 1) else 0
  if k < 2 ^ fw then s + k
  else
    let k' := if k = 2 ^ p then 2 ^ fw else k
    let q' := if k = 2 ^ p then q + 1 else q
    s + (q' - fpMinQ f + 1).toNat * 2 ^ fw + (k' - 2 ^ fw)

/-- The largest finite code of a sign (R40). -/
def fpMaxCode (f : Fp) (neg : Bool) : Nat :=
  let s := if neg then 2 ^ (fpWidth f - 1) else 0
  match f with
  | .f64 => s + 0x7FEFFFFFFFFFFFFF
  | .f32 => s + 0x7F7FFFFF
  | .f16 => s + 0x7BFF
  | .bf16 => s + 0x7F7F
  | .e4m3 => s + 0x7E
  | .e5m2 => s + 0x7B
  | .e2m1 => s + 7
  | .dy8 => if neg then 0xFF else 0x77

/-- The code of an infinity (R40). -/
def fpInfCode (f : Fp) (neg : Bool) : Nat :=
  let s := if neg then 2 ^ (fpWidth f - 1) else 0
  match f with
  | .f64 => s + 0x7FF0000000000000
  | .f32 => s + 0x7F800000
  | .f16 => s + 0x7C00
  | .bf16 => s + 0x7F80
  | .e5m2 => s + 0x7C
  | .e4m3 | .e2m1 | .dy8 => fpMaxCode f neg

/-- A code with the flags its making raised. -/
structure Coded where
  code : Nat
  flags : Flags
  deriving DecidableEq, Repr

/-- The DY8 byte of a magnitude in units of 2^-6, canonical (R44): zero, one power, ±2, or the two-term encoding
with the smaller leading exponent. -/
def dy8Byte (neg : Bool) (u : Nat) : Nat :=
  if u = 0 then 0
  else if u = 128 then (if neg then 0xFF else 0x77)
  else
    let s : Nat := if neg then 1 else 0
    let tops := [1, 2, 3, 4, 5, 6, 7]
    match tops.find? (fun k => 2 ^ (k - 1) = u) with
    | some k => s * 128 + k * 16
    | none =>
      match tops.find? (fun e1 => tops.any fun e2 => decide (e2 < e1 ∧ 2 ^ (e1 - 1) + 2 ^ (e2 - 1) = u)) with
      | some e1 => s * 128 + e1 * 16 + s * 8 + bitLen (u - 2 ^ (e1 - 1))
      | none =>
        match tops.find? (fun e1 => tops.any fun e2 => decide (e2 < e1 ∧ 2 ^ (e1 - 1) = u + 2 ^ (e2 - 1))) with
        | some e1 => s * 128 + e1 * 16 + (1 - s) * 8 + bitLen (2 ^ (e1 - 1) - u)
        | none => 0

/-- The magnitudes DY8 holds, in units of 2^-6, ascending (R43). -/
def dy8Grid : List Nat :=
  (List.range 129).filter fun u => (List.range 256).any fun b => (dy8Int b).natAbs = u

/-- Compares the magnitude with n × 2^-6 / 2: twice the magnitude against `n` units of 2^-7. -1, 0, 1 as Ordering. -/
def magCmp (x : Mag) (n : Nat) (q : Int) : Ordering :=
  let (a, b) := if q ≤ x.e then (x.m <<< (x.e - q).toNat, n) else (x.m, n <<< (q - x.e).toNat)
  if a < b then .lt else if a > b then .gt else if x.st then .gt else .eq

/-- Rounds a magnitude to DY8 (R45, R52). -/
def roundDy8 (r : Rnd) (neg : Bool) (x : Mag) : Coded :=
  if magCmp x 128 (-6) = .gt then ⟨fpMaxCode .dy8 neg, flagOF ||| flagNX⟩
  else
    let below := dy8Grid.filter fun u => magCmp x u (-6) ≠ .lt
    let a := below.getLast?.getD 0
    if magCmp x a (-6) = .eq then ⟨dy8Byte neg a, 0⟩
    else
      let b := (dy8Grid.find? fun u => u > a).getD 128
      let up : Bool :=
        match r with
        | .sr u =>
          -- floor((|x| - a) / (b - a) * 2^16): the largest f with a + f (b - a) / 2^16 at most |x|
          let scaled := if -6 - 16 ≤ x.e then x.m <<< (x.e + 22).toNat else x.m >>> (-22 - x.e).toNat
          decide ((scaled - a * 2 ^ 16) / (b - a) + u ≥ 2 ^ 16)
        | .rne | .rtz | .rdn | .rup | .rmm | .ro => magCmp x (a + b) (-7) = .gt
      let u := if up then b else a
      if u = 0 then ⟨0, flagUF ||| flagNX⟩ else ⟨dy8Byte neg u, flagNX⟩

/-- The code and flags of an infinite result that is no overflow (R50, R51, R45). -/
def fpInfResult (f : Fp) (sat neg : Bool) : Coded :=
  match f with
  | .dy8 => ⟨fpMaxCode .dy8 neg, flagOF ||| flagNX⟩
  | .e2m1 => ⟨fpMaxCode .e2m1 neg, flagOF ||| flagNX⟩
  | .e4m3 => if sat then ⟨fpMaxCode .e4m3 neg, flagOF ||| flagNX⟩ else ⟨fpNaN .e4m3, flagNV⟩
  | .f64 | .f32 | .f16 | .bf16 | .e5m2 =>
    if sat then ⟨fpMaxCode f neg, flagOF ||| flagNX⟩ else ⟨fpInfCode f neg, 0⟩

/-- The code and flags of an overflow (R50, R51, R52): OF and NX always. -/
def fpOverflow (f : Fp) (r : Rnd) (sat neg : Bool) : Nat :=
  match f with
  | .dy8 | .e2m1 => fpMaxCode f neg
  | .e4m3 => if sat then fpMaxCode f neg else fpNaN f
  | .f64 | .f32 | .f16 | .bf16 | .e5m2 =>
    if sat then fpMaxCode f neg
    else match r with
      | .rne | .rmm | .sr _ => fpInfCode f neg
      | .rtz | .ro => fpMaxCode f neg
      | .rdn => if neg then fpInfCode f neg else fpMaxCode f neg
      | .rup => if neg then fpMaxCode f neg else fpInfCode f neg

/-- Rounds a magnitude that is not zero to a binary format (R50, R51, R52, R57, R58). -/
def roundMag (f : Fp) (r : Rnd) (sat ftz neg : Bool) (x : Mag) : Coded :=
  match f with
  | .dy8 => roundDy8 r neg x
  | .f64 | .f32 | .f16 | .bf16 | .e4m3 | .e5m2 | .e2m1 =>
    let r := if f = .e2m1 ∧ r = .ro then .rne else r
    let p := fpPrec f
    let lead : Int := x.e + (bitLen x.m : Int)
    let qn : Int := lead - (p : Int)
    let q : Int := if qn < fpMinQ f then fpMinQ f else qn
    let (k, inexact) := roundToQ r neg x q
    let mx := fpMax f
    if dyadicGt k q mx.1 mx.2 then ⟨fpOverflow f r sat neg, flagOF ||| flagNX⟩
    else
      -- tiny after rounding: the rounding with an unbounded exponent lies below the smallest normal (R57)
      let ku := (roundToQ r neg x qn).1
      let tiny := dyadicGt 1 (1 - fpBias f) ku qn
      let sub := decide (k < 2 ^ (p - 1)) && decide (k ≠ 0)
      if ftz ∧ sub ∧ (f = .f32 ∨ f = .f16 ∨ f = .bf16) then
        ⟨if neg then 2 ^ (fpWidth f - 1) else 0, flagUF ||| flagNX⟩
      else
        ⟨fpEncode f neg k q, (if inexact then flagNX else 0) ||| (if inexact ∧ tiny then flagUF else 0)⟩

/-- Rounds an exact value to a format (`Round` of R8): zeros keep their sign but in DY8; NaNs become canonical. A
signalling NaN sets NV (R41); E2M1 and DY8 set NV for any NaN (R45, R51). -/
def roundVal (f : Fp) (r : Rnd) (sat ftz : Bool) (v : Val) : Coded :=
  match v with
  | .nan s => ⟨fpNaN f, if s ∨ f = .e2m1 ∨ f = .dy8 then flagNV else 0⟩
  | .inf neg => fpInfResult f sat neg
  | .fin neg m e =>
    if m = 0 then ⟨if neg ∧ f ≠ .dy8 then 2 ^ (fpWidth f - 1) else 0, 0⟩
    else roundMag f r sat ftz neg ⟨m, e, false⟩

/-- An operation's exact outcome before rounding: a value, or an inexact magnitude with its sign, with the flags
the operation itself raises. -/
inductive Exact where
  | val (v : Val) (flags : Flags)
  | mag (neg : Bool) (x : Mag) (flags : Flags)
  deriving DecidableEq, Repr

/-- Rounds an operation's outcome and ORs its flags. -/
def roundExact (f : Fp) (r : Rnd) (sat ftz : Bool) (x : Exact) : Coded :=
  match x with
  | .val v fl => let c := roundVal f r sat ftz v; ⟨c.code, c.flags ||| fl⟩
  | .mag neg g fl => let c := roundMag f r sat ftz neg g; ⟨c.code, c.flags ||| fl⟩

/-- A NaN among operands: the outcome is a NaN, signalling if one of them is (R41). -/
def nanOf (vs : List Val) : Option Exact :=
  if vs.any (fun v => v = .nan true) then some (.val (.nan true) 0)
  else if vs.any (fun v => v = .nan false) then some (.val (.nan false) 0)
  else none

/-- An invalid operation: a quiet NaN and NV. -/
def invalid : Exact := .val (.nan false) flagNV

/-- The sign of an exact zero sum (IEEE 754-2019, 6.3): that of both when they agree, else + but − in RDN. -/
def zeroSumSign (r : Rnd) (s t : Bool) : Bool := if s = t then s else decide (r = .rdn)

/-- The exact sum of signed dyadics. -/
def addFin (r : Rnd) (n1 : Bool) (m1 : Nat) (e1 : Int) (n2 : Bool) (m2 : Nat) (e2 : Int) : Val :=
  let e := if m1 = 0 then e2 else if m2 = 0 then e1 else if e1 ≤ e2 then e1 else e2
  let a : Int := if m1 = 0 then 0 else ((m1 <<< (e1 - e).toNat : Nat) : Int)
  let b : Int := if m2 = 0 then 0 else ((m2 <<< (e2 - e).toNat : Nat) : Int)
  let s := (if n1 then -a else a) + (if n2 then -b else b)
  if s = 0 then .fin (if m1 = 0 ∧ m2 = 0 then zeroSumSign r n1 n2 else decide (r = .rdn)) 0 0
  else .fin (decide (s < 0)) s.natAbs e

/-- IEEE addition, exact (R114). -/
def exactAdd (r : Rnd) (x y : Val) : Exact :=
  match nanOf [x, y] with
  | some z => z
  | none =>
    match x, y with
    | .inf a, .inf b => if a = b then .val (.inf a) 0 else invalid
    | .inf a, _ => .val (.inf a) 0
    | _, .inf b => .val (.inf b) 0
    | .fin n1 m1 e1, .fin n2 m2 e2 => .val (addFin r n1 m1 e1 n2 m2 e2) 0
    | _, _ => invalid

/-- The negation of a value. -/
def negVal : Val → Val
  | .nan s => .nan s
  | .inf n => .inf (!n)
  | .fin n m e => .fin (!n) m e

/-- IEEE multiplication, exact (R114). -/
def exactMul (x y : Val) : Exact :=
  match nanOf [x, y] with
  | some z => z
  | none =>
    match x, y with
    | .inf a, .inf b => .val (.inf (a != b)) 0
    | .inf a, .fin b m _ => if m = 0 then invalid else .val (.inf (a != b)) 0
    | .fin a m _, .inf b => if m = 0 then invalid else .val (.inf (a != b)) 0
    | .fin a m e, .fin b n g => .val (.fin (a != b) (m * n) (e + g)) 0
    | _, _ => invalid

/-- The value of an outcome that is a value. -/
def exactVal : Exact → Val
  | .val v _ => v
  | .mag n g _ => .fin n g.m g.e

/-- The flags of an outcome. -/
def exactFlags : Exact → Flags
  | .val _ f => f
  | .mag _ _ f => f

/-- IEEE fusedMultiplyAdd, exact (R114). Whether zero times infinity
with a quiet NaN addend raises NV is IEEE 754's implementation-defined choice, a free constant (log 20). -/
def exactFma (r : Rnd) (x y z : Val) : Exact :=
  let zeroInf : Bool :=
    match x, y with
    | .inf _, .fin _ m _ => decide (m = 0)
    | .fin _ m _, .inf _ => decide (m = 0)
    | _, _ => false
  match nanOf [x, y, z] with
  | some w => .val (exactVal w) (if zeroInf ∧ (z ≠ .nan false ∨ Config.fmaQuietInvalid) then flagNV else 0)
  | none => if zeroInf then invalid else exactAdd r (exactVal (exactMul x y)) z

/-- Quotient bits kept when a division or a root is not exact: enough for every format and for SR (R54). -/
def workBits : Nat := 80

/-- Divides magnitudes: 80 or more significant bits and a sticky mark. -/
def divMag (m : Nat) (e : Int) (n : Nat) (g : Int) : Mag :=
  let k := workBits + bitLen n
  let num := m <<< k
  ⟨num / n, e - g - (k : Int), decide (num % n ≠ 0)⟩

/-- IEEE division, exact (R114). -/
def exactDiv (x y : Val) : Exact :=
  match nanOf [x, y] with
  | some z => z
  | none =>
    match x, y with
    | .inf _, .inf _ => invalid
    | .inf a, .fin b _ _ => .val (.inf (a != b)) 0
    | .fin a _ _, .inf b => .val (.fin (a != b) 0 0) 0
    | .fin a m e, .fin b n g =>
      if n = 0 then (if m = 0 then invalid else .val (.inf (a != b)) flagDZ)
      else if m = 0 then .val (.fin (a != b) 0 0) 0
      else .mag (a != b) (divMag m e n g) 0
    | _, _ => invalid

/-- IEEE squareRoot, exact (R114). -/
def exactSqrt (x : Val) : Exact :=
  match x with
  | .nan s => .val (.nan s) 0
  | .inf n => if n then invalid else .val (.inf false) 0
  | .fin n m e =>
    if m = 0 then .val x 0
    else if n then invalid
    else
      let k := 2 * workBits + (if (e - 2 * (workBits : Int)) % 2 = 0 then 0 else 1)
      let v := m <<< k
      let s := Nat.sqrt v
      .mag false ⟨s, (e - (k : Int)) / 2, decide (s * s ≠ v)⟩ 0

/-- rSqrt of clause 9.2, correctly rounded (R114): 1 / √A. -/
def exactRsqrt (x : Val) : Exact :=
  match x with
  | .nan s => .val (.nan s) 0
  | .inf n => if n then invalid else .val (.fin false 0 0) 0
  | .fin n m e =>
    if m = 0 then .val (.inf n) flagDZ
    else if n then invalid
    else
      -- 1/√(m 2^e) = √(2^k / m) 2^((-e-k)/2) with k + e even
      let k0 := 2 * workBits + 2 * bitLen m
      let k := if (e + (k0 : Int)) % 2 = 0 then k0 else k0 + 1
      let s := Nat.sqrt (2 ^ k / m)
      .mag false ⟨s, (-e - (k : Int)) / 2, decide (s * s * m ≠ 2 ^ k)⟩ 0

/-- scaleB (R113, R114): A × 2^n. Past the reach of every format the amount makes no difference. -/
def exactScale (x : Val) (n : Int) : Exact :=
  match x with
  | .nan s => .val (.nan s) 0
  | .inf a => .val (.inf a) 0
  | .fin a m e =>
    let n := if n > 8192 then 8192 else if n < -8192 then -8192 else n
    .val (.fin a m (if m = 0 then 0 else e + n)) 0

/-- An exact value's comparison: none when unordered. Zeros of both signs are equal. -/
def valCmp (x y : Val) : Option Ordering :=
  match x, y with
  | .nan _, _ => none
  | _, .nan _ => none
  | .inf a, .inf b => some (if a = b then .eq else if a then .lt else .gt)
  | .inf a, .fin _ _ _ => some (if a then .lt else .gt)
  | .fin _ _ _, .inf b => some (if b then .gt else .lt)
  | .fin n1 m1 e1, .fin n2 m2 e2 =>
    match addFin .rne n1 m1 e1 (!n2) m2 e2 with
    | .fin n m _ => some (if m = 0 then .eq else if n then .lt else .gt)
    | .nan _ | .inf _ => none

/-- The sign of a value. -/
def valNeg : Val → Bool
  | .nan _ => false
  | .inf n => n
  | .fin n _ _ => n

/-- minimumNumber and maximumNumber (R114): −0 orders below +0; a NaN with a number gives the number. -/
def minMaxNum (wantMax : Bool) (x y : Val) : Exact :=
  let fl := if x = .nan true ∨ y = .nan true then flagNV else 0
  match x, y with
  | .nan s, .nan t => .val (.nan (s || t)) 0
  | .nan _, v => .val v fl
  | v, .nan _ => .val v fl
  | x, y =>
    let xLess : Bool :=
      match valCmp x y with
      | some .lt => true
      | some .gt => false
      | some .eq => valNeg x && !valNeg y
      | none => false
    .val (if xLess = wantMax then y else x) fl

/-- Rounds to an integral value (R117), exact in the format: the value, no NX. The sign of a zero result is kept. -/
def exactIntegral (r : Rnd) (x : Val) : Exact :=
  match x with
  | .nan s => .val (.nan s) 0
  | .inf n => .val (.inf n) 0
  | .fin n m e =>
    if 0 ≤ e then .val x 0
    else .val (.fin n (roundShift r n m (-e).toNat false).1 0) 0

/-- The exact dot product of R59, and its IEEE special cases. -/
def exactDot2 (r : Rnd) (a0 b0 a1 b1 c : Val) : Exact :=
  let p0 := exactMul a0 b0
  let p1 := exactMul a1 b1
  let fl := exactFlags p0 ||| exactFlags p1
  match nanOf [exactVal p0, exactVal p1, c] with
  | some z => .val (exactVal z) fl
  | none =>
    match exactVal p0, exactVal p1, c with
    | .fin n0 m0 e0, .fin n1 m1 e1, .fin n2 m2 e2 =>
      if m0 = 0 ∧ m1 = 0 ∧ m2 = 0 then
        .val (.fin (if n0 = n1 ∧ n1 = n2 then n0 else decide (r = .rdn)) 0 0) fl
      else
        match addFin r n0 m0 e0 n1 m1 e1 with
        | .fin n m e =>
          match addFin r n m e n2 m2 e2 with
          | .fin s k g => .val (.fin (if k = 0 then decide (r = .rdn) else s) k g) fl
          | v => .val v fl
        | v => .val v fl
    | x, y, z =>
      let infs := [x, y, z].filterMap fun v => match v with | .inf n => some n | .nan _ => none | .fin _ _ _ => none
      if infs.all (· = true) then .val (.inf true) fl
      else if infs.all (· = false) then .val (.inf false) fl
      else .val (.nan false) (fl ||| flagNV)

/-- Rounds a value to an integer of a width and signedness, saturated (R48). The code is two's complement in w
bits; NaN gives 0; NaN, infinity and values out of range set NV only. -/
def roundToInt (signed : Bool) (w : Nat) (r : Rnd) (x : Exact) : Coded :=
  let lo : Int := if signed then -(2 ^ (w - 1) : Nat) else 0
  let hi : Int := if signed then ((2 ^ (w - 1) - 1 : Nat) : Int) else ((2 ^ w - 1 : Nat) : Int)
  let enc (v : Int) : Nat := (v % ((2 ^ w : Nat) : Int)).toNat
  let fin (neg : Bool) (g : Mag) (fl : Flags) : Coded :=
    let (k, inexact) := roundToQ r neg g 0
    let v : Int := if neg then -(k : Int) else (k : Int)
    if v < lo then ⟨enc lo, fl ||| flagNV⟩
    else if hi < v then ⟨enc hi, fl ||| flagNV⟩
    else ⟨enc v, fl ||| (if inexact then flagNX else 0)⟩
  match x with
  | .val (.nan _) fl => ⟨0, fl ||| flagNV⟩
  | .val (.inf n) fl => ⟨enc (if n then lo else hi), fl ||| flagNV⟩
  | .val (.fin n m e) fl => fin n ⟨m, e, false⟩ fl
  | .mag n g fl => fin n g fl

/-- The mode that rounds a magnitude of exponent q to a scale's grid: an SX8 code holds the exponent alone, and its least
bit is the exponent's, which decides a tie of RNE and the result of RO (R47, R50, R119). -/
def scaleMode (f : ScaleFmt) (r : Rnd) (g : Mag) (q : Int) : Rnd :=
  match f with
  | .sf12 => r
  | .sx8 =>
    let odd := decide ((q + 127) % 2 = 1)
    let tie := !g.st && decide (2 ≤ bitLen g.m ∧ g.m = 3 <<< (bitLen g.m - 2))
    match r with
    | .rne => if tie && !odd then .rtz else .rmm
    | .ro => if odd then .rtz else .rup
    | _ => r

/-- Rounds to a scale's grid (R119): NaN code with NV for NaN, zero, negative and −∞; always saturating. -/
def roundToScale (f : ScaleFmt) (r : Rnd) (x : Exact) : Coded :=
  let nanCode : Nat := match f with | .sx8 => 0xFF | .sf12 => 0xFF0
  let top : Nat := match f with | .sx8 => 0xFE | .sf12 => 0xFEF
  let p : Nat := match f with | .sx8 => 1 | .sf12 => 5
  let mag (g : Mag) (fl : Flags) : Coded :=
    let q : Int := g.e + (bitLen g.m : Int) - (p : Int)
    let (k, inexact) := roundToQ (scaleMode f r g q) false g q
    let carry := decide (k = 2 ^ p)
    let k := if carry then 2 ^ (p - 1) else k
    let e : Int := q + (if carry then 1 else 0) + (p : Int) - 1
    if e > 127 then ⟨top, fl ||| flagOF ||| flagNX⟩
    else if e < -127 then ⟨0, fl ||| flagUF ||| flagNX⟩
    else
      let ec := (e + 127).toNat
      let code : Nat := match f with | .sx8 => ec | .sf12 => ec * 16 + (k - 16)
      ⟨code, fl ||| (if inexact then flagNX else 0)⟩
  match x with
  | .val (.nan _) fl => ⟨nanCode, fl ||| flagNV⟩
  | .val (.inf n) fl => if n then ⟨nanCode, fl ||| flagNV⟩ else ⟨top, fl ||| flagOF ||| flagNX⟩
  | .val (.fin n m e) fl => if n ∨ m = 0 then ⟨nanCode, fl ||| flagNV⟩ else mag ⟨m, e, false⟩ fl
  | .mag n g fl => if n then ⟨nanCode, fl ||| flagNV⟩ else mag g fl

/-- The quotient of R55, with its limit cases in their order. -/
def scaleQuotient (x s : Val) : Exact :=
  match s with
  | .inf _ => invalid
  | .fin true m _ => if m ≠ 0 then invalid else quotientRest x s
  | .fin false _ _ => quotientRest x s
  | .nan _ => quotientRest x s
where
  /-- The rows of R55 after the first. -/
  quotientRest (x s : Val) : Exact :=
    match nanOf [x, s] with
    | some z => z
    | none =>
      match x, s with
      | .inf a, s => .val (.inf (a != valNeg s)) 0
      | .fin a m e, .fin b n g =>
        if n = 0 then (if m = 0 then invalid else .val (.inf (a != b)) flagDZ)
        else if m = 0 then .val (.fin (a != b) 0 0) 0
        else .mag (a != b) (divMag m e n g) 0
      | _, _ => invalid

/-- The stochastic generator's next state (R53). -/
def srAdvance (s : Word) : Word :=
  let t := s >>> 1
  if s.getLsbD 0 then t ^^^ 0x80200003#32 else t

/-- The rotated state of lane L (R53). -/
def srLane (s : Word) (lane : Nat) : Word := s.rotateLeft (7 * lane % 32)

end Sys2Proof.Machine
end

