-- ==== Sys2Proof/Machine/Transc.lean ====
section
/-! DEFINITION. The transcendental instructions' exact values (R113, R114): binary fixed point of 704 fraction bits,
cut to 640 with a sticky mark where the value is irrational (log 11). Rational results are given exactly. -/

namespace Sys2Proof.Machine

/-- Fraction bits of the fixed-point numbers of this file. -/
def fxBits : Nat := 704

/-- One in fixed point. -/
def fxOne : Nat := 2 ^ fxBits

/-- Product of fixed-point numbers. -/
def fxMul (a b : Nat) : Nat := (a * b) >>> fxBits

/-- Σ z^(2k+1)/(2k+1), from term `pw` = z^(2k+1): atanh. -/
def fxAtanhGo (z2 : Nat) : Nat → Nat → Nat → Nat
  | 0, _, _ => 0
  | fuel + 1, k, pw => if pw = 0 then 0 else pw / (2 * k + 1) + fxAtanhGo z2 fuel (k + 1) (fxMul pw z2)

/-- atanh z in fixed point, 0 ≤ z ≤ 1/3. -/
def fxAtanh (z : Nat) : Nat := fxAtanhGo (fxMul z z) 400 0 z

/-- ln 2 in fixed point. -/
def fxLn2 : Nat := 2 * fxAtanh (fxOne / 3)

/-- The odd or even alternating series of sine and cosine: Σ (−1)^k t_k as a pair of positive and negative sums. -/
def fxAlt (z2 : Nat) : Nat → Nat → Nat → Bool → Int
  | 0, _, _, _ => 0
  | fuel + 1, k, t, neg =>
    if t = 0 then 0
    else (if neg then -(t : Int) else (t : Int)) + fxAlt z2 fuel (k + 2) (fxMul t z2 / ((k + 1) * (k + 2))) (!neg)

/-- sin z in fixed point. -/
def fxSin (z : Nat) : Nat := (fxAlt (fxMul z z) 300 1 z false).toNat

/-- cos z in fixed point. -/
def fxCos (z : Nat) : Nat := (fxAlt (fxMul z z) 300 0 fxOne false).toNat

/-- Σ of arctan's alternating series for 1/n. -/
def fxAtanInvGo (n2 : Nat) : Nat → Nat → Nat → Bool → Int
  | 0, _, _, _ => 0
  | fuel + 1, k, pw, neg =>
    if pw = 0 then 0
    else (if neg then -((pw / (2 * k + 1) : Nat) : Int) else ((pw / (2 * k + 1) : Nat) : Int))
      + fxAtanInvGo n2 fuel (k + 1) (pw / n2) (!neg)

/-- arctan (1/n) in fixed point. -/
def fxAtanInv (n : Nat) : Int := fxAtanInvGo (n * n) 400 0 (fxOne / n) false

/-- π in fixed point (Machin). -/
def fxPi : Nat := (16 * fxAtanInv 5 - 4 * fxAtanInv 239).toNat

/-- Σ y^k / k!. -/
def fxExpGo (y : Nat) : Nat → Nat → Nat → Nat
  | 0, _, _ => 0
  | fuel + 1, k, t => if t = 0 then 0 else t + fxExpGo y fuel (k + 1) (fxMul t y / (k + 1))

/-- exp y in fixed point, 0 ≤ y < 1. -/
def fxExp (y : Nat) : Nat := fxExpGo y 300 0 fxOne

/-- A non-negative dyadic in fixed point, exact for the formats of R113 below binary64. -/
def fxOf (m : Nat) (e : Int) : Nat :=
  if -(fxBits : Int) ≤ e then m <<< (e + (fxBits : Int)).toNat else m >>> (-(fxBits : Int) - e).toNat

/-- An irrational fixed-point result times 2^sh as a magnitude: 64 guard bits dropped, sticky. -/
def fxMag (v : Nat) (sh : Int) : Mag := ⟨v >>> 64, sh - (fxBits : Int) + 64, true⟩

/-- A magnitude just below 1. -/
def belowOne : Mag := ⟨2 ^ 640 - 1, -640, true⟩

/-- exp2, correctly rounded (R114). -/
def exactExp2 (x : Val) : Exact :=
  match x with
  | .nan s => .val (.nan s) 0
  | .inf n => .val (if n then .fin false 0 0 else .inf false) 0
  | .fin n m e =>
    if m = 0 then .val (.fin false 1 0) 0
    else if e + (bitLen m : Int) > 10 then .mag false ⟨2 ^ 100, if n then -1200 else 1000, true⟩ 0
    else
      let v := fxOf m e
      let whole := v >>> fxBits
      let frac := v - (whole <<< fxBits)
      if frac = 0 then .val (.fin false 1 (if n then -(whole : Int) else (whole : Int))) 0
      else if n then .mag false (fxMag (fxExp (fxMul (fxOne - frac) fxLn2)) (-(whole : Int) - 1)) 0
      else .mag false (fxMag (fxExp (fxMul frac fxLn2)) (whole : Int)) 0

/-- log2, correctly rounded (R114). -/
def exactLog2 (x : Val) : Exact :=
  match x with
  | .nan s => .val (.nan s) 0
  | .inf n => if n then invalid else .val (.inf false) 0
  | .fin n m e =>
    if m = 0 then .val (.inf true) flagDZ
    else if n then invalid
    else
      let l := m.log2
      let ex : Int := e + (l : Int)
      if m = 2 ^ l then .val (.fin (decide (ex < 0)) ex.natAbs 0) 0
      else
        -- the mantissa t in (1, 2): log2 t = 2 atanh((t-1)/(t+1)) / ln 2
        let t := fxOf m (-(l : Int))
        let lg := (2 * fxAtanh (((t - fxOne) <<< fxBits) / (t + fxOne)) <<< fxBits) / fxLn2
        let v : Int := ex * (fxOne : Int) + (lg : Int)
        .mag (decide (v < 0)) (fxMag v.natAbs 0) 0

/-- The quarter turn of |x| mod 2 and what remains of it, in units of 2^-704 of a half turn's half: (quadrant, rest)
with |x| mod 2 = quadrant/2 + rest. -/
def piQuadrant (m : Nat) (e : Int) : Nat × Nat :=
  if 1 ≤ e then (0, 0)
  else
    let v := fxOf m e % (2 * fxOne)
    let half := fxOne / 2
    (v / half, v % half)

/-- sinPi, correctly rounded (R114): an integer gives a zero of its sign. -/
def exactSinPi (x : Val) : Exact :=
  match x with
  | .nan s => .val (.nan s) 0
  | .inf _ => invalid
  | .fin n m e =>
    if m = 0 then .val x 0
    else
      let (k, r) := piQuadrant m e
      let half := fxOne / 2
      -- sin π(k/2 + r): k = 0 sin πr, 1 cos πr, 2 −sin πr, 3 −cos πr
      if r = 0 then
        (if k % 2 = 0 then .val (.fin n 0 0) 0 else .val (.fin (n != decide (k = 3)) 1 0) 0)
      else
        let a := if k % 2 = 0 then r else half - r
        .mag (n != decide (k ≥ 2)) (fxMag (fxSin (fxMul a fxPi)) 0) 0

/-- cosPi, correctly rounded (R114): a half-integer gives +0. -/
def exactCosPi (x : Val) : Exact :=
  match x with
  | .nan s => .val (.nan s) 0
  | .inf _ => invalid
  | .fin _ m e =>
    if m = 0 then .val (.fin false 1 0) 0
    else
      let (k, r) := piQuadrant m e
      if r = 0 then
        (if k % 2 = 1 then .val (.fin false 0 0) 0 else .val (.fin (decide (k = 2)) 1 0) 0)
      else
        -- cos π(k/2 + r): k = 0 cos πr, 1 −sin πr, 2 −cos πr, 3 sin πr
        let v := if k % 2 = 0 then fxCos (fxMul r fxPi) else fxSin (fxMul r fxPi)
        .mag (decide (k = 1 ∨ k = 2)) (fxMag v 0) 0

/-- tanh, correctly rounded (R114). -/
def exactTanh (x : Val) : Exact :=
  match x with
  | .nan s => .val (.nan s) 0
  | .inf n => .val (.fin n 1 0) 0
  | .fin n m e =>
    if m = 0 then .val x 0
    else if e + (bitLen m : Int) > 7 then .mag n belowOne 0
    else
      -- (e^2x − 1) / (e^2x + 1) with 2x = w ln 2 + r
      let v := 2 * fxOf m e
      let w := v / fxLn2
      let ex := fxExp (v - w * fxLn2) <<< w
      .mag n (fxMag (((ex - fxOne) <<< fxBits) / (ex + fxOne)) 0) 0

end Sys2Proof.Machine
end

