-- ==== Sys2Proof/Machine/Flags.lean ====
section
/-! DEFINITION. The results and the flags of the floating-point and conversion instructions (R56 to R62, R102, R113 to
R125), each a function of the operand values. -/

namespace Sys2Proof.Machine

/-- A register result with its flags. -/
structure FRes where
  bits : DWord
  flags : Flags
  deriving DecidableEq, Repr

/-- The rounding of a code of R50: code 111 takes `FPCTL`.RM, code 110 the random bits u (R52, R56). -/
def rndOf (code : BitVec 3) (rm : BitVec 3) (u : Nat) : Rnd :=
  let c := if code = 7#3 then rm else code
  if c = 0#3 then .rne else if c = 1#3 then .rtz else if c = 2#3 then .rdn else if c = 3#3 then .rup
  else if c = 4#3 then .rmm else if c = 5#3 then .ro else if c = 6#3 then .sr u else .rne

/-- The element format of F, MOD[2:0] of R113. -/
def fFormat (f : BitVec 3) : Fp :=
  if f = 0#3 then .f32 else if f = 1#3 then .f64 else if f = 2#3 ∨ f = 4#3 then .f16 else .bf16

/-- Whether F is a packed format (R42, R113). -/
def fPacked (f : BitVec 3) : Bool := f = 4#3 ∨ f = 5#3

/-- Element i of an operand of format F. -/
def fElem (f : BitVec 3) (i : Nat) (x : DWord) : Val :=
  let fmt := fFormat f
  fpDecode fmt ((x >>> (16 * i)).toNat % 2 ^ fpWidth fmt)

/-- What an instruction's rounding uses: mode, saturate, flush. -/
structure FCtl where
  rnd : Rnd
  sat : Bool
  ftz : Bool
  deriving DecidableEq, Repr

/-- A floating-point instruction on each element of F (R113, R114): inputs flushed, the exact result rounded, the
flags ORed. -/
def fApply (f : BitVec 3) (ctl : FCtl) (op : Val → Val → Val → Exact) (a b c : DWord) : FRes :=
  let fmt := fFormat f
  let one (i : Nat) : Coded :=
    let r (x : DWord) := flushIn fmt ctl.ftz (fElem f i x)
    roundExact fmt ctl.rnd ctl.sat ctl.ftz (op (r a) (r b) (r c))
  if fPacked f then
    let c0 := one 0
    let c1 := one 1
    ⟨BitVec.ofNat 64 (c0.code + 65536 * c1.code), c0.flags ||| c1.flags⟩
  else
    let c0 := one 0
    ⟨BitVec.ofNat 64 c0.code, c0.flags⟩

/-- The instructions that pass a result without rounding (R114 `FMIN`, `FMAX`; R117 `FRND`): the value's code, NV for
a signalling NaN, the saturate bit's limit for an infinity (R50; log 115) and no flush. -/
def fPass (f : BitVec 3) (sat ftz : Bool) (op : Val → Val → Exact) (a b : DWord) : FRes :=
  let fmt := fFormat f
  let one (i : Nat) : Coded :=
    let r (x : DWord) := flushIn fmt ftz (fElem f i x)
    roundExact fmt .rne sat false (op (r a) (r b))
  if fPacked f then
    let c0 := one 0
    let c1 := one 1
    ⟨BitVec.ofNat 64 (c0.code + 65536 * c1.code), c0.flags ||| c1.flags⟩
  else
    let c0 := one 0
    ⟨BitVec.ofNat 64 c0.code, c0.flags⟩

/-- Plus zero. -/
def zeroVal : Val := .fin false 0 0

/-- The value 1. -/
def oneVal : Val := .fin false 1 0

/-- `FDOT2` (R116, R59). -/
def fDot2 (f : BitVec 3) (ctl : FCtl) (a b c : DWord) : FRes :=
  let fmt := fFormat f
  let e (i : Nat) (x : DWord) := flushIn fmt ctl.ftz (fElem f i x)
  let cv := flushIn .f32 ctl.ftz (fpDecode .f32 (natLow 32 c))
  let r := roundExact .f32 ctl.rnd ctl.sat ctl.ftz (exactDot2 ctl.rnd (e 0 a) (e 0 b) (e 1 a) (e 1 b) cv)
  ⟨BitVec.ofNat 64 r.code, r.flags⟩

/-- `FCMP` (R102): the truth and the flags. -/
def fCompare (cc : BitVec 3) (f : BitVec 3) (a b : DWord) : Bool × Flags :=
  let x := fElem f 0 a
  let y := fElem f 0 b
  let isNan (v : Val) : Bool := match v with | .nan _ => true | .inf _ => false | .fin _ _ _ => false
  let un := isNan x || isNan y
  let sig := decide (x = .nan true) || decide (y = .nan true)
  let ordering := valCmp x y
  let eq := decide (ordering = some .eq)
  let lt := decide (ordering = some .lt)
  let gt := decide (ordering = some .gt)
  let truth :=
    if cc = 0#3 then eq else if cc = 1#3 then !eq else if cc = 2#3 then lt else if cc = 3#3 then lt || eq
    else if cc = 4#3 then gt else if cc = 5#3 then gt || eq else if cc = 6#3 then un else !un
  let ordered := decide (cc = 2#3 ∨ cc = 3#3 ∨ cc = 4#3 ∨ cc = 5#3)
  (truth, if sig || (ordered && un) then flagNV else 0)

/-- The format of a type code (R88) that is a floating-point type. -/
def typeFp (code : Nat) : Option Fp :=
  match code with
  | 0x00 => some .f32
  | 0x01 => some .f64
  | 0x02 | 0x04 => some .f16
  | 0x03 | 0x05 => some .bf16
  | 0x06 => some .e4m3
  | 0x07 => some .e5m2
  | 0x08 => some .e2m1
  | 0x09 => some .dy8
  | _ => none

/-- The scale format of a type code (R88). -/
def typeScale (code : Nat) : Option ScaleFmt :=
  match code with
  | 0x0A => some .sx8
  | 0x0B => some .sf12
  | _ => none

/-- Signedness and width of an integer type code (R88). -/
def typeInt (code : Nat) : Option (Bool × Nat) :=
  match code with
  | 0x10 => some (true, 8)
  | 0x11 => some (true, 16)
  | 0x12 => some (true, 32)
  | 0x13 => some (true, 64)
  | 0x14 => some (false, 8)
  | 0x15 => some (false, 16)
  | 0x16 => some (false, 32)
  | 0x17 => some (false, 64)
  | _ => none

/-- `FCLASS`'s class (R103): 0 −∞ to 9 quiet NaN. -/
def fClass (f : Fp) (code : Nat) : Nat :=
  match fpDecode f code with
  | .inf true => 0
  | .inf false => 7
  | .nan true => 8
  | .nan false => 9
  | .fin neg m _ =>
    if m = 0 then (if neg then 3 else 4)
    else if f ≠ .dy8 ∧ m < 2 ^ (fpPrec f - 1) then (if neg then 2 else 5)
    else (if neg then 1 else 6)

/-- The exact value of an operand of a type code (R88, R118). -/
def typeVal (code : Nat) (ftz : Bool) (x : DWord) : Val :=
  match typeFp code, typeScale code, typeInt code with
  | some f, _, _ => flushIn f ftz (fpDecode f (natLow (fpWidth f) x))
  | none, some s, _ => scaleDecode s (natLow 16 x)
  | none, none, some (signed, w) => let v := intLow signed w x; .fin (decide (v < 0)) v.natAbs 0
  | none, none, none => .nan false

/-- A value converted to a type code (R118, R119, R48): the register bits and flags. -/
def toType (code : Nat) (ctl : FCtl) (x : Exact) : FRes :=
  match typeFp code, typeScale code, typeInt code with
  | some f, _, _ => let c := roundExact f ctl.rnd ctl.sat ctl.ftz x; ⟨BitVec.ofNat 64 c.code, c.flags⟩
  | none, some s, _ => let c := roundToScale s ctl.rnd x; ⟨BitVec.ofNat 64 c.code, c.flags⟩
  | none, none, some (signed, w) =>
    let c := roundToInt signed w ctl.rnd x
    ⟨packInt signed w c.code, c.flags⟩
  | none, none, none => ⟨0, 0⟩

/-- `CVT` (R118): integer to integer wraps or clamps; a scale's NaN gives the target's NaN without a flag, but for the
targets that have no NaN. A chain through an intermediate format raises the flags of the one rounding that it equals
(R54; log 115). -/
def fCvt (dst src : Nat) (ctl : FCtl) (a : DWord) : FRes :=
  match typeInt src, typeInt dst with
  | some (ss, sw), some (ds, dw) =>
    let v := intLow ss sw a
    ⟨packInt ds dw (if ctl.sat then clampInt ds dw v else v), 0⟩
  | _, _ => toType dst ctl (.val (typeVal src ctl.ftz a) 0)

/-- The scale type of `QNT` and `DQNT`, MOD[5:4] (R120): the scale's value in B. -/
def qScale (kind : BitVec 2) (b : DWord) : Val :=
  if kind = 0#2 then fpDecode .f32 (natLow 32 b)
  else if kind = 1#2 then scaleDecode .sx8 (natLow 8 b)
  else scaleDecode .sf12 (natLow 12 b)

/-- `QNT` (R120, R55). -/
def fQnt (dst : Nat) (kind : BitVec 2) (ctl : FCtl) (a b : DWord) : FRes :=
  toType dst ctl (scaleQuotient (fpDecode .f32 (natLow 32 a)) (qScale kind b))

/-- `DQNT` (R121): a NaN gives 0x7FC0_0000, a signalling element also NV; a signalling scale sets none (log 115). -/
def fDqnt (src : Nat) (kind : BitVec 2) (a b : DWord) : FRes :=
  let v := typeVal src false a
  let s := qScale kind b
  match v, s with
  | .nan sig, _ => ⟨0x7FC00000#64, if sig then flagNV else 0⟩
  | _, .nan _ => ⟨0x7FC00000#64, 0⟩
  | _, _ => let c := roundExact .f32 .rne false false (exactMul v s); ⟨BitVec.ofNat 64 c.code, c.flags⟩

/-- One half of `PACK` (R122). -/
def fPackOne (dst : Nat) (ctl : FCtl) (a : DWord) : FRes :=
  toType dst ctl (.val (fpDecode .f32 (natLow 32 a)) 0)

/-- `PACK` (R122): 16-bit targets fill D, 8-bit targets one half and keep the other. -/
def fPack (dst : Nat) (hi : Bool) (ca cb : FCtl) (old a b : DWord) : FRes :=
  let x := fPackOne dst ca a
  let y := fPackOne dst cb b
  let fl := x.flags ||| y.flags
  if dst = 0x02 ∨ dst = 0x03 then ⟨BitVec.ofNat 64 (natLow 16 x.bits + 65536 * natLow 16 y.bits), fl⟩
  else
    let h := natLow 8 x.bits + 256 * natLow 8 y.bits
    ⟨BitVec.ofNat 64 (if hi then natLow 16 old + 65536 * h else natLow 32 old / 65536 * 65536 + h), fl⟩

/-- One element widened to binary32 (R123). -/
def fWiden (src : Nat) (x : DWord) : Coded := roundVal .f32 .rne false false (typeVal src false x)

/-- `UNPK` (R123): the pair as 64 bits, low element low. -/
def fUnpk (src : Nat) (hi : Bool) (a : DWord) : FRes :=
  let pair (x y : DWord) : FRes :=
    let c := fWiden src x
    let d := fWiden src y
    ⟨BitVec.ofNat 64 (c.code + 2 ^ 32 * d.code), c.flags ||| d.flags⟩
  if src = 0x04 ∨ src = 0x05 then pair a (a >>> 16)
  else
    let h := if hi then a >>> 16 else a
    pair h (h >>> 8)

/-- The target's largest finite magnitude of R125, as an exact value. -/
def scmaxTarget (code : Nat) : Nat × Int :=
  match code with
  | 0x10 => (127, 0)
  | 0x14 => (255, 0)
  | c => match typeFp c with
    | some f => fpMax f
    | none => (1, 0)

/-- `SCMAX`'s scale for contributors' binary32 values (R125). -/
def fScmax (target : Nat) (kind : BitVec 2) (vs : List DWord) : FRes :=
  let xs := vs.map fun v => fpDecode .f32 (natLow 32 v)
  let special := xs.any fun v => match v with | .nan _ => true | .inf _ => true | .fin _ _ _ => false
  let sig := xs.any fun v => decide (v = .nan true)
  let top := xs.foldl (fun (acc : Val) v =>
    match v with
    | .fin _ m e => (match valCmp acc (.fin false m e) with | some .lt => .fin false m e | _ => acc)
    | .nan _ => acc
    | .inf _ => acc) (.fin false 0 0)
  let nanCode : DWord := if kind = 0#2 then 0x7FC00000#64 else if kind = 1#2 then 0xFF#64 else 0xFF0#64
  let oneCode : DWord := if kind = 0#2 then 0x3F800000#64 else if kind = 1#2 then 0x7F#64 else 0x7F0#64
  if special then ⟨nanCode, if sig then flagNV else 0⟩
  else
    match top with
    | .fin _ m e =>
      if m = 0 then ⟨oneCode, 0⟩
      else
        let t := scmaxTarget target
        let q := divMag m e t.1 t.2
        let r : FRes :=
          if kind = 0#2 then
            -- the smallest binary32 at or above M / T
            let c := roundMag .f32 .rup false false false q
            if c.flags &&& flagOF ≠ 0 then ⟨BitVec.ofNat 64 (fpMaxCode .f32 false), flagOF ||| flagNX⟩
            else ⟨BitVec.ofNat 64 c.code, 0⟩
          else
            let c := roundToScale (if kind = 1#2 then .sx8 else .sf12) .rup (.mag false q 0)
            ⟨BitVec.ofNat 64 c.code, if c.flags &&& flagOF ≠ 0 then flagOF ||| flagNX else 0⟩
        r
    | .nan _ => ⟨nanCode, 0⟩
    | .inf _ => ⟨nanCode, 0⟩

/-- One node of `GRED`'s tree (R60, R130): the operation rounded to the format in RNE. `ty` is MOD[4:2]. -/
def gredNode (op : BitVec 2) (ty : BitVec 3) (x y : FRes) : FRes :=
  let fl := x.flags ||| y.flags
  if ty = 4#3 ∨ ty = 5#3 then
    let s := decide (ty = 4#3)
    let a := intLow s 32 x.bits
    let b := intLow s 32 y.bits
    let v := if op = 0#2 then a + b else if op = 1#2 then (if a ≤ b then a else b) else (if a ≤ b then b else a)
    ⟨packInt s 32 v, fl⟩
  else
    let f : Fp := if ty = 0#3 then .f32 else if ty = 2#3 then .f16 else .bf16
    let a := fpDecode f (natLow (fpWidth f) x.bits)
    let b := fpDecode f (natLow (fpWidth f) y.bits)
    let e := if op = 0#2 then exactAdd .rne a b else minMaxNum (decide (op = 2#2)) a b
    let c := roundExact f .rne false false e
    ⟨BitVec.ofNat 64 c.code, fl ||| c.flags⟩

/-- One level of the tree: pairs joined, a lone child passed on unchanged (R60). -/
def gredLevel (op : BitVec 2) (ty : BitVec 3) : List (Option FRes) → List (Option FRes)
  | [] => []
  | [x] => [x]
  | x :: y :: rest =>
    (match x, y with
     | some a, some b => some (gredNode op ty a b)
     | some a, none => some a
     | none, some b => some b
     | none, none => none) :: gredLevel op ty rest

/-- The identity `GRED` gives when every lane is absent (R60). -/
def gredIdentity (op : BitVec 2) (ty : BitVec 3) : DWord :=
  if ty = 4#3 then (if op = 0#2 then 0 else if op = 1#2 then 0x7FFFFFFF#64 else 0x80000000#64)
  else if ty = 5#3 then (if op = 1#2 then 0xFFFFFFFF#64 else 0)
  else
    let f : Fp := if ty = 0#3 then .f32 else if ty = 2#3 then .f16 else .bf16
    if op = 0#2 then 0 else BitVec.ofNat 64 (fpInfCode f (decide (op = 2#2)))

/-- `GRED` over 32 lanes (R60, R130). -/
def gredTree (op : BitVec 2) (ty : BitVec 3) (lanes : List (Option DWord)) : FRes :=
  let w := if ty = 2#3 ∨ ty = 3#3 then 16 else 32
  let l0 := lanes.map fun v => v.map fun x => (⟨lowBits w x, 0⟩ : FRes)
  let l := gredLevel op ty (gredLevel op ty (gredLevel op ty (gredLevel op ty (gredLevel op ty l0))))
  match l with
  | some r :: _ => r
  | _ => ⟨gredIdentity op ty, 0⟩

end Sys2Proof.Machine
end

