-- ==== Sys2Proof/Syntax.lean ====
section
/-! DEFINITION. Every instruction and every step of the machine as syntax: one constructor of `Instr` per row of
spec/opcode_table.json. A thread instruction carries the fields of its word (R69, R72); a step of another agent
carries what names the step. -/

namespace Sys2Proof

/-- The three lengths of an instruction (R64). -/
inductive Len where
  | l64 | l96 | l128
  deriving DecidableEq, Repr

/-- Bytes of an instruction of each length (R64). -/
def Len.bytes : Len → Nat
  | .l64 => 8
  | .l96 => 12
  | .l128 => 16

/-- The fields of an instruction word: the base word of R69 without OPC, and the extension words of R72. The
operand fields stay the 10 bits the word holds; `x1` is bits [95:64] and `x2` bits [127:96], zero where the
length has none. -/
structure Form where
  len : Len
  mod : BitVec 6
  holdSrc : BitVec 2
  holdEntry : BitVec 2
  c : BitVec 10
  b : BitVec 10
  a : BitVec 10
  d : BitVec 10
  inv : Bool
  pred : BitVec 3
  x1 : Word
  x2 : Word
  deriving DecidableEq, Repr

/-- A die protocol message that carries contents (R296): its sector, its die, the bytes when it has them, the
partial's element halves, touched marks and tag, the times of R265, whether the bytes differ from the home's,
whether ownership goes with it, and the context whose store or `RED` the contents are (R251, R341). -/
structure SectorMsg where
  sec : Nat
  die : Nat
  bytes : Option Sector
  parts : List (Option DWord)
  marks : List Bool
  tag : Nat
  wts : Nat
  rts : Nat
  dirty : Bool
  own : Bool
  ctx : Option Nat
  deriving DecidableEq, Repr

/-- What every management message to the device carries (R345): the sending node, the context, and the sequence
number its reply repeats. -/
structure HostHead where
  node : Nat
  ctxid : Nat
  seq : Nat
  deriving DecidableEq, Repr

/-- A remote atomic as it arrives at a package (R167, R305): the requester, its operation number there, the
context, address, operation and type codes of R159, and the operand. -/
structure RemoteAtom where
  node : Nat
  op : Nat
  ctxid : Nat
  addr : Nat
  aop : Nat
  aty : Nat
  val : DWord
  deriving DecidableEq, Repr

/-- A firmware image at reset (R373): its type, security version, header and payload bytes, and signature. -/
structure FirmwareImage where
  kind : Nat
  version : Nat
  bytes : List Byte
  signature : List Byte
  deriving DecidableEq, Repr

/-- A bring-up launch (R377): the die, and the bytes placed at an offset in its bring-up SRAM with the launch
record's offset there. -/
structure TrainingImage where
  die : Nat
  offset : Nat
  bytes : List Byte
  record : Nat
  deriving DecidableEq, Repr

/-- What the scrub finds in a sector (R363): nothing, a corrected error, or an error past correction. -/
inductive ScrubFinding where
  | clean | corrected | uncorrectable
  deriving DecidableEq, Repr

/-- A PHY register block (R378): stack, channel and pseudo-channel. -/
structure PhyBlock where
  stack : Nat
  channel : Nat
  pseudo : Nat
  deriving DecidableEq, Repr

/-- Every row of the opcode table. -/
inductive Instr where
  /-- `NOP` (R92). -/
  | nop (f : Form)
  /-- `BRA` (R93). -/
  | bra (f : Form)
  /-- `JMP` (R93). -/
  | jmp (f : Form)
  /-- `CALL` (R94). -/
  | call (f : Form)
  /-- `CALLI` (R94). -/
  | calli (f : Form)
  /-- `RET` (R95). -/
  | ret (f : Form)
  /-- `EXIT` (R96). -/
  | exit (f : Form)
  /-- `LOOP` (R98). -/
  | loop (f : Form)
  /-- `YIELD` (R100). -/
  | yield (f : Form)
  /-- `TRAP` (R101). -/
  | trap (f : Form)
  /-- `BKPT` (R101). -/
  | bkpt (f : Form)
  /-- `ICMP` (R103). -/
  | icmp (f : Form)
  /-- `FCMP` (R103). -/
  | fcmp (f : Form)
  /-- `PLOP` (R103). -/
  | plop (f : Form)
  /-- `SEL` (R103). -/
  | sel (f : Form)
  /-- `PMOV.get` (R103). -/
  | pmovGet (f : Form)
  /-- `PMOV.put` (R103). -/
  | pmovPut (f : Form)
  /-- `FCLASS` (R103). -/
  | fclass (f : Form)
  /-- `ADD` (R105). -/
  | add (f : Form)
  /-- `SUB` (R105). -/
  | sub (f : Form)
  /-- `ADDC` (R106). -/
  | addc (f : Form)
  /-- `MUL` (R105). -/
  | mul (f : Form)
  /-- `MULH` (R105). -/
  | mulh (f : Form)
  /-- `MAD` (R105). -/
  | mad (f : Form)
  /-- `MADW` (R105). -/
  | madw (f : Form)
  /-- `ABS` (R105). -/
  | abs (f : Form)
  /-- `MIN` (R105). -/
  | min (f : Form)
  /-- `MAX` (R105). -/
  | max (f : Form)
  /-- `DOT4` (R105). -/
  | dot4 (f : Form)
  /-- `SAD` (R105). -/
  | sad (f : Form)
  /-- `AND` (R107). -/
  | and (f : Form)
  /-- `OR` (R107). -/
  | or (f : Form)
  /-- `XOR` (R107). -/
  | xor (f : Form)
  /-- `BFN` (R108). -/
  | bfn (f : Form)
  /-- `SHL` (R107). -/
  | shl (f : Form)
  /-- `SHR` (R107). -/
  | shr (f : Form)
  /-- `SHRA` (R107). -/
  | shra (f : Form)
  /-- `ROL` (R107). -/
  | rol (f : Form)
  /-- `FSH` (R107). -/
  | fsh (f : Form)
  /-- `POPC` (R107). -/
  | popc (f : Form)
  /-- `CLZ` (R107). -/
  | clz (f : Form)
  /-- `BREV` (R107). -/
  | brev (f : Form)
  /-- `BFE` (R109). -/
  | bfe (f : Form)
  /-- `BFI` (R109). -/
  | bfi (f : Form)
  /-- `BSEL` (R110). -/
  | bsel (f : Form)
  /-- `LEA` (R111). -/
  | lea (f : Form)
  /-- `TADDR` (R112). -/
  | taddr (f : Form)
  /-- `FADD` (R114). -/
  | fadd (f : Form)
  /-- `FSUB` (R114). -/
  | fsub (f : Form)
  /-- `FMUL` (R114). -/
  | fmul (f : Form)
  /-- `FFMA` (R114). -/
  | ffma (f : Form)
  /-- `FMIN` (R114). -/
  | fmin (f : Form)
  /-- `FMAX` (R114). -/
  | fmax (f : Form)
  /-- `FRCP` (R114). -/
  | frcp (f : Form)
  /-- `FRSQ` (R114). -/
  | frsq (f : Form)
  /-- `FSQRT` (R114). -/
  | fsqrt (f : Form)
  /-- `FEXP2` (R114). -/
  | fexp2 (f : Form)
  /-- `FLOG2` (R114). -/
  | flog2 (f : Form)
  /-- `FSIN` (R114). -/
  | fsin (f : Form)
  /-- `FCOS` (R114). -/
  | fcos (f : Form)
  /-- `FTANH` (R114). -/
  | ftanh (f : Form)
  /-- `FDIV` (R114). -/
  | fdiv (f : Form)
  /-- `FSCALE` (R114). -/
  | fscale (f : Form)
  /-- `FDOT2` (R116). -/
  | fdot2 (f : Form)
  /-- `FRND` (R117). -/
  | frnd (f : Form)
  /-- `CVT` (R118). -/
  | cvt (f : Form)
  /-- `QNT` (R120). -/
  | qnt (f : Form)
  /-- `DQNT` (R121). -/
  | dqnt (f : Form)
  /-- `PACK` (R122). -/
  | pack (f : Form)
  /-- `UNPK` (R123). -/
  | unpk (f : Form)
  /-- `BPLN` (R124). -/
  | bpln (f : Form)
  /-- `BUNP` (R124). -/
  | bunp (f : Form)
  /-- `SCMAX` (R125). -/
  | scmax (f : Form)
  /-- `PGATH` (R127). -/
  | pgath (f : Form)
  /-- `LXCH` (R128). -/
  | lxch (f : Form)
  /-- `MATCH` (R129). -/
  | matchLanes (f : Form)
  /-- `GRED` (R130). -/
  | gred (f : Form)
  /-- `MOV` (R131). -/
  | mov (f : Form)
  /-- `MOVK` (R132). -/
  | movk (f : Form)
  /-- `MOVI` (R131). -/
  | movi (f : Form)
  /-- `XSET` (R133). -/
  | xset (f : Form)
  /-- `XGET` (R134). -/
  | xget (f : Form)
  /-- `XADJ` (R134). -/
  | xadj (f : Form)
  /-- `RCPY` (R135). -/
  | rcpy (f : Form)
  /-- `LD` (R144). -/
  | ld (f : Form)
  /-- `ST` (R144). -/
  | st (f : Form)
  /-- `LDK` (R145). -/
  | ldk (f : Form)
  /-- `STK` (R145). -/
  | stk (f : Form)
  /-- `LDT` (R149). -/
  | ldt (f : Form)
  /-- `STT` (R149). -/
  | stt (f : Form)
  /-- `PRF` (R150). -/
  | prf (f : Form)
  /-- `CPY` (R153). -/
  | cpy (f : Form)
  /-- `CPYT` (R153). -/
  | cpyt (f : Form)
  /-- `CPYE` (R153). -/
  | cpye (f : Form)
  /-- `MATZ` (R155). -/
  | matz (f : Form)
  /-- `ALQ` (R156). -/
  | alq (f : Form)
  /-- `PIN` (R157). -/
  | pin (f : Form)
  /-- `UNPIN` (R157). -/
  | unpin (f : Form)
  /-- `TOUCH` (R157). -/
  | touch (f : Form)
  /-- `CFLUSH` (R158). -/
  | cflush (f : Form)
  /-- `CINV` (R158). -/
  | cinv (f : Form)
  /-- `ATOM` (R160). -/
  | atom (f : Form)
  /-- `ACAS` (R161). -/
  | acas (f : Form)
  /-- `RED` (R162). -/
  | red (f : Form)
  /-- `ATOMQ` (R167). -/
  | atomq (f : Form)
  /-- `CQPOP` (R168). -/
  | cqpop (f : Form)
  /-- `WAITC` (R164). -/
  | waitc (f : Form)
  /-- `WSIG` (R166). -/
  | wsig (f : Form)
  /-- `PUTR` (R166). -/
  | putr (f : Form)
  /-- `GETR` (R166). -/
  | getr (f : Form)
  /-- `BAR` (R169). -/
  | bar (f : Form)
  /-- `CBAR` (R169). -/
  | cbar (f : Form)
  /-- `ABINIT` (R173). -/
  | abinit (f : Form)
  /-- `ABARV` (R173). -/
  | abarv (f : Form)
  /-- `ABWAIT` (R173). -/
  | abwait (f : Form)
  /-- `FENCEG` (R174). -/
  | fenceg (f : Form)
  /-- `FENCEX` (R175). -/
  | fencex (f : Form)
  /-- `WAIT` (R176). -/
  | wait (f : Form)
  /-- `CVG` (R177). -/
  | cvg (f : Form)
  /-- `TCLAIM` (R184). -/
  | tclaim (f : Form)
  /-- `TREL` (R184). -/
  | trel (f : Form)
  /-- `TLD` (R186). -/
  | tld (f : Form)
  /-- `TST` (R187). -/
  | tst (f : Form)
  /-- `TZERO` (R187). -/
  | tzero (f : Form)
  /-- `TMMA` (R188). -/
  | tmma (f : Form)
  /-- `TMMAS` (R189). -/
  | tmmas (f : Form)
  /-- `TMOVV` (R192). -/
  | tmovv (f : Form)
  /-- `TSTAT` (R193). -/
  | tstat (f : Form)
  /-- `TWAIT` (R193). -/
  | twait (f : Form)
  /-- `MQPUSH` (R190). -/
  | mqpush (f : Form)
  /-- `MQCLR` (R190). -/
  | mqclr (f : Form)
  /-- `XOP` (R197). -/
  | xop (f : Form)
  /-- `XOPR` (R197). -/
  | xopr (f : Form)
  /-- `TIDSET` (R196). -/
  | tidset (f : Form)
  /-- `TIDGET` (R196). -/
  | tidget (f : Form)
  /-- `GFIRE` (R202). -/
  | gfire (f : Form)
  /-- `NODEQ` (R203). -/
  | nodeq (f : Form)
  /-- `MFS` (R205). -/
  | mfs (f : Form)
  /-- `MTS` (R205). -/
  | mts (f : Form)
  /-- `RTT` (R206). -/
  | rtt (f : Form)
  /-- `CTXSV` (R207). -/
  | ctxsv (f : Form)
  /-- `CTXRS` (R208). -/
  | ctxrs (f : Form)
  /-- `SPILLW` (R209). -/
  | spillw (f : Form)
  /-- `FILLW` (R209). -/
  | fillw (f : Form)
  /-- `ICINV` (R211). -/
  | icinv (f : Form)
  /-- `TLBINV` (R211). -/
  | tlbinv (f : Form)
  /-- `EXITP` (R210). -/
  | exitp (f : Form)
  /-- `CLOCK` (R212). -/
  | clock (f : Form)
  /-- `PERF` (R212). -/
  | perf (f : Form)
  /-- `SLEEP` (R213). -/
  | sleep (f : Form)
  /-- `HALT` (R214). -/
  | halt (f : Form)
  /-- INSTRUCTION_FETCH (R65): Fetches an aligned 32-byte code block, translated like a load. -/
  | instructionFetch (die site part : Nat) (block : Nat)
  /-- PROMOTION (R34): A thread left unissued for 2,048 clk is promoted above unpromoted candidates. -/
  | promotion (t : Nat)
  /-- LOOP_BUFFER_GRANT (R99): A freed loop buffer goes to the oldest waiting LOOP. -/
  | loopBufferGrant (die site part : Nat)
  /-- LOAD_RETURN (R144): Data of an outstanding load returns, writing its register and lowering ld. -/
  | loadReturn (a : Nat)
  /-- ACCESS_ACKNOWLEDGE (R140): A store or atomic is acknowledged by its home and its counter falls. -/
  | accessAcknowledge (a : Nat)
  /-- SPILL (R232): The window spill unit writes bottom frames to the backing store and replays the CALL. -/
  | spill (t : Nat)
  /-- FILL (R232): The window spill unit reads frames back and replays the instruction. -/
  | fill (t : Nat)
  /-- TILE_OPERATION_ISSUE (R179): A queued tile-engine operation starts once its entries are ready. -/
  | tileOperationIssue (die site op : Nat)
  /-- TILE_OPERATION_COMPLETE (R179): A tile-engine operation completes, leaving its target ready and lowering signers' tl. -/
  | tileOperationComplete (die site op : Nat)
  /-- SL_COPY (R199): Copies a tensor to another with format and layout conversion. -/
  | slCopy (e : Nat)
  /-- SL_FILL (R199): Sets every element of a tensor to its fill value. -/
  | slFill (e : Nat)
  /-- SL_GATHER (R199): Gathers rows of a source tensor by an index tensor. -/
  | slGather (e : Nat)
  /-- SL_SPARSE (R199): Prunes to 2:4 structure and pushes metadata entries. -/
  | slSparse (e : Nat)
  /-- SL_LOAD (R199): Verifies and loads a Sluice routine for a transform number. -/
  | slLoad (e : Nat)
  /-- FD_OPEN (R200): Opens a decoder session. -/
  | fdOpen (e : Nat)
  /-- FD_FRAME (R200): Decodes one temporal unit into planes or a slot. -/
  | fdFrame (e : Nat)
  /-- FD_CLOSE (R200): Ends a decoder session. -/
  | fdClose (e : Nat)
  /-- SB_HASH (R201): Computes SHAKE256 of a source range. -/
  | sbHash (e : Nat)
  /-- SB_REPORT (R201): Writes a signed attestation report. -/
  | sbReport (e : Nat)
  /-- SB_EXTEND (R201): Extends a measurement register with data. -/
  | sbExtend (e : Nat)
  /-- ENGINE_OPERATION_COMPLETE (R275): An engine operation's writes land as one event, locks release, status is stored and cp falls. -/
  | engineOperationComplete (e : Nat)
  /-- EAGER_COPY_COMPLETE (R154): A Sluice eager copy writes its destination, releases locks and lowers cp. -/
  | eagerCopyComplete (e : Nat)
  /-- RANGE_LOCK_GRANT (R154): A waiting engine operation takes all its range-lock entries once free. -/
  | rangeLockGrant (e : Nat)
  /-- COPY_COMMIT (R282): After every home reserves, the recorded copy takes a timestamp and entries are written. -/
  | copyCommit (a : Nat)
  /-- SOURCE_BLOCK_READ (R283): A destination home asks a source home for a source block to serve an aliased read. -/
  | sourceBlockRead (home sec : Nat)
  /-- DHOME_MATERIALISE (R286): A dhome writes the transformed old bytes into destination grains and acknowledges. -/
  | dhomeMaterialise (dhome grain : Nat)
  /-- ALIAS_RELEASE_NOTICE (R286): A destination home tells source homes which runs an entry no longer reads. -/
  | aliasReleaseNotice (home grain len : Nat)
  /-- HOT_MATERIALISE (R284): An entry whose reads exceed ALIASHOT is materialised in the background. -/
  | hotMaterialise (home grain : Nat)
  /-- BACKGROUND_MATERIALISER (R290): A table above 7/8 occupancy materialises oldest entries until 24,576 remain. -/
  | backgroundMaterialiser (home : Nat)
  /-- RDS (R297): A die asks the home for a sector for sharing. -/
  | rds (die sec : Nat)
  /-- RDX (R297): A die asks the home for a sector with ownership. -/
  | rdx (die sec : Nat)
  /-- UPG (R297): A die in S or O asks for ownership without data. -/
  | upg (die sec : Nat)
  /-- WBM (R297): A die writes back modified data on eviction. -/
  | wbm (m : SectorMsg)
  /-- DROP (R297): A die gives notice of a clean eviction. -/
  | drop (die sec : Nat)
  /-- PJOIN (R300): A die asks to hold a Pooled partial under a tag. -/
  | pjoin (die sec tag : Nat)
  /-- INV (R296): The home tells a die to give up its copy, with data or partial. -/
  | inv (die sec : Nat)
  /-- FWD (R297): The home tells a die to supply data to another die and downgrade. -/
  | fwd (owner dest sec : Nat) (inval : Bool)
  /-- PRECALL (R302): The home asks a holder to hand over its partial. -/
  | precall (die sec : Nat)
  /-- PEEK (R312): The home obtains an owner's current bytes for an LD.S without changing state. -/
  | peek (owner sec acc : Nat)
  /-- ACK (R296): A die answers Inv, Fwd or PRecall with its largest lease. -/
  | ack (m : SectorMsg)
  /-- DATA (R296): Data with its wts and lease arrives at a die. -/
  | data (m : SectorMsg)
  /-- GRANT (R296): Permission without data arrives at a die. -/
  | grant (m : SectorMsg)
  /-- SLICE_RED_UPDATE (R308): A slice applies a combined RED message to its partial step by step. -/
  | sliceRedUpdate (a : Nat)
  /-- MONITOR_WAKE (R164): A thread whose monitor was woken is rescheduled and reads again. -/
  | monitorWake (t : Nat)
  /-- WAITC_POLL (R164): Without a free monitor or on MS pages, the thread reads again every 256 clk. -/
  | waitcPoll (t : Nat)
  /-- SLEEP_EXPIRE (R213): A sleeping thread becomes ready after its clk have passed. -/
  | sleepExpire (t : Nat)
  /-- PTIME_TICK (R266): Every resident thread's ptime rises by one each 128 package clk. -/
  | ptimeTick
  /-- PTIME_LIMIT_REPORT (R267): When the largest ptime reaches 2^47 the management controller reports it. -/
  | ptimeLimitReport
  /-- WC_FALLBACK (R251): A write-combining entry falls back after w clk, merging with the old line. -/
  | wcFallback (home line : Nat)
  /-- FADE_PERIOD (R252): An unaccessed pinned window's fade counter falls by one each period, removing it at 0. -/
  | fadePeriod (ctx : Nat)
  /-- SCRATCHPAD_REFILL (R240): Frame logic chooses a victim frame and refills a scratchpad page. -/
  | scratchpadRefill (team page : Nat)
  /-- TICKET_PULL (R224): A die with room pulls a cluster ticket and admits the cluster. -/
  | ticketPull (die grid : Nat)
  /-- STEAL (R225): A die with an empty range steals tickets from the die with most remaining. -/
  | steal (die grid : Nat)
  /-- PUSH_BATCH (R328): In push mode the graph dispatcher hands a batch of clusters to a die dispatcher. -/
  | pushBatch (grid die : Nat)
  /-- TEAM_ADMIT (R220): A die dispatcher admits a team or cluster onto cores. -/
  | teamAdmit (grid cluster die origin : Nat)
  /-- TEAM_COMPLETE (R227): A team completes once its threads have exited and their operations are performed. -/
  | teamComplete (team : Nat)
  /-- SWAP_OUT (R230): A team waiting in WAITC for 4,096 clk is pre-empted to make room. -/
  | swapOut (team : Nat)
  /-- TEAM_RESTORE (R349): A saved cluster is admitted again and its restore routine started. -/
  | teamRestore (team : Nat)
  /-- NODE_START (R326): The dispatcher prepares and starts a ready graph node. -/
  | nodeStart (g n : Nat)
  /-- NODE_COMPLETE (R325): A node completes, lowering its successors' predecessor counts. -/
  | nodeComplete (g n : Nat)
  /-- NODE_FAIL (R327): A node fails and every node reached from it is marked not run. -/
  | nodeFail (g n code addr : Nat)
  /-- HUMMOCK_COMMAND (R334): A Hummock unit computes 256 outputs of a near-memory node. -/
  | hummockCommand (g n cmd : Nat)
  /-- PARITY_ABORT (R336): A Hummock parity mismatch aborts a command, running its fallback grid if any. -/
  | parityAbort (g n cmd pa : Nat)
  /-- DECODE_UNIT (R339): A decode node decodes one temporal unit under FILL or FAULT mode. -/
  | decodeUnit (g n u : Nat)
  /-- FAULT_QUEUE_HEAD (R353): System software advancing head releases the threads of passed fault entries. -/
  | faultQueueHead (ctx head : Nat)
  /-- CTX_CREATE (R342): Creates a context from a descriptor. -/
  | ctxCreate (h : HostHead) (desc : Nat)
  /-- CTX_DESTROY (R344): Removes a stopped context's teams, graphs, identifiers and windows. -/
  | ctxDestroy (h : HostHead)
  /-- PREEMPT (R346): Pre-empts every resident team of a context and holds its admissions. -/
  | preempt (h : HostHead)
  /-- RESUME (R345): Ends the hold so saved teams are restored. -/
  | resume (h : HostHead)
  /-- GRAPH_FIRE (R323): The host fires a graph. -/
  | graphFire (h : HostHead) (addr : DWord)
  /-- SET_BUDGET (R340): Sets a context's BUDGET. -/
  | setBudget (h : HostHead) (v : DWord)
  /-- KEY_LOAD (R354): Loads an XTS key into a slot on all base dies. -/
  | keyLoad (h : HostHead) (slot : Nat) (k : BitVec 512)
  /-- KEY_DESTROY (R355): Destroys a key slot, discarding cached data under it. -/
  | keyDestroy (h : HostHead) (slot : Nat)
  /-- SET_MODE (R328): Selects pull or push dispatch mode. -/
  | setMode (h : HostHead) (mode : Nat)
  /-- REBASE (R267): Resets every ptime, wts and rts to 0. -/
  | rebase (h : HostHead)
  /-- SET_NODE (R358): Sets the node number and route table. -/
  | setNode (h : HostHead) (node table : Nat)
  /-- POWER (R370): Changes the package power state. -/
  | power (h : HostHead) (state : Nat)
  /-- LODE_WRITE_LANDING (R273): A write arriving over Lode lands at the home of each byte. -/
  | lodeWriteLanding (node ctxid addr : Nat) (bytes : List Byte)
  /-- LODE_READ (R356): A peer or host read over Lode is served at the home. -/
  | lodeRead (node ctxid addr n : Nat)
  /-- LODE_ACKNOWLEDGE (R166): A remote destination acknowledges a PUTR or WSIG and cp falls. -/
  | lodeAcknowledge (op status : Nat) (bytes : List Byte)
  /-- ATOMQ_COMMAND (R305): An arriving remote atomic is served from the die's atomic-engine queue. -/
  | atomqCommand (m : RemoteAtom)
  /-- ATOMQ_REPLY (R167): A remote atomic's reply fills the reserved completion-queue entry. -/
  | atomqReply (op status : Nat) (old : DWord)
  /-- PHY_TEST_COMPLETE (R380): A PHY test finishes, updating pass masks or error counts. -/
  | phyTestComplete (b : PhyBlock)
  /-- PACKAGE_RESET (R377): Verifies firmware images and starts bring-up training grids. -/
  | packageReset (images : List FirmwareImage) (training : List TrainingImage)
  /-- UNIT_LOSS (R365): A core or die is lost; sectors are marked lost and contexts stopped. -/
  | unitLoss (die : Nat) (site : Option Nat)
  /-- SCRUB (R363): A base die reads and rewrites sectors, correcting or poisoning. -/
  | scrub (sec : Nat) (e : ScrubFinding)
  /-- ROW_SWAP (R366): A failing DRAM row is copied to a spare and remapped. -/
  | rowSwap (stack channel row : Nat)
  /-- REMAP_TABLE_ERROR (R367): An uncorrectable remap-table error blocks and reloads the channel. -/
  | remapTableError (stack channel : Nat) (agree : Bool)
  /-- LINK_RETIRE (R360): A link that fails replay 16 times is retired. -/
  | linkRetire (lode : Bool) (link : Nat)
  /-- SENSOR_POLL (R369): The management controller reads every sensor each 100 microseconds. -/
  | sensorPoll
  /-- DROOP (R371): A firing droop detector stretches its core's clock. -/
  | droop (die site : Nat)
  /-- OVER_TEMPERATURE (R371): A sensor at 105 C halves its die's main clock until below 100 C. -/
  | overTemperature (die : Nat)
  /-- THERMAL_TRIP (R371): A sensor at 120 C stops every clock and sends a fatal machine check. -/
  | thermalTrip
  /-- OVERCURRENT (R371): Package current above the fused limit acts as over temperature on every die. -/
  | overcurrent
  /-- READ_POINT (R380): A PCTL write of kind 00 runs a read sweep point at a tap. -/
  | readPoint (b : PhyBlock) (tap : Nat)
  /-- WRITE_POINT (R380): A PCTL write of kind 01 runs a write sweep point at a tap. -/
  | writePoint (b : PhyBlock) (tap : Nat)
  /-- PRBS (R380): A PCTL write of kind 10 runs a PRBS31 test and replaces PERR. -/
  | prbs (b : PhyBlock)
  /-- PSWAP (R381): A write routes a logical lane onto the spare DQ lane. -/
  | pswap (b : PhyBlock) (v : Word)
  /-- PDONE (R382): Writing 1 marks training done, opening the channel when both pseudo-channels are done. -/
  | pdone (b : PhyBlock) (v : Word)
  /-- REGISTER_WRITE (R379): A write to a PHY register without behaviour of its own stores its field. -/
  | registerWrite (b : PhyBlock) (off : Nat) (v : Word)
  /-- OVER_TEMPERATURE_CLEAR (R371): When every sensor of a halved die falls below 100 C, the die's main clock returns to its full rate. -/
  | overTemperatureClear (die : Nat)
  /-- DROOP_RECOVERY (R371): When a core's voltage recovers, the clock stretching started by its droop detector ends. -/
  | droopRecovery (die site : Nat)
  /-- OVERCURRENT_CLEAR (R371): When package current falls back below the fused limit, the over-temperature action on every die is lifted. -/
  | overcurrentClear
  /-- FLIT_CRC_ERROR (R360): A Causeway or Lode flit that fails its CRC is replayed over the link. -/
  | flitCrcError (lode : Bool) (link : Nat)
  /-- RUN_RATE_CHANGE (R372): Firmware policy changes a die's run-state main clock rate within 350 to 700 MHz. -/
  | runRateChange (die mhz : Nat)
  /-- CORRECTED_ERROR_REPORT (R368): The device sends a class 1 MACHINE_CHECK counting corrected errors when firmware policy asks for one. -/
  | correctedErrorReport (source die stack channel site : Nat)
  deriving DecidableEq, Repr

end Sys2Proof
end

