-- ==== Sys2Proof/Decode.lean ====
section
/-! DEFINITION. Decoding and encoding of instruction words: the base word of R69, the extension words of R72, the
opcode map of R79. Decoding is total and rejects by name. -/

namespace Sys2Proof

/-- Why bytes are no instruction: the static fates of R81 that need no operand. -/
inductive DecodeError where
  /-- LEN = 11: ILLOP (R64). -/
  | lenReserved
  /-- The bytes do not reach the instruction's end: the instruction crosses its block, ILLPLACE (R65). -/
  | crossesBlock
  /-- An opcode marked — in R79: ILLOP. -/
  | noOpcode
  /-- A length R79 does not permit for the opcode: ILLOP. -/
  | badLength
  deriving DecidableEq, Repr

/-- The opcode map of R79, but for `PMOV` (0x14), whose MOD tells its two rows apart (R102). -/
def opcodeCtor (opc : Nat) : Option (Form → Instr) :=
  match opc with
  | 0x00 => some .nop
  | 0x01 => some .bra
  | 0x02 => some .jmp
  | 0x03 => some .call
  | 0x04 => some .calli
  | 0x05 => some .ret
  | 0x06 => some .exit
  | 0x07 => some .loop
  | 0x08 => some .yield
  | 0x0A => some .trap
  | 0x0B => some .bkpt
  | 0x10 => some .icmp
  | 0x11 => some .fcmp
  | 0x12 => some .plop
  | 0x13 => some .sel
  | 0x15 => some .fclass
  | 0x20 => some .add
  | 0x21 => some .sub
  | 0x22 => some .addc
  | 0x23 => some .mul
  | 0x24 => some .mulh
  | 0x25 => some .mad
  | 0x26 => some .madw
  | 0x27 => some .abs
  | 0x28 => some .min
  | 0x29 => some .max
  | 0x2A => some .dot4
  | 0x2B => some .sad
  | 0x30 => some .and
  | 0x31 => some .or
  | 0x32 => some .xor
  | 0x33 => some .bfn
  | 0x34 => some .shl
  | 0x35 => some .shr
  | 0x36 => some .shra
  | 0x37 => some .rol
  | 0x38 => some .fsh
  | 0x39 => some .popc
  | 0x3A => some .clz
  | 0x3B => some .brev
  | 0x3C => some .bfe
  | 0x3D => some .bfi
  | 0x3E => some .bsel
  | 0x40 => some .lea
  | 0x41 => some .taddr
  | 0x50 => some .fadd
  | 0x51 => some .fsub
  | 0x52 => some .fmul
  | 0x53 => some .ffma
  | 0x54 => some .fmin
  | 0x55 => some .fmax
  | 0x56 => some .frcp
  | 0x57 => some .frsq
  | 0x58 => some .fsqrt
  | 0x59 => some .fexp2
  | 0x5A => some .flog2
  | 0x5B => some .fsin
  | 0x5C => some .fcos
  | 0x5D => some .ftanh
  | 0x5E => some .fdiv
  | 0x5F => some .fscale
  | 0x60 => some .fdot2
  | 0x61 => some .frnd
  | 0x70 => some .cvt
  | 0x71 => some .qnt
  | 0x72 => some .dqnt
  | 0x73 => some .pack
  | 0x74 => some .unpk
  | 0x75 => some .bpln
  | 0x76 => some .bunp
  | 0x77 => some .scmax
  | 0x80 => some .pgath
  | 0x81 => some .lxch
  | 0x82 => some .matchLanes
  | 0x83 => some .gred
  | 0x84 => some .mov
  | 0x85 => some .movk
  | 0x86 => some .movi
  | 0x87 => some .xset
  | 0x88 => some .xget
  | 0x89 => some .xadj
  | 0x8A => some .rcpy
  | 0x90 => some .ld
  | 0x91 => some .st
  | 0x92 => some .ldk
  | 0x93 => some .stk
  | 0x94 => some .ldt
  | 0x95 => some .stt
  | 0x96 => some .prf
  | 0x98 => some .cpy
  | 0x99 => some .cpyt
  | 0x9A => some .cpye
  | 0x9B => some .matz
  | 0x9C => some .alq
  | 0x9D => some .pin
  | 0x9E => some .unpin
  | 0x9F => some .touch
  | 0xA0 => some .cflush
  | 0xA1 => some .cinv
  | 0xB0 => some .atom
  | 0xB1 => some .acas
  | 0xB2 => some .red
  | 0xB3 => some .atomq
  | 0xB4 => some .cqpop
  | 0xB5 => some .waitc
  | 0xB6 => some .wsig
  | 0xB7 => some .putr
  | 0xB8 => some .getr
  | 0xC0 => some .bar
  | 0xC1 => some .cbar
  | 0xC2 => some .abinit
  | 0xC3 => some .abarv
  | 0xC4 => some .abwait
  | 0xC5 => some .fenceg
  | 0xC6 => some .fencex
  | 0xC7 => some .wait
  | 0xC8 => some .cvg
  | 0xD0 => some .tclaim
  | 0xD1 => some .trel
  | 0xD2 => some .tld
  | 0xD3 => some .tst
  | 0xD4 => some .tzero
  | 0xD5 => some .tmma
  | 0xD6 => some .tmmas
  | 0xD7 => some .tmovv
  | 0xD8 => some .tstat
  | 0xD9 => some .twait
  | 0xDA => some .mqpush
  | 0xDB => some .mqclr
  | 0xE0 => some .xop
  | 0xE1 => some .xopr
  | 0xE2 => some .tidset
  | 0xE3 => some .tidget
  | 0xE4 => some .gfire
  | 0xE5 => some .nodeq
  | 0xF0 => some .mfs
  | 0xF1 => some .mts
  | 0xF2 => some .rtt
  | 0xF3 => some .ctxsv
  | 0xF4 => some .ctxrs
  | 0xF5 => some .spillw
  | 0xF6 => some .fillw
  | 0xF7 => some .icinv
  | 0xF8 => some .tlbinv
  | 0xF9 => some .exitp
  | 0xFA => some .clock
  | 0xFB => some .perf
  | 0xFC => some .sleep
  | 0xFE => some .halt
  | _ => none

/-- The constructor of an opcode and a MOD (R79; `PMOV.put` is MOD 000001, R102). -/
def ctorOf (opc : BitVec 8) (mod : BitVec 6) : Option (Form → Instr) :=
  if opc = 0x14#8 then (if mod = 1#6 then some .pmovPut else some .pmovGet) else opcodeCtor opc.toNat

/-- The opcode and the fields of a thread instruction; none for a step of another agent. -/
def Instr.parts (i : Instr) : Option (BitVec 8 × Form) :=
  match i with
  | .nop f => some (0x00, f)
  | .bra f => some (0x01, f)
  | .jmp f => some (0x02, f)
  | .call f => some (0x03, f)
  | .calli f => some (0x04, f)
  | .ret f => some (0x05, f)
  | .exit f => some (0x06, f)
  | .loop f => some (0x07, f)
  | .yield f => some (0x08, f)
  | .trap f => some (0x0A, f)
  | .bkpt f => some (0x0B, f)
  | .icmp f => some (0x10, f)
  | .fcmp f => some (0x11, f)
  | .plop f => some (0x12, f)
  | .sel f => some (0x13, f)
  | .pmovGet f => some (0x14, f)
  | .pmovPut f => some (0x14, f)
  | .fclass f => some (0x15, f)
  | .add f => some (0x20, f)
  | .sub f => some (0x21, f)
  | .addc f => some (0x22, f)
  | .mul f => some (0x23, f)
  | .mulh f => some (0x24, f)
  | .mad f => some (0x25, f)
  | .madw f => some (0x26, f)
  | .abs f => some (0x27, f)
  | .min f => some (0x28, f)
  | .max f => some (0x29, f)
  | .dot4 f => some (0x2A, f)
  | .sad f => some (0x2B, f)
  | .and f => some (0x30, f)
  | .or f => some (0x31, f)
  | .xor f => some (0x32, f)
  | .bfn f => some (0x33, f)
  | .shl f => some (0x34, f)
  | .shr f => some (0x35, f)
  | .shra f => some (0x36, f)
  | .rol f => some (0x37, f)
  | .fsh f => some (0x38, f)
  | .popc f => some (0x39, f)
  | .clz f => some (0x3A, f)
  | .brev f => some (0x3B, f)
  | .bfe f => some (0x3C, f)
  | .bfi f => some (0x3D, f)
  | .bsel f => some (0x3E, f)
  | .lea f => some (0x40, f)
  | .taddr f => some (0x41, f)
  | .fadd f => some (0x50, f)
  | .fsub f => some (0x51, f)
  | .fmul f => some (0x52, f)
  | .ffma f => some (0x53, f)
  | .fmin f => some (0x54, f)
  | .fmax f => some (0x55, f)
  | .frcp f => some (0x56, f)
  | .frsq f => some (0x57, f)
  | .fsqrt f => some (0x58, f)
  | .fexp2 f => some (0x59, f)
  | .flog2 f => some (0x5A, f)
  | .fsin f => some (0x5B, f)
  | .fcos f => some (0x5C, f)
  | .ftanh f => some (0x5D, f)
  | .fdiv f => some (0x5E, f)
  | .fscale f => some (0x5F, f)
  | .fdot2 f => some (0x60, f)
  | .frnd f => some (0x61, f)
  | .cvt f => some (0x70, f)
  | .qnt f => some (0x71, f)
  | .dqnt f => some (0x72, f)
  | .pack f => some (0x73, f)
  | .unpk f => some (0x74, f)
  | .bpln f => some (0x75, f)
  | .bunp f => some (0x76, f)
  | .scmax f => some (0x77, f)
  | .pgath f => some (0x80, f)
  | .lxch f => some (0x81, f)
  | .matchLanes f => some (0x82, f)
  | .gred f => some (0x83, f)
  | .mov f => some (0x84, f)
  | .movk f => some (0x85, f)
  | .movi f => some (0x86, f)
  | .xset f => some (0x87, f)
  | .xget f => some (0x88, f)
  | .xadj f => some (0x89, f)
  | .rcpy f => some (0x8A, f)
  | .ld f => some (0x90, f)
  | .st f => some (0x91, f)
  | .ldk f => some (0x92, f)
  | .stk f => some (0x93, f)
  | .ldt f => some (0x94, f)
  | .stt f => some (0x95, f)
  | .prf f => some (0x96, f)
  | .cpy f => some (0x98, f)
  | .cpyt f => some (0x99, f)
  | .cpye f => some (0x9A, f)
  | .matz f => some (0x9B, f)
  | .alq f => some (0x9C, f)
  | .pin f => some (0x9D, f)
  | .unpin f => some (0x9E, f)
  | .touch f => some (0x9F, f)
  | .cflush f => some (0xA0, f)
  | .cinv f => some (0xA1, f)
  | .atom f => some (0xB0, f)
  | .acas f => some (0xB1, f)
  | .red f => some (0xB2, f)
  | .atomq f => some (0xB3, f)
  | .cqpop f => some (0xB4, f)
  | .waitc f => some (0xB5, f)
  | .wsig f => some (0xB6, f)
  | .putr f => some (0xB7, f)
  | .getr f => some (0xB8, f)
  | .bar f => some (0xC0, f)
  | .cbar f => some (0xC1, f)
  | .abinit f => some (0xC2, f)
  | .abarv f => some (0xC3, f)
  | .abwait f => some (0xC4, f)
  | .fenceg f => some (0xC5, f)
  | .fencex f => some (0xC6, f)
  | .wait f => some (0xC7, f)
  | .cvg f => some (0xC8, f)
  | .tclaim f => some (0xD0, f)
  | .trel f => some (0xD1, f)
  | .tld f => some (0xD2, f)
  | .tst f => some (0xD3, f)
  | .tzero f => some (0xD4, f)
  | .tmma f => some (0xD5, f)
  | .tmmas f => some (0xD6, f)
  | .tmovv f => some (0xD7, f)
  | .tstat f => some (0xD8, f)
  | .twait f => some (0xD9, f)
  | .mqpush f => some (0xDA, f)
  | .mqclr f => some (0xDB, f)
  | .xop f => some (0xE0, f)
  | .xopr f => some (0xE1, f)
  | .tidset f => some (0xE2, f)
  | .tidget f => some (0xE3, f)
  | .gfire f => some (0xE4, f)
  | .nodeq f => some (0xE5, f)
  | .mfs f => some (0xF0, f)
  | .mts f => some (0xF1, f)
  | .rtt f => some (0xF2, f)
  | .ctxsv f => some (0xF3, f)
  | .ctxrs f => some (0xF4, f)
  | .spillw f => some (0xF5, f)
  | .fillw f => some (0xF6, f)
  | .icinv f => some (0xF7, f)
  | .tlbinv f => some (0xF8, f)
  | .exitp f => some (0xF9, f)
  | .clock f => some (0xFA, f)
  | .perf f => some (0xFB, f)
  | .sleep f => some (0xFC, f)
  | .halt f => some (0xFE, f)
  | .instructionFetch _ _ _ _ => none
  | .promotion _ => none
  | .loopBufferGrant _ _ _ => none
  | .loadReturn _ => none
  | .accessAcknowledge _ => none
  | .spill _ => none
  | .fill _ => none
  | .tileOperationIssue _ _ _ => none
  | .tileOperationComplete _ _ _ => none
  | .slCopy _ => none
  | .slFill _ => none
  | .slGather _ => none
  | .slSparse _ => none
  | .slLoad _ => none
  | .fdOpen _ => none
  | .fdFrame _ => none
  | .fdClose _ => none
  | .sbHash _ => none
  | .sbReport _ => none
  | .sbExtend _ => none
  | .engineOperationComplete _ => none
  | .eagerCopyComplete _ => none
  | .rangeLockGrant _ => none
  | .copyCommit _ => none
  | .sourceBlockRead _ _ => none
  | .dhomeMaterialise _ _ => none
  | .aliasReleaseNotice _ _ _ => none
  | .hotMaterialise _ _ => none
  | .backgroundMaterialiser _ => none
  | .rds _ _ => none
  | .rdx _ _ => none
  | .upg _ _ => none
  | .wbm _ => none
  | .drop _ _ => none
  | .pjoin _ _ _ => none
  | .inv _ _ => none
  | .fwd _ _ _ _ => none
  | .precall _ _ => none
  | .peek _ _ _ => none
  | .ack _ => none
  | .data _ => none
  | .grant _ => none
  | .sliceRedUpdate _ => none
  | .monitorWake _ => none
  | .waitcPoll _ => none
  | .sleepExpire _ => none
  | .ptimeTick => none
  | .ptimeLimitReport => none
  | .wcFallback _ _ => none
  | .fadePeriod _ => none
  | .scratchpadRefill _ _ => none
  | .ticketPull _ _ => none
  | .steal _ _ => none
  | .pushBatch _ _ => none
  | .teamAdmit _ _ _ _ => none
  | .teamComplete _ => none
  | .swapOut _ => none
  | .teamRestore _ => none
  | .nodeStart _ _ => none
  | .nodeComplete _ _ => none
  | .nodeFail _ _ _ _ => none
  | .hummockCommand _ _ _ => none
  | .parityAbort _ _ _ _ => none
  | .decodeUnit _ _ _ => none
  | .faultQueueHead _ _ => none
  | .ctxCreate _ _ => none
  | .ctxDestroy _ => none
  | .preempt _ => none
  | .resume _ => none
  | .graphFire _ _ => none
  | .setBudget _ _ => none
  | .keyLoad _ _ _ => none
  | .keyDestroy _ _ => none
  | .setMode _ _ => none
  | .rebase _ => none
  | .setNode _ _ _ => none
  | .power _ _ => none
  | .lodeWriteLanding _ _ _ _ => none
  | .lodeRead _ _ _ _ => none
  | .lodeAcknowledge _ _ _ => none
  | .atomqCommand _ => none
  | .atomqReply _ _ _ => none
  | .packageReset _ _ => none
  | .unitLoss _ _ => none
  | .scrub _ _ => none
  | .rowSwap _ _ _ => none
  | .remapTableError _ _ _ => none
  | .linkRetire _ _ => none
  | .sensorPoll => none
  | .droop _ _ => none
  | .overTemperature _ => none
  | .thermalTrip => none
  | .overcurrent => none
  | .readPoint _ _ => none
  | .writePoint _ _ => none
  | .prbs _ => none
  | .phyTestComplete _ => none
  | .pswap _ _ => none
  | .pdone _ _ => none
  | .registerWrite _ _ _ => none
  | .overTemperatureClear _ => none
  | .droopRecovery _ _ => none
  | .overcurrentClear => none
  | .flitCrcError _ _ => none
  | .runRateChange _ _ => none
  | .correctedErrorReport _ _ _ _ _ => none

/-- The fields of a thread instruction. -/
def Instr.form? (i : Instr) : Option Form := i.parts.map (·.2)

/-- The opcode of a thread instruction. -/
def Instr.opcode? (i : Instr) : Option (BitVec 8) := i.parts.map (·.1)

/-- The lengths R79 permits for an opcode: `BRA`, `CALL`, `LOOP` and `BFN` have no 64-bit form, `MOVI` only the
128-bit form. -/
def lengthOk (opc : BitVec 8) (l : Len) : Bool :=
  if opc = 0x01#8 ∨ opc = 0x03#8 ∨ opc = 0x07#8 ∨ opc = 0x33#8 then l ≠ .l64
  else if opc = 0x86#8 then l = .l128
  else true

/-- LEN, bits [1:0] (R64). -/
def Len.bits : Len → BitVec 2
  | .l64 => 0#2
  | .l96 => 1#2
  | .l128 => 2#2

/-- The length named by bits [1:0] (R64). -/
def Len.ofBits (b : BitVec 2) : Option Len :=
  if b = 0#2 then some .l64 else if b = 1#2 then some .l96 else if b = 2#2 then some .l128 else none

/-- The base word of R69, from high to low. -/
def baseWord (opc : BitVec 8) (f : Form) : BitVec 64 :=
  f.mod ++ f.holdSrc ++ f.holdEntry ++ f.c ++ f.b ++ f.a ++ f.d ++ BitVec.ofBool f.inv ++ f.pred ++ opc ++ f.len.bits

/-- All 128 bits of an instruction (R72). -/
def wordBits (opc : BitVec 8) (f : Form) : BitVec 128 := f.x2 ++ f.x1 ++ baseWord opc f

/-- The fields of R69 and R72 in 128 bits; what lies past the length reads as zero. -/
def fieldsOf (l : Len) (w : BitVec 128) : Form where
  len := l
  mod := w.extractLsb' 58 6
  holdSrc := w.extractLsb' 56 2
  holdEntry := w.extractLsb' 54 2
  c := w.extractLsb' 44 10
  b := w.extractLsb' 34 10
  a := w.extractLsb' 24 10
  d := w.extractLsb' 14 10
  inv := w.getLsbD 13
  pred := w.extractLsb' 10 3
  x1 := if l = .l64 then 0 else w.extractLsb' 64 32
  x2 := if l = .l128 then w.extractLsb' 96 32 else 0

/-- Decodes 128 bits that start at an instruction (R64, R69, R72, R79). -/
def decodeBits (w : BitVec 128) : Except DecodeError Instr :=
  match Len.ofBits (w.extractLsb' 0 2) with
  | none => .error .lenReserved
  | some l =>
    match ctorOf (w.extractLsb' 2 8) (w.extractLsb' 58 6) with
    | none => .error .noOpcode
    | some k => if lengthOk (w.extractLsb' 2 8) l then .ok (k (fieldsOf l w)) else .error .badLength

/-- Little-endian bits of bytes (R3). -/
def bitsOfBytes : List Byte → Nat
  | [] => 0
  | b :: bs => b.toNat + 256 * bitsOfBytes bs

/-- The `n` low bytes of a number, little-endian (R3). -/
def bytesOfBits (n : Nat) (w : Nat) : List Byte :=
  match n with
  | 0 => []
  | n + 1 => BitVec.ofNat 8 (w % 256) :: bytesOfBits n (w / 256)

/-- Decodes the instruction at the head of the bytes that remain in its 32-byte block (R65): the checks of R82
steps 2 to 4 in their order. -/
def decode (bs : List Byte) : Except DecodeError (Instr × List Byte) :=
  let w : BitVec 128 := BitVec.ofNat 128 (bitsOfBytes (bs.take 16))
  match Len.ofBits (w.extractLsb' 0 2) with
  | none => .error .lenReserved
  | some l =>
    if bs.length < l.bytes then .error .crossesBlock
    else match decodeBits w with
      | .error e => .error e
      | .ok i => .ok (i, bs.drop l.bytes)

/-- The bits of a thread instruction; none for a step of another agent. -/
def encodeBits (i : Instr) : Option (BitVec 128) := i.parts.map fun p => wordBits p.1 p.2

/-- The bytes an instruction is stored as (R3, R65); none for a step of another agent. -/
def encode (i : Instr) : List Byte :=
  match i.parts with
  | none => []
  | some (o, f) => bytesOfBits f.len.bytes (wordBits o f).toNat

/-- The instruction the decoder reads from `nbits` bits `w`, every bit above them zero: the bytes as the hardware
stores them, given to `decode`. -/
def decodeTableWord (nbits w : Nat) : Option Instr :=
  match decode (bytesOfBits 16 (w % 2 ^ nbits)) with
  | .ok (i, _) => some i
  | .error _ => none

end Sys2Proof
end

