-- ==== Sys2Proof/Machine/State.lean ====
section
/-! DEFINITION. The state of the package as plain data (R16 to R39, R178, R194, R215 to R233, R239 to R252, R264,
R277 to R305, R319 to R382), and the state right after reset. -/

namespace Sys2Proof.Machine

/-- Why the machine stops. -/
inductive Fault where
  /-- Raised by every step once a sensor has reached 120 °C: the thermal trip stops every clock of the package
  (R371). Safe: nothing runs after it in the hardware either. -/
  | clockStopped
  deriving DecidableEq, Repr

/-- Why an instruction has no meaning. -/
inductive Refusal where
  /-- Raised by an arm of `exec` that has no meaning yet. Safe: nothing is claimed of it. -/
  | notModelled (mnemonic : String)
  deriving DecidableEq, Repr

/-- Memory: bytes by physical address, addresses strictly rising, no entry equal to what an unlisted address reads
as (log 5). -/
abbrev Memory := List Host.Cell

/-- An index register (R22). -/
structure XReg where
  anchor : Bool
  offset : BitVec 10
  stride : BitVec 6
  bound : BitVec 10
  base : BitVec 12
  deriving DecidableEq, Repr

/-- An active loop of a frame (R98). -/
structure LoopRec where
  start : DWord
  stop : DWord
  remaining : Word
  /-- The version of the loop buffer's body that this iteration runs from; 0 at an iteration's start (R99). -/
  version : Nat
  deriving DecidableEq, Repr

/-- A frame of the register stack: the link record a call from it wrote, and its loop state (R18, R98). -/
structure Frame where
  ret : DWord
  slide : Nat
  loop : Option LoopRec
  deriving DecidableEq, Repr

/-- A hold name (R36). -/
inductive HoldName where
  | none
  | vec (pos : Nat)
  | uni (k : Nat)
  deriving DecidableEq, Repr

/-- The routine a thread runs (R343, R347, R350, R377). -/
inductive Routine where
  | none | save | restore | bringUp
  deriving DecidableEq, Repr

/-- Where the object of a scratchpad access lies: a team and a byte offset (R137, R242). -/
structure SpadRef where
  team : Nat
  off : Nat
  deriving DecidableEq, Repr

/-- The counters of R30. -/
inductive Ctr where
  | ld | st | cp | tl | none
  deriving DecidableEq, Repr

/-- How a thread waits (R229, R86, R87, R99, R154, R244). -/
inductive Wait where
  | ready
  /-- Arrived at the pending episode of its team or cluster (R169). -/
  | barrier (cluster : Bool)
  /-- Until an arrival object's generation has passed (R173). -/
  | arrival (at_ : SpadRef) (gen : Nat)
  /-- A monitor is registered (R164). -/
  | monitor (sec : Nat)
  /-- Its monitor was freed by a write at this clk (R228, R304). -/
  | woken (clk : Nat)
  /-- No monitor is free, or an MS page: read again at this clk (R164). -/
  | poll (clk : Nat)
  /-- `WAIT`'s thresholds (R176). -/
  | counters (ld st cp tl : Option Nat)
  /-- `TWAIT` (R193). -/
  | tile (code mode : Nat)
  /-- A held signature (R15). -/
  | signed (c : Nat)
  /-- `TREL` (R184). -/
  | release (code : Nat)
  /-- `TCLAIM.w` (R184). -/
  | claim (code : Nat)
  /-- `CQPOP.w` on an empty queue (R168). -/
  | cqEntry (q : Nat)
  /-- `ATOMQ` on a full queue (R167). -/
  | cqRoom (q : Nat)
  /-- `MQPUSH` without room for the lanes of its issue group (R190). -/
  | mqRoom (q n : Nat)
  /-- `SLEEP` until a clk (R213). -/
  | sleep (clk : Nat)
  /-- Suspended by a PAGEF at a fault-queue index (R353). -/
  | fault (index : Nat)
  /-- The fault queue is full (R353). -/
  | faultRoom
  /-- The group's trap record is busy (R87). -/
  | record
  /-- Its trap record's stores are under way as this access (R84). -/
  | recordStore (acc : Nat)
  /-- The window spill unit makes room for a call of this slide (R232). -/
  | spill (slide : Nat)
  /-- The window spill unit fills frames from this depth (R27, R232). -/
  | fill (depth : Nat)
  /-- Until every earlier access of the thread has been performed (R175, R196, R202, R207, R211). -/
  | accesses
  /-- Until these accesses have been performed, and these engine and Lode operations have ended (R174, R175). -/
  | fence (accs ops : List Nat)
  /-- No loop buffer is free for the body from this start to this end (R99). -/
  | loopBuffer (start stop : DWord)
  /-- Its own eager copy holds the range (R154). -/
  | ownLock
  /-- A counter stands at 63 (R30). -/
  | counterFull (c : Ctr)
  /-- Registers the instruction uses are pending: stack positions, uniform registers (R21, R26). -/
  | pending (ps us : List Nat)
  /-- Stopped with its context (R344), or with its core in bring-up mode (R377). -/
  | stopped
  deriving DecidableEq, Repr

/-- A thread (R16): one lane of a group. -/
structure Thread where
  group : Nat
  lane : Nat
  /-- The thread has executed `EXIT` or its like (R96). -/
  exited : Bool
  pc : DWord
  /-- Written stack positions; the others are undefined (R17) and read as free values under `seed` (log 2). -/
  regs : List (Nat × Word)
  seed : Nat
  /-- Poisoned stack positions (R362). -/
  poison : List Nat
  xs : List XReg
  preds : BitVec 7
  wb : Nat
  /-- Frames from the current one down to depth 0: its length is the call depth plus one (R18). -/
  frames : List Frame
  /-- Lowest resident frame's depth (R19); one above the call depth when none is resident. -/
  resident : Nat
  hold1 : HoldName
  hold2 : HoldName
  hold3 : HoldName
  ptime : Nat
  ld : Nat
  st : Nat
  cp : Nat
  tl : Nat
  wait : Wait
  /-- The clk at which it last became ready, and promotion (R33, R34). -/
  age : Nat
  promoted : Bool
  /-- The PC of the instruction that counter 0x000 has counted and the thread has not left (R212). -/
  counted : Option DWord
  /-- The trap code whose handler runs, between trap entry and `RTT` (R87). -/
  handler : Option Nat
  routine : Routine
  /-- The eight scratch registers of the save and restore routines (R347). -/
  scratch : List (Nat × Word)
  /-- The state of a restore still to be entered: the saved resume PC (R208, R210). -/
  resumePc : Option DWord
  deriving DecidableEq, Repr

/-- A busy trap record of a group (R85, R87): the code, the lanes still to return, and the record's address. -/
structure BusyRecord where
  code : Nat
  mask : BitVec 32
  addr : Nat
  deriving DecidableEq, Repr

/-- A group (R20, R215). -/
structure Group where
  team : Nat
  /-- Group index in the team (R216). -/
  index : Nat
  part : Nat
  slot : Nat
  /-- First physical register (R19). -/
  origin : Nat
  ks : List Word
  fpctl : Word
  privBase : Nat
  /-- Bytes of its private region (R238). -/
  privSize : Nat
  record : Option BusyRecord
  /-- k0:k1 at PREEMPT (R347). -/
  savedK : DWord
  /-- Freed when all its threads have exited (R227). -/
  freed : Bool
  deriving DecidableEq, Repr

/-- What a signer gave with its signature (R181): the thread, its form's opcode and fields, the C value, and whether
it holds. -/
structure Signature where
  tid : Nat
  opc : BitVec 8
  form : Form
  cval : Word
  nb : Bool
  pc : DWord
  /-- The stack position of `TMOVV`'s first register. -/
  pos : Nat
  /-- The thread's index registers after the instruction's operands, and the hold name it sets. -/
  xs : List XReg
  hold : Option (BitVec 2 × HoldName)
  deriving DecidableEq, Repr

/-- A convergence register (R177, R181): its declared count and the pending signatures, oldest first. -/
structure Conv where
  count : Option Nat
  sigs : List Signature
  deriving DecidableEq, Repr

/-- A barrier episode (R171): its instruction's PC, its number, the threads that wait in it and those counted as
arrived by exit are every exited thread. -/
structure Episode where
  pc : DWord
  /-- Bytes of the instruction. -/
  len : Nat
  num : Nat
  waiting : List Nat
  deriving DecidableEq, Repr

/-- A completion-queue entry (R168). -/
structure CqEntry where
  old : DWord
  status : Nat
  tid : Nat
  addr : Word
  deriving DecidableEq, Repr

/-- A completion queue (R167): poppable entries, oldest first, and entries reserved. -/
structure CQueue where
  entries : List CqEntry
  reserved : Nat
  deriving DecidableEq, Repr

/-- Where a team stands (R227, R346 to R350). -/
inductive TeamPhase where
  | resident
  /-- Waits for its groups' trap records before it takes PREEMPT with this block, and for an entry of the fault queue
  where its record's stores met a page that was not there (R346, R353). -/
  | preempting (block : Nat) (fault : Option Nat)
  /-- The save routine runs, with this block. -/
  | saving (block : Nat)
  | saved (block : Nat)
  | restoring (block : Nat)
  | complete
  deriving DecidableEq, Repr

/-- A team (R215, R223). -/
structure Team where
  grid : Nat
  cluster : Nat
  index : Nat
  rank : Nat
  die : Nat
  site : Nat
  groups : List Nat
  convs : List Conv
  episode : Option Episode
  queues : List CQueue
  /-- Backing region of the scratchpad, and its bytes (R239). -/
  spadBase : Nat
  spad : Nat
  /-- Pages written (R239). -/
  touched : List Nat
  /-- CLUSTERPOS as admitted (R223). -/
  pos : Word
  phase : TeamPhase
  /-- Save needs of a restored team part (R208). -/
  partRestored : Bool
  /-- Entries of each completion queue that the last stored team part holds (R207). -/
  cqSaved : List Nat
  /-- The clk since which every live thread has waited in `WAITC` (R230). -/
  waitcSince : Option Nat
  /-- Sectors a swapped-out team waits on (R230). -/
  wakeSecs : List Nat
  /-- The clk at which a restore placed it on its core; none for a team that has not moved (R142, R350). -/
  since : Option Nat
  deriving DecidableEq, Repr

/-- A cluster (R215, R222). -/
structure Cluster where
  grid : Nat
  ticket : Nat
  teams : List Nat
  /-- A pending `CBAR` episode (R171). -/
  episode : Option Episode
  deriving DecidableEq, Repr

/-- The launch record (R217). -/
structure Launch where
  entry : DWord
  arg : DWord
  ucount : Nat
  groups : Nat
  width : Nat
  height : Nat
  teams : Nat
  bsdepth : Nat
  bspos : Nat
  resv : Nat
  window : Nat
  spad : Nat
  privlim : Nat
  slots : BitVec 64
  chi : Nat
  bhi : Nat
  queues : BitVec 4
  tiles : BitVec 16
  deriving DecidableEq, Repr

/-- A grid (R215): its launch record, context, the graph node it serves, and the ticket ranges of the dies (R224). -/
structure Grid where
  launch : Launch
  ctx : Nat
  /-- Graph and node indices, none for a bring-up grid. -/
  node : Option (Nat × Nat)
  /-- next and end per die. -/
  tickets : List (Nat × Nat)
  /-- Teams not yet complete, of those the grid has. -/
  remaining : Nat
  /-- Die and ticket of the clusters that dies have pulled or been handed (R224, R328) and not yet admitted. -/
  pushed : List (Nat × Nat)
  /-- Push mode (R328): the tickets not handed out yet, and those returned by dies. -/
  central : Nat × Nat
  returned : List Nat
  /-- The die whose firmware launched a bring-up grid (R377). -/
  bringDie : Option Nat
  /-- A fallback's command (R336): its first output, its count, and the failing sector's address. -/
  fallback : Option (Nat × Nat × Nat)
  done : Bool
  deriving DecidableEq, Repr

/-- State of a slot or tile (R178). -/
inductive TileState where
  | empty | filling | ready | draining
  deriving DecidableEq, Repr

/-- An operand-store slot (R178): elements by row and K position as codes of the format, scales by row and block. -/
structure Slot where
  claim : Option Nat
  state : TileState
  banks : BitVec 8
  poisoned : Bool
  damaged : Bool
  fmt : Nat
  /-- 0 none, 1 A, 2 B, 4 decoder (R193). -/
  side : Nat
  k : Nat
  elems : List Nat
  sfmt : Nat
  scales : List Nat
  /-- The largest timestamp of the operations completed on it (R182). -/
  ts : Nat
  deriving DecidableEq, Repr

/-- An accumulator tile (R178): 128 × 128 binary32 elements, row by row. -/
structure Acc32 where
  claim : Option Nat
  state : TileState
  poisoned : Bool
  /-- Slot, bank and block of the poisoning (R191). -/
  cause : Nat × Nat × Nat
  damaged : Bool
  elems : List Word
  /-- The largest timestamp of the operations completed on it (R182). -/
  ts : Nat
  deriving DecidableEq, Repr

/-- A metadata queue (R178, R190): entries of 512 bytes, oldest first. -/
structure MQueue where
  claim : Option Nat
  entries : List (List Byte)
  deriving DecidableEq, Repr

/-- A tensor identifier's image (R194) while it is set. -/
structure Tensor where
  saxis : Nat
  sblk : Nat
  sfmt : Nat
  layout : Nat
  ndim : Nat
  fmt : Nat
  base : DWord
  sbase : DWord
  fill : DWord
  sizes : List Nat
  strides : List DWord
  srow : DWord
  splane : DWord
  deriving DecidableEq, Repr

/-- A tile-engine operation issued on a core (R179 to R182). -/
structure TileOp where
  id : Nat
  team : Nat
  ctx : Nat
  opc : BitVec 8
  form : Form
  cval : Word
  tensor : Option Tensor
  /-- The signatures it was built from (R181). -/
  signers : List Signature
  /-- Whether its holding signers still hold: a read-out whose tile's poison is not known yet (R179, R181). -/
  held : Bool
  rm : BitVec 3
  started : Bool
  /-- The largest ptime among the signers, then among its events (R182). -/
  ts : Nat
  /-- Translations of the pages it touches, as checked at issue (R396): 64 KiB page, physical base, key, LBC data. -/
  pages : List (Nat × Nat × Nat × Bool)
  /-- `TLD`: virtual sectors still to read, and those read with whether each met a mark. -/
  todo : List Nat
  secs : List (Nat × Sector × Bool)
  /-- `TST`: virtual sectors still to write: bytes and mask. -/
  writes : List (Nat × Sector × BitVec 64)
  /-- `TST` has met a sector that kept its mark (R396). -/
  dropped : Bool
  /-- Metadata entries popped so far (R189). -/
  popped : List (List Byte)
  /-- Uncorrectable errors met while it broadcasts (R191): bank and block. -/
  bankErrors : List (Nat × Nat)
  /-- Accumulator rows that a bad element it has read feeds (R360). -/
  rowErrors : List Nat
  deriving DecidableEq, Repr

/-- A code block in an L1 instruction cache (R65, R67): context, virtual address, 32 bytes. -/
structure CodeBlock where
  ctx : Nat
  addr : Nat
  bytes : List Byte
  deriving DecidableEq, Repr

/-- A loop buffer (R99): the grid whose code it is, the body's start and end, the version and the body's code blocks.
`granted`: threads whose waiting `LOOP` it was given to, with the PC of that `LOOP`. -/
structure LoopBuf where
  grid : Nat
  start : DWord
  stop : DWord
  version : Nat
  stale : Bool
  code : List CodeBlock
  granted : List (Nat × DWord)
  deriving DecidableEq, Repr

/-- An L1 data sector (R243, R244, R264): `own` while the L1 is its keeper (R313). -/
structure L1Sector where
  sec : Nat
  bytes : Sector
  wts : Nat
  rts : Nat
  granted : Nat
  writeBack : Bool
  own : Bool
  dirty : Bool
  used : Nat
  /-- The context of the last store into it. -/
  ctx : Option Nat
  deriving DecidableEq, Repr

/-- A scratchpad frame in use (R240): its page's bytes and the times of its 64-byte sectors (R264). -/
structure SpadFrame where
  team : Nat
  page : Nat
  sectors : List Sector
  times : List (Nat × Nat)
  /-- Its sectors that carry a mark (R361, R364): number, and the code and extra0 of the trap an access takes. -/
  bad : List (Nat × Nat × Nat)
  dirty : Bool
  used : Nat
  deriving DecidableEq, Repr

/-- A stochastic generator (R53): partition, context, state. -/
structure SrGen where
  part : Nat
  ctx : Nat
  state : Word
  deriving DecidableEq, Repr

/-- An entry of a partition's PC hash table (R32): the code object, the PC, and the ready threads that carry the pair. -/
structure PcEntry where
  part : Nat
  grid : Nat
  pc : DWord
  threads : List Nat
  deriving DecidableEq, Repr

/-- A core (R32, R178, R212, R243): one site of a die. -/
structure Core where
  die : Nat
  site : Nat
  slots : List Slot
  accs : List Acc32
  mqs : List MQueue
  ops : List TileOp
  loops : List (Nat × LoopBuf)
  code : List CodeBlock
  l1 : List L1Sector
  frames : List SpadFrame
  gens : List SrGen
  /-- The PC hash tables of its partitions, and their overflow lists: partition and thread, oldest first (R32). -/
  pcs : List PcEntry
  overflow : List (Nat × Nat)
  /-- Partitions that have issued this clk, and whether the issue group was of class F (R34). -/
  issuedNow : List (Nat × Bool)
  /-- Largest ptime of a thread that has exited on the core (R31). -/
  maxExit : Nat
  /-- Counters 0x000 by context, 0x001 by context, 0x030 (R212). -/
  issued : List (Nat × Nat)
  residentClk : List (Nat × Nat)
  mqStall : Nat
  /-- Stopped in bring-up mode, with the reported code (R377). -/
  stopped : Option Nat
  lost : Bool
  droop : Bool
  deriving DecidableEq, Repr

/-- Sector states of a die's L2 (R294). -/
inductive L2State where
  | s | e | m | o | p
  deriving DecidableEq, Repr

/-- A sector in a die's L2 (R246, R264, R300); in P, `bytes` is unused and the partial's elements are held as
words per half with touched marks. -/
structure L2Sector where
  sec : Nat
  st : L2State
  bytes : Sector
  wts : Nat
  rts : Nat
  tag : Nat
  partials : List (Option DWord)
  touched : List Bool
  used : Nat
  retain : Bool
  /-- The context of the last store or `RED` into it (R251, R341). -/
  ctx : Option Nat
  deriving DecidableEq, Repr

/-- A condition monitor (R304). -/
structure Monitor where
  sec : Nat
  tid : Nat
  cc : BitVec 3
  it : BitVec 3
  operand : DWord
  off : Nat
  deriving DecidableEq, Repr

/-- A die (R246, R304, R305, R370 to R372). -/
structure Die where
  l2 : List L2Sector
  monitors : List Monitor
  /-- Wake entries in use for swapped-out teams (R230): team and sectors. -/
  wakes : List (Nat × List Nat)
  atomq : List RemoteAtom
  sitemap : BitVec 64
  /-- Sites lost (R365). -/
  lost : Bool
  mhz : Nat
  halved : Bool
  /-- Reports to the die's management block: the site and code of a `HALT` (R214); 48 and the record of a launch that
  was refused (R377). -/
  halts : List (Nat × Word)
  deriving DecidableEq, Repr

/-- A sector's field in a directory entry (R295). -/
structure DirSector where
  st : Nat
  holders : BitVec 4
  aux : BitVec 5
  deriving DecidableEq, Repr

/-- A directory entry (R295, R310). -/
structure DirEntry where
  line : Nat
  secs : List DirSector
  used : Nat
  deriving DecidableEq, Repr

/-- A request the home serves or holds (R297, R302, R312): kind 0 RdS, 1 RdX, 2 Upg, 3 PJoin with a tag, 4 and 5
an `LD.S` and an `LD.F` that are served at the home, with the access's number. -/
structure HomeReq where
  kind : Nat
  die : Nat
  tag : Nat
  deriving DecidableEq, Repr

/-- A busy sector of a home (R297): the request served, the dies whose Ack is awaited, the partials gathered, and
the requests held behind it. -/
structure Busy where
  sec : Nat
  req : HomeReq
  awaited : List Nat
  forwarded : Bool
  supplied : Bool
  dirty : Bool
  partials : List (Nat × List (Option DWord) × List Bool)
  /-- Largest wts and rts gathered. -/
  wts : Nat
  rts : Nat
  queue : List HomeReq
  /-- The context whose `RED`s the gathered partials are. -/
  ctx : Option Nat
  deriving DecidableEq, Repr

/-- An alias entry (R278), in grains. `lbc` and `low` are the model's own: the source lies in data pages of LBC groups,
and its lines are read expanded (R254, R257); the source starts this many bytes into its first grain, as the upper part
of a split does when source blocks are smaller than a grain (log 108). -/
structure AliasEntry where
  wts : Nat
  ctxid : Nat
  reads : Nat
  xf1 : Nat
  xf0 : Nat
  src : Nat
  dst : Nat
  len : Nat
  lbc : Bool
  low : Nat
  deriving DecidableEq, Repr

/-- A watch entry (R279), in grains. -/
structure WatchEntry where
  src : Nat
  dhome : Nat
  len : Nat
  deriving DecidableEq, Repr

/-- A range-lock entry (R154): the operation, physical byte range, and the thread whose eager copy it is. -/
structure RangeLock where
  op : Nat
  first : Nat
  last : Nat
  owner : Option Nat
  deriving DecidableEq, Repr

/-- A partial that a home's atomic unit keeps for one element of an MS page (R163, R253): sector, byte within it,
operator tag, and its halves. -/
structure MsPart where
  sec : Nat
  off : Nat
  tag : Nat
  halves : List (Option DWord)
  deriving DecidableEq, Repr

/-- A Peat cache line (R248, R249, R253): the bytes its address holds, the units it occupies and the first of them in
its physical line, and the partials of its elements. `own`: its units as its own encoding while it is a line of an LBC
page, not yet expanded. -/
structure PeatLine where
  line : Nat
  bytes : Line
  units : Nat
  phys : Nat
  pos : Nat
  own : Option Nat
  dirty : Bool
  used : Nat
  parts : List MsPart
  deriving DecidableEq, Repr

/-- A write-combining entry (R251): line, byte mask, bytes, the context of its first write, the wait, and the clk of that
write. -/
structure WcEntry where
  line : Nat
  mask : BitVec 256
  bytes : Line
  ctx : Option Nat
  wait : Nat
  since : Nat
  deriving DecidableEq, Repr

/-- A row remap (R366): channel, row, spare number. -/
structure Remap where
  channel : Nat
  row : Nat
  spare : Nat
  deriving DecidableEq, Repr

/-- A key slot of a home (R354, R355). -/
structure KeySlot where
  /-- 0 empty, 1 live, 2 destroying. -/
  st : Nat
  gen : BitVec 8
  key : BitVec 512
  deriving DecidableEq, Repr

/-- The PHY registers of a channel's pseudo-channel (R379), per logical lane where the register has lanes. -/
structure Phy where
  block : PhyBlock
  regs : List (Nat × Word)
  /-- A test under way (R378): kind, tap or count, and the clk it ends. -/
  test : Option (Nat × Nat × Nat)
  done : Bool
  deriving DecidableEq, Repr

/-- Marks of a DRAM sector (R354, R361, R364): key id and generation of its last write, poison, lost. -/
structure SecMark where
  sec : Nat
  key : Nat
  gen : BitVec 8
  poison : Bool
  lost : Bool
  deriving DecidableEq, Repr

/-- A home (R235, R248 to R251, R277, R295, R354, R366). -/
structure Home where
  dir : List DirEntry
  busy : List Busy
  /-- Requests that wait for a way of their directory set, in arrival order (R310): sector and request. -/
  dirWait : List (Nat × HomeReq)
  aliases : List AliasEntry
  watches : List WatchEntry
  /-- Its background materialiser drains the alias table, the watch table (R290). -/
  draining : Bool
  drainWatch : Bool
  locks : List RangeLock
  /-- Times of sectors at the home (R264): sector, wts, rts. -/
  times : List (Nat × Nat × Nat)
  /-- Bytes moved to or from its DRAM over the last 10 µs (R341): context, clk, bytes. -/
  moved : List (Nat × Nat × Nat)
  peat : List PeatLine
  wc : List WcEntry
  /-- Counters 0x012 to 0x015 and 0x020 to 0x022 (R212). -/
  eagerOcc : Nat
  eagerFull : Nat
  hot : Nat
  drained : Nat
  peatHits : Nat
  peatMisses : Nat
  peatGrow : Nat
  remaps : List Remap
  blocked : List Nat
  marks : List SecMark
  keys : List (Nat × KeySlot)
  phys : List Phy
  deriving DecidableEq, Repr

/-- What an outstanding access does when it is performed (R140). -/
inductive AccKind where
  | load (fresh stale : Bool) (sext : Bool)
  | store
  | atom (op : BitVec 3) (ty : BitVec 3)
  | acas (w : Nat)
  /-- Steps still to apply to one sector: element, half, update; whether the slice has begun the message (R308). -/
  | red (tag : Nat) (steps : List (Nat × Nat × DWord)) (begun : Bool)
  /-- A copy to record: transform, how many pieces of the place are the destination's, bytes, whether each source
  piece lies in data pages of LBC groups, and the expansion point of each destination page (R153, R281). -/
  | copy (xf nd len : Nat) (lbc : List Bool) (points : List Nat)
  | matz
  | alq
  | flush (inv peat discard : Bool)
  | tidSet (n : Nat) (image : Option Tensor)
  | mqPush (q : Nat)
  | abinit (b c : Nat)
  | abarv (bytes : Nat)
  /-- A trap record (R84): the trap's code, and whether its context stops with it (R86). -/
  | record (code : Nat) (stop : Bool)
  | graphFire
  | nodeq (g n : Nat)
  | done
  deriving DecidableEq, Repr

/-- Where the bytes of an access lie. -/
inductive Place where
  /-- Physical pieces in order: address, bytes (R138: a wide private access has several). -/
  | phys (pieces : List (Nat × Nat))
  | spad (at_ : SpadRef) (n : Nat)
  | nothing
  deriving DecidableEq, Repr

/-- Where a returning value goes (R140). -/
inductive Dest where
  | none
  /-- Stack positions pos to pos + n − 1; `lo`, `len`: the positions that are pending meanwhile, the whole range of the
  index register for an indirect destination (R26). -/
  | vec (pos n lo len : Nat)
  | uni (group k n : Nat)
  | scratch (k n : Nat)
  deriving DecidableEq, Repr

/-- An outstanding access of a thread (R140, R268). -/
structure Access where
  id : Nat
  tid : Nat
  /-- Threads whose counter falls with it; several for a combined `RED` (R162). -/
  owners : List Nat
  ctx : Nat
  die : Nat
  site : Nat
  issue : Nat
  kind : AccKind
  place : Place
  size : Nat
  va : Nat
  /-- Key ids of its pages, by 4 KiB page of physical memory (R351, R354). -/
  keys : List (Nat × Nat)
  ms : Bool
  lbc : Bool
  writeBack : Bool
  bytes : List Byte
  cmp : DWord
  dest : Dest
  ctr : Ctr
  /-- The graph node whose recorded copy it is (R330). -/
  node : Option (Nat × Nat)
  /-- Sectors that the instruction writes whole (R148). -/
  wholes : List Nat
  /-- `LD.S`: by sector, the copies held when it was issued (R142). -/
  copies : List (Nat × List Sector)
  /-- Values a home has obtained for a load with Peek: sector and bytes (R312). -/
  peeked : List (Nat × Sector)
  deriving DecidableEq, Repr

/-- What a page gives (R351): physical address of the byte, key id, attributes, permissions. -/
structure Xlat where
  pa : Nat
  key : Nat
  ms : Bool
  lbc : Bool
  point : Nat
  x : Bool
  w : Bool
  r : Bool
  deriving DecidableEq, Repr

/-- A translation that some TLB, walk cache or prefetch of the package holds (R211, R352): context, 64 KiB page, and what
the page gave. -/
structure TlbEntry where
  ctx : Nat
  page : Nat
  x : Xlat
  deriving DecidableEq, Repr

/-- An engine command (R154, R197 to R201), an eager copy, or the work of a node's unit under way. -/
structure EngineOp where
  id : Nat
  tid : Nat
  /-- The issue that launched it: its lanes act in ascending order (R153). -/
  issue : Nat
  team : Option Nat
  ctx : Nat
  /-- 0 Sluice, 1 decoder, 2 security, 8 eager copy, 9 `GETR` landing. -/
  engine : Nat
  fn : Nat
  /-- The engine's number (R197). -/
  unit : Nat
  desc : List Byte
  descVa : Nat
  descSpad : Option SpadRef
  /-- Byte ranges to lock: physical first and last. -/
  ranges : List (Nat × Nat)
  locked : Bool
  param : Word
  dest : Dest
  ctr : Ctr
  xf : Nat
  /-- Physical pieces of an eager copy's or landing's destination. -/
  dsts : List (Nat × Nat)
  /-- Physical pieces of an eager copy's source, and whether each lies in data pages of LBC groups. -/
  srcs : List (Nat × Nat × Bool)
  /-- Key ids of the destination's pages, by 4 KiB page of physical memory. -/
  keys : List (Nat × Nat)
  len : Nat
  tensors : List (Nat × Tensor)
  /-- The graph node whose command this is (R332). -/
  node : Option (Nat × Nat × Nat)
  /-- Virtual source sectors still to read, those read so far, each at its own point (R275), and the largest timestamp
  among them, the launch's at least. -/
  todo : List Nat
  snap : List (Nat × Sector)
  ts : Nat
  /-- How far an engine that reads in turns has come (`sl_gather`: its indices). -/
  stage : Nat
  /-- Translations of the destination's pages as locked: 64 KiB page, physical base, key. -/
  pages : List (Nat × Nat × Nat)
  /-- What the completion writes: physical sectors, bytes and masks. -/
  swrites : List (Nat × Sector × BitVec 64)
  /-- The bytes of a `GETR` that have come. -/
  writes : List (Nat × List Byte)
  /-- A decoder's slot target, and the slot before the command (R200). -/
  slot : Option (Nat × Slot)
  /-- What the slot holds once the command has completed. -/
  slotNew : Option Slot
  /-- `FPCTL`.RM at issue. -/
  rm : BitVec 3
  /-- Entries still to push into a metadata queue (R199). -/
  pushes : List (List Byte)
  /-- The status once the engine has done its work. -/
  status : Option Nat
  reply : Nat
  /-- Outputs of the near-memory commands computed so far, by command: address and code (R333). -/
  outs : List (Nat × List (Nat × Nat))
  /-- The address word of a node's failure (R327). -/
  info : Nat
  deriving DecidableEq, Repr

/-- A Lode operation under way (R165 to R167). -/
structure LodeOp where
  id : Nat
  tid : Nat
  team : Nat
  ctx : Nat
  /-- 0 `PUTR`, 1 `GETR`, 2 `WSIG`, 3 `ATOMQ`. -/
  kind : Nat
  node : Nat
  local_ : DWord
  remote : DWord
  flag : DWord
  fval : DWord
  flagop : Nat
  len : Nat
  descVa : Nat
  descSpad : Option SpadRef
  /-- `ATOMQ`: the operation, the type and the completion queue. -/
  aop : Nat
  aty : Nat
  queue : Nat
  wide : Bool
  engine : Option Nat
  deriving DecidableEq, Repr

/-- A message the package has sent over Lode: to the host (R345), or to a peer node (R165 to R167, R305). -/
inductive LodeOut where
  | reply (node ctxid seq status value : Nat)
  | graphDone (ctxid : Nat) (handle : Word) (word : DWord)
  | hostSignal (ctxid : Nat) (handle : Word) (node : Nat) (value : DWord)
  | fault (ctxid index : Nat)
  | ctxStopped (ctxid : Nat) (record : List Byte) (second : Option Nat)
  | ptime (value : Nat)
  | machineCheck (cls source die stack channel : Nat) (site : Nat) (addr count clk : Nat)
  | put (op node ctxid : Nat) (remote : DWord) (bytes : List Byte)
  | get (op node ctxid : Nat) (remote : DWord) (len : Nat)
  | signal (op node ctxid : Nat) (remote : DWord) (bytes : List Byte) (flag fval : DWord) (flagop : Nat)
  | atomq (op node ctxid : Nat) (remote : DWord) (aop aty : Nat) (val : DWord)
  | atomReply (op node status : Nat) (old : DWord)
  | readReply (node : Nat) (status : Nat) (bytes : List Byte)
  | writeReply (node : Nat) (status : Nat)
  | smbus (text : Nat)
  deriving DecidableEq, Repr

/-- A pinned window (R157, R252): first byte, bytes, the 64 KiB pages it covers by physical number, the fade counter,
and whether an access reached a Peat cache this period. -/
structure PinWindow where
  va : Nat
  len : Nat
  pages : List Nat
  fade : Nat
  hit : Bool
  deriving DecidableEq, Repr

/-- A context (R39, R342). -/
structure Context where
  ctxid : Nat
  live : Bool
  sys : Bool
  swspill : Bool
  lodeok : Bool
  root : Nat
  restore : DWord
  savebase : Nat
  nblk : Nat
  blksz : Nat
  blocksUsed : List Nat
  privbase : Nat
  privsize : Nat
  spbase : Nat
  spsize : Nat
  fq : Nat
  fqn : Nat
  fqTail : Nat
  fqHead : Nat
  trapvec : DWord
  traprec : DWord
  srseed : Word
  keyid : Nat
  peatwc : Nat
  aliashot : Nat
  leasemax : Nat
  budget : DWord
  privlim : Word
  fadeper : Word
  /-- The clk at which the current fade period began (R252). -/
  fadeClk : Nat
  /-- Set tensor identifiers by number (R194). -/
  tensors : List (Nat × Tensor)
  windows : List PinWindow
  /-- Handle slots (R324): slot, generation, graph index if live. -/
  handles : List (Nat × Nat × Option Nat)
  held : Bool
  stopped : Bool
  bringUp : Bool
  deriving DecidableEq, Repr

/-- State of a graph node (R203, R325). -/
inductive NodeState where
  | waiting | ready | running | done | failed | notRun
  deriving DecidableEq, Repr

/-- A graph node as fired (R320, R321): its record and parameter block as read, successors and run state. -/
structure GNode where
  kind : Nat
  record : List Byte
  param : List Byte
  succ : List Nat
  preds : Nat
  state : NodeState
  code : Nat
  addr : Nat
  grid : Option Nat
  /-- The operation number under which it holds its range locks (R326). -/
  lockOp : Option Nat
  readyClk : Nat
  /-- The fault-queue entry it waits for (R326). -/
  fault : Option Nat
  /-- Aborted commands (R336): number, failing address, and the fallback's grid once it has been given out. -/
  aborts : List (Nat × Nat × Option Nat)
  /-- The largest time of what it follows, and of its own events (R325). -/
  ts : Nat
  deriving DecidableEq, Repr

/-- A fired graph (R319, R323, R327). -/
structure Graph where
  ctx : Nat
  handle : Word
  nodes : List GNode
  doneAddr : DWord
  errAddr : DWord
  /-- The first failure: node, code, address word (R327). -/
  fail : Option (Nat × Nat × Nat)
  finished : Bool
  deriving DecidableEq, Repr

/-- A decoder session (R200): decoder number, session, context, reference store, the units decoded so far, and
whether a reference is damaged (R338). -/
structure Session where
  decoder : Nat
  num : Nat
  ctx : Nat
  base : DWord
  size : DWord
  units : List (List Byte)
  damaged : Bool
  deriving DecidableEq, Repr

/-- An uncorrectable error of a structure (R360): a sector of a cache or a frame, a register, what a tile operation reads
from a B-side bank or from elsewhere for one accumulator row, a row of an accumulator tile, a directory entry, and a
home's alias, watch or range-lock table. -/
inductive HwError where
  | peat (sec : Nat)
  | l2 (die sec : Nat)
  | l1 (die site sec : Nat)
  | frame (team page sector : Nat)
  | register (tid pos : Nat)
  | bank (die site op bank block : Nat)
  | row (die site op row : Nat)
  | tile (die site acc row : Nat)
  | directory (line : Nat)
  | table (home : Nat)
  deriving DecidableEq, Repr

/-- The issue group whose instruction executes (R34): place, PC, and its threads by ascending lane. -/
structure Issue where
  die : Nat
  site : Nat
  part : Nat
  pc : DWord
  lanes : List (Nat × Nat)
  deriving DecidableEq, Repr

/-- The package. -/
structure State where
  threads : List Thread
  groups : List Group
  teams : List Team
  clusters : List Cluster
  grids : List Grid
  contexts : List Context
  cores : List Core
  dies : List Die
  homes : List Home
  mem : Memory
  /-- Cached translations (R352). -/
  tlb : List TlbEntry
  graphs : List Graph
  accs : List Access
  engines : List EngineOp
  lodes : List LodeOp
  out : List LodeOut
  sessions : List Session
  /-- Generators of the Sluice engines that have advanced (R53): engine, context, state. -/
  sluices : List (Nat × Nat × Word)
  /-- Measurement registers (R374), 64 bytes each. -/
  measures : List (List Byte)
  /-- Loaded routines (R199): transform number and image. -/
  routines : List (Nat × List Byte)
  /-- Package clock (R212). -/
  clk : Nat
  pushMode : Bool
  bringUp : Bool
  /-- Power state (R370): the code of `POWER`. -/
  power : Nat
  node : Option Nat
  routeTable : Nat
  lodeRetired : List Nat
  causewayRetired : List Nat
  /-- Corrected errors by source since the last report (R368). -/
  corrected : List (Nat × Nat)
  /-- Replays that have failed on a Lode or a Causeway link (R360): Lode, link, count. -/
  replays : List (Bool × Nat × Nat)
  /-- Management messages that have arrived and are not served yet, oldest first: the node and the 128 bytes of the two
  flits (R345). -/
  inbox : List (Nat × List Byte)
  fatal : Bool
  clockStopped : Bool
  lodeUp : Bool
  ptimeReported : Bool
  /-- Multiples of 128 clk of the package whose PTIME_TICK has happened (R266). -/
  ticked : Nat
  /-- Sensor polls that have happened (R369). -/
  polled : Nat
  /-- Package current stands above its limit (R371). -/
  overcurrent : Bool
  /-- The model's own fields. Identity counter of accesses, operations and issues. -/
  nextId : Nat
  /-- The model's own counter of undefined values (log 2). -/
  seed : Nat
  /-- The number of the issue group that executes now, or executed last. -/
  issueNo : Nat
  /-- The issue group whose instruction executes now. -/
  cur : Option Issue
  /-- Steps of other agents under way inside the package, oldest first (log 1). -/
  net : List Instr
  /-- Steps of the outside world and of agents that may move, as chosen by whoever drives the model (log 1). -/
  agenda : List Instr
  /-- Uncorrectable errors that structures meet, as chosen by whoever drives the model (R360; log 1). -/
  errors : List HwError
  deriving DecidableEq, Repr

/-- A die right after reset: its fused part is log 7's, its rate the top of R372's. -/
def Die.fresh : Die where
  l2 := []
  monitors := []
  wakes := []
  atomq := []
  sitemap := 0xFFFFFFFFFFF#64
  lost := false
  mhz := 700
  halved := false
  halts := []

/-- A home right after reset: no table holds an entry, key slot 0 apart every slot is empty (R354), every channel is
untrained (R237, R382). -/
def Home.fresh : Home where
  dir := []
  busy := []
  dirWait := []
  aliases := []
  watches := []
  draining := false
  drainWatch := false
  locks := []
  times := []
  moved := []
  peat := []
  wc := []
  eagerOcc := 0
  eagerFull := 0
  hot := 0
  drained := 0
  peatHits := 0
  peatMisses := 0
  peatGrow := 0
  remaps := []
  blocked := []
  marks := []
  keys := []
  phys := []

/-- The package right after reset: bring-up mode (R377), push dispatch (R328), no context, no thread, memory with
nothing listed (log 5), measurement registers zero (R374), no node number and no route table (log 18). -/
def State.reset : State where
  threads := []
  groups := []
  teams := []
  clusters := []
  grids := []
  contexts := []
  cores := []
  dies := List.replicate 4 Die.fresh
  homes := List.replicate 12 Home.fresh
  mem := []
  tlb := []
  graphs := []
  accs := []
  engines := []
  lodes := []
  out := []
  sessions := []
  sluices := []
  measures := List.replicate 16 (List.replicate 64 0#8)
  routines := []
  clk := 0
  pushMode := true
  bringUp := true
  power := 0
  node := none
  routeTable := 0
  lodeRetired := []
  causewayRetired := []
  corrected := []
  replays := []
  inbox := []
  fatal := false
  clockStopped := false
  lodeUp := false
  ptimeReported := false
  ticked := 0
  polled := 0
  overcurrent := false
  nextId := 0
  seed := 0
  issueNo := 0
  cur := none
  net := []
  agenda := []
  errors := []

end Sys2Proof.Machine
end

