-- ==== Sys2Proof/Machine/Mem.lean ====
section
/-! DEFINITION. Memory as bytes, its homes (R235 to R237), and the tables of the state read and written by key. -/

namespace Sys2Proof.Machine

/-! Memory in canonical form. -/

/-- What an unlisted byte reads as (log 5). -/
def memDefault : Byte := 0#8

/-- One byte of memory. -/
def memRead : Memory → Nat → Byte
  | [], _ => memDefault
  | (k, v) :: r, a => if k = a then v else memRead r a

/-- The canonical form: addresses strictly rising, no entry equal to the default. -/
def memWf (m : Memory) : Bool := decide (m.Pairwise fun x y => x.1 < y.1) && m.all fun x => x.2 ≠ memDefault

/-- The form as a proposition. -/
abbrev Memory.wf (m : Memory) : Prop := memWf m = true

/-- Consecutive bytes from the cells at and above their address. -/
def memRun : Memory → Nat → Nat → List Byte
  | _, _, 0 => []
  | [], _, n + 1 => List.replicate (n + 1) memDefault
  | (k, v) :: r, a, n + 1 => if k = a then v :: memRun r (a + 1) n else memDefault :: memRun ((k, v) :: r) (a + 1) n

/-- Consecutive bytes. -/
def memReadN (m : Memory) (a n : Nat) : List Byte := memRun (m.dropWhile fun x => x.1 < a) a n

/-- The cells that list consecutive bytes: nothing for a byte that reads as the default. -/
def memCells : Nat → List Byte → Memory
  | _, [] => []
  | a, b :: bs => if b = memDefault then memCells (a + 1) bs else (a, b) :: memCells (a + 1) bs

/-- Writes consecutive bytes, keeping the form. -/
def memWriteN (m : Memory) (a : Nat) (bs : List Byte) : Memory :=
  m.takeWhile (fun x => x.1 < a) ++ memCells a bs ++ m.dropWhile fun x => x.1 < a + bs.length

/-- Writes one byte. -/
def memWrite (m : Memory) (a : Nat) (b : Byte) : Memory := memWriteN m a [b]

/-! Sectors and lines as bits. -/

/-- Byte i of a sector. -/
def secByte (x : Sector) (i : Nat) : Byte := x.extractLsb' (8 * i) 8

/-- Replaces byte i of a sector. -/
def secSet (x : Sector) (i : Nat) (b : Byte) : Sector :=
  (x &&& ~~~ ((0xFF#512) <<< (8 * i))) ||| ((b.setWidth 512) <<< (8 * i))

/-- Replaces bytes from i. -/
def secPut : Sector → Nat → List Byte → Sector
  | x, _, [] => x
  | x, i, b :: bs => secPut (secSet x i b) (i + 1) bs

/-- Bytes i to i + n − 1 of a sector. -/
def secGet (x : Sector) (i n : Nat) : List Byte := (List.range n).map fun j => secByte x (i + j)

/-- A sector from 64 bytes. -/
def secOfBytes (bs : List Byte) : Sector := BitVec.ofNat 512 (bitsOfBytes bs)

/-- Little-endian bytes of a 64-bit value. -/
def bytesOf (n : Nat) (v : Nat) : List Byte := bytesOfBits n v

/-- Sector k (0 to 3) of a line. -/
def lineSec (x : Line) (k : Nat) : Sector := x.extractLsb' (512 * k) 512

/-- Replaces a sector of a line. -/
def lineSetSec (x : Line) (k : Nat) (v : Sector) : Line :=
  (x &&& ~~~ (((~~~ (0#512)).setWidth 2048) <<< (512 * k))) ||| ((v.setWidth 2048) <<< (512 * k))

/-! Homes (R235 to R237). -/

/-- DRAM ends here (R235). -/
def dramEnd : Nat := 0x00C000000000

/-- Bring-up SRAM of a die (R377). -/
def sramBase (die : Nat) : Nat := 0x00E000000000 + die * 0x100000

/-- The home die of a physical address (R235). -/
def homeDie (pa : Nat) : Nat :=
  (pa / 2 ^ 12 % 4) ^^^ (pa / 2 ^ 20 % 4) ^^^ (pa / 2 ^ 28 % 4) ^^^ (pa / 2 ^ 36 % 4) ^^^ (pa / 2 ^ 44 % 4)

/-- The home of a physical address, 0 to 11 (R235). -/
def homeOf (pa : Nat) : Nat := homeDie pa * 3 + pa / 2 ^ 14 % 3

/-- The address within the stack (R235). -/
def stackAddr (pa : Nat) : Nat := pa / 2 ^ 14 / 3 * 4096 + pa % 4096

/-- The L2 slice of a line (R236). -/
def sliceOf (pa : Nat) : Nat := (pa / 2 ^ 8 % 32) ^^^ (pa / 2 ^ 13 % 32) ^^^ (pa / 2 ^ 18 % 32)

/-- The set of a line in its slice (R236). -/
def l2SetOf (pa : Nat) : Nat := pa / 2 ^ 13 % 1024

/-- The channel of a physical address (R237). -/
def channelOf (pa : Nat) : Nat := (stackAddr pa / 2 ^ 8 % 32) ^^^ (stackAddr pa / 2 ^ 18 % 32)

/-! Lists as tables. -/

/-- Replaces the element at an index. -/
def setAt {α : Type} (l : List α) (i : Nat) (x : α) : List α := l.set i x

/-- Changes the element at an index. -/
def modAt {α : Type} (l : List α) (i : Nat) (f : α → α) : List α := l.modify i f

/-- Looks a key up. -/
def lookupNat {β : Type} : List (Nat × β) → Nat → Option β
  | [], _ => none
  | (k, v) :: r, a => if k = a then some v else lookupNat r a

/-- Sets a key, dropping its older entries. -/
def insertNat {β : Type} (l : List (Nat × β)) (a : Nat) (v : β) : List (Nat × β) :=
  (a, v) :: l.filter fun e => e.1 ≠ a

/-- Removes a key. -/
def eraseNat {β : Type} (l : List (Nat × β)) (a : Nat) : List (Nat × β) := l.filter fun e => e.1 ≠ a

/-! The state's tables. -/

/-- The state with a thread changed. -/
def modThread (s : State) (t : Nat) (f : Thread → Thread) : State := { s with threads := modAt s.threads t f }

/-- The state with a group changed. -/
def modGroup (s : State) (g : Nat) (f : Group → Group) : State := { s with groups := modAt s.groups g f }

/-- The state with a team changed. -/
def modTeam (s : State) (t : Nat) (f : Team → Team) : State := { s with teams := modAt s.teams t f }

/-- The state with a cluster changed. -/
def modCluster (s : State) (c : Nat) (f : Cluster → Cluster) : State := { s with clusters := modAt s.clusters c f }

/-- The state with a grid changed. -/
def modGrid (s : State) (g : Nat) (f : Grid → Grid) : State := { s with grids := modAt s.grids g f }

/-- The state with a context changed. -/
def modCtx (s : State) (c : Nat) (f : Context → Context) : State := { s with contexts := modAt s.contexts c f }

/-- The state with a die changed. -/
def modDie (s : State) (d : Nat) (f : Die → Die) : State := { s with dies := modAt s.dies d f }

/-- The state with a home changed. -/
def modHome (s : State) (h : Nat) (f : Home → Home) : State := { s with homes := modAt s.homes h f }

/-- The state with a graph changed. -/
def modGraph (s : State) (g : Nat) (f : Graph → Graph) : State := { s with graphs := modAt s.graphs g f }

/-- Changes a node of a graph. -/
def modNode (s : State) (g n : Nat) (f : GNode → GNode) : State := modGraph s g fun x => { x with nodes := modAt x.nodes n f }

/-- A node of a graph. -/
def nodeAt (s : State) (g n : Nat) : Option GNode := (s.graphs[g]?).bind fun x => x.nodes[n]?

/-- An event of a node has a time. -/
def noteNode (s : State) (g n ts : Nat) : State := modNode s g n fun x => { x with ts := max x.ts ts }

/-- An empty slot (R184). -/
def slotFree : Slot := ⟨none, .empty, 0, false, false, 0, 0, 0, [], 0, [], 0⟩

/-- An empty accumulator tile. -/
def accFree : Acc32 := ⟨none, .empty, false, (0, 0, 0), false, [], 0⟩

/-- A core nothing has run on. -/
def coreFresh (die site : Nat) : Core :=
  { die := die, site := site, slots := List.replicate 64 slotFree, accs := List.replicate 16 accFree,
    mqs := List.replicate 4 ⟨none, []⟩, ops := [], loops := [], code := [], l1 := [], frames := [], gens := [],
    pcs := [], overflow := [], issuedNow := [],
    maxExit := 0, issued := [], residentClk := [], mqStall := 0, stopped := none, lost := false, droop := false }

/-- A core of the package; cores not listed are fresh. -/
def coreAt (s : State) (die site : Nat) : Core :=
  (s.cores.find? fun c => c.die = die ∧ c.site = site).getD (coreFresh die site)

/-- The state with a core replaced. -/
def setCore (s : State) (c : Core) : State :=
  if s.cores.any fun k => k.die = c.die ∧ k.site = c.site then
    { s with cores := s.cores.map fun k => if k.die = c.die ∧ k.site = c.site then c else k }
  else { s with cores := s.cores ++ [c] }

/-- The state with a core changed. -/
def modCore (s : State) (die site : Nat) (f : Core → Core) : State := setCore s (f (coreAt s die site))

/-- The group of a thread. -/
def groupOf (s : State) (t : Nat) : Option Group := (s.threads[t]?).bind fun th => s.groups[th.group]?

/-- The team of a thread. -/
def teamOf (s : State) (t : Nat) : Option Team := (groupOf s t).bind fun g => s.teams[g.team]?

/-- The team's number. -/
def teamIdOf (s : State) (t : Nat) : Nat := ((groupOf s t).map (·.team)).getD 0

/-- The grid of a thread. -/
def gridOf (s : State) (t : Nat) : Option Grid := (teamOf s t).bind fun m => s.grids[m.grid]?

/-- The context number of a thread. -/
def ctxOf (s : State) (t : Nat) : Nat := ((gridOf s t).map (·.ctx)).getD 0

/-- The context of a thread. -/
def contextOf (s : State) (t : Nat) : Option Context := s.contexts[ctxOf s t]?

/-- Indices, counted from i, of the elements of a list that satisfy a test. -/
def indicesOf {α : Type} (p : α → Bool) : Nat → List α → List Nat
  | _, [] => []
  | i, x :: r => if p x then i :: indicesOf p (i + 1) r else indicesOf p (i + 1) r

/-- Threads of a group, by lane. -/
def groupThreads (s : State) (g : Nat) : List Nat := indicesOf (fun th => th.group = g) 0 s.threads

/-- Threads of a team, by group and lane. -/
def teamThreads (s : State) (m : Nat) : List Nat :=
  match s.teams[m]? with
  | some tm => tm.groups.flatMap fun g => groupThreads s g
  | none => []

/-- Whether a thread has exited or is none. -/
def threadExited (s : State) (t : Nat) : Bool := ((s.threads[t]?).map (·.exited)).getD true

/-- Raises a thread's ptime to at least a time (R266). -/
def raisePtime (s : State) (t ts : Nat) : State :=
  modThread s t fun th => { th with ptime := max th.ptime ts }

/-- PEATWC of a context (R39). -/
def waitOf (s : State) (c : Nat) : Nat := ((s.contexts[c]?).map (·.peatwc)).getD 0

/-- LEASEMAX of a context (R39). -/
def leaseOf (s : State) (c : Nat) : Nat := ((s.contexts[c]?).map (·.leasemax)).getD 8

end Sys2Proof.Machine
end

