-- ==== Sys2Proof/Machine/Pooled.lean ====
section
/-! DEFINITION. The arithmetic of atomics and of Pooled partials (R62, R159, R299 to R303, R309): operator tags, the
step of a partial, and the merge into a home value. A partial holds one value per element half: an integer, or
binary32 bits; none stands for a half that has met no update. -/

namespace Sys2Proof.Machine

/-- The operator tag of an op and type (R299). -/
def tagOf (op ty : BitVec 3) : Nat :=
  let wide := if ty = 2#3 ∨ ty = 3#3 then 1 else 0
  match op.toNat with
  | 0 => if ty.toNat ≤ 1 then 1 else if ty.toNat ≤ 3 then 2 else ty.toNat - 1
  | 1 => 0x06 + ty.toNat
  | 2 => 0x0D + ty.toNat
  | 3 => 0x14 + wide
  | 4 => 0x16 + wide
  | _ => 0x18 + wide

/-- The op of a tag. -/
def tagOp (tag : Nat) : BitVec 3 :=
  if tag ≤ 5 then 0#3 else if tag ≤ 0x0C then 1#3 else if tag ≤ 0x13 then 2#3 else if tag ≤ 0x15 then 3#3
  else if tag ≤ 0x17 then 4#3 else 5#3

/-- The type of a tag; of the two signednesses that share one, the signed. -/
def tagTy (tag : Nat) : BitVec 3 :=
  if tag = 1 then 0#3 else if tag = 2 then 2#3 else if tag ≤ 5 then BitVec.ofNat 3 (tag + 1)
  else if tag ≤ 0x0C then BitVec.ofNat 3 (tag - 0x06) else if tag ≤ 0x13 then BitVec.ofNat 3 (tag - 0x0D)
  else if tag % 2 = 0 then 0#3 else 2#3

/-- Bytes of an element of a type (R159). -/
def tyBytes (ty : BitVec 3) : Nat := if ty = 2#3 ∨ ty = 3#3 then 8 else 4

/-- Halves of an element of a type. -/
def tyHalves (ty : BitVec 3) : Nat := if ty = 5#3 ∨ ty = 6#3 then 2 else 1

/-- Whether a type is a floating-point type. -/
def tyFloat (ty : BitVec 3) : Bool := 4 ≤ ty.toNat

/-- Elements of a sector under a type. -/
def tyElems (ty : BitVec 3) : Nat := 64 / tyBytes ty

/-- The format of an element half. -/
def tyFmt (ty : BitVec 3) : Fp := if ty = 5#3 then .bf16 else if ty = 6#3 then .f16 else .f32

/-- An element's half, widened to the partial's form. -/
def halfWiden (ty : BitVec 3) (half : Nat) (elem : DWord) : DWord :=
  if tyFloat ty then
    if tyHalves ty = 1 then lowBits 32 elem
    else
      BitVec.ofNat 64 (roundVal .f32 .rne false false
        (fpDecode (tyFmt ty) ((elem >>> (16 * half)).toNat % 65536))).code
  else lowBits (8 * tyBytes ty) elem

/-- A partial's half narrowed once in RNE to the element's format (R62 step 3). -/
def halfNarrow (ty : BitVec 3) (v : DWord) : Nat :=
  if tyFloat ty then (roundVal (tyFmt ty) .rne false false (fpDecode .f32 (natLow 32 v))).code
  else natLow (8 * tyBytes ty) v

/-- An integer op of R159 on the low bits of a type's width. -/
def intAtom (op ty : BitVec 3) (a b : DWord) : DWord :=
  let w := 8 * tyBytes ty
  let signed := decide (ty = 0#3 ∨ ty = 2#3)
  let x := intLow signed w a
  let y := intLow signed w b
  match op.toNat with
  | 0 => BitVec.ofNat 64 (wrapNat w (x + y))
  | 1 => lowBits w (if x ≤ y then a else b)
  | 2 => lowBits w (if x ≤ y then b else a)
  | 3 => lowBits w (a &&& b)
  | 4 => lowBits w (a ||| b)
  | 5 => lowBits w (a ^^^ b)
  | _ => lowBits w b

/-- One step of a partial (R62): integers wrap, a floating add is rounded to binary32 in RO, min and max are exact. -/
def halfStep (op ty : BitVec 3) (a b : DWord) : DWord :=
  if tyFloat ty then
    let x := fpDecode .f32 (natLow 32 a)
    let y := fpDecode .f32 (natLow 32 b)
    let e := if op = 0#3 then exactAdd .ro x y else minMaxNum (decide (op = 2#3)) x y
    BitVec.ofNat 64 (roundExact .f32 .ro false false e).code
  else intAtom op ty a b

/-- A partial's half with one more update: floating min and max hold no value before the first, every other tag starts
at its identity (R62, R300). -/
def partialStep (op ty : BitVec 3) (old : Option DWord) (u : DWord) : DWord :=
  match old with
  | some v => halfStep op ty v u
  | none =>
    if op = 0#3 then halfStep op ty 0 u
    else if tyFloat ty then u
    else lowBits (8 * tyBytes ty) u

/-- A half's partial applied to the value at the home (R302, R309). A touched half without a value contributes the
tag's identity. -/
def mergeStep (op ty : BitVec 3) (home : DWord) (p : Option DWord) : DWord :=
  match p with
  | some v => halfStep op ty home v
  | none => if op = 0#3 then halfStep op ty home 0 else home

/-- Element e of a sector. -/
def secElem (ty : BitVec 3) (x : Sector) (e : Nat) : DWord :=
  BitVec.ofNat 64 (bitsOfBytes (secGet x (e * tyBytes ty) (tyBytes ty)))

/-- One element after the partials of some dies, in ascending order of die. -/
def mergeElem (op ty : BitVec 3) (home : DWord) (ps : List (List (Option DWord))) (e : Nat) : Nat :=
  let one (h : Nat) : Nat :=
    halfNarrow ty (ps.foldl (fun v p => mergeStep op ty v ((p[e * tyHalves ty + h]?).getD none)) (halfWiden ty h home))
  if tyHalves ty = 1 then one 0 else one 0 + 65536 * one 1

/-- The partials that touched an element. -/
def touchedBy (ps : List (Nat × List (Option DWord) × List Bool)) (e : Nat) : List (List (Option DWord)) :=
  (ps.filter fun p => (p.2.2[e]?).getD false).map fun p => p.2.1

/-- Elements some partial touched. -/
def touchedElems (tag : Nat) (ps : List (Nat × List (Option DWord) × List Bool)) : List Nat :=
  (List.range (tyElems (tagTy tag))).filter fun e => !(touchedBy ps e).isEmpty

/-- The byte mask of some elements of a sector. -/
def elemMask (ty : BitVec 3) (es : List Nat) : BitVec 64 :=
  es.foldl (fun m e => m ||| BitVec.ofNat 64 ((2 ^ tyBytes ty - 1) * 2 ^ (e * tyBytes ty))) 0

/-- A home value with partials merged, dies 0 to 3 in order (R62, R302). -/
def mergeSector (tag : Nat) (home : Sector) (ps : List (Nat × List (Option DWord) × List Bool)) : Sector :=
  let op := tagOp tag
  let ty := tagTy tag
  let sorted := (List.range 4).flatMap fun d => ps.filter fun p => p.1 = d
  (touchedElems tag ps).foldl (fun x e =>
    secPut x (e * tyBytes ty) (bytesOf (tyBytes ty) (mergeElem op ty (secElem ty home e) (touchedBy sorted e) e))) home

/-- `ATOM`'s new value (R159, R160): floating adds rounded once in RNE, each half of a pair on its own. -/
def atomOp (op ty : BitVec 3) (old c : DWord) : DWord :=
  if op = 6#3 then lowBits (8 * tyBytes ty) c
  else if tyFloat ty then
    let f := tyFmt ty
    let one (h : Nat) : Nat :=
      let w := fpWidth f
      let x := fpDecode f ((old >>> (16 * h)).toNat % 2 ^ w)
      let y := fpDecode f ((c >>> (16 * h)).toNat % 2 ^ w)
      let e := if op = 0#3 then exactAdd .rne x y else minMaxNum (decide (op = 2#3)) x y
      (roundExact f .rne false false e).code
    if tyHalves ty = 1 then BitVec.ofNat 64 (one 0) else BitVec.ofNat 64 (one 0 + 65536 * one 1)
  else intAtom op ty old c

end Sys2Proof.Machine
end

