-- ==== Sys2Proof/Machine/Peat.lean ====
section
/-! DEFINITION. The Peat cache and the write-combining buffer of a home (R248 to R252), above its DRAM bytes. -/

namespace Sys2Proof.Machine

/-- The 64 32-bit elements of a line. -/
def lineWords (x : Line) : List Nat := (List.range 64).map fun i => (x.extractLsb' (32 * i) 32).toNat

/-- Whether every difference from the first element fits a signed width of 2^k values (R256). -/
def deltasFit (ws : List Nat) (bits modulus : Nat) : Bool :=
  match ws with
  | [] => true
  | x0 :: r => r.all fun x =>
    let d := (x + modulus - x0) % modulus
    decide (d < 2 ^ (bits - 1) ∨ modulus - 2 ^ (bits - 1) ≤ d)

/-- The units a line occupies in Peat, by the smallest LBC encoding on 32-bit elements (R249). -/
def lineUnits (x : Line) : Nat :=
  if x = 0#2048 then 0
  else
    let ws := lineWords x
    if deltasFit ws 8 (2 ^ 32) then 3 else if deltasFit ws 16 (2 ^ 32) then 5 else 8

/-- The Peat set of a line: its 512-byte block of the stack, mod 16,384 (R248). -/
def peatSet (line : Nat) : Nat := stackAddr (line * 256) / 512 % 16384

/-- The 512-byte block of the stack a line lies in (R248). -/
def peatBlock (line : Nat) : Nat := stackAddr (line * 256) / 512

/-- The bytes of a line in DRAM. -/
def dramLine (m : Memory) (line : Nat) : Line := BitVec.ofNat 2048 (bitsOfBytes (memReadN m (line * 256) 256))

/-- Writes a line to DRAM. -/
def dramPut (m : Memory) (line : Nat) (x : Line) : Memory := memWriteN m (line * 256) (bytesOfBits 256 x.toNat)

/-- The line a home holds below its write-combining buffer: Peat's copy, else DRAM's (R248). -/
def peatOrDram (h : Home) (m : Memory) (line : Nat) : Line :=
  match h.peat.find? fun p => p.line = line with
  | some p => p.bytes
  | none => dramLine m line

/-- Merges bytes under a mask into a line (R251). -/
def mergeMask (old new : Line) (mask : BitVec 256) : Line :=
  BitVec.ofNat 2048 (bitsOfBytes ((List.range 256).map fun i =>
    if mask.getLsbD i then (new.extractLsb' (8 * i) 8 : Byte) else old.extractLsb' (8 * i) 8))

/-- The line a home holds, its write-combining entry over the rest (R251: a read never returns older bytes). -/
def homeLine (h : Home) (m : Memory) (line : Nat) : Line :=
  let base := peatOrDram h m line
  match h.wc.find? fun w => w.line = line with
  | some w => mergeMask base w.bytes w.mask
  | none => base

/-- Whether a line is pinned by some window of a context (R252). -/
def linePinned (cs : List Context) (line : Nat) : Bool :=
  cs.any fun c => c.live && c.windows.any fun w => w.pages.contains (line / 256)

/-- Who asks a home, and when: the lines that windows pin, the package clk, and the context for which the home moves
bytes (R341). -/
structure PeatCall where
  pinned : Nat → Bool
  now : Nat
  ctx : Option Nat
  wait : Nat

/-- 10 µs of the 700 MHz package clock (R4, R341). -/
def bandwidthSpan : Nat := 7000

/-- A home moves bytes to or from its DRAM for a context (R341). -/
def noteMoved (k : PeatCall) (h : Home) (n : Nat) : Home :=
  match k.ctx with
  | none => h
  | some c => { h with moved := (c, k.now, n) :: h.moved.filter fun e => k.now < e.2.1 + bandwidthSpan }

/-- A line with the partials of its elements merged, in the order they began (R163, R253). -/
def mergeParts (x : Line) (ps : List MsPart) : Line :=
  ps.foldl (fun x p =>
    let ty := tagTy p.tag
    let k := p.sec % 4
    let v := lineSec x k
    let old : DWord := BitVec.ofNat 64 (bitsOfBytes (secGet v p.off (tyBytes ty)))
    lineSetSec x k (secPut v p.off (bytesOf (tyBytes ty) (mergeElem (tagOp p.tag) ty old [p.halves] 0)))) x

/-- Whether a home's mark makes a merge into a sector discard its partials (R361, R364). -/
def markSpoils (h : Home) (sec : Nat) : Bool := h.marks.any fun m => m.sec = sec && (m.poison || m.lost)

/-- A line leaves Peat, or finds no place there: written to DRAM when it differs, its partials merged first (R250,
R253). -/
def peatSpill (k : PeatCall) (h : Home) (m : Memory) (p : PeatLine) : Home × Memory :=
  if p.dirty ∨ p.parts ≠ [] then (noteMoved k h 256, dramPut m p.line (mergeParts p.bytes (p.parts.filter fun q => !markSpoils h q.sec))) else (h, m)

/-- Drops a Peat line, a dirty one written to DRAM (R250). -/
def peatDrop (k : PeatCall) (h : Home) (m : Memory) (line : Nat) : Home × Memory :=
  match h.peat.find? fun p => p.line = line with
  | some p => peatSpill k { h with peat := h.peat.filter fun q => q.line ≠ line } m p
  | none => (h, m)

/-- Lines of non-zero size in a physical line of a set, other than a line. -/
def physLines (h : Home) (set phys line : Nat) : List PeatLine :=
  h.peat.filter fun p => peatSet p.line = set ∧ p.phys = phys ∧ p.line ≠ line ∧ p.units ≠ 0

/-- The first unit of a physical line from which some free units run, a line's own counted free: at most four lines of
non-zero size, 8 units in all (R249; log 109). -/
def physRoom (h : Home) (set phys line units : Nat) : Option Nat :=
  let l := physLines h set phys line
  if units = 0 then some 0
  else if 4 ≤ l.length then none
  else (List.range (9 - units)).find? fun a => l.all fun q => q.pos + q.units ≤ a ∨ a + units ≤ q.pos

/-- Least recently used of some Peat lines. -/
def oldestLine (l : List PeatLine) : Option PeatLine :=
  l.foldl (fun acc p => match acc with
    | none => some p
    | some q => if p.used < q.used then some p else some q) none

/-- Evicts the unpinned co-residents of a physical line that occupy units, oldest first, until some units fit: the
first of them, and how many lines left (R250 step 3). -/
def evictUntil (k : PeatCall) (set phys line units : Nat) : Nat → Home → Memory → Home × Memory × Option Nat × Nat
  | 0, h, m => (h, m, physRoom h set phys line units, 0)
  | fuel + 1, h, m =>
    match physRoom h set phys line units with
    | some a => (h, m, some a, 0)
    | none =>
      match oldestLine ((physLines h set phys line).filter fun p => k.pinned p.line = false) with
      | none => (h, m, none, 0)
      | some p =>
        let (h1, m1) := peatDrop k h m p.line
        let (h2, m2, a, n) := evictUntil k set phys line units fuel h1 m1
        (h2, m2, a, n + 1)

/-- Makes a tag for a line's block, dropping the block used longest ago of those without a pinned line when all 32 tags
of the set are taken; none when each holds one (R248, R252). -/
def peatTag (k : PeatCall) (h : Home) (m : Memory) (line : Nat) : Option (Home × Memory) :=
  let set := peatSet line
  let inSet := h.peat.filter fun p => peatSet p.line = set
  let blocks := (inSet.map fun p => peatBlock p.line).dedup
  if blocks.contains (peatBlock line) ∨ blocks.length < 32 then some (h, m)
  else
    let free := blocks.filter fun b => inSet.all fun p => peatBlock p.line ≠ b ∨ k.pinned p.line = false
    let newest (b : Nat) : Nat := inSet.foldl (fun a p => if peatBlock p.line = b then max a p.used else a) 0
    (free.foldl (fun (acc : Option Nat) b => match acc with
      | none => some b
      | some o => if newest b < newest o then some b else some o) none).map fun b =>
      (inSet.filter fun q => peatBlock q.line = b).foldl (fun (acc : Home × Memory) q => peatDrop k acc.1 acc.2 q.line) (h, m)

/-- Puts a line at a place of a set. -/
def peatPut (h : Home) (n : PeatLine) (phys pos : Nat) : Home :=
  { h with peat := { n with phys := phys, pos := pos } :: h.peat.filter fun p => p.line ≠ n.line }

/-- A physical line of a set with room for some units, and the place. -/
def anyRoom (h : Home) (set line units : Nat) : Option (Nat × Nat) :=
  (List.range 16).findSome? fun p => (physRoom h set p line units).map fun a => (p, a)

/-- Places a line in Peat (R248 to R250): its own physical line, another with room, then eviction of co-residents; a
line with no place there stands in DRAM alone. `n.units` is set here. -/
def peatPlace (k : PeatCall) (h : Home) (m : Memory) (n0 : PeatLine) : Home × Memory :=
  let units := n0.own.getD (lineUnits n0.bytes)
  let n : PeatLine := { n0 with units := units, used := k.now }
  let set := peatSet n.line
  match h.peat.find? fun p => p.line = n.line with
  | some p =>
    match physRoom h set p.phys n.line units with
    | some a => (peatPut h n p.phys a, m)
    | none =>
      match anyRoom h set n.line units with
      | some (q, a) => (peatPut h n q a, m)
      | none =>
        let (h1, m1, a?, c) := evictUntil k set p.phys n.line units 4 h m
        let h1 := { h1 with peatGrow := h1.peatGrow + c }
        match a? with
        | some a => (peatPut h1 n p.phys a, m1)
        | none => peatSpill k { h1 with peat := h1.peat.filter fun q => q.line ≠ n.line } m1 n
  | none =>
    match peatTag k h m n.line with
    | none => peatSpill k h m n
    | some (h, m) =>
      match anyRoom h set n.line units with
      | some (q, a) => (peatPut h n q a, m)
      | none =>
        -- the physical line of the least recently used line whose unpinned co-residents give the room
        let l := h.peat.filter fun p => peatSet p.line = set ∧ p.units ≠ 0 ∧ k.pinned p.line = false
        let fits (p : PeatLine) : Bool := (evictUntil k set p.phys n.line units 4 h m).2.2.1.isSome
        match oldestLine (l.filter fits) with
        | none => peatSpill k h m n
        | some v =>
          let (h1, m1, a?, _) := evictUntil k set v.phys n.line units 4 h m
          (peatPut h1 n v.phys (a?.getD 0), m1)

/-- A line as a fill or a write brings it to Peat, with the partials it has. -/
def peatLineOf (h : Home) (line : Nat) (x : Line) (own : Option Nat) (dirty : Bool) : PeatLine :=
  let parts := ((h.peat.find? fun p => p.line = line).map (·.parts)).getD []
  ⟨line, x, 0, 0, 0, own, dirty, 0, parts⟩

/-- The old line is read from Peat or DRAM (R251). -/
def oldLine (k : PeatCall) (h : Home) (m : Memory) (line : Nat) : Home × Line :=
  if h.peat.any fun p => p.line = line then (h, peatOrDram h m line) else (noteMoved k h 256, peatOrDram h m line)

/-- A write-combining entry falls back (R251): the old line read, merged, encoded and placed. -/
def wcFall (k : PeatCall) (h : Home) (m : Memory) (line : Nat) : Home × Memory :=
  match h.wc.find? fun w => w.line = line with
  | none => (h, m)
  | some w =>
    let k := { k with ctx := w.ctx }
    let (h, old) := oldLine k h m line
    let x := mergeMask old w.bytes w.mask
    peatPlace k { h with wc := h.wc.filter fun v => v.line ≠ line } m (peatLineOf h line x none true)

/-- A write of some bytes of a line reaches its home (R248, R251): raw lines of Peat take it, others go through the
write-combining buffer, where it waits as the call says. -/
def homePut (k : PeatCall) (h : Home) (m : Memory) (line : Nat) (x : Line) (mask : BitVec 256) : Home × Memory :=
  match h.peat.find? fun p => p.line = line ∧ p.units = 8 with
  | some p => peatPlace k h m (peatLineOf h line (mergeMask p.bytes x mask) none true)
  | none =>
    let full : BitVec 256 := ~~~ 0#256
    match h.wc.find? fun w => w.line = line with
    | some w =>
      let w' : WcEntry := { w with mask := w.mask ||| mask, bytes := mergeMask w.bytes x mask }
      if w'.mask = full then
        peatPlace k { h with wc := h.wc.filter fun v => v.line ≠ line } m (peatLineOf h line w'.bytes none true)
      else ({ h with wc := h.wc.map fun v => if v.line = line then w' else v }, m)
    | none =>
      if mask = full then peatPlace k h m (peatLineOf h line x none true)
      else
        let (h, m) :=
          if h.wc.length < 64 then (h, m)
          else match h.wc.head? with
            | some o => wcFall k h m o.line
            | none => (h, m)
        let h : Home := { h with wc := h.wc ++ [⟨line, mask, mergeMask 0 x mask, k.ctx, k.wait, k.now⟩] }
        if k.wait = 0 then wcFall k h m line else (h, m)

/-- A read of a line reaches its home (R248, R251): a write-combining entry falls back at once, a hit is used, a miss
fills. `own`: the units of a line of an LBC page that Peat stores as the page's expansion point leaves it (R249). -/
def homeTouch (k : PeatCall) (h : Home) (m : Memory) (line : Nat) (own : Option Nat) : Home × Memory :=
  let (h, m) := wcFall k h m line
  match h.peat.find? fun p => p.line = line with
  | some _ =>
    ({ h with peatHits := h.peatHits + 1,
              peat := h.peat.map fun p => if p.line = line then { p with used := k.now } else p }, m)
  | none =>
    let (h, m) := peatPlace k (noteMoved k h 256) m (peatLineOf h line (dramLine m line) own false)
    ({ h with peatMisses := h.peatMisses + 1 }, m)

/-- An access to a pinned window's lines keeps it from fading this period (R252). -/
def windowHit (s : State) (line : Nat) : State :=
  { s with contexts := s.contexts.map fun c =>
      if c.windows.any fun w => w.pages.contains (line / 256) then
        { c with windows := c.windows.map fun w => if w.pages.contains (line / 256) then { w with hit := true } else w }
      else c }

/-- The raw bytes a sector's home holds, aliases apart. -/
def rawSector (s : State) (sec : Nat) : Sector :=
  match s.homes[homeOf (sec * 64)]? with
  | some h => if sec * 64 < dramEnd then lineSec (homeLine h s.mem (sec / 4)) (sec % 4)
              else secOfBytes (memReadN s.mem (sec * 64) 64)
  | none => 0

/-- A home asked for a context. -/
def peatCall (s : State) (c : Option Nat) : PeatCall :=
  { pinned := linePinned s.contexts, now := s.clk, ctx := c, wait := (c.map (waitOf s)).getD 0 }

/-- A read of a sector's line at its home, for a context. -/
def touchLine (s : State) (sec : Nat) (c : Option Nat) (own : Option Nat) : State :=
  if sec * 64 < dramEnd then
    match s.homes[homeOf (sec * 64)]? with
    | some h =>
      let (h', m') := homeTouch (peatCall s c) h s.mem (sec / 4) own
      windowHit { s with homes := setAt s.homes (homeOf (sec * 64)) h', mem := m' } (sec / 4)
    | none => s
  else s

/-- A read of a sector's line of a page that is no LBC page. -/
def touchSector (s : State) (sec : Nat) (c : Option Nat) : State := touchLine s sec c none

/-- A write of bytes of a sector at its home, under a byte mask, for a context. -/
def putSector (s : State) (sec : Nat) (x : Sector) (mask : BitVec 64) (c : Option Nat) : State :=
  if sec * 64 < dramEnd then
    match s.homes[homeOf (sec * 64)]? with
    | some h =>
      let k := sec % 4
      let lx : Line := lineSetSec 0 k x
      let lm : BitVec 256 := (mask.setWidth 256) <<< (64 * k)
      let (h', m') := homePut (peatCall s c) h s.mem (sec / 4) lx lm
      windowHit { s with homes := setAt s.homes (homeOf (sec * 64)) h', mem := m' } (sec / 4)
    | none => s
  else
    { s with mem := (List.range 64).foldl (fun m i =>
        if mask.getLsbD i then memWrite m (sec * 64 + i) (secByte x i) else m) s.mem }

/-- Partials that a home's atomic unit keeps for elements of a sector (R163, R253). -/
def msPartsOf (s : State) (sec : Nat) : List MsPart :=
  match (s.homes[homeOf (sec * 64)]?).bind fun h => h.peat.find? fun p => p.line = sec / 4 with
  | some p => p.parts.filter fun q => q.sec = sec
  | none => []

/-- Sets the partials of a sector's elements in its Peat line. -/
def msPartsPut (s : State) (sec : Nat) (ps : List MsPart) : State :=
  modHome s (homeOf (sec * 64)) fun h =>
    { h with peat := h.peat.map fun p =>
        if p.line = sec / 4 then { p with parts := (p.parts.filter fun q => q.sec ≠ sec) ++ ps } else p }

/-- A sector with some partials merged. -/
def mergePartsSec (x : Sector) (sec : Nat) (ps : List MsPart) : Sector :=
  lineSec (mergeParts (lineSetSec 0 (sec % 4) x) ps) (sec % 4)

/-- Bytes homes have moved to or from DRAM for a context over the last 10 µs (R341). -/
def movedBytes (s : State) (c : Nat) : Nat :=
  (s.homes.flatMap fun h => (h.moved.filter fun e => e.1 = c ∧ s.clk < e.2.1 + bandwidthSpan).map fun e => e.2.2).sum

end Sys2Proof.Machine
end

