-- ==== Sys2Proof/Machine/Xform.lean ====
section
/-! DEFINITION. The grain-local copy transforms 0 to 31 (R152, R280) and the LBC page format (R255, R256). -/

namespace Sys2Proof.Machine

/-- Destination block bytes of a transform (R152). -/
def xfBlock (x : Nat) : Nat :=
  if x = 2 then 32 else if x = 3 then 64
  else if x = 4 ∨ x = 6 then 256 else if x = 5 ∨ x = 7 then 512
  else if 8 ≤ x ∧ x ≤ 14 then 16 * (x - 7)
  else if 15 ≤ x ∧ x ≤ 21 then 128
  else if x = 30 ∨ x = 31 then 4096
  else 16

/-- Destination : source ratio of a transform (R152). -/
def xfRatio (x : Nat) : Nat × Nat :=
  if 8 ≤ x ∧ x ≤ 14 then (x - 7, 8)
  else if 15 ≤ x ∧ x ≤ 21 then (8, x - 14)
  else if x = 22 ∨ x = 24 ∨ x = 26 ∨ x = 28 then (1, 2)
  else if x = 23 ∨ x = 25 ∨ x = 27 ∨ x = 29 then (2, 1)
  else (1, 1)

/-- Source bytes of a destination length (R152). -/
def xfSrcLen (x n : Nat) : Nat := n * (xfRatio x).2 / (xfRatio x).1

/-- Source block bytes (R152). -/
def xfSrcBlock (x : Nat) : Nat := xfSrcLen x (xfBlock x)

/-- Element i of a byte list, w bytes wide. -/
def elemBytes (w i : Nat) (bs : List Byte) : List Byte := (bs.drop (w * i)).take w

/-- An element as a number. -/
def elemNat (w i : Nat) (bs : List Byte) : Nat := bitsOfBytes (elemBytes w i bs)

/-- Rearranges elements of w bytes: destination element i is source element g i. -/
def permuteElems (w n : Nat) (g : Nat → Nat) (bs : List Byte) : List Byte :=
  (List.range n).flatMap fun i => elemBytes w (g i) bs

/-- Converts element by element from one format to another in RNE (R152). -/
def convertElems (src dst : Fp) (sat : Bool) (bs : List Byte) : List Byte :=
  let sw := fpWidth src / 8
  (List.range (bs.length / sw)).flatMap fun i =>
    bytesOf (fpWidth dst / 8) (roundVal dst .rne sat false (fpDecode src (elemNat sw i bs))).code

/-- One bit-plane block from 32 codes (R49). -/
def planeBlock (w : Nat) (codes : List Nat) : List Byte :=
  (List.range w).flatMap fun i =>
    bytesOf 4 ((List.range 32).foldl (fun acc j => acc + (if (codes[j]?.getD 0).testBit i then 2 ^ j else 0)) 0)

/-- The 32 codes of a bit-plane block (R49). -/
def planeCodes (w : Nat) (bs : List Byte) : List Nat :=
  (List.range 32).map fun j =>
    (List.range w).foldl (fun acc i => acc + (if (elemNat 4 i bs).testBit j then 2 ^ i else 0)) 0

/-- Element width of an LBC fmt code (R255); none for an illegal one. -/
def lbcWidth (fmt : Nat) : Option Nat :=
  if fmt = 0 then some 4 else if fmt = 1 then some 2 else if fmt = 2 then some 8 else none

/-- Units of an encoding (R249, R256) at element width e. -/
def lbcUnits (e enc : Nat) : Nat :=
  if enc = 0 then 0
  else if enc = 1 then (e + (256 / e - 1) + 31) / 32
  else if enc = 2 then (e + 2 * (256 / e - 1) + 31) / 32
  else 8

/-- The deltas of a line's elements (R256). -/
def lbcDeltas (e : Nat) (line : List Byte) : List Nat :=
  let x0 := elemNat e 0 line
  (List.range (256 / e - 1)).map fun i => (elemNat e (i + 1) line + 2 ^ (8 * e) - x0) % 2 ^ (8 * e)

/-- Whether a delta fits a signed width. -/
def deltaFits (e bits d : Nat) : Bool := d < 2 ^ (bits - 1) ∨ 2 ^ (8 * e) - 2 ^ (bits - 1) ≤ d

/-- The first legal encoding of a line (R256). -/
def lbcEncoding (e : Nat) (line : List Byte) : Nat :=
  if line.all (· = 0#8) then 0
  else if (lbcDeltas e line).all (deltaFits e 8) then 1
  else if (lbcDeltas e line).all (deltaFits e 16) then 2
  else 3

/-- The stored bytes of a line, padded to its units (R256). -/
def lbcStore (e enc : Nat) (line : List Byte) : List Byte :=
  let raw :=
    if enc = 0 then []
    else if enc = 1 then line.take e ++ (lbcDeltas e line).flatMap (fun d => bytesOf 1 (d % 256))
    else if enc = 2 then line.take e ++ (lbcDeltas e line).flatMap (fun d => bytesOf 2 (d % 65536))
    else line
  raw ++ List.replicate (32 * lbcUnits e enc - raw.length) 0#8

/-- A line from its stored bytes (R256). -/
def lbcExpand (e enc : Nat) (bs : List Byte) : List Byte :=
  if enc = 0 then List.replicate 256 0#8
  else if enc = 3 then bs.take 256
  else
    let x0 := elemNat e 0 bs
    let w := if enc = 1 then 1 else 2
    let m := 2 ^ (8 * e)
    bytesOf e x0 ++ (List.range (256 / e - 1)).flatMap fun i =>
      let d := bitsOfBytes (((bs.drop e).drop (w * i)).take w)
      let d := if 2 ^ (8 * w - 1) ≤ d then d + m - 2 ^ (8 * w) else d
      bytesOf e ((x0 + d) % m)

/-- The encodings of a page's 16 lines from its header word (R255). -/
def lbcEncs (hdr : Nat) : List Nat := (List.range 16).map fun j => hdr / 2 ^ (32 + 2 * j) % 4

/-- Offset of line j in its data page (R256). -/
def lbcOffset (e : Nat) (encs : List Nat) (j : Nat) : Nat := 32 * ((encs.take j).map (lbcUnits e)).sum

/-- Whether a header is legal (R255): a legal fmt and no reserved bit. -/
def lbcHeaderOk (hdr : List Byte) : Bool :=
  let w := bitsOfBytes (hdr.take 8)
  w / 4 % 4 = 0 ∧ w / 256 % 2 ^ 24 = 0 ∧ w / 16 % 16 ≤ 2 ∧ (hdr.drop 8).all (· = 0#8)

/-- Line j of a data page, expanded (R256). -/
def lbcLine (hdr page : List Byte) (j : Nat) : List Byte :=
  let w := bitsOfBytes (hdr.take 8)
  match lbcWidth (w / 16 % 16) with
  | none => List.replicate 256 0#8
  | some e =>
    let encs := lbcEncs w
    lbcExpand e (encs[j]?.getD 0) (page.drop (lbcOffset e encs j))

/-- The fmt code `LBCC` takes for a page (log 22). -/
def lbcFmt (page : List Byte) : Nat := Config.lbcFormat page % 3

/-- `LBCC` of a page: its stored bytes (R256). -/
def lbcCompress (page : List Byte) : List Byte :=
  let e := (lbcWidth (lbcFmt page)).getD 4
  let bs := (List.range 16).flatMap fun j =>
    let line := elemBytes 256 j page
    lbcStore e (lbcEncoding e line) line
  bs ++ List.replicate (4096 - bs.length) 0#8

/-- The header `LBCC` writes for a page (R255), with the expansion point of its leaf. -/
def lbcHeader (page : List Byte) (point : Nat) : List Byte :=
  let fmt := lbcFmt page
  let e := (lbcWidth fmt).getD 4
  let enc := (List.range 16).foldl (fun acc j => acc + lbcEncoding e (elemBytes 256 j page) * 2 ^ (2 * j)) 0
  bytesOf 8 (enc * 2 ^ 32 + fmt * 16 + point) ++ List.replicate 56 0#8

/-- A destination block from its source block (R152). `hdr` is the source page's header, which `LBCX` expands by. -/
def xfApply (x : Nat) (hdr src : List Byte) : List Byte :=
  let t44 (w : Nat) := permuteElems w 16 (fun i => i % 4 * 4 + i / 4) src
  if x = 1 then t44 1
  else if x = 2 then t44 2
  else if x = 3 then t44 4
  else if x = 6 then permuteElems 1 256 (fun i => i % 32 * 8 + i / 32) src
  else if x = 7 then permuteElems 2 256 (fun i => i % 32 * 8 + i / 32) src
  else if 8 ≤ x ∧ x ≤ 14 then
    (List.range 4).flatMap fun b => planeBlock (x - 7) ((src.drop (32 * b)).take 32 |>.map (·.toNat))
  else if 15 ≤ x ∧ x ≤ 21 then
    (List.range 4).flatMap fun b =>
      (planeCodes (x - 14) (src.drop (4 * (x - 14) * b))).map fun c => BitVec.ofNat 8 c
  else if x = 22 then convertElems .f32 .bf16 false src
  else if x = 23 then convertElems .bf16 .f32 false src
  else if x = 24 then convertElems .f32 .f16 false src
  else if x = 25 then convertElems .f16 .f32 false src
  else if x = 26 then convertElems .bf16 .e4m3 true src
  else if x = 27 then convertElems .e4m3 .bf16 false src
  else if x = 28 then convertElems .bf16 .e5m2 false src
  else if x = 29 then convertElems .e5m2 .bf16 false src
  else if x = 30 then lbcCompress src
  else if x = 31 then (List.range 16).flatMap fun j => lbcLine hdr src j
  else src

/-- Composite block sizes of xf0 then xf1 (R280). -/
def xf2Block (x0 x1 : Nat) : Nat := if x1 = 0 then xfBlock x0 else max (xfBlock x1) (xfBlock x0 * (xfRatio x1).1 / (xfRatio x1).2)

/-- Source bytes of a composite's destination length. -/
def xf2SrcLen (x0 x1 n : Nat) : Nat := xfSrcLen x0 (xfSrcLen x1 n)

/-- A composite's destination block from its source block, block by block. -/
def xf2Apply (x0 x1 : Nat) (hdr src : List Byte) : List Byte :=
  let run (x : Nat) (bs : List Byte) : List Byte :=
    let sb := xfSrcBlock x
    (List.range (bs.length / sb)).flatMap fun i => xfApply x hdr ((bs.drop (sb * i)).take sb)
  if x1 = 0 then run x0 src else run x1 (run x0 src)

end Sys2Proof.Machine
end

