-- ==== Sys2Proof/Machine/Reed.lean ====
section
/-! DEFINITION. The Reed tables: recorded copies as alias and watch entries, redirected reads, materialisation,
splitting and composing (R277 to R293, R306). Addresses are physical; a grain is 16 bytes. -/

namespace Sys2Proof.Machine

/-- Entries each table holds, and the occupancy marks (R277, R290). -/
def reedEntries : Nat := 32768
def reedHigh : Nat := 28672
def reedLow : Nat := 24576

/-- Raw bytes of the homes, aliases apart. -/
def rawBytes (s : State) (pa n : Nat) : List Byte :=
  let first := pa / 64
  let secs := (pa + n + 63) / 64 - first
  let all := (List.range secs).flatMap fun i => secGet (rawSector s (first + i)) 0 64
  (all.drop (pa % 64)).take n

/-- The alias entry that governs a grain: the one of its home whose run holds it (R278). -/
def aliasFor (s : State) (g : Nat) : Option AliasEntry :=
  (s.homes[homeOf (g * 16)]?).bind fun h => h.aliases.find? fun e => e.dst ≤ g ∧ g < e.dst + e.len

/-- Grains of an entry's block (R280). -/
def entryBlock (e : AliasEntry) : Nat := xf2Block e.xf0 e.xf1 / 16

/-- The block index of a grain in its entry. -/
def blockIndex (e : AliasEntry) (g : Nat) : Nat := (g - e.dst) / entryBlock e

/-- First source byte of an entry; `low` is not zero after a split between source blocks of one grain (log 108). -/
def entrySource (e : AliasEntry) : Nat := e.src * 16 + e.low

/-- Source address and bytes of block i of an entry (R280). -/
def blockSource (e : AliasEntry) (i : Nat) : Nat × Nat :=
  let n := xf2SrcLen e.xf0 e.xf1 (entryBlock e * 16)
  (entrySource e + i * n, n)

/-- The context of a `CTXID`, a live one before any other. -/
def ctxOfId (s : State) (ctxid : Nat) : Option Nat :=
  match (List.range s.contexts.length).find? fun c => (s.contexts[c]?).any fun k => k.live && decide (k.ctxid = ctxid) with
  | some c => some c
  | none => (List.range s.contexts.length).find? fun c => (s.contexts[c]?).any fun k => decide (k.ctxid = ctxid)

/-- The header of the page at an address: 64 × k in page 0 of its 64 KiB group (R254). -/
def lbcHeaderAt (s : State) (pa : Nat) : List Byte := rawBytes s (pa / 65536 * 65536 + pa / 4096 % 16 * 64) 64

/-- Bytes of data pages of LBC groups as a read returns them: line by line, expanded (R254, R257). -/
def expandedBytes (s : State) (pa n : Nat) : List Byte :=
  let lines := (List.range ((pa + n + 255) / 256 - pa / 256)).flatMap fun i =>
    let a := (pa / 256 + i) * 256
    lbcLine (lbcHeaderAt s a) (rawBytes s (a / 4096 * 4096) 4096) (a % 4096 / 256)
  (lines.drop (pa % 256)).take n

/-- The bytes of block i of an entry, through its transform (R283); `LBCX` expands by itself. -/
def blockBytes (s : State) (e : AliasEntry) (i : Nat) : List Byte :=
  let (a, n) := blockSource e i
  xf2Apply e.xf0 e.xf1 (lbcHeaderAt s a) (if e.lbc ∧ e.xf0 ≠ 31 then expandedBytes s a n else rawBytes s a n)

/-- A grain's home value: through its alias entry, or raw (R283, R307). -/
def grainBytes (s : State) (g : Nat) : List Byte :=
  match aliasFor s g with
  | none => rawBytes s (g * 16) 16
  | some e =>
    let i := blockIndex e g
    ((blockBytes s e i).drop ((g - e.dst - i * entryBlock e) * 16)).take 16

/-- A sector's home value (R283). -/
def homeSector (s : State) (sec : Nat) : Sector :=
  if (List.range 4).any fun k => (aliasFor s (sec * 4 + k)).isSome then
    secOfBytes ((List.range 4).flatMap fun k => grainBytes s (sec * 4 + k))
  else rawSector s sec

/-- Writes raw bytes at their homes, no event and no alias considered. -/
def putBytes (s : State) (pa : Nat) (bs : List Byte) (c : Option Nat) : State :=
  let first := pa / 64
  let secs := if bs.isEmpty then 0 else (pa + bs.length + 63) / 64 - first
  (List.range secs).foldl (fun s i =>
    let sec := first + i
    let lo := max pa (sec * 64)
    let hi := min (pa + bs.length) (sec * 64 + 64)
    let x := secPut 0 (lo - sec * 64) ((bs.drop (lo - pa)).take (hi - lo))
    let mask : BitVec 64 := BitVec.ofNat 64 ((2 ^ (hi - lo) - 1) * 2 ^ (lo - sec * 64))
    putSector s sec x mask c) s

/-- Materialises block i of an entry at its home (R287). -/
def materialiseBlock (s : State) (e : AliasEntry) (i : Nat) : State :=
  putBytes s ((e.dst + i * entryBlock e) * 16) (blockBytes s e i) (ctxOfId s e.ctxid)

/-- Whether an alias entry reads some grain of a source run. -/
def entryReads (e : AliasEntry) (src len : Nat) : Bool :=
  let a := entrySource e
  let n := xf2SrcLen e.xf0 e.xf1 (e.len * 16)
  a < (src + len) * 16 ∧ src * 16 < a + n

/-- A source home frees a watch entry that no remaining entry of its dhome reads (R286). -/
def freeWatches (s : State) (dhome src len : Nat) : State :=
  let al := ((s.homes[dhome]?).map (·.aliases)).getD []
  { s with homes := s.homes.map fun h =>
      { h with watches := h.watches.filter fun w =>
          !(w.dhome = dhome ∧ w.src < src + len ∧ src < w.src + w.len) || al.any fun e => entryReads e w.src w.len } }

/-- The release notice an alias entry's end sends: its source run (R286). -/
def releaseNotice (s : State) (home : Nat) (e : AliasEntry) (i n : Nat) : State :=
  let (a, b) := blockSource e i
  { s with net := s.net ++ [.aliasReleaseNotice home (a / 16) ((a + b * n + 15) / 16 - a / 16)] }

/-- Starts a home's background materialiser when a table of it passes 7/8 occupancy (R290). -/
def watchHome (s : State) (i : Nat) : State :=
  match s.homes[i]? with
  | some h =>
    let al := decide (reedHigh < h.aliases.length) && !h.draining
    let wa := decide (reedHigh < h.watches.length) && !h.drainWatch
    if al || wa then
      let s := modHome s i fun h => { h with draining := h.draining || al, drainWatch := h.drainWatch || wa }
      if h.draining || h.drainWatch then s else { s with net := s.net ++ [.backgroundMaterialiser i] }
    else s
  | none => s

/-- Every home watches its tables' occupancy. -/
def watchOccupancy (s : State) : State := (List.range 12).foldl watchHome s

/-- Whether a home holds the destination of block i of an entry: a block lies within one page. -/
def blockHere (home : Nat) (e : AliasEntry) (i : Nat) : Bool := homeOf ((e.dst + i * entryBlock e) * 16) = home

/-- Removes block i from an entry of a home: shortening, splitting, or freeing it; without a free entry the upper
part's blocks at this home are materialised (R285). -/
def removeBlock (s : State) (home : Nat) (e : AliasEntry) (i : Nat) : State :=
  let b := entryBlock e
  let lower : List AliasEntry := if i = 0 then [] else [{ e with len := i * b }]
  let upStart := (i + 1) * b
  let hasUpper := decide (upStart < e.len)
  let a := (blockSource e (i + 1)).1
  let upper : AliasEntry := { e with dst := e.dst + upStart, len := e.len - upStart, src := a / 16, low := a % 16 }
  let cnt := ((s.homes[home]?).map (·.aliases.length)).getD 0
  let room := decide (i = 0) || decide (cnt < reedEntries)
  let s1 :=
    if hasUpper ∧ room = false then
      (List.range ((e.len - upStart) / b)).foldl (fun s k =>
        if blockHere home e (i + 1 + k) then materialiseBlock s e (i + 1 + k) else s) s
    else s
  let parts := lower ++ (if hasUpper ∧ room then [upper] else [])
  let s2 := modHome s1 home fun h =>
    { h with aliases := h.aliases.flatMap fun x => if x = e then parts else [x] }
  watchHome (releaseNotice s2 home e i (if hasUpper ∧ room = false then (e.len - i * b) / b else 1)) home

/-- The blocks of an entry that read some bytes of a source grain, by index: several where source blocks are smaller
than a grain (R152, R286). -/
def blocksReading (e : AliasEntry) (g : Nat) : List Nat :=
  let a := entrySource e
  let n := (blockSource e 0).2
  let lo := if g * 16 < a then 0 else (g * 16 - a) / n
  let hi := (g * 16 + 15 - a) / n
  ((List.range (hi + 1 - lo)).map (lo + ·)).filter fun i => decide (i * entryBlock e < e.len)

/-- A destination home writes the old bytes of the source blocks that hold a source grain into every grain that reads
them, and removes those blocks from its entries (R286). -/
def dhomeMaterialiseGrain (s : State) (dhome g : Nat) : State :=
  let es := (((s.homes[dhome]?).map (·.aliases)).getD []).filter fun e => entryReads e g 1
  let dsts := es.flatMap fun e => ((blocksReading e g).filter (blockHere dhome e)).map fun i => e.dst + i * entryBlock e
  dsts.foldl (fun s d =>
    -- the entry may have been split by an earlier block of this fold
    match aliasFor s d with
    | some e => let i := blockIndex e d; removeBlock (materialiseBlock s e i) dhome e i
    | none => s) s

/-- The homes named by watch entries that cover a grain (R279, R286). -/
def watchersOf (s : State) (g : Nat) : List Nat :=
  match s.homes[homeOf (g * 16)]? with
  | some h => ((h.watches.filter fun w => w.src ≤ g ∧ g < w.src + w.len).map (·.dhome)).dedup
  | none => []

/-- What a write of a grain does first (R13, R285, R286, R306): watched old bytes move to their destinations; an
aliased block leaves its entry, its grains materialised unless the write covers the whole of a single-grain block. -/
def prepareGrain (s : State) (g : Nat) (whole : Bool) : State :=
  let s := (watchersOf s g).foldl (fun s d => dhomeMaterialiseGrain s d g) s
  match aliasFor s g with
  | none => s
  | some e =>
    let i := blockIndex e g
    let s := if entryBlock e = 1 ∧ whole then s else materialiseBlock s e i
    removeBlock s (homeOf (g * 16)) e i

/-- Prepares every grain that a write of n bytes at an address meets. -/
def prepareWrite (s : State) (pa n : Nat) : State :=
  if n = 0 then s
  else
    let first := pa / 16
    (List.range ((pa + n + 15) / 16 - first)).foldl (fun s k =>
      let g := first + k
      prepareGrain s g (decide (pa ≤ g * 16 ∧ g * 16 + 16 ≤ pa + n))) s

/-- Whether an entry's reads pass the `ALIASHOT` of its context, 0 disabling it (R284). -/
def entryHot (s : State) (e : AliasEntry) : Bool :=
  match s.contexts.find? fun c => c.live ∧ c.ctxid = e.ctxid with
  | some c => c.aliashot ≠ 0 ∧ c.aliashot < e.reads
  | none => false

/-- A sector read served from entries: each one's reads rises, and a hot one is materialised in the background; the
source blocks are asked of their homes (R283, R284). -/
def noteAliasRead (s : State) (sec : Nat) : State :=
  let home := homeOf (sec * 64)
  let es := ((List.range 4).filterMap fun k => aliasFor s (sec * 4 + k)).dedup
  es.foldl (fun s e =>
    let e' : AliasEntry := { e with reads := min (e.reads + 1) 0xFFFF }
    let s := modHome s home fun h => { h with aliases := h.aliases.map fun x => if x = e then e' else x }
    let g := if e.dst ≤ sec * 4 then sec * 4 else e.dst
    let (a, n) := blockSource e (blockIndex e g)
    let s := { s with net := s.net ++ (List.range ((a + n + 63) / 64 - a / 64)).map fun j => .sourceBlockRead home (a / 64 + j) }
    if entryHot s e' ∧ !s.net.contains (.hotMaterialise home e.dst) then { s with net := s.net ++ [.hotMaterialise home e.dst] }
    else s) s

/-- Materialises and frees a whole entry of a home (R284, R290). -/
def materialiseEntry (s : State) (home : Nat) (e : AliasEntry) : State :=
  let n := e.len / entryBlock e
  let s := (List.range n).foldl (fun s i => if blockHere home e i then materialiseBlock s e i else s) s
  let s := modHome s home fun h => { h with aliases := h.aliases.filter fun x => x ≠ e }
  releaseNotice s home e 0 n

/-- The oldest of some alias entries, by wts (R290). -/
def oldestAlias (l : List AliasEntry) : Option AliasEntry :=
  l.foldl (fun acc e => match acc with
    | none => some e
    | some o => if e.wts < o.wts then some e else some o) none

/-- A piece of a copy (R281): destination, source, destination bytes, and its transforms. -/
structure Piece where
  dst : Nat
  src : Nat
  len : Nat
  xf0 : Nat
  xf1 : Nat
  /-- The source lies in data pages of LBC groups. -/
  lbc : Bool
  deriving DecidableEq, Repr

/-- Element-wise transforms (R292). -/
def elementWise (e : AliasEntry) : Bool := e.xf1 = 0 ∧ (e.xf0 = 0 ∨ (22 ≤ e.xf0 ∧ e.xf0 ≤ 29))

/-- The table of R292: first E, then N. -/
def composeXf (e0 e1 n : Nat) : Option (Nat × Nat) :=
  if e0 = 0 ∧ e1 = 0 then some (n, 0)
  else if n = 0 then some (e0, e1)
  else if e1 ≠ 0 then none
  else if e0 = n ∧ (n = 1 ∨ n = 2 ∨ n = 3) then some (0, 0)
  else if 15 ≤ e0 ∧ e0 ≤ 21 ∧ n = e0 - 7 then some (0, 0)
  else if (e0 = 27 ∨ e0 = 29) ∧ n = 23 then some (e0, 23)
  else none

/-- Whether two alias entries give one map of blocks, as the entries of one recorded piece at several homes do (R278,
R281). -/
def sameMap (e f : AliasEntry) : Bool :=
  let b := entryBlock e
  let n := (blockSource e 0).2
  let at_ (x y : AliasEntry) : Bool := decide ((y.dst - x.dst) % b = 0 ∧ entrySource x + (y.dst - x.dst) / b * n = entrySource y)
  e.xf0 = f.xf0 && e.xf1 = f.xf1 && e.lbc = f.lbc && (if e.dst ≤ f.dst then at_ e f else at_ f e)

/-- Bytes from an address to the first alias entry of its page, or the page's end. -/
def plainCover (s : State) (a limit : Nat) : Nat :=
  let stop := min limit (a / 4096 * 4096 + 4096)
  match s.homes[homeOf a]? with
  | some h => h.aliases.foldl (fun n e => if a < e.dst * 16 ∧ e.dst * 16 < a + n then e.dst * 16 - a else n) (stop - a)
  | none => stop - a

/-- End of the run from an address that entries of one map govern, page by page (R292). -/
def mapEnd (s : State) (e : AliasEntry) (limit : Nat) : Nat → Nat → Nat
  | 0, a => a
  | fuel + 1, a =>
    if limit ≤ a then a
    else match aliasFor s (a / 16) with
      | some f =>
        if sameMap e f then
          let page := a / 4096 * 4096 + 4096
          let stop := min limit (min page ((f.dst + f.len) * 16))
          if stop = page then mapEnd s e limit fuel stop else stop
        else a
      | none => a

/-- Bytes from a source address over which the governing map, or its absence, does not change. -/
def sameCover (s : State) (a limit : Nat) : Nat :=
  match aliasFor s (a / 16) with
  | some e => mapEnd s e limit ((limit - a) / 4096 + 2) a - a
  | none => plainCover s a limit

/-- Whether two byte ranges meet. -/
def rangesMeet (a n b m : Nat) : Bool := a < b + m ∧ b < a + n ∧ n ≠ 0 ∧ m ≠ 0

/-- Joins a piece to the last one when both run on and agree (R281), up to 1 GiB. -/
def joinPiece (ps : List Piece) (p : Piece) : List Piece :=
  match ps.getLast? with
  | some q =>
    if q.xf0 = p.xf0 ∧ q.xf1 = p.xf1 ∧ q.lbc = p.lbc ∧ q.dst + q.len = p.dst ∧ q.src + xf2SrcLen q.xf0 q.xf1 q.len = p.src
        ∧ q.len + p.len ≤ 2 ^ 30 then
      ps.dropLast ++ [{ q with len := q.len + p.len }]
    else ps ++ [p]
  | none => [p]

/-- The earlier blocks that a run of source bytes reads, materialised and taken from their entries (R292). -/
def materialiseRun (s : State) (a n : Nat) : State :=
  (List.range ((a + n + 15) / 16 - a / 16)).foldl (fun s k =>
    let g := a / 16 + k
    match aliasFor s g with
    | some e => removeBlock (materialiseBlock s e (blockIndex e g)) (homeOf (g * 16)) e (blockIndex e g)
    | none => s) s

/-- A piece over one map of earlier blocks, composed with it where the table and the placement condition of R292 allow
it and its ultimate source meets no destination of the copy. -/
def composeOne (dsts : List (Nat × Nat)) (e : AliasEntry) (p : Piece) (run : Nat) : Option Piece :=
  match composeXf e.xf0 e.xf1 p.xf0 with
  | none => none
  | some (y0, y1) =>
    let eb := entryBlock e * 16
    let sb := xfSrcBlock p.xf0
    let i := blockIndex e (p.src / 16)
    let off := p.src - (e.dst * 16 + i * eb)
    let cond :=
      if elementWise e then decide ((if e.xf0 = 0 then p.src - e.dst * 16 else off) % sb = 0)
      else
        decide (off = 0) && (if p.xf0 = 0 then decide (run % eb = 0) && decide (p.dst % eb = 0) else decide (sb = eb))
    let src' := (blockSource e i).1 + xf2SrcLen e.xf0 e.xf1 off
    let aligned := decide (p.dst % xf2Block y0 y1 = 0) && decide (p.len % xf2Block y0 y1 = 0)
    let meets := dsts.any fun d => rangesMeet src' (xf2SrcLen y0 y1 p.len) d.1 d.2
    if cond && aligned && !meets && !p.lbc then some ⟨p.dst, src', p.len, y0, y1, e.lbc⟩ else none

/-- Composes one piece of a copy with the entries its source lies in, or materialises them (R291, R292): the pieces to
record. `dsts`: the copy's own destination. -/
def composePiece (dsts : List (Nat × Nat)) : Nat → State → Piece → State × List Piece
  | 0, s, _ => (s, [])
  | fuel + 1, s, p =>
    if p.len = 0 then (s, [])
    else
      let sl := xfSrcLen p.xf0 p.len
      let sb := xfSrcBlock p.xf0
      let db := xfBlock p.xf0
      let cover := sameCover s p.src (p.src + sl)
      let e? := aliasFor s (p.src / 16)
      -- what is decided at once: whole earlier blocks, or the rest of one that the source enters in its middle
      let part := match e? with
        | some e =>
          let eb := entryBlock e * 16
          let off := (p.src - e.dst * 16) % eb
          if elementWise e then cover else if off = 0 then max eb sb else eb - off
        | none => cover
      let run0 := min cover part / sb * sb
      let run := if run0 = 0 then min sb sl else min run0 sl
      let dlen := run / sb * db
      let here : Piece := { p with len := dlen }
      let rest : Piece := { p with dst := p.dst + dlen, src := p.src + run, len := p.len - dlen }
      match (if run ≤ cover then e?.bind fun e => composeOne dsts e here run else none) with
      | some q =>
        let (s', qs) := composePiece dsts fuel s rest
        (s', q :: qs)
      | none =>
        let (s', qs) := composePiece dsts fuel (materialiseRun s p.src run) rest
        (s', here :: qs)

/-- The homes that hold some page of a run: all twelve for a long one (R235, R281). -/
def homesOfRun (pa len : Nat) : List Nat :=
  if len = 0 then []
  else if 65536 * 2 ≤ len then List.range 12
  else ((List.range ((pa + len - 1) / 4096 - pa / 4096 + 1)).map fun i => homeOf ((pa / 4096 + i) * 4096)).dedup

/-- The alias and watch entries pieces need, by home (R281). -/
def pieceAliases (ps : List Piece) (home : Nat) (wts ctxid : Nat) : List AliasEntry :=
  ps.filterMap fun p =>
    if (homesOfRun p.dst p.len).contains home then some ⟨wts, ctxid, 0, p.xf1, p.xf0, p.src / 16, p.dst / 16, p.len / 16, p.lbc, p.src % 16⟩
    else none

/-- The watch entries pieces need at a source home, one per destination home (R281). -/
def pieceWatches (ps : List Piece) (home : Nat) : List WatchEntry :=
  ps.flatMap fun p =>
    let sl := xf2SrcLen p.xf0 p.xf1 p.len
    if (homesOfRun p.src sl).contains home then
      (homesOfRun p.dst p.len).map fun d => ⟨p.src / 16, d, (p.src % 16 + sl + 15) / 16⟩
    else []

/-- Whether some home a copy needs is above 7/8 occupancy, and whether some home cannot take its entries (R153). -/
def reedOver (s : State) (ps : List Piece) : Option Nat :=
  (List.range 12).find? fun i =>
    ((pieceAliases ps i 0 0).length ≠ 0 ∨ (pieceWatches ps i).length ≠ 0) &&
      (match s.homes[i]? with
       | some h => h.draining || h.drainWatch
       | none => false)

def reedFull (s : State) (ps : List Piece) : Option Nat :=
  (List.range 12).find? fun i =>
    match s.homes[i]? with
    | some h => decide (reedEntries < h.aliases.length + (pieceAliases ps i 0 0).length)
        || decide (reedEntries < h.watches.length + (pieceWatches ps i).length)
    | none => false

/-- Writes the entries of a recorded copy (R282 commit). -/
def commitEntries (s : State) (ps : List Piece) (wts ctxid : Nat) : State :=
  watchOccupancy { s with homes := s.homes.mapIdx (fun i h =>
    { h with aliases := h.aliases ++ pieceAliases ps i wts ctxid, watches := h.watches ++ pieceWatches ps i }) }

/-- `ALQ`'s report on a physical run (R156): grains that are aliased, watched, locked. -/
def aliasReport (s : State) (pa n : Nat) : Nat :=
  let gs := (List.range ((pa + n + 15) / 16 - pa / 16)).map fun k => pa / 16 + k
  let a := gs.any fun g => (aliasFor s g).isSome
  let w := gs.any fun g => !(watchersOf s g).isEmpty
  let l := s.homes.any fun h => h.locks.any fun k => gs.any fun g => k.first ≤ g * 16 + 15 ∧ g * 16 ≤ k.last
  (if a then 1 else 0) + (if w then 2 else 0) + (if l then 4 else 0)

end Sys2Proof.Machine
end

