-- ==== Sys2Proof/Machine/Coher.lean ====
section
/-! DEFINITION. The die protocol, the L1 and L2 caches and the times of sectors (R243 to R247, R263 to R269, R294 to
R304, R310 to R314). A thread's own loads, stores and `RED`s travel by messages; everything served at a home in one
step (atomics, condition monitors, engines, copies, landings) uses `readNow` and `writeNow`. -/

namespace Sys2Proof.Machine

/-! The directory (R295). -/

/-- The directory set of a line. -/
def dirSet (line : Nat) : Nat := stackAddr (line * 256) / 256 % 32768

/-- A sector no die holds. -/
def dirIdle : DirSector := ⟨0, 0#4, 0#5⟩

/-- A sector's directory field at its home. -/
def dirSec (s : State) (sec : Nat) : DirSector :=
  match s.homes[homeOf (sec * 64)]? with
  | some h =>
    (match h.dir.find? fun e => e.line = sec / 4 with
     | some e => (e.secs[sec % 4]?).getD dirIdle
     | none => dirIdle)
  | none => dirIdle

/-- Sets a sector's directory field; an entry with no held sector leaves the directory. -/
def dirPut (s : State) (sec : Nat) (d : DirSector) : State :=
  modHome s (homeOf (sec * 64)) fun h =>
    let old : DirEntry := (h.dir.find? fun e => e.line = sec / 4).getD ⟨sec / 4, List.replicate 4 dirIdle, s.clk⟩
    let new : DirEntry := { old with secs := setAt old.secs (sec % 4) d }
    let rest := h.dir.filter fun e => e.line ≠ sec / 4
    if new.secs.all fun x => x.st = 0 then { h with dir := rest } else { h with dir := new :: rest }

/-- One die's bit of a holder mask. -/
def dieBit (die : Nat) : BitVec 4 := BitVec.ofNat 4 (2 ^ die)

/-- The dies of a holder mask. -/
def holdersOf (m : BitVec 4) : List Nat := (List.range 4).filter fun d => m.getLsbD d

/-- A sector's directory field with a state, a holder list and an aux. -/
def dirOf (st : Nat) (hs : List Nat) (aux : Nat) : DirSector :=
  if hs.isEmpty then dirIdle else ⟨st, hs.foldl (fun m d => m ||| dieBit d) 0#4, BitVec.ofNat 5 aux⟩

/-- A sector the home keeps busy (R297). -/
def busyOf (s : State) (sec : Nat) : Option Busy :=
  (s.homes[homeOf (sec * 64)]?).bind fun h => h.busy.find? fun b => b.sec = sec

/-- Sets or clears a sector's busy record. -/
def busyPut (s : State) (sec : Nat) (b : Option Busy) : State :=
  modHome s (homeOf (sec * 64)) fun h =>
    { h with busy := (match b with | some x => [x] | none => []) ++ h.busy.filter fun x => x.sec ≠ sec }

/-! Times at the home (R264). -/

/-- A sector's wts and rts at its home. -/
def homeTimes (s : State) (sec : Nat) : Nat × Nat :=
  match s.homes[homeOf (sec * 64)]? with
  | some h => (match h.times.find? fun e => e.1 = sec with | some e => e.2 | none => (0, 0))
  | none => (0, 0)

/-- Sets a sector's times at its home. -/
def homeTimesPut (s : State) (sec wts rts : Nat) : State :=
  modHome s (homeOf (sec * 64)) fun h => { h with times := (sec, wts, rts) :: h.times.filter fun e => e.1 ≠ sec }

/-- Raises a sector's times at its home. -/
def homeTimesMax (s : State) (sec wts rts : Nat) : State :=
  let (w, r) := homeTimes s sec
  homeTimesPut s sec (max w wts) (max r rts)

/-! The L2 of a die (R246, R247). -/

/-- A sector in a die's L2. -/
def l2At (s : State) (die sec : Nat) : Option L2Sector := (s.dies[die]?).bind fun d => d.l2.find? fun x => x.sec = sec

/-- Removes a sector from a die's L2. -/
def l2Del (s : State) (die sec : Nat) : State :=
  modDie s die fun d => { d with l2 := d.l2.filter fun x => x.sec ≠ sec }

/-- Replaces a sector that a die's L2 holds. -/
def l2Mod (s : State) (die : Nat) (x : L2Sector) : State :=
  modDie s die fun d => { d with l2 := d.l2.map fun y => if y.sec = x.sec then x else y }

/-! The L1 of a core (R243, R244, R313). -/

/-- A sector in a core's L1. -/
def l1At (c : Core) (sec : Nat) : Option L1Sector := c.l1.find? fun x => x.sec = sec

/-- Puts a sector into a core's L1 list. -/
def l1Put (c : Core) (x : L1Sector) : Core := { c with l1 := x :: c.l1.filter fun y => y.sec ≠ x.sec }

/-- A core's write-back copy written into the die's L2 with its times; it stays an ordinary leased copy (R313). -/
def l1Yield (s : State) (c : Core) (x : L1Sector) : State :=
  let s := setCore s (l1Put c { x with own := false, dirty := false, granted := s.clk })
  match l2At s c.die x.sec with
  | some y =>
    l2Mod s c.die { y with bytes := if x.dirty then x.bytes else y.bytes, st := if x.dirty then .m else y.st,
                           wts := max y.wts x.wts, rts := max y.rts x.rts, ctx := if x.dirty then x.ctx else y.ctx }
  | none => s

/-- Every write-back copy of a sector in a die's L1s yields. -/
def collapseL1 (s : State) (die sec : Nat) : State :=
  match s.cores.find? fun c => c.die = die ∧ c.l1.any fun x => x.sec = sec ∧ x.own with
  | some c => (match l1At c sec with | some x => l1Yield s c x | none => s)
  | none => s

/-- What a die's L2 does on evicting a sector: M and O are written back, P hands its partial over, E and S are dropped
with a notice, and the home learns the lease (R247, R265). -/
def l2Leave (s : State) (die : Nat) (x0 : L2Sector) : State :=
  let s := collapseL1 s die x0.sec
  let x := (l2At s die x0.sec).getD x0
  let s := homeTimesMax (l2Del s die x.sec) x.sec 0 x.rts
  let msg : SectorMsg := ⟨x.sec, die, none, [], [], 0, x.wts, x.rts, false, false, x.ctx⟩
  match x.st with
  | .m | .o => { s with net := s.net ++ [.wbm { msg with bytes := some x.bytes, dirty := true }] }
  | .p => { s with net := s.net ++ [.wbm { msg with parts := x.partials, marks := x.touched, tag := x.tag }] }
  | .s | .e => { s with net := s.net ++ [.drop die x.sec] }

/-- Lines of an L2 set other than a line, with the newest use of each and whether each of its sectors is retained. -/
def l2SetLines (d : Die) (line : Nat) : List (Nat × Nat × Bool) :=
  let pa := line * 256
  let l := d.l2.filter fun x => sliceOf (x.sec * 64) = sliceOf pa ∧ l2SetOf (x.sec * 64) = l2SetOf pa ∧ x.sec / 4 ≠ line
  ((l.map fun x => x.sec / 4).dedup).map fun n =>
    let m := l.filter fun x => x.sec / 4 = n
    (n, m.foldl (fun a x => max a x.used) 0, m.any fun x => x.retain)

/-- The least recently used of some lines. -/
def lruLine (l : List (Nat × Nat × Bool)) : Option Nat :=
  (l.foldl (fun (acc : Option (Nat × Nat × Bool)) x => match acc with
    | none => some x
    | some y => if x.2.1 < y.2.1 then some x else some y) none).map (·.1)

/-- Whether a message or request under way between a die and a home is about a line. -/
def aboutLine (die line : Nat) (i : Instr) : Bool :=
  match i with
  | .rds d x | .rdx d x | .upg d x | .pjoin d x _ | .inv d x | .precall d x | .fwd d _ x _ => d = die ∧ x / 4 = line
  | .data m | .grant m => m.die = die ∧ m.sec / 4 = line
  | _ => false

/-- Whether a fill or a merge of a line is in flight at a die (R247). -/
def lineMoving (s : State) (die line : Nat) : Bool :=
  s.net.any (aboutLine die line)
    || ((s.homes[homeOf (line * 256)]?).any fun h =>
        (h.busy.any fun b => b.sec / 4 = line ∧ (b.req.die = die ∨ b.awaited.contains die ∨ b.queue.any fun q => q.die = die))
          || h.dirWait.any fun w => w.1 / 4 = line ∧ w.2.die = die)

/-- Makes room for a line in a die's L2: the least recently used line without a fill or a merge in flight, retained
lines only when every way is retained (R247). -/
def l2Room (s : State) (die line : Nat) : State :=
  match s.dies[die]? with
  | none => s
  | some d =>
    if d.l2.any fun x => x.sec / 4 = line then s
    else
      let l := l2SetLines d line
      if l.length < 16 then s
      else
        let free := l.filter fun x => !x.2.2
        match lruLine ((if free.isEmpty then l else free).filter fun x => !lineMoving s die x.1) with
        | none => s
        | some v => (d.l2.filter fun x => x.sec / 4 = v).foldl (fun s x => l2Leave s die x) s

/-- Whether a die's L2 has a way for a line. -/
def l2Fits (s : State) (die line : Nat) : Bool :=
  (s.dies[die]?).any fun d => (d.l2.any fun x => x.sec / 4 = line) || decide ((l2SetLines d line).length < 16)

/-- Installs a sector in a die's L2 where a way is free or can be freed. -/
def l2Install (s : State) (die : Nat) (x : L2Sector) : State :=
  let s := l2Room s die (x.sec / 4)
  if l2Fits s die (x.sec / 4) then modDie s die fun d => { d with l2 := x :: d.l2.filter fun y => y.sec ≠ x.sec } else s

/-- Lines of a die under way into an L2 set, other than a line. -/
def movingLines (s : State) (die line : Nat) : List Nat :=
  let set (n : Nat) : Bool := n ≠ line && decide (sliceOf (n * 256) = sliceOf (line * 256) ∧ l2SetOf (n * 256) = l2SetOf (line * 256))
  let ofMsg (i : Instr) : List Nat := match i with
    | .rds d x | .rdx d x | .upg d x | .pjoin d x _ => if d = die then [x / 4] else []
    | .data m | .grant m => if m.die = die then [m.sec / 4] else []
    | _ => []
  let here := s.net.flatMap ofMsg ++ s.homes.flatMap fun h =>
    (h.busy.flatMap fun b => ((b.req :: b.queue).filter fun q => q.die = die).map fun _ => b.sec / 4)
      ++ (h.dirWait.filter fun w => w.2.die = die).map fun w => w.1 / 4
  (here.filter set).dedup

/-- Whether a die may ask for a line: a way of its set is left for it beside the fills in flight (R247). -/
def l2CanAsk (s : State) (die line : Nat) : Bool := (movingLines s die line).length < 16

/-- Makes room for a line in a core's L1: 128 sets of 8 ways by PA[14:8], least recently used (R243, R244). -/
def l1Room (s : State) (die site line : Nat) : State :=
  let c := coreAt s die site
  if c.l1.any fun x => x.sec / 4 = line then s
  else
    let l := c.l1.filter fun x => x.sec / 4 % 128 = line % 128
    let ls := ((l.map fun x => x.sec / 4).dedup).map fun n =>
      (n, (l.filter fun x => x.sec / 4 = n).foldl (fun a x => max a x.used) 0, false)
    if ls.length < 8 then s
    else
      match lruLine ls with
      | none => s
      | some v =>
        let s := (l.filter fun x => x.sec / 4 = v ∧ x.own).foldl (fun s x => l1Yield s (coreAt s die site) x) s
        modCore s die site fun c => { c with l1 := c.l1.filter fun x => x.sec / 4 ≠ v }

/-- Places a granted sector in a core's L1; a line keeps the policy it was allocated with (R244). -/
def l1Fill (s : State) (die site : Nat) (x : L1Sector) : State :=
  let s := l1Room s die site (x.sec / 4)
  let c := coreAt s die site
  let wb := match c.l1.find? fun y => y.sec / 4 = x.sec / 4 with
    | some y => y.writeBack
    | none => x.writeBack
  setCore s (l1Put c { x with writeBack := wb })

/-! Values. -/

/-- The partials of a sector in P, by die. -/
def partialsOf (s : State) (sec : Nat) : List (Nat × List (Option DWord) × List Bool) :=
  (List.range 4).filterMap fun d =>
    match l2At s d sec with
    | some x => if x.st = .p then some (d, x.partials, x.touched) else none
    | none => none

/-- The operator tag of a sector in P, 0 elsewhere. -/
def poolTag (s : State) (sec : Nat) : Nat :=
  ((List.range 4).findSome? fun d =>
    match l2At s d sec with
    | some x => if x.st = .p then some x.tag else none
    | none => none).getD 0

/-- The newest copy of a sector above its home, if any: a write-back L1's, or a die's in E, M or O. -/
def ownedCopy (s : State) (sec : Nat) : Option Sector :=
  match s.cores.findSome? fun c => (c.l1.find? fun x => x.sec = sec ∧ x.own).map (·.bytes) with
  | some x => some x
  | none =>
    match (List.range 4).findSome? fun d =>
      match l2At s d sec with
      | some x => if x.st = .m ∨ x.st = .o ∨ x.st = .e then some x.bytes else none
      | none => none with
    | some x => some x
    | none => none

/-- The context of the last store into the copy that differs from its home's. -/
def ownedCtx (s : State) (sec : Nat) : Option Nat :=
  match s.cores.findSome? fun c => (c.l1.find? fun x => x.sec = sec ∧ x.own).bind (·.ctx) with
  | some x => some x
  | none => (List.range 4).findSome? fun d => (l2At s d sec).bind fun x => if x.st = .m ∨ x.st = .o then x.ctx else none

/-! Monitors (R304). -/

/-- Whether some condition monitor is registered on a sector. -/
def monitored (s : State) (sec : Nat) : Bool := s.dies.any fun d => d.monitors.any fun m => m.sec = sec

/-- A write reaches a sector: its monitors are freed and their threads read again; a swapped-out team that waits on it
is no longer held out (R164, R230, R304). -/
def wakeMonitors (s : State) (sec : Nat) : State :=
  let woken := s.dies.flatMap fun d => (d.monitors.filter fun m => m.sec = sec).map fun m => Instr.monitorWake m.tid
  { s with
    dies := s.dies.map fun d => { d with monitors := d.monitors.filter fun m => m.sec ≠ sec,
                                         wakes := d.wakes.filter fun w => !w.2.contains sec },
    threads := s.threads.map fun th => match th.wait with
      | .monitor x => if x = sec then { th with wait := .woken s.clk } else th
      | _ => th,
    teams := s.teams.map fun t => if t.wakeSecs.contains sec then { t with wakeSecs := [] } else t,
    net := s.net ++ woken }

/-- Frees a thread's monitor (R304). -/
def dropMonitor (s : State) (t : Nat) : State :=
  { s with dies := s.dies.map fun d => { d with monitors := d.monitors.filter fun m => m.tid ≠ t } }

/-! Writes at the home. -/

/-- What a write of the bytes of a mask does first to aliases and watches (R285, R286). -/
def prepareMask (s : State) (sec : Nat) (mask : BitVec 64) : State :=
  (List.range 4).foldl (fun s k =>
    let m := mask.extractLsb' (16 * k) 16
    if m = 0#16 then s else prepareGrain s (sec * 4 + k) (decide (m = 0xFFFF#16))) s

/-- Bytes of a mask in grains that are the whole block of an alias entry and are written in part: their home merges the
bytes into the grain it forms (R306). -/
def formedBytes (s : State) (sec : Nat) (mask : BitVec 64) : BitVec 64 :=
  (List.range 4).foldl (fun acc k =>
    let m := mask.extractLsb' (16 * k) 16
    match aliasFor s (sec * 4 + k) with
    | some e => if entryBlock e = 1 ∧ m ≠ 0#16 ∧ m ≠ 0xFFFF#16 then acc ||| ((m.setWidth 64) <<< (16 * k)) else acc
    | none => acc) 0

/-- Writes modified data back for a context: every grain but the aliased ones, whose bytes are their sources' (R285). -/
def writeBackSector (s : State) (sec : Nat) (x : Sector) (c : Option Nat) : State :=
  let mask : BitVec 64 := (List.range 4).foldl (fun m k =>
    if (aliasFor s (sec * 4 + k)).isSome then m else m ||| ((0xFFFF#64) <<< (16 * k))) 0
  putSector s sec x mask c

/-- Whether a sector is poisoned or lost: a merge into it discards the partials (R361, R364). -/
def spoiledSector (s : State) (sec : Nat) : Bool := (s.homes[homeOf (sec * 64)]?).any fun h => markSpoils h sec

/-- Merges partials of dies into a sector's home value (R302). -/
def mergeHome (s : State) (sec tag : Nat) (ps : List (Nat × List (Option DWord) × List Bool)) (c : Option Nat) : State :=
  let x := mergeSector tag (homeSector s sec) ps
  let mask := elemMask (tagTy tag) (touchedElems tag ps)
  if mask = 0#64 ∨ spoiledSector s sec then s else putSector (prepareMask s sec mask) sec x mask c

/-- Whether a partial's element meets bytes lo to lo + n − 1 of its sector. -/
def partMeets (lo n : Nat) (p : MsPart) : Bool := p.off < lo + n ∧ lo < p.off + tyBytes (tagTy p.tag)

/-- Merges what the atomic unit of an MS page keeps for the elements that some bytes of a sector meet (R163). -/
def mergeMs (s : State) (sec lo n : Nat) (c : Option Nat) : State :=
  let ps := msPartsOf s sec
  let now := ps.filter (partMeets lo n)
  if now.isEmpty then s
  else
    let x := mergePartsSec (homeSector s sec) sec now
    let mask : BitVec 64 := now.foldl (fun m p => m ||| BitVec.ofNat 64 ((2 ^ tyBytes (tagTy p.tag) - 1) * 2 ^ p.off)) 0
    let s := msPartsPut s sec (ps.filter fun p => !partMeets lo n p)
    if spoiledSector s sec then s else putSector (prepareMask s sec mask) sec x mask c

/-- The largest rts granted for a sector by any keeper (R265). -/
def largestLease (s : State) (sec : Nat) : Nat :=
  let d := (List.range 4).foldl (fun a d => match l2At s d sec with | some x => max a x.rts | none => a) (homeTimes s sec).2
  s.cores.foldl (fun a c => c.l1.foldl (fun a x => if x.sec = sec ∧ x.own then max a x.rts else a) a) d

/-- The largest wts of a sector. -/
def largestWts (s : State) (sec : Nat) : Nat :=
  let d := (List.range 4).foldl (fun a d => match l2At s d sec with | some x => max a x.wts | none => a) (homeTimes s sec).1
  s.cores.foldl (fun a c => c.l1.foldl (fun a x => if x.sec = sec ∧ x.own then max a x.wts else a) a) d

/-- Brings a sector's value to its home with every die left at most a sharer: owners in E go to S, in M to O, and are
recorded so; a Pooled sector is merged and leaves P (R302, R304). -/
def settleRaw (s : State) (sec : Nat) : State :=
  let w := largestWts s sec
  let r := largestLease s sec
  let s := (List.range 4).foldl (fun s d => collapseL1 s d sec) s
  if poolTag s sec ≠ 0 then
    let tag := poolTag s sec
    let ps := partialsOf s sec
    let c := (List.range 4).findSome? fun d => (l2At s d sec).bind (·.ctx)
    let s := (List.range 4).foldl (fun s d => l2Del s d sec) s
    let s := dirPut (mergeHome s sec tag ps c) sec dirIdle
    wakeMonitors (homeTimesMax s sec (r + 1) (r + 1)) sec
  else
    let d := dirSec s sec
    let s := (List.range 4).foldl (fun s d =>
      match l2At s d sec with
      | some x => (match x.st with
        | .m => l2Mod s d { x with st := .o }
        | .e => l2Mod s d { x with st := .s }
        | .s | .o | .p => s)
      | none => s) s
    let anyO := (List.range 4).any fun d => (l2At s d sec).any fun x => x.st = .o
    let s :=
      if d.st = 2 ∨ d.st = 3 ∨ d.st = 4 then dirPut s sec { d with st := if anyO then 4 else 1 }
      else s
    homeTimesMax s sec w r

/-- Takes a sector exclusive at the home: every die copy goes, and modified data is written back first (R265). -/
def excludeRaw (s : State) (sec : Nat) : State :=
  let s := settleRaw s sec
  let dirty := ownedCopy s sec
  let c := ownedCtx s sec
  let s := (List.range 4).foldl (fun s d => l2Del s d sec) s
  let s := match dirty with | some x => writeBackSector s sec x c | none => s
  dirPut s sec dirIdle

/-! The home serves requests (R297, R298, R300, R302, R310). -/

/-- A message's plain form. -/
def plainMsg (sec die : Nat) : SectorMsg := ⟨sec, die, none, [], [], 0, 0, 0, false, false, none⟩

/-- Sends messages. -/
def send (s : State) (l : List Instr) : State := { s with net := s.net ++ l }

/-- Requests that have waited at a home are taken up before those that have not arrived (R297). -/
def sendFirst (s : State) (l : List Instr) : State := { s with net := l ++ s.net }

/-- The context for which a die asks for a sector: that of one of its accesses to it. -/
def askerCtx (s : State) (die sec : Nat) : Option Nat :=
  (s.accs.find? fun a => a.die = die && (match a.place with
    | .phys ps => ps.any fun p => p.1 < sec * 64 + 64 ∧ sec * 64 < p.1 + p.2
    | _ => false)).map (·.ctx)

/-- Data from memory for a die, with its wts and lease. -/
def dataFrom (s : State) (sec die : Nat) (dirty own : Bool) : State :=
  let (w, r) := homeTimes s sec
  let v := homeSector s sec
  let s := if (List.range 4).any fun k => (aliasFor s (sec * 4 + k)).isSome then noteAliasRead s sec else touchSector s sec (askerCtx s die sec)
  send s [.data { plainMsg sec die with bytes := some v, wts := w, rts := r, dirty := dirty, own := own }]

/-- Recency of a line's directory entry (R310). -/
def dirTouch (s : State) (sec : Nat) : State :=
  modHome s (homeOf (sec * 64)) fun h =>
    { h with dir := h.dir.map fun e => if e.line = sec / 4 then { e with used := s.clk } else e }

/-- A message about a sector that is under way between its home and the dies, requests apart. -/
def underWay (sec : Nat) (i : Instr) : Bool :=
  match i with
  | .inv _ x | .fwd _ _ x _ | .precall _ x | .peek _ x _ | .drop _ x => x = sec
  | .ack m | .data m | .grant m | .wbm m => m.sec = sec
  | _ => false

/-- Every message under way about a sector, requests apart, taken out of a queue one by one. -/
def takeUnderWay (sec : Nat) : List Instr → Option (Instr × List Instr)
  | [] => none
  | i :: r => if underWay sec i then some (i, r) else (takeUnderWay sec r).map fun p => (p.1, i :: p.2)

/-- The entry of a full directory set that leaves for a new line: the least recently used without a busy sector; none
when the set has room, or the line an entry (R298, R310). -/
inductive DirVictim where
  | room
  | full
  | entry (e : DirEntry)
  deriving DecidableEq, Repr

/-- What a directory set has for a line (R298, R310). -/
def dirVictim (s : State) (sec : Nat) : DirVictim :=
  match s.homes[homeOf (sec * 64)]? with
  | none => .room
  | some h =>
    let set := h.dir.filter fun e => dirSet e.line = dirSet (sec / 4)
    if (h.dir.any fun e => e.line = sec / 4) ∨ set.length < 8 then .room
    else
      match (set.filter fun e => !h.busy.any fun b => b.sec / 4 = e.line).foldl (fun (acc : Option DirEntry) e => match acc with
          | none => some e
          | some o => if e.used < o.used then some e else some o) none with
      | none => .full
      | some v => .entry v

/-- A request as the message it came as. -/
def reqMsg (sec : Nat) (q : HomeReq) : Instr :=
  if q.kind = 0 then .rds q.die sec else if q.kind = 1 then .rdx q.die sec else if q.kind = 2 then .upg q.die sec
  else if q.kind = 3 then .pjoin q.die sec q.tag else .loadReturn q.tag

/-- Starts a wait for Acks: the messages go out and the sector is busy. -/
def awaitAcks (s : State) (sec : Nat) (req : HomeReq) (dies : List Nat) (fwd : Bool) (msgs : List Instr) (queue : List HomeReq) :
    State :=
  send (busyPut s sec (some ⟨sec, req, dies, fwd, false, false, [], 0, 0, queue, none⟩)) msgs

/-- Requests wait at a home for a way of their directory set (R310). -/
def dirHold (s : State) (sec : Nat) (l : List HomeReq) : State :=
  modHome s (homeOf (sec * 64)) fun h => { h with dirWait := h.dirWait ++ l.map fun q => (sec, q) }

/-- The bytes a Peek has brought, kept for the load that asked for them (R296, R312). -/
def notePeek (s : State) (id : Nat) (m : SectorMsg) : State :=
  match m.bytes with
  | some x => { s with accs := s.accs.map fun a => if a.id = id then { a with peeked := insertNat a.peeked m.sec x } else a }
  | none => s

/-- The home serves a request for a sector that is not busy, its line with an entry or room for one. `queue`: the
requests held behind it. A PJoin of a monitored sector gets no place in P (R301). -/
def homeServe (s : State) (sec : Nat) (req : HomeReq) (queue : List HomeReq) : State :=
  match dirVictim s sec with
  | .full | .entry _ => dirHold (busyPut s sec none) sec (req :: queue)
  | .room =>
    let s := dirTouch s sec
    let r := req.die
    let d := dirSec s sec
    let hs := holdersOf d.holders
    let others := hs.filter fun x => x ≠ r
    let owner := (d.aux.extractLsb' 0 2).toNat
    let s := if req.kind = 1 ∨ req.kind = 2 then wakeMonitors s sec else s
    let done (s : State) : State := sendFirst (busyPut s sec none) (queue.map (reqMsg sec))
    let kind := if req.kind = 2 ∧ (!hs.contains r ∨ (d.st ≠ 1 ∧ d.st ≠ 4)) then 1 else req.kind
    let req : HomeReq := { req with kind := kind }
    if kind = 5 then sendFirst (done s) [.loadReturn req.tag]
    else if kind = 4 then
      if d.st = 2 ∨ d.st = 3 ∨ d.st = 4 then awaitAcks s sec req [owner] false [.peek owner sec req.tag] queue
      else
        let v := homeSector s sec
        let s := if (List.range 4).any fun k => (aliasFor s (sec * 4 + k)).isSome then noteAliasRead s sec
                 else touchSector s sec (askerCtx s r sec)
        done (notePeek s req.tag { plainMsg sec r with bytes := some v })
    else if kind = 3 ∧ monitored s sec then done s
    else if d.st = 5 then
      if kind = 3 ∧ d.aux.toNat = req.tag then
        let (w, rt) := homeTimes s sec
        done (send (dirPut s sec (dirOf 5 (r :: others) req.tag))
          [.grant { plainMsg sec r with tag := req.tag, wts := w, rts := rt }])
      else awaitAcks s sec req hs false (hs.map fun x => .precall x sec) queue
    else if kind = 3 then
      if d.st = 0 then
        let (w, rt) := homeTimes s sec
        done (send (dirPut s sec (dirOf 5 [r] req.tag)) [.grant { plainMsg sec r with tag := req.tag, wts := w, rts := rt }])
      else awaitAcks s sec req hs false (hs.map fun x => .inv x sec) queue
    else if kind = 0 then
      if d.st = 0 then
        if monitored s sec then done (dirPut (dataFrom s sec r false false) sec (dirOf 1 [r] 0))
        else done (dirPut (dataFrom s sec r false true) sec (dirOf 2 [r] r))
      else if d.st = 1 then done (dirPut (dataFrom s sec r false false) sec (dirOf 1 (r :: others) 0))
      else awaitAcks s sec req [owner] true [.fwd owner r sec false] queue
    else if kind = 1 then
      if d.st = 0 then done (dirPut (dataFrom s sec r true true) sec (dirOf 3 [r] r))
      else if d.st = 1 then awaitAcks s sec req hs false (hs.map fun x => .inv x sec) queue
      else
        let sharers := hs.filter fun x => x ≠ owner
        awaitAcks s sec req (owner :: sharers) true ([.fwd owner r sec true] ++ sharers.map fun x => .inv x sec) queue
    else if others.isEmpty then
      let (w, rt) := homeTimes s sec
      done (send (dirPut s sec (dirOf 3 [r] r)) [.grant { plainMsg sec r with wts := w, rts := rt, own := true }])
    else awaitAcks s sec req others false (others.map fun x => .inv x sec) queue

/-- The last Ack of a busy sector has come: partials are merged, the new state is recorded, Grant sent, or the request
served again from a clear sector (R297, R302). -/
def homeFinish (s : State) (b : Busy) : State :=
  let sec := b.sec
  let r := b.req.die
  let d := dirSec s sec
  let hs := holdersOf d.holders
  let s := homeTimesMax s sec b.wts b.rts
  let requeue (s : State) : State := sendFirst (busyPut s sec none) (b.queue.map (reqMsg sec))
  let grant (s : State) : State :=
    let (w, rt) := homeTimes s sec
    send (dirPut s sec (dirOf 3 [r] r)) [.grant { plainMsg sec r with wts := w, rts := rt, own := true }]
  if b.req.kind = 4 then requeue s
  else if d.st = 5 then
    let s := dirPut (mergeHome s sec d.aux.toNat b.partials b.ctx) sec dirIdle
    let s := if b.partials.isEmpty then s
             else wakeMonitors (homeTimesPut s sec (max b.rts (homeTimes s sec).2 + 1) (max b.rts (homeTimes s sec).2 + 1)) sec
    homeServe (busyPut s sec none) sec b.req b.queue
  else if b.req.kind = 0 ∧ b.supplied then
    let o := (d.aux.extractLsb' 0 2).toNat
    requeue (dirPut s sec (if b.dirty ∨ d.st = 4 then dirOf 4 (r :: hs.filter fun x => x ≠ r) o
                           else dirOf 1 (r :: hs.filter fun x => x ≠ r) 0))
  else if b.req.kind = 1 ∧ b.supplied then requeue (grant s)
  else if b.req.kind = 2 then requeue (grant s)
  else homeServe (busyPut (dirPut s sec dirIdle) sec none) sec b.req b.queue

/-- An Ack arrives at the home (R296): data is written back, partials are gathered, leases recorded. -/
def homeAck (s : State) (m : SectorMsg) : State :=
  let s := match m.bytes with
    | some x => if m.dirty then writeBackSector s m.sec x m.ctx else s
    | none => s
  match busyOf s m.sec with
  | none => homeTimesMax s m.sec m.wts m.rts
  | some b =>
    -- a Peek's answer is what the load that asked for it returns (R312)
    let s := if b.req.kind = 4 then notePeek s b.req.tag m else s
    let b : Busy := { b with awaited := b.awaited.filter (· ≠ m.die), wts := max b.wts m.wts, rts := max b.rts m.rts,
                             supplied := b.supplied || m.own, dirty := b.dirty || m.dirty, ctx := (match b.ctx with | some c => some c | none => m.ctx),
                             partials := if m.parts.isEmpty then b.partials else b.partials ++ [(m.die, m.parts, m.marks)] }
    if b.awaited.isEmpty then homeFinish s b else busyPut s m.sec (some b)

/-! The die answers (R296, R311). -/

/-- A die's sector as its L2 holds it, its write-back L1s collapsed; or what its write-back buffer keeps. -/
def dieSector (s : State) (die sec : Nat) : State × Option L2Sector :=
  let s := collapseL1 s die sec
  (s, l2At s die sec)

/-- The write-back under way from a die for a sector (R297). -/
def bufferOf (s : State) (die sec : Nat) : Option SectorMsg :=
  s.net.findSome? fun i => match i with
    | .wbm m => if m.sec = sec ∧ m.die = die then some m else none
    | _ => none

/-- `Inv` (R296). -/
def dieInv (s : State) (die sec : Nat) : State :=
  let (s, x?) := dieSector s die sec
  match x? with
  | none => send s [.ack (plainMsg sec die)]
  | some x =>
    let base : SectorMsg := { plainMsg sec die with wts := x.wts, rts := x.rts, ctx := x.ctx }
    let m : SectorMsg := match x.st with
      | .m | .o => { base with bytes := some x.bytes, dirty := true }
      | .p => { base with parts := x.partials, marks := x.touched, tag := x.tag }
      | .s | .e => base
    send (l2Del s die sec) [.ack m]

/-- `Fwd` (R296, R297): the data goes to the named die, and the owner keeps a shared copy or none. -/
def dieFwd (s : State) (die r sec : Nat) (inval : Bool) : State :=
  let (s, x?) := dieSector s die sec
  match x? with
  | some x =>
    let dirty := decide (x.st = .m ∨ x.st = .o)
    let s := if inval then l2Del s die sec
             else l2Mod s die { x with st := if dirty then .o else .s }
    send s [.data { plainMsg sec r with bytes := some x.bytes, wts := x.wts, rts := x.rts },
            .ack { plainMsg sec die with wts := x.wts, rts := x.rts, dirty := dirty, own := true }]
  | none =>
    match bufferOf s die sec with
    | some b =>
      send s [.data { plainMsg sec r with bytes := b.bytes, wts := b.wts, rts := b.rts },
              .ack { plainMsg sec die with wts := b.wts, rts := b.rts, dirty := true, own := true }]
    | none => send s [.ack (plainMsg sec die)]

/-- `PRecall` (R302): the partial is handed over and the die goes to I. -/
def diePrecall (s : State) (die sec : Nat) : State :=
  match l2At s die sec with
  | some x =>
    if x.st = .p then
      send (l2Del s die sec)
        [.ack { plainMsg sec die with parts := x.partials, marks := x.touched, tag := x.tag, wts := x.wts, rts := x.rts,
                                        ctx := x.ctx }]
    else send s [.ack (plainMsg sec die)]
  | none => send s [.ack (plainMsg sec die)]

/-- `Peek` (R296, R312, R313): the owner's bytes, its copy and state kept; a write-back L1 writes the sector into L2
first. -/
def diePeek (s : State) (die sec : Nat) : State :=
  let (s, x?) := dieSector s die sec
  match x? with
  | some x => send s [.ack { plainMsg sec die with bytes := some x.bytes, wts := x.wts, rts := x.rts }]
  | none =>
    match bufferOf s die sec with
    | some b => send s [.ack { plainMsg sec die with bytes := b.bytes, wts := b.wts, rts := b.rts }]
    | none => send s [.ack (plainMsg sec die)]

/-- `Data` arrives at a die (R296). -/
def dieData (s : State) (m : SectorMsg) : State :=
  match m.bytes with
  | none => s
  | some x =>
    l2Install s m.die ⟨m.sec, if m.own then (if m.dirty then .m else .e) else .s, x, m.wts, m.rts, 0, [], [], s.clk, false, m.ctx⟩

/-- `Grant` arrives at a die: ownership, or a place in P under a tag with an empty partial (R296, R300). -/
def dieGrant (s : State) (m : SectorMsg) : State :=
  if m.tag ≠ 0 then
    match l2At s m.die m.sec with
    | some x => if x.st = .p ∧ x.tag = m.tag then s else s
    | none =>
      let ty := tagTy m.tag
      l2Install s m.die ⟨m.sec, .p, 0, m.wts, m.rts, m.tag, List.replicate (tyElems ty * tyHalves ty) none,
        List.replicate (tyElems ty) false, s.clk, false, none⟩
  else
    match l2At s m.die m.sec with
    | some x => l2Mod s m.die { x with st := .m, wts := max x.wts m.wts, rts := max x.rts m.rts, used := s.clk }
    | none => s

/-- `WbM` at the home (R297): memory takes the data of the owner; a partial handed over on eviction is merged
(R247). -/
def homeWbm (s : State) (m : SectorMsg) : State :=
  let d := dirSec s m.sec
  let rest := (holdersOf d.holders).filter fun x => x ≠ m.die
  let s := homeTimesMax s m.sec m.wts m.rts
  if d.st = 5 ∧ m.tag ≠ 0 then
    let s := dirPut (mergeHome s m.sec m.tag [(m.die, m.parts, m.marks)] m.ctx) m.sec (dirOf 5 rest m.tag)
    if m.marks.any (·) then wakeMonitors (homeTimesMax s m.sec (m.rts + 1) (m.rts + 1)) m.sec else s
  else if (d.st = 2 ∨ d.st = 3 ∨ d.st = 4) ∧ (d.aux.extractLsb' 0 2).toNat = m.die then
    let s := match m.bytes with | some x => writeBackSector s m.sec x m.ctx | none => s
    dirPut s m.sec (if d.st = 4 then dirOf 1 rest 0 else dirIdle)
  else s

/-- `Drop` at the home (R297). -/
def homeDrop (s : State) (die sec : Nat) : State :=
  let d := dirSec s sec
  if d.st = 1 ∨ d.st = 2 then dirPut s sec (dirOf 1 ((holdersOf d.holders).filter fun x => x ≠ die) 0) else s


/-! A sector at rest. -/

/-- A message of the protocol arrives. -/
def arrive (s : State) (i : Instr) : State :=
  match i with
  | .inv d x => dieInv s d x
  | .fwd o d x b => dieFwd s o d x b
  | .precall d x => diePrecall s d x
  | .peek d x _ => diePeek s d x
  | .drop d x => homeDrop s d x
  | .ack m => homeAck s m
  | .data m => dieData s m
  | .grant m => dieGrant s m
  | .wbm m => homeWbm s m
  | _ => s

/-- Every message under way about a sector arrives, what they cause included: the home serves nothing else of a busy
sector meanwhile (R297). -/
def quiesceN : Nat → State → Nat → State
  | 0, s, _ => s
  | n + 1, s, sec =>
    match takeUnderWay sec s.net with
    | none => s
    | some (i, r) => quiesceN n (arrive { s with net := r } i) sec

/-- A sector with nothing under way. -/
def quiesce (s : State) (sec : Nat) : State := quiesceN 64 s sec

/-- The value every coherent read of a sector returns now (R260). -/
def currentSector (s0 : State) (sec : Nat) : Sector :=
  let s := quiesce s0 sec
  match ownedCopy s sec with
  | some x => x
  | none =>
    let x := if poolTag s sec = 0 then homeSector s sec else mergeSector (poolTag s sec) (homeSector s sec) (partialsOf s sec)
    mergePartsSec x sec (msPartsOf s sec)

/-- Coherent bytes. -/
def currentBytes (s : State) (pa n : Nat) : List Byte :=
  let first := pa / 64
  let secs := if n = 0 then 0 else (pa + n + 63) / 64 - first
  (((List.range secs).flatMap fun i => secGet (currentSector s (first + i)) 0 64).drop (pa % 64)).take n

/-- A sector served at the home by an event of its own: what is under way arrives, and every die is left at most a
sharer. -/
def settle (s : State) (sec : Nat) : State := settleRaw (quiesce s sec) sec

/-- Takes a sector exclusive at the home: every die copy goes, and modified data is written back first (R265). -/
def exclude (s : State) (sec : Nat) : State := excludeRaw (quiesce s sec) sec

/-! Requests as they arrive (R297, R310). -/

/-- Room in the directory for a line, the chosen entry's sectors recalled (R298); none where every way of the set has a
busy sector. -/
def dirRoom (s : State) (sec : Nat) : Option State :=
  match dirVictim s sec with
  | .room => some s
  | .full => none
  | .entry v =>
    some ((List.range 4).foldl (fun s k =>
      if ((v.secs[k]?).getD dirIdle).st = 0 then s else exclude s (v.line * 4 + k)) s)

/-- Whether requests wait for a way of a line's directory set, and the first of them (R310). -/
def firstWaiting (s : State) (sec : Nat) : Option (Nat × HomeReq) :=
  (s.homes[homeOf (sec * 64)]?).bind fun h => h.dirWait.find? fun w => dirSet (w.1 / 4) = dirSet (sec / 4)

/-- Whether a line has a directory entry. -/
def hasEntry (s : State) (sec : Nat) : Bool := (s.homes[homeOf (sec * 64)]?).any fun h => h.dir.any fun e => e.line = sec / 4

/-- A request arrives at the home: it waits behind a busy sector, or for a way of its directory set in arrival order,
else it is served (R297, R310). -/
def homeRequest (s : State) (sec : Nat) (req : HomeReq) : State :=
  match busyOf s sec with
  | some b => busyPut s sec (some { b with queue := b.queue ++ [req] })
  | none =>
    let serve (s : State) : State := match dirRoom s sec with
      | some s => homeServe s sec req []
      | none => dirHold s sec [req]
    match firstWaiting s sec with
    | some w =>
      if w = (sec, req) then
        if dirVictim s sec = .full then s
        else serve (modHome s (homeOf (sec * 64)) fun h => { h with dirWait := h.dirWait.erase w })
      else if hasEntry s sec then serve s
      else dirHold s sec [req]
    | none => serve s

/-- The requests that have waited longest for a way of a directory set that now has one (R310). -/
def readyWaits (s : State) : List Instr :=
  s.homes.flatMap fun h => (h.dirWait.filter fun w => firstWaiting s w.1 = some w ∧ (busyOf s w.1).isNone
    ∧ dirVictim s w.1 ≠ .full).map fun w => reqMsg w.1 w.2

/-- Modified copies of a sector written back to its home, their holders left in S; partials merged (R158, R282). -/
def cleanSector (s : State) (sec : Nat) : State :=
  let s := settle s sec
  match ownedCopy s sec with
  | none => s
  | some x =>
    let s := writeBackSector s sec x (ownedCtx s sec)
    let s := (List.range 4).foldl (fun s d =>
      match l2At s d sec with
      | some y => l2Mod s d { y with st := .s }
      | none => s) s
    let d := dirSec s sec
    if d.st = 4 then dirPut s sec { d with st := 1 } else s

/-- A read of a sector served at its home for a context, from its aliases' sources where it has aliases (R284). -/
def homeRead (s : State) (sec : Nat) (c : Option Nat) : State :=
  if (List.range 4).any fun k => (aliasFor s (sec * 4 + k)).isSome then noteAliasRead s sec else touchSector s sec c

/-- An event read of a sector served at the home above a floor: the sector settled, its value, and the timestamp, to
which its rts rises (R265). -/
def readSettled (s : State) (sec : Nat) (c : Option Nat) (floor : Nat) : State × Sector × Nat :=
  let v := currentSector s sec
  let s := homeRead (settle s sec) sec c
  let ts := max floor (homeTimes s sec).1
  (homeTimesMax s sec 0 ts, v, ts)

/-- The same of a whole sector, whose elements' partials at the atomic unit of an MS page are merged first (R163). -/
def readNow (s : State) (sec : Nat) (c : Option Nat) (floor : Nat) : State × Sector × Nat :=
  readSettled (mergeMs s sec 0 64 c) sec c floor

/-- Bytes of a sector written at the home for a context: die copies gone, what the unit keeps of those elements of an MS
page merged, aliases and watches prepared, the bytes put (R163, R285). -/
def putNow (s : State) (sec : Nat) (x : Sector) (mask : BitVec 64) (c : Option Nat) : State :=
  let s := exclude s sec
  let s := (msPartsOf s sec).foldl (fun s p =>
    if (mask >>> p.off) &&& BitVec.ofNat 64 (2 ^ tyBytes (tagTy p.tag) - 1) = 0#64 then s
    else mergeMs s sec p.off (tyBytes (tagTy p.tag)) c) s
  putSector (prepareMask s sec mask) sec x mask c

/-- A write event of bytes of a sector at the home at a timestamp, for a context: the bytes put, times set, monitors
woken (R265, R304). -/
def writeNow (s : State) (sec : Nat) (x : Sector) (mask : BitVec 64) (c : Option Nat) (ts : Nat) : State :=
  wakeMonitors (homeTimesPut (putNow s sec x mask c) sec ts ts) sec

/-- The timestamp of a write event of a sector above a floor: above every lease that its holders' answers report
(R265). -/
def writeStamp (s : State) (sec floor : Nat) : Nat := max floor (largestLease (quiesce s sec) sec + 1)

/-- The writing core's L1 copy takes the value and the times (R265). -/
def refreshL1 (s : State) (die site sec : Nat) (ts : Nat) : State :=
  let c := coreAt s die site
  match l1At c sec with
  | some x => setCore s (l1Put c { x with bytes := currentSector s sec, wts := ts, rts := ts, own := false, dirty := false })
  | none => s

/-- Writes bytes at physical addresses as one event at or above a floor: the stamp is above every sector's leases. -/
def writeBytesNow (s : State) (pa : Nat) (bs : List Byte) (c : Option Nat) (floor : Nat) : State × Nat :=
  if bs.isEmpty then (s, floor)
  else
    let first := pa / 64
    let secs := (List.range ((pa + bs.length + 63) / 64 - first)).map fun i => first + i
    let ts := secs.foldl (fun t sec => max t (writeStamp s sec floor)) floor
    (secs.foldl (fun s sec =>
      let lo := max pa (sec * 64)
      let hi := min (pa + bs.length) (sec * 64 + 64)
      let x := secPut 0 (lo - sec * 64) ((bs.drop (lo - pa)).take (hi - lo))
      writeNow s sec x (BitVec.ofNat 64 ((2 ^ (hi - lo) - 1) * 2 ^ (lo - sec * 64))) c ts) s, ts)

/-- Sectors that some bytes lie in. -/
def sectorsOf (pa n : Nat) : List Nat :=
  if n = 0 then [] else (List.range ((pa + n + 63) / 64 - pa / 64)).map fun i => pa / 64 + i

/-- Reads bytes at physical addresses as one event at the home, at one timestamp, to which the rts of each of their
sectors rises (R265); partials of the elements they meet are merged first (R163). -/
def readBytesNow (s : State) (pa n : Nat) (c : Option Nat) (floor : Nat) : State × List Byte × Nat :=
  let bs := currentBytes s pa n
  let secs := sectorsOf pa n
  let s := secs.foldl (fun s sec =>
    let lo := max pa (sec * 64)
    mergeMs s sec (lo - sec * 64) (min (pa + n) (sec * 64 + 64) - lo) c) s
  let (s, ts) := secs.foldl (fun (acc : State × Nat) sec =>
    let (s, _, w) := readSettled acc.1 sec c acc.2
    (s, w)) (s, floor)
  (secs.foldl (fun s sec => homeTimesMax s sec 0 ts) s, bs, ts)

/-! The keepers of a thread's own loads and stores (R265, R268, R313). -/

/-- A load of a sector by a thread from its keeper: the L1 under the lease test, a write-back L1 as keeper, else the
die's L2; none when the die holds no readable copy. -/
def keeperRead (s : State) (t die site ctx sec : Nat) (wb : Bool) : Option (State × Sector) :=
  let pt := ((s.threads[t]?).map (·.ptime)).getD 0
  let c := coreAt s die site
  let lease := leaseOf s ctx
  let below : Option (State × Sector) :=
    match l2At s die sec with
    | some x0 =>
      if x0.st = .p then none
      else
        let s := collapseL1 s die sec
        let x := (l2At s die sec).getD x0
        let ts := max pt x.wts
        let rts := max x.rts (ts + lease)
        let s := l2Mod s die { x with rts := rts, used := s.clk }
        let s := l1Fill s die site ⟨sec, x.bytes, x.wts, rts, s.clk, wb, false, false, s.clk, none⟩
        some (raisePtime s t ts, x.bytes)
    | none => none
  match l1At c sec with
  | some l =>
    if l.own then
      let ts := max pt l.wts
      some (raisePtime (setCore s (l1Put c { l with rts := max l.rts ts, used := s.clk })) t ts, l.bytes)
    else if pt ≤ l.rts ∧ s.clk - l.granted < 128 * lease then
      some (raisePtime (setCore s (l1Put c { l with used := s.clk })) t (max pt l.wts), l.bytes)
    else below
  | none => below

/-- What a die asks of the home before a load or a store of a sector (R297). -/
def keeperAsk (s : State) (die sec : Nat) (write : Bool) : Instr :=
  if write then
    match l2At s die sec with
    | some x => if x.st = .s ∨ x.st = .o then .upg die sec else .rdx die sec
    | none => .rdx die sec
  else .rds die sec

/-- Whether a store may be performed at its keeper now. -/
def keeperOwns (s : State) (die site sec : Nat) : Bool :=
  (l1At (coreAt s die site) sec).any (·.own) || (l2At s die sec).any fun x => x.st = .e ∨ x.st = .m

/-- Bytes of a sector under a mask replaced. -/
def maskSector (old x : Sector) (mask : BitVec 64) : Sector :=
  (List.range 64).foldl (fun v i => if mask.getLsbD i then secSet v i (secByte x i) else v) old

/-- The timestamp a store takes at a keeper the die owns (R265). -/
def keeperStamp (s : State) (die site sec floor : Nat) : Nat :=
  match (l1At (coreAt s die site) sec).filter (·.own) with
  | some l => max floor (l.rts + 1)
  | none =>
    let l1 := s.cores.foldl (fun a c => if c.die = die then c.l1.foldl (fun a x => if x.sec = sec ∧ x.own then max a x.rts else a) a else a) 0
    match l2At s die sec with
    | some x => max floor (max x.rts l1 + 1)
    | none => floor

/-- A store of bytes of a sector at the keeper its die owns (R265, R313): a write-back line takes ownership from the
die's L2, a write-through store goes to L2 and refreshes the core's copy. Aliases and watches are prepared at the
store (R285, R286; log 25), and the home merges the bytes of grains it forms (R306). `k`: the storing context. -/
def keeperWrite (s : State) (die site sec : Nat) (x : Sector) (mask : BitVec 64) (ts : Nat) (k : Option Nat) : State :=
  let formed := formedBytes s sec mask
  let s := prepareMask s sec mask
  let s := if formed = 0#64 then s else putSector s sec x formed k
  let c := coreAt s die site
  match l1At c sec with
  | some l =>
    if l.own then
      setCore s (l1Put c { l with bytes := maskSector l.bytes x mask, wts := ts, rts := ts, dirty := true, used := s.clk, ctx := k })
    else
      let s := collapseL1 s die sec
      match l2At s die sec with
      | some y =>
        let v := maskSector y.bytes x mask
        let s := l2Mod s die { y with bytes := v, st := .m, wts := ts, rts := ts, used := s.clk, ctx := k }
        let l' : L1Sector := ⟨sec, v, ts, ts, s.clk, l.writeBack, l.writeBack, l.writeBack, s.clk, k⟩
        setCore s (l1Put (coreAt s die site) l')
      | none => s
  | none =>
    let s := collapseL1 s die sec
    match l2At s die sec with
    | some y => l2Mod s die { y with bytes := maskSector y.bytes x mask, st := .m, wts := ts, rts := ts, used := s.clk, ctx := k }
    | none => s

/-- A store by a write-back access allocates its sector in L1 first (R244). -/
def keeperAllocate (s : State) (die site sec : Nat) : State :=
  match l1At (coreAt s die site) sec, l2At s die sec with
  | none, some y => l1Fill s die site ⟨sec, y.bytes, y.wts, y.rts, s.clk, true, false, false, s.clk, none⟩
  | _, _ => s

/-! Loads and stores that a core makes in one step (R84, R219, R232, R244, R313): the messages that bring the sector to
its die are exchanged at once. -/

/-- A die comes to hold a sector readable, or to own it, by the messages of R297. -/
def acquireNow (s : State) (die site sec : Nat) (write : Bool) : State :=
  let s := quiesce s sec
  let held := if write then keeperOwns s die site sec
    else (l1At (coreAt s die site) sec).any (·.own) || (l2At s die sec).any fun x => x.st ≠ .p
  if held then s
  else
    let kind := if !write then 0 else if (l2At s die sec).any fun x => x.st = .s ∨ x.st = .o then 2 else 1
    quiesce (homeRequest s sec ⟨kind, die, 0⟩) sec

/-- A load of a sector by a thread through its core's L1, or at the home for an MS page: an event of the thread. -/
def coreRead (s : State) (t die site ctx sec : Nat) (ms wb : Bool) : State × Sector :=
  let atHome (s : State) : State × Sector :=
    let (s, v, ts) := readNow s sec (some ctx) (((s.threads[t]?).map (·.ptime)).getD 0)
    (raisePtime s t ts, v)
  if ms then atHome s
  else match keeperRead s t die site ctx sec wb with
    | some r => r
    | none =>
      let s := acquireNow s die site sec false
      match keeperRead s t die site ctx sec wb with
      | some r => r
      | none => atHome s

/-- A store of bytes of a sector above a floor through a core's L1, or at the home for an MS page; the stamp. -/
def coreWrite (s : State) (die site ctx sec : Nat) (x : Sector) (mask : BitVec 64) (ms wb : Bool) (floor : Nat) : State × Nat :=
  let atHome (s : State) : State × Nat :=
    let ts := writeStamp s sec floor
    (refreshL1 (writeNow s sec x mask (some ctx) ts) die site sec ts, ts)
  if ms then atHome s
  else
    let s := acquireNow s die site sec true
    if keeperOwns s die site sec then
      let s := if wb then keeperAllocate s die site sec else s
      let ts := keeperStamp s die site sec floor
      (keeperWrite s die site sec x mask ts (some ctx), ts)
    else atHome s

end Sys2Proof.Machine
end

