-- ==== Sys2Proof/Machine/Mmu.lean ====
section
/-! DEFINITION. Translation (R351, R352), the checks of a memory access (R137 to R139, R148, R354, R361, R364, R367,
R378), and scratchpad frames (R239 to R242). -/

namespace Sys2Proof.Machine

/-- What a trap reports: code and the words of R85. -/
structure TrapInfo where
  code : Nat
  addr : Nat
  extra0 : Nat
  extra1 : Nat
  deriving DecidableEq, Repr

/-- Trap codes (R83). -/
def cILLOP : Nat := 0
def cILLMOD : Nat := 1
def cILLOPND : Nat := 2
def cILLPLACE : Nat := 3
def cPRIV : Nat := 4
def cIDXB : Nat := 5
def cSPILL : Nat := 6
def cFILL : Nat := 7
def cSTKLIM : Nat := 8
def cALIGN : Nat := 9
def cBARMASK : Nat := 10
def cBARDIV : Nat := 11
def cCVGMIS : Nat := 12
def cCVGDUP : Nat := 13
def cTILEEMPTY : Nat := 14
def cTILEPOIS : Nat := 15
def cRLOCK : Nat := 16
def cPAGEF : Nat := 17
def cPROT : Nat := 18
def cLOSTDATA : Nat := 19
def cMEMERR : Nat := 20
def cPREEMPT : Nat := 21
def cRESTCAP : Nat := 22
def cXOPERR : Nat := 23
def cFRAMEERR : Nat := 24
def cBKPT : Nat := 25
def cTRAP : Nat := 26

/-- A trap with an address alone. -/
def trapAt (code addr : Nat) : TrapInfo := ⟨code, addr, 0, 0⟩

/-! Translation. -/

/-- The outcome of a walk. -/
inductive Xres where
  | ok (x : Xlat)
  | pagef
  | prot
  deriving DecidableEq, Repr

/-- The levels below one: first index bit and entries (R351). -/
def walkLevels : List (Nat × Nat) := [(46, 2048), (35, 2048), (30, 32), (21, 512), (16, 32)]

/-- One walk: the table of the first level is at `table` (R351). PTEs are read as `LD.F` reads, by their coherent
value, and placed nowhere. -/
def walk (s : State) (keyid va : Nat) : List (Nat × Nat) → Nat → Xres
  | [], _ => .prot
  | (lo, n) :: rest, table =>
    let a := table + 8 * (va / 2 ^ lo % n)
    if dramEnd ≤ a then .prot
    else
      let e := bitsOfBytes (currentBytes s a 8)
      let bit (i : Nat) : Bool := e / 2 ^ i % 2 = 1
      let key := e / 2 ^ 52 % 256
      let pt := e / 2 ^ 60 % 4
      let addr := e / 256 % 2 ^ 44 * 256
      let size := 2 ^ lo
      if bit 0 = false then .pagef
      else if e / 2 ^ 62 ≠ 0 ∨ bit 7 then .prot
      else if bit 1 then
        if lo = 46 then .prot
        else if addr % size ≠ 0 then .prot
        else if bit 6 ∧ lo ≠ 16 then .prot
        else if pt ≠ 0 ∧ bit 6 = false then .prot
        else
          let pa := addr + va % size
          if dramEnd ≤ pa then .prot
          else .ok ⟨pa, if key = 0xFF then keyid else key, bit 5, bit 6, pt, bit 4, bit 3, bit 2⟩
      else
        if rest.isEmpty then .prot
        else if bit 2 ∨ bit 3 ∨ bit 4 ∨ bit 5 ∨ bit 6 ∨ pt ≠ 0 ∨ key ≠ 0 then .prot
        else
          let tsize := match rest with
            | (_, m) :: _ => 8 * m
            | [] => 8
          if addr % tsize ≠ 0 then .prot else walk s keyid va rest addr

/-- The PHY block range (R378). -/
def phyBase : Nat := 0x00F000000000
def phyEnd : Nat := 0x00F000C00000

/-- Whether a physical address lies in some die's bring-up SRAM. -/
def inSram (pa : Nat) : Bool := sramBase 0 ≤ pa ∧ pa < sramBase 4

/-- A virtual address through a context's tables as they stand; bring-up threads use physical addresses (R343). -/
def tableXlat (s : State) (c : Nat) (va : Nat) : Xres :=
  match s.contexts[c]? with
  | none => .prot
  | some cx =>
    if 2 ^ 57 ≤ va then .prot
    else if cx.bringUp then
      if va < dramEnd ∨ inSram va ∨ (phyBase ≤ va ∧ va < phyEnd) then .ok ⟨va, 0, false, false, 0, true, true, true⟩
      else .prot
    else walk s cx.keyid va walkLevels cx.root

/-- What some cached translation of a page gives for an address in it. -/
def TlbEntry.at_ (e : TlbEntry) (va : Nat) : Xres := .ok { e.x with pa := e.x.pa + va % 65536 }

/-- A virtual address of a context: through its tables, or through a translation of its page that was cached before they
changed, at a free choice where the two differ (R211, R352; log 78). -/
def translate (s : State) (c : Nat) (va : Nat) : Xres :=
  let w := tableXlat s c va
  match (((s.tlb.filter fun e => e.ctx = c ∧ e.page = va / 65536).map fun e => e.at_ va).filter fun x => x ≠ w) with
  | [] => w
  | l => ((w :: l)[Config.freeXlat s.seed (va / 65536) % (l.length + 1)]?).getD w

/-- A page's translation, once used, may be cached (R352). -/
def cachePage (s : State) (c page : Nat) : State :=
  if ((s.contexts[c]?).map (·.bringUp)).getD true then s
  else match tableXlat s c (page * 65536) with
    | .ok x => if s.tlb.contains ⟨c, page, x⟩ then s else { s with tlb := ⟨c, page, x⟩ :: s.tlb }
    | .pagef | .prot => s

/-- The pages of a range may be cached. -/
def cacheRange (s : State) (c va n : Nat) : State :=
  if n = 0 then s
  else (List.range ((va + n - 1) / 65536 - va / 65536 + 1)).foldl (fun s i => cachePage s c (va / 65536 + i)) s

/-- Permissions an access needs. -/
structure Need where
  r : Bool
  w : Bool
  x : Bool
  /-- Writing a page of an LBC group is no PROT (R258). -/
  lbc : Bool := false
  deriving DecidableEq, Repr

def needR : Need := { r := true, w := false, x := false }
def needW : Need := { r := false, w := true, x := false }
def needRW : Need := { r := true, w := true, x := false }
def needX : Need := { r := false, w := false, x := true }
def needNone : Need := { r := false, w := false, x := false }

/-- The pages of 4 KiB that a range touches, by first address within the range. -/
def pageStarts (va n : Nat) : List Nat :=
  if n = 0 then [] else
    (List.range ((va + n - 1) / 4096 - va / 4096 + 1)).map fun i => if i = 0 then va else (va / 4096 + i) * 4096

/-- Translations of a range in page pieces: virtual start, bytes, translation. -/
def rangePieces (s : State) (c va n : Nat) : List (Nat × Nat × Xres) :=
  (pageStarts va n).map fun a => (a, min (va + n) ((a / 4096 + 1) * 4096) - a, translate s c a)

/-- PAGEF, then PROT, over pieces (R139 checks 4 and 5). The kind bits of R353: 1 read, 2 write, 4 fetch. -/
def pageCheck (need : Need) (ps : List (Nat × Nat × Xres)) : Option TrapInfo :=
  match ps.find? fun p => p.2.2 = .pagef with
  | some p => some ⟨cPAGEF, p.1, (if need.r then 1 else 0) + (if need.w then 2 else 0) + (if need.x then 4 else 0), 0⟩
  | none =>
    match ps.find? fun p => match p.2.2 with
        | .ok x => (need.r && !x.r) || (need.w && (!x.w || (x.lbc && !need.lbc))) || (need.x && !x.x)
        | .pagef | .prot => true with
    | some p => some (trapAt cPROT p.1)
    | none => none

/-- The physical pieces of translated pages: address, bytes. -/
def physPieces (ps : List (Nat × Nat × Xres)) : List (Nat × Nat) :=
  ps.filterMap fun p => match p.2.2 with | .ok x => some (x.pa, p.2.1) | .pagef | .prot => none

/-- The translation of the first piece. -/
def firstXlat (ps : List (Nat × Nat × Xres)) : Option Xlat :=
  ps.findSome? fun p => match p.2.2 with | .ok x => some x | .pagef | .prot => none

/-- Key ids of the pages of a range, by 4 KiB page of physical memory. -/
def pieceKeys (ps : List (Nat × Nat × Xres)) : List (Nat × Nat) :=
  ps.filterMap fun p => match p.2.2 with | .ok x => some (x.pa / 4096, x.key) | .pagef | .prot => none

/-- The key id of a sector's page, among the pages of an access. -/
def keyIn (ks : List (Nat × Nat)) (sec : Nat) : Nat := (lookupNat ks (sec / 64)).getD 0

/-- A physical address in a data page of an LBC group (R254). -/
def lbcData (x : Xlat) : Bool := x.lbc && decide (x.pa / 4096 % 16 ≠ 0)

/-- The header of the page at a physical address (R254). -/
def headerOf (s : State) (pa : Nat) : List Byte := currentBytes s (pa / 65536 * 65536 + pa / 4096 % 16 * 64) 64

/-- Bytes of a data page as a read returns them: its lines expanded (R254, R257). -/
def lbcBytes (s : State) (pa n : Nat) : List Byte :=
  let hdr := headerOf s pa
  let page := currentBytes s (pa / 4096 * 4096) 4096
  let lines := (List.range ((pa + n + 255) / 256 - pa / 256)).flatMap fun i => lbcLine hdr page (pa % 4096 / 256 + i)
  (lines.drop (pa % 256)).take n

/-- Units that Peat gives a line of a data page: those of its own encoding, or of the expanded line where the base die
expands it, as the page's expansion point or the path says (R249, R257). -/
def lbcUnitsAt (s : State) (pa : Nat) (base : Bool) : Nat :=
  let hdr := headerOf s pa
  let w := bitsOfBytes (hdr.take 8)
  let line := pa % 4096 / 256
  if base ∨ w % 4 = 0 then lineUnits (BitVec.ofNat 2048 (bitsOfBytes (lbcBytes s (pa / 256 * 256) 256)))
  else lbcUnits ((lbcWidth (w / 16 % 16)).getD 4) (((lbcEncs w)[line]?).getD 0)

/-- MEMERR of a read of a data page whose header is illegal (R255). -/
def badHeader (s : State) (x : Xlat) : Bool := lbcData x && !lbcHeaderOk (headerOf s x.pa)

/-! Marks (R354, R361, R364, R367). -/

/-- A sector's marks at its home. -/
def markOf (s : State) (sec : Nat) : SecMark :=
  ((s.homes[homeOf (sec * 64)]?).bind fun h => h.marks.find? fun m => m.sec = sec).getD ⟨sec, 0, 0#8, false, false⟩

/-- Sets a sector's marks. -/
def markPut (s : State) (m : SecMark) : State :=
  modHome s (homeOf (m.sec * 64)) fun h => { h with marks := m :: h.marks.filter fun x => x.sec ≠ m.sec }

/-- A key slot at a home; slot 0 is loaded at package reset (R354). -/
def keyAt (s : State) (home slot : Nat) : KeySlot :=
  ((s.homes[home]?).bind fun h => lookupNat h.keys slot).getD (if slot = 0 then ⟨1, 0#8, 0⟩ else ⟨0, 0#8, 0⟩)

/-- Whether a key is live at a sector's home. -/
def keyLive (s : State) (sec key : Nat) : Bool := (keyAt s (homeOf (sec * 64)) key).st = 1

/-- Whether a sector's tag is that of a key. -/
def keyMatches (s : State) (sec key : Nat) : Bool :=
  let m := markOf s sec
  keyLive s sec key && decide (m.key = key ∧ m.gen = (keyAt s (homeOf (sec * 64)) key).gen)

/-- Whether both pseudo-channels of a channel are trained (R237, R382). -/
def channelTrained (h : Home) (stack ch : Nat) : Bool :=
  [0, 1].all fun pc => h.phys.any fun p => p.block = ⟨stack, ch, pc⟩ ∧ p.done

/-- Whether the channel of a DRAM sector is open: trained, not blocked, its die not lost (R237, R365, R367). -/
def channelOpen (s : State) (sec : Nat) : Bool :=
  let pa := sec * 64
  if dramEnd ≤ pa then true
  else
    match s.homes[homeOf pa]? with
    | some h => channelTrained h (homeOf pa) (channelOf pa) && !h.blocked.contains (channelOf pa)
        && !((s.dies[homeDie pa]?).map (·.lost)).getD true
    | none => false

/-- Whether a sector carries tags (R354): bring-up SRAM and the PHY do not. -/
def taggedSector (sec : Nat) : Bool := sec * 64 < dramEnd

/-- LOSTDATA and MEMERR of a read of a sector (R139 checks 7 and 8). -/
def readMark (s : State) (ea sec key : Nat) : Option TrapInfo :=
  if !taggedSector sec then none
  else
    let m := markOf s sec
    if m.lost then some ⟨cLOSTDATA, ea, sec * 64, 0⟩
    else if !channelOpen s sec then some ⟨cMEMERR, ea, 3, 0⟩
    else if !keyMatches s sec key then some ⟨cMEMERR, ea, 2, 0⟩
    else if m.poison then some ⟨cMEMERR, ea, 1, 0⟩
    else none

/-- LOSTDATA and MEMERR of a store into a sector; `whole`: the instruction writes every byte of it (R148, R354,
R361). -/
def writeMark (s : State) (ea sec key : Nat) (whole : Bool) : Option TrapInfo :=
  if !taggedSector sec then none
  else
    let m := markOf s sec
    if m.lost ∧ !whole then some ⟨cLOSTDATA, ea, sec * 64, 0⟩
    else if !channelOpen s sec then some ⟨cMEMERR, ea, 3, 0⟩
    else if !keyLive s sec key ∨ (!whole ∧ !keyMatches s sec key) then some ⟨cMEMERR, ea, 2, 0⟩
    else if m.poison ∧ !whole then some ⟨cMEMERR, ea, 1, 0⟩
    else none

/-- Sectors of physical pieces. -/
def pieceSectors (ps : List (Nat × Nat)) : List Nat :=
  (ps.flatMap fun p => if p.2 = 0 then [] else (List.range ((p.1 + p.2 - 1) / 64 - p.1 / 64 + 1)).map fun i => p.1 / 64 + i).dedup

/-- A redirected read meets the marks of its source sectors as well (R283, R361, R364). -/
def sourceSectors (s : State) (sec : Nat) : List Nat :=
  ((List.range 4).flatMap fun k =>
    match aliasFor s (sec * 4 + k) with
    | some e => let (a, n) := blockSource e (blockIndex e (sec * 4 + k)); pieceSectors [(a, n)]
    | none => []).dedup

/-- The first lock that pieces meet: its bounds and its owner (R139 check 6, R154). -/
def lockHit (s : State) (ps : List (Nat × Nat)) : List RangeLock :=
  s.homes.flatMap fun h => h.locks.filter fun k => ps.any fun p => k.first < p.1 + p.2 ∧ p.1 ≤ k.last ∧ p.2 ≠ 0

/-- The locks of a near-memory node, which do not apply to the teams of its fallback (R336). -/
def fallbackLock (s : State) (t : Option Nat) : Option Nat :=
  match t.bind (gridOf s) with
  | some g => if g.fallback.isSome then (g.node.bind fun p => nodeAt s p.1 p.2).bind (·.lockOp) else none
  | none => none

/-- The locks that an access meets; `own`: the operation whose locks do not apply to it (R326, R330). -/
def lockHitOf (s : State) (t own : Option Nat) (ps : List (Nat × Nat)) : List RangeLock :=
  (lockHit s ps).filter fun k => fallbackLock s t ≠ some k.op ∧ own ≠ some k.op

/-- The outcome of the checks of an access. -/
inductive Checked where
  /-- The physical pieces, the first page's translation, and the key id of each page. -/
  | ok (pieces : List (Nat × Nat)) (x : Xlat) (keys : List (Nat × Nat))
  | trap (i : TrapInfo)
  | hold (w : Wait)
  deriving DecidableEq, Repr

/-- LOSTDATA, then MEMERR, of sectors an access reads and writes under their pages' keys (R139 checks 7 and 8). -/
def marksCheck (s : State) (ea : Nat) (need : Need) (wholes : List Nat) (phys : List (Nat × Nat)) (ks : List (Nat × Nat)) :
    Option TrapInfo :=
  let secs := pieceSectors phys
  let rd := if need.r then secs.flatMap fun sec => (sec :: sourceSectors s sec).map fun x => (x, keyIn ks sec) else []
  let wr := if need.w then secs else []
  let lost (sec : Nat) : Bool := taggedSector sec && (markOf s sec).lost
  let read (p : Nat × Nat) : Option TrapInfo := readMark s ea p.1 p.2
  let write (sec : Nat) : Option TrapInfo := writeMark s ea sec (keyIn ks sec) (wholes.contains sec)
  match (rd.filter fun p => lost p.1).findSome? read, (wr.filter lost).findSome? write with
  | some i, _ | none, some i => some i
  | none, none => match rd.findSome? read with
    | some i => some i
    | none => wr.findSome? write

/-- RLOCK of an access that meets a lock of another's operation, and the hold behind a lock of the thread's own copy
(R139 check 6, R154). -/
def locksCheck (s : State) (t own : Option Nat) (ea : Nat) (phys : List (Nat × Nat)) : Option Checked :=
  let hits := lockHitOf s t own phys
  match hits.find? fun k => k.owner = none ∨ k.owner ≠ t with
  | some k => some (.trap ⟨cRLOCK, ea, k.first, k.last⟩)
  | none => if hits.isEmpty then none else some (.hold .ownLock)

/-- Checks 4 to 8 of R139 over virtual ranges that one access touches. `wholes`: sectors that the instruction writes
whole; `t`: the accessing thread, none for an engine; `own`: an operation whose locks do not apply. -/
def rangeChecks (s : State) (c : Nat) (t : Option Nat) (ea : Nat) (need : Need) (wholes : List Nat)
    (ranges : List (Nat × Nat)) (own : Option Nat := none) : Checked :=
  let ps := ranges.flatMap fun r => rangePieces s c r.1 r.2
  match pageCheck need ps with
  | some i => .trap i
  | none =>
    let phys := physPieces ps
    match locksCheck s t own ea phys with
    | some o => o
    | none =>
      match marksCheck s ea need wholes phys (pieceKeys ps) with
      | some i => .trap i
      | none => .ok phys ((firstXlat ps).getD ⟨0, 0, false, false, 0, false, false, false⟩) (pieceKeys ps)

/-- A whole-sector store clears the marks and writes a new tag (R148, R354, R361, R376). -/
def retag (s : State) (sec key : Nat) : State :=
  if !taggedSector sec then s
  else
    let m : SecMark := ⟨sec, key, (keyAt s (homeOf (sec * 64)) key).gen, false, false⟩
    if markOf s sec = m then s else markPut s m

/-! Scratchpad frames (R239 to R242). -/

/-- The frame that holds a page of a team. -/
def frameAt (s : State) (team page : Nat) : Option SpadFrame :=
  (s.teams[team]?).bind fun t => (coreAt s t.die t.site).frames.find? fun f => f.team = team ∧ f.page = page

/-- Replaces a frame that a team's core holds. -/
def framePut (s : State) (f : SpadFrame) : State :=
  match s.teams[f.team]? with
  | none => s
  | some t => modCore s t.die t.site fun c =>
      { c with frames := c.frames.map fun g => if g.team = f.team ∧ g.page = f.page then f else g }

/-- The context of a team. -/
def teamCtx (s : State) (team : Nat) : Nat := ((s.teams[team]?).bind fun t => (s.grids[t.grid]?).map (·.ctx)).getD 0

/-- A byte of a team's backing region, translated through its context's tables (R239). -/
def regionAt (s : State) (team off : Nat) : Xres :=
  match s.teams[team]? with
  | some t => translate s (teamCtx s team) (t.spadBase + off)
  | none => .prot

/-- A fault in translating a byte of a team's region that the frame logic reads or writes (R239). -/
def regionFault (s : State) (team off : Nat) (w : Bool) : Option TrapInfo :=
  match s.teams[team]? with
  | none => none
  | some t => pageCheck (if w then needW else needR) [(t.spadBase + off, 1, regionAt s team off)]

/-- A sector of the backing region keeps the retention mark in its die's L2 (R239, R247). -/
def retain (s : State) (die sec : Nat) : State :=
  let s := settle s sec
  let d := dirSec s sec
  let hs := holdersOf d.holders
  if hs.contains die then
    match l2At s die sec with
    | some x => l2Mod s die { x with retain := true, used := s.clk }
    | none => s
  else
    let (w, r) := homeTimes s sec
    let v := currentSector s sec
    let s := dirPut s sec (if d.st = 4 then dirOf 4 (die :: hs) (d.aux.extractLsb' 0 2).toNat else dirOf 1 (die :: hs) 0)
    l2Install s die ⟨sec, .s, v, w, r, 0, [], [], s.clk, true, none⟩

/-- A sector of the backing region, unless it lies in an MS page, whose lines no L2 holds (R253). -/
def retainSector (s : State) (die sec : Nat) (ms : Bool) : State := if ms then s else retain s die sec

/-- The dirty lines of a frame are written to its page's slot, and its sectors' times go with them (R240, R264); a
sector that carries a mark has it at its home (R361). -/
def frameBack (s : State) (f : SpadFrame) : State :=
  match s.teams[f.team]? with
  | none => s
  | some t =>
    match regionAt s f.team (4096 * (f.page + 1)) with
    | .ok x =>
      (List.range 64).foldl (fun s i =>
        let sec := x.pa / 64 + i
        let (w, r) := (f.times[i]?).getD (0, 0)
        let s := if f.dirty ∧ !f.bad.any (fun b => b.1 = i) then
            retainSector (writeNow (retag s sec x.key) sec ((f.sectors[i]?).getD 0) (~~~ 0#64) (some (teamCtx s f.team))
              (writeStamp s sec w)) t.die sec x.ms
          else s
        homeTimesMax s sec w r) s
    | .pagef | .prot => s

/-- The least recently used of some frames. -/
def oldestFrame (l : List SpadFrame) : Option SpadFrame :=
  l.foldl (fun acc f => match acc with
    | none => some f
    | some g => if f.used < g.used then some f else some g) none

/-- Whether a team is not resident (R241). -/
def teamGone (s : State) (team : Nat) : Bool :=
  match s.teams[team]? with
  | none => true
  | some t => match t.phase with
    | .resident | .preempting _ _ | .saving _ | .restoring _ => false
    | .saved _ | .complete => true

/-- Where a refill goes (R240): a free frame, a victim's, or nowhere while every frame is another resident team's. -/
inductive FrameRoom where
  | free
  | victim (f : SpadFrame)
  | none
  deriving DecidableEq, Repr

/-- The frame a refill for a team takes (R240). -/
def frameRoom (s : State) (c : Core) (team : Nat) : FrameRoom :=
  if c.frames.length < 128 then .free
  else
    match oldestFrame (c.frames.filter fun f => teamGone s f.team) with
    | some f => .victim f
    | none => match oldestFrame (c.frames.filter fun f => f.team = team) with
      | some f => .victim f
      | none => .none

/-- Where a refill for a team goes, on the team's core. -/
def roomFor (s : State) (team : Nat) : FrameRoom :=
  match s.teams[team]? with
  | some t => frameRoom s (coreAt s t.die t.site) team
  | none => .none

/-- Whether a page of a team has been written (R239). -/
def pageTouched (s : State) (team page : Nat) : Bool := ((s.teams[team]?).map fun t => t.touched.contains page).getD false

/-- A fault of the frame logic that an access to a page takes (R239, R240): of a dirty victim's slot, of the page's slot
where it is read, and of the map page where the access is the first to write the page (log 110). -/
def refillFault (s : State) (team page : Nat) (write : Bool) : Option TrapInfo :=
  let miss := (frameAt s team page).isNone
  let victim : Option TrapInfo := match roomFor s team with
    | .victim f => if miss ∧ f.dirty then regionFault s f.team (4096 * (f.page + 1)) true else none
    | .free | .none => none
  match victim with
  | some i => some i
  | none =>
    match (if miss ∧ pageTouched s team page then regionFault s team (4096 * (page + 1)) false else none) with
    | some i => some i
    | none => if write ∧ !pageTouched s team page then regionFault s team (page / 8) true else none

/-- The bytes of a page's slot as a refill reads them: expanded in a data page of an LBC group (R257). -/
def slotSectors (s : State) (x : Xlat) : List Sector :=
  if lbcData x then let bs := lbcBytes s x.pa 4096; (List.range 64).map fun i => secOfBytes ((bs.drop (64 * i)).take 64)
  else (List.range 64).map fun i => currentSector s (x.pa / 64 + i)

/-- The sectors of a page's slot that carry a mark, as a frame's copies of them do (R361, R364). -/
def slotBad (s : State) (x : Xlat) : List (Nat × Nat × Nat) :=
  (List.range 64).filterMap fun i => (readMark s 0 (x.pa / 64 + i) x.key).map fun r => (i, r.code, r.extra0)

/-- The mark that a sector of a team's scratchpad carries: its frame's, or what a refill of its page would meet. -/
def spadBad (s : State) (team sector : Nat) : Option (Nat × Nat) :=
  let page := sector / 64
  match frameAt s team page with
  | some f => (f.bad.find? fun b => b.1 = sector % 64).map (·.2)
  | none =>
    if !pageTouched s team page then none
    else match regionAt s team (4096 * (page + 1)) with
      | .ok x => (readMark s 0 (x.pa / 64 + sector % 64) x.key).map fun r => (r.code, r.extra0)
      | .pagef | .prot => none

/-- A sector of a team's scratchpad as a number beside those of physical sectors. -/
def spadSector (team sector : Nat) : Nat := 2 ^ 50 + team * 2 ^ 14 + sector

/-- Sectors that an object of a scratchpad lies in. -/
def spadSectors (r : SpadRef) (n : Nat) : List Nat :=
  if n = 0 then [] else (List.range ((r.off + n - 1) / 64 - r.off / 64 + 1)).map fun i => r.off / 64 + i

/-- LOSTDATA and MEMERR of an access to an object of a scratchpad; `wholes`: sectors that the instruction writes whole
(R148, R361, R364). -/
def spadMark (s : State) (r : SpadRef) (n ea : Nat) (need : Need) (wholes : List Nat) : Option TrapInfo :=
  (spadSectors r n).findSome? fun sec =>
    if need.r ∨ (need.w ∧ !wholes.contains (spadSector r.team sec)) then
      (spadBad s r.team sec).map fun b => ⟨b.1, ea, b.2, 0⟩
    else none

/-- A sector that stores have written whole loses its mark: its tag is new (R148, R354, R361). -/
def clearMark (s : State) (sec key : Nat) : State :=
  if sec < 2 ^ 50 then retag s sec key
  else
    let team := (sec - 2 ^ 50) / 2 ^ 14
    let i := (sec - 2 ^ 50) % 2 ^ 14
    match frameAt s team (i / 64) with
    | some f => framePut s { f with bad := f.bad.filter fun b => b.1 ≠ i % 64 }
    | none => s

/-- Puts a page into a frame of a team's core. -/
def frameIn (s : State) (t : Team) (f : SpadFrame) : State :=
  modCore s t.die t.site fun c => { c with frames := f :: c.frames }

/-- Refills a page of a team into a frame of its core: the victim written back, then the page read, or zeros for a
page never written (R240). Nothing happens while no frame can be had, or a fault is to be taken. -/
def refill (s : State) (team page : Nat) : State :=
  match s.teams[team]?, frameAt s team page with
  | some t, none =>
    if (refillFault s team page false).isSome then s
    else
      let place (s : State) : State :=
        if !t.touched.contains page then
          let times := match regionAt s team (4096 * (page + 1)) with
            | .ok x => (List.range 64).map fun i => homeTimes s (x.pa / 64 + i)
            | .pagef | .prot => List.replicate 64 (0, 0)
          frameIn s t ⟨team, page, List.replicate 64 0, times, [], false, s.clk⟩
        else
          match regionAt s team (4096 * (page + 1)) with
          | .ok x =>
            let secs := (List.range 64).map fun i => x.pa / 64 + i
            let vals := slotSectors s x
            let times := secs.map fun sec => homeTimes s sec
            let bad := slotBad s x
            let s := secs.foldl (fun s sec => retainSector (homeRead s sec (some (teamCtx s team))) t.die sec x.ms) s
            frameIn s t ⟨team, page, vals, times, bad, false, s.clk⟩
          | .pagef | .prot => s
      match roomFor s team with
      | .none => s
      | .free => place s
      | .victim f =>
        place (modCore (frameBack s f) t.die t.site fun c =>
          { c with frames := c.frames.filter fun g => !(g.team = f.team ∧ g.page = f.page) })
  | _, _ => s

/-- A page of a team's scratchpad has been written: its bit of the touched map, whose line keeps the retention mark
(R239). -/
def touchPage (s : State) (team page : Nat) : State :=
  match s.teams[team]? with
  | none => s
  | some t =>
    if t.touched.contains page then s
    else
      let s := modTeam s team fun t => { t with touched := page :: t.touched }
      match regionAt s team (page / 8) with
      | .ok x =>
        let b := ((currentBytes s x.pa 1)[0]?).getD 0 ||| BitVec.ofNat 8 (2 ^ (page % 8))
        retainSector (writeBytesNow s x.pa [b] (some (teamCtx s team)) 0).1 t.die (x.pa / 64) x.ms
      | .pagef | .prot => s

/-- Bytes of a scratchpad object as its frames hold them; zeros where no frame does. -/
def spadBytes (s : State) (r : SpadRef) (n : Nat) : List Byte :=
  (List.range n).map fun i =>
    let o := r.off + i
    match frameAt s r.team (o / 4096) with
    | some f => secByte ((f.sectors[o % 4096 / 64]?).getD 0) (o % 64)
    | none => 0

/-- Pages an object of a scratchpad lies in. -/
def spadPages (r : SpadRef) (n : Nat) : List Nat :=
  if n = 0 then [] else (List.range ((r.off + n - 1) / 4096 - r.off / 4096 + 1)).map fun i => r.off / 4096 + i

/-- Whether frames hold every page of an object. -/
def spadReady (s : State) (r : SpadRef) (n : Nat) : Bool := (spadPages r n).all fun p => (frameAt s r.team p).isSome

/-- Refills every absent page of an object. -/
def spadFill (s : State) (r : SpadRef) (n : Nat) : State :=
  (spadPages r n).foldl (fun s p => if (frameAt s r.team p).isSome then s else refill s r.team p) s

/-- A read event at a frame (R264, R265): the bytes and the timestamp. -/
def spadRead (s : State) (r : SpadRef) (n floor : Nat) : State × List Byte × Nat :=
  let bs := spadBytes s r n
  match frameAt s r.team (r.off / 4096) with
  | some f =>
    let i := r.off % 4096 / 64
    let (w, rt) := (f.times[i]?).getD (0, 0)
    let ts := max floor w
    (framePut s { f with times := setAt f.times i (w, max rt ts), used := s.clk }, bs, ts)
  | none => (s, bs, floor)

/-- Threads that wait on an arrival object in a sector read it again (R173). -/
def wakeArrivals (s : State) (team sec : Nat) : State :=
  { s with threads := s.threads.map fun th => match th.wait with
      | .arrival r _ => if r.team = team ∧ r.off / 64 = sec then { th with wait := .ready, age := s.clk } else th
      | _ => th }

/-- A write event at a frame (R264, R265): the timestamp lies above the sector's leases. -/
def spadWrite (s : State) (r : SpadRef) (bs : List Byte) (floor : Nat) : State × Nat :=
  match frameAt s r.team (r.off / 4096) with
  | some f =>
    let i := r.off % 4096 / 64
    let (_, rt) := (f.times[i]?).getD (0, 0)
    let ts := max floor (rt + 1)
    let v := secPut ((f.sectors[i]?).getD 0) (r.off % 64) bs
    let s := framePut s { f with sectors := setAt f.sectors i v, times := setAt f.times i (ts, ts), dirty := true, used := s.clk }
    (wakeArrivals (touchPage s r.team (r.off / 4096)) r.team (r.off / 64), ts)
  | none => (s, floor)

end Sys2Proof.Machine
end

