-- ==== Sys2Proof/Machine/Sig.lean ====
section
/-! DEFINITION. What each opcode makes of its fields: operand roles and types, MOD tables, permitted controls (R69 to
R81, R88 to R92, R102, R113, R126, R143, R151, R159, R183, R204), and the checks of R82 steps 5 to 7 that need no
register or memory. -/

namespace Sys2Proof.Machine

/-- The type in which a source operand is delivered (R76). -/
inductive SrcTy where
  /-- Integer or raw of a width; `zext`: a 64-bit imm32 is zero-extended (`.n64`). -/
  | int (w : Nat) (zext : Bool)
  | fp (f : Fp)
  /-- A packed pair. -/
  | pair (f : Fp)
  | scale
  deriving DecidableEq, Repr

/-- The role a field has in an instruction. -/
inductive Role where
  /-- Not read: ignored (R69). -/
  | off
  /-- A source operand specifier. -/
  | src (t : SrcTy)
  /-- A register destination of 32, 64 or 128 bits. -/
  | dst (w : Nat)
  /-- A 32- or 64-bit register read and then written. -/
  | rmw (w : Nat)
  /-- A uniform-register destination. -/
  | kdst (w : Nat)
  /-- A vector destination whose number is a multiple of 4 (`CQPOP`, R168). -/
  | vdst
  /-- A resource number in a range (R78). -/
  | res (lo hi : Nat)
  /-- A convergence register, at most the launch record's chi (R217). -/
  | conv
  /-- A barrier number, at most the launch record's bhi (R217). -/
  | barrier
  /-- A slide, 0 to W (R94). -/
  | slide
  /-- A `WAIT` threshold: 0 to 63 or 0x3FF (R176). -/
  | threshold
  /-- A type code among those accepted (R88). -/
  | tycode (accepted : List Nat)
  /-- A system register number (R39). -/
  | sysreg
  /-- A tile resource code (R178). -/
  | tile
  /-- An engine function; unlisted codes are the lane's XOPERR (R197). -/
  | engineFn
  /-- A direct vector register that begins a range (`TMOVV`, R192). -/
  | vdirect
  /-- A direct vector or uniform register that begins coordinates (`LDT`, `STT`, R149). -/
  | coords
  /-- A vector register range (`RCPY`, R135): what depends on the count is the lane's. -/
  | range (write : Bool)
  /-- `RCPY`'s count (R135). -/
  | count
  deriving DecidableEq, Repr

/-- Where an opcode keeps its rounding code in MOD. -/
inductive RndField where
  | none | low | high
  deriving DecidableEq, Repr

/-- What imm32 is for, when its role is fixed (R79). -/
inductive ImmRole where
  | none | disp | table | imm64
  deriving DecidableEq, Repr

/-- All that an opcode makes of a form. -/
structure Sig where
  d : Role := .off
  a : Role := .off
  b : Role := .off
  c : Role := .off
  /-- The MOD value is listed (R69, R81). -/
  modOk : Bool := true
  rnd : RndField := .none
  /-- MOD bit of the saturate control, when it has one there. -/
  satBit : Option Nat := none
  ftzBit : Option Nat := none
  /-- Whether the opcode saturates, flushes, or may round in SR. -/
  satOk : Bool := false
  ftzOk : Bool := false
  srOk : Bool := false
  freshOk : Bool := false
  hintOk : Bool := false
  /-- A cross-lane instruction (R91). -/
  cross : Bool := false
  /-- A source that a lane does not read (`SEL`, log 21). -/
  skipA : Bool := false
  skipB : Bool := false
  imm : ImmRole := .none
  priv : Bool := false
  deriving DecidableEq, Repr

/-- A source of a raw 32-bit type. -/
def src32 : Role := .src (.int 32 false)

/-- A 64-bit source, extended as `.i64` (R136). -/
def src64 : Role := .src (.int 64 false)

/-- A source of integer type IT (R76, R89). -/
def srcIt (it : BitVec 3) : Role := .src (.int (itWidth it) (decide (it = 3#3)))

/-- A register destination of integer type IT: 64 bits or one register. -/
def dstIt (it : BitVec 3) : Role := .dst (if itWidth it = 64 then 64 else 32)

/-- The element format of F as a delivery type (R113). -/
def srcF (f : BitVec 3) : Role :=
  if f = 0#3 then .src (.fp .f32) else if f = 1#3 then .src (.fp .f64) else if f = 2#3 then .src (.fp .f16)
  else if f = 3#3 then .src (.fp .bf16) else if f = 4#3 then .src (.pair .f16) else .src (.pair .bf16)

/-- A destination of format F. -/
def dstF (f : BitVec 3) : Role := .dst (if f = 1#3 then 64 else 32)

/-- The delivery type of a type code (R76, R88). -/
def srcType (code : Nat) : SrcTy :=
  match code with
  | 0x00 => .fp .f32
  | 0x01 => .fp .f64
  | 0x02 => .fp .f16
  | 0x03 => .fp .bf16
  | 0x04 => .pair .f16
  | 0x05 => .pair .bf16
  | 0x06 => .fp .e4m3
  | 0x07 => .fp .e5m2
  | 0x08 => .fp .e2m1
  | 0x09 => .fp .dy8
  | 0x0A => .scale
  | 0x0B => .scale
  | 0x13 => .int 64 false
  | 0x17 => .int 64 true
  | 0x19 => .int 64 false
  | _ => .int 32 false

/-- Whether a type code is 64 bits wide. -/
def typeIs64 (code : Nat) : Bool := code = 0x01 ∨ code = 0x13 ∨ code = 0x17 ∨ code = 0x19

/-- The codes of R88 that are types. -/
def isTypeCode (code : Nat) : Bool := code ≤ 0x0B ∨ (0x10 ≤ code ∧ code ≤ 0x19)

/-- `CVT`'s accepted codes (R118): all but the packed pairs and the raw types, and a scale never with an integer. -/
def cvtCodes (other : Nat) : List Nat :=
  let fp := [0x00, 0x01, 0x02, 0x03, 0x06, 0x07, 0x08, 0x09]
  let sc := [0x0A, 0x0B]
  let ints := [0x10, 0x11, 0x12, 0x13, 0x14, 0x15, 0x16, 0x17]
  if other = 0x0A ∨ other = 0x0B then fp ++ sc
  else if 0x10 ≤ other then fp ++ ints
  else fp ++ sc ++ ints

/-- The system registers of R39: width, protected, read-only; none for a number not in the table. -/
def sysregInfo (n : Nat) : Option (Nat × Bool × Bool) :=
  match n with
  | 0x000 => some (64, true, false)
  | 0x001 => some (64, true, false)
  | 0x002 => some (32, false, false)
  | 0x003 => some (32, false, false)
  | 0x004 => some (16, true, false)
  | 0x005 => some (8, true, false)
  | 0x006 => some (12, true, false)
  | 0x007 => some (16, true, false)
  | 0x008 => some (4, true, false)
  | 0x009 => some (64, true, false)
  | 0x00A => some (32, true, false)
  | 0x00B => some (32, true, false)
  | 0x00C => some (32, true, true)
  | 0x00D => some (64, true, true)
  | 0x00E => some (64, true, true)
  | 0x00F => some (64, true, true)
  | 0x010 => some (64, true, true)
  | _ => none

/-- Whether a system register is 64 bits wide. -/
def sysregIs64 (n : Nat) : Bool :=
  match sysregInfo n with
  | some (w, _, _) => decide (w = 64)
  | none => false

/-- Bits [hi:lo] of MOD. -/
def modBits (m : BitVec 6) (hi lo : Nat) : Nat := m.toNat / 2 ^ lo % 2 ^ (hi - lo + 1)

/-- Whether MOD has no bit set outside a mask. -/
def modIn (m : BitVec 6) (mask : Nat) : Bool := (m &&& ~~~ (BitVec.ofNat 6 mask)) = 0#6

/-- The integer type field (R89). -/
def modIt (m : BitVec 6) : BitVec 3 := m.extractLsb' 0 3

/-- Size code to width of a load or store's register image (R143). -/
def sizeWidth (z : BitVec 3) : Nat := if z = 5#3 then 64 else if z = 6#3 then 128 else 32

/-- The data operand of a store of a size. -/
def srcSize (z : BitVec 3) : Role := .src (.int (sizeWidth z) false)

/-- Atomic types (R159): 64-bit for `.i64` and `.n64`. -/
def atomWidth (t : BitVec 3) : Nat := if t = 2#3 ∨ t = 3#3 then 64 else 32

/-- The operand of an atomic (R76, R159). -/
def srcAtom (t : BitVec 3) : Role :=
  if t = 4#3 then .src (.fp .f32) else if t = 5#3 then .src (.pair .bf16) else if t = 6#3 then .src (.pair .f16)
  else .src (.int (atomWidth t) (decide (t = 3#3)))

/-- An atomic's op and type: codes listed, and the bitwise ops on integer types only (R159). -/
def atomModOk (m : BitVec 6) (exch : Bool) : Bool :=
  let op := m.extractLsb' 3 3
  let t := m.extractLsb' 0 3
  t ≠ 7#3 ∧ op ≠ 7#3 ∧ (exch ∨ op ≠ 6#3) ∧ (3 ≤ op.toNat ∧ op.toNat ≤ 5 → t.toNat ≤ 3)

/-- A signature for the integer arithmetic of two or three operands (R105). -/
def sigInt (m : BitVec 6) (d a b c : Role) (ok : Bool) (sat : Bool) (mask : Nat) : Sig :=
  { d := d, a := a, b := b, c := c, modOk := ok && modIn m mask, satBit := if sat then some 3 else none, satOk := sat }

/-- A signature of the floating-point group (R113). -/
def sigFp (f : BitVec 3) (rounding ok : Bool) (m : BitVec 6) (d a b c : Role) : Sig :=
  { d := d, a := a, b := b, c := c, modOk := ok && decide (f.toNat ≤ 5) && (rounding || modIn m 7),
    rnd := if rounding then .high else .none, satOk := true, ftzOk := true }

/-- The imm32 of a form (R72). -/
def imm32Of (f : Form) : Word := if f.len = .l128 then f.x2 else f.x1

/-- `LOOP`'s body is 8 to 512 bytes (R97): the displacement less the instruction's length. -/
def loopBodyOk (f : Form) : Bool :=
  let n := (imm32Of f).toInt - (f.len.bytes : Int)
  decide (8 ≤ n ∧ n ≤ 512)

/-- The signature of an opcode and a form. -/
def sigOf (opc : BitVec 8) (f : Form) : Sig :=
  let m := f.mod
  let it := modIt m
  let itx := decide (it = 0#3 ∨ it = 2#3)
  let m0 := m = 0#6
  let w64 := m.getLsbD 0
  let b0 : Role := .src (.int (if w64 then 64 else 32) false)
  let d0 : Role := .dst (if w64 then 64 else 32)
  let ff := modIt m
  let cf := f.c.toNat
  let bf := f.b.toNat
  match opc.toNat with
  -- control (R92)
  | 0x00 => { modOk := m0 }
  | 0x01 => { modOk := m0, imm := .disp }
  | 0x02 => { a := src64, modOk := m0 }
  | 0x03 => { d := .slide, modOk := m0, imm := .disp }
  | 0x04 => { d := .slide, a := src64, modOk := m0 }
  | 0x05 => { modOk := m0 }
  | 0x06 => { modOk := m0 }
  | 0x07 => { a := .src (.int 32 true), modOk := m0 && loopBodyOk f, imm := .disp }
  | 0x08 => { modOk := m0 }
  | 0x0A => { a := src32, modOk := m0 }
  | 0x0B => { a := src32, modOk := m0 }
  -- predicates (R102)
  | 0x10 => { d := .res 0 7, a := srcIt it, b := srcIt it, modOk := decide (modBits m 5 3 ≤ 5) }
  | 0x11 => { d := .res 0 7, a := srcF ff, b := srcF ff, modOk := decide (ff.toNat ≤ 3) }
  | 0x12 => { d := .res 0 7, a := .res 0 7, b := .res 0 7, c := .res 0 7,
              modOk := modIn m 0x1F && decide (modBits m 1 0 ≤ 2) }
  | 0x13 => { d := d0, a := b0, b := b0, c := .res 0 7, modOk := modIn m 3 }
  | 0x14 => if m = 1#6 then { a := src32, b := src32 } else { d := .dst 32, modOk := m0 }
  | 0x15 => { d := .res 0 7, a := .src (srcType (modBits m 3 0)), b := src32,
              modOk := modIn m 0xF && decide (modBits m 3 0 ≤ 3 ∨ (6 ≤ modBits m 3 0 ∧ modBits m 3 0 ≤ 9)) }
  -- integers (R105)
  | 0x20 | 0x21 | 0x23 => sigInt m (dstIt it) (srcIt it) (srcIt it) .off true true 0xF
  | 0x22 => { d := dstIt it, a := srcIt it, b := srcIt it, c := .res 0 6, modOk := modIn m 0x37 && decide (it = 1#3 ∨ it = 3#3) }
  | 0x24 => { d := dstIt it, a := srcIt it, b := srcIt it, modOk := modIn m 7 && decide (it.toNat ≤ 3) }
  | 0x25 => sigInt m (dstIt it) (srcIt it) (srcIt it) (srcIt it) true true 0xF
  | 0x26 => sigInt m (.dst 64) (srcIt it) (srcIt it) (.src (.int 64 (decide (it = 1#3)))) (decide (it.toNat ≤ 1)) true 0xF
  | 0x27 => sigInt m (dstIt it) (srcIt it) .off .off (itSigned it) true 0xF
  | 0x28 | 0x29 => { d := dstIt it, a := srcIt it, b := srcIt it, modOk := modIn m 7 }
  | 0x2A => sigInt m (.dst 32) src32 src32 (srcIt it) (decide (it.toNat ≤ 1)) true 0x3F
  | 0x2B => sigInt m (.dst 32) src32 src32 (srcIt it) (decide (it.toNat ≤ 1)) true 0x1F
  -- bits (R107)
  | 0x30 | 0x31 | 0x32 => { d := dstIt it, a := srcIt it, b := srcIt it, modOk := modIn m 0x17 && itx }
  | 0x33 => { d := .rmw (if it = 2#3 then 64 else 32), a := srcIt it, b := srcIt it, c := srcIt it,
              modOk := modIn m 7 && itx, imm := .table }
  | 0x34 | 0x35 | 0x36 | 0x37 => { d := dstIt it, a := srcIt it, b := src32, modOk := modIn m 7 && itx }
  | 0x38 => { d := dstIt it, a := srcIt it, b := srcIt it, c := src32, modOk := modIn m 0x17 && itx }
  | 0x39 | 0x3A => { d := .dst 32, a := srcIt it, modOk := modIn m 7 && itx }
  | 0x3B => { d := dstIt it, a := srcIt it, modOk := modIn m 7 && itx }
  | 0x3C => { d := dstIt it, a := srcIt it, b := src32, modOk := modIn m 7 && decide (it.toNat ≤ 3) }
  | 0x3D => { d := dstIt it, a := srcIt it, b := srcIt it, c := src32, modOk := modIn m 7 && itx }
  | 0x3E => { d := .dst 32, a := src32, b := src32, c := src32, modOk := m0 }
  -- addresses (R111, R112)
  | 0x40 => { d := .dst 64, a := src64, b := src32, modOk := modIn m 0xF }
  | 0x41 => { d := .dst 64, a := if w64 then .off else src64, b := src32, c := .res 0 255,
              modOk := modIn m 0xF && decide (modBits m 3 1 ≤ 4) }
  -- floating point (R113)
  | 0x50 | 0x51 | 0x52 | 0x5E => sigFp ff true true m (dstF ff) (srcF ff) (srcF ff) .off
  | 0x53 => sigFp ff true true m (dstF ff) (srcF ff) (srcF ff) (srcF ff)
  | 0x54 | 0x55 => sigFp ff false true m (dstF ff) (srcF ff) (srcF ff) .off
  | 0x56 | 0x57 | 0x58 | 0x61 => sigFp ff true true m (dstF ff) (srcF ff) .off .off
  | 0x59 | 0x5A | 0x5B | 0x5C | 0x5D => sigFp ff true (decide (ff ≠ 1#3)) m (dstF ff) (srcF ff) .off .off
  | 0x5F => sigFp ff true true m (dstF ff) (srcF ff) src32 .off
  | 0x60 => sigFp ff true (decide (4 ≤ ff.toNat)) m (.dst 32) (srcF ff) (srcF ff) (.src (.fp .f32))
  -- conversion (R118 to R125)
  | 0x70 => { d := .dst (if typeIs64 bf then 64 else 32), a := .src (srcType cf), b := .tycode (cvtCodes cf), c := .tycode (cvtCodes bf),
              modOk := modIn m 0x1F, rnd := .low, satBit := some 3, ftzBit := some 4, satOk := true, ftzOk := true,
              srOk := true }
  | 0x71 => { d := .dst 32, a := .src (.fp .f32), b := .src (if modBits m 5 4 = 0 then .fp .f32 else .scale),
              c := .tycode [0x02, 0x03, 0x06, 0x07, 0x08, 0x09, 0x10, 0x14, 0x11, 0x15],
              modOk := decide (modBits m 5 4 ≤ 2), rnd := .low, satBit := some 3, satOk := true, srOk := true }
  | 0x72 => { d := .dst 32, a := .src (srcType cf), b := .src (if modBits m 5 4 = 0 then .fp .f32 else .scale),
              c := .tycode [0x02, 0x03, 0x06, 0x07, 0x08, 0x09, 0x10, 0x14],
              modOk := modIn m 0x30 && decide (modBits m 5 4 ≤ 2) }
  | 0x73 => { d := if cf = 0x02 ∨ cf = 0x03 then .dst 32 else .rmw 32, a := .src (.fp .f32), b := .src (.fp .f32),
              c := .tycode [0x02, 0x03, 0x06, 0x07, 0x09, 0x10, 0x14],
              modOk := modIn m 0x2F && !(m.getLsbD 5 && decide (cf = 0x02 ∨ cf = 0x03)),
              rnd := .low, satBit := some 3, satOk := true, srOk := true }
  | 0x74 => { d := .dst 64, a := if cf = 0x04 ∨ cf = 0x05 then .src (srcType cf) else src32, c := .tycode [0x04, 0x05, 0x06, 0x07, 0x09, 0x10, 0x14],
              modOk := modIn m 0x20 && !(m.getLsbD 5 && decide (cf = 0x04 ∨ cf = 0x05)) }
  | 0x75 => { d := .dst 32, a := src32, modOk := modIn m 7 && decide (it ≠ 0#3), cross := true }
  | 0x76 => { d := .dst 32, a := src32, modOk := modIn m 0xF && decide (it ≠ 0#3), cross := true }
  | 0x77 => { d := .dst 32, a := .src (.fp .f32), c := .tycode [0x02, 0x03, 0x06, 0x07, 0x08, 0x09, 0x10, 0x14],
              modOk := modIn m 3 && decide (modBits m 1 0 ≤ 2), cross := true }
  -- lanes and registers (R126)
  | 0x80 => if modBits m 1 0 = 3 then
              { d := .res 0 7, a := .res 0 7, b := if 6 ≤ modBits m 5 3 then .off else .src (.int 32 true), cross := true }
            else { d := .dst 32, a := .res 0 7, modOk := modIn m 7, cross := true }
  | 0x81 => { d := .dst (if m.getLsbD 5 then 64 else 32), a := .src (.int (if m.getLsbD 5 then 64 else 32) false),
              b := if modBits m 1 0 = 3 then .off else src32, modOk := decide (modBits m 4 2 ≤ 5), cross := true }
  | 0x82 => { d := .dst 32, a := b0, modOk := modIn m 1, cross := true }
  | 0x83 => { d := .dst 32,
              a := (match modBits m 4 2 with
                    | 0 => .src (.fp .f32) | 2 => .src (.fp .f16) | 3 => .src (.fp .bf16) | _ => src32),
              modOk := modIn m 0x1F && decide (modBits m 1 0 ≤ 2)
                && decide (modBits m 4 2 = 0 ∨ (2 ≤ modBits m 4 2 ∧ modBits m 4 2 ≤ 5)), cross := true }
  | 0x84 => { d := d0, a := b0, modOk := modIn m 1 }
  | 0x85 => { d := .kdst (if w64 then 64 else 32), a := b0, b := .src (.int 32 true), modOk := modIn m 1, cross := true }
  | 0x86 => { d := d0, modOk := modIn m 1 && (w64 || decide (f.x2 = 0#32)), imm := .imm64 }
  | 0x87 => { d := .res 0 15, a := src32, b := .src (.int 32 true), modOk := modIn m 1 }
  | 0x88 => { d := .dst 64, a := .res 0 15, modOk := m0 }
  | 0x89 => { d := .res 0 15, a := src32, modOk := modIn m 3 && decide (modBits m 1 0 ≤ 2) }
  | 0x8A => { d := .range true, a := .range false, b := .count, modOk := m0 }
  -- memory (R143)
  | 0x90 => { d := .dst (sizeWidth it), a := src64, b := src32, modOk := decide (it ≠ 7#3),
              freshOk := decide (modBits m 4 3 = 0), hintOk := true }
  | 0x91 => { a := src64, b := src32, c := srcSize it, modOk := decide (it ≠ 7#3), hintOk := true }
  | 0x92 => { d := .kdst (sizeWidth it), a := src64, b := src32, modOk := decide (it ≠ 7#3),
              freshOk := decide (modBits m 4 3 = 0), hintOk := true }
  | 0x93 => { a := src64, b := src32, c := srcSize it, modOk := decide (it ≠ 7#3), hintOk := true }
  | 0x94 => { d := .dst 32, a := .coords, c := .res 0 255, modOk := m0, hintOk := true }
  | 0x95 => { a := .coords, b := src32, c := .res 0 255, modOk := m0, hintOk := true }
  | 0x96 => { a := src64, b := src32, modOk := modIn m 0x23 && decide (modBits m 1 0 ≤ 2) }
  -- copies and windows (R151, R157, R158)
  | 0x98 => { a := src64, b := src64, c := .src (.int 32 true), modOk := m0 }
  | 0x99 | 0x9A => { d := .res 0 255, a := src64, b := src64, c := .src (.int 32 true), modOk := m0 }
  | 0x9B => { a := src64, c := .src (.int 32 true), modOk := m0 }
  | 0x9C | 0x9D => { d := .dst 32, a := src64, c := .src (.int 32 true), modOk := m0 }
  | 0x9E | 0x9F => { a := src64, modOk := m0 }
  | 0xA0 => { a := src64, c := .src (.int 32 true), modOk := modIn m 3 }
  | 0xA1 => { a := src64, c := .src (.int 32 true), modOk := modIn m 3, priv := true }
  -- atomics (R159, R164 to R168)
  | 0xB0 => { d := .dst (atomWidth it), a := src64, b := src32, c := srcAtom it, modOk := atomModOk m true }
  | 0xB1 => { d := d0, a := src64, b := b0, c := b0, modOk := modIn m 1 }
  | 0xB2 => { a := src64, b := src32, c := srcAtom it, modOk := atomModOk m false }
  | 0xB3 => { d := .res 0 3, a := src64, b := .src (.int 32 true), c := srcAtom it, modOk := atomModOk m true }
  | 0xB4 => { d := .vdst, a := .res 0 3, modOk := modIn m 1 }
  | 0xB5 => { d := dstIt it, a := src64, b := src32, c := srcIt it,
              modOk := decide (modBits m 5 3 ≤ 5) && decide (it.toNat ≤ 3) }
  | 0xB6 | 0xB7 | 0xB8 => { a := src64, modOk := modIn m 1 }
  -- barriers, fences, signing sets (R169 to R177)
  | 0xC0 | 0xC1 => { a := .barrier, modOk := m0 }
  | 0xC2 => { a := src64, b := .src (.int 32 true), c := .src (.int 32 true), modOk := modIn m 1 }
  | 0xC3 => { d := .dst 32, a := src64, b := .src (.int 32 true), modOk := modIn m 1 }
  | 0xC4 => { a := src64, b := .src (.int 32 true), modOk := modIn m 1 }
  | 0xC5 => { modOk := m0 }
  | 0xC6 => { modOk := modIn m 1 }
  | 0xC7 => { d := .threshold, a := .threshold, b := .threshold, c := .threshold, modOk := m0 }
  | 0xC8 => { d := .conv, a := .src (.int 32 true), modOk := m0 }
  -- tiles (R183)
  | 0xD0 => { d := .dst 32, a := .tile, modOk := modIn m 1 }
  | 0xD1 => { a := .tile, modOk := m0 }
  | 0xD2 => { d := .conv, a := .res 0 (if m.getLsbD 1 then 15 else 63), b := .res 0 255, c := src32, modOk := modIn m 3 }
  | 0xD3 => { d := .conv, a := .res 0 15, b := .res 0 255, c := src32, modOk := modIn m 0x3D, rnd := .high,
              satBit := some 2, satOk := true }
  | 0xD4 => { d := .conv, a := .res 0 15, modOk := modIn m 1 }
  | 0xD5 => { d := .conv, a := .res 0 15, b := .res 0 63, c := .res 0 63, modOk := modIn m 7 && decide (modBits m 2 1 ≤ 2) }
  | 0xD6 => { d := .conv, a := .res 0 15, b := .res 0 63, c := .res 0 63, modOk := modIn m 0x1F && decide (modBits m 2 1 ≤ 2) }
  | 0xD7 => { d := .conv, a := .vdirect, b := .res 0 15, c := .src (.int 32 true), modOk := modIn m 0xF && decide (modBits m 3 1 ≤ 4) }
  | 0xD8 => { d := .dst 32, a := .tile, modOk := m0 }
  | 0xD9 => { a := .tile, modOk := modIn m 3 && decide (modBits m 1 0 ≤ 2)
              && !(decide (0x050 ≤ f.a.toNat) && decide (f.a.toNat ≤ 0x053) && decide (modBits m 1 0 ≠ 0)) }
  | 0xDA => { d := .res 0 3, a := src64, modOk := modIn m 1 }
  | 0xDB => { d := .res 0 3, modOk := m0 }
  -- engines, identifiers, graphs (R196, R197, R202, R203)
  | 0xE0 => { a := src64, b := .engineFn, c := src32, modOk := modIn m 1, priv := decide (bf = 0x004 ∨ bf = 0x102) }
  | 0xE1 => { d := .dst 32, a := src64, b := .engineFn, c := src32, modOk := modIn m 1, priv := decide (bf = 0x004 ∨ bf = 0x102) }
  | 0xE2 | 0xE3 => { d := .res 0 255, a := src64, modOk := modIn m 1 }
  | 0xE4 => { d := .dst 32, a := src64, modOk := m0 }
  | 0xE5 => { d := .dst 32, a := .src (.int 32 true), b := .src (.int 32 true), modOk := m0 }
  -- system (R204)
  | 0xF0 => { d := .dst (if sysregIs64 f.a.toNat then 64 else 32), a := .sysreg, modOk := m0 }
  | 0xF1 => { d := .sysreg, a := .src (.int (if sysregIs64 f.d.toNat then 64 else 32) false), modOk := m0,
              priv := (match sysregInfo f.d.toNat with | some (_, p, _) => p | none => false) }
  | 0xF2 => { modOk := modIn m 1 }
  | 0xF3 | 0xF4 => { a := src64, modOk := modIn m 7, priv := true }
  | 0xF5 => { modOk := m0, priv := true }
  | 0xF6 => { a := .src (.int 32 true), modOk := m0, priv := true }
  | 0xF7 => { a := src64, c := .src (.int 32 true), modOk := m0, priv := true }
  | 0xF8 => { a := src64, modOk := modIn m 3 && decide (modBits m 1 0 ≤ 2), priv := true }
  | 0xF9 => { modOk := m0 }
  | 0xFA => { d := .dst 64, modOk := modIn m 1 }
  | 0xFB => { d := .dst 64, a := src32, b := .src (.int 32 true), modOk := m0 }
  | 0xFC => { a := .src (.int 32 true), modOk := m0 }
  | 0xFE => { a := src32, modOk := m0, priv := true }
  | _ => { modOk := false }

/-- The specifier of the long immediate (R75). -/
def immSpec : BitVec 10 := 0x3C0#10

/-- Whether a role reads its field as an operand specifier (R72). -/
def Role.isSpec : Role → Bool
  | .src _ | .dst _ | .rmw _ | .kdst _ | .vdst | .vdirect | .coords | .range _ | .count => true
  | .off | .res _ _ | .conv | .barrier | .slide | .threshold | .tycode _ | .sysreg | .tile | .engineFn => false

/-- Whether a role reads its field as a source. -/
def Role.isSource : Role → Bool
  | .src _ | .coords | .count => true
  | .range w => !w
  | .off | .dst _ | .rmw _ | .kdst _ | .vdst | .vdirect | .res _ _ | .conv | .barrier | .slide | .threshold
  | .tycode _ | .sysreg | .tile | .engineFn => false

/-- Width of a source in bits, for the pair rules (R71, R77). -/
def Role.width : Role → Nat
  | .src (.int w _) => w
  | .src (.fp f) => if f = .f64 then 64 else 32
  | .src (.pair _) | .src .scale => 32
  | .dst w | .rmw w | .kdst w => w
  | .vdst => 128
  | .off | .res _ _ | .conv | .barrier | .slide | .threshold | .tycode _ | .sysreg | .tile | .engineFn | .vdirect
  | .coords | .range _ | .count => 32

/-- Whether some field read as an operand specifier names the long immediate. -/
def usesImm (sg : Sig) (f : Form) : Bool :=
  (sg.d.isSpec && f.d = immSpec) || (sg.a.isSpec && f.a = immSpec) || (sg.b.isSpec && f.b = immSpec)
    || (sg.c.isSpec && f.c = immSpec)

/-- Whether the form carries the operand extension (R72). -/
def hasExt (sg : Sig) (f : Form) : Bool :=
  match f.len with
  | .l64 => false
  | .l96 => !(usesImm sg f || sg.imm = .disp || sg.imm = .table)
  | .l128 => sg.imm ≠ .imm64

/-- The operand extension, zero where the form has none (R73). -/
def extWord (sg : Sig) (f : Form) : Word := if hasExt sg f then f.x1 else 0#32

/-- The fields of the operand extension (R73). -/
def extHint (e : Word) : Bool := e.getLsbD 15
def extFresh (e : Word) : BitVec 2 := e.extractLsb' 13 2
def extFtz (e : Word) : Bool := e.getLsbD 12
def extSat (e : Word) : Bool := e.getLsbD 11
def extRnd (e : Word) : BitVec 3 := e.extractLsb' 8 3
def extEdge (e : Word) : BitVec 2 := e.extractLsb' 6 2
def extLsc (e : Word) : BitVec 2 := e.extractLsb' 4 2
def extLsb (e : Word) : BitVec 2 := e.extractLsb' 2 2
def extLsa (e : Word) : BitVec 2 := e.extractLsb' 0 2

/-- The rounding code in MOD, where the opcode keeps one (R74). -/
def modRnd (sg : Sig) (f : Form) : BitVec 3 :=
  match sg.rnd with
  | .none => 0#3
  | .low => f.mod.extractLsb' 0 3
  | .high => f.mod.extractLsb' 3 3

/-- A control bit of MOD. -/
def modCtl (b : Option Nat) (f : Form) : Bool :=
  match b with
  | some i => f.mod.getLsbD i
  | none => false

/-- The rounding code that governs (R74). -/
def rndCode (sg : Sig) (f : Form) : BitVec 3 := if hasExt sg f then extRnd f.x1 else modRnd sg f

/-- The saturate control that governs (R74). -/
def satCtl (sg : Sig) (f : Form) : Bool := if hasExt sg f then extSat f.x1 else modCtl sg.satBit f

/-- The flush control that governs (R74). -/
def ftzCtl (sg : Sig) (f : Form) : Bool := if hasExt sg f then extFtz f.x1 else modCtl sg.ftzBit f

/-- The lane source of a field (R73): 0 own, 1 left, 2 right. -/
def laneSource (sg : Sig) (f : Form) (field : Nat) : BitVec 2 :=
  let e := extWord sg f
  if field = 0 then extLsa e else if field = 1 then extLsb e else if field = 2 then extLsc e else 0#2

/-- A specifier of a vector register: direct or indirect (R75). -/
def specIsVec (x : BitVec 10) : Bool := x.toNat < 0x300 ∨ (0x360 ≤ x.toNat ∧ x.toNat < 0x390)
def specIsDirect (x : BitVec 10) : Bool := x.toNat < 0x300
def specIsUniform (x : BitVec 10) : Bool := 0x300 ≤ x.toNat ∧ x.toNat < 0x360
def specIsIndirect (x : BitVec 10) : Bool := 0x360 ≤ x.toNat ∧ x.toNat < 0x390
def specIsSmall (x : BitVec 10) : Bool := 0x390 ≤ x.toNat ∧ x.toNat < 0x3B0
def specIsSpecial (x : BitVec 10) : Bool := 0x3B1 ≤ x.toNat ∧ x.toNat ≤ 0x3BA
def specIsHold (x : BitVec 10) : Bool := 0x3C1 ≤ x.toNat ∧ x.toNat ≤ 0x3C3
def specIsReserved (x : BitVec 10) : Bool := (0x3BB ≤ x.toNat ∧ x.toNat ≤ 0x3BF) ∨ 0x3C4 ≤ x.toNat

/-- Field number of HOLD.src: 0 A, 1 B, 2 C (R69). -/
def fieldSpec (f : Form) (i : Nat) : BitVec 10 := if i = 0 then f.a else if i = 1 then f.b else f.c
def fieldRole (sg : Sig) (i : Nat) : Role := if i = 0 then sg.a else if i = 1 then sg.b else sg.c

/-- HOLD is malformed (R36, R71, R81). -/
def holdBad (sg : Sig) (f : Form) : Bool :=
  if f.holdSrc = 3#2 then true
  else if f.holdEntry = 0#2 then f.holdSrc ≠ 0#2
  else
    let i := f.holdSrc.toNat
    let r := fieldRole sg i
    let x := fieldSpec f i
    !r.isSource || 64 ≤ r.width || specIsSmall x || x = 0x3B0#10 || specIsSpecial x || x = immSpec || specIsHold x
      || laneSource sg f i ≠ 0#2

/-- A lane source that ILLMOD forbids: code 11, a field not read as a source, or any on a cross-lane instruction
(R38, R74, R91). -/
def laneSrcBad (sg : Sig) (ls : BitVec 2) (r : Role) : Bool :=
  ls = 3#2 || (ls ≠ 0#2 && (!r.isSource || sg.cross))

/-- The conditions of ILLMOD (R81, R82 step 6). -/
def illMod (sg : Sig) (f : Form) : Bool :=
  let e := extWord sg f
  let ext := hasExt sg f
  !sg.modOk
    || (ext && (f.x1.extractLsb' 16 16 ≠ 0#16 || extEdge e = 3#2 || extFresh e = 3#2
      || (modRnd sg f ≠ 0#3) || modCtl sg.satBit f || modCtl sg.ftzBit f))
    || (rndCode sg f ≠ 0#3 && sg.rnd = .none) || (rndCode sg f = 6#3 && !sg.srOk)
    || (satCtl sg f && !sg.satOk) || (ftzCtl sg f && !sg.ftzOk)
    || (extFresh e ≠ 0#2 && !sg.freshOk) || (extHint e && !sg.hintOk)
    || laneSrcBad sg (extLsa e) sg.a || laneSrcBad sg (extLsb e) sg.b || laneSrcBad sg (extLsc e) sg.c
    || (f.len = .l128 && sg.imm = .none && !usesImm sg f && f.x2 ≠ 0#32)
    || (sg.imm = .disp && (imm32Of f).extractLsb' 0 2 ≠ 0#2)
    || (sg.imm = .table && (imm32Of f).extractLsb' 16 16 ≠ 0#16)
    || holdBad sg f

/-- Alignment of a register number for a width (R42, R77, R143). -/
def regAligned (n w : Nat) : Bool := if w = 128 then n % 4 = 0 else if w = 64 then n % 2 = 0 else true

/-- Registers of a width. -/
def regCount (w : Nat) : Nat := if w = 128 then 4 else if w = 64 then 2 else 1

/-- The launch's limits that operand checks use (R217): window, uniform count, highest convergence register and
barrier. -/
structure Limits where
  window : Nat
  ucount : Nat
  chi : Nat
  bhi : Nat
  deriving DecidableEq, Repr

/-- A vector or uniform register named directly is past the window or the count, or misaligned (R17, R20, R77). -/
def regBad (l : Limits) (x : BitVec 10) (w : Nat) : Bool :=
  if specIsDirect x then l.window < x.toNat + regCount w || !regAligned x.toNat w
  else if specIsUniform x then l.ucount < x.toNat - 0x300 + regCount w || !regAligned (x.toNat - 0x300) w
  else false

/-- The conditions of ILLOPND that belong to the whole issue group, for one field (R81, R82 step 7). -/
def fieldBad (l : Limits) (sg : Sig) (f : Form) (r : Role) (x : BitVec 10) (ls : BitVec 2) : Bool :=
  let immBad := x = immSpec && (f.len = .l64 || sg.imm = .disp || sg.imm = .table)
  let lsBad := ls ≠ 0#2 && !specIsDirect x
  match r with
  | .off => false
  | .src _ => specIsReserved x || immBad || regBad l x r.width || (specIsHold x && 64 ≤ r.width) || lsBad
  | .dst w | .rmw w =>
    regBad l x w || !(specIsVec x || specIsUniform x || x = 0x3B0#10)
  | .kdst w => !specIsUniform x || regBad l x w
  | .vdst => !specIsVec x || regBad l x 128
  | .res lo hi => x.toNat < lo || hi < x.toNat
  | .conv => l.chi < x.toNat || 15 < x.toNat
  | .barrier => l.bhi < x.toNat || 15 < x.toNat
  | .slide => l.window < x.toNat
  | .threshold => 63 < x.toNat && x.toNat ≠ 0x3FF
  | .tycode ts => !ts.contains x.toNat
  | .sysreg => sysregInfo x.toNat = none
  | .tile => !(x.toNat < 0x50 || (0x050 ≤ x.toNat && x.toNat ≤ 0x053))
  | .engineFn => false
  | .vdirect => !specIsDirect x || l.window ≤ x.toNat
  | .coords => !(specIsDirect x || specIsUniform x) || regBad l x 32 || lsBad
  | .range _ => !specIsVec x || lsBad || (specIsDirect x && l.window ≤ x.toNat)
  | .count => specIsReserved x || immBad || regBad l x 32 || lsBad
      || !(specIsSmall x || x = immSpec || specIsUniform x)

/-- ILLOPND for the whole issue group (R82 step 7). -/
def illOpnd (l : Limits) (sg : Sig) (f : Form) : Bool :=
  fieldBad l sg f sg.a f.a (laneSource sg f 0) || fieldBad l sg f sg.b f.b (laneSource sg f 1)
    || fieldBad l sg f sg.c f.c (laneSource sg f 2) || fieldBad l sg f sg.d f.d 0#2

end Sys2Proof.Machine
end

