-- ==== Sys2Proof/Machine/Ops.lean ====
section
/-! DEFINITION. Threads: registers and frames, counters, the end of an instruction, exits and barriers, and taking a
trap (R16 to R20, R30, R82 to R87, R95 to R98, R169 to R171, R227, R231, R343, R344, R353, R377). -/

namespace Sys2Proof.Machine

/-! Places of a thread. -/

/-- The launch record of a thread's grid. -/
def launchOf (s : State) (t : Nat) : Launch :=
  ((gridOf s t).map (·.launch)).getD ⟨0, 0, 2, 1, 1, 1, 1, 0, 0, 4, 1, 0, 0, 0, 0, 0, 0, 0⟩

/-- W, the window's size (R17). -/
def windowOf (s : State) (t : Nat) : Nat := (launchOf s t).window

/-- Q, the resident reservation (R19). -/
def resvOf (s : State) (t : Nat) : Nat := (launchOf s t).resv

/-- Die and site of a thread's team. -/
def coreOf (s : State) (t : Nat) : Nat × Nat := ((teamOf s t).map fun m => (m.die, m.site)).getD (0, 0)

/-- Whether a thread is privileged (R343). -/
def privileged (s : State) (t : Nat) : Bool :=
  ((s.threads[t]?).map fun th => decide (th.routine ≠ .none)).getD false
    || ((contextOf s t).map fun c => c.sys || c.bringUp).getD false

/-- Whether a thread's registers v0 to v7 name scratch registers (R347, R350). -/
def inRoutine (s : State) (t : Nat) : Bool :=
  ((s.threads[t]?).map fun th => decide (th.routine = .save ∨ th.routine = .restore)).getD false

/-- The limits of a thread's launch record (R217); in a routine v0 to v7 are all the vector registers it names
(R347). -/
def limitsOf (s : State) (t : Nat) : Limits :=
  let l := launchOf s t
  ⟨if inRoutine s t then 8 else l.window, l.ucount, l.chi, l.bhi⟩

/-! Registers. -/

/-- Where a register is: a stack position, a scratch register, a uniform register, or nowhere. -/
inductive Loc where
  | vec (pos : Nat)
  | scr (k : Nat)
  | uni (k : Nat)
  | void
  deriving DecidableEq, Repr

/-- A stack position; one nothing has written reads as a free value (R17, R218; log 2). -/
def stackReg (th : Thread) (pos : Nat) : Word := (lookupNat th.regs pos).getD (Config.freeReg th.seed pos)

/-- A scratch register of a routine (R347). -/
def scratchReg (th : Thread) (k : Nat) : Word := (lookupNat th.scratch k).getD (Config.freeReg th.seed (4096 + k))

/-- A uniform register of a thread's group (R20). -/
def uniReg (s : State) (t k : Nat) : Word := ((groupOf s t).bind fun g => g.ks[k]?).getD 0

/-- One register. -/
def readLoc (s : State) (t : Nat) (l : Loc) (i : Nat) : Word :=
  match l, s.threads[t]? with
  | .vec p, some th => stackReg th (p + i)
  | .scr k, some th => scratchReg th (k + i)
  | .uni k, some _ => uniReg s t (k + i)
  | .void, some _ => 0
  | _, none => 0

/-- A pair, low register first (R42). -/
def readPair (s : State) (t : Nat) (l : Loc) : DWord := readLoc s t l 1 ++ readLoc s t l 0

/-- Writes a stack position, clearing its poison (R362). -/
def setStack (th : Thread) (pos : Nat) (w : Word) : Thread :=
  { th with regs := insertNat th.regs pos w, poison := th.poison.filter (· ≠ pos) }

/-- Writes consecutive stack positions. -/
def setStacks : Thread → Nat → List Word → Thread
  | th, _, [] => th
  | th, pos, w :: ws => setStacks (setStack th pos w) (pos + 1) ws

/-- Writes scratch registers. -/
def setScratches : Thread → Nat → List Word → Thread
  | th, _, [] => th
  | th, k, w :: ws => setScratches { th with scratch := insertNat th.scratch k w } (k + 1) ws

/-- Writes consecutive uniform registers. -/
def setUnis : List Word → Nat → List Word → List Word
  | ks, _, [] => ks
  | ks, k, w :: ws => setUnis (ks.set k w) (k + 1) ws

/-- Writes registers through a place. -/
def writeLoc (s : State) (t : Nat) (l : Loc) (ws : List Word) : State :=
  match l with
  | .vec p => modThread s t fun th => setStacks th p ws
  | .scr k => modThread s t fun th => setScratches th k ws
  | .uni k => modGroup s (((s.threads[t]?).map (·.group)).getD 0) fun g => { g with ks := setUnis g.ks k ws }
  | .void => s

/-- The registers a value of a width fills, low first (R42, R143). -/
def valueWords (w : Nat) (v : DWord) : List Word :=
  if w = 64 then [v.extractLsb' 0 32, v.extractLsb' 32 32] else [v.extractLsb' 0 32]

/-- A predicate; p7 is true (R29). -/
def predOf (th : Thread) (n : Nat) : Bool := if n = 7 then true else th.preds.getLsbD n

/-- Writes a predicate; a write of p7 is discarded (R29). -/
def setPred (th : Thread) (n : Nat) (b : Bool) : Thread :=
  if n < 7 then
    { th with preds := (th.preds &&& ~~~ (BitVec.ofNat 7 (2 ^ n))) ||| (if b then BitVec.ofNat 7 (2 ^ n) else 0) }
  else th

/-- Fresh undefined values for stack positions (R17; log 2). -/
def undefStack (s : State) (t lo n : Nat) : State :=
  let seed := s.seed
  let s := { s with seed := seed + 1 }
  modThread s t fun th => setStacks th lo ((List.range n).map fun i => Config.freeReg seed (lo + i))

/-! Frames (R18, R19). -/

/-- Window bases from the current frame down to depth 0. -/
def frameBases : Nat → List Frame → List Nat
  | _, [] => []
  | base, [_] => [base]
  | base, _ :: g :: r => base :: frameBases (base - g.slide) (g :: r)

/-- The call depth (R18). -/
def depthOf (th : Thread) : Nat := th.frames.length - 1

/-- The window base at a depth. -/
def baseAt (th : Thread) (d : Nat) : Nat := ((frameBases th.wb th.frames).reverse[d]?).getD th.wb

/-- The depth of the frame that holds a stack position. -/
def frameOfPos (th : Thread) (pos : Nat) : Nat :=
  match (List.range th.frames.length).reverse.find? fun d => baseAt th d ≤ pos with
  | some d => d
  | none => 0

/-- Positions from the bottom of the resident run to the window top (R94). -/
def residentSpan (th : Thread) (w : Nat) : Nat :=
  if depthOf th < th.resident then 0 else th.wb + w - baseAt th th.resident

/-- FILL or STKLIM for the first position in a frame that is not resident (R27). -/
def residency (th : Thread) (w q : Nat) (ps : List Nat) : Option TrapInfo :=
  match ps.find? fun p => frameOfPos th p < th.resident with
  | none => none
  | some p =>
    let d := frameOfPos th p
    let need := th.wb + w - baseAt th d
    if q < need then some ⟨cSTKLIM, d, 0, need⟩ else some (trapAt cFILL d)

/-! Counters (R30). -/

/-- A counter of a thread. -/
def counterOf (th : Thread) : Ctr → Nat
  | .ld => th.ld
  | .st => th.st
  | .cp => th.cp
  | .tl => th.tl
  | .none => 0

/-- Raises a counter by one. -/
def raiseCtr (s : State) (t : Nat) (c : Ctr) : State :=
  modThread s t fun th => match c with
    | .ld => { th with ld := th.ld + 1 }
    | .st => { th with st := th.st + 1 }
    | .cp => { th with cp := th.cp + 1 }
    | .tl => { th with tl := th.tl + 1 }
    | .none => th

/-- Lowers a counter by one. -/
def lowerCtr (s : State) (t : Nat) (c : Ctr) : State :=
  modThread s t fun th => match c with
    | .ld => { th with ld := th.ld - 1 }
    | .st => { th with st := th.st - 1 }
    | .cp => { th with cp := th.cp - 1 }
    | .tl => { th with tl := th.tl - 1 }
    | .none => th

/-- Where a scratch register stands among positions: above every stack position. -/
def scratchPos (k : Nat) : Nat := 4096 + k

/-- Registers of a width from a place, as positions. -/
def spanPos (l : Loc) (n : Nat) : List Nat :=
  match l with
  | .vec p => (List.range n).map (p + ·)
  | .scr k => (List.range n).map (scratchPos k + ·)
  | .uni _ | .void => []

/-- Registers of a width from a place, as stack positions. -/
def stackPos (l : Loc) (n : Nat) : List Nat := match l with | .vec p => (List.range n).map (p + ·) | _ => []

/-- Registers of a width from a place, as uniform registers. -/
def spanUni (l : Loc) (n : Nat) : List Nat := match l with | .uni k => (List.range n).map (k + ·) | _ => []

/-- Whether an operation's destination holds some of a thread's registers pending (R21, R26). -/
def destPending (s : State) (t : Nat) (owner : Nat) (d : Dest) (ps us : List Nat) : Bool :=
  match d with
  | .vec _ _ lo len => owner = t ∧ ps.any fun p => lo ≤ p ∧ p < lo + len
  | .uni g k n => ((s.threads[t]?).map (·.group)) = some g ∧ us.any fun u => k ≤ u ∧ u < k + n
  | .scratch k n => owner = t ∧ ps.any fun p => scratchPos k ≤ p ∧ p < scratchPos k + n
  | .none => false

/-- Registers that `TMOVV` gives each signer (R192). -/
def movvCount (m : BitVec 6) : Nat := 2 ^ (m.toNat / 2 % 8)

/-- Whether a signature of `TMOVV` holds some of a thread's stack positions pending (R192). -/
def sigPending (t : Nat) (ps : List Nat) (g : Signature) : Bool :=
  g.tid = t && g.opc = 0xD7#8 && ps.any fun p => g.pos ≤ p ∧ p < g.pos + movvCount g.form.mod

/-- Whether `TMOVV` holds some of a thread's stack positions pending until its completion (R192). -/
def movvPending (s : State) (t : Nat) (ps : List Nat) : Bool :=
  ((teamOf s t).any fun m => m.convs.any fun c => c.sigs.any (sigPending t ps))
    || s.cores.any fun c => c.ops.any fun o => o.signers.any (sigPending t ps)

/-- Whether some of these registers of a thread are pending. -/
def anyPending (s : State) (t : Nat) (ps us : List Nat) : Bool :=
  (s.accs.any fun a => destPending s t a.tid a.dest ps us) || (s.engines.any fun e => destPending s t e.tid e.dest ps us)
    || movvPending s t ps

/-! The end of an instruction in a thread. -/

/-- The PC after a fall through, and the loop state it leaves (R98). -/
def fallThrough (th : Thread) (pc : DWord) (len : Nat) : Thread :=
  let next := pc + BitVec.ofNat 64 len
  match th.frames with
  | f :: rest =>
    (match f.loop with
     | some l =>
       if next = l.stop ∧ l.start ≤ pc ∧ pc < l.stop then
         if 1 < l.remaining.toNat then
           { th with pc := l.start, frames := { f with loop := some { l with remaining := l.remaining - 1, version := 0 } } :: rest }
         else { th with pc := next, frames := { f with loop := none } :: rest }
       else { th with pc := next }
     | none => { th with pc := next })
  | [] => { th with pc := next }

/-- A thread is ready at a clk, its age from then (R33). -/
def becomeReady (th : Thread) (clk : Nat) : Thread := { th with wait := .ready, age := clk, promoted := false }

/-- A thread completes an instruction by falling through. -/
def advance (s : State) (t : Nat) (pc : DWord) (len : Nat) : State :=
  modThread s t fun th => becomeReady { fallThrough th pc len with counted := none } (s.clk + 1)

/-- A thread continues at a target. -/
def goto (s : State) (t : Nat) (target : DWord) : State :=
  modThread s t fun th => becomeReady { th with pc := target, counted := none } (s.clk + 1)

/-- A thread holds at its instruction. -/
def holdAt (s : State) (t : Nat) (w : Wait) : State := modThread s t fun th => { th with wait := w }

/-- Sets bits of the sticky flags of a thread's group (R56). -/
def orFlags (s : State) (t : Nat) (fl : Flags) : State :=
  if fl = 0#5 then s
  else modGroup s (((s.threads[t]?).map (·.group)).getD 0) fun g => { g with fpctl := g.fpctl ||| fl.setWidth 32 }

/-! Barriers (R169 to R171, R231). -/

/-- Whether every thread of some is waiting in an episode, or has exited with its accesses performed. -/
def allArrived (s : State) (ts waiting : List Nat) : Bool :=
  ts.all fun t => waiting.contains t || (threadExited s t && !s.accs.any fun a => a.owners.contains t)

/-- Releases the threads of an episode with the largest ptime among the arrivals (R169). -/
def releaseEpisode (s : State) (e : Episode) (ts : List Nat) : State :=
  let top := ts.foldl (fun a t => max a (((s.threads[t]?).map (·.ptime)).getD 0)) 0
  e.waiting.foldl (fun s t => raisePtime (advance s t e.pc e.len) t top) s

/-- Threads of a cluster. -/
def clusterThreads (s : State) (c : Nat) : List Nat :=
  match s.clusters[c]? with
  | some k => k.teams.flatMap fun m => teamThreads s m
  | none => []

/-- Completes the team's episode, or its cluster's, when every thread has arrived. -/
def settleBarriers (s : State) (team : Nat) : State :=
  match s.teams[team]? with
  | none => s
  | some tm =>
    let s := match tm.episode with
      | some e =>
        if allArrived s (teamThreads s team) e.waiting then
          releaseEpisode (modTeam s team fun m => { m with episode := none }) e (teamThreads s team)
        else s
      | none => s
    match (s.clusters[tm.cluster]?).bind (·.episode) with
    | some e =>
      if allArrived s (clusterThreads s tm.cluster) e.waiting then
        releaseEpisode (modCluster s tm.cluster fun c => { c with episode := none }) e (clusterThreads s tm.cluster)
      else s
    | none => s

/-- An operation has ended: threads that wait for it in a fence have its owner's ptime at least (R174). -/
def raiseFences (s : State) (id owner : Nat) : State :=
  let pt := ((s.threads[owner]?).map (·.ptime)).getD 0
  { s with threads := s.threads.map fun th => match th.wait with
      | .fence accs ops => if accs.contains id ∨ ops.contains id then { th with ptime := max th.ptime pt } else th
      | _ => th }

/-! Memory as the machine's own stores reach it. -/

/-- Coherent bytes of a context's virtual range as a read returns them (R254); none where the translation fails. -/
def virtBytes (s : State) (c va n : Nat) : Option (List Byte) :=
  let ps := rangePieces s c va n
  if ps.all fun p => match p.2.2 with | .ok _ => true | .pagef | .prot => false then
    some (ps.flatMap fun p => match p.2.2 with
      | .ok x => if lbcData x then lbcBytes s x.pa p.2.1 else currentBytes s x.pa p.2.1
      | .pagef | .prot => [])
  else none

/-- Sectors that pieces cover whole. -/
def pieceWholes (ps : List (Nat × Nat)) : List Nat :=
  (pieceSectors ps).filter fun sec => ps.any fun p => p.1 ≤ sec * 64 ∧ sec * 64 + 64 ≤ p.1 + p.2

/-- Sectors written whole take a new tag, each under its own page's key (R148, R354). -/
def retagAll (s : State) (secs : List Nat) (ks : List (Nat × Nat)) : State :=
  secs.foldl (fun s sec => retag s sec (keyIn ks sec)) s

/-- The checks of a store of n bytes at a context's virtual address, by a thread or by the device. -/
def storeChecks (s : State) (c : Nat) (t : Option Nat) (va n : Nat) : Checked :=
  rangeChecks s c t va needW (pieceWholes (physPieces (rangePieces s c va n))) [(va, n)]

/-- Stores bytes at a context's virtual address as one event of the device, with the checks of a store. -/
def virtStore (s : State) (c va : Nat) (bs : List Byte) (floor : Nat) : Except TrapInfo (State × Nat) :=
  match storeChecks s c none va bs.length with
  | .trap i => .error i
  | .hold _ => .error (trapAt cRLOCK va)
  | .ok ps _ ks =>
    let s := retagAll s (pieceWholes ps) ks
    let (s, _, ts) := ps.foldl (fun (acc : State × List Byte × Nat) p =>
      let (s, ts) := writeBytesNow acc.1 p.1 (acc.2.1.take p.2) (some c) acc.2.2
      (s, acc.2.1.drop p.2, ts)) (s, bs, floor)
    .ok (s, ts)

/-- Bytes at physical pieces stored through a core's L1 above a floor; the last stamp. -/
def storePieces (s : State) (die site c : Nat) (ps : List (Nat × Nat)) (bs : List Byte) (ms wb : Bool) (floor : Nat) :
    State × Nat :=
  let (s, _, ts) := ps.foldl (fun (acc : State × List Byte × Nat) p =>
    let (s, ts) := (sectorsOf p.1 p.2).foldl (fun (a : State × Nat) sec =>
      let lo := max p.1 (sec * 64)
      let hi := min (p.1 + p.2) (sec * 64 + 64)
      let x := secPut 0 (lo - sec * 64) ((acc.2.1.drop (lo - p.1)).take (hi - lo))
      coreWrite a.1 die site c sec x (BitVec.ofNat 64 ((2 ^ (hi - lo) - 1) * 2 ^ (lo - sec * 64))) ms wb a.2) (acc.1, acc.2.2)
    (s, acc.2.1.drop p.2, ts)) (s, bs, floor)
  (s, ts)

/-- Bytes at physical pieces loaded by a thread through its core's L1. -/
def loadPieces (s : State) (t die site c : Nat) (ps : List (Nat × Nat)) (ms wb : Bool) : State × List Byte :=
  ps.foldl (fun (acc : State × List Byte) p =>
    let (s, bs) := (sectorsOf p.1 p.2).foldl (fun (a : State × List Byte) sec =>
      let (s, v) := coreRead a.1 t die site c sec ms wb
      (s, a.2 ++ secGet v 0 64)) (acc.1, [])
    (s, acc.2 ++ (bs.drop (p.1 % 64)).take p.2)) (s, [])

/-! Stopping (R344, R377). -/

/-- Threads of a context that have not exited. -/
def ctxThreads (s : State) (c : Nat) : List Nat :=
  (List.range s.threads.length).filter fun t => ctxOf s t = c && !threadExited s t

/-- Failures of the running nodes of a context's graphs with a code (R327, R344). -/
def nodeFailures (s : State) (c code addr : Nat) : List Instr :=
  (List.range s.graphs.length).flatMap fun g =>
    match s.graphs[g]? with
    | some gr =>
      if gr.ctx = c ∧ !gr.finished then
        (List.range gr.nodes.length).filterMap fun n =>
          match gr.nodes[n]? with
          | some nd => if nd.state = .running then some (.nodeFail g n code addr) else none
          | none => none
      else []
    | none => []

/-- A context stops: every thread at once, its running nodes fail, the host is told (R344). -/
def stopContext (s : State) (c code addr : Nat) (record : List Byte) (second : Option Nat) : State :=
  if ((s.contexts[c]?).map (·.stopped)).getD false then s
  else
    let ctxid := ((s.contexts[c]?).map (·.ctxid)).getD 0
    let fails := nodeFailures s c code addr
    let s := (ctxThreads s c).foldl (fun s t => holdAt (dropMonitor s t) t .stopped) s
    let s := modCtx s c fun k => { k with stopped := true }
    { s with out := s.out ++ [.ctxStopped ctxid record second], net := s.net ++ fails }

/-- A team's slots, tiles and queues become free (R184, R227); what an operation on the core still works with keeps its
contents for that operation. -/
def releaseClaims (c : Core) (team : Nat) : Core :=
  let busy := c.ops.any fun o => o.team = team
  { c with
    slots := c.slots.map fun x => if x.claim = some team then (if busy then { x with claim := none } else slotFree) else x
    accs := c.accs.map fun x => if x.claim = some team then (if busy then { x with claim := none } else accFree) else x
    mqs := c.mqs.map fun x => if x.claim = some team then (if busy then { x with claim := none } else ⟨none, []⟩) else x }

/-! Records (R84, R85). -/

/-- A thread's trap: what it reports, the instruction's PC, words and length, whether it resumes after it, and the
threads of its issue group. -/
structure TrapReq where
  tid : Nat
  info : TrapInfo
  pc : DWord
  len : Nat
  word0 : DWord
  word1 : DWord
  issued : List Nat
  deriving DecidableEq, Repr

/-- Whether a code resumes at the next instruction (R83). -/
def resumesNext (code : Nat) : Bool := code = cBKPT ∨ code = cTRAP

/-- Whether R83 gives a code no resume point. -/
def noResume (code : Nat) : Bool := code = cPROT ∨ code = cPREEMPT ∨ code = cRESTCAP ∨ code = cFRAMEERR

/-- A mask of lanes. -/
def laneMask (s : State) (ts : List Nat) : BitVec 32 :=
  ts.foldl (fun m t => m ||| BitVec.ofNat 32 (2 ^ ((s.threads[t]?).map (·.lane)).getD 0)) 0#32

/-- The 256 bytes of a trap record (R85); busy is set whenever one is written. -/
def recordBytes (s : State) (g : Nat) (r : TrapReq) (mask : BitVec 32) : List Byte :=
  let c := ctxOf s r.tid
  let gr := s.groups[g]?
  let replay := !resumesNext r.info.code && !noResume r.info.code
  let w0 := r.info.code + 256 * 1 + 2 ^ 16 * ((gr.map (·.slot)).getD 0) + 2 ^ 22 * ((gr.map (·.part)).getD 0)
    + 2 ^ 25 + (if replay then 2 ^ 26 else 0) + 2 ^ 32 * (((s.contexts[c]?).map (·.ctxid)).getD 0)
  let resume : Nat := if noResume r.info.code then 0
    else if resumesNext r.info.code then (r.pc + BitVec.ofNat 64 r.len).toNat else r.pc.toNat
  let issued := laneMask s (r.issued.filter fun t => ((s.threads[t]?).map (·.group)) = some g)
  let low := s.threads[r.tid]?
  let cnt := (low.map fun th => th.ld + 2 ^ 8 * th.st + 2 ^ 16 * th.cp + 2 ^ 24 * th.tl).getD 0
  let lane (i : Nat) : Option Thread := (s.threads.find? fun th => th.group = g ∧ th.lane = i)
  bytesOf 8 w0 ++ bytesOf 8 r.pc.toNat ++ bytesOf 8 resume ++ bytesOf 8 (mask.toNat + 2 ^ 32 * issued.toNat)
    ++ bytesOf 8 r.info.addr ++ bytesOf 8 r.info.extra0 ++ bytesOf 8 r.info.extra1
    ++ bytesOf 8 ((low.map (·.ptime)).getD 0) ++ bytesOf 8 r.word0.toNat ++ bytesOf 8 r.word1.toNat
    ++ bytesOf 8 ((gr.map fun x => x.fpctl.toNat).getD 0) ++ bytesOf 8 cnt
    ++ (List.range 32).flatMap (fun i => bytesOf 2 (((lane i).map (·.wb)).getD 0))
    ++ (List.range 32).flatMap (fun i => bytesOf 2 (((lane i).map depthOf).getD 0))
    ++ List.replicate 32 0

/-- A group's record address (R84). -/
def recordAddr (s : State) (g : Nat) : Nat :=
  match s.groups[g]? with
  | none => 0
  | some gr =>
    match s.teams[gr.team]? with
    | none => 0
    | some tm =>
      let c := ((s.grids[tm.grid]?).map (·.ctx)).getD 0
      let base := ((s.contexts[c]?).map fun k => k.traprec.toNat / 256 * 256).getD 0
      base + 256 * (((tm.die * 48 + tm.site) * 6 + gr.part) * 48 + gr.slot)

/-- What a record's stores meet (R84, R87): they are under way, or a thread's own copy holds them up, or their page is
not there, or they trap. -/
inductive RecordOut where
  | sent (s : State) (acc : Nat)
  | held (w : Wait)
  | fault (i : TrapInfo)
  | trap (i : TrapInfo)
  deriving DecidableEq, Repr

/-- Sends a group's record for the threads that took it, as their stores: it is performed once their earlier accesses
have been, in the package order (R84, R85, R260); `stop`: the context stops with it. -/
def sendRecord (s : State) (g : Nat) (r : TrapReq) (ts : List Nat) (stop : Bool) : RecordOut :=
  let a := recordAddr s g
  let bs := recordBytes s g r (laneMask s ts)
  let c := ctxOf s r.tid
  match storeChecks s c (some r.tid) a bs.length with
  | .trap i => if i.code = cPAGEF then .fault i else .trap i
  | .hold w => .held w
  | .ok ps x ks =>
    let (d, site) := coreOf s r.tid
    let acc : Access :=
      { id := s.nextId, tid := r.tid, owners := ts, ctx := c, die := d, site := site, issue := s.issueNo,
        kind := .record r.info.code stop, place := .phys ps, size := bs.length, va := a, keys := ks, ms := x.ms, lbc := false,
        writeBack := false, bytes := bs, cmp := BitVec.ofNat 64 r.info.addr, dest := .none, ctr := .none, node := none,
        wholes := pieceWholes ps, copies := [], peeked := [] }
    .sent { s with accs := s.accs ++ [acc], nextId := s.nextId + 1 } s.nextId

/-- A group's record is busy for the threads that took it (R87). -/
def busyRecord (s : State) (g : Nat) (r : TrapReq) (ts : List Nat) : State :=
  let a := recordAddr s g
  let mask := laneMask s ts
  modGroup s g fun k => { k with record := some ⟨r.info.code, mask, a⟩ }

/-! Pre-emption (R207, R346, R347). -/

/-- Signatures, barrier and arrival waits, monitors and every other wait of threads are withdrawn; `.nb` signatures
stay (R207). -/
def withdrawWaits (s : State) (m : Nat) (ts : List Nat) : State :=
  let holding (g : Signature) : Bool := !g.nb && ts.contains g.tid
  let gone := ((s.teams[m]?).map fun t => t.convs.flatMap fun c => c.sigs.filter holding).getD []
  let leave (e : Option Episode) : Option Episode :=
    (e.map fun x => { x with waiting := x.waiting.filter fun t => !ts.contains t }).filter fun x => !x.waiting.isEmpty
  let k := ((s.teams[m]?).map (·.cluster)).getD 0
  let s := modTeam s m fun t =>
    { t with
      convs := t.convs.map fun c => { c with sigs := c.sigs.filter fun g => !holding g }
      episode := leave t.episode
      waitcSince := none }
  let s := modCluster s k fun c => { c with episode := leave c.episode }
  let s := gone.foldl (fun s g => lowerCtr s g.tid .tl) s
  ts.foldl (fun s t => modThread (dropMonitor s t) t fun th =>
    if th.wait = .stopped then th else { th with wait := .ready }) s

/-- Address of a context's save block (R346). -/
def blockAddr (s : State) (c b : Nat) : Nat := ((s.contexts[c]?).map fun k => k.savebase + k.blksz * b).getD 0

/-- Live threads of a team. -/
def liveThreads (s : State) (m : Nat) : List Nat := (teamThreads s m).filter fun t => !threadExited s t

/-- k0:k1 of a group. -/
def firstPair (g : Group) : DWord := (g.ks[1]?).getD 0 ++ (g.ks[0]?).getD 0

/-- A thread leaves its group's record (R87). -/
def leaveRecord (s : State) (t : Nat) : State :=
  match s.threads[t]? with
  | none => s
  | some th =>
    match (s.groups[th.group]?).bind (·.record) with
    | none => s
    | some r =>
      let mask := r.mask &&& ~~~ (BitVec.ofNat 32 (2 ^ th.lane))
      if mask = r.mask then s
      else if mask = 0#32 then
        -- busy clears in the record (R85)
        let s := modGroup s th.group fun g => { g with record := none }
        (match virtBytes s (ctxOf s t) (r.addr + 3) 1 with
         | some [b] => (match virtStore s (ctxOf s t) (r.addr + 3) [b &&& 0xFD#8] th.ptime with
           | .ok (s, _) => s
           | .error _ => s)
         | _ => s)
      else modGroup s th.group fun g => { g with record := some { r with mask := mask } }

/-- Free a team's core resources when its last thread has exited; a group's when its 32 have (R227). -/
def reclaim (s : State) (t : Nat) : State :=
  match s.threads[t]? with
  | none => s
  | some th =>
    let s := if (groupThreads s th.group).all fun x => threadExited s x then
        modGroup s th.group fun g => { g with freed := true } else s
    let m := teamIdOf s t
    match s.teams[m]? with
    | none => s
    | some tm =>
      if (teamThreads s m).all fun x => threadExited s x then
        modCore (modTeam s m fun k => { k with convs := [], episode := none }) tm.die tm.site fun c => releaseClaims c m
      else s

/-- Signers of a team whose operation stands in the queue of their core and has not issued: their signatures on a register
are pending still (R15). -/
def heldSigners (s : State) (m k : Nat) : List Nat :=
  match s.teams[m]? with
  | none => []
  | some t => (((coreAt s t.die t.site).ops.filter fun o => o.held && decide (o.team = m ∧ o.form.d.toNat = k)).flatMap
      fun o => o.signers.map (·.tid))

/-- Signatures a convergence register still lacks. -/
def convLacks (c : Conv) : Nat := (c.count.getD 0) - c.sigs.length

/-- Threads of a team that have neither exited nor signed a register (R231). -/
def unsigned (s : State) (team : Nat) (c : Conv) : Nat :=
  ((teamThreads s team).filter fun t => !threadExited s t && !c.sigs.any fun g => g.tid = t).length

/-! Taking a trap (R82 to R87, R353). -/

/-- Marks a thread exited, with what an exit does to its loads, monitors, records and barriers (R96, R227, R231). The
convergence registers of R231 are settled by `exitThread`. -/
def exitCore (s : State) (t : Nat) : State :=
  let pt := ((s.threads[t]?).map (·.ptime)).getD 0
  let (d, c) := coreOf s t
  let s := leaveRecord s t
  let s := dropMonitor s t
  let s := { s with accs := s.accs.filter fun a => !(a.tid = t && (match a.kind with | .load _ _ _ => true | _ => false)) }
  let s := modThread s t fun th => { th with exited := true, wait := .ready, handler := none }
  let s := modCore s d c fun k => { k with maxExit := max k.maxExit pt }
  settleBarriers s (teamIdOf s t)

/-- A bring-up core stops with a code: its threads end as if by `EXIT`, and the report goes to the management block
(R377). -/
def stopCore (s : State) (t code : Nat) : State :=
  let (d, c) := coreOf s t
  let ts := (List.range s.threads.length).filter fun x => coreOf s x = (d, c) && !threadExited s x
  let s := ts.foldl (fun s x => reclaim (exitCore s x) x) s
  { modCore s d c (fun k => { k with stopped := some code }) with out := s.out ++ [.smbus code] }

/-- Appends a fault to a context's queue; the threads of the mask are suspended (R353). -/
def faultEntry (s : State) (c g : Nat) (r : TrapReq) (ts : List Nat) : State :=
  match s.contexts[c]? with
  | none => s
  | some cx =>
    if cx.fqn ≤ cx.fqTail - cx.fqHead then ts.foldl (fun s t => holdAt s t .faultRoom) s
    else
      let i := cx.fqTail
      let bs := recordBytes s g r (laneMask s ts)
      let pt := ((s.threads[r.tid]?).map (·.ptime)).getD 0
      match virtStore s c (cx.fq + 256 + 256 * (i % cx.fqn)) bs pt with
      | .error e => stopContext s c r.info.code r.info.addr bs (some e.code)
      | .ok (s, ts1) =>
        match virtStore s c cx.fq (bytesOf 8 (i + 1)) ts1 with
        | .error e => stopContext s c r.info.code r.info.addr bs (some e.code)
        | .ok (s, _) =>
          let s := modCtx s c fun k => { k with fqTail := i + 1 }
          let s := { s with out := s.out ++ [.fault cx.ctxid i] }
          ts.foldl (fun s t => holdAt s t (.fault i)) s

/-- Threads enter a handler, or stand still until their context stops, once their record's stores have been
performed. -/
def enterHandler (s : State) (ts : List Nat) (acc : Nat) (f : Thread → Thread) : State :=
  ts.foldl (fun s t => modThread s t fun th => { f th with wait := .recordStore acc, promoted := false }) s

/-- The fault queue's record of a page that a record's own stores need (R87, R353). -/
def recordFault (r : TrapReq) (i : TrapInfo) : TrapReq := { r with info := { i with code := cPAGEF } }

/-- Threads of one group take a trap by record (R82, R86, R87): PROT stops the context, every other code vectors to its
handler. A trap of the record's own stores is a double trap; a page that is not there suspends the threads, which then
take the trap afresh. -/
def takeRecord (s : State) (g : Nat) (r : TrapReq) (ts : List Nat) : State :=
  let c := ctxOf s r.tid
  let stop := decide (r.info.code = cPROT)
  match sendRecord s g r ts stop with
  | .held w => ts.foldl (fun s t => holdAt s t w) s
  | .fault i => faultEntry s c g (recordFault r i) ts
  | .trap i => stopContext s c r.info.code r.info.addr (recordBytes s g r (laneMask s ts)) (some i.code)
  | .sent s acc =>
    if stop then enterHandler s ts acc id
    else
      let vec := ((s.contexts[c]?).map (·.trapvec)).getD 0
      enterHandler (busyRecord s g r ts) ts acc fun th =>
        { th with pc := vec + BitVec.ofNat 64 (64 * r.info.code), handler := some r.info.code }

/-- Traps of one group that are delivered by record: the lowest code takes it, the others hold; while the group's record
is busy a vectored trap holds; a vectored trap inside a handler is a double trap (R82, R86, R87). -/
def vectorTraps (s : State) (g : Nat) (rs : List TrapReq) : State :=
  match rs with
  | [] => s
  | r0 :: _ =>
    let c := ctxOf s r0.tid
    let bring := ((s.contexts[c]?).map (·.bringUp)).getD false
    let lowest (l : List TrapReq) : Nat := l.foldl (fun m r => if r.info.code < m then r.info.code else m) 255
    if bring then stopCore s r0.tid (lowest rs)
    else if ((s.contexts[c]?).map (·.stopped)).getD false then rs.foldl (fun s r => holdAt s r.tid .stopped) s
    else
      match rs.find? fun r => r.info.code ≠ cPROT ∧ ((s.threads[r.tid]?).bind (·.handler)).isSome with
      | some d =>
        let first := ((s.threads[d.tid]?).bind (·.handler)).getD 0
        stopContext s c d.info.code d.info.addr (recordBytes s g d (laneMask s [d.tid])) (some first)
      | none =>
        let busy := ((s.groups[g]?).bind (·.record)).isSome
        let here := if busy then rs.filter fun r => r.info.code = cPROT else rs
        let low := lowest here
        let laneOfReq (x : TrapReq) : Nat := ((s.threads[x.tid]?).map (·.lane)).getD 0
        match here.filter fun x => x.info.code = low with
        | [] => rs.foldl (fun s r => holdAt s r.tid .record) s
        | c0 :: cands =>
          let r := cands.foldl (fun m x => if laneOfReq x < laneOfReq m then x else m) c0
          let mine := here.filter fun x => x.info.code = low ∧ x.pc = r.pc
          let s := rs.foldl (fun s x => if mine.contains x then s else holdAt s x.tid .record) s
          takeRecord s g r (mine.map (·.tid))

/-! PREEMPT (R346, R347). -/

/-- One group's live threads take PREEMPT: the record, k0:k1, and the save routine's entry (R347). -/
def preemptGroup (s : State) (c b g : Nat) : RecordOut :=
  match s.groups[g]? with
  | none => .sent s 0
  | some gr =>
    let ts := (groupThreads s g).filter fun t => !threadExited s t
    let a := blockAddr s c b
    let vec := ((s.contexts[c]?).map (·.trapvec)).getD 0
    match ts with
    | [] => .sent s 0
    | t :: _ =>
      let r : TrapReq := ⟨t, ⟨cPREEMPT, a, (firstPair gr).toNat, b⟩, 0, 0, 0, 0, []⟩
      match sendRecord s g r ts false with
      | .sent s acc =>
        let s := modGroup (busyRecord s g r ts) g fun k =>
          { k with savedK := firstPair k, ks := setUnis k.ks 0 (valueWords 64 (BitVec.ofNat 64 a)) }
        .sent (enterHandler s ts acc fun th =>
          { th with resumePc := some th.pc, pc := vec + 0x540, handler := some cPREEMPT, routine := .save, scratch := [] }) acc
      | o => o

/-- The trap a record's stores of PREEMPT meet, as a fault of the group that its threads do not take (R353). -/
def preemptFault (s : State) (c m b : Nat) (i : TrapInfo) : State :=
  match (s.teams[m]?).bind fun t => t.groups.head?, liveThreads s m with
  | some g, t :: _ =>
    let tail := ((s.contexts[c]?).map (·.fqTail)).getD 0
    let s := faultEntry s c g ⟨t, { i with code := cPAGEF }, 0, 0, 0, 0, []⟩ []
    if ((s.contexts[c]?).map (·.fqTail)).getD 0 = tail then s
    else modTeam s m fun x => { x with phase := .preempting b (some tail) }
  | _, _ => s

/-- A team whose groups' records are all free takes PREEMPT (R346 steps 3 and 4); a store that its pages refuse stops
the context, as those of any record (R87), and one whose page is not there waits for the page (R353). -/
def takePreempt (s : State) (m : Nat) : State :=
  match s.teams[m]? with
  | none => s
  | some tm =>
    match tm.phase with
    | .preempting b _ =>
      let c := teamCtx s m
      if (tm.groups.any fun g => ((s.groups[g]?).bind (·.record)).isSome) ∨ ((s.contexts[c]?).map (·.stopped)).getD false then s
      else
        let s1 := withdrawWaits s m (liveThreads s m)
        match tm.groups.foldl (fun acc g => match acc with
          | .sent s _ => preemptGroup s c b g
          | o => o) (RecordOut.sent s1 0) with
        | .sent s _ => modTeam s m fun t => { t with phase := .saving b }
        | .held _ => s
        | .fault i => preemptFault s c m b i
        | .trap i => stopContext s c cPREEMPT i.addr [] (some i.code)
    | .resident | .saving _ | .saved _ | .restoring _ | .complete => s

/-- Whether the window spill unit serves SPILL and FILL of a thread (R86). -/
def unitServes (s : State) (t : Nat) : Bool := !((contextOf s t).map (·.swspill)).getD false

/-- Takes traps of threads: PAGEF to the fault queue, SPILL and FILL to the unit, the rest by record, group by group
(R82, R86). -/
def takeTraps (s : State) (rs : List TrapReq) : State :=
  let unit := rs.filter fun r => (r.info.code = cSPILL ∨ r.info.code = cFILL) ∧ unitServes s r.tid
  let faults := rs.filter fun r => r.info.code = cPAGEF
  let rest := rs.filter fun r => r.info.code ≠ cPAGEF ∧ !((r.info.code = cSPILL ∨ r.info.code = cFILL) ∧ unitServes s r.tid)
  let s := unit.foldl (fun s r =>
    if r.info.code = cSPILL then holdAt s r.tid (.spill (r.word0.extractLsb' 14 10).toNat)
    else holdAt s r.tid (.fill r.info.addr)) s
  let groupOfReq (r : TrapReq) : Nat := ((s.threads[r.tid]?).map (·.group)).getD 0
  let s := ((faults.map fun r => (groupOfReq r, r.info.addr / 65536)).dedup).foldl (fun s k =>
    let here := faults.filter fun r => groupOfReq r = k.1 ∧ r.info.addr / 65536 = k.2
    match here with
    | [] => s
    | r :: _ => faultEntry s (ctxOf s r.tid) k.1 r (here.map (·.tid))) s
  -- a group that takes PROT stops the context: its other groups stand still with it (R344)
  let taken (r : TrapReq) : Bool := r.info.code = cPROT && (((s.groups[groupOfReq r]?).bind (·.record)).isSome
    || (rest.filter fun x => groupOfReq x = groupOfReq r).all fun x => cPROT ≤ x.info.code)
  match rest.find? taken with
  | some p =>
    let g := groupOfReq p
    let s := (rest.filter fun r => groupOfReq r ≠ g).foldl (fun s r => holdAt s r.tid .record) s
    vectorTraps s g (rest.filter fun r => groupOfReq r = g)
  | none => ((rest.map groupOfReq).dedup).foldl (fun s g => vectorTraps s g (rest.filter fun r => groupOfReq r = g)) s

/-- Signers of a register take a trap at their signing instructions (R181): each group's record is of the instruction
of its lowest trapped lane, and the group's lanes at other instructions sign afresh. -/
def trapSigners (s : State) (sigs : List Signature) (i : TrapInfo) : State :=
  let groupOfSig (g : Signature) : Nat := ((s.threads[g.tid]?).map (·.group)).getD 0
  let laneOfSig (g : Signature) : Nat := ((s.threads[g.tid]?).map (·.lane)).getD 0
  let first (g : Signature) : DWord :=
    (((sigs.filter fun x => groupOfSig x = groupOfSig g).foldl (fun m x => if laneOfSig x < laneOfSig m then x else m) g)).pc
  let s := sigs.foldl (fun s g => holdAt s g.tid .ready) s
  takeTraps s ((sigs.filter fun g => i.code ≠ cPAGEF ∨ g.pc = first g).map fun g =>
    let w := wordBits g.opc g.form
    ⟨g.tid, i, g.pc, g.form.len.bytes, w.extractLsb' 0 64,
      (match g.form.len with | .l64 => 0 | .l96 => (w.extractLsb' 64 32).zeroExtend 64 | .l128 => w.extractLsb' 64 64),
      (sigs.filter fun x => x.pc = g.pc).map (·.tid)⟩)

/-- A register whose count can no longer be reached: its holding signers take CVGMIS with extra0 = 4, every signer's
tl falls, and it re-arms (R181, R231). -/
def convUnreachable (s : State) (team k : Nat) : State :=
  match (s.teams[team]?).bind fun t => t.convs[k]? with
  | none => s
  | some c =>
    if c.sigs.isEmpty ∨ convLacks c ≤ unsigned s team c then s
    else
      let s := modTeam s team fun t => { t with convs := setAt t.convs k { c with sigs := [] } }
      let s := c.sigs.foldl (fun s g => lowerCtr s g.tid .tl) s
      trapSigners s (c.sigs.filter fun g => ((s.threads[g.tid]?).map (·.wait)) = some (.signed k)) ⟨cCVGMIS, k, 4, 0⟩

/-- `Exit(L)` (R96, R227, R231). -/
def exitThread (s : State) (t : Nat) : State :=
  let m := teamIdOf s t
  let s := exitCore s t
  let n := ((s.teams[m]?).map (·.convs.length)).getD 0
  let s := (List.range n).foldl (fun s k => convUnreachable s m k) s
  reclaim s t

end Sys2Proof.Machine
end

