-- ==== Sys2Proof/Machine/Operands.lean ====
section
/-! DEFINITION. Operand forms and the lanes of an issue group (R8, R20 to R27, R29, R36 to R38, R70, R71, R75 to R77,
R82, R91, R141, R347, R362). -/

namespace Sys2Proof.Machine

/-! Immediates and special specifiers (R76). -/

/-- A small integer as a format's code. -/
def fpOfInt (f : Fp) (v : Int) : Nat := (roundVal f .rne true false (.fin (decide (v < 0)) v.natAbs 0)).code

/-- A small immediate delivered in a type. -/
def deliverSmall (ty : SrcTy) (v : Int) : DWord :=
  match ty with
  | .int _ _ | .scale => BitVec.ofInt 64 v
  | .fp f => BitVec.ofNat 64 (fpOfInt f v)
  | .pair f => BitVec.ofNat 64 (fpOfInt f v + 65536 * fpOfInt f v)

/-- A long immediate delivered in a type. -/
def deliverImm (ty : SrcTy) (x : Word) : DWord :=
  match ty with
  | .int w z => if 64 ≤ w ∧ !z then x.signExtend 64 else x.zeroExtend 64
  | .fp f => if f = .f64 then BitVec.ofNat 64 (roundVal .f64 .rne false false (fpDecode .f32 x.toNat)).code
             else x.zeroExtend 64
  | .pair _ | .scale => x.zeroExtend 64

/-- The small immediate of a specifier. -/
def smallOf (x : BitVec 10) : Int := (x.toNat : Int) - 0x3A0

/-- Thread index in its team (R75). -/
def tidOf (s : State) (t : Nat) : Nat :=
  (((groupOf s t).map (·.index)).getD 0) * 32 + ((s.threads[t]?).map (·.lane)).getD 0

/-- A special specifier's value (R75). -/
def specialValue (s : State) (t : Nat) (x : BitVec 10) : Nat :=
  match x.toNat with
  | 0x3B1 => ((s.threads[t]?).map (·.lane)).getD 0
  | 0x3B2 => tidOf s t
  | 0x3B3 => ((groupOf s t).map (·.index)).getD 0
  | 0x3B4 => ((teamOf s t).map (·.index)).getD 0 % 2 ^ 32
  | 0x3B5 => ((teamOf s t).map (·.index)).getD 0 / 2 ^ 32
  | 0x3B6 => ((teamOf s t).map (·.rank)).getD 0
  | 0x3B7 => ((groupOf s t).map (·.part)).getD 0
  | 0x3B8 => (coreOf s t).2
  | 0x3B9 => (coreOf s t).1
  | 0x3BA => ((s.threads[t]?).map (·.ptime)).getD 0 % 2 ^ 32
  | _ => 0

/-! Resolution (R24, R77). -/

/-- Index offset plus or minus stride, mod 1024 (R24). -/
def offsetStep (o : BitVec 10) (stride : BitVec 6) (up : Bool) : BitVec 10 :=
  if up then o + stride.signExtend 10 else o - stride.signExtend 10

/-- Resolves an indirect specifier that names n registers: the position and the index registers after it; none is
IDXB (R24, R77, R143). -/
def resolveX (th : Thread) (w : Nat) (f : BitVec 10) (n : Nat) (xs : List XReg) : Option (Nat × List XReg) :=
  let k := f.toNat % 16
  match xs[k]? with
  | none => none
  | some x =>
    let pre := decide (0x380 ≤ f.toNat)
    let post := decide (0x370 ≤ f.toNat ∧ f.toNat < 0x380)
    let o := if pre then offsetStep x.offset x.stride false else x.offset
    if x.bound.toNat ≤ o.toNat then none
    else
      let r := x.base.toNat + o.toNat
      let pos := if x.anchor then r else th.wb + r
      if (!x.anchor && decide (w ≤ r)) || (x.anchor && decide (th.wb + w ≤ pos)) then none
      else if r % n ≠ 0 ∨ x.bound.toNat ≤ o.toNat + (n - 1) ∨ th.wb + w ≤ pos + (n - 1) then none
      else
        let o' := if post then offsetStep o x.stride true else o
        some (pos, setAt xs k { x with offset := o' })

/-- What a field holds in a lane: a place, or a value given by its specifier. -/
inductive Src where
  | loc (l : Loc)
  | small (v : Int)
  | imm
  | special (v : Nat)
  | off
  deriving DecidableEq, Repr

/-- Registers a role reads or writes through its field. -/
def roleRegs (r : Role) : Nat :=
  match r with
  | .vdst => 4
  | .range _ | .coords | .vdirect | .count => 1
  | _ => regCount r.width

/-- The place a hold name gives (R37). -/
def holdLoc (h : HoldName) : Option Loc :=
  match h with
  | .none => none
  | .vec p => some (.vec p)
  | .uni k => some (.uni k)

/-- A thread's hold name by specifier. -/
def holdOf (th : Thread) (x : BitVec 10) : HoldName :=
  if x.toNat = 0x3C1 then th.hold1 else if x.toNat = 0x3C2 then th.hold2 else th.hold3

/-- One field resolved, none on IDXB. -/
def resolveField (s : State) (t : Nat) (th : Thread) (w : Nat) (r : Role) (x : BitVec 10) (xs : List XReg) :
    Option (Src × List XReg) :=
  if !r.isSpec then some (.off, xs)
  else if specIsDirect x then
    some (.loc (if decide (th.routine = .save ∨ th.routine = .restore) then .scr x.toNat else .vec (th.wb + x.toNat)), xs)
  else if specIsUniform x then some (.loc (.uni (x.toNat - 0x300)), xs)
  else if specIsIndirect x then (resolveX th w x (roleRegs r) xs).map fun p => (.loc (.vec p.1), p.2)
  else if specIsSmall x then some (.small (smallOf x), xs)
  else if x = 0x3B0#10 then some (.loc .void, xs)
  else if specIsSpecial x then some (.special (specialValue s t x), xs)
  else if x = immSpec then some (.imm, xs)
  else if specIsHold x then some (((holdLoc (holdOf th x)).map Src.loc).getD .off, xs)
  else some (.off, xs)

/-- The value of a field of 32 or 64 bits in a delivery type. -/
def srcValue (s : State) (t : Nat) (f : Form) (r : Role) (x : Src) : DWord :=
  let ty : SrcTy := match r with | .src ty => ty | _ => .int 32 true
  match x with
  | .loc .void => 0
  | .loc l => if r.width = 64 then readPair s t l else (readLoc s t l 0).zeroExtend 64
  | .small v => deliverSmall ty v
  | .imm => deliverImm ty (imm32Of f)
  | .special v => BitVec.ofNat 64 v
  | .off => 0

/-! Neighbours (R38). -/

/-- The thread of an issue group in a lane. -/
def laneThread (iss : Issue) (lane : Nat) : Option Nat := lookupNat iss.lanes lane

/-- What a lane source names for a lane (R38). -/
inductive Neighbour where
  | own
  | other (t : Nat)
  | zero
  deriving DecidableEq, Repr

/-- The thread a lane source names, under the edge rule (R38). -/
def neighbourOf (iss : Issue) (lane : Nat) (ls edge : BitVec 2) : Neighbour :=
  if ls = 0#2 then .own
  else
    let left := decide (ls = 1#2)
    let atEdge := if left then lane = 0 else lane = 31
    let other := if left then (lane + 31) % 32 else (lane + 1) % 32
    match (if atEdge ∧ edge ≠ 2#2 then none else laneThread iss other) with
    | some t => .other t
    | none => if edge = 1#2 then .own else .zero

/-- The thread and place a source field of a lane reads: its own, or a neighbour's register of the same name (R38); none
where it reads 0. -/
def sourceAt (s : State) (iss : Issue) (lane t : Nat) (ls edge : BitVec 2) (x : BitVec 10) (own : Loc) : Option (Nat × Loc) :=
  match neighbourOf iss lane ls edge with
  | .own => some (t, own)
  | .other u => some (u, .vec (((s.threads[u]?).map (·.wb)).getD 0 + x.toNat))
  | .zero => none

/-- n registers from a thread's place; zeros from nowhere. -/
def readRegs (s : State) (e : Option (Nat × Loc)) (n : Nat) : List Word :=
  (List.range n).map fun i => match e with | some (u, l) => readLoc s u l i | none => 0

/-- The value of a source of 32 or 64 bits in a delivery type, from the thread and place it reads. -/
def sourceValue (s : State) (e : Option (Nat × Loc)) (f : Form) (r : Role) (x : Src) : DWord :=
  match x, e with
  | .loc _, some (u, l) => srcValue s u f r (.loc l)
  | .loc _, none => 0
  | y, _ => srcValue s 0 f r y

/-- The low half of a 128-bit source (R143). -/
def sourceLow (s : State) (e : Option (Nat × Loc)) (f : Form) (r : Role) (x : Src) : DWord :=
  match x, e with
  | .loc .void, _ | .loc _, none => 0
  | .loc _, some (u, l) => readPair s u l
  | .imm, _ => (imm32Of f).signExtend 64
  | y, _ => srcValue s 0 f r y

/-- The high half of a 128-bit source (R143): registers, or the immediate's sign (log 24). -/
def sourceHigh (s : State) (e : Option (Nat × Loc)) (f : Form) (x : Src) : DWord :=
  match x, e with
  | .loc .void, _ | .loc _, none => 0
  | .loc _, some (u, l) => readLoc s u l 3 ++ readLoc s u l 2
  | .small v, _ => if v < 0 then ~~~ 0#64 else 0
  | .imm, _ => if (imm32Of f).getLsbD 31 then ~~~ 0#64 else 0
  | .special _, _ | .off, _ => 0

/-! A lane made ready. -/

/-- A lane's operands as of issue, and what the instruction will update in it. -/
structure Ready where
  tid : Nat
  lane : Nat
  a : DWord
  b : DWord
  c : DWord
  /-- High half of a 128-bit C. -/
  cHi : DWord
  aLoc : Loc
  d : Loc
  /-- Positions that are pending while the instruction is in flight, for an indirect destination (R26). -/
  span : Option (Nat × Nat)
  /-- Registers that a range or the coordinates of A hold (R135, R149), and the trap of the first poisoned one. -/
  vals : List Word
  bad : Option TrapInfo
  /-- D's value before the instruction (R108, R122). -/
  dOld : DWord
  xs : List XReg
  hold : Option (BitVec 2 × HoldName)
  deriving DecidableEq, Repr

/-- What becomes of a lane before the instruction's own effect (R82 step 8). -/
inductive Prep where
  | inactive
  | trap (i : TrapInfo)
  | hold (w : Wait)
  | ready (r : Ready)
  deriving DecidableEq, Repr

/-- A hold name set to none in a field read (R37). -/
def holdMissing (th : Thread) (r : Role) (x : BitVec 10) : Bool :=
  r.isSpec && specIsHold x && decide (holdOf th x = .none)

/-- Place of a source. -/
def Src.place : Src → Loc
  | .loc l => l
  | _ => .void

/-- The hold name of a place (R36). -/
def locHold (l : Loc) : HoldName :=
  match l with
  | .vec p => .vec p
  | .uni k => .uni k
  | .scr _ | .void => .none

/-- The roles that a lane reads A and B in: `SEL` does not read the source it does not choose (log 21). -/
def roleA (sg : Sig) : Role := if sg.skipA then .off else sg.a
def roleB (sg : Sig) : Role := if sg.skipB then .off else sg.b

/-- Resolves the four fields in operand order; an error is the failing specifier and position (R24, R25). -/
def resolveAll (s : State) (t : Nat) (th : Thread) (w : Nat) (sg : Sig) (f : Form) :
    Except (BitVec 10 × Nat) (Src × Src × Src × Src × List XReg) :=
  match resolveField s t th w (roleA sg) f.a th.xs with
  | none => .error (f.a, 0)
  | some (a, xs) =>
    match resolveField s t th w (roleB sg) f.b xs with
    | none => .error (f.b, 1)
    | some (b, xs) =>
      match resolveField s t th w sg.c f.c xs with
      | none => .error (f.c, 2)
      | some (c, xs) =>
        match resolveField s t th w sg.d f.d xs with
        | none => .error (f.d, 3)
        | some (d, xs) => .ok (a, b, c, d, xs)

/-- Whether a thread's guard holds (R70). -/
def guardHolds (th : Thread) (f : Form) : Bool := predOf th f.pred.toNat != f.inv

/-! What an instruction uses of a thread (R26, R33). -/

/-- Registers that A of `LDT` and `STT` names: one for each dimension of the identifier in C (R149). -/
def coordCount (s : State) (t : Nat) (f : Form) : Nat :=
  (((contextOf s t).bind fun c => lookupNat c.tensors f.c.toNat).map (·.ndim)).getD 0

/-- Positions an indirect specifier's register ranges over (R26). -/
def indexRange (th : Thread) (x : BitVec 10) : Nat × Nat :=
  match th.xs[x.toNat % 16]? with
  | some e => (if e.anchor then e.base.toNat else th.wb + e.base.toNat, e.bound.toNat)
  | none => (0, 0)

/-- Registers a field uses whatever the guard: n registers of a direct or uniform specifier, the whole range of an
indirect source, the place of a hold name (R26, R33, R37). `at_`: the place of an indirect destination. -/
def fieldUses (th : Thread) (r : Role) (x : BitVec 10) (n : Nat) (at_ : Option Loc) : List Nat × List Nat :=
  let routine := decide (th.routine = .save ∨ th.routine = .restore)
  let place (l : Loc) : List Nat × List Nat := (spanPos l n, spanUni l n)
  let range : List Nat := (List.range (indexRange th x).2).map ((indexRange th x).1 + ·)
  if !r.isSpec then ([], [])
  else if specIsDirect x then place (if routine then .scr x.toNat else .vec (th.wb + x.toNat))
  else if specIsUniform x then place (.uni (x.toNat - 0x300))
  else if specIsHold x then place ((holdLoc (holdOf th x)).getD .void)
  else if specIsIndirect x then
    match r with
    | .src _ | .coords | .range false | .count | .rmw _ => (range, [])
    | _ => place (at_.getD .void)
  else ([], [])

/-- Registers an instruction uses of a thread, as positions and uniform registers (R33). -/
def threadUses (s : State) (t : Nat) (th : Thread) (sg : Sig) (f : Form) : List Nat × List Nat :=
  let d := match resolveAll s t th (windowOf s t) sg f with
    | .ok (_, _, _, d, _) => some d.place
    | .error _ => none
  let b := fieldUses th (roleB sg) f.b (roleRegs sg.b) none
  -- a range's registers are those the count names (R135)
  let count : Nat := match sg.b with
    | .count => if anyPending s t b.1 b.2 then 0
      else match resolveField s t th (windowOf s t) sg.b f.b th.xs with
        | some (y, _) => let n := natLow 32 (srcValue s t f sg.b y); if n ≤ 32 then n else 0
        | none => 0
    | _ => 0
  let regs (r : Role) : Nat := match r with
    | .range _ => count
    | .coords => coordCount s t f
    | r => roleRegs r
  let l := [fieldUses th (roleA sg) f.a (regs sg.a) none, b, fieldUses th sg.c f.c (regs sg.c) none,
    fieldUses th sg.d f.d (regs sg.d) d]
  (l.flatMap (·.1), l.flatMap (·.2))

/-- The hold of a thread of which the instruction uses a pending register (R33). -/
def usesPending (s : State) (t : Nat) (th : Thread) (sg : Sig) (f : Form) : Option Wait :=
  let (ps, us) := threadUses s t th sg f
  if anyPending s t ps us then some (.pending ps us) else none

/-! A lane prepared. -/

/-- The first poisoned register among those that sources read, as the trap it is (R362). -/
def poisonTrap (s : State) (l : List (Option (Nat × Loc) × Nat)) : Option TrapInfo :=
  l.findSome? fun e => match e.1 with
    | some (u, p) => (s.threads[u]?).bind fun th =>
        ((stackPos p e.2).find? fun x => th.poison.contains x).map fun x => ⟨cMEMERR, x, 4, 0⟩
    | none => none

/-- Where an instruction that reads a neighbour finds the register pending there: the lane is not ready (R33). -/
def sourceHeld (s : State) (t : Nat) (l : List (Option (Nat × Loc) × Nat)) : Bool :=
  l.any fun e => match e.1 with
    | some (u, p) => u ≠ t && anyPending s u (spanPos p e.2) (spanUni p e.2)
    | none => false

/-- Prepares an active lane whose fields are resolved: residency, poison, operand values. -/
def prepReady (s : State) (iss : Issue) (sg : Sig) (f : Form) (lane t : Nat) (th : Thread)
    (a b c d : Src) (xs : List XReg) : Prep :=
  let e := extWord sg f
  let src (i : Nat) (x : BitVec 10) (y : Src) : Option (Nat × Loc) :=
    sourceAt s iss lane t (laneSource sg f i) (extEdge e) x y.place
  let ea := src 0 f.a a
  let eb := src 1 f.b b
  let ec := src 2 f.c c
  let coords : Nat := match sg.a with | .coords => coordCount s t f | _ => 0
  let na := roleRegs (roleA sg)
  let nb := roleRegs (roleB sg)
  let nc := roleRegs sg.c
  let nd := roleRegs sg.d
  let mine (i : Nat) (y : Src) (n : Nat) : List Nat := if laneSource sg f i = 0#2 then stackPos y.place n else []
  if sourceHeld s t [(ea, max na coords), (eb, nb), (ec, nc)] then .hold .ready
  else
    match residency th (windowOf s t) (resvOf s t) (mine 0 a na ++ mine 1 b nb ++ mine 2 c nc ++ stackPos d.place nd) with
    | some i => .trap i
    | none =>
      let rmw : List (Option (Nat × Loc) × Nat) := match sg.d with | .rmw _ => [(some (t, d.place), nd)] | _ => []
      let read : List (Option (Nat × Loc) × Nat) := if sg.a = .coords then [(eb, nb), (ec, nc)] else [(ea, na), (eb, nb), (ec, nc)]
      match poisonTrap s (read ++ rmw) with
      | some i => .trap i
      | none =>
        let wide := decide (sg.c.width = 128)
        let hold : Option (BitVec 2 × HoldName) :=
          if f.holdEntry = 0#2 then none
          else
            let y := if f.holdSrc = 0#2 then a else if f.holdSrc = 1#2 then b else c
            some (f.holdEntry, locHold y.place)
        .ready { tid := t, lane := lane, a := sourceValue s ea f (roleA sg) a, b := sourceValue s eb f (roleB sg) b,
                 c := if wide then sourceLow s ec f sg.c c else sourceValue s ec f sg.c c,
                 cHi := if wide then sourceHigh s ec f c else 0,
                 aLoc := a.place, d := d.place,
                 span := if specIsIndirect f.d ∧ sg.d.isSpec then some (indexRange th f.d) else none,
                 vals := readRegs s ea coords, bad := poisonTrap s [(ea, coords)],
                 dOld := (match sg.d with
                   | .rmw 64 => readPair s t d.place
                   | .rmw _ => (readLoc s t d.place 0).zeroExtend 64
                   | _ => 0),
                 xs := xs, hold := hold }

/-! `RCPY`'s ranges (R135). -/

/-- `Position` of a range of n registers: its first place; the error is the lane's trap. `at_`: the operand's position
in operand order. -/
def rangeAt (th : Thread) (w : Nat) (x : BitVec 10) (n at_ : Nat) (xs : List XReg) :
    Except TrapInfo (Loc × List XReg) :=
  let routine := decide (th.routine = .save ∨ th.routine = .restore)
  if specIsDirect x then
    if (if routine then 8 else w) < x.toNat + n then .error (trapAt cILLOPND 0)
    else .ok (if routine then .scr x.toNat else .vec (th.wb + x.toNat), xs)
  else if specIsIndirect x then
    let k := x.toNat % 16
    match resolveX th w x 1 xs, xs[k]? with
    | some (pos, xs'), some e =>
      let o := if 0x380 ≤ x.toNat then offsetStep e.offset e.stride false else e.offset
      if e.bound.toNat < o.toNat + n ∨ th.wb + w < pos + n then .error ⟨cIDXB, 0, x.toNat * 4 + at_, 0⟩
      else .ok (.vec pos, xs')
    | _, _ => .error ⟨cIDXB, 0, x.toNat * 4 + at_, 0⟩
  else .error (trapAt cILLOPND 0)

/-- The index registers after A's range in operand order, where it resolves. -/
def afterRange (th : Thread) (w : Nat) (x : BitVec 10) : List XReg :=
  if specIsIndirect x then ((resolveX th w x 1 th.xs).map (·.2)).getD th.xs else th.xs

/-- A lane of `RCPY` whose count is known and whose ranges are resolved: every source register is read before any write
(R7, R135). -/
def rangeReady (s : State) (iss : Issue) (sg : Sig) (f : Form) (lane t : Nat) (th : Thread) (n : Nat) (a d : Loc)
    (xs : List XReg) : Prep :=
  let ea := sourceAt s iss lane t (laneSource sg f 0) (extEdge (extWord sg f)) f.a a
  let mine := (if laneSource sg f 0 = 0#2 then stackPos a n else []) ++ stackPos d n
  if sourceHeld s t [(ea, n)] then .hold .ready
  else
    match residency th (windowOf s t) (resvOf s t) mine, poisonTrap s [(ea, n)] with
    | some i, _ | none, some i => .trap i
    | none, none =>
      .ready { tid := t, lane := lane, a := 0, b := BitVec.ofNat 64 n, c := 0, cHi := 0, aLoc := a, d := d, span := none,
               vals := readRegs s ea n, bad := none, dOld := 0, xs := xs,
               hold := if f.holdEntry = 0#2 then none else some (f.holdEntry, locHold a) }

/-- Prepares an active lane of `RCPY` (R135): the count, then A's range, then D's. -/
def prepRange (s : State) (iss : Issue) (sg : Sig) (f : Form) (lane t : Nat) (th : Thread) : Prep :=
  let w := windowOf s t
  match resolveField s t th w sg.b f.b (afterRange th w f.a) with
  | none => .trap ⟨cIDXB, 0, f.b.toNat * 4 + 1, 0⟩
  | some (b, xsb) =>
    let eb := sourceAt s iss lane t (laneSource sg f 1) (extEdge (extWord sg f)) f.b b.place
    match (if sourceHeld s t [(eb, 1)] then some (Prep.hold .ready) else none),
        residency th w (resvOf s t) (if laneSource sg f 1 = 0#2 then stackPos b.place 1 else []), poisonTrap s [(eb, 1)] with
    | some p, _, _ => p
    | none, some i, _ | none, none, some i => .trap i
    | none, none, none =>
      let n := natLow 32 (sourceValue s eb f sg.b b)
      if n < 1 ∨ 32 < n then .trap (trapAt cILLOPND n)
      else
        match rangeAt th w f.a n 0 th.xs with
        | .error i => .trap i
        | .ok (a, _) =>
          match rangeAt th w f.d n 3 xsb with
          | .error i => .trap i
          | .ok (d, xs) => rangeReady s iss sg f lane t th n a d xs

/-- Prepares one lane of an issue group, its guard apart. -/
def prepActive (s : State) (iss : Issue) (sg : Sig) (f : Form) (lane t : Nat) (th : Thread) : Prep :=
  if holdMissing th (roleA sg) f.a || holdMissing th (roleB sg) f.b || holdMissing th sg.c f.c then .trap (trapAt cILLOPND 0)
  else if sg.b = .count then prepRange s iss sg f lane t th
  else
    match resolveAll s t th (windowOf s t) sg f with
    | .error (x, p) => .trap ⟨cIDXB, 0, x.toNat * 4 + p, 0⟩
    | .ok (a, b, c, d, xs) => prepReady s iss sg f lane t th a b c d xs

/-- Prepares one lane of an issue group (R70, R82 step 8): a thread is not ready while a register the instruction uses
is pending, whether or not its guard holds (R33). -/
def prepLane (s : State) (iss : Issue) (sg : Sig) (f : Form) (lane t : Nat) : Prep :=
  match s.threads[t]? with
  | none => .inactive
  | some th =>
    match usesPending s t th sg f with
    | some w => .hold w
    | none => if guardHolds th f then prepActive s iss sg f lane t th else .inactive

/-! Checks of the whole issue group (R82 steps 5 to 7). -/

/-- What the routines of R347 do not take: a register past v7, an indirect or neighbour operand, a HOLD. -/
def routineBad (sg : Sig) (f : Form) : Bool :=
  let one (r : Role) (x : BitVec 10) (i : Nat) : Bool :=
    r.isSpec && ((specIsDirect x && decide (8 < x.toNat + roleRegs r)) || specIsIndirect x || (i < 3 && laneSource sg f i ≠ 0#2))
  f.holdEntry ≠ 0#2 || one sg.a f.a 0 || one sg.b f.b 1 || one sg.c f.c 2 || one sg.d f.d 3

/-- `MTS` to a read-only register raises PRIV at every privilege (R39, R80). -/
def readOnlyWrite (opc : BitVec 8) (f : Form) : Bool :=
  opc = 0xF1#8 && (match sysregInfo f.d.toNat with | some (_, _, ro) => ro | none => false)

/-- The trap that every thread of an issue group takes, if any. -/
def groupTrap (s : State) (iss : Issue) (opc : BitVec 8) (sg : Sig) (f : Form) : Option TrapInfo :=
  match iss.lanes with
  | [] => none
  | _ :: _ =>
    if readOnlyWrite opc f || (sg.priv && !(iss.lanes.all fun p => privileged s p.2)) then some (trapAt cPRIV 0)
    else if illMod sg f then some (trapAt cILLMOD 0)
    else if iss.lanes.any fun p => illOpnd (limitsOf s p.2) sg f then some (trapAt cILLOPND 0)
    else if (iss.lanes.any fun p => inRoutine s p.2) && routineBad sg f then some (trapAt cILLOPND 0)
    else none

/-! The lanes of an issue group. -/

/-- Where a thread goes after an instruction. -/
inductive Next where
  | fall
  | jump (t : DWord)
  /-- The effect has set the thread's PC and wait itself. -/
  | stay
  deriving DecidableEq, Repr

/-- What an instruction leaves in a lane that completes it, besides the state it changed itself. -/
structure Res where
  vals : List Word := []
  preds : List (Nat × Bool) := []
  flags : Flags := 0#5
  /-- An index register written (R133, R134). -/
  xset : Option (Nat × XReg) := none
  next : Next := .fall
  deriving DecidableEq, Repr

/-- An instruction's own effect in a lane (R82 step 9). -/
inductive LaneOut where
  | ok (s : State) (r : Res)
  | trap (i : TrapInfo)
  | hold (w : Wait)
  /-- The lane has acted and waits inside the instruction; the state says how. -/
  | suspend (s : State)
  deriving DecidableEq, Repr

/-- Accumulated over the lanes: the state, the groups whose uniform destination has been written, the traps. -/
structure LaneAcc where
  s : State
  wrote : List Nat
  traps : List (Nat × TrapInfo)
  deriving DecidableEq, Repr

/-- Sets a hold name (R36). -/
def setHold (th : Thread) (h : Option (BitVec 2 × HoldName)) : Thread :=
  match h with
  | none => th
  | some (e, n) =>
    if e = 1#2 then { th with hold1 := n } else if e = 2#2 then { th with hold2 := n } else { th with hold3 := n }

/-- Moves a thread to its next instruction. -/
def moveOn (s : State) (t : Nat) (pc : DWord) (len : Nat) (n : Next) : State :=
  match n with
  | .fall => advance s t pc len
  | .jump x => goto s t x
  | .stay => s

/-- Updates of a thread's own index registers, hold names and predicates. -/
def laneMarks (s : State) (r : Ready) (x : Res) : State :=
  modThread s r.tid fun th =>
    let xs := match x.xset with | some p => setAt r.xs p.1 p.2 | none => r.xs
    x.preds.foldl (fun th p => setPred th p.1 p.2) (setHold { th with xs := xs } r.hold)

/-- Writes a lane's result through D: a uniform destination takes the lowest completing lane of each group (R20). -/
def laneWrite (s : State) (r : Ready) (x : Res) (wrote : List Nat) : State × List Nat :=
  match r.d with
  | .uni _ =>
    let g := ((s.threads[r.tid]?).map (·.group)).getD 0
    if x.vals.isEmpty ∨ wrote.contains g then (s, wrote) else (writeLoc s r.tid r.d x.vals, g :: wrote)
  | _ => (writeLoc s r.tid r.d x.vals, wrote)

/-- A lane completes the instruction. -/
def laneDone (s : State) (r : Ready) (x : Res) (wrote : List Nat) (pc : DWord) (len : Nat) : State × List Nat :=
  let s := laneMarks s r x
  let (s, wrote) := laneWrite s r x wrote
  (moveOn (orFlags s r.tid x.flags) r.tid pc len x.next, wrote)

/-- One lane of an issue group under the instruction's own effect. -/
def laneStep (pc : DWord) (len : Nat) (body : State → Ready → LaneOut) (acc : LaneAcc) (p : Nat × Prep) : LaneAcc :=
  match p.2 with
  | .inactive => { acc with s := advance acc.s p.1 pc len }
  | .trap i => { acc with traps := acc.traps ++ [(p.1, i)] }
  | .hold w => { acc with s := holdAt acc.s p.1 w }
  | .ready r =>
    match body acc.s r with
    | .trap i => { acc with traps := acc.traps ++ [(p.1, i)] }
    | .hold w => { acc with s := holdAt acc.s p.1 w }
    | .suspend s => { acc with s := s }
    | .ok s x =>
      let (s, wrote) := laneDone s r x acc.wrote pc len
      { acc with s := s, wrote := wrote }

/-- A trap request of a thread at the issue group's instruction. -/
def trapReq (iss : Issue) (opc : BitVec 8) (f : Form) (t : Nat) (i : TrapInfo) : TrapReq :=
  let w := wordBits opc f
  ⟨t, i, iss.pc, f.len.bytes, w.extractLsb' 0 64,
    (match f.len with | .l64 => 0 | .l96 => (w.extractLsb' 64 32).zeroExtend 64 | .l128 => w.extractLsb' 64 64),
    iss.lanes.map (·.2)⟩

/-- The threads of an issue group prepared, by ascending lane. -/
def prepAll (s : State) (iss : Issue) (sig : Thread → Sig) (f : Form) : List (Nat × Prep) :=
  iss.lanes.map fun p =>
    (p.2, match s.threads[p.2]? with | some th => prepLane s iss (sig th) f p.1 p.2 | none => .inactive)

/-- Runs prepared lanes and takes their traps. -/
def runPreps (s : State) (iss : Issue) (opc : BitVec 8) (f : Form) (ps : List (Nat × Prep))
    (body : State → Ready → LaneOut) : State :=
  let acc := ps.foldl (laneStep iss.pc f.len.bytes body) ⟨s, [], []⟩
  if acc.traps.isEmpty then acc.s else takeTraps acc.s (acc.traps.map fun p => trapReq iss opc f p.1 p.2)

/-- A lane that is not ready (R33): a register it uses is pending. -/
def isHeld (p : Nat × Prep) : Bool := match p.2 with | .hold _ => true | .inactive | .trap _ | .ready _ => false

/-- Threads that are not ready hold at the instruction. -/
def holdNotReady (s : State) (ps : List (Nat × Prep)) : State :=
  ps.foldl (fun s p => match p.2 with | .hold w => holdAt s p.1 w | .inactive | .trap _ | .ready _ => s) s

/-- The issue group of the threads that are ready. -/
def readyIssue (iss : Issue) (ps : List (Nat × Prep)) : Issue :=
  { iss with lanes := iss.lanes.filter fun l => !ps.any fun p => p.1 = l.2 && isHeld p }

/-- An instruction of the current issue group: the group's checks, then its lanes (R82). `start`: what issuing it
does to the state first, when some thread issues; `body`: its effect in a lane, given every lane as prepared. -/
def runWith (opc : BitVec 8) (f : Form) (s : State) (sig : Thread → Sig) (start : State → Issue → State)
    (pick : State → List (Nat × Prep) → List (Nat × Prep)) (body : Issue → List (Nat × Prep) → State → Ready → LaneOut) :
    Host.Outcome State Fault Refusal :=
  match s.cur with
  | none => .next s
  | some iss =>
    match groupTrap s iss opc (sigOf opc f) f with
    | some i => .next (takeTraps { s with cur := none } (iss.lanes.map fun p => trapReq iss opc f p.2 i))
    | none =>
      let s1 : State := { s with cur := none }
      let ps0 := prepAll s1 iss sig f
      let s2 := holdNotReady s1 ps0
      let iss1 := readyIssue iss ps0
      let ps := if ps0.any isHeld then prepAll s1 iss1 sig f else ps0
      let s3 := if iss1.lanes.isEmpty then s2 else start s2 iss1
      .next (runPreps s3 iss1 opc f (pick s2 ps) (body iss1 ps))

/-- The common case. -/
def runLanes (opc : BitVec 8) (f : Form) (s : State) (body : Issue → List (Nat × Prep) → State → Ready → LaneOut) :
    Host.Outcome State Fault Refusal :=
  runWith opc f s (fun _ => sigOf opc f) (fun s _ => s) (fun _ ps => ps) body

/-- An instruction whose effect in a lane is a value written through D. -/
def runValue (opc : BitVec 8) (f : Form) (s : State) (w : Nat) (value : Ready → DWord) :
    Host.Outcome State Fault Refusal :=
  runLanes opc f s fun _ _ s r => .ok s { vals := valueWords w (value r) }

/-- An instruction whose effect in a lane is a value with flags. -/
def runFlagged (opc : BitVec 8) (f : Form) (s : State) (w : Nat) (start : State → Issue → State)
    (value : Issue → Ready → FRes) : Host.Outcome State Fault Refusal :=
  runWith opc f s (fun _ => sigOf opc f) start (fun _ ps => ps) fun iss _ s r =>
    let v := value iss r
    .ok s { vals := valueWords w v.bits, flags := v.flags }

/-- Groups of an issue group's threads that another lane of the same group precedes are dropped: the lowest active
lane of each group acts, the others complete without effect (R145). -/
def lowestActive (s : State) (ps : List (Nat × Prep)) : List (Nat × Prep) :=
  (ps.foldl (fun (acc : List (Nat × Prep) × List Nat) p =>
    let g := ((s.threads[p.1]?).map (·.group)).getD 0
    match p.2 with
    | .inactive | .hold _ => (acc.1 ++ [p], acc.2)
    | _ => if acc.2.contains g then (acc.1 ++ [(p.1, .inactive)], acc.2) else (acc.1 ++ [p], g :: acc.2)) ([], [])).1

end Sys2Proof.Machine
end

