-- ==== Sys2Proof/Machine/Predicate.lean ====
section
/-! DEFINITION. Predicate instructions (R102, R103). -/

namespace Sys2Proof.Machine

/-- cc, MOD[5:3]. -/
def ccOf (f : Form) : BitVec 3 := f.mod.extractLsb' 3 3

/-- `ICMP` (R103). -/
def execIcmp (f : Form) (s : State) : Host.Outcome State Fault Refusal :=
  runLanes 0x10 f s fun _ _ s r => .ok s { preds := [(f.d.toNat, aluIcmp (ccOf f) (modIt f.mod) r.a r.b)] }

/-- `FCMP` (R103). -/
def execFcmp (f : Form) (s : State) : Host.Outcome State Fault Refusal :=
  runLanes 0x11 f s fun _ _ s r =>
    let v := fCompare (ccOf f) (modIt f.mod) r.a r.b
    .ok s { preds := [(f.d.toNat, v.1)], flags := v.2 }

/-- A predicate of a thread. -/
def predAt (s : State) (t n : Nat) : Bool := ((s.threads[t]?).map fun th => predOf th n).getD true

/-- `PLOP`'s result in a lane. -/
def plopValue (f : Form) (s : State) (t : Nat) : Bool :=
  let op := f.mod.extractLsb' 0 2
  let a := predAt s t f.a.toNat != f.mod.getLsbD 2
  let b := predAt s t f.b.toNat != f.mod.getLsbD 3
  let c := predAt s t f.c.toNat != f.mod.getLsbD 4
  plopOp op (plopOp op a b) c

/-- `PLOP` (R103). -/
def execPlop (f : Form) (s : State) : Host.Outcome State Fault Refusal :=
  runLanes 0x12 f s fun _ _ s r => .ok s { preds := [(f.d.toNat, plopValue f s r.tid)] }

/-- Whether `SEL` chooses A in a thread. -/
def selFirst (f : Form) (th : Thread) : Bool := predOf th f.c.toNat != f.mod.getLsbD 1

/-- `SEL` resolves the source that it chooses, and one that HOLD copies (log 21). -/
def selSig (f : Form) (th : Thread) : Sig :=
  let sg := sigOf 0x13 f
  let held (i : Nat) : Bool := f.holdEntry ≠ 0#2 && decide (f.holdSrc.toNat = i)
  { sg with skipA := !(selFirst f th || held 0), skipB := selFirst f th && !held 1 }

/-- `SEL` (R103). -/
def execSel (f : Form) (s : State) : Host.Outcome State Fault Refusal :=
  runWith 0x13 f s (selSig f) (fun s _ => s) (fun _ ps => ps) fun _ _ s r =>
    let first := ((s.threads[r.tid]?).map (selFirst f)).getD true
    .ok s { vals := valueWords (if f.mod.getLsbD 0 then 64 else 32) (if first then r.a else r.b) }

/-- The predicates of a thread as bits; bit 7 is 1. -/
def predBits (s : State) (t : Nat) : DWord := BitVec.ofNat 64 (128 + ((s.threads[t]?).map (·.preds.toNat)).getD 0)

/-- `PMOV.get` (R103). -/
def execPmovGet (f : Form) (s : State) : Host.Outcome State Fault Refusal :=
  runLanes 0x14 f s fun _ _ s r => .ok s { vals := valueWords 32 (predBits s r.tid) }

/-- `PMOV.put` (R103). -/
def execPmovPut (f : Form) (s : State) : Host.Outcome State Fault Refusal :=
  runLanes 0x14 f s fun _ _ s r =>
    .ok s { preds := ((List.range 7).filter fun i => r.b.getLsbD i).map fun i => (i, r.a.getLsbD i) }

/-- The class bit of `FCLASS` (R103). -/
def fclassBit (f : Form) (a b : DWord) : Bool :=
  match typeFp (modBits f.mod 3 0) with
  | some t => b.getLsbD (fClass t (natLow (fpWidth t) a))
  | none => false

/-- `FCLASS` (R103). -/
def execFclass (f : Form) (s : State) : Host.Outcome State Fault Refusal :=
  runLanes 0x15 f s fun _ _ s r => .ok s { preds := [(f.d.toNat, fclassBit f r.a r.b)] }

end Sys2Proof.Machine
end

