-- ==== Sys2Proof/Machine/Integer.lean ====
section
/-! DEFINITION. Integer arithmetic (R105, R106). -/

namespace Sys2Proof.Machine

/-- IT of a form. -/
def itOf (f : Form) : BitVec 3 := modIt f.mod

/-- The saturate control that governs a form of an opcode (R74, R105). -/
def satOf (opc : BitVec 8) (f : Form) : Bool := satCtl (sigOf opc f) f

/-- The width of D for a type IT: a pair for a 64-bit type. -/
def outWidth (it : BitVec 3) : Nat := if itWidth it = 64 then 64 else 32

/-- `ADD` (R105). -/
def execAdd (f : Form) (s : State) : Host.Outcome State Fault Refusal :=
  runValue 0x20 f s (outWidth (itOf f)) fun r => aluAdd (itOf f) (satOf 0x20 f) r.a r.b

/-- `SUB` (R105). -/
def execSub (f : Form) (s : State) : Host.Outcome State Fault Refusal :=
  runValue 0x21 f s (outWidth (itOf f)) fun r => aluSub (itOf f) (satOf 0x21 f) r.a r.b

/-- `ADDC`'s sum and carry in a lane. -/
def addcPair (f : Form) (s : State) (r : Ready) : DWord × Bool :=
  aluAddc (itOf f) (f.mod.getLsbD 4) (f.mod.getLsbD 5) (predAt s r.tid f.c.toNat) r.a r.b

/-- `ADDC` (R106). -/
def execAddc (f : Form) (s : State) : Host.Outcome State Fault Refusal :=
  runLanes 0x22 f s fun _ _ s r =>
    .ok s { vals := valueWords (outWidth (itOf f)) (addcPair f s r).1, preds := [(f.c.toNat, (addcPair f s r).2)] }

/-- `MUL` (R105). -/
def execMul (f : Form) (s : State) : Host.Outcome State Fault Refusal :=
  runValue 0x23 f s (outWidth (itOf f)) fun r => aluMul (itOf f) (satOf 0x23 f) r.a r.b

/-- `MULH` (R105). -/
def execMulh (f : Form) (s : State) : Host.Outcome State Fault Refusal :=
  runValue 0x24 f s (outWidth (itOf f)) fun r => aluMulh (itOf f) r.a r.b

/-- `MAD` (R105). -/
def execMad (f : Form) (s : State) : Host.Outcome State Fault Refusal :=
  runValue 0x25 f s (outWidth (itOf f)) fun r => aluMad (itOf f) (satOf 0x25 f) r.a r.b r.c

/-- `MADW` (R105). -/
def execMadw (f : Form) (s : State) : Host.Outcome State Fault Refusal :=
  runValue 0x26 f s 64 fun r => aluMadw (itOf f) (satOf 0x26 f) r.a r.b r.c

/-- `ABS` (R105). -/
def execAbs (f : Form) (s : State) : Host.Outcome State Fault Refusal :=
  runValue 0x27 f s (outWidth (itOf f)) fun r => aluAbs (itOf f) (satOf 0x27 f) r.a

/-- `MIN` (R105). -/
def execMin (f : Form) (s : State) : Host.Outcome State Fault Refusal :=
  runValue 0x28 f s (outWidth (itOf f)) fun r => aluMin (itOf f) r.a r.b

/-- `MAX` (R105). -/
def execMax (f : Form) (s : State) : Host.Outcome State Fault Refusal :=
  runValue 0x29 f s (outWidth (itOf f)) fun r => aluMax (itOf f) r.a r.b

/-- `DOT4` (R105). -/
def execDot4 (f : Form) (s : State) : Host.Outcome State Fault Refusal :=
  runValue 0x2A f s 32 fun r =>
    aluDot4 (itOf f) (satOf 0x2A f) (f.mod.getLsbD 4) (f.mod.getLsbD 5) r.a r.b r.c

/-- `SAD` (R105). -/
def execSad (f : Form) (s : State) : Host.Outcome State Fault Refusal :=
  runValue 0x2B f s 32 fun r => aluSad (itOf f) (satOf 0x2B f) (f.mod.getLsbD 4) r.a r.b r.c

end Sys2Proof.Machine
end

