-- ==== Sys2Proof/Machine/Address.lean ====
section
/-! DEFINITION. Address instructions (R111, R112). -/

namespace Sys2Proof.Machine

/-- `LEA` (R111). -/
def execLea (f : Form) (s : State) : Host.Outcome State Fault Refusal :=
  runValue 0x40 f s 64 fun r => aluLea (modBits f.mod 2 0) (f.mod.getLsbD 3) r.a r.b

/-- The identifier of a thread's context by number. -/
def tensorOf (s : State) (t n : Nat) : Option Tensor := (contextOf s t).bind fun c => lookupNat c.tensors n

/-- The byte stride of a dimension of an identifier (R112, R194). -/
def strideOf (x : Tensor) (n : Nat) : DWord := (x.strides[n]?).getD 0

/-- The element address of `TADDR` (R112). -/
def tensorAddr (f : Form) (x : Tensor) (a b : DWord) : DWord :=
  let base := if f.mod.getLsbD 0 then x.base else a
  base + BitVec.ofInt 64 (intLow true 32 b * (strideOf x (modBits f.mod 3 1)).toInt)

/-- `TADDR` (R112). -/
def execTaddr (f : Form) (s : State) : Host.Outcome State Fault Refusal :=
  runLanes 0x41 f s fun _ _ s r =>
    match tensorOf s r.tid f.c.toNat with
    | some x =>
      if x.layout ≤ 1 then .ok s { vals := valueWords 64 (tensorAddr f x r.a r.b) }
      else .trap ⟨cILLOPND, 0, f.c.toNat, 0⟩
    | none => .trap ⟨cILLOPND, 0, f.c.toNat, 0⟩

end Sys2Proof.Machine
end

