-- ==== Sys2Proof/Machine/Float.lean ====
section
/-! DEFINITION. Floating-point arithmetic (R113 to R117). -/

namespace Sys2Proof.Machine

/-- F of a form, MOD[2:0] (R113). -/
def fOf (f : Form) : BitVec 3 := modIt f.mod

/-- `FPCTL`.RM of a thread's group (R56). -/
def rmOf (s : State) (t : Nat) : BitVec 3 := ((groupOf s t).map fun g => g.fpctl.extractLsb' 8 3).getD 0#3

/-- The rounding, saturate and flush that govern a form in a lane (R50, R56, R58, R74). -/
def ctlOf (opc : BitVec 8) (f : Form) (s : State) (t u : Nat) : FCtl :=
  let sg := sigOf opc f
  ⟨rndOf (rndCode sg f) (rmOf s t) u, satCtl sg f, ftzCtl sg f⟩

/-- Width of a result of format F. -/
def fWidth (f : BitVec 3) : Nat := if f = 1#3 then 64 else 32

/-- A floating-point instruction by its exact value (R114). -/
def runFloat (opc : BitVec 8) (f : Form) (s : State) (op : Rnd → Val → Val → Val → Exact) :
    Host.Outcome State Fault Refusal :=
  runFlagged opc f s (fWidth (fOf f)) (fun s _ => s) fun _ r =>
    let ctl := ctlOf opc f s r.tid 0
    fApply (fOf f) ctl (op ctl.rnd) r.a r.b r.c

/-- An instruction that passes its exact value on without rounding it (R114, R117). -/
def runPass (opc : BitVec 8) (f : Form) (s : State) (op : Rnd → Val → Val → Exact) : Host.Outcome State Fault Refusal :=
  runFlagged opc f s (fWidth (fOf f)) (fun s _ => s) fun _ r =>
    let ctl := ctlOf opc f s r.tid 0
    fPass (fOf f) ctl.sat ctl.ftz (op ctl.rnd) r.a r.b

/-- `FADD` (R114). -/
def execFadd (f : Form) (s : State) : Host.Outcome State Fault Refusal :=
  runFloat 0x50 f s (fun m x y _ => exactAdd m x y)

/-- `FSUB` (R114). -/
def execFsub (f : Form) (s : State) : Host.Outcome State Fault Refusal :=
  runFloat 0x51 f s (fun m x y _ => exactAdd m x (negVal y))

/-- `FMUL` (R114). -/
def execFmul (f : Form) (s : State) : Host.Outcome State Fault Refusal :=
  runFloat 0x52 f s (fun _ x y _ => exactMul x y)

/-- `FFMA` (R114). -/
def execFfma (f : Form) (s : State) : Host.Outcome State Fault Refusal :=
  runFloat 0x53 f s (fun m x y z => exactFma m x y z)

/-- `FMIN` (R114). -/
def execFmin (f : Form) (s : State) : Host.Outcome State Fault Refusal :=
  runPass 0x54 f s fun _ x y => minMaxNum false x y

/-- `FMAX` (R114). -/
def execFmax (f : Form) (s : State) : Host.Outcome State Fault Refusal :=
  runPass 0x55 f s fun _ x y => minMaxNum true x y

/-- `FRCP` (R114). -/
def execFrcp (f : Form) (s : State) : Host.Outcome State Fault Refusal :=
  runFloat 0x56 f s (fun _ x _ _ => exactDiv oneVal x)

/-- `FRSQ` (R114). -/
def execFrsq (f : Form) (s : State) : Host.Outcome State Fault Refusal :=
  runFloat 0x57 f s (fun _ x _ _ => exactRsqrt x)

/-- `FSQRT` (R114). -/
def execFsqrt (f : Form) (s : State) : Host.Outcome State Fault Refusal :=
  runFloat 0x58 f s (fun _ x _ _ => exactSqrt x)

/-- `FEXP2` (R114). -/
def execFexp2 (f : Form) (s : State) : Host.Outcome State Fault Refusal :=
  runFloat 0x59 f s (fun _ x _ _ => exactExp2 x)

/-- `FLOG2` (R114). -/
def execFlog2 (f : Form) (s : State) : Host.Outcome State Fault Refusal :=
  runFloat 0x5A f s (fun _ x _ _ => exactLog2 x)

/-- `FSIN` (R114). -/
def execFsin (f : Form) (s : State) : Host.Outcome State Fault Refusal :=
  runFloat 0x5B f s (fun _ x _ _ => exactSinPi x)

/-- `FCOS` (R114). -/
def execFcos (f : Form) (s : State) : Host.Outcome State Fault Refusal :=
  runFloat 0x5C f s (fun _ x _ _ => exactCosPi x)

/-- `FTANH` (R114). -/
def execFtanh (f : Form) (s : State) : Host.Outcome State Fault Refusal :=
  runFloat 0x5D f s (fun _ x _ _ => exactTanh x)

/-- `FDIV` (R114). -/
def execFdiv (f : Form) (s : State) : Host.Outcome State Fault Refusal :=
  runFloat 0x5E f s (fun _ x y _ => exactDiv x y)

/-- `FSCALE` (R113, R114): the one integer B scales each element. -/
def execFscale (f : Form) (s : State) : Host.Outcome State Fault Refusal :=
  runFlagged 0x5F f s (fWidth (fOf f)) (fun s _ => s) fun _ r =>
    fApply (fOf f) (ctlOf 0x5F f s r.tid 0) (fun x _ _ => exactScale x (intLow true 32 r.b)) r.a r.a r.a

/-- `FDOT2` (R116). -/
def execFdot2 (f : Form) (s : State) : Host.Outcome State Fault Refusal :=
  runFlagged 0x60 f s 32 (fun s _ => s) fun _ r => fDot2 (fOf f) (ctlOf 0x60 f s r.tid 0) r.a r.b r.c

/-- `FRND` (R117). -/
def execFrnd (f : Form) (s : State) : Host.Outcome State Fault Refusal :=
  runPass 0x61 f s fun m x _ => exactIntegral m x

end Sys2Proof.Machine
end

