-- ==== Sys2Proof/Machine/Convert.lean ====
section
/-! DEFINITION. Conversion (R118 to R125), with the stochastic generators of R53. -/

namespace Sys2Proof.Machine

/-! The stochastic generator (R53). -/

/-- SRSEED of a context. -/
def seedOf (s : State) (ctx : Nat) : Word := ((s.contexts[ctx]?).map (·.srseed)).getD 1#32

/-- The context of an issue group. -/
def issueCtx (s : State) (iss : Issue) : Nat := match iss.lanes with | (_, t) :: _ => ctxOf s t | [] => 0

/-- The generator of an issue group's partition and context: the seed until it has advanced. It keeps its state when the
context's teams have all left (log 116). -/
def genState (s : State) (iss : Issue) : Word :=
  (((coreAt s iss.die iss.site).gens.find? fun g => g.part = iss.part ∧ g.ctx = issueCtx s iss).map (·.state)).getD
    (seedOf s (issueCtx s iss))

/-- The generator advances once for an issued instruction whose rounding mode is SR. -/
def advanceGen (s : State) (iss : Issue) : State :=
  let g : SrGen := ⟨iss.part, issueCtx s iss, srAdvance (genState s iss)⟩
  modCore s iss.die iss.site fun c => { c with gens := g :: c.gens.filter fun x => !(x.part = g.part ∧ x.ctx = g.ctx) }

/-- What issuing a conversion does first. -/
def convStart (opc : BitVec 8) (f : Form) (s : State) (iss : Issue) : State :=
  if rndCode (sigOf opc f) f = 6#3 then advanceGen s iss else s

/-- The 32 bits a lane's roundings in SR draw from. -/
def laneBits (s : State) (iss : Issue) (lane : Nat) : Word := srLane (genState s iss) lane

/-- The low 16 of them (R53). -/
def laneU (s : State) (iss : Issue) (lane : Nat) : Nat := (laneBits s iss lane).toNat % 65536

/-- `CVT` (R118). -/
def execCvt (f : Form) (s : State) : Host.Outcome State Fault Refusal :=
  runFlagged 0x70 f s (if typeIs64 f.b.toNat then 64 else 32) (convStart 0x70 f) fun iss r =>
    fCvt f.b.toNat f.c.toNat (ctlOf 0x70 f s r.tid (laneU s iss r.lane)) r.a

/-- The scale type of `QNT` and `DQNT`, MOD[5:4]. -/
def scaleKind (f : Form) : BitVec 2 := f.mod.extractLsb' 4 2

/-- `QNT` (R120). -/
def execQnt (f : Form) (s : State) : Host.Outcome State Fault Refusal :=
  runFlagged 0x71 f s 32 (convStart 0x71 f) fun iss r =>
    fQnt f.c.toNat (scaleKind f) (ctlOf 0x71 f s r.tid (laneU s iss r.lane)) r.a r.b

/-- `DQNT` (R121). -/
def execDqnt (f : Form) (s : State) : Host.Outcome State Fault Refusal :=
  runFlagged 0x72 f s 32 (fun s _ => s) fun _ r => fDqnt f.c.toNat (scaleKind f) r.a r.b

/-- `PACK` (R122): under SR, A takes the low and B the high 16 bits of the lane's rotated state. -/
def execPack (f : Form) (s : State) : Host.Outcome State Fault Refusal :=
  runFlagged 0x73 f s 32 (convStart 0x73 f) fun iss r =>
    fPack f.c.toNat (f.mod.getLsbD 5) (ctlOf 0x73 f s r.tid (laneU s iss r.lane))
      (ctlOf 0x73 f s r.tid ((laneBits s iss r.lane).toNat / 65536)) r.dOld r.a r.b

/-- `UNPK` (R123). -/
def execUnpk (f : Form) (s : State) : Host.Outcome State Fault Refusal :=
  runFlagged 0x74 f s 64 (fun s _ => s) fun _ r => fUnpk f.c.toNat (f.mod.getLsbD 5) r.a

/-! Partners (R91). -/

/-- The group of a thread. -/
def groupIdOf (s : State) (t : Nat) : Nat := ((s.threads[t]?).map (·.group)).getD 0

/-- The contributing partners of a lane: the active threads of its group in the issue group, as prepared. -/
def contributors (s : State) (ps : List (Nat × Prep)) (r : Ready) : List Ready :=
  ps.filterMap fun p => match p.2 with
    | .ready x => if groupIdOf s x.tid = groupIdOf s r.tid then some x else none
    | .inactive | .trap _ | .hold _ => none

/-- A contributing partner in a lane. -/
def contributor (s : State) (ps : List (Nat × Prep)) (r : Ready) (lane : Nat) : Option Ready :=
  (contributors s ps r).find? fun x => x.lane = lane

/-- A of a partner that need not be active, none where it counts as absent: resolved with its own window and index
registers, nothing advanced or trapped (R91). -/
def partnerA (s : State) (iss : Issue) (sg : Sig) (f : Form) (r : Ready) (lane : Nat) : Option DWord :=
  match laneThread iss lane with
  | none => none
  | some t =>
    match s.threads[t]? with
    | none => none
    | some th =>
      if groupIdOf s t ≠ groupIdOf s r.tid || holdMissing th sg.a f.a then none
      else
        match resolveField s t th (windowOf s t) sg.a f.a th.xs with
        | none => none
        | some (a, _) =>
          if (residency th (windowOf s t) (resvOf s t) (stackPos a.place (roleRegs sg.a))).isSome then none
          else some (srcValue s t f sg.a a)

/-- A bit-per-lane word. -/
def laneWord (g : Nat → Bool) : DWord :=
  BitVec.ofNat 64 ((List.range 32).foldl (fun acc j => acc + (if g j then 2 ^ j else 0)) 0)

/-- `BPLN`'s plane in a lane (R124). -/
def bplnValue (w : Nat) (s : State) (ps : List (Nat × Prep)) (r : Ready) : DWord :=
  if r.lane < w then laneWord fun j => (contributor s ps r j).any fun x => x.a.getLsbD r.lane else 0

/-- `BPLN` (R124). -/
def execBpln (f : Form) (s : State) : Host.Outcome State Fault Refusal :=
  runLanes 0x75 f s fun _ ps s1 r => .ok s1 { vals := valueWords 32 (bplnValue (modBits f.mod 2 0) s ps r) }

/-- `BUNP`'s code in a lane (R124). -/
def bunpValue (f : Form) (s : State) (iss : Issue) (r : Ready) : DWord :=
  let w := modBits f.mod 2 0
  let c := (List.range w).foldl (fun acc i =>
    acc + (if (partnerA s iss (sigOf 0x76 f) f r i).any fun a => a.getLsbD r.lane then 2 ^ i else 0)) 0
  BitVec.ofNat 64 (if f.mod.getLsbD 3 ∧ 0 < w ∧ 2 ^ (w - 1) ≤ c then c + 2 ^ 32 - 2 ^ w else c)

/-- `BUNP` (R124). -/
def execBunp (f : Form) (s : State) : Host.Outcome State Fault Refusal :=
  runLanes 0x76 f s fun iss _ s1 r => .ok s1 { vals := valueWords 32 (bunpValue f s iss r) }

/-- `SCMAX` (R125). -/
def execScmax (f : Form) (s : State) : Host.Outcome State Fault Refusal :=
  runLanes 0x77 f s fun _ ps s1 r =>
    let v := fScmax f.c.toNat (f.mod.extractLsb' 0 2) ((contributors s ps r).map (·.a))
    .ok s1 { vals := valueWords 32 v.bits, flags := v.flags }

end Sys2Proof.Machine
end

