-- ==== Sys2Proof/Machine/Keccak.lean ====
section
/-! DEFINITION. SHAKE256 (R201, R373 to R375), as FIPS 202 defines it (log 10). -/

namespace Sys2Proof.Machine

/-- Lane (x, y) of the state, at index x + 5 y. -/
def kLane (a : List DWord) (x y : Nat) : DWord := (a[x % 5 + 5 * (y % 5)]?).getD 0

/-- The 25 lanes from a function of their places. -/
def kBuild (g : Nat → Nat → DWord) : List DWord := (List.range 25).map fun i => g (i % 5) (i / 5)

/-- θ. -/
def kTheta (a : List DWord) : List DWord :=
  let cols := (List.range 5).map fun x => (List.range 5).foldl (fun v y => v ^^^ kLane a x y) 0#64
  let cAt (x : Nat) : DWord := (cols[x % 5]?).getD 0
  kBuild fun x y => kLane a x y ^^^ (cAt (x + 4) ^^^ (cAt (x + 1)).rotateLeft 1)

/-- The rotations of ρ, at index x + 5 y. -/
def kRho : List Nat :=
  [0, 1, 62, 28, 27, 36, 44, 6, 55, 20, 3, 10, 43, 25, 39, 41, 45, 15, 21, 8, 18, 2, 61, 56, 14]

/-- ρ and π: lane (x, y) comes from lane (x + 3 y, x). -/
def kRhoPi (a : List DWord) : List DWord :=
  kBuild fun x y => (kLane a (x + 3 * y) x).rotateLeft ((kRho[(x + 3 * y) % 5 + 5 * (x % 5)]?).getD 0)

/-- χ. -/
def kChi (a : List DWord) : List DWord :=
  kBuild fun x y => kLane a x y ^^^ ((~~~ kLane a (x + 1) y) &&& kLane a (x + 2) y)

/-- The round constants of ι. -/
def kRound : List DWord :=
  [0x0000000000000001, 0x0000000000008082, 0x800000000000808A, 0x8000000080008000, 0x000000000000808B,
   0x0000000080000001, 0x8000000080008081, 0x8000000000008009, 0x000000000000008A, 0x0000000000000088,
   0x0000000080008009, 0x000000008000000A] ++
  [0x000000008000808B, 0x800000000000008B, 0x8000000000008089, 0x8000000000008003, 0x8000000000008002,
   0x8000000000000080, 0x000000000000800A, 0x800000008000000A, 0x8000000080008081, 0x8000000000008080,
   0x0000000080000001, 0x8000000080008008]

/-- Keccak-f[1600]. -/
def keccakF (a : List DWord) : List DWord :=
  kRound.foldl (fun a rc => let b := kChi (kRhoPi (kTheta a)); setAt b 0 (kLane b 0 0 ^^^ rc)) a

/-- The rate of SHAKE256 in bytes. -/
def shakeRate : Nat := 136

/-- A block of the rate absorbed. -/
def absorb (a : List DWord) (block : List Byte) : List DWord :=
  keccakF (a.mapIdx fun i x =>
    if i < shakeRate / 8 then x ^^^ BitVec.ofNat 64 (bitsOfBytes ((block.drop (8 * i)).take 8)) else x)

/-- The message padded to whole blocks. -/
def shakePad (m : List Byte) : List Byte :=
  let n := shakeRate - m.length % shakeRate
  if n = 1 then m ++ [0x9F#8] else m ++ [0x1F#8] ++ List.replicate (n - 2) 0 ++ [0x80#8]

/-- Absorbs blocks. -/
def absorbAll : Nat → List DWord → List Byte → List DWord
  | 0, a, _ => a
  | n + 1, a, m => absorbAll n (absorb a (m.take shakeRate)) (m.drop shakeRate)

/-- Squeezes blocks. -/
def squeezeAll : Nat → List DWord → List Byte
  | 0, _ => []
  | n + 1, a => (a.take (shakeRate / 8)).flatMap (fun x => bytesOf 8 x.toNat) ++ squeezeAll n (keccakF a)

/-- SHAKE256 of a message, n bytes. -/
def shake256 (m : List Byte) (n : Nat) : List Byte :=
  let p := shakePad m
  (squeezeAll ((n + shakeRate - 1) / shakeRate) (absorbAll (p.length / shakeRate) (List.replicate 25 0#64) p)).take n

/-- A measurement register extended by data (R374). -/
def extendMeasure (old data : List Byte) : List Byte := shake256 (old ++ shake256 data 64) 64

end Sys2Proof.Machine
end

