-- ==== Sys2Proof/Machine/Phy.lean ====
section
/-! DEFINITION. The PHY register blocks of bring-up mode (R378 to R382). -/

namespace Sys2Proof.Machine

/-- The block and offset of a PHY address (R378). -/
def phyBlockOf (pa : Nat) : PhyBlock × Nat :=
  let a := pa - phyBase
  (⟨a / 0x100000, a / 0x1000 % 256, a / 0x800 % 2⟩, a % 0x800)

/-- A block nothing has written (R379). -/
def phyFresh (b : PhyBlock) : Phy := ⟨b, [], none, false⟩

/-- A block of the package. -/
def phyAt (s : State) (b : PhyBlock) : Phy :=
  ((s.homes[b.stack]?).bind fun h => h.phys.find? fun p => p.block = b).getD (phyFresh b)

/-- Replaces a block. -/
def phyPut (s : State) (p : Phy) : State :=
  modHome s p.block.stack fun h => { h with phys := p :: h.phys.filter fun q => q.block ≠ p.block }

/-- The bytes of the register that an offset names, none for no register (R379). -/
def phyWidth (off : Nat) : Option Nat :=
  if off = 0 ∨ off = 0x010 ∨ off = 0x018 then some 4
  else if 0x100 ≤ off ∧ off ≤ 0x180 ∧ off % 4 = 0 then some 4
  else if 0x200 ≤ off ∧ off ≤ 0x280 ∧ off % 4 = 0 then some 4
  else if 0x300 ≤ off ∧ off ≤ 0x400 ∧ off % 8 = 0 then some 8
  else if 0x500 ≤ off ∧ off ≤ 0x600 ∧ off % 8 = 0 then some 8
  else if 0x700 ≤ off ∧ off ≤ 0x77C ∧ off % 4 = 0 then some 4
  else none

/-- One register word; the delays reset to 32 (R379). -/
def phyReg (p : Phy) (off : Nat) : Word :=
  (lookupNat p.regs off).getD
    (if (0x100 ≤ off ∧ off ≤ 0x180) ∨ (0x200 ≤ off ∧ off ≤ 0x280) then 32 else 0)

/-- Sets a register word. -/
def phySet (p : Phy) (off : Nat) (v : Word) : Phy := { p with regs := insertNat p.regs off v }

/-- Reads a register's bytes. -/
def phyRead (s : State) (b : PhyBlock) (off n : Nat) : List Byte :=
  let p := phyAt s b
  if off = 0x018 then bytesOf 4 (if p.done then 1 else 0)
  else if n = 8 then bytesOf 4 (phyReg p off).toNat ++ bytesOf 4 (phyReg p (off + 4)).toNat
  else bytesOf 4 (phyReg p off).toNat

/-- The wire of a lane of a block (R379, R381). -/
def phyWire (b : PhyBlock) (lane : Nat) : Nat := ((b.stack * 32 + b.channel) * 2 + b.pseudo) * 33 + lane

/-- Starts a read point (R380). -/
def phyReadPoint (s : State) (b : PhyBlock) (tap : Nat) : State :=
  phyPut s { phySet (phyAt s b) 0 (BitVec.ofNat 32 (tap * 256)) with test := some (0, tap, s.clk + 1024) }

/-- Starts a write point (R380). -/
def phyWritePoint (s : State) (b : PhyBlock) (tap : Nat) : State :=
  phyPut s { phySet (phyAt s b) 0 (BitVec.ofNat 32 (tap * 256 + 1)) with test := some (1, tap, s.clk + 1024) }

/-- Starts a PRBS test (R380); the tap field of the write stays in `PCTL`. -/
def phyPrbs (s : State) (b : PhyBlock) : State :=
  let old := phyReg (phyAt s b) 0
  phyPut s { phySet (phyAt s b) 0 ((old &&& 0x3F00#32) ||| 2#32) with test := some (2, 0, s.clk + 16384) }

/-- A bit of a 64-bit pass mask set or cleared. -/
def phyMark (p : Phy) (off tap : Nat) (ok : Bool) : Phy :=
  let o := if tap < 32 then off else off + 4
  let m : Word := BitVec.ofNat 32 (2 ^ (tap % 32))
  phySet p o (if ok then phyReg p o ||| m else phyReg p o &&& ~~~ m)

/-- The swap of `PSWAP` (R381): the swapped lane while it is enabled. -/
def phySwapped (p : Phy) : Option Nat :=
  let v := phyReg p 0x010
  if v.getLsbD 6 then some (v.toNat % 32) else none

/-- A test ends (R380): pass masks or error counts, outcomes of the eyes being free values (log 13). -/
def phyComplete (s : State) (b : PhyBlock) : State :=
  let p := phyAt s b
  match p.test with
  | none => s
  | some (kind, tap, _) =>
    let k := s.seed
    let s := { s with seed := k + 1 }
    let p : Phy := { p with test := none }
    let p :=
      if kind = 0 then (List.range 33).foldl (fun p i => phyMark p (0x300 + 8 * i) tap (Config.phyPass true (phyWire b i) tap k)) p
      else if kind = 1 then (List.range 33).foldl (fun p i => phyMark p (0x500 + 8 * i) tap (Config.phyPass false (phyWire b i) tap k)) p
      else (List.range 32).foldl (fun p i =>
        let wire := if phySwapped p = some i then 32 else i
        phySet p (0x700 + 4 * i) (BitVec.ofNat 32 (min (Config.phyErrors (phyWire b wire) k) 0xFFFFFFFF))) p
    phyPut s p

/-- A write of `PSWAP` (R381): ignored with a reserved bit set. -/
def phyPswap (s : State) (b : PhyBlock) (v : Word) : State :=
  if v &&& 0xFFFFFFA0#32 = 0#32 then phyPut s (phySet (phyAt s b) 0x010 v) else s

/-- A write of `PDONE` (R382): anything but 1 is ignored. -/
def phyPdone (s : State) (b : PhyBlock) (v : Word) : State :=
  if v = 1#32 then phyPut s { phyAt s b with done := true } else s

/-- A write of a register without behaviour of its own (R379): delays take bits [5:0], a reserved bit or a read-only
register makes it ignored. -/
def phyRegisterWrite (s : State) (b : PhyBlock) (off : Nat) (v : Word) : State :=
  if ((0x100 ≤ off ∧ off ≤ 0x180) ∨ (0x200 ≤ off ∧ off ≤ 0x280)) ∧ off % 4 = 0 then
    phyPut s (phySet (phyAt s b) off (v &&& 0x3F#32))
  else s

/-- A write to a block's register (R379 to R382). -/
def phyWrite (s : State) (b : PhyBlock) (off : Nat) (v : Word) : State :=
  if off = 0 then
    if v &&& 0xFFFFC0FC#32 ≠ 0#32 then s
    else
      let tap := v.toNat / 256 % 64
      let kind := v.toNat % 4
      if kind = 0 then phyReadPoint s b tap
      else if kind = 1 then phyWritePoint s b tap
      else if kind = 2 then phyPrbs (phyPut s (phySet (phyAt s b) 0 v)) b
      else s
  else if off = 0x010 then phyPswap s b v
  else if off = 0x018 then phyPdone s b v
  else phyRegisterWrite s b off v

end Sys2Proof.Machine
end

