-- ==== Sys2Proof/Machine/Access.lean ====
section
/-! DEFINITION. Memory accesses of threads: addresses and checks (R136 to R139), the access as issued, and its
performance by its keeper (R140 to R144, R147, R148, R154, R160 to R163, R260, R261, R265, R268, R276, R308, R312; log
3). -/

namespace Sys2Proof.Machine

/-! Addresses. -/

/-- EA (R136): A plus B, read as `.i32`, times a scale. -/
def effective (a b : DWord) (scale : Nat) : DWord := a + BitVec.ofInt 64 (intLow true 32 b * (scale : Int))

/-- A thread's private limit (R137). -/
def privLimit (s : State) (t : Nat) : Nat :=
  min (launchOf s t).privlim (((contextOf s t).map fun c => c.privlim.toNat).getD 0)

/-- The global address of a private byte (R138). -/
def privAddr (s : State) (t p : Nat) : Nat :=
  ((groupOf s t).map (·.privBase)).getD 0 + (p / 4 * 32 + ((s.threads[t]?).map (·.lane)).getD 0) * 4 + p % 4

/-- The virtual ranges of a private access: one piece a word (R138). -/
def privRanges (s : State) (t p n : Nat) : List (Nat × Nat) :=
  if n ≤ 4 then [(privAddr s t p, n)] else (List.range (n / 4)).map fun i => (privAddr s t (p + 4 * i), 4)

/-- An access after its checks: its place, the translation of its first page, and the key ids of its pages. -/
inductive Located where
  | ok (place : Place) (x : Xlat) (keys : List (Nat × Nat))
  | trap (i : TrapInfo)
  | hold (w : Wait)
  deriving DecidableEq, Repr

/-- Where a translation is of no concern. -/
def noXlat : Xlat := ⟨0, 0, false, false, 0, false, false, false⟩

/-- An access to a PHY register (R378): the block's rules. -/
def phyLocated (pa ea n : Nat) : Located :=
  let (_, off) := phyBlockOf pa
  if phyWidth off = some n then .ok (.phys [(pa, n)]) noXlat [] else .trap (trapAt cPROT ea)

/-- The scratchpad object of an access, after its limit, what the frame logic meets, and its sectors' marks (R137, R239,
R361). -/
def spadLocated (s : State) (r : SpadRef) (ea n limit : Nat) (need : Need) (wholes : List Nat) : Located :=
  if limit < r.off + n then .trap (trapAt cPROT ea)
  else
    match (spadPages r n).findSome? fun p => refillFault s r.team p need.w with
    | some i => .trap i
    | none => match spadMark s r n ea need wholes with
      | some i => .trap i
      | none => .ok (.spad r n) noXlat []

/-- A team of a thread's cluster by rank. -/
def siblingTeam (s : State) (t rank : Nat) : Option Nat :=
  ((teamOf s t).bind fun m => s.clusters[m.cluster]?).bind fun c => c.teams[rank]?

/-- Whether a thread has an access outstanding. -/
def hasAccess (s : State) (t : Nat) : Bool := s.accs.any fun a => a.owners.contains t

/-- Whether pieces meet byte ranges given by their first and last bytes. -/
def piecesMeet (ps rs : List (Nat × Nat)) : Bool :=
  ps.any fun p => p.2 ≠ 0 && rs.any fun r => r.1 < p.1 + p.2 && p.1 ≤ r.2

/-- Whether pieces meet a range of an eager copy of a thread's own that has not completed (R154), or of another engine
operation of its own whose locks are not registered yet (log 111). -/
def ownCopyMeets (s : State) (t : Nat) (ps : List (Nat × Nat)) : Bool :=
  s.engines.any fun e => (e.engine = 8 || !e.locked) && e.node.isNone && e.tid = t && piecesMeet ps e.ranges

/-- The outcome of the checks of a thread's access. An access that meets a lock is checked where it is performed, after
the thread's earlier accesses: it waits for them, and takes RLOCK when the lock is still there (R262, R276; log 111). -/
def threadChecked (s : State) (t : Nat) (o : Checked) : Checked :=
  match o with
  | .trap i => if i.code = cRLOCK ∧ hasAccess s t then .hold .accesses else .trap i
  | .hold w => .hold w
  | .ok ps x ks => if ownCopyMeets s t ps then .hold .ownLock else .ok ps x ks

/-- The place of a thread's access whose checks have an outcome; a read of a data page has a good header (R255). -/
def checkedPlace (s : State) (t ea : Nat) (need : Need) (o : Checked) : Located :=
  match threadChecked s t o with
  | .trap i => .trap i
  | .hold w => .hold w
  | .ok ps x ks => if need.r ∧ badHeader s x then .trap ⟨cMEMERR, ea, 0, 0⟩ else .ok (.phys ps) x ks

/-- The checks of R139 for an access of n bytes at EA in a space, in their order. -/
def locate (s : State) (t space ea n align : Nat) (need : Need) (wholes : List Nat) : Located :=
  let c := ctxOf s t
  if ea % align ≠ 0 then .trap (trapAt cALIGN ea)
  else if space = 3 then
    let lim := privLimit s t
    if lim < ea + n then .trap ⟨cSTKLIM, ea, 0, lim⟩
    else
      let rs := privRanges s t ea n
      checkedPlace s t ((rs.headD (0, 0)).1) need (rangeChecks s c (some t) ((rs.headD (0, 0)).1) need wholes rs)
  else if space = 1 then spadLocated s ⟨teamIdOf s t, ea⟩ ea n (launchOf s t).spad need wholes
  else if space = 2 then
    if 2 ^ 24 ≤ ea then .trap (trapAt cPROT ea)
    else
      match siblingTeam s t (ea / 2 ^ 20) with
      | none => .trap (trapAt cPROT ea)
      | some m => spadLocated s ⟨m, ea % 2 ^ 20⟩ ea n (launchOf s t).spad need wholes
  else if 2 ^ 57 ≤ ea ∨ 2 ^ 57 < ea + n then .trap (trapAt cPROT ea)
  else
    match translate s c ea with
    | .ok x =>
      if phyBase ≤ x.pa then phyLocated x.pa ea n
      else checkedPlace s t ea need (rangeChecks s c (some t) ea need wholes [(ea, n)])
    | .pagef | .prot => checkedPlace s t ea need (rangeChecks s c (some t) ea need wholes [(ea, n)])

/-! Issue. -/

/-- Where a returning value goes: n registers of a place; `span`: the positions that an indirect destination holds
pending meanwhile (R26). A uniform destination is that of the lowest lane of the group that completes (R20). -/
def destOf (s : State) (t : Nat) (l : Loc) (n : Nat) (span : Option (Nat × Nat)) : Dest :=
  match l with
  | .vec p => let (lo, len) := span.getD (p, n); .vec p n lo len
  | .scr k => .scratch k n
  | .uni k =>
    let g := ((s.threads[t]?).map (·.group)).getD 0
    if s.accs.any fun a => decide (a.issue = s.issueNo) && (match a.dest with | .uni h _ _ => h = g | _ => false) then .none
    else .uni g k n
  | .void => .none

/-- A plain access of a thread at its core. -/
def accessOf (s : State) (t : Nat) (kind : AccKind) (place : Place) (size va : Nat) (x : Xlat) (keys : List (Nat × Nat)) :
    Access :=
  let (d, c) := coreOf s t
  { id := s.nextId, tid := t, owners := [t], ctx := ctxOf s t, die := d, site := c, issue := s.issueNo, kind := kind,
    place := place, size := size, va := va, keys := keys, ms := x.ms, lbc := lbcData x, writeBack := false,
    bytes := [], cmp := 0, dest := .none, ctr := .none, node := none, wholes := [], copies := [], peeked := [] }

/-- The pages whose translations an access uses may be cached from then on (R352). -/
def cacheAccess (s : State) (a : Access) : State :=
  match a.place with
  | .phys _ => if a.writeBack then cacheRange s a.ctx (privAddr s a.tid a.va) (32 * a.size) else cacheRange s a.ctx a.va a.size
  | .spad _ _ | .nothing => s

/-- Issues an access: its counter rises and it is outstanding (R140). -/
def enqueue (s : State) (a : Access) : State :=
  let s := cacheAccess { s with accs := s.accs ++ [a], nextId := s.nextId + 1 } a
  a.owners.foldl (fun s t => raiseCtr s t a.ctr) s

/-! Performance. -/

/-- The sectors of a place and the bytes of each: sector, offset, count, in order. -/
def placePieces (p : Place) : List (Nat × Nat × Nat) :=
  match p with
  | .phys ps => ps.flatMap fun q =>
      if q.2 = 0 then [] else
      (List.range ((q.1 + q.2 - 1) / 64 - q.1 / 64 + 1)).map fun i =>
        let sec := q.1 / 64 + i
        let lo := max q.1 (sec * 64)
        (sec, lo - sec * 64, min (q.1 + q.2) (sec * 64 + 64) - lo)
  | .spad r n => (spadSectors r n).map fun sec =>
      let lo := max r.off (sec * 64)
      (spadSector r.team sec, lo - sec * 64, min (r.off + n) (sec * 64 + 64) - lo)
  | .nothing => []

/-- Whether two accesses touch a common byte. -/
def placesMeet (p q : Place) : Bool :=
  match p, q with
  | .phys a, .phys b => a.any fun x => b.any fun y => x.1 < y.1 + y.2 && y.1 < x.1 + x.2
  | .spad r n, .spad u m => r.team = u.team && r.off < u.off + m && u.off < r.off + n
  | _, _ => false

/-- Whether an access is an event of the package order (R140, R260, R261). -/
def orderedKind (a : Access) : Bool :=
  match a.kind with
  | .load _ stale _ => !stale && a.place ≠ .nothing
  | .store => a.place ≠ .nothing
  | .matz | .alq => false
  | .flush _ _ discard => discard
  | _ => true

/-- Whether an access changes bytes of its place. -/
def writesPlace (a : Access) : Bool :=
  match a.kind with
  | .store | .atom _ _ | .acas _ | .red _ _ _ | .copy _ _ _ _ _ | .abinit _ _ | .abarv _ | .record _ _ => true
  | .flush _ _ discard => discard
  | _ => false

/-- Whether an earlier access holds a later one up: events of one thread keep their order, and so do the lanes of one
instruction on common bytes (R141, R268); an `LD.S` is never older than a store of its own thread (R142). -/
def holdsUp (b a : Access) : Bool :=
  let mine := b.owners.any fun t => a.owners.contains t
  if orderedKind a then orderedKind b && (mine || (b.issue = a.issue && placesMeet b.place a.place))
  else match a.kind with
    | .load _ _ _ => mine && writesPlace b && placesMeet b.place a.place
    | _ => false

/-- Whether an access may be performed, as to the accesses before it. -/
def performable (l : List Access) (a : Access) : Bool :=
  match l with
  | [] => true
  | b :: r => if b.id = a.id then true else if holdsUp b a then false else performable r a

/-- The operation number of a node's own locks. -/
def nodeLock (s : State) (node : Option (Nat × Nat)) : Option Nat :=
  node.bind fun p => (nodeAt s p.1 p.2).bind (·.lockOp)

/-- Physical pieces of an access. -/
def accessPieces (a : Access) : List (Nat × Nat) := match a.place with | .phys ps => ps | .spad _ _ | .nothing => []

/-- Whether an access stands behind an eager copy of its own thread on common bytes (R154, R270). -/
def behindCopy (s : State) (a : Access) : Bool :=
  s.engines.any fun e => e.engine = 8 && e.node.isNone && e.id < a.id && a.owners.contains e.tid
    && piecesMeet (accessPieces a) e.ranges

/-- The thread of an access, none for a graph node's. -/
def accessThread (a : Access) : Option Nat := if a.node.isSome then none else some a.tid

/-- Whether an access meets a lock of another's operation where it is performed (R276; log 111). -/
def lockedOut (s : State) (a : Access) : Bool :=
  orderedKind a && (lockHitOf s (accessThread a) (nodeLock s a.node) (accessPieces a)).any fun k =>
    k.owner = none || k.owner ≠ accessThread a

/-- Whether a slice or a home applies another `RED` message to the sector of an access (R300, R308). -/
def behindMessage (s : State) (a : Access) : Bool :=
  match a.kind with
  | .red _ _ false => s.accs.any fun b => b.id ≠ a.id && (b.die = a.die || b.ms) && placesMeet b.place a.place && (match b.kind with
      | .red _ _ begun => begun
      | _ => false)
  | _ => false

/-- Whether an access may be performed now, as to other accesses and operations. -/
def mayPerform (s : State) (a : Access) : Bool :=
  performable s.accs a && !behindCopy s a && !lockedOut s a && !behindMessage s a

/-- The largest timestamp before an access, its floor: its thread's ptime, or its graph node's (R268, R325). -/
def accessFloor (s : State) (a : Access) : Nat :=
  match a.node with
  | some p => ((nodeAt s p.1 p.2).map (·.ts)).getD 0
  | none => ((s.threads[a.tid]?).map (·.ptime)).getD 0

/-- An outstanding access by id, when it may be performed. -/
def readyAccess (s : State) (id : Nat) : Option Access :=
  (s.accs.find? fun a => a.id = id).bind fun a => if mayPerform s a then some a else none

/-- An access ends: it is outstanding no more, its counters fall, and fences and barriers that waited for it go on. -/
def endAccess (s : State) (a : Access) : State :=
  let s := { s with accs := s.accs.filter fun b => b.id ≠ a.id }
  let s := match a.node with | some p => send s [.nodeComplete p.1 p.2] | none => s
  a.owners.foldl (fun s t =>
    let s := raiseFences (lowerCtr s t a.ctr) a.id t
    if threadExited s t then settleBarriers s (teamIdOf s t) else s) s

/-- Writes a returning value to its destination. -/
def deliverTo (s : State) (t : Nat) (d : Dest) (ws : List Word) : State :=
  match d with
  | .none => s
  | .vec p n _ _ => modThread s t fun th => setStacks th p (ws.take n)
  | .uni g k n => modGroup s g fun x => { x with ks := setUnis x.ks k (ws.take n) }
  | .scratch k n => modThread s t fun th => setScratches th k (ws.take n)

/-- The register image of loaded bytes (R143). -/
def loadImage (bs : List Byte) (sext : Bool) : List Word :=
  match bs.length with
  | 1 => let b : Byte := BitVec.ofNat 8 (bitsOfBytes bs); [if sext then b.signExtend 32 else b.zeroExtend 32]
  | 2 => let b : BitVec 16 := BitVec.ofNat 16 (bitsOfBytes bs); [if sext then b.signExtend 32 else b.zeroExtend 32]
  | n => (List.range (n / 4)).map fun i => BitVec.ofNat 32 (bitsOfBytes ((bs.drop (4 * i)).take 4))

/-- Whether some request of a die for a sector is already under way. -/
def requested (s : State) (die sec : Nat) : Bool :=
  let mine (q : HomeReq) : Bool := q.die = die && q.kind < 4
  (s.net.any fun i => match i with
    | .rds d x | .rdx d x | .upg d x => d = die && x = sec
    | .pjoin d x _ => d = die && x = sec
    | .data m | .grant m => m.die = die && m.sec = sec
    | _ => false)
  || (match busyOf s sec with
      | some b => mine b.req || b.queue.any mine
      | none => false)
  || ((s.homes[homeOf (sec * 64)]?).any fun h => h.dirWait.any fun w => w.1 = sec && mine w.2)

/-- Sends a request once, when a way of the sector's set is left for it (R247). -/
def ask (s : State) (die sec : Nat) (i : Instr) : State :=
  if requested s die sec || !l2CanAsk s die (sec / 4) then s else send s [i]

/-- Whether an access goes to its home rather than through L1 and L2: MS and LBC pages, fresh loads, bring-up SRAM. -/
def atHome (a : Access) (fresh : Bool) (sec : Nat) : Bool := a.ms || a.lbc || fresh || !taggedSector sec

/-- Peat takes the lines of a load of an LBC data page as it stores them (R249). -/
def touchEncoded (s : State) (a : Access) (fresh : Bool) : State :=
  if !a.lbc then s
  else (pieceSectors (accessPieces a)).foldl (fun s sec => touchLine s sec (some a.ctx) (some (lbcUnitsAt s (sec * 64) (fresh || a.ms)))) s

/-- A load of bring-up SRAM or of a home (R147, R254, R377): one event over its pieces. -/
def loadHome (s : State) (a : Access) (fresh : Bool) : State × List Byte :=
  let bs (p : Nat × Nat) : List Byte := if a.lbc then lbcBytes s p.1 p.2 else currentBytes s p.1 p.2
  let pt := ((s.threads[a.tid]?).map (·.ptime)).getD 0
  let (s1, ts) := (accessPieces a).foldl (fun (acc : State × Nat) p =>
    let (s, _, ts) := readBytesNow acc.1 p.1 p.2 (some a.ctx) acc.2
    (s, ts)) (touchEncoded s a fresh, pt)
  let s2 := (pieceSectors (accessPieces a)).foldl (fun s sec => homeTimesMax s sec 0 ts) s1
  (raisePtime s2 a.tid ts, (accessPieces a).flatMap bs)

/-- The sectors of a load that its die cannot read yet. -/
def unreadable (s : State) (a : Access) : List Nat :=
  (placePieces a.place).filterMap fun p =>
    if (keeperRead s a.tid a.die a.site a.ctx p.1 a.writeBack).isSome then none else some p.1

/-- Loads the bytes of a place from its keepers, in order. -/
def loadPass (s : State) (a : Access) : State × List Byte :=
  (placePieces a.place).foldl (fun acc p =>
    match keeperRead acc.1 a.tid a.die a.site a.ctx p.1 a.writeBack with
    | some (s, x) => (s, acc.2 ++ secGet x p.2.1 p.2.2)
    | none => acc) (s, [])

/-- Loads the bytes of a place from its keepers at one point of the package order (R260): a load whose later sector
raises its thread's ptime reads again at that time. An error: the sectors the die must ask for. -/
def loadKeepers : Nat → State → Access → Except (List Nat) (State × List Byte)
  | 0, s, a => .ok (loadPass s a)
  | n + 1, s, a =>
    match unreadable s a with
    | [] =>
      let r := loadPass s a
      if ((r.1.threads[a.tid]?).map (·.ptime)) = ((s.threads[a.tid]?).map (·.ptime)) then .ok r else loadKeepers n r.1 a
    | l => .error l

/-- Registers of a returned load. -/
def returnLoad (s : State) (a : Access) (bs : List Byte) (sext : Bool) : State :=
  endAccess (deliverTo s a.tid a.dest (loadImage bs sext)) a

/-! `LD.S` and `LD.F` (R142, R272, R312, R313). -/

/-- What an `LD.S` of a sector may return by a copy that its thread's L1 or its die's L2 holds now (R142). A write-back L1
of another core writes the sector into L2 first (R313); a copy that may be older than a store of its thread does not
count: one whose lease has ended and that stood in the L1 before a restore placed the thread there. -/
def staleCopies (s : State) (t die site sec : Nat) : State × List Sector :=
  let c := coreAt s die site
  let s := if (l1At c sec).any (·.own) then s else collapseL1 s die sec
  let pt := ((s.threads[t]?).map (·.ptime)).getD 0
  let since := ((teamOf s t).bind (·.since)).getD 0
  let l1 := (l1At (coreAt s die site) sec).filter fun l => l.own || since ≤ l.granted || pt ≤ l.rts
  let l2 := (l2At s die sec).filter fun x => x.st ≠ .p
  (s, (l1.map (·.bytes)).toList ++ if l1.any (·.own) then [] else (l2.map (·.bytes)).toList)

/-- An `LD.S` as issued: the copies held now; none counts while a store of its own thread to the bytes is outstanding. -/
def withCopies (s : State) (a : Access) : State × Access :=
  match a.kind, placePieces a.place with
  | .load _ true _, (sec, _) :: _ =>
    if a.ms || a.lbc || !taggedSector sec || s.accs.any (fun b => holdsUp b a) then (s, a)
    else let (s, l) := staleCopies s a.tid a.die a.site sec; (s, { a with copies := [(sec, l)] })
  | _, _ => (s, a)

/-- Whether a load waits among a sector's requests at its home. -/
def queuedLoad (s : State) (sec id : Nat) : Bool :=
  let mine (q : HomeReq) : Bool := 4 ≤ q.kind && q.tag = id
  (match busyOf s sec with
    | some b => mine b.req || b.queue.any mine
    | none => false)
  || ((s.homes[homeOf (sec * 64)]?).any fun h => h.dirWait.any fun w => w.1 = sec && mine w.2)

/-- A load that is served at its home takes its turn there (R297, R312). -/
def joinHome (s : State) (a : Access) (sec kind : Nat) : State :=
  if queuedLoad s sec a.id then s else homeRequest s sec ⟨kind, a.die, a.id⟩

/-- Asks once for every absent page of an object for which a frame can be had (R240). -/
def askRefills (s : State) (r : SpadRef) (n : Nat) : State :=
  (spadPages r n).foldl (fun s p =>
    let i : Instr := .scratchpadRefill r.team p
    if (frameAt s r.team p).isSome ∨ s.net.contains i ∨ roomFor s r.team = .none then s else send s [i]) s

/-- The sectors of a load at its home that are busy. -/
def busySectors (s : State) (a : Access) : List Nat := (pieceSectors (accessPieces a)).filter fun sec => (busyOf s sec).isSome

/-- Performs a load; the state is as before while it must wait. -/
def performLoad (s : State) (a : Access) (fresh stale sext : Bool) : State :=
  match a.place with
  | .nothing => endAccess (deliverTo s a.tid a.dest (loadImage a.bytes sext)) a
  | .spad r n =>
    if spadReady s r n then
      let pt := ((s.threads[a.tid]?).map (·.ptime)).getD 0
      let (s, bs, ts) := spadRead s r n pt
      returnLoad (raisePtime s a.tid ts) a bs sext
    else askRefills s r n
  | .phys _ =>
    match placePieces a.place with
    | [] => endAccess s a
    | (sec, off, n) :: _ =>
      if phyBase ≤ sec * 64 then
        let (b, o) := phyBlockOf (sec * 64 + off)
        if (phyAt s b).test.isSome then s else returnLoad s a (phyRead s b o n) sext
      else if stale ∧ !a.ms ∧ !a.lbc ∧ taggedSector sec then
        match (lookupNat a.copies sec).getD [], lookupNat a.peeked sec with
        | x :: l, _ =>
          let v := (((x :: l)[Config.freePick s.seed % (l.length + 1)]?).getD x)
          returnLoad { s with seed := s.seed + 1 } a (secGet v off n) sext
        | [], some x => returnLoad s a (secGet x off n) sext
        | [], none => joinHome s a sec 4
      else if atHome a fresh sec then
        match busySectors s a with
        | [] => let (s, bs) := loadHome s a fresh; returnLoad s a bs sext
        | x :: _ => joinHome s a x 5
      else
        match loadKeepers 16 s a with
        | .ok (s, bs) => returnLoad s a bs sext
        | .error l => l.foldl (fun s sec => ask s a.die sec (keeperAsk s a.die sec false)) s

/-- A sector's bytes of a store, and their mask. -/
def storePiece (bs : List Byte) (skip : Nat) (p : Nat × Nat × Nat) : Sector × BitVec 64 :=
  (secPut 0 p.2.1 ((bs.drop skip).take p.2.2), BitVec.ofNat 64 ((2 ^ p.2.2 - 1) * 2 ^ p.2.1))

/-- Stores bytes at a home (R147, R377), the writing core's L1 copy refreshed. -/
def storeHome (s : State) (a : Access) : State :=
  let pt := ((s.threads[a.tid]?).map (·.ptime)).getD 0
  let ts := (placePieces a.place).foldl (fun t p => max t (writeStamp s p.1 pt)) pt
  let (s, _) := (placePieces a.place).foldl (fun (acc : State × Nat) p =>
    let (x, m) := storePiece a.bytes acc.2 p
    (refreshL1 (writeNow acc.1 p.1 x m (some a.ctx) ts) a.die a.site p.1 ts, acc.2 + p.2.2)) (s, 0)
  raisePtime s a.tid ts

/-- A sector that an instruction writes whole takes its new tag, its marks cleared, with the last of the stores into it
(R148, R354, R361). -/
def retagWholes (s : State) (a : Access) : State :=
  (((placePieces a.place).map (·.1)).filter fun sec => a.wholes.contains sec
    && !s.accs.any fun b => b.id ≠ a.id && b.issue = a.issue && b.wholes.contains sec
      && (placePieces b.place).any fun p => p.1 = sec).foldl (fun s sec => clearMark s sec (keyIn a.keys sec)) s

/-- A store has been performed. -/
def storeDone (s : State) (a : Access) : State := endAccess (retagWholes s a) a

/-- Performs a store. -/
def performStore (s : State) (a : Access) : State :=
  match a.place with
  | .nothing => endAccess s a
  | .spad r n =>
    if spadReady s r n then
      let pt := ((s.threads[a.tid]?).map (·.ptime)).getD 0
      let (s, ts) := spadWrite s r a.bytes pt
      storeDone (raisePtime s a.tid ts) a
    else askRefills s r n
  | .phys _ =>
    match placePieces a.place with
    | [] => endAccess s a
    | (sec, off, _) :: _ =>
      if phyBase ≤ sec * 64 then
        let (b, o) := phyBlockOf (sec * 64 + off)
        if (phyAt s b).test.isSome then s
        else endAccess (phyWrite s b o (BitVec.ofNat 32 (bitsOfBytes a.bytes))) a
      else if atHome a false sec then storeDone (storeHome s a) a
      else
        let ps := placePieces a.place
        match (ps.map (·.1)).filter fun x => !keeperOwns s a.die a.site x with
        | [] =>
          let pt := ((s.threads[a.tid]?).map (·.ptime)).getD 0
          let ts := ps.foldl (fun t p => max t (keeperStamp s a.die a.site p.1 pt)) pt
          let s := if a.writeBack then ps.foldl (fun s p => keeperAllocate s a.die a.site p.1) s else s
          let (s, _) := ps.foldl (fun (acc : State × Nat) p =>
            let (x, m) := storePiece a.bytes acc.2 p
            (keeperWrite acc.1 a.die a.site p.1 x m ts (some a.ctx), acc.2 + p.2.2)) (s, 0)
          storeDone (raisePtime s a.tid ts) a
        | l => l.foldl (fun s sec => ask s a.die sec (keeperAsk s a.die sec true)) s

/-- The stores of a trap record are performed (R84): its threads enter their handler, or their context stops (R86). -/
def performRecord (s : State) (a : Access) (code : Nat) (stop : Bool) : State :=
  let pt := a.owners.foldl (fun m t => max m (((s.threads[t]?).map (·.ptime)).getD 0)) 0
  let (s, ts) := storePieces s a.die a.site a.ctx (accessPieces a) a.bytes a.ms false pt
  let s := endAccess (retagAll (a.owners.foldl (fun s t => raisePtime s t ts) s) a.wholes a.keys) a
  if stop then stopContext s a.ctx code a.cmp.toNat a.bytes none
  else { s with threads := s.threads.map fun th => if th.wait = .recordStore a.id then becomeReady th (s.clk + 1) else th }

/-- The one physical address of an access. -/
def placeAddr (p : Place) : Nat := match p with | .phys ((a, _) :: _) => a | _ => 0

/-- Performs an `ATOM` or `ACAS` at the home (R160, R161, R163): the old value returns, the new one is one event;
a failed comparison is a read event. -/
def performAtom (s : State) (a : Access) (new : DWord → Option DWord) : State :=
  let pa := placeAddr a.place
  let pt := ((s.threads[a.tid]?).map (·.ptime)).getD 0
  let (s, bs, ts) := readBytesNow s pa a.size (some a.ctx) pt
  let old : DWord := BitVec.ofNat 64 (bitsOfBytes bs)
  let ws := valueWords (8 * a.size) old
  match new old with
  | none => endAccess (deliverTo (raisePtime s a.tid ts) a.tid a.dest ws) a
  | some v =>
    let (s, ts) := writeBytesNow s pa (bytesOf a.size v.toNat) (some a.ctx) ts
    let s := refreshL1 s a.die a.site (pa / 64) ts
    endAccess (deliverTo (raisePtime s a.tid ts) a.tid a.dest ws) a

/-! `RED` (R62, R162, R163, R300, R301, R308). -/

/-- Updates a list of partial halves and touched marks with one step. -/
def stepPartial (tag : Nat) (ps : List (Option DWord)) (marks : List Bool) (e h : Nat) (u : DWord) :
    List (Option DWord) × List Bool :=
  let ty := tagTy tag
  let i := e * tyHalves ty + h
  (setAt ps i (some (partialStep (tagOp tag) ty ((ps[i]?).getD none) u)), setAt marks e true)

/-- An empty partial of a tag. -/
def emptyPartial (tag : Nat) : List (Option DWord) × List Bool :=
  let ty := tagTy tag
  (List.replicate (tyElems ty * tyHalves ty) none, List.replicate (tyElems ty) false)

/-- The largest ptime among the threads of a combined `RED`. -/
def ownersTime (s : State) (a : Access) : Nat := a.owners.foldl (fun m t => max m (((s.threads[t]?).map (·.ptime)).getD 0)) 0

/-- A step performed at the home as an update of memory, each half a write event of its own (R301). -/
def redAtHome (s : State) (a : Access) (sec tag e h : Nat) (u : DWord) : State :=
  let ty := tagTy tag
  let home := secElem ty (currentSector s sec) e
  let v := halfNarrow ty (mergeStep (tagOp tag) ty (halfWiden ty h home) (some (partialStep (tagOp tag) ty none u)))
  let (off, n) := if tyHalves ty = 1 then (e * tyBytes ty, tyBytes ty) else (e * 4 + 2 * h, 2)
  let (s, ts) := writeBytesNow (homeRead (settle s sec) sec (some a.ctx)) (sec * 64 + off) (bytesOf n v) (some a.ctx) (ownersTime s a)
  a.owners.foldl (fun s t => raisePtime s t ts) (refreshL1 s a.die a.site sec ts)

/-- A step kept by the home's atomic unit for an element of an MS page (R163, R253): what it keeps under another tag
for those bytes merges first; the partial stands in the element's Peat line, and where the line finds no place there it
is merged at once. -/
def redAtUnit (s : State) (a : Access) (sec tag e h : Nat) (u : DWord) : State :=
  let ty := tagTy tag
  let off := e * tyBytes ty
  let same (p : MsPart) : Bool := p.off = off && p.tag = tag
  let s := touchSector (prepareMask (settle s sec) sec (elemMask ty [e])) sec (some a.ctx)
  let s := if (msPartsOf s sec).any fun p => partMeets off (tyBytes ty) p && !same p then mergeMs s sec off (tyBytes ty) (some a.ctx) else s
  let old := (((msPartsOf s sec).find? same).map (·.halves)).getD (List.replicate (tyHalves ty) none)
  let new : MsPart := ⟨sec, off, tag, setAt old h (some (partialStep (tagOp tag) ty ((old[h]?).getD none) u))⟩
  let ts := max (ownersTime s a) ((homeTimes s sec).2 + 1)
  let cached := ((s.homes[homeOf (sec * 64)]?).any fun k => k.peat.any fun p => p.line = sec / 4)
  let s := if cached then msPartsPut s sec ((msPartsOf s sec).filter (fun p => !same p) ++ [new])
    else putSector s sec (mergePartsSec (homeSector s sec) sec [new]) (elemMask ty [e]) (some a.ctx)
  a.owners.foldl (fun s t => raisePtime s t ts) (homeTimesPut s sec ts ts)

/-- One step of a combined `RED` (R300, R301, R308). -/
def redStep (s : State) (a : Access) (tag : Nat) (steps : List (Nat × Nat × DWord)) : State :=
  let sec := placeAddr a.place / 64
  let left (s : State) (r : List (Nat × Nat × DWord)) : State :=
    { s with accs := s.accs.map fun b => if b.id = a.id then { b with kind := if r.isEmpty then .done else .red tag r true } else b }
  match steps with
  | [] => left s []
  | (e, h, u) :: r =>
    if a.ms then left (redAtUnit s a sec tag e h u) r
    else if monitored s sec ∨ !taggedSector sec then left (redAtHome s a sec tag e h u) r
    else
      match l2At s a.die sec with
      | some x =>
        if x.st = .p ∧ x.tag = tag then
          let (ps, ms) := stepPartial tag x.partials x.touched e h u
          let ts := max (ownersTime s a) (x.rts + 1)
          let s := l2Mod s a.die { x with partials := ps, touched := ms, wts := ts, rts := ts, used := s.clk, ctx := some a.ctx }
          left (a.owners.foldl (fun s t => raisePtime s t ts) s) r
        else ask s a.die sec (.pjoin a.die sec tag)
      | none => ask s a.die sec (.pjoin a.die sec tag)

end Sys2Proof.Machine
end

