-- ==== Sys2Proof/Machine/Tiles.lean ====
section
/-! DEFINITION. The tile table and the engine queue of a core (R178 to R182, R184, R190, R193). -/

namespace Sys2Proof.Machine

/-- An entry's claim, by resource code (R178). -/
def tileClaim (c : Core) (code : Nat) : Option Nat :=
  if code < 0x40 then (c.slots[code]?).bind (·.claim)
  else if code < 0x50 then (c.accs[code - 0x40]?).bind (·.claim)
  else (c.mqs[code - 0x50]?).bind (·.claim)

/-- An entry's state; a queue has none and counts as empty. -/
def tileStateOf (c : Core) (code : Nat) : TileState :=
  if code < 0x40 then ((c.slots[code]?).map (·.state)).getD .empty
  else if code < 0x50 then ((c.accs[code - 0x40]?).map (·.state)).getD .empty
  else .empty

/-- Entries of a queue. -/
def queueLen (c : Core) (q : Nat) : Nat := ((c.mqs[q]?).map (·.entries.length)).getD 0

/-- Whether an entry is filling or draining. -/
def tileBusy (c : Core) (code : Nat) : Bool := tileStateOf c code = .filling ∨ tileStateOf c code = .draining

/-- The entry an operation writes or reads out, by resource code. -/
def opTarget (o : TileOp) : Nat :=
  match o.opc.toNat with
  | 0xD2 => if o.form.mod.getLsbD 1 then 0x40 + o.form.a.toNat else o.form.a.toNat
  | 0xD7 => 0x40 + o.form.b.toNat
  | _ => 0x40 + o.form.a.toNat

/-- The slots an operation only reads. -/
def opReads (o : TileOp) : List Nat :=
  match o.opc.toNat with
  | 0xD5 | 0xD6 => [o.form.b.toNat, o.form.c.toNat]
  | _ => []

/-- The queue of a `TMMAS`. -/
def opQueue (o : TileOp) : Option Nat :=
  if o.opc = 0xD6#8 then some (o.form.mod.toNat / 8 % 4) else none

/-- Every entry an operation names, by resource code. -/
def opNames (o : TileOp) : List Nat :=
  opTarget o :: opReads o ++ (match opQueue o with | some q => [0x50 + q] | none => [])

/-- Whether an issued operation names an entry. -/
def opsName (c : Core) (code : Nat) : Bool := c.ops.any fun o => (opNames o).contains code

/-- Whether an operation is one of the sequencer's: `TMMA`, `TMMAS`, `TZERO`, `TMOVV` (R180). -/
def onSequencer (o : TileOp) : Bool :=
  o.opc = 0xD4#8 ∨ o.opc = 0xD5#8 ∨ o.opc = 0xD6#8 ∨ o.opc = 0xD7#8

/-- Whether two operations may not overlap: one writes an entry that the other names, or both use the sequencer
(R180). -/
def opsClash (a b : TileOp) : Bool :=
  (opNames b).contains (opTarget a) || (opNames a).contains (opTarget b) || (onSequencer a && onSequencer b)
    || (match opQueue a, opQueue b with | some x, some y => x = y | _, _ => false)

/-- Whether a queued operation may start: no earlier one that it clashes with is still queued (R180). -/
def opStartable : List TileOp → TileOp → Bool
  | [], _ => false
  | p :: r, o => if p.id = o.id then true else if opsClash p o then false else opStartable r o

/-- Logical blocks of 32 of a `TMMAS` whose metadata has not been popped (R189). -/
def opBlocks (c : Core) (o : TileOp) : Nat :=
  let k := ((c.slots[o.form.c.toNat]?).map (·.k)).getD 0
  (if o.form.mod.toNat / 2 % 4 = 0 then k else k / 2) / 32

/-- Whether the sequencer stalls on an empty metadata queue (R180, R189, R212). -/
def sequencerStalled (c : Core) : Bool :=
  c.ops.any fun o => match opQueue o with
    | some q => o.started && decide (o.popped.length < opBlocks c o) && decide (queueLen c q = 0)
    | none => false

/-- `TWAIT`'s condition (R193). -/
def twaitDone (c : Core) (code mode : Nat) : Bool :=
  if 0x50 ≤ code then queueLen c (code - 0x50) = 0
  else if mode = 0 then !tileBusy c code
  else if mode = 1 then tileStateOf c code = .ready
  else tileStateOf c code = .empty

/-- Whether `TREL` may free an entry (R184). -/
def releasable (c : Core) (code : Nat) : Bool := !tileBusy c code && !opsName c code

/-- Entries being pushed into a queue by `MQPUSH` on a core (R190). -/
def pushesUnderWay (s : State) (die site q : Nat) : Nat :=
  (s.accs.filter fun a => a.die = die ∧ a.site = site ∧ a.kind = .mqPush q).length

/-- Free entries of a queue (R190, R193). -/
def queueRoom (s : State) (die site q : Nat) : Nat := 64 - queueLen (coreAt s die site) q - pushesUnderWay s die site q

/-- Changes the entry of a resource code. -/
def modTile (c : Core) (code : Nat) (fs : Slot → Slot) (fa : Acc32 → Acc32) (fq : MQueue → MQueue) : Core :=
  if code < 0x40 then { c with slots := modAt c.slots code fs }
  else if code < 0x50 then { c with accs := modAt c.accs (code - 0x40) fa }
  else { c with mqs := modAt c.mqs (code - 0x50) fq }

/-- Sets the state of a slot or tile. -/
def setTileState (c : Core) (code : Nat) (x : TileState) : Core :=
  modTile c code (fun e => { e with state := x }) (fun e => { e with state := x }) id

end Sys2Proof.Machine
end

