-- ==== Sys2Proof/Machine/Issue.lean ====
section
/-! DEFINITION. What threads wait for, their loop buffers, what they fetch, and the start of an issue (R33, R64 to R67, R82
steps 1 to 4, R97 to R99, R212). -/

namespace Sys2Proof.Machine

/-! Readiness (R33, R229). -/

/-- Whether what a thread waits for has come. A wait that an event of its own ends is not over here. -/
def waitOver (s : State) (t : Nat) (th : Thread) : Bool :=
  let (d, c) := coreOf s t
  let room (p : CQueue → Bool) (q : Nat) : Bool := (((teamOf s t).bind fun m => m.queues[q]?).map p).getD false
  match th.wait with
  | .ready => true
  | .barrier _ | .arrival _ _ | .monitor _ | .woken _ | .poll _ | .signed _ | .sleep _ | .fault _ | .spill _ | .fill _
  | .recordStore _ | .loopBuffer _ _ | .stopped => false
  | .counters l st cp tl =>
    (match l with | some n => decide (th.ld ≤ n) | none => true) && (match st with | some n => decide (th.st ≤ n) | none => true)
      && (match cp with | some n => decide (th.cp ≤ n) | none => true)
      && (match tl with | some n => decide (th.tl ≤ n) | none => true)
  | .tile code mode => twaitDone (coreAt s d c) code mode
  | .release code => releasable (coreAt s d c) code
  | .claim code => (tileClaim (coreAt s d c) code).all fun m => m = teamIdOf s t
  | .cqEntry q => room (fun x => !x.entries.isEmpty) q
  | .cqRoom q => room (fun x => x.entries.length + x.reserved < 256) q
  | .mqRoom q n => n ≤ queueRoom s d c q
  | .faultRoom => ((contextOf s t).map fun k => decide (k.fqTail - k.fqHead < k.fqn)).getD false
  | .record => (groupOf s t).all fun g => g.record.isNone
  | .accesses => !hasAccess s t
  | .fence accs ops =>
    !(s.accs.any fun a => accs.contains a.id) && !(s.lodes.any fun o => ops.contains o.id)
      && !(s.engines.any fun o => ops.contains o.id)
  | .ownLock => !(s.homes.any fun h => h.locks.any fun k => k.owner = some t)
    && !(s.engines.any fun e => e.engine = 8 && e.node.isNone && e.tid = t)
  | .counterFull c => counterOf th c < 63
  | .pending ps us => !anyPending s t ps us

/-- Whether a team's threads run: it is resident, or in its save or restore routine. -/
def teamRuns (m : Team) : Bool :=
  match m.phase with
  | .resident | .preempting _ _ | .saving _ | .restoring _ => true
  | .saved _ | .complete => false

/-- Whether a thread may issue as soon as its next instruction allows: it lives, its team, context, core and package run,
and its wait is over. -/
def canIssue (s : State) (t : Nat) (th : Thread) : Bool :=
  !th.exited && th.age ≤ s.clk && s.power = 0 && (teamOf s t).any teamRuns
    && !((contextOf s t).map (·.stopped)).getD false
    && !(coreAt s (coreOf s t).1 (coreOf s t).2).lost && waitOver s t th

/-! Loop buffers (R99). -/

/-- The active loop whose body holds a thread's next instruction. -/
def loopAt (th : Thread) : Option LoopRec :=
  match th.frames with
  | f :: _ => f.loop.bind fun l => if l.start ≤ th.pc ∧ th.pc < l.stop then some l else none
  | [] => none

/-- Whether some thread of a partition has an active loop on a body, of a version when one is given. -/
def loopHeld (s : State) (die site part : Nat) (grid : Nat) (start : DWord) (version : Option Nat) : Bool :=
  (List.range s.threads.length).any fun t =>
    match s.threads[t]?, groupOf s t, teamOf s t with
    | some th, some g, some m =>
      !th.exited && decide (m.die = die ∧ m.site = site ∧ g.part = part ∧ m.grid = grid)
        && th.frames.any fun f => match f.loop with
          | some l => decide (l.start = start) && (match version with | some v => decide (l.version = v) | none => true)
          | none => false
    | _, _, _ => false

/-- The newest version of a body in a partition's buffers. -/
def loopLatest (c : Core) (part grid : Nat) (start : DWord) : Option LoopBuf :=
  (c.loops.filter fun p => p.1 = part ∧ p.2.grid = grid ∧ p.2.start = start).foldl (fun acc p =>
    match acc with
    | none => some p.2
    | some b => if b.version < p.2.version then some p.2 else some b) none

/-- Whether a thread still stands at the `LOOP`, or the loop's start, for which a buffer was given to it (R99). -/
def grantStands (s : State) (p : Nat × DWord) : Bool :=
  (s.threads[p.1]?).any fun th => !th.exited && decide (th.pc = p.2)

/-- Frees the buffers no thread holds: a body's newest version with its last active loop, an older one with the last
iteration that runs from it (R99). -/
def freeLoops (s : State) (die site part : Nat) : State :=
  modCore s die site fun c =>
    { c with loops := (c.loops.map fun p => (p.1, { p.2 with granted := p.2.granted.filter (grantStands s) })).filter fun p =>
        p.1 ≠ part || !p.2.granted.isEmpty
          || (if (loopLatest c part p.2.grid p.2.start).any fun b => b.version = p.2.version
              then loopHeld s die site part p.2.grid p.2.start none
              else loopHeld s die site part p.2.grid p.2.start (some p.2.version)) }

/-- Bodies a partition's buffers hold. -/
def loopBodies (c : Core) (part : Nat) : List (Nat × DWord) :=
  ((c.loops.filter fun p => p.1 = part).map fun p => (p.2.grid, p.2.start)).dedup

/-- The code block of an address as an L1 instruction cache or memory gives it; none where its page does not (R67). -/
def codeBlock (s : State) (die site ctx addr : Nat) : Option CodeBlock :=
  match (coreAt s die site).code.find? fun b => b.ctx = ctx ∧ b.addr = addr with
  | some b => some b
  | none =>
    match translate s ctx addr with
    | .ok x =>
      if x.x then some ⟨ctx, addr, if lbcData x then lbcBytes s x.pa 32 else currentBytes s x.pa 32⟩ else none
    | .pagef | .prot => none

/-- The blocks of a body from start to stop. -/
def bodyBlocks (s : State) (die site ctx : Nat) (start stop : DWord) : List CodeBlock :=
  let a := start.toNat / 32
  (List.range ((stop.toNat + 31) / 32 - a)).filterMap fun i => codeBlock s die site ctx ((a + i) * 32)

/-- A body's buffer in a partition: shared, refilled when stale, taken when one is free; none when no buffer is free
(R99). -/
def takeLoop (s : State) (die site part grid ctx : Nat) (start stop : DWord) : Option (State × Nat) :=
  match loopLatest (coreAt s die site) part grid start with
  | some b =>
    if b.stale then
      let v := b.version + 1
      let n : LoopBuf := { b with version := v, stale := false, stop := stop, code := bodyBlocks s die site ctx start stop }
      some (modCore s die site fun c => { c with loops := c.loops ++ [(part, n)] }, v)
    else some (s, b.version)
  | none =>
    let s := freeLoops s die site part
    if (loopBodies (coreAt s die site) part).length < 4 then
      let n : LoopBuf := ⟨grid, start, stop, 1, false, bodyBlocks s die site ctx start stop, []⟩
      some (modCore s die site fun c => { c with loops := c.loops ++ [(part, n)] }, 1)
    else none

/-- Threads of a partition that wait for a loop buffer: number, age, grid, body. -/
def loopWaiters (s : State) (die site part : Nat) : List (Nat × Nat × Nat × DWord × DWord) :=
  (List.range s.threads.length).filterMap fun t =>
    match s.threads[t]?, groupOf s t, teamOf s t with
    | some th, some g, some m =>
      (match th.wait with
       | .loopBuffer a b => if !th.exited ∧ m.die = die ∧ m.site = site ∧ g.part = part then some (t, th.age, m.grid, a, b) else none
       | _ => none)
    | _, _, _ => none

/-- A body's buffer for a thread that does not wait yet: a body in no buffer stands behind the `LOOP`s that wait (R99). -/
def enterLoop (s : State) (die site part grid ctx : Nat) (start stop : DWord) : Option (State × Nat) :=
  if (loopLatest (coreAt s die site) part grid start).isNone ∧ !(loopWaiters s die site part).isEmpty then none
  else takeLoop s die site part grid ctx start stop

/-- The mark of a buffer given to a thread goes. -/
def takeGrant (s : State) (die site t : Nat) : State :=
  modCore s die site fun c => { c with loops := c.loops.map fun p => (p.1, { p.2 with granted := p.2.granted.filter fun q => q.1 ≠ t }) }

/-- Sets the version that a thread's current iteration runs from. -/
def setLoopVersion (th : Thread) (v : Nat) : Thread :=
  match th.frames with
  | f :: r => { th with frames := { f with loop := f.loop.map fun l => { l with version := v } } :: r }
  | [] => th

/-- An iteration's start finds its buffer (R99): the thread runs from it, or waits for one. -/
def startIteration (s : State) (t : Nat) : State :=
  match s.threads[t]?, groupOf s t, teamOf s t with
  | some th, some g, some m =>
    match loopAt th with
    | some l =>
      (match enterLoop s m.die m.site g.part m.grid (ctxOf s t) l.start l.stop with
       | some (s, v) => modThread (takeGrant s m.die m.site t) t fun th => setLoopVersion th v
       | none => holdAt s t (.loopBuffer l.start l.stop))
    | none => s
  | _, _, _ => s

/-- The thread whose `LOOP` has waited longest for a buffer of a partition, with its body (R99). -/
def loopWaiter (s : State) (die site part : Nat) : Option (Nat × Nat × Nat × DWord × DWord) :=
  (loopWaiters s die site part).foldl (fun acc x => match acc with
    | none => some x
    | some y => if x.2.1 < y.2.1 then some x else some y) none

/-- Whether a buffer of a partition can go to a waiting `LOOP` now. -/
def loopGrantable (s : State) (die site part : Nat) : Bool :=
  match loopWaiter s die site part with
  | some (t, _, grid, a, b) => (takeLoop s die site part grid (ctxOf s t) a b).isSome
  | none => false

/-- A freed buffer goes to the oldest waiting `LOOP` of its partition (R99). -/
def grantLoop (s : State) (die site part : Nat) : State :=
  match loopWaiter s die site part with
  | none => s
  | some (t, _, grid, a, b) =>
    match takeLoop s die site part grid (ctxOf s t) a b with
    | none => s
    | some (s, _) =>
      let s := modCore s die site fun c =>
        { c with loops := c.loops.map fun p => if p.1 = part ∧ p.2.grid = grid ∧ p.2.start = a
                                               then (p.1, { p.2 with granted := (t, ((s.threads[t]?).map (·.pc)).getD 0) :: p.2.granted }) else p }
      modThread s t fun th => becomeReady th s.clk

/-! Fetch (R65, R67). -/

/-- The block that holds a thread's next instruction: its loop's buffer while it runs an active loop's body, else its
core's L1 instruction cache. -/
def blockFor (s : State) (t : Nat) (th : Thread) : Option CodeBlock :=
  let (d, c) := coreOf s t
  let core := coreAt s d c
  let a := th.pc.toNat / 32 * 32
  let cached := core.code.find? fun b => b.ctx = ctxOf s t ∧ b.addr = a
  match loopAt th with
  | some l =>
    (match core.loops.find? fun p => p.2.start = l.start ∧ p.2.version = l.version
        ∧ some p.1 = (groupOf s t).map (·.part) ∧ some p.2.grid = (teamOf s t).map (·.grid) with
     | some p => (match p.2.code.find? fun b => b.addr = a with | some b => some b | none => cached)
     | none => cached)
  | none => cached

/-- Whether a thread stands in an iteration whose buffer is still to be found. -/
def iterationOpen (th : Thread) : Bool := (loopAt th).any fun l => l.version = 0

/-- The bytes from a thread's PC to the end of its block. -/
def codeBytes (th : Thread) (b : CodeBlock) : List Byte := b.bytes.drop (th.pc.toNat % 32)

/-- OPC of the instruction at the head of some bytes. -/
def headOpcode (bs : List Byte) : Nat := bitsOfBytes (bs.take 2) / 4 % 256

/-- Class F (R34). -/
def classF (opc : Nat) : Bool := (0x50 ≤ opc ∧ opc ≤ 0x61) ∨ (0x70 ≤ opc ∧ opc ≤ 0x77) ∨ (0xD0 ≤ opc ∧ opc ≤ 0xDB)

/-! Candidates (R34). -/

/-- A thread as the grouping stage sees it: its number, place, lane, code object, PC, loop version, age and promotion,
and its bytes when they have been fetched. -/
structure Seen where
  tid : Nat
  die : Nat
  site : Nat
  part : Nat
  lane : Nat
  grid : Nat
  pc : DWord
  version : Nat
  age : Nat
  promoted : Bool
  bytes : Option (List Byte)
  /-- An iteration's start still to find its buffer. -/
  start : Bool
  deriving DecidableEq, Repr

/-- A thread as the grouping stage sees it. -/
def seenOf (s : State) (t : Nat) : Option Seen :=
  match s.threads[t]?, groupOf s t, teamOf s t with
  | some th, some g, some m =>
    some { tid := t, die := m.die, site := m.site, part := g.part, lane := th.lane, grid := m.grid, pc := th.pc,
           version := ((loopAt th).map (·.version)).getD 0, age := th.age, promoted := th.promoted,
           bytes := (blockFor s t th).map (codeBytes th), start := iterationOpen th }
  | _, _, _ => none

/-- The threads that may issue as soon as their next instruction allows. -/
def seenThreads (s : State) : List Seen :=
  (indicesOf (fun th => !th.exited) 0 s.threads).filterMap fun t =>
    match s.threads[t]? with
    | some th => if canIssue s t th then seenOf s t else none
    | none => none

/-- Older in the sense of R34: promoted before unpromoted, then by age. -/
def older (a b : Seen) : Bool :=
  if a.promoted = b.promoted then a.age < b.age else a.promoted

/-- The oldest of some threads. -/
def oldestSeen : List Seen → Option Seen
  | [] => none
  | a :: r => match oldestSeen r with
    | none => some a
    | some b => if older b a then some b else some a

/-- One pair of the PC hash table: one code object and PC, running from one copy of its code. -/
def sameEntry (a b : Seen) : Bool :=
  a.die = b.die ∧ a.site = b.site ∧ a.part = b.part ∧ a.grid = b.grid ∧ a.pc = b.pc ∧ a.version = b.version

/-- A candidate of a pair: at most one thread per lane, the oldest where several share one. -/
def candidate (l : List Seen) (a : Seen) : Issue :=
  { die := a.die, site := a.site, part := a.part, pc := a.pc,
    lanes := (List.range 32).filterMap fun lane =>
      (oldestSeen (l.filter fun b => sameEntry a b && b.lane = lane)).map fun b => (lane, b.tid) }

/-- Threads that wait for the block of their next instruction. -/
def fetchWaiters (s : State) : List Seen := (seenThreads s).filter fun a => a.bytes.isNone && !a.start

/-- Blocks that threads wait for: place and block number. -/
def missingBlocks (s : State) : List (Nat × Nat × Nat × Nat) :=
  ((fetchWaiters s).map fun a => (a.die, a.site, a.part, a.pc.toNat / 32)).dedup

/-- INSTRUCTION_FETCH (R65, R67): the block comes into the core's L1 instruction cache for the oldest thread of the
partition that waits for it; a page that does not give it is a trap of the threads that would issue there. -/
def fetchBlock (s : State) (die site part block : Nat) : State :=
  let l := (fetchWaiters s).filter fun a => decide ((a.die, a.site, a.part) = (die, site, part) ∧ a.pc.toNat / 32 = block)
  match oldestSeen l with
  | none => s
  | some a =>
    let ctx := ctxOf s a.tid
    match codeBlock s die site ctx (block * 32) with
    | some b => modCore (cacheRange s ctx (block * 32) 32) die site fun c => { c with code := b :: c.code }
    | none =>
      -- no instruction was read, and word0 and word1 of the record are zero (log 112)
      let i : TrapInfo := match translate s ctx (block * 32) with
        | .pagef => ⟨cPAGEF, block * 32, 4, 0⟩
        | .ok _ | .prot => trapAt cPROT (block * 32)
      let iss := candidate l a
      takeTraps s (iss.lanes.map fun p => ⟨p.2, i, a.pc, 0, 0, 0, iss.lanes.map (·.2)⟩)

/-! An issue. -/

/-- One package clk passes, in which every partition may issue anew; a core's count of clk with resident threads of a context, and of a stalled sequencer,
goes on (R212). -/
def passClk (s : State) : State :=
  { s with
    clk := s.clk + 1
    cores := s.cores.map fun c =>
      let ctxs := ((List.range s.teams.length).filterMap fun m =>
        match s.teams[m]? with
        | some t => if t.die = c.die ∧ t.site = c.site ∧ teamRuns t
            ∧ ((teamThreads s m).any fun x => !threadExited s x) then some (teamCtx s m) else none
        | none => none).dedup
      { c with issuedNow := [], residentClk := ctxs.foldl (fun l k => insertNat l k ((lookupNat l k).getD 0 + 1)) c.residentClk,
               mqStall := if sequencerStalled c then c.mqStall + 1 else c.mqStall } }

/-- The issue group takes its partition's slot of its class for this clk and leaves the PC hash table; counter 0x000 counts the threads that it has not
counted at this instruction yet (R34, R212; log 113). -/
def beginIssue (s : State) (iss : Issue) (f : Bool) : State :=
  let ctx := match iss.lanes with | (_, t) :: _ => ctxOf s t | [] => 0
  let fresh := iss.lanes.filter fun p => ((s.threads[p.2]?).bind (·.counted)) ≠ some iss.pc
  let s := modCore s iss.die iss.site fun c =>
    { c with issued := insertNat c.issued ctx ((lookupNat c.issued ctx).getD 0 + fresh.length),
             issuedNow := (iss.part, f) :: c.issuedNow,
             pcs := c.pcs.map fun e => { e with threads := e.threads.filter fun t => !iss.lanes.any fun p => p.2 = t } }
  { s with cur := some iss, issueNo := s.issueNo + 1, threads := s.threads.mapIdx fun i th =>
      if iss.lanes.any fun p => p.2 = i then { th with wait := .ready, counted := some iss.pc } else th }

/-- The bytes an issue group executes. -/
def issueBytes (s : State) (iss : Issue) : List Byte :=
  match iss.lanes with
  | (_, t) :: _ =>
    (match s.threads[t]? with
     | some th => ((blockFor s t th).map (codeBytes th)).getD []
     | none => [])
  | [] => []

/-- Bytes that decode to no instruction: ILLOP or ILLPLACE of the whole issue group (R82 steps 2 to 4). The record's word0
and word1 hold the bytes of the instruction within its block; an instruction of LEN 11, which has no length, is taken as
8 bytes (log 112). -/
def badInstruction (s : State) (iss : Issue) (bs : List Byte) (e : DecodeError) : State :=
  let code := match e with
    | .crossesBlock => cILLPLACE
    | .lenReserved | .noOpcode | .badLength => cILLOP
  let n := match Len.ofBits (BitVec.ofNat 2 (bitsOfBytes (bs.take 1))) with
    | some l => l.bytes
    | none => 8
  let w : BitVec 128 := BitVec.ofNat 128 (bitsOfBytes (bs.take n))
  takeTraps { s with cur := none } (iss.lanes.map fun p =>
    ⟨p.2, trapAt code 0, iss.pc, n, w.extractLsb' 0 64, w.extractLsb' 64 64, iss.lanes.map (·.2)⟩)

end Sys2Proof.Machine
end

