-- ==== Sys2Proof/Machine/Tensor.lean ====
section
/-! DEFINITION. Tensor identifiers: images, element formats, element and scale addresses (R185, R194, R195, R259). -/

namespace Sys2Proof.Machine

/-- Bits of an element of a format (R194); none for an illegal code. -/
def tensorBits (fmt : Nat) : Option Nat :=
  if fmt = 0x00 ∨ fmt = 0x04 ∨ fmt = 0x05 ∨ fmt = 0x12 ∨ fmt = 0x16 ∨ fmt = 0x18 then some 32
  else if fmt = 0x01 ∨ fmt = 0x13 ∨ fmt = 0x17 ∨ fmt = 0x19 then some 64
  else if fmt = 0x02 ∨ fmt = 0x03 ∨ fmt = 0x0B ∨ fmt = 0x11 ∨ fmt = 0x15 then some 16
  else if fmt = 0x06 ∨ fmt = 0x07 ∨ fmt = 0x09 ∨ fmt = 0x0A ∨ fmt = 0x10 ∨ fmt = 0x14 then some 8
  else if fmt = 0x08 then some 4
  else if 0x21 ≤ fmt ∧ fmt ≤ 0x27 then some (fmt - 0x20)
  else if 0x29 ≤ fmt ∧ fmt ≤ 0x2F then some (fmt - 0x28)
  else none

/-- Bits of an element of an identifier. -/
def elemBits (x : Tensor) : Nat := (tensorBits x.fmt).getD 32

/-- Bytes of an element of a format of whole bytes. -/
def elemSize (x : Tensor) : Nat := elemBits x / 8

/-- A field of an image. -/
def imgBits (img : List Byte) (off hi lo : Nat) : Nat :=
  bitsOfBytes ((img.drop off).take 8) / 2 ^ lo % 2 ^ (hi - lo + 1)

/-- A size rule of R194 and R195 that an extent breaks. -/
def badSize (layout ndim i size : Nat) : Bool :=
  size < 1 || (ndim ≤ i && decide (size ≠ 1))
    || (layout = 3 && ((i = 0 && decide (size % 32 ≠ 0)) || (i = 1 && decide (size % 8 ≠ 0))))
    || (layout = 4 && ((i = 0 && decide (size % 8 ≠ 0)) || (i = 1 && decide (size % 32 ≠ 0))))

/-- The byte offset of the first bad field of a valid image, none for a good one (R196). -/
def badField (img : List Byte) : Option Nat :=
  let layout := imgBits img 0 14 12
  let ndim := imgBits img 0 10 8
  let sfmt := imgBits img 0 17 16
  if imgBits img 0 62 24 ≠ 0 ∨ imgBits img 0 19 18 ≠ 0 ∨ imgBits img 0 15 15 ≠ 0 ∨ imgBits img 0 11 11 ≠ 0
      ∨ 2 ≤ imgBits img 0 23 22 ∨ sfmt = 3 ∨ 6 ≤ layout ∨ ndim < 1 ∨ 5 < ndim ∨ tensorBits (imgBits img 0 7 0) = none
      ∨ (sfmt ≠ 0 ∧ 3 < ndim) then some 0
  else
    match (List.range 5).find? fun i => badSize layout ndim i (bitsOfBytes ((img.drop (0x20 + 4 * i)).take 4)) with
    | some i => some (0x20 + 4 * i)
    | none =>
      if bitsOfBytes ((img.drop 0x34).take 4) ≠ 0 then some 0x34
      else if bitsOfBytes ((img.drop 0x70).take 16) ≠ 0 then some (if bitsOfBytes ((img.drop 0x70).take 8) ≠ 0 then 0x70 else 0x78)
      else none

/-- A 64-bit word of an image. -/
def imgWord (img : List Byte) (off : Nat) : DWord := BitVec.ofNat 64 (bitsOfBytes ((img.drop off).take 8))

/-- The identifier an image sets (R194). -/
def tensorOfImage (img : List Byte) : Tensor where
  saxis := imgBits img 0 23 22
  sblk := imgBits img 0 21 20
  sfmt := imgBits img 0 17 16
  layout := imgBits img 0 14 12
  ndim := imgBits img 0 10 8
  fmt := imgBits img 0 7 0
  base := imgWord img 0x08
  sbase := imgWord img 0x10
  fill := imgWord img 0x18
  sizes := (List.range 5).map fun i => bitsOfBytes ((img.drop (0x20 + 4 * i)).take 4)
  strides := (List.range 5).map fun i => imgWord img (0x38 + 8 * i)
  srow := imgWord img 0x60
  splane := imgWord img 0x68

/-- The image of an identifier (R194, R196). -/
def tensorImage (x : Option Tensor) : List Byte :=
  match x with
  | none => List.replicate 128 0
  | some t =>
    bytesOf 8 (2 ^ 63 + t.saxis * 2 ^ 22 + t.sblk * 2 ^ 20 + t.sfmt * 2 ^ 16 + t.layout * 2 ^ 12 + t.ndim * 2 ^ 8 + t.fmt)
      ++ bytesOf 8 t.base.toNat ++ bytesOf 8 t.sbase.toNat ++ bytesOf 8 t.fill.toNat
      ++ t.sizes.flatMap (fun z => bytesOf 4 z) ++ bytesOf 4 0 ++ t.strides.flatMap (fun z => bytesOf 8 z.toNat)
      ++ bytesOf 8 t.srow.toNat ++ bytesOf 8 t.splane.toNat ++ List.replicate 16 0

/-- An extent. -/
def extentOf (x : Tensor) (i : Nat) : Nat := (x.sizes[i]?).getD 1

/-- Whether coordinates are in bounds (R259). -/
def inBounds (x : Tensor) (xy : List Int) : Bool :=
  (List.range 5).all fun i => let v := (xy[i]?).getD 0; decide (0 ≤ v ∧ v < (extentOf x i : Int))

/-- Σ of the strides of dimensions from i up. -/
def strideSum (x : Tensor) (lo : Nat) (xy : List Int) : Int :=
  ((List.range 5).filter (lo ≤ ·)).foldl (fun acc i => acc + (xy[i]?).getD 0 * (strideOf x i).toInt) 0

/-- Whether an identifier's elements lie in bit-plane blocks: those of fewer than 8 bits in every layout, and layout BPL
(R49, R195). -/
def planar (x : Tensor) : Bool := x.layout = 5 || elemBits x < 8

/-- The byte offset of the n-th element of a run that begins on a block of planes: its own, or that of its block of 32
(R49). -/
def runOffset (x : Tensor) (n : Nat) : Nat := if planar x then n / 32 * (4 * elemBits x) else n * (elemBits x / 8)

/-- The byte address of an element in bounds (R195), mod 2^64: for elements in planes that of the block that holds its
code; the place in it is `planeIndex`. RM and CM take the blocks of R49 along dimension 0 in place of stride0
(log 117). -/
def elemAddr (x : Tensor) (xy : List Int) : DWord :=
  let c0 := ((xy[0]?).getD 0).toNat
  let c1 := ((xy[1]?).getD 0).toNat
  let off : Int :=
    if x.layout ≤ 1 then
      if planar x then (runOffset x c0 : Nat) + strideSum x 1 xy else strideSum x 0 xy
    else if x.layout = 2 then
      (runOffset x ((c1 / 128 * ((extentOf x 0 + 127) / 128) + c0 / 128) * 16384 + c1 % 128 * 128 + c0 % 128) : Nat) + strideSum x 2 xy
    else if x.layout = 3 then
      (runOffset x ((c1 / 8 * (extentOf x 0 / 32) + c0 / 32) * 256 + c1 % 8 * 32 + c0 % 32) : Nat) + strideSum x 2 xy
    else if x.layout = 4 then
      (runOffset x ((c0 / 8 * (extentOf x 1 / 32) + c1 / 32) * 256 + c0 % 8 * 32 + c1 % 32) : Nat) + strideSum x 2 xy
    else (runOffset x c0 : Nat) + strideSum x 1 xy
  x.base + BitVec.ofInt 64 off

/-- Bytes an element's access touches: its own, or its block of planes. -/
def elemSpan (x : Tensor) : Nat := if planar x then 4 * elemBits x else max 1 (elemSize x)

/-- The place of an element's code in its block of planes. -/
def planeIndex (x : Tensor) (xy : List Int) : Nat :=
  ((if x.layout = 4 then (xy[1]?).getD 0 else (xy[0]?).getD 0).toNat) % 32

/-- Scale block of an identifier. -/
def scaleBlock (x : Tensor) : Nat := 16 * 2 ^ x.sblk

/-- Bytes of a scale: SX8 one, SF12 two. -/
def scaleSize (x : Tensor) : Nat := if x.sfmt = 2 then 2 else 1

/-- The address of an element's scale (R194). -/
def scaleAddr (x : Tensor) (xy : List Int) : DWord :=
  let along := ((xy[x.saxis]?).getD 0).toNat / scaleBlock x * scaleSize x
  let row : Int := (xy[1 - x.saxis]?).getD 0 * x.srow.toInt
  let plane : Int := (xy[2]?).getD 0 * x.splane.toInt
  x.sbase + BitVec.ofInt 64 ((along : Int) + row + plane)

end Sys2Proof.Machine
end

