-- ==== Sys2Proof/Machine/LoadStore.lean ====
section
/-! DEFINITION. Loads and stores (R136 to R150). -/

namespace Sys2Proof.Machine

/-- The space a form names, MOD[4:3] (R137, R143). -/
def spaceOf (f : Form) : Nat := modBits f.mod 4 3

/-- Bytes of a size code (R143). -/
def sizeBytes (z : BitVec 3) : Nat :=
  if z.toNat ≤ 1 then 1 else if z.toNat ≤ 3 then 2 else if z = 4#3 then 4 else if z = 5#3 then 8 else 16

/-- EA of a load or store in a lane (R136, R143). -/
def memAddr (f : Form) (r : Ready) : Nat :=
  (effective r.a r.b (if f.mod.getLsbD 5 then sizeBytes (modIt f.mod) else 1)).toNat

/-- A counter that stands at 63 holds the instruction (R30). -/
def counterHold (s : State) (t : Nat) (c : Ctr) : Option Wait :=
  if ((s.threads[t]?).map fun th => counterOf th c).getD 0 < 63 then none else some (.counterFull c)

/-! Loads. -/

/-- A load of n bytes of a lane as an access. -/
def loadAccess (s : State) (f : Form) (r : Ready) (opc : BitVec 8) (ea : Nat) (place : Place) (x : Xlat)
    (keys : List (Nat × Nat)) : Access :=
  let fr := extFresh (extWord (sigOf opc f) f)
  let n := sizeBytes (modIt f.mod)
  { accessOf s r.tid (.load (decide (fr = 2#2)) (decide (fr = 1#2)) (f.mod.getLsbD 0)) place n ea x keys with
    writeBack := decide (spaceOf f = 3)
    dest := destOf s r.tid r.d ((n + 3) / 4) r.span
    ctr := .ld }

/-- Issues a load: an `LD.S` notes the copies that are held now (R142). -/
def enqueueLoad (s : State) (a : Access) : State := enqueue (withCopies s a).1 (withCopies s a).2

/-- A load in a lane (R144). -/
def loadLane (opc : BitVec 8) (f : Form) (s : State) (r : Ready) : LaneOut :=
  match counterHold s r.tid .ld with
  | some w => .hold w
  | none =>
    let n := sizeBytes (modIt f.mod)
    match locate s r.tid (spaceOf f) (memAddr f r) n n needR [] with
    | .trap i => .trap i
    | .hold w => .hold w
    | .ok place x ks => .ok (enqueueLoad s (loadAccess s f r opc (memAddr f r) place x ks)) {}

/-- `LD` (R144). -/
def execLd (f : Form) (s : State) : Host.Outcome State Fault Refusal :=
  runLanes 0x90 f s fun _ _ s r => loadLane 0x90 f s r

/-- `LDK` (R145): each group's lowest active lane. -/
def execLdk (f : Form) (s : State) : Host.Outcome State Fault Refusal :=
  runWith 0x92 f s (fun _ => sigOf 0x92 f) (fun s _ => s) lowestActive fun _ _ s r => loadLane 0x92 f s r

/-! Stores. -/

/-- The data of a store as bytes (R143). -/
def storeBytes (n : Nat) (r : Ready) : List Byte := bytesOf n (r.c.toNat + 2 ^ 64 * r.cHi.toNat)

/-- The place of a store of n bytes of a lane, when some sectors are written whole; none where it is not made. -/
def storePlace (s : State) (t space ea n align : Nat) (wholes : List Nat) : Option Place :=
  match locate s t space ea n align needW wholes with
  | .ok p _ _ => some p
  | .trap _ | .hold _ => none

/-- The bytes of a sector that some places cover. -/
def coverMask (ps : List Place) (sec : Nat) : BitVec 64 :=
  (ps.flatMap placePieces).foldl (fun m q =>
    if q.1 = sec then m ||| BitVec.ofNat 64 ((2 ^ q.2.2 - 1) * 2 ^ q.2.1) else m) 0

/-- Sectors that some places write whole together (R148). -/
def wholeSectors (ps : List Place) : List Nat :=
  (((ps.flatMap placePieces).map (·.1)).dedup).filter fun sec => coverMask ps sec = ~~~ 0#64

/-- The sectors that an instruction's stores write whole together, of those they may: a lane that traps for a mark writes
nothing, and what it would have written is not whole (R148). -/
def settleWholes (places : List Nat → List Place) : Nat → List Nat → List Nat
  | 0, w => w
  | n + 1, w => let v := wholeSectors (places w); if v = w then w else settleWholes places n v

/-- The sectors that stores of lanes write whole together. -/
def storesWhole (places : List Nat → List Place) (secs : List Nat) : List Nat := settleWholes places 33 secs

/-- A store of bytes of a lane: outstanding until its keeper performs it (R144); `wholes`: sectors that the instruction
writes whole (R148). -/
def storeLane (s : State) (r : Ready) (space ea n align : Nat) (bs : List Byte) (wholes : List Nat) : LaneOut :=
  match counterHold s r.tid .st with
  | some w => .hold w
  | none =>
    match locate s r.tid space ea n align needW wholes with
    | .trap i => .trap i
    | .hold w => .hold w
    | .ok place x ks =>
      .ok (enqueue s { accessOf s r.tid .store place n ea x ks with
        bytes := bs, writeBack := decide (space = 3), ctr := .st,
        wholes := ((placePieces place).map (·.1)).filter fun sec => wholes.contains sec }) {}

/-- The lanes of an issue group that are ready to act. -/
def readyLanes (ps : List (Nat × Prep)) : List Ready :=
  ps.filterMap fun p => match p.2 with | .ready r => some r | .inactive | .trap _ | .hold _ => none

/-- The sectors that a thread's bytes at an address of a space lie in, whatever its checks say. -/
def touchedSectors (s : State) (t space ea n : Nat) : List Nat :=
  match locate s t space ea n 1 needNone [] with
  | .ok p _ _ => (placePieces p).map (·.1)
  | .trap _ | .hold _ => []

/-- Sectors the ready lanes of a store write whole together. -/
def lanesWhole (f : Form) (s : State) (ps : List (Nat × Prep)) : List Nat :=
  let n := sizeBytes (modIt f.mod)
  storesWhole (fun w => (readyLanes ps).filterMap fun r => storePlace s r.tid (spaceOf f) (memAddr f r) n n w)
    (((readyLanes ps).flatMap fun r => touchedSectors s r.tid (spaceOf f) (memAddr f r) n).dedup)

/-- `ST` (R144). -/
def execSt (f : Form) (s : State) : Host.Outcome State Fault Refusal :=
  runLanes 0x91 f s fun _ ps s1 r =>
    let n := sizeBytes (modIt f.mod)
    storeLane s1 r (spaceOf f) (memAddr f r) n n (storeBytes n r) (lanesWhole f s ps)

/-- `STK` (R145): each group's lowest active lane. -/
def execStk (f : Form) (s : State) : Host.Outcome State Fault Refusal :=
  runWith 0x93 f s (fun _ => sigOf 0x93 f) (fun s _ => s) lowestActive fun _ ps s1 r =>
    let n := sizeBytes (modIt f.mod)
    storeLane s1 r (spaceOf f) (memAddr f r) n n (storeBytes n r) (lanesWhole f s (lowestActive s ps))

/-! Tensor elements (R149). -/

/-- Whether `LDT` and `STT` take an identifier: RM, CM or T128, of whole-byte elements (log 27). -/
def elementTensor (x : Tensor) : Bool := x.layout ≤ 2 && elemBits x % 8 = 0

/-- Where an element access goes. -/
inductive Element where
  | trap (i : TrapInfo)
  | outside (x : Tensor)
  | inside (x : Tensor) (addr : Nat)
  deriving DecidableEq, Repr

/-- Whether the coordinates' registers lie where R149 wants them: a direct vector register N with N + n at most W, or a
uniform one with N + n at most 96. -/
def coordsFit (s : State) (t : Nat) (x : BitVec 10) (n : Nat) : Bool :=
  if specIsDirect x then decide (x.toNat + n ≤ (limitsOf s t).window)
  else specIsUniform x && decide (x.toNat - 0x300 + n ≤ 96)

/-- The element that `LDT` and `STT` name in a lane, its coordinates as prepared (R149). -/
def elementOf (f : Form) (s : State) (r : Ready) : Element :=
  match tensorOf s r.tid f.c.toNat with
  | some x =>
    if !elementTensor x || !coordsFit s r.tid f.a x.ndim then .trap (trapAt cILLOPND 0)
    else
      match r.bad with
      | some i => .trap i
      | none =>
        let xy := r.vals.map (·.toInt)
        if inBounds x xy then .inside x (elemAddr x xy).toNat else .outside x
  | none => .trap (trapAt cILLOPND 0)

/-- Whether a direct or uniform register cannot hold an element of two registers (R42). -/
def oddPair (s : State) (t : Nat) (x : BitVec 10) : Bool := regBad (limitsOf s t) x 64

/-- `LDT` names a pair for a 64-bit element. -/
def ldtSig (s : State) (f : Form) (ctx : Nat) : Sig :=
  let wide := (((s.contexts[ctx]?).bind fun c => lookupNat c.tensors f.c.toNat).map elemBits) = some 64
  { sigOf 0x94 f with d := .dst (if wide then 64 else 32) }

/-- The context of the issue group that executes. -/
def curCtx (s : State) : Nat :=
  match s.cur with
  | some iss => (match iss.lanes with | (_, t) :: _ => ctxOf s t | [] => 0)
  | none => 0

/-- `LDT` in a lane. -/
def ldtLane (f : Form) (s : State) (r : Ready) : LaneOut :=
  match counterHold s r.tid .ld with
  | some w => .hold w
  | none =>
    match elementOf f s r with
    | .trap i => .trap i
    | .outside x =>
      let n := if elemBits x = 64 then 2 else 1
      if n = 2 && oddPair s r.tid f.d then .trap (trapAt cILLOPND 0)
      else
        .ok (enqueue s { accessOf s r.tid (.load false false false) .nothing (4 * n) 0 noXlat [] with
          bytes := bytesOf (4 * n) x.fill.toNat, dest := destOf s r.tid r.d n r.span, ctr := .ld }) {}
    | .inside x ea =>
      let n := if elemBits x = 64 then 2 else 1
      if n = 2 && oddPair s r.tid f.d then .trap (trapAt cILLOPND 0)
      else
        match locate s r.tid 0 ea (elemSize x) (elemSize x) needR [] with
        | .trap i => .trap i
        | .hold w => .hold w
        | .ok place xl ks =>
          let signed := x.fmt = 0x10 ∨ x.fmt = 0x11
          .ok (enqueue s { accessOf s r.tid (.load false false signed) place (elemSize x) ea xl ks with
            dest := destOf s r.tid r.d n r.span, ctr := .ld }) {}

/-- `LDT` (R149). -/
def execLdt (f : Form) (s : State) : Host.Outcome State Fault Refusal :=
  runWith 0x94 f s (fun _ => ldtSig s f (curCtx s)) (fun s _ => s) (fun _ ps => ps) fun _ _ s r => ldtLane f s r

/-- `STT` takes its data in the element's type. -/
def sttSig (s : State) (f : Form) (ctx : Nat) : Sig :=
  match ((s.contexts[ctx]?).bind fun c => lookupNat c.tensors f.c.toNat) with
  | some x => { sigOf 0x95 f with b := .src (srcType x.fmt) }
  | none => sigOf 0x95 f

/-- Sectors the ready lanes of an `STT` write whole together. -/
def elementsWhole (f : Form) (s : State) (ps : List (Nat × Prep)) : List Nat :=
  let at_ (g : Nat → Nat → Nat → List Place) (r : Ready) : List Place :=
    match elementOf f s r with
    | .inside x ea => g r.tid ea (elemSize x)
    | .trap _ | .outside _ => []
  storesWhole (fun w => (readyLanes ps).flatMap (at_ fun t ea n => (storePlace s t 0 ea n n w).toList))
    (((readyLanes ps).flatMap fun r => match elementOf f s r with
      | .inside x ea => touchedSectors s r.tid 0 ea (elemSize x)
      | .trap _ | .outside _ => []).dedup)

/-- `STT` in a lane: out of bounds it makes no access, though its counter rises and falls (R149). -/
def sttLane (f : Form) (s : State) (r : Ready) (wholes : List Nat) : LaneOut :=
  match counterHold s r.tid .st with
  | some w => .hold w
  | none =>
    match elementOf f s r with
    | .trap i => .trap i
    | .outside x =>
      if elemBits x = 64 && oddPair s r.tid f.b then .trap (trapAt cILLOPND 0)
      else .ok (enqueue s { accessOf s r.tid .store .nothing 0 0 noXlat [] with ctr := .st }) {}
    | .inside x ea =>
      if elemBits x = 64 && oddPair s r.tid f.b then .trap (trapAt cILLOPND 0)
      else storeLane s r 0 ea (elemSize x) (elemSize x) (bytesOf (elemSize x) r.b.toNat) wholes

/-- `STT` (R149). -/
def execStt (f : Form) (s : State) : Host.Outcome State Fault Refusal :=
  runWith 0x95 f s (fun _ => sttSig s f (curCtx s)) (fun s _ => s) (fun _ ps => ps) fun _ ps s1 r =>
    sttLane f s1 r (elementsWhole f s ps)

/-- `PRF` (R150): timing only. -/
def execPrf (f : Form) (s : State) : Host.Outcome State Fault Refusal :=
  runLanes 0x96 f s fun _ _ s _ => .ok s {}

end Sys2Proof.Machine
end

