-- ==== Sys2Proof/Machine/Copy.lean ====
section
/-! DEFINITION. Copies and the tables behind them (R151 to R156, R281, R282, R289, R293), pinned windows (R157) and
cache maintenance (R158). -/

namespace Sys2Proof.Machine

/-! Ranges. -/

/-- PROT for a global range outside R137. -/
def rangeLimit (a n : Nat) : Option TrapInfo :=
  if n ≠ 0 ∧ (2 ^ 57 ≤ a ∨ 2 ^ 57 < a + n) then some (trapAt cPROT a) else none

/-- The place of a check's outcome in the order of R139. -/
def checkRank : Checked → Nat
  | .ok _ _ _ => 9
  | .hold _ => 2
  | .trap i => if i.code = cPAGEF then 0 else if i.code = cPROT then 1 else if i.code = cRLOCK then 2
               else if i.code = cLOSTDATA then 3 else 4

/-- The first of two outcomes in the order of R139, the first range's where they tie. -/
def firstChecked (a b : Checked) : Checked := if checkRank b < checkRank a then b else a

/-- A range checked for a context as memory that is written whole where it covers whole sectors. -/
def checkWriteOf (s : State) (c : Nat) (t own : Option Nat) (a n : Nat) (lbc : Bool) : Checked :=
  let need : Need := { needW with lbc := lbc }
  rangeChecks s c t a need (pieceWholes (physPieces (rangePieces s c a n))) [(a, n)] own

/-- The same for a thread. -/
def checkWrite (s : State) (t a n : Nat) (lbc : Bool) : Checked := checkWriteOf s (ctxOf s t) (some t) none a n lbc

/-- A range's pages and locks checked, its contents not (R158). -/
def checkPages (s : State) (t a n : Nat) (need : Need) (locks : Bool) : Checked :=
  let c := ctxOf s t
  let ps := rangePieces s c a n
  match pageCheck need ps with
  | some i => .trap i
  | none =>
    let phys := physPieces ps
    let hits := if locks then locksCheck s (some t) none a phys else none
    match hits with
    | some o => o
    | none => .ok phys ((firstXlat ps).getD noXlat) (pieceKeys ps)

/-- Translations of a range's pages. -/
def rangeXlats (s : State) (c a n : Nat) : List (Nat × Xlat) :=
  (rangePieces s c a n).filterMap fun p => match p.2.2 with | .ok x => some (p.2.1, x) | .pagef | .prot => none

/-- MEMERR for a read of a data page whose header is bad (R255). -/
def headerCheck (s : State) (c a n : Nat) : Checked :=
  match (rangeXlats s c a n).find? fun p => lbcData p.2 && !lbcHeaderOk (headerOf s p.2.pa) with
  | some _ => .trap ⟨cMEMERR, a, 0, 0⟩
  | none => .ok [] noXlat []

/-- Whether some piece lies outside DRAM. -/
def outsideDram (ps : List (Nat × Nat)) : Bool := ps.any fun p => dramEnd ≤ p.1

/-- PROT for a range that meets the PHY blocks, which only their own loads and stores reach (R378). -/
def phyCheck (a : Nat) (c : Checked) : Checked :=
  match c with
  | .ok ps x ks => if ps.any fun p => phyBase ≤ p.1 then .trap (trapAt cPROT a) else .ok ps x ks
  | .trap i => .trap i
  | .hold w => .hold w

/-! Copies. -/

/-- ALIGN of a copy: the first misaligned value of destination, source and length (R152). -/
def copyAlign (xf d a n : Nat) : Option TrapInfo :=
  if 32 ≤ xf then none
  else if d % xfBlock xf ≠ 0 then some ⟨cALIGN, d, 0, 0⟩
  else if a % xfSrcBlock xf ≠ 0 then some ⟨cALIGN, a, 1, 0⟩
  else if n % xfBlock xf ≠ 0 then some ⟨cALIGN, n, 2, 0⟩
  else none

/-- The image of a loaded routine (R199). -/
def routineOf (s : State) (xf : Nat) : List Byte := (lookupNat s.routines xf).getD []

/-- Source bytes of a copy (R152; a loaded routine's are its own, log 10). -/
def copySrcLen (s : State) (xf n : Nat) : Nat :=
  if xf < 32 then xfSrcLen xf n else Config.routineSource xf (routineOf s xf) n

/-- ALIGN of `LBCC` and `LBCX`: a page that is no data page of an LBC group (R258; log 28). -/
def lbcAlign (s : State) (c xf d a n : Nat) : Option TrapInfo :=
  if xf = 30 ∧ (rangeXlats s c d n).any fun p => !lbcData p.2 then some ⟨cALIGN, d, 0, 0⟩
  else if xf = 31 ∧ (rangeXlats s c a n).any fun p => !lbcData p.2 then some ⟨cALIGN, a, 1, 0⟩
  else none

/-- The checks of a copy for a context, its destination for write and its source for read (R153). `t`: the copying
thread; `own`: a graph node's own locks, which do not apply to it (R326, R330). -/
def copyChecksOf (s : State) (c : Nat) (t own : Option Nat) (xf d a n : Nat) : Checked :=
  let m := copySrcLen s xf n
  match rangeLimit d n, rangeLimit a m with
  | some i, _ => .trap i
  | none, some i => .trap i
  | none, none =>
    let dst := phyCheck d (checkWriteOf s c t own d n (decide (xf = 30)))
    let src := phyCheck a (rangeChecks s c t a needR [] [(a, m)] own)
    firstChecked dst (firstChecked src (match src with | .ok _ _ _ => headerCheck s c a m | .trap _ | .hold _ => .ok [] noXlat []))

/-- The checks of a thread's copy (R153). -/
def copyChecks (s : State) (t xf d a n : Nat) : Checked := copyChecksOf s (ctxOf s t) (some t) none xf d a n

/-- Whether two lists of physical pieces meet. -/
def runsMeet (p q : List (Nat × Nat)) : Bool := p.any fun x => q.any fun y => rangesMeet x.1 x.2 y.1 y.2

/-- The first and last byte of each physically contiguous run of some pieces (R154). -/
def contiguous (ps : List (Nat × Nat)) : List (Nat × Nat) :=
  ps.foldl (fun acc p =>
    match acc.getLast? with
    | some q => if q.2 + 1 = p.1 then acc.dropLast ++ [(q.1, p.1 + p.2 - 1)] else acc ++ [(p.1, p.1 + p.2 - 1)]
    | none => [(p.1, p.1 + p.2 - 1)]) []

/-- Entries that ranges need at a home (R154). -/
def lockNeeds (rs : List (Nat × Nat)) (home : Nat) : List (Nat × Nat) :=
  rs.filter fun r => (homesOfRun r.1 (r.2 + 1 - r.1)).contains home

/-- Whether every home has room for the entries of some ranges (R154, R326). -/
def lockRoom (s : State) (rs : List (Nat × Nat)) : Bool :=
  (List.range 12).all fun i =>
    match s.homes[i]? with
    | some h => decide (h.locks.length + (lockNeeds rs i).length ≤ 256)
    | none => true

/-- Whether an operation may take every entry it needs: no other lock meets its ranges and every home has room (R154,
R326). `t`: its thread, none for a node's; `own`: a node's own locks. -/
def lockFree (s : State) (t own : Option Nat) (rs : List (Nat × Nat)) : Bool :=
  (lockHitOf s t own (rs.map fun r => (r.1, r.2 + 1 - r.1))).isEmpty && lockRoom s rs

/-- Whether another thread's access that has passed its checks is about to be performed in some ranges: it precedes
their locks (R276, R326; log 111). -/
def accessBefore (s : State) (t : Option Nat) (node : Option (Nat × Nat)) (rs : List (Nat × Nat)) : Bool :=
  s.accs.any fun a => orderedKind a && !(t.any fun x => a.owners.contains x) && (a.node.isNone || a.node ≠ node)
    && piecesMeet (accessPieces a) rs && mayPerform s a

/-- Takes an operation's entries at every home. -/
def takeLocks (s : State) (op : Nat) (rs : List (Nat × Nat)) (owner : Option Nat) : State :=
  { s with homes := s.homes.mapIdx fun i h =>
      { h with locks := h.locks ++ (lockNeeds rs i).map fun r => ⟨op, r.1, r.2, owner⟩ } }

/-- Releases an operation's entries. -/
def freeLocks (s : State) (op : Nat) : State :=
  { s with homes := s.homes.map fun h => { h with locks := h.locks.filter fun k => k.op ≠ op } }

/-- An operation that nothing has been filled in of. -/
def plainOp (s : State) (t engine fn : Nat) : EngineOp where
  id := s.nextId
  tid := t
  issue := s.issueNo
  team := some (teamIdOf s t)
  ctx := ctxOf s t
  engine := engine
  fn := fn
  unit := 0
  desc := []
  descVa := 0
  descSpad := none
  ranges := []
  locked := false
  param := 0
  dest := .none
  ctr := .none
  xf := 0
  dsts := []
  srcs := []
  keys := []
  len := 0
  tensors := []
  node := none
  todo := []
  snap := []
  ts := ((s.threads[t]?).map (·.ptime)).getD 0
  stage := 0
  pages := []
  swrites := []
  writes := []
  slot := none
  slotNew := none
  rm := ((groupOf s t).map fun g => g.fpctl.extractLsb' 8 3).getD 0
  pushes := []
  status := none
  reply := 0
  outs := []
  info := 0

/-- The thread of an operation, none for a graph node's. -/
def opThread (e : EngineOp) : Option Nat := if e.node.isSome then none else some e.tid

/-- The graph node of an operation. -/
def opNode (e : EngineOp) : Option (Nat × Nat) := e.node.map fun p => (p.1, p.2.1)

/-- Whether what precedes an operation's launch in program order is done: its thread's earlier accesses, the lower lanes'
of its instruction on common bytes, and their earlier launches (R153, R275). -/
def launchInOrder (s : State) (e : EngineOp) : Bool :=
  e.node.isSome
    || (!(s.accs.any fun a => orderedKind a && decide (a.id < e.id)
          && (a.owners.contains e.tid || (a.issue = e.issue && piecesMeet (accessPieces a) e.ranges)))
      && !(s.engines.any fun x => x.node.isNone && !x.locked && decide (x.id < e.id)
          && (x.tid = e.tid || (x.issue = e.issue && runsMeet (x.ranges.map fun r => (r.1, r.2 + 1 - r.1))
            (e.ranges.map fun r => (r.1, r.2 + 1 - r.1))))))

/-- Whether an operation's locks may be registered now (R154, R275, R276). -/
def launchable (s : State) (e : EngineOp) : Bool :=
  launchInOrder s e && lockFree s (opThread e) (nodeLock s (opNode e)) e.ranges
    && !accessBefore s (opThread e) (opNode e) e.ranges

/-- The owner of an operation's locks: the thread whose accesses they hold rather than trap (R154). -/
def lockOwner (e : EngineOp) : Option Nat := if e.engine = 8 then opThread e else none

/-- An operation as its launch leaves it: locked, an event after what its thread did before (R275). -/
def launched (s : State) (e : EngineOp) : EngineOp :=
  { e with locked := true, ts := max e.ts (((opThread e).bind fun t => (s.threads[t]?).map (·.ptime)).getD 0) }

/-- Starts an operation: it takes all its locks now if it can, and waits for them otherwise (R154). -/
def startOp (s : State) (e : EngineOp) : State :=
  let s := { s with nextId := s.nextId + 1 }
  if launchable s e then { takeLocks s e.id e.ranges (lockOwner e) with engines := s.engines ++ [launched s e] }
  else { s with engines := s.engines ++ [e] }

/-- RANGE_LOCK_GRANT (R154): a waiting operation takes all its entries once they are free. -/
def grantLocks (s : State) (id : Nat) : State :=
  match s.engines.find? fun e => e.id = id with
  | some e =>
    if !e.locked ∧ launchable s e then
      { takeLocks s id e.ranges (lockOwner e) with
        engines := s.engines.map fun x => if x.id = id then launched s x else x }
    else s
  | none => s

/-- An eager copy as an operation of a Sluice engine of the destination's home die (R154). -/
def eagerOp (s : State) (t xf n d : Nat) (ds : List (Nat × Nat)) (ss : List (Nat × Nat × Bool)) (keys : List (Nat × Nat)) :
    EngineOp :=
  { plainOp s t 8 0 with
    unit := homeDie ((ds.headD (0, 0)).1) * 4
    ranges := contiguous ds ++ contiguous (ss.map fun p => (p.1, p.2.1))
    ctr := .cp
    xf := xf
    dsts := ds
    srcs := ss
    keys := keys
    descVa := d
    len := n }

/-- Whether a copy is eager at issue (R153). -/
def copyEager (opc : BitVec 8) (xf : Nat) (ds ss : List (Nat × Nat)) (keys : List Nat) : Bool :=
  opc = 0x9A#8 || decide (32 ≤ xf) || runsMeet ds ss || keys.any (fun k => k ≠ keys.headD 0)
    || outsideDram ds || outsideDram ss

/-- A copy of a lane (R153). -/
def copyLane (opc : BitVec 8) (f : Form) (s : State) (r : Ready) : LaneOut :=
  let xf := if opc = 0x98#8 then 0 else f.d.toNat
  let d := r.a.toNat
  let a := r.b.toNat
  let n := natLow 32 r.c
  if n = 0 then .ok s {}
  else
    match counterHold s r.tid .cp with
    | some w => .hold w
    | none =>
      let c := ctxOf s r.tid
      if 32 ≤ xf ∧ (lookupNat s.routines xf).isNone then .trap (trapAt cXOPERR 0)
      else
        match copyAlign xf d a n, lbcAlign s c xf d a n with
        | some i, _ => .trap i
        | none, some i => .trap i
        | none, none =>
          match threadChecked s r.tid (copyChecks s r.tid xf d a n) with
          | .trap i => .trap i
          | .hold w => .hold w
          | .ok _ _ _ =>
            let m := copySrcLen s xf n
            let dx := rangeXlats s c d n
            let sx := rangeXlats s c a m
            let ds := dx.map fun p => (p.2.pa, p.1)
            let ss := sx.map fun p => (p.2.pa, p.1, lbcData p.2)
            let src := ss.map fun p => (p.1, p.2.1)
            let ks := pieceKeys (rangePieces s c d n)
            if ownCopyMeets s r.tid (ds ++ src) then .hold .ownLock
            else
              let s := cacheRange (cacheRange s c d n) c a m
              if copyEager opc xf ds src ((dx ++ sx).map fun p => p.2.key) then
                .ok (startOp (raiseCtr s r.tid .cp) (eagerOp s r.tid xf n d ds ss ks)) {}
              else
                let a : Access := { accessOf s r.tid
                    (.copy xf ds.length n (ss.map (·.2.2)) (dx.map (·.2.point)))
                    (.phys (ds ++ src)) n d ((dx.map (·.2)).headD noXlat) ks with ctr := .cp }
                .ok (enqueue s a) {}

/-- `CPY` (R153). -/
def execCpy (f : Form) (s : State) : Host.Outcome State Fault Refusal :=
  runLanes 0x98 f s fun _ _ s r => copyLane 0x98 f s r

/-- `CPYT` (R153). -/
def execCpyt (f : Form) (s : State) : Host.Outcome State Fault Refusal :=
  runLanes 0x99 f s fun _ _ s r => copyLane 0x99 f s r

/-- `CPYE` (R153). -/
def execCpye (f : Form) (s : State) : Host.Outcome State Fault Refusal :=
  runLanes 0x9A f s fun _ _ s r => copyLane 0x9A f s r

/-! Recording (R281, R282). -/

/-- Physically contiguous neighbours joined, where their marks agree. -/
def joinRuns (ps : List (Nat × Nat × Bool)) : List (Nat × Nat × Bool) :=
  ps.foldl (fun acc p =>
    match acc.getLast? with
    | some q => if q.1 + q.2.1 = p.1 ∧ q.2.2 = p.2.2 then acc.dropLast ++ [(q.1, q.2.1 + p.2.1, q.2.2)] else acc ++ [p]
    | none => [p]) []

/-- Pieces of a copy: runs over which both sides are contiguous, at most 1 GiB (R281); none when a block is cut by a
seam, where no entry can be aligned to its block (log 29). -/
def copyPieces (xf : Nat) : Nat → List (Nat × Nat × Bool) → List (Nat × Nat × Bool) → Option (List Piece)
  | 0, _, _ => some []
  | fuel + 1, ds, ss =>
    match ds, ss with
    | (d, n, x) :: dr, (a, m, l) :: sr =>
      if n = 0 then copyPieces xf fuel dr ss
      else if m = 0 then copyPieces xf fuel ds sr
      else
        let db := xfBlock xf
        let sb := xfSrcBlock xf
        let k := min (min (n / db) (m / sb)) (2 ^ 30 / db)
        if k = 0 ∨ d % 16 ≠ 0 ∨ a % 16 ≠ 0 ∨ d % db ≠ 0 then none
        else (copyPieces xf fuel ((d + k * db, n - k * db, x) :: dr) ((a + k * sb, m - k * sb, l) :: sr)).map
          (⟨d, a, k * db, xf, 0, l⟩ :: ·)
    | _, _ => some []

/-- Composes every piece of a copy to some destinations (R291, R292). -/
def composeAll (ds : List (Nat × Nat)) (s : State) (ps : List Piece) : State × List Piece :=
  let (s, qs) := ps.foldl (fun (acc : State × List Piece) p =>
    let (s, l) := composePiece ds (p.len / 16 + 1) acc.1 p
    (s, acc.2 ++ l)) (s, [])
  (s, qs.foldl joinPiece [])

/-- Headers of the pages that an `LBCC` copy writes: address and bytes (R255, R258), from a source page's bytes. -/
def lbcHeaders (ds : List (Nat × Nat)) (points : List Nat) (src : List Byte) : List (Nat × List Byte) :=
  (ds.zip points).mapIdx fun i p =>
    (p.1.1 / 65536 * 65536 + p.1.1 / 4096 % 16 * 64, lbcHeader ((src.drop (4096 * i)).take 4096) p.2)

/-- Bytes of source pieces as a read returns them. -/
def sourceBytes (s : State) (xf : Nat) (ss : List (Nat × Nat × Bool)) : List Byte :=
  ss.flatMap fun p => if p.2.2 ∧ xf ≠ 31 then lbcBytes s p.1 p.2.1 else currentBytes s p.1 p.2.1

/-- The counters of copies made eager at a home (R212). -/
def countEager (s : State) (home : Nat) (full : Bool) : State :=
  modHome s home fun h => if full then { h with eagerFull := h.eagerFull + 1 } else { h with eagerOcc := h.eagerOcc + 1 }

/-- A copy that cannot be recorded goes eager (R153, R282), in its thread's order where it stood (R154, R270). -/
def copyTurnsEager (s : State) (a : Access) (xf n : Nat) (ds : List (Nat × Nat)) (ss : List (Nat × Nat × Bool)) : State :=
  let s := { s with accs := s.accs.filter fun b => b.id ≠ a.id }
  startOp s { eagerOp s a.tid xf n a.va ds ss a.keys with
    id := a.id, issue := a.issue, ctx := a.ctx, node := a.node.map fun p => (p.1, p.2, 0), ts := accessFloor s a }

/-- What the homes of a copy's source do first (R282): Pooled data merged, modified data written back. -/
def cleanSource (s : State) (c : Nat) (sec : Nat) : State := mergeMs (cleanSector s sec) sec 0 64 (some c)

/-- What the homes of a copy's destination do first (R282): every die copy gone, Pooled data merged, watched and aliased
grains given up. -/
def clearTarget (s : State) (c : Nat) (ds : List (Nat × Nat)) (sec : Nat) : State :=
  prepareMask (mergeMs (exclude s sec) sec 0 64 (some c)) sec (coverMask [.phys ds] sec)

/-- COPY_COMMIT (R282, R293): the homes are prepared, the entries written with one timestamp, and cp falls. A copy that
meets a lock is held. -/
def copyCommit (s0 : State) (id : Nat) : State :=
  match readyAccess s0 id with
  | none => s0
  | some a =>
    match a.kind, a.place with
    | .copy xf nd n lbc points, .phys ps =>
      let ds := ps.take nd
      let srcs := ps.drop nd
      let ss := (srcs.zip lbc).map fun p => (p.1.1, p.1.2, p.2)
      match copyPieces xf (n / 16 + ps.length + 1) (joinRuns (ds.map fun p => (p.1, p.2, false))) (joinRuns ss) with
      | none => copyTurnsEager s0 a xf n ds ss
      | some pcs =>
        let s := (pieceSectors srcs).foldl (fun s sec => cleanSource s a.ctx sec) s0
        let (s, pcs) := composeAll ds s pcs
        match reedOver s pcs, reedFull s pcs with
        | some h, _ => copyTurnsEager (countEager s0 h false) a xf n ds ss
        | none, some h => copyTurnsEager (countEager s0 h true) a xf n ds ss
        | none, none =>
          let dsec := pieceSectors ds
          let ts := dsec.foldl (fun t sec => max t (writeStamp s sec (accessFloor s0 a))) (accessFloor s0 a)
          let ts := (pieceSectors srcs).foldl (fun t sec => max t (homeTimes s sec).1) ts
          let hdrs := if xf = 30 then lbcHeaders ds points (sourceBytes s xf ss) else []
          let s := retagAll s (pieceWholes ds) a.keys
          let s := dsec.foldl (fun s sec => clearTarget s a.ctx ds sec) s
          let s := commitEntries s pcs ts (((s.contexts[a.ctx]?).map (·.ctxid)).getD 0)
          let s := dsec.foldl (fun s sec => wakeMonitors (homeTimesPut s sec ts ts) sec) s
          let s := (pieceSectors srcs).foldl (fun s sec => homeTimesMax s sec 0 ts) s
          let s := hdrs.foldl (fun s h => (writeBytesNow s h.1 h.2 (some a.ctx) ts).1) s
          match a.node with
          | some p => endAccess (noteNode s p.1 p.2 ts) a
          | none => endAccess (raisePtime (dsec.foldl (fun s sec => refreshL1 s a.die a.site sec ts) s) a.tid ts) a
    | _, _ => s0

/-! Eager copies (R154, R275, R289). -/

/-- What an eager copy writes. -/
def eagerResult (s : State) (e : EngineOp) : List Byte :=
  let src := sourceBytes s e.xf e.srcs
  if e.xf = 31 then
    e.srcs.flatMap fun p => xfApply 31 (headerOf s p.1) (currentBytes s p.1 p.2.1)
  else if e.xf < 32 then xf2Apply e.xf 0 [] src
  else (List.range e.len).map fun i => Config.routineByte e.xf (routineOf s e.xf) src i

/-- Writes bytes over physical pieces for a context as one event above a floor. -/
def writePieces (s : State) (ps : List (Nat × Nat)) (bs : List Byte) (c : Option Nat) (floor : Nat) : State × Nat :=
  let ts := (pieceSectors ps).foldl (fun t sec => max t (writeStamp s sec floor)) floor
  let (s, _) := ps.foldl (fun (acc : State × List Byte) p =>
    ((writeBytesNow acc.1 p.1 (acc.2.take p.2) c ts).1, acc.2.drop p.2)) (s, bs)
  (s, ts)

/-- Reads physical pieces for a context as events above a floor: the state and the largest timestamp. -/
def touchPieces (s : State) (ps : List (Nat × Nat)) (c : Option Nat) (floor : Nat) : State × Nat :=
  ps.foldl (fun (acc : State × Nat) p =>
    let (s, _, ts) := readBytesNow acc.1 p.1 p.2 c acc.2
    (s, max acc.2 ts)) (s, floor)

/-- EAGER_COPY_COMPLETE (R154): the source read, the destination written as one event, locks released, cp lowered and
the thread's ptime raised. -/
def eagerComplete (s : State) (id : Nat) : State :=
  match s.engines.find? fun e => e.id = id with
  | some e =>
    if e.locked ∧ e.engine = 8 then
      let bs := eagerResult s e
      let src := e.srcs.map fun p => (p.1, p.2.1)
      let points := (rangeXlats s e.ctx e.descVa e.len).map (·.2.point)
      let hdrs := if e.xf = 30 then lbcHeaders e.dsts points (sourceBytes s e.xf e.srcs) else []
      let (s, ts) := touchPieces s src (some e.ctx) e.ts
      let s := retagAll s (pieceWholes e.dsts) e.keys
      let (s, ts) := writePieces s e.dsts bs (some e.ctx) ts
      let s := hdrs.foldl (fun s h => (writeBytesNow s h.1 h.2 (some e.ctx) ts).1) s
      let s := freeLocks { s with engines := s.engines.filter fun x => x.id ≠ id } id
      match e.node with
      | some (g, n, _) => send (noteNode s g n ts) [.nodeComplete g n]
      | none => raiseFences (lowerCtr (raisePtime s e.tid ts) e.tid e.ctr) id e.tid
    else s
  | none => s

/-! `MATZ` and `ALQ` (R155, R156). -/

/-- Makes one grain plain memory: what reads it and what it reads are materialised. -/
def plainGrain (s : State) (g : Nat) : State :=
  let s := (watchersOf s g).foldl (fun s d => dhomeMaterialiseGrain s d g) s
  match aliasFor s g with
  | none => s
  | some e => removeBlock (materialiseBlock s e (blockIndex e g)) (homeOf (g * 16)) e (blockIndex e g)

/-- Grains of physical pieces. -/
def pieceGrains (ps : List (Nat × Nat)) : List Nat :=
  ps.flatMap fun p => if p.2 = 0 then [] else (List.range ((p.1 + p.2 + 15) / 16 - p.1 / 16)).map fun i => p.1 / 16 + i

/-- `MATZ` in a lane. -/
def matzLane (s : State) (r : Ready) : LaneOut :=
  let a := r.a.toNat
  let n := natLow 32 r.c
  match counterHold s r.tid .cp with
  | some w => .hold w
  | none =>
    if a % 16 ≠ 0 then .trap ⟨cALIGN, a, 0, 0⟩
    else if n % 16 ≠ 0 then .trap ⟨cALIGN, n, 2, 0⟩
    else
      match rangeLimit a n with
      | some i => .trap i
      | none =>
        match threadChecked s r.tid (phyCheck a (checkWrite s r.tid a n false)) with
        | .trap i => .trap i
        | .hold w => .hold w
        | .ok ps x ks => .ok (enqueue s { accessOf s r.tid .matz (.phys ps) n a x ks with ctr := .cp }) {}

/-- `MATZ` (R155). -/
def execMatz (f : Form) (s : State) : Host.Outcome State Fault Refusal :=
  runLanes 0x9B f s fun _ _ s r => matzLane s r

/-- `MATZ` performed: the grains of its range are plain memory. -/
def performMatz (s : State) (a : Access) : State :=
  match a.place with
  | .phys ps => endAccess ((pieceGrains (ps.filter fun p => p.1 < dramEnd)).foldl plainGrain s) a
  | .spad _ _ | .nothing => endAccess s a

/-- `ALQ` in a lane: whole grains that meet the range. -/
def alqLane (s : State) (r : Ready) : LaneOut :=
  let a := r.a.toNat
  let n := natLow 32 r.c
  let lo := a / 16 * 16
  let m := if n = 0 then 0 else (a + n + 15) / 16 * 16 - lo
  match counterHold s r.tid .ld with
  | some w => .hold w
  | none =>
    match rangeLimit a n with
    | some i => .trap i
    | none =>
      match phyCheck a (checkPages s r.tid lo m needNone false) with
      | .trap i => .trap i
      | .hold w => .hold w
      | .ok ps x ks =>
        .ok (enqueue s { accessOf s r.tid .alq (.phys ps) m a x ks with
          dest := destOf s r.tid r.d 1 r.span, ctr := .ld }) {}

/-- `ALQ` (R156). -/
def execAlq (f : Form) (s : State) : Host.Outcome State Fault Refusal :=
  runLanes 0x9C f s fun _ _ s r => alqLane s r

/-- `ALQ`'s report (R156). -/
def performAlq (s : State) (a : Access) : State :=
  let v := match a.place with
    | .phys ps => ps.foldl (fun v p => v ||| BitVec.ofNat 32 (aliasReport s p.1 p.2)) 0#32
    | .spad _ _ | .nothing => 0#32
  endAccess (deliverTo s a.tid a.dest [v]) a

/-! Pinned windows (R157). -/

/-- `PIN`'s status and the state after it. -/
def pinWindow (s : State) (c a n : Nat) : State × Nat :=
  match s.contexts[c]? with
  | none => (s, 0)
  | some cx =>
    let sum (l : List PinWindow) : Nat := (l.map (·.len)).sum
    if cx.windows.any fun w => w.va = a ∧ w.len = n then
      (modCtx s c fun k => { k with windows := k.windows.map fun w => if w.va = a then { w with fade := 255 } else w }, 0)
    else if 16 ≤ cx.windows.length then (s, 1)
    else if 256 * 2 ^ 20 < sum cx.windows + n then (s, 2)
    else if 512 * 2 ^ 20 < ((s.contexts.filter (·.live)).map fun k => sum k.windows).sum + n then (s, 3)
    else if cx.windows.any fun w => w.va < a + n ∧ a < w.va + w.len then (s, 4)
    else
      let pages := (List.range (n / 65536)).filterMap fun i => match translate s c (a + 65536 * i) with
        | .ok x => some (x.pa / 65536)
        | .pagef | .prot => none
      (modCtx s c fun k => { k with windows := k.windows ++ [⟨a, n, pages, 255, false⟩] }, 0)

/-- An access with nothing left to do but return a value (R140): the instruction has acted, its result comes later. -/
def returning (s : State) (r : Ready) (bs : List Byte) : Access :=
  { accessOf s r.tid (.load false false false) .nothing bs.length 0 noXlat [] with
    bytes := bs, dest := destOf s r.tid r.d (bs.length / 4) r.span, ctr := .ld }

/-- `PIN` in a lane. -/
def pinLane (s : State) (r : Ready) : LaneOut :=
  let a := r.a.toNat
  let n := natLow 32 r.c
  match counterHold s r.tid .ld with
  | some w => .hold w
  | none =>
  if a % 65536 ≠ 0 then .trap ⟨cALIGN, a, 0, 0⟩
  else if n % 65536 ≠ 0 ∨ n = 0 then .trap ⟨cALIGN, n, 2, 0⟩
  else
    match rangeLimit a n with
    | some i => .trap i
    | none =>
      let (s, v) := pinWindow s (ctxOf s r.tid) a n
      .ok (enqueue s (returning s r (bytesOf 4 v))) {}

/-- `PIN` (R157). -/
def execPin (f : Form) (s : State) : Host.Outcome State Fault Refusal :=
  runLanes 0x9D f s fun _ _ s r => pinLane s r

/-- `UNPIN` (R157). -/
def execUnpin (f : Form) (s : State) : Host.Outcome State Fault Refusal :=
  runLanes 0x9E f s fun _ _ s r =>
    .ok (modCtx s (ctxOf s r.tid) fun k => { k with windows := k.windows.filter fun w => w.va ≠ r.a.toNat }) {}

/-- `TOUCH` (R157). -/
def execTouch (f : Form) (s : State) : Host.Outcome State Fault Refusal :=
  runLanes 0x9F f s fun _ _ s r =>
    .ok (modCtx s (ctxOf s r.tid) fun k => { k with windows := k.windows.map fun w =>
      if w.va ≤ r.a.toNat ∧ r.a.toNat < w.va + w.len then { w with fade := 255 } else w }) {}

/-! Cache maintenance (R158). -/

/-- `CFLUSH` and `CINV` in a lane. -/
def flushLane (f : Form) (s : State) (r : Ready) (need : Need) (discard : Bool) : LaneOut :=
  let a := r.a.toNat
  let n := natLow 32 r.c
  match counterHold s r.tid .st with
  | some w => .hold w
  | none =>
    if a % 256 ≠ 0 then .trap ⟨cALIGN, a, 0, 0⟩
    else if n % 256 ≠ 0 then .trap ⟨cALIGN, n, 2, 0⟩
    else
      match rangeLimit a n with
      | some i => .trap i
      | none =>
        match threadChecked s r.tid (phyCheck a (checkPages s r.tid a n need true)) with
        | .trap i => .trap i
        | .hold w => .hold w
        | .ok ps x ks =>
          .ok (enqueue s { accessOf s r.tid (.flush (f.mod.getLsbD 0) (f.mod.getLsbD 1) discard) (.phys ps) n a x ks with
            ctr := .st }) {}

/-- `CFLUSH` (R158). -/
def execCflush (f : Form) (s : State) : Host.Outcome State Fault Refusal :=
  runLanes 0xA0 f s fun _ _ s r => flushLane f s r needNone false

/-- `CINV` (R158). -/
def execCinv (f : Form) (s : State) : Host.Outcome State Fault Refusal :=
  runLanes 0xA1 f s fun _ _ s r => flushLane f s r needW true

/-- Drops every copy of a sector in the package's L1s and L2s. -/
def dropCopies (s : State) (sec : Nat) : State :=
  let s := (List.range 4).foldl (fun s d => l2Del s d sec) s
  let s := { s with cores := s.cores.map fun c => { c with l1 := c.l1.filter fun x => x.sec ≠ sec } }
  dirPut s sec dirIdle

/-- A line's Peat and write-combining copies go to DRAM for a context; a pinned one is kept (R158). -/
def flushPeat (s : State) (c line : Nat) : State :=
  match s.homes[homeOf (line * 256)]? with
  | none => s
  | some h =>
    let k := peatCall s (some c)
    let (h, m) := wcFall k h s.mem line
    let (h, m) :=
      if linePinned s.contexts line then
        match h.peat.find? fun p => p.line = line with
        | some p =>
          let (h, m) := peatSpill k h m p
          peatPlace k h m { p with bytes := dramLine m line, dirty := false, parts := [] }
        | none => (h, m)
      else peatDrop k h m line
    { s with homes := setAt s.homes (homeOf (line * 256)) h, mem := m }

/-- A line's Peat and write-combining copies are discarded, partials with them (R158). -/
def discardPeat (s : State) (line : Nat) : State :=
  modHome s (homeOf (line * 256)) fun h =>
    { h with peat := h.peat.filter fun p => p.line ≠ line, wc := h.wc.filter fun w => w.line ≠ line }

/-- Lines of sectors that lie in DRAM. -/
def dramLines (secs : List Nat) : List Nat := ((secs.filter fun x => x * 64 < dramEnd).map (· / 4)).dedup

/-- `CFLUSH` performed (R158). -/
def performFlush (s : State) (a : Access) (inv peat : Bool) : State :=
  let secs := pieceSectors (match a.place with | .phys ps => ps | .spad _ _ | .nothing => [])
  let s := secs.foldl cleanSector s
  let s := if inv then secs.foldl dropCopies s else s
  endAccess (if peat then (dramLines secs).foldl (fun s l => flushPeat s a.ctx l) s else s) a

/-- `CINV` performed (R158): one write event over the range. -/
def performDiscard (s : State) (a : Access) : State :=
  let secs := pieceSectors (match a.place with | .phys ps => ps | .spad _ _ | .nothing => [])
  let s := secs.foldl quiesce s
  let pt := ((s.threads[a.tid]?).map (·.ptime)).getD 0
  let ts := secs.foldl (fun t sec => max t (writeStamp s sec pt)) pt
  let s := secs.foldl dropCopies s
  let s := (dramLines secs).foldl discardPeat s
  let s := secs.foldl (fun s sec => wakeMonitors (homeTimesPut s sec ts ts) sec) s
  endAccess (raisePtime s a.tid ts) a

end Sys2Proof.Machine
end

