-- ==== Sys2Proof/Machine/Atomic.lean ====
section
/-! DEFINITION. Atomics, reductions and condition monitors (R159 to R164, R304, R308). -/

namespace Sys2Proof.Machine

/-- op, MOD[5:3]. -/
def atomOpOf (f : Form) : BitVec 3 := f.mod.extractLsb' 3 3

/-- The global address of an atomic or `WAITC` in a lane: base plus scaled index (R136, R159). -/
def elementAddr (r : Ready) (n : Nat) : Nat := (effective r.a r.b n).toNat

/-- The checks of an atomic access; the PHY blocks take none (R378). -/
def atomLocate (s : State) (t ea n : Nat) (need : Need) : Located :=
  match locate s t 0 ea n n need [] with
  | .ok p x ks => if phyBase ≤ placeAddr p then .trap (trapAt cPROT ea) else .ok p x ks
  | .trap i => .trap i
  | .hold w => .hold w

/-- `ATOM` in a lane: an access performed at the home (R160). -/
def atomLane (f : Form) (s : State) (r : Ready) : LaneOut :=
  let ty := modIt f.mod
  let n := tyBytes ty
  match counterHold s r.tid .ld with
  | some w => .hold w
  | none =>
    match atomLocate s r.tid (elementAddr r n) n needRW with
    | .trap i => .trap i
    | .hold w => .hold w
    | .ok p x ks =>
      .ok (enqueue s { accessOf s r.tid (.atom (atomOpOf f) ty) p n (elementAddr r n) x ks with
        cmp := r.c, dest := destOf s r.tid r.d (n / 4) r.span, ctr := .ld }) {}

/-- `ATOM` (R160). -/
def execAtom (f : Form) (s : State) : Host.Outcome State Fault Refusal :=
  runLanes 0xB0 f s fun _ _ s r => atomLane f s r

/-- `ACAS` in a lane (R161). -/
def acasLane (f : Form) (s : State) (r : Ready) : LaneOut :=
  let n := if f.mod.getLsbD 0 then 8 else 4
  match counterHold s r.tid .ld with
  | some w => .hold w
  | none =>
    match atomLocate s r.tid r.a.toNat n needRW with
    | .trap i => .trap i
    | .hold w => .hold w
    | .ok p x ks =>
      .ok (enqueue s { accessOf s r.tid (.acas n) p n r.a.toNat x ks with
        cmp := r.b, bytes := bytesOf n r.c.toNat, dest := destOf s r.tid r.d (n / 4) r.span, ctr := .ld }) {}

/-- `ACAS` (R161). -/
def execAcas (f : Form) (s : State) : Host.Outcome State Fault Refusal :=
  runLanes 0xB1 f s fun _ _ s r => acasLane f s r

/-- Adds a step to those of a combined `RED`: one element's lanes are combined in order, elements and halves ascend
(R62 step 1, R308). -/
def addStep (op ty : BitVec 3) : List (Nat × Nat × DWord) → Nat × Nat × DWord → List (Nat × Nat × DWord)
  | [], x => [x]
  | (e, h, u) :: r, (e', h', v) =>
    if e = e' ∧ h = h' then (e, h, halfStep op ty u v) :: r
    else if e' < e ∨ (e' = e ∧ h' < h) then (e', h', v) :: (e, h, u) :: r
    else (e, h, u) :: addStep op ty r (e', h', v)

/-- The steps of one lane's update. -/
def laneSteps (ty : BitVec 3) (e : Nat) (c : DWord) : List (Nat × Nat × DWord) :=
  (List.range (tyHalves ty)).map fun h => (e, h, halfWiden ty h c)

/-- The steps of a combined `RED` under way. -/
def redSteps (a : Access) : List (Nat × Nat × DWord) := match a.kind with | .red _ l _ => l | _ => []

/-- The combined `RED` of this issue group for a sector, if a lower lane has begun it. -/
def redUnderWay (s : State) (sec : Nat) : Option Access :=
  s.accs.find? fun a => decide (a.issue = s.issueNo) && (match a.kind with | .red _ _ _ => true | _ => false)
    && decide (placeAddr a.place / 64 = sec)

/-- `RED` in a lane: it joins the update of its issue group for the sector (R162). -/
def redLane (f : Form) (s : State) (r : Ready) : LaneOut :=
  let op := atomOpOf f
  let ty := modIt f.mod
  let n := tyBytes ty
  match counterHold s r.tid .st with
  | some w => .hold w
  | none =>
    match atomLocate s r.tid (elementAddr r n) n needW with
    | .trap i => .trap i
    | .hold w => .hold w
    | .ok p x ks =>
      let pa := placeAddr p
      let steps := laneSteps ty (pa % 64 / n) r.c
      match redUnderWay s (pa / 64) with
      | some a =>
        let a' : Access := { a with owners := a.owners ++ [r.tid], kind := .red (tagOf op ty) (steps.foldl (addStep op ty) (redSteps a)) false }
        .ok (raiseCtr { s with accs := s.accs.map fun b => if b.id = a.id then a' else b } r.tid .st) {}
      | none =>
        .ok (enqueue s { accessOf s r.tid (.red (tagOf op ty) steps false) (.phys [(pa / 64 * 64, 64)]) 64 (elementAddr r n) x ks with
          ctr := .st }) {}

/-- `RED` (R162). -/
def execRed (f : Form) (s : State) : Host.Outcome State Fault Refusal :=
  runLanes 0xB2 f s fun _ _ s r => redLane f s r

/-! `WAITC` (R164). -/

/-- How a thread waits. -/
def waitAt (s : State) (t : Nat) : Wait := ((s.threads[t]?).map fun th => th.wait).getD .ready

/-- Whether a wait is one inside `WAITC`. -/
def inWaitc (w : Wait) : Bool := match w with | .monitor _ | .woken _ | .poll _ => true | _ => false

/-- Threads of a team that have not exited and wait in no `WAITC`, a thread apart. -/
def waitcOthers (s : State) (m t : Nat) : Bool :=
  (teamThreads s m).any fun x => x ≠ t && !threadExited s x && !inWaitc (waitAt s x)

/-- Notes since when every live thread of a team waits in `WAITC` (R230). -/
def noteWaitc (s : State) (t : Nat) : State :=
  let m := teamIdOf s t
  let since (o : Option Nat) : Option Nat :=
    if waitcOthers s m t then none
    else match o with
      | some c => some c
      | none => some s.clk
  modTeam s m fun k => { k with waitcSince := since k.waitcSince }

/-- Monitors in use at the slice of a sector (R304). -/
def sliceMonitors (s : State) (sec : Nat) : Nat :=
  match s.dies[homeDie (sec * 64)]? with
  | some d => (d.monitors.filter fun m => sliceOf (m.sec * 64) = sliceOf (sec * 64)).length
  | none => 0

/-- Suspends a thread on a sector: a monitor, or a poll every 256 clk when none is free and on MS pages (R164). -/
def suspendOn (s : State) (t sec : Nat) (ms : Bool) (m : Monitor) : State :=
  if ms ∨ 1024 ≤ sliceMonitors s sec then noteWaitc (holdAt s t (.poll (s.clk + 256))) t
  else noteWaitc (holdAt (modDie s (homeDie (sec * 64)) fun d => { d with monitors := d.monitors ++ [m] }) t (.monitor sec)) t

/-- `WAITC` in a lane: one read event each time it executes (R164). -/
def waitcLane (f : Form) (s : State) (r : Ready) : LaneOut :=
  let it := modIt f.mod
  let n := if itWidth it = 64 then 8 else 4
  if hasAccess s r.tid then .hold .accesses
  else
    match atomLocate s r.tid (elementAddr r n) n needRW with
    | .trap i => .trap i
    | .hold w => .hold w
    | .ok p x _ =>
      let pa := placeAddr p
      let pt := ((s.threads[r.tid]?).map (·.ptime)).getD 0
      let (s, bs, ts) := readBytesNow (cacheRange s (ctxOf s r.tid) (elementAddr r n) n) pa n (some (ctxOf s r.tid)) pt
      let s := raisePtime s r.tid ts
      let v : DWord := BitVec.ofNat 64 (bitsOfBytes bs)
      if aluIcmp (ccOf f) it v r.c then
        .ok (modTeam s (teamIdOf s r.tid) fun k => { k with waitcSince := none }) { vals := valueWords (8 * n) v }
      else .suspend (suspendOn s r.tid (pa / 64) x.ms ⟨pa / 64, r.tid, ccOf f, it, r.c, pa % 64⟩)

/-- `WAITC` (R164). -/
def execWaitc (f : Form) (s : State) : Host.Outcome State Fault Refusal :=
  runLanes 0xB5 f s fun _ _ s r => waitcLane f s r

/-- MONITOR_WAKE and the end of a poll (R164): the thread reads again. -/
def waitcAgain (s : State) (t : Nat) : State :=
  if inWaitc (waitAt s t) then modThread (dropMonitor s t) t fun th => becomeReady th s.clk else s

end Sys2Proof.Machine
end

