-- ==== Sys2Proof/Machine/Barrier.lean ====
section
/-! DEFINITION. Barriers, arrival objects, fences, counter waits and signing sets (R169 to R177). -/

namespace Sys2Proof.Machine

/-! `BAR` and `CBAR` (R169 to R171). -/

/-- BARMASK: a guard that holds in some threads of the issue group but not in all (R170). -/
def barMask (_s : State) (ps : List (Nat × Prep)) : List (Nat × Prep) :=
  let off (p : Nat × Prep) : Bool := match p.2 with | .inactive => true | .trap _ | .hold _ | .ready _ => false
  if ps.any off ∧ !ps.all off then ps.map fun p => (p.1, .trap (trapAt cBARMASK 0)) else ps

/-- BARDIV: the arriving PC, the pending episode's PC, the lanes of the group that wait in it, and both numbers
(R171). -/
def barDiv (s : State) (t : Nat) (pc : DWord) (n : Nat) (e : Episode) : TrapInfo :=
  let g := ((s.threads[t]?).map (·.group)).getD 0
  let mask := laneMask s (e.waiting.filter fun x => ((s.threads[x]?).map (·.group)) = some g)
  ⟨cBARDIV, pc.toNat, e.pc.toNat, mask.toNat + 2 ^ 32 * e.num + 2 ^ 36 * n⟩

/-- The cluster of a thread. -/
def clusterIdOf (s : State) (t : Nat) : Nat := ((teamOf s t).map (·.cluster)).getD 0

/-- A pending `BAR` episode of some team of a cluster, a team's own first. -/
def clusterBars (s : State) (t c : Nat) : Option Episode :=
  match (teamOf s t).bind (·.episode) with
  | some e => some e
  | none => ((s.clusters[c]?).map (·.teams)).getD [] |>.findSome? fun m => (s.teams[m]?).bind (·.episode)

/-- A thread arrives in an episode and waits; the episode completes with its last arrival. -/
def arriveTeam (s : State) (t : Nat) (e : Episode) : State :=
  let m := teamIdOf s t
  settleBarriers (modTeam (holdAt s t (.barrier false)) m fun k => { k with episode := some { e with waiting := e.waiting ++ [t] } }) m

/-- As `arriveTeam`, in the cluster's episode. -/
def arriveCluster (s : State) (t : Nat) (e : Episode) : State :=
  settleBarriers (modCluster (holdAt s t (.barrier true)) (clusterIdOf s t) fun k =>
    { k with episode := some { e with waiting := e.waiting ++ [t] } }) (teamIdOf s t)

/-- A thread whose earlier accesses are outstanding holds first, so that they precede what follows the barrier
(R169). -/
def barLane (iss : Issue) (f : Form) (s : State) (r : Ready) : LaneOut :=
  if hasAccess s r.tid then .hold .accesses
  else
    let n := f.a.toNat
    match (teamOf s r.tid).bind (·.episode) with
    | some e =>
      if e.pc = iss.pc ∧ e.num = n then .suspend (arriveTeam s r.tid e) else .trap (barDiv s r.tid iss.pc n e)
    | none =>
      match (s.clusters[clusterIdOf s r.tid]?).bind (·.episode) with
      | some e => .trap (barDiv s r.tid iss.pc n e)
      | none => .suspend (arriveTeam s r.tid ⟨iss.pc, f.len.bytes, n, []⟩)

/-- `BAR` (R169). -/
def execBar (f : Form) (s : State) : Host.Outcome State Fault Refusal :=
  runWith 0xC0 f s (fun _ => sigOf 0xC0 f) (fun s _ => s) barMask fun iss _ s r => barLane iss f s r

/-- `CBAR` in a lane. -/
def cbarLane (iss : Issue) (f : Form) (s : State) (r : Ready) : LaneOut :=
  if hasAccess s r.tid then .hold .accesses
  else
    let n := f.a.toNat
    match (s.clusters[clusterIdOf s r.tid]?).bind (·.episode) with
    | some e =>
      if e.pc = iss.pc ∧ e.num = n then .suspend (arriveCluster s r.tid e) else .trap (barDiv s r.tid iss.pc n e)
    | none =>
      match clusterBars s r.tid (clusterIdOf s r.tid) with
      | some e => .trap (barDiv s r.tid iss.pc n e)
      | none => .suspend (arriveCluster s r.tid ⟨iss.pc, f.len.bytes, n, []⟩)

/-- `CBAR` (R169). -/
def execCbar (f : Form) (s : State) : Host.Outcome State Fault Refusal :=
  runWith 0xC1 f s (fun _ => sigOf 0xC1 f) (fun s _ => s) barMask fun iss _ s r => cbarLane iss f s r

/-! Arrival objects (R172, R173). -/

/-- An arrival object. -/
structure Arrival where
  gen : Nat
  left : Int
  arr0 : Nat
  owed : Int
  bytes0 : Nat
  deriving DecidableEq, Repr

/-- A signed field. -/
def signedOf (w n : Nat) : Int := if n < 2 ^ (w - 1) then (n : Int) else (n : Int) - 2 ^ w

/-- The object that 16 bytes hold. -/
def arrivalOf (bs : List Byte) : Arrival where
  gen := bitsOfBytes (bs.take 4)
  left := signedOf 16 (bitsOfBytes ((bs.drop 4).take 2))
  arr0 := bitsOfBytes ((bs.drop 6).take 2)
  owed := signedOf 32 (bitsOfBytes ((bs.drop 8).take 4))
  bytes0 := bitsOfBytes ((bs.drop 12).take 4)

/-- The 16 bytes of an object. -/
def arrivalBytes (a : Arrival) : List Byte :=
  bytesOf 4 a.gen ++ bytesOf 2 (a.left % 65536).toNat ++ bytesOf 2 a.arr0 ++ bytesOf 4 (a.owed % 2 ^ 32).toNat ++ bytesOf 4 a.bytes0

/-- How many generations complete (R173): one for each turn of the loop, one at most while both needs are zero. -/
def arrivalTurns (a : Arrival) : Nat :=
  if 0 < a.left ∨ 0 < a.owed then 0
  else
    let k1 := (-a.left).toNat / a.arr0 + 1
    let k2 := (-a.owed).toNat / a.bytes0 + 1
    if a.arr0 = 0 ∧ a.bytes0 = 0 then 1
    else if a.arr0 = 0 then k2
    else if a.bytes0 = 0 then k1
    else min k1 k2

/-- Completes generations. -/
def arrivalComplete (a : Arrival) : Arrival :=
  let k := arrivalTurns a
  { a with gen := (a.gen + k) % 2 ^ 32, left := if k = 0 then a.left else min (a.left + k * a.arr0) 32767,
           owed := a.owed + k * a.bytes0 }

/-- `ABARV`'s effect on the object. -/
def arrive1 (a : Arrival) (bytes : Nat) : Arrival :=
  arrivalComplete { a with left := max (a.left - 1) (-32768), owed := max (a.owed - bytes) (-(2 ^ 31)) }

/-- An engine credits bytes (R172, R198). -/
def creditBytes (a : Arrival) (bytes : Nat) : Arrival := arrivalComplete { a with owed := max (a.owed - bytes) (-(2 ^ 31)) }

/-- The space of an object: 1 scratchpad, 2 cluster scratchpad. -/
def objectSpace (f : Form) : Nat := if f.mod.getLsbD 0 then 2 else 1

/-- `ABINIT` in a lane. -/
def abinitLane (f : Form) (s : State) (r : Ready) : LaneOut :=
  let b := natLow 32 r.b
  let c := natLow 32 r.c
  match counterHold s r.tid .st with
  | some w => .hold w
  | none =>
    if (b = 0 ∧ c = 0) ∨ 32767 < b ∨ 2 ^ 31 ≤ c then .trap (trapAt cILLOPND 0)
    else
      match locate s r.tid (objectSpace f) r.a.toNat 16 16 needW [] with
      | .trap i => .trap i
      | .hold w => .hold w
      | .ok p x ks => .ok (enqueue s { accessOf s r.tid (.abinit b c) p 16 r.a.toNat x ks with ctr := .st }) {}

/-- `ABINIT` (R173). -/
def execAbinit (f : Form) (s : State) : Host.Outcome State Fault Refusal :=
  runLanes 0xC2 f s fun _ _ s r => abinitLane f s r

/-- `ABARV` in a lane. -/
def abarvLane (f : Form) (s : State) (r : Ready) : LaneOut :=
  match counterHold s r.tid .ld with
  | some w => .hold w
  | none =>
    match locate s r.tid (objectSpace f) r.a.toNat 16 16 needRW [] with
    | .trap i => .trap i
    | .hold w => .hold w
    | .ok p x ks =>
      .ok (enqueue s { accessOf s r.tid (.abarv (natLow 32 r.b)) p 16 r.a.toNat x ks with
        dest := destOf s r.tid r.d 1 r.span, ctr := .ld }) {}

/-- `ABARV` (R173). -/
def execAbarv (f : Form) (s : State) : Host.Outcome State Fault Refusal :=
  runLanes 0xC3 f s fun _ _ s r => abarvLane f s r

/-- `ABINIT` and `ABARV` performed at the object's frame, one event each. -/
def performObject (s : State) (a : Access) (start : Option (Nat × Nat)) (bytes : Nat) : State :=
  match a.place with
  | .spad r n =>
    if spadReady s r n then
      let pt := ((s.threads[a.tid]?).map (·.ptime)).getD 0
      let (s, bs, ts) := spadRead s r 16 pt
      let old := arrivalOf bs
      let new : Arrival := match start with
        | some (b, c) => ⟨0, b, b, c, c⟩
        | none => arrive1 old bytes
      let (s, ts) := spadWrite s r (arrivalBytes new) ts
      endAccess (deliverTo (raisePtime s a.tid ts) a.tid a.dest [BitVec.ofNat 32 old.gen]) a
    else askRefills s r n
  | .phys _ | .nothing => endAccess s a

/-- `ABWAIT` in a lane: it reads the object and waits for its next event until the generation has passed (R173). -/
def abwaitLane (f : Form) (s : State) (r : Ready) : LaneOut :=
  if hasAccess s r.tid then .hold .accesses
  else
    match locate s r.tid (objectSpace f) r.a.toNat 16 16 needR [] with
    | .trap i => .trap i
    | .hold w => .hold w
    | .ok p _ _ =>
      match p with
      | .spad at_ n =>
        let s := spadFill s at_ n
        if !spadReady s at_ n then .hold .accesses else
        let pt := ((s.threads[r.tid]?).map (·.ptime)).getD 0
        let (s, bs, ts) := spadRead s at_ 16 pt
        let s := raisePtime s r.tid ts
        let gap := ((arrivalOf bs).gen + 2 ^ 32 - natLow 32 r.b) % 2 ^ 32
        if 1 ≤ gap ∧ gap < 2 ^ 31 then .ok s {} else .suspend (holdAt s r.tid (.arrival at_ (natLow 32 r.b)))
      | .phys _ | .nothing => .ok s {}

/-- `ABWAIT` (R173). -/
def execAbwait (f : Form) (s : State) : Host.Outcome State Fault Refusal :=
  runLanes 0xC4 f s fun _ _ s r => abwaitLane f s r

/-! Fences and counters (R174 to R176). -/

/-- Threads of a thread's grid on its core (R174). -/
def coreMates (s : State) (t : Nat) : List Nat :=
  (List.range s.threads.length).filter fun x =>
    coreOf s x = coreOf s t && ((teamOf s x).map (·.grid)) = ((teamOf s t).map (·.grid))

/-- Ids of the accesses and of the engine operations of some threads that have not been performed. -/
def outstanding (s : State) (ts : List Nat) : List Nat × List Nat :=
  ((s.accs.filter fun a => a.owners.any fun t => ts.contains t).map (·.id),
   (s.engines.filter fun e => ts.contains e.tid && e.node = none).map (·.id))

/-- `FENCEG` in a lane: the thread passes the instruction and waits for what is outstanding now, its ptime following
(R174). -/
def fencegLane (iss : Issue) (f : Form) (s : State) (r : Ready) : LaneOut :=
  let ts := coreMates s r.tid
  let top := ts.foldl (fun m t => max m (((s.threads[t]?).map (·.ptime)).getD 0)) 0
  let (accs, ops) := outstanding s ts
  let s := raisePtime s r.tid top
  if accs.isEmpty ∧ ops.isEmpty then .ok s {}
  else .suspend (holdAt (advance s r.tid iss.pc f.len.bytes) r.tid (.fence accs ops))

/-- `FENCEG` (R174). -/
def execFenceg (f : Form) (s : State) : Host.Outcome State Fault Refusal :=
  runLanes 0xC5 f s fun iss _ s r => fencegLane iss f s r

/-- `FENCEX` in a lane (R175). -/
def fencexLane (f : Form) (s : State) (r : Ready) : LaneOut :=
  let (accs, ops) := outstanding s [r.tid]
  let rem := if f.mod.getLsbD 0 then (s.lodes.filter fun o => o.tid = r.tid).map (·.id) else []
  if accs.isEmpty ∧ ops.isEmpty ∧ rem.isEmpty then .ok s {} else .hold (.fence accs (ops ++ rem))

/-- `FENCEX` (R175). -/
def execFencex (f : Form) (s : State) : Host.Outcome State Fault Refusal :=
  runLanes 0xC6 f s fun _ _ s r => fencexLane f s r

/-- A threshold of `WAIT`; 0x3FF waits for nothing. -/
def thresholdOf (x : BitVec 10) : Option Nat := if x = 0x3FF#10 then none else some x.toNat

/-- Whether a counter is at or below a threshold. -/
def atMost (n : Nat) (h : Option Nat) : Bool := match h with | some k => n ≤ k | none => true

/-- `WAIT` in a lane. -/
def waitLane (f : Form) (s : State) (r : Ready) : LaneOut :=
  match s.threads[r.tid]? with
  | none => .ok s {}
  | some th =>
    let l := thresholdOf f.d
    let st := thresholdOf f.a
    let cp := thresholdOf f.b
    let tl := thresholdOf f.c
    if atMost th.ld l && atMost th.st st && atMost th.cp cp && atMost th.tl tl then .ok s {}
    else .hold (.counters l st cp tl)

/-- `WAIT` (R176). -/
def execWait (f : Form) (s : State) : Host.Outcome State Fault Refusal :=
  runLanes 0xC7 f s fun _ _ s r => waitLane f s r

/-! `CVG` (R177). -/

/-- `CVG` in a lane. -/
def cvgLane (f : Form) (s : State) (r : Ready) : LaneOut :=
  let m := teamIdOf s r.tid
  let n := natLow 32 r.a
  let k := f.d.toNat
  match (s.teams[m]?).bind fun t => t.convs[k]? with
  | none => .ok s {}
  | some c =>
    if n < 1 ∨ (teamThreads s m).length < n then .trap ⟨cILLOPND, n, 0, 0⟩
    else if (!c.sigs.isEmpty ∨ heldSigners s m k ≠ []) ∧ c.count ≠ some n then .trap ⟨cCVGMIS, n, k, c.count.getD 0⟩
    else .ok (modTeam s m fun t => { t with convs := setAt t.convs k { c with count := some n } }) {}

/-- `CVG` (R177). -/
def execCvg (f : Form) (s : State) : Host.Outcome State Fault Refusal :=
  runLanes 0xC8 f s fun _ _ s r => cvgLane f s r

end Sys2Proof.Machine
end

