-- ==== Sys2Proof/Machine/LodeOps.lean ====
section
/-! DEFINITION. Operations over Lode: the thread instructions (R165 to R168), their completion, and what peers and the
host do to this package's memory (R166, R273, R305, R356 to R358). -/

namespace Sys2Proof.Machine

/-! Reads at issue. -/

/-- What a read at issue gives. -/
inductive IssueRead where
  | trap (i : TrapInfo)
  | hold (w : Wait)
  | ok (s : State) (bs : List Byte) (at_ : Option SpadRef)
  deriving DecidableEq, Repr

/-- Bytes read as an ordinary load while the instruction issues (R165, R196, R197): in program order, so the thread
holds while earlier accesses are outstanding. -/
def readAtIssue (s : State) (t space ea n align : Nat) : IssueRead :=
  if hasAccess s t then .hold .accesses
  else
    match locate s t space ea n align needR [] with
    | .trap i => .trap i
    | .hold w => .hold w
    | .ok p x _ =>
      let pt := ((s.threads[t]?).map (·.ptime)).getD 0
      match p with
      | .spad r m =>
        let s := spadFill s r m
        if !spadReady s r m then .hold .accesses else
        let (s, bs, ts) := (List.range ((m + 63) / 64)).foldl (fun (acc : State × List Byte × Nat) i =>
          let (s, bs, ts) := spadRead acc.1 ⟨r.team, r.off + 64 * i⟩ (min 64 (m - 64 * i)) acc.2.2
          (s, acc.2.1 ++ bs, ts)) (s, [], pt)
        .ok (raisePtime s t ts) bs (some r)
      | .phys ps =>
        if ps.any fun q => phyBase ≤ q.1 then .trap (trapAt cPROT ea)
        else
          let bs := ps.flatMap fun q => if lbcData x then lbcBytes s q.1 q.2 else currentBytes s q.1 q.2
          let (s, ts) := touchPieces (cacheRange s (ctxOf s t) ea n) ps (some (ctxOf s t)) pt
          .ok (raisePtime s t ts) bs none
      | .nothing => .ok s [] none

/-- Bytes of a context's range as loads return them. -/
def virtLoad (s : State) (c va n : Nat) : List Byte :=
  (rangeXlats s c va n).flatMap fun p => if lbcData p.2 then lbcBytes s p.2.pa p.1 else currentBytes s p.2.pa p.1

/-- Stores bytes beside a descriptor, in global or scratchpad space, as an ordinary store of its thread; a page that
has gone meanwhile drops it (log 30). -/
def descStore (s : State) (t ctx : Nat) (at_ : Option SpadRef) (va off : Nat) (bs : List Byte) : State :=
  let pt := ((s.threads[t]?).map (·.ptime)).getD 0
  match at_ with
  | some r =>
    let r : SpadRef := ⟨r.team, r.off + off⟩
    let (s, ts) := spadWrite (spadFill s r bs.length) r bs pt
    raisePtime s t ts
  | none =>
    match virtStore s ctx (va + off) bs pt with
    | .ok (s, ts) => raisePtime s t ts
    | .error _ => s

/-! Nodes (R358). -/

/-- A node's entry of the route table; none before `SET_NODE` (log 18). -/
def routeEntry (s : State) (n : Nat) : Option Word :=
  s.node.map fun _ => BitVec.ofNat 32 (bitsOfBytes (currentBytes s (s.routeTable + 4 * n) 4))

/-- Whether a port that is not retired leads to a node. -/
def reachable (s : State) (n : Nat) : Bool :=
  decide (n < 1024) && match routeEntry s n with
    | some w => (List.range 16).any fun p => w.getLsbD p && !s.lodeRetired.contains p
    | none => false

/-- Whether a node holds the host role. -/
def hostRole (s : State) (n : Nat) : Bool := match routeEntry s n with | some w => w.getLsbD 16 | none => true

/-- The live context with a `CTXID`. -/
def ctxWith (s : State) (ctxid : Nat) : Option Nat :=
  (List.range s.contexts.length).find? fun c => match s.contexts[c]? with
    | some k => k.live && decide (k.ctxid = ctxid) && !k.bringUp
    | none => false

/-- The `CTXID` of a thread. -/
def ctxidOf (s : State) (t : Nat) : Nat := ((contextOf s t).map (·.ctxid)).getD 0

/-! `PUTR`, `GETR`, `WSIG` (R165, R166). -/

/-- A field of a descriptor. -/
def descWord (bs : List Byte) (off : Nat) : Nat := bitsOfBytes ((bs.drop off).take 8)

/-- The first field of a Lode descriptor that breaks R165. -/
def lodeBad (kind : Nat) (bs : List Byte) : Option Nat :=
  let w := descWord bs 0
  let len := w / 2 ^ 32
  let flagop := w / 2 ^ 16 % 256
  if len < 4 ∨ len % 4 ≠ 0 ∨ w / 2 ^ 24 % 256 ≠ 0 ∨ w / 2 ^ 10 % 64 ≠ 0 ∨ (if kind = 2 then 1 else 0) < flagop then some 0
  else if descWord bs 8 % 4 ≠ 0 then some 8
  else if descWord bs 0x10 % 4 ≠ 0 then some 0x10
  else if kind = 2 ∧ descWord bs 0x18 % 8 ≠ 0 then some 0x18
  else if descWord bs 0x28 / 256 ≠ 0 then some 0x28
  else if descWord bs 0x30 ≠ 0 then some 0x30
  else if descWord bs 0x38 ≠ 0 then some 0x38
  else none

/-- The operation that a descriptor names. -/
def lodeOp (s : State) (t kind : Nat) (bs : List Byte) (va : Nat) (at_ : Option SpadRef) : LodeOp where
  id := s.nextId
  tid := t
  team := teamIdOf s t
  ctx := ctxOf s t
  kind := kind
  node := descWord bs 0 % 1024
  local_ := BitVec.ofNat 64 (descWord bs 8)
  remote := BitVec.ofNat 64 (descWord bs 0x10)
  flag := BitVec.ofNat 64 (descWord bs 0x18)
  fval := BitVec.ofNat 64 (descWord bs 0x20)
  flagop := descWord bs 0 / 2 ^ 16 % 256
  len := descWord bs 0 / 2 ^ 32
  descVa := va
  descSpad := at_
  aop := 0
  aty := 0
  queue := 0
  wide := false
  engine := none

/-- The local range's checks (R139): read, or written for `GETR`. -/
def lodeLocal (s : State) (t kind a n : Nat) : Checked :=
  match rangeLimit a n with
  | some i => .trap i
  | none =>
    if kind = 1 then threadChecked s t (phyCheck a (checkWrite s t a n false))
    else
      match threadChecked s t (phyCheck a (rangeChecks s (ctxOf s t) (some t) a needR [] [(a, n)])) with
      | .ok ps x ks => firstChecked (.ok ps x ks) (headerCheck s (ctxOf s t) a n)
      | .trap i => .trap i
      | .hold w => .hold w

/-- The status word is stored and cp falls (R166). -/
def lodeFinish (s : State) (o : LodeOp) (status : Nat) : State :=
  let s := descStore { s with lodes := s.lodes.filter fun x => x.id ≠ o.id } o.tid o.ctx o.descSpad o.descVa 0x28 (bytesOf 8 status)
  raiseFences (lowerCtr s o.tid .cp) o.id o.tid

/-- `GETR`'s request leaves once its range is locked. -/
def sendGet (s : State) (e : EngineOp) : State :=
  match s.lodes.find? fun o => o.engine = some e.id with
  | some o => { s with out := s.out ++ [.get o.id o.node (((s.contexts[o.ctx]?).map (·.ctxid)).getD 0) o.remote o.len] }
  | none => s

/-- The landing of a `GETR` as an engine's operation. -/
def landingOp (s : State) (o : LodeOp) (ps keys : List (Nat × Nat)) : EngineOp :=
  { plainOp s o.tid 9 0 with
    unit := homeDie ((ps.headD (0, 0)).1) * 4
    ranges := contiguous ps
    dsts := ps
    keys := keys
    len := o.len }

/-- A Lode operation starts; its local bytes are read now (log 15). -/
def lodeStart (s : State) (o : LodeOp) (ps keys : List (Nat × Nat)) : State :=
  let s := cacheRange s o.ctx o.local_.toNat o.len
  let s := raiseCtr { s with nextId := s.nextId + 1 } o.tid .cp
  let ctxid := ((s.contexts[o.ctx]?).map (·.ctxid)).getD 0
  let bs := virtLoad s o.ctx o.local_.toNat o.len
  if !reachable s o.node then lodeFinish s o 1
  else if o.kind = 0 then
    { s with lodes := s.lodes ++ [o], out := s.out ++ [.put o.id o.node ctxid o.remote bs] }
  else if o.kind = 2 then
    { s with lodes := s.lodes ++ [o], out := s.out ++ [.signal o.id o.node ctxid o.remote bs o.flag o.fval o.flagop] }
  else
    let e := landingOp s o ps keys
    let s := startOp { s with lodes := s.lodes ++ [{ o with engine := some e.id }] } e
    if s.engines.any fun x => x.id = e.id && x.locked then sendGet s e else s

/-- `PUTR`, `GETR` and `WSIG` in a lane. -/
def lodeLane (kind : Nat) (f : Form) (s : State) (r : Ready) : LaneOut :=
  match counterHold s r.tid .cp with
  | some w => .hold w
  | none =>
    match readAtIssue s r.tid (if f.mod.getLsbD 0 then 1 else 0) r.a.toNat 64 64 with
    | .trap i => .trap i
    | .hold w => .hold w
    | .ok s1 bs at_ =>
      match lodeBad kind bs with
      | some off => .trap ⟨cXOPERR, 0, off, 0⟩
      | none =>
        let o := lodeOp s1 r.tid kind bs r.a.toNat at_
        match lodeLocal s1 r.tid kind o.local_.toNat o.len with
        | .trap i => .trap i
        | .hold w => .hold w
        | .ok ps _ ks => .ok (lodeStart s1 o ps ks) {}

/-- `PUTR` (R166). -/
def execPutr (f : Form) (s : State) : Host.Outcome State Fault Refusal :=
  runLanes 0xB7 f s fun _ _ s r => lodeLane 0 f s r

/-- `GETR` (R166). -/
def execGetr (f : Form) (s : State) : Host.Outcome State Fault Refusal :=
  runLanes 0xB8 f s fun _ _ s r => lodeLane 1 f s r

/-- `WSIG` (R166). -/
def execWsig (f : Form) (s : State) : Host.Outcome State Fault Refusal :=
  runLanes 0xB6 f s fun _ _ s r => lodeLane 2 f s r

/-! `ATOMQ` and `CQPOP` (R167, R168). -/

/-- Changes a completion queue of a team. -/
def modQueue (s : State) (m q : Nat) (g : CQueue → CQueue) : State :=
  modTeam s m fun t => { t with queues := modAt t.queues q g }

/-- A completion queue. -/
def queueAt (s : State) (m q : Nat) : CQueue := ((s.teams[m]?).bind fun t => t.queues[q]?).getD ⟨[], 0⟩

/-- An undefined 64-bit value under a seed (log 2). -/
def freeWord (seed : Nat) : DWord := Config.freeReg seed 8193 ++ Config.freeReg seed 8192

/-- A reply fills a reserved entry and st falls (R167). -/
def atomqFinish (s : State) (o : LodeOp) (status : Nat) (old : DWord) : State :=
  let e : CqEntry := ⟨if o.wide then old else lowBits 32 old, status, tidOf s o.tid, o.remote.extractLsb' 0 32⟩
  let s := { s with lodes := s.lodes.filter fun x => x.id ≠ o.id }
  let s := modQueue s o.team o.queue fun q => { q with entries := q.entries ++ [e], reserved := q.reserved - 1 }
  raiseFences (lowerCtr s o.tid .st) o.id o.tid

/-- `ATOMQ` in a lane. -/
def atomqLane (f : Form) (s : State) (r : Ready) : LaneOut :=
  let m := teamIdOf s r.tid
  let q := f.d.toNat
  let node := natLow 32 r.b
  let ty := modIt f.mod
  match counterHold s r.tid .st with
  | some w => .hold w
  | none =>
    let k := queueAt s m q
    if 256 ≤ k.entries.length + k.reserved then .hold (.cqRoom q)
    else
      let o : LodeOp := { lodeOp s r.tid 3 [] 0 none with
        node := node, remote := r.a, fval := r.c, len := tyBytes ty, aop := (atomOpOf f).toNat, aty := ty.toNat
        queue := q, wide := decide (tyBytes ty = 8) }
      let s := raiseCtr (modQueue { s with nextId := s.nextId + 1, lodes := s.lodes ++ [o] } m q fun x =>
        { x with reserved := x.reserved + 1 }) r.tid .st
      if reachable s node then
        .ok { s with out := s.out ++ [.atomq o.id node (ctxidOf s r.tid) r.a (atomOpOf f).toNat ty.toNat r.c] } {}
      else .ok (atomqFinish { s with seed := s.seed + 1 } o 1 (freeWord s.seed)) {}

/-- `ATOMQ` (R167). -/
def execAtomq (f : Form) (s : State) : Host.Outcome State Fault Refusal :=
  runLanes 0xB3 f s fun _ _ s r => atomqLane f s r

/-- The four words of an entry (R168). -/
def entryWords (e : CqEntry) : List Word :=
  [e.old.extractLsb' 0 32, e.old.extractLsb' 32 32, BitVec.ofNat 32 (e.status * 65536 + e.tid % 65536), e.addr]

/-- `CQPOP` in a lane; the old value of an empty entry is undefined (log 2). -/
def cqpopLane (f : Form) (s : State) (r : Ready) : LaneOut :=
  let m := teamIdOf s r.tid
  let q := f.a.toNat
  let back (s : State) (e : CqEntry) : LaneOut :=
    .ok (enqueue s (returning s r ((entryWords e).flatMap fun w => bytesOf 4 w.toNat))) {}
  match counterHold s r.tid .ld with
  | some w => .hold w
  | none =>
    match (queueAt s m q).entries with
    | e :: rest => back (modQueue s m q fun x => { x with entries := rest }) e
    | [] =>
      if f.mod.getLsbD 0 then .hold (.cqEntry q) else back { s with seed := s.seed + 1 } ⟨freeWord s.seed, 0xFF, 0, 0⟩

/-- `CQPOP` (R168). -/
def execCqpop (f : Form) (s : State) : Host.Outcome State Fault Refusal :=
  runLanes 0xB4 f s fun _ _ s r => cqpopLane f s r

/-! Replies. -/

/-- LODE_ACKNOWLEDGE (R166): a `PUTR` or `WSIG` ends; the bytes a `GETR` asked for have come. -/
def lodeAck (s : State) (op status : Nat) (bytes : List Byte) : State :=
  match s.lodes.find? fun o => o.id = op with
  | none => s
  | some o =>
    if o.kind = 0 ∨ o.kind = 2 then lodeFinish s o status
    else
      match o.engine with
      | some e => { s with engines := s.engines.map fun x => if x.id = e ∧ x.locked then
            { x with status := some status, writes := [(0, bytes)] } else x }
      | none => s

/-- The landing of a `GETR` (R166): one event over the local range, none on a failure status. -/
def landingComplete (s : State) (e : EngineOp) (status : Nat) : State :=
  let s := { s with engines := s.engines.filter fun x => x.id ≠ e.id }
  let pt := ((s.threads[e.tid]?).map (·.ptime)).getD 0
  let s :=
    if status = 0 then
      let s := retagAll s (pieceWholes e.dsts) e.keys
      let (s, ts) := writePieces s e.dsts (((e.writes.headD (0, [])).2).take e.len) (some e.ctx) (max pt e.ts)
      raisePtime s e.tid ts
    else s
  let s := freeLocks s e.id
  match s.lodes.find? fun o => o.engine = some e.id with
  | some o => lodeFinish s o status
  | none => s

/-- ATOMQ_REPLY (R167). -/
def atomqAnswer (s : State) (op status : Nat) (old : DWord) : State :=
  match s.lodes.find? fun o => o.id = op && o.kind = 3 with
  | some o => atomqFinish s o status old
  | none => s

/-! What peers and the host do here (R273, R305, R356, R357). -/

/-- The physical pieces that a remote operation names, with the key ids of their pages, or the status it gives: 2 where
it faults, 3 where it meets MEMERR (R293, R356). -/
def remotePieces (s : State) (node ctxid addr n : Nat) (need : Need) : Except Nat (List (Nat × Nat) × List (Nat × Nat)) :=
  let marks (ps ks : List (Nat × Nat)) : Except Nat (List (Nat × Nat) × List (Nat × Nat)) :=
    match marksCheck s addr need (pieceWholes ps) ps ks with
    | some i => .error (if i.code = cMEMERR then 3 else 2)
    | none => .ok (ps, ks)
  if ctxid = 0 then
    if hostRole s node ∧ (addr + n ≤ dramEnd ∨ (sramBase 0 ≤ addr ∧ addr + n ≤ sramBase 4)) then marks [(addr, n)] [] else .error 2
  else
    match ctxWith s ctxid with
    | none => .error 2
    | some c =>
      if ((s.contexts[c]?).map (·.lodeok)).getD false = false ∨ 2 ^ 57 < addr + n then .error 2
      else
        let ps := rangePieces s c addr n
        match pageCheck need ps with
        | some _ => .error 2
        | none =>
          match marks (physPieces ps) (pieceKeys ps) with
          | .error st => .error st
          | .ok r => if need.r ∧ (rangeXlats s c addr n).any (fun p => badHeader s p.2) then .error 3 else .ok r

/-- The context for which a remote operation moves bytes. -/
def remoteCtx (s : State) (ctxid : Nat) : Option Nat := if ctxid = 0 then none else ctxWith s ctxid

/-- A write lands at the homes of its bytes: no timestamp, die copies invalidated, monitors woken (R273). -/
def landBytes (s : State) (c : Option Nat) (pa : Nat) (bs : List Byte) : State :=
  (pieceSectors [(pa, bs.length)]).foldl (fun s sec =>
    let lo := max pa (sec * 64)
    let hi := min (pa + bs.length) (sec * 64 + 64)
    let x := secPut 0 (lo - sec * 64) ((bs.drop (lo - pa)).take (hi - lo))
    let mask : BitVec 64 := BitVec.ofNat 64 ((2 ^ (hi - lo) - 1) * 2 ^ (lo - sec * 64))
    wakeMonitors (putNow s sec x mask c) sec) s

/-- LODE_WRITE_LANDING (R273, R356, R357). -/
def lodeLanding (s : State) (node ctxid addr : Nat) (bytes : List Byte) : State :=
  match remotePieces s node ctxid addr bytes.length needW with
  | .error st => { s with out := s.out ++ [.writeReply node st] }
  | .ok (ps, ks) =>
    let s := retagAll s (pieceWholes ps) ks
    let (s, _) := ps.foldl (fun (acc : State × List Byte) p =>
      (landBytes acc.1 (remoteCtx s ctxid) p.1 (acc.2.take p.2), acc.2.drop p.2)) (s, bytes)
    { s with out := s.out ++ [.writeReply node 0] }

/-- LODE_READ (R356, R357): served at the home, as `LD.F`. -/
def lodeReadNow (s : State) (node ctxid addr n : Nat) : State :=
  match remotePieces s node ctxid addr n needR with
  | .error st => { s with out := s.out ++ [.readReply node st []] }
  | .ok (ps, _) =>
    let bs := match remoteCtx s ctxid with
      | some c => virtLoad s c addr n
      | none => ps.flatMap fun p => currentBytes s p.1 p.2
    let (s, _) := touchPieces s ps (remoteCtx s ctxid) 0
    { s with out := s.out ++ [.readReply node 0 bs] }

/-- The die whose queue takes a remote atomic: the home die of its address, die 0 where it has none (R305). -/
def atomDie (s : State) (m : RemoteAtom) : Nat :=
  match remotePieces s m.node m.ctxid m.addr (tyBytes (BitVec.ofNat 3 m.aty)) needNone with
  | .ok ((pa, _) :: _, _) => homeDie pa
  | .ok ([], _) | .error _ => 0

/-- Serves a remote atomic as one event (R305). -/
def atomServe (s : State) (m : RemoteAtom) : State :=
  let op : BitVec 3 := BitVec.ofNat 3 m.aop
  let ty : BitVec 3 := BitVec.ofNat 3 m.aty
  let n := tyBytes ty
  let fail (st : Nat) : State :=
    { s with seed := s.seed + 1, out := s.out ++ [.atomReply m.op m.node st (freeWord s.seed)] }
  if m.addr % n ≠ 0 then fail 2
  else
    match remotePieces s m.node m.ctxid m.addr n needRW with
    | .error st => fail st
    | .ok (ps, _) =>
      if !(lockHit s ps).isEmpty then fail 2
      else
        let pa := (ps.headD (0, 0)).1
        let c := remoteCtx s m.ctxid
        let (s, bs, ts) := readBytesNow s pa n c 0
        let old : DWord := BitVec.ofNat 64 (bitsOfBytes bs)
        let (s, _) := writeBytesNow s pa (bytesOf n (atomOp op ty old m.val).toNat) c ts
        { s with out := s.out ++ [.atomReply m.op m.node 0 old] }

/-- ATOMQ_COMMAND (R305): a command at the head of a die's queue is served; one that arrives joins the queue of its
address's home die. The first 1,024 stand in the queue, later ones are held at their ports behind them. -/
def atomqArrive (s : State) (m : RemoteAtom) : State :=
  match (List.range s.dies.length).find? fun d => (s.dies[d]?).any fun k => k.atomq.head? = some m with
  | some d => atomServe (modDie s d fun x => { x with atomq := x.atomq.tail }) m
  | none => modDie s (atomDie s m) fun x => { x with atomq := x.atomq ++ [m] }

end Sys2Proof.Machine
end

