-- ==== Sys2Proof/Machine/Tile.lean ====
section
/-! DEFINITION. The tile engine: claims and status, signing, operation issue and its checks, and what the operations do
(R15, R61, R178 to R193, R318, R396). -/

namespace Sys2Proof.Machine

/-! Claims and status (R184, R193). -/

/-- Clears an entry's flags. -/
def clearFlags (c : Core) (code : Nat) : Core :=
  modTile c code (fun x => { x with banks := 0, poisoned := false, damaged := false })
    (fun x => { x with poisoned := false, damaged := false }) id

/-- Gives a free entry to a team, empty and with its flags clear. What an operation of a team that has exited still
works with stays for that operation (R227). -/
def claimTile (c : Core) (code team : Nat) : Core :=
  if opsName c code then
    setTileState (clearFlags (modTile c code (fun x => { x with claim := some team }) (fun x => { x with claim := some team })
      (fun _ => ⟨some team, []⟩)) code) code .empty
  else
    modTile c code (fun _ => { slotFree with claim := some team }) (fun _ => { accFree with claim := some team })
      (fun _ => ⟨some team, []⟩)

/-- Frees an entry. -/
def freeTile (c : Core) (code : Nat) : Core := modTile c code (fun _ => slotFree) (fun _ => accFree) (fun _ => ⟨none, []⟩)

/-- `TCLAIM` in a lane. -/
def tclaimLane (f : Form) (s : State) (r : Ready) : LaneOut :=
  let (d, c) := coreOf s r.tid
  let m := teamIdOf s r.tid
  match tileClaim (coreAt s d c) f.a.toNat with
  | none => .ok (modCore s d c fun k => claimTile k f.a.toNat m) { vals := [0] }
  | some x =>
    if x = m then .ok s { vals := [0] }
    else if f.mod.getLsbD 0 then .hold (.claim f.a.toNat) else .ok s { vals := [1] }

/-- `TCLAIM` (R184). -/
def execTclaim (f : Form) (s : State) : Host.Outcome State Fault Refusal :=
  runLanes 0xD0 f s fun _ _ s r => tclaimLane f s r

/-- `TREL` in a lane. -/
def trelLane (f : Form) (s : State) (r : Ready) : LaneOut :=
  let (d, c) := coreOf s r.tid
  let k := coreAt s d c
  if tileClaim k f.a.toNat ≠ some (teamIdOf s r.tid) then .ok s {}
  else if releasable k f.a.toNat then .ok (modCore s d c fun k => freeTile k f.a.toNat) {}
  else .hold (.release f.a.toNat)

/-- `TREL` (R184). -/
def execTrel (f : Form) (s : State) : Host.Outcome State Fault Refusal :=
  runLanes 0xD1 f s fun _ _ s r => trelLane f s r

/-- A state as `TSTAT` numbers it. -/
def tileCode : TileState → Nat
  | .empty => 0
  | .filling => 1
  | .ready => 2
  | .draining => 3

/-- `TSTAT`'s word for a team (R193). -/
def tstatWord (c : Core) (team code : Nat) : Nat :=
  let own := match tileClaim c code with
    | none => 0
    | some m => if m = team then 16 else 32
  let b (x : Bool) (n : Nat) : Nat := if x then n else 0
  if code < 0x40 then
    match c.slots[code]? with
    | some x => x.banks.toNat * 2 ^ 24 + x.side * 2 ^ 21 + x.k / 32 * 2 ^ 16 + x.fmt * 2 ^ 8 + own + b x.damaged 8
                  + b x.poisoned 4 + tileCode x.state
    | none => own
  else if code < 0x50 then
    match c.accs[code - 0x40]? with
    | some x => 3 * 2 ^ 21 + own + b x.damaged 8 + b x.poisoned 4 + tileCode x.state
    | none => own
  else queueLen c (code - 0x50) * 2 ^ 8 + own

/-- `TSTAT` (R193). -/
def execTstat (f : Form) (s : State) : Host.Outcome State Fault Refusal :=
  runLanes 0xD8 f s fun _ _ s r =>
    let (d, c) := coreOf s r.tid
    .ok s { vals := [BitVec.ofNat 32 (tstatWord (coreAt s d c) (teamIdOf s r.tid) f.a.toNat)] }

/-- The largest timestamp of the operations completed on an entry (R182). -/
def tileTime (c : Core) (code : Nat) : Nat :=
  if code < 0x40 then ((c.slots[code]?).map (·.ts)).getD 0
  else if code < 0x50 then ((c.accs[code - 0x40]?).map (·.ts)).getD 0
  else 0

/-- `TWAIT` in a lane: past it, the thread follows the operations it saw complete (R182, R193). -/
def twaitLane (f : Form) (s : State) (r : Ready) : LaneOut :=
  let (d, c) := coreOf s r.tid
  let k := coreAt s d c
  let mode := modBits f.mod 1 0
  if twaitDone k f.a.toNat mode then .ok (raisePtime s r.tid (tileTime k f.a.toNat)) {} else .hold (.tile f.a.toNat mode)

/-- `TWAIT` (R193). -/
def execTwait (f : Form) (s : State) : Host.Outcome State Fault Refusal :=
  runLanes 0xD9 f s fun _ _ s r => twaitLane f s r

/-! Metadata queues (R190). -/

/-- Lanes of an issue group that are ready to act. -/
def readyCount (ps : List (Nat × Prep)) : Nat :=
  (ps.filter fun p => match p.2 with | .ready _ => true | .inactive | .trap _ | .hold _ => false).length

/-- `MQPUSH` in a lane: the group's lanes push together, once the queue has room for all of them. -/
def mqpushLane (f : Form) (s0 : State) (ps : List (Nat × Prep)) (s : State) (r : Ready) : LaneOut :=
  let (d, c) := coreOf s r.tid
  let q := f.d.toNat
  if tileClaim (coreAt s d c) (0x50 + q) ≠ some (teamIdOf s r.tid) then .trap (trapAt cILLOPND (0x50 + q))
  else if queueRoom s0 d c q < readyCount ps then .hold (.mqRoom q (readyCount ps))
  else
    match counterHold s r.tid .tl with
    | some w => .hold w
    | none =>
      match locate s r.tid (if f.mod.getLsbD 0 then 1 else 0) r.a.toNat 512 64 needR [] with
      | .trap i => .trap i
      | .hold w => .hold w
      | .ok p x ks => .ok (enqueue s { accessOf s r.tid (.mqPush q) p 512 r.a.toNat x ks with ctr := .tl }) {}

/-- `MQPUSH` (R190). -/
def execMqpush (f : Form) (s : State) : Host.Outcome State Fault Refusal :=
  runLanes 0xDA f s fun _ ps s1 r => mqpushLane f s ps s1 r

/-- Whether an access is the oldest push into its queue: pushes keep the order of their lanes. -/
def oldestPush (s : State) (a : Access) (q : Nat) : Bool :=
  ((s.accs.find? fun b => b.die = a.die ∧ b.site = a.site ∧ b.kind = .mqPush q).map (·.id)) = some a.id

/-- The bytes of an `MQPUSH` lane as its load reads them, with its timestamp. -/
def pushRead (s : State) (a : Access) : State × List Byte × Nat :=
  let pt := ((s.threads[a.tid]?).map (·.ptime)).getD 0
  match a.place with
  | .phys ps =>
    let (s, ts) := touchPieces (touchEncoded s a false) ps (some a.ctx) pt
    (s, ps.flatMap fun p => if a.lbc then lbcBytes s p.1 p.2 else currentBytes s p.1 p.2, ts)
  | .spad r n =>
    let (s, ts) := (List.range 8).foldl (fun (acc : State × Nat) i =>
      let (s, _, t) := spadRead acc.1 { r with off := r.off + 64 * i } 64 pt
      (s, max acc.2 t)) (s, pt)
    (s, spadBytes s r n, ts)
  | .nothing => (s, [], pt)

/-- An `MQPUSH` lane performed: its 512 bytes are read and pushed. -/
def performMqPush (s : State) (a : Access) (q : Nat) : State :=
  let absent := match a.place with | .spad r n => !spadReady s r n | .phys _ | .nothing => false
  if !oldestPush s a q then s
  else if absent then (match a.place with | .spad r n => askRefills s r n | .phys _ | .nothing => s)
  else
    let (s, bs, ts) := pushRead s a
    let m := teamIdOf s a.tid
    let s := modCore s a.die a.site fun c =>
      { c with mqs := modAt c.mqs q fun x => if x.claim = some m then { x with entries := x.entries ++ [bs] } else x }
    endAccess (raisePtime s a.tid ts) a

/-- `MQCLR` in a lane. -/
def mqclrLane (f : Form) (s : State) (r : Ready) : LaneOut :=
  let (d, c) := coreOf s r.tid
  if tileClaim (coreAt s d c) (0x50 + f.d.toNat) ≠ some (teamIdOf s r.tid) then .trap (trapAt cILLOPND (0x50 + f.d.toNat))
  else .ok (modCore s d c fun k => { k with mqs := modAt k.mqs f.d.toNat fun x => { x with entries := [] } }) {}

/-- `MQCLR` (R190). -/
def execMqclr (f : Form) (s : State) : Host.Outcome State Fault Refusal :=
  runLanes 0xDB f s fun _ _ s r => mqclrLane f s r

/-! Windows (R185 to R187, R318). -/

/-- What a `TLD` of a slot finds in its identifier: side, K recorded, K of the format. -/
structure Shape where
  side : Nat
  k : Nat
  full : Nat
  deriving DecidableEq, Repr

/-- K positions of a slot by element format (R186). -/
def slotK (fmt : Nat) : Option Nat :=
  if fmt = 0x02 ∨ fmt = 0x03 then some 128 else if fmt = 0x06 ∨ fmt = 0x07 ∨ fmt = 0x09 then some 256
  else if fmt = 0x08 then some 512 else none

/-- The origin (R185). -/
def originOf (cval : Word) : Nat × Nat := (cval.toNat % 65536, cval.toNat / 65536)

/-- The shape of a slot load (R186, R318). -/
def shapeOf (x : Tensor) (cval : Word) : Option Shape :=
  match slotK x.fmt with
  | none => none
  | some k =>
    if x.layout = 3 then some ⟨1, if extentOf x 0 - (originOf cval).1 ≤ k / 2 then k / 2 else k, k⟩
    else if x.layout = 4 then some ⟨2, k, k⟩
    else none

/-- The coordinates of an operation's window, row by row: for an A side rows by the format's K, for a B side K by
columns, for an accumulator tile rows by columns. A slot that records half its K holds the fill value above it, where
the tensor ends (R318). -/
def windowCoords (x : Tensor) (cval : Word) (sh : Option Shape) : List (List Int) :=
  let (c0, c1) := originOf cval
  let (outer, inner) := match sh with
    | some h => if h.side = 1 then (128, h.full) else (h.full, 128)
    | none => (128, 128)
  (List.range outer).flatMap fun i => (List.range inner).map fun j =>
    if sh.isNone && x.layout = 1 then [((c0 + i : Nat) : Int), ((c1 + j : Nat) : Int)]
    else [((c0 + j : Nat) : Int), ((c1 + i : Nat) : Int)]

/-- The coordinates of the first element of each scale's block: an A side row by block of K, a B side block by column
(R186). -/
def scaleCoords (cval : Word) (h : Shape) : List (List Int) :=
  let (c0, c1) := originOf cval
  if h.side = 1 then
    (List.range 128).flatMap fun i => (List.range (h.full / 32)).map fun b => [((c0 + 32 * b : Nat) : Int), ((c1 + i : Nat) : Int)]
  else
    (List.range (h.full / 32)).flatMap fun b => (List.range 128).map fun j => [((c0 + j : Nat) : Int), ((c1 + 32 * b : Nat) : Int)]

/-- Whether a scale's block lies in the tensor: along a half-density side, whose scales apply per logical block, two
blocks for each block of kept values (R189; log 47). -/
def scaleIn (x : Tensor) (cval : Word) (h : Shape) (xy : List Int) : Bool :=
  if h.k = h.full then inBounds x xy
  else
    let c0 : Int := ((originOf cval).1 : Nat)
    inBounds x ((c0 + ((xy[0]?).getD 0 - c0) / 2) :: xy.drop 1)

/-- Virtual ranges of the elements in bounds, and of the scales, of a window. -/
def windowRanges (x : Tensor) (cval : Word) (sh : Option Shape) : List (Nat × Nat) :=
  let els := (windowCoords x cval sh).filter (inBounds x)
  let scs := if x.sfmt = 0 then [] else
    match sh with
    | some h => (scaleCoords cval h).filter (scaleIn x cval h)
    | none => els
  els.map (fun c => ((elemAddr x c).toNat, elemSpan x)) ++ scs.map fun c => ((scaleAddr x c).toNat, scaleSize x)

/-- Neighbours that are equal kept once. -/
def squeeze (l : List Nat) : List Nat :=
  (l.foldl (fun acc x => match acc with
    | y :: _ => if x = y then acc else x :: acc
    | [] => [x]) []).reverse

/-- Virtual blocks of a size that ranges touch, each once. -/
def touchedBlocks (size : Nat) (rs : List (Nat × Nat)) : List Nat :=
  (squeeze (rs.flatMap fun r => if r.2 = 0 then [] else
    (List.range ((r.1 + r.2 - 1) / size - r.1 / size + 1)).map fun i => r.1 / size + i)).dedup

/-- The first address that ranges touch in a block. -/
def firstTouch (size : Nat) (rs : List (Nat × Nat)) (b : Nat) : Nat :=
  match rs.find? fun r => r.1 / size ≤ b ∧ b * size < r.1 + r.2 with
  | some r => max r.1 (b * size)
  | none => b * size

/-- The page checks of R396: the translations of the pages that ranges touch, or PAGEF with extra0 bit 3, or PROT. -/
def tilePages (s : State) (ctx : Nat) (need : Need) (rs : List (Nat × Nat)) : Except TrapInfo (List (Nat × Nat × Nat × Bool)) :=
  let bs := (touchedBlocks 65536 rs).map fun b =>
    let a := firstTouch 65536 rs b
    (b, a, if 2 ^ 57 ≤ a then Xres.prot else translate s ctx a)
  match pageCheck need (bs.map fun p => (p.2.1, 1, p.2.2)) with
  | some i => .error (if i.code = cPAGEF then { i with extra0 := i.extra0 + 8 } else i)
  | none =>
    match bs.find? fun p => match p.2.2 with | .ok x => decide (phyBase ≤ x.pa) | .pagef | .prot => false with
    | some p => .error (trapAt cPROT p.2.1)
    | none => .ok (bs.filterMap fun p => match p.2.2 with
        | .ok x => some (p.1, x.pa / 65536 * 65536, x.key, x.lbc)
        | .pagef | .prot => none)

/-- The physical address of a virtual one under an operation's translations, its key, and whether its page is one of
an LBC group. -/
def opXlat (o : TileOp) (va : Nat) : Nat × Nat × Bool :=
  match o.pages.find? fun p => p.1 = va / 65536 with
  | some p => (p.2.1 + va % 65536, p.2.2.1, p.2.2.2)
  | none => (va, 0, false)

/-! Operation issue (R179, R181, R396). -/

/-- The first item of R181 in which two signatures differ. -/
def sigDiffer (a b : Signature) : Option Nat :=
  if a.form.len ≠ b.form.len ∨ a.opc ≠ b.opc then some 0
  else if a.form.mod ≠ b.form.mod then some 1
  else if a.form.d ≠ b.form.d ∨ a.form.a ≠ b.form.a ∨ a.form.b ≠ b.form.b ∨ a.form.c ≠ b.form.c then some 2
  else if a.cval ≠ b.cval ∧ (a.opc = 0xD2#8 ∨ a.opc = 0xD3#8 ∨ a.opc = 0xD7#8) then some 3
  else none

/-- The smallest item in which some signature differs from the last. -/
def firstDiffer (sigs : List Signature) (last : Signature) : Option Nat :=
  (sigs.filterMap fun g => sigDiffer g last).foldl (fun m x => match m with
    | none => some x
    | some y => some (min x y)) none

/-- The operation's entries that must not be empty, by resource code (R179). -/
def opNeedsFull (o : TileOp) : List Nat :=
  match o.opc.toNat with
  | 0xD2 | 0xD4 => []
  | 0xD5 | 0xD6 => [0x40 + o.form.a.toNat, o.form.b.toNat, o.form.c.toNat]
  | _ => [opTarget o]

/-- TILEEMPTY and ILLOPND of the entries an operation names (R179). -/
def entryCheck (c : Core) (o : TileOp) : Option TrapInfo :=
  match (opNeedsFull o).find? fun k => tileStateOf c k = .empty with
  | some k => some (trapAt cTILEEMPTY k)
  | none =>
    match (opNames o).find? fun k => tileClaim c k ≠ some o.team with
    | some k => some (trapAt cILLOPND k)
    | none => none

/-- Side, format and K of a slot as the latest load of it leaves them (R180, R186). -/
def slotShape (c : Core) (i : Nat) : Nat × Nat × Nat :=
  match c.ops.reverse.find? fun o => o.opc = 0xD2#8 ∧ opTarget o = i with
  | some o =>
    (match o.tensor with
     | some x => (match shapeOf x o.cval with | some h => (h.side, x.fmt, h.k) | none => (0, 0, 0))
     | none => (0, 0, 0))
  | none => ((c.slots[i]?).map fun x => (x.side, x.fmt, x.k)).getD (0, 0, 0)

/-- The pairings of R188. -/
def pairs (a b : Nat) : Bool :=
  let e8 (x : Nat) : Bool := x = 0x06 ∨ x = 0x07
  (a = 0x03 && b = 0x03) || (a = 0x02 && b = 0x02) || (e8 a && e8 b) || (a = 0x08 && b = 0x08) || (e8 a && b = 0x09)

/-- ILLOPND of a product's slots (R188, R189). -/
def productCheck (c : Core) (o : TileOp) : Option TrapInfo :=
  let (sa, fa, ka) := slotShape c o.form.b.toNat
  let (sb, fb, kb) := slotShape c o.form.c.toNat
  if sa ≠ 1 then some ⟨cILLOPND, 0, o.form.b.toNat, 0⟩
  else if sb ≠ 2 then some ⟨cILLOPND, 0, o.form.c.toNat, 0⟩
  else if !pairs fa fb ∨ (if o.opc = 0xD6#8 then 2 * ka ≠ kb else ka ≠ kb) then some ⟨cILLOPND, 0, o.form.b.toNat, 0⟩
  else none

/-- The formats of `TST` (R187). -/
def tstFormat (fmt : Nat) : Bool := fmt ≤ 0x03 ∨ fmt = 0x06 ∨ fmt = 0x07 ∨ fmt = 0x09

/-- ILLOPND and ALIGN of the identifier of a `TLD` or `TST` (R185 to R187, R396). -/
def tensorCheck (o : TileOp) : Option TrapInfo :=
  match o.tensor with
  | none => some (trapAt cILLOPND o.form.b.toNat)
  | some x =>
    let base : Option TrapInfo :=
      if x.base.toNat % max 1 (elemSize x) ≠ 0 then some (trapAt cALIGN x.base.toNat)
      else if x.sfmt ≠ 0 ∧ x.sbase.toNat % scaleSize x ≠ 0 then some (trapAt cALIGN x.sbase.toNat)
      else none
    let bad := some (trapAt cILLOPND o.form.b.toNat)
    if o.opc = 0xD3#8 then (if x.layout ≤ 2 ∧ tstFormat x.fmt then base else bad)
    else if o.form.mod.getLsbD 1 then
      (if x.layout ≤ 2 ∧ (x.fmt = 0x00 ∨ x.fmt = 0x02 ∨ x.fmt = 0x03) then base else bad)
    else
      match shapeOf x o.cval with
      | none => bad
      | some h =>
        if x.sfmt ≠ 0 ∧ (x.sblk ≠ 1 ∨ x.saxis ≠ h.side - 1) then bad
        else
          let (c0, c1) := originOf o.cval
          if (h.side = 1 ∧ (c0 % 32 ≠ 0 ∨ c1 % 8 ≠ 0)) ∨ (h.side = 2 ∧ (c0 % 8 ≠ 0 ∨ c1 % 32 ≠ 0)) then
            some (trapAt cALIGN o.cval.toNat)
          else base

/-- The shape of an operation's window: none for an accumulator tile. -/
def opShape (o : TileOp) (x : Tensor) : Option Shape :=
  if o.opc = 0xD2#8 ∧ !o.form.mod.getLsbD 1 then shapeOf x o.cval else none

/-- The limits of `TMOVV` (R192). -/
def movvCheck (s : State) (o : TileOp) (last : Signature) : Option TrapInfo :=
  let m := movvCount o.form.mod
  let w := if inRoutine s last.tid then 8 else windowOf s last.tid
  if 16384 < o.cval.toNat * 128 + o.signers.length * m ∨ w < o.form.a.toNat + m then
    some (trapAt cILLOPND o.form.b.toNat)
  else none

/-- TILEPOIS of a read-out (R191). -/
def poisonCheck (c : Core) (o : TileOp) : Option TrapInfo :=
  if o.opc = 0xD3#8 ∨ o.opc = 0xD7#8 then
    match c.accs[opTarget o - 0x40]? with
    | some t =>
      if t.poisoned then some ⟨cTILEPOIS, opTarget o, t.cause.1 + t.cause.2.1 * 2 ^ 8 + t.cause.2.2 * 2 ^ 16, 0⟩ else none
    | none => none
  else none

/-- Whether a read-out waits for an earlier operation that writes its tile, so that its poison is not known yet
(R179, R180). -/
def poisonOpen (c : Core) (o : TileOp) : Bool :=
  (o.opc = 0xD3#8 ∨ o.opc = 0xD7#8)
    && c.ops.any fun p => p.id ≠ o.id && opTarget p = opTarget o && !(p.opc = 0xD3#8 ∨ p.opc = 0xD7#8)

/-- The operation that the signatures of a register build. -/
def buildOp (s : State) (sigs : List Signature) (last : Signature) : TileOp where
  id := s.nextId
  team := teamIdOf s last.tid
  ctx := ctxOf s last.tid
  opc := last.opc
  form := last.form
  cval := last.cval
  tensor := if last.opc = 0xD2#8 ∨ last.opc = 0xD3#8 then tensorOf s last.tid last.form.b.toNat else none
  signers := sigs
  held := false
  rm := ((groupOf s last.tid).map fun g => g.fpctl.extractLsb' 8 3).getD 0
  started := false
  ts := sigs.foldl (fun m g => max m (((s.threads[g.tid]?).map (·.ptime)).getD 0)) 0
  pages := []
  todo := []
  secs := []
  writes := []
  dropped := false
  popped := []
  bankErrors := []
  rowErrors := []

/-- The checks of operation issue, in R181's order; the operation with its translations. -/
def opCheck (s : State) (c : Core) (o : TileOp) (last : Signature) : Except TrapInfo TileOp :=
  let fields : Option TrapInfo := match o.opc.toNat with
    | 0xD2 | 0xD3 => tensorCheck o
    | 0xD5 | 0xD6 => productCheck c o
    | 0xD7 => movvCheck s o last
    | _ => none
  match entryCheck c o, fields, (if poisonOpen c o then none else poisonCheck c o) with
  | some i, _, _ => .error i
  | none, some i, _ => .error i
  | none, none, some i => .error i
  | none, none, none =>
    match o.tensor with
    | none => .ok o
    | some x =>
      match tilePages s o.ctx (if o.opc = 0xD2#8 then needR else needW) (windowRanges x o.cval (opShape o x)) with
      | .error i => .error i
      | .ok ps => .ok { o with pages := ps }

/-- The state that an operation sets its target to (R179). -/
def opState (o : TileOp) : TileState := if o.opc = 0xD3#8 ∨ o.opc = 0xD7#8 then .draining else .filling

/-- Whether a signer holds at its instruction, for the operation that the signature `last` completes: a signer with
`.nb` has moved on, but for that one while it signs. -/
def signerHolds (s : State) (last : Nat) (g : Signature) : Bool :=
  decide (((s.threads[g.tid]?).map (·.wait)) = some (.signed g.form.d.toNat)) && (!g.nb || g.tid = last)

/-- A signer that holds passes its instruction: what the instruction leaves in its lane, and the next PC. -/
def releaseSigner (last : Nat) (s : State) (g : Signature) : State :=
  if signerHolds s last g then
    advance (modThread s g.tid fun th => setHold { th with xs := g.xs } g.hold) g.tid g.pc g.form.len.bytes
  else s

/-- The signer that reached the count. -/
def lastSigner (o : TileOp) : Nat := ((o.signers.getLast?).map (·.tid)).getD 0

/-- The signatures of a register are discarded, with a trap of the holding signers and of the last (R181). -/
def failSigners (s : State) (sigs : List Signature) (last : Nat) (i : TrapInfo) : State :=
  let held := sigs.filter (signerHolds s last)
  trapSigners (sigs.foldl (fun s g => lowerCtr s g.tid .tl) s) held i

/-- Operation issue at the signature that reaches the count (R15, R179, R181): the register re-arms; the operation is
queued and its signers go on, or its trap is taken. -/
def issueTileOp (s : State) (sigs : List Signature) (last : Signature) : State :=
  let m := teamIdOf s last.tid
  let (d, c) := coreOf s last.tid
  let s := modTeam s m fun t => { t with convs := modAt t.convs last.form.d.toNat fun k => { k with sigs := [] } }
  match firstDiffer sigs last with
  | some n => failSigners s sigs last.tid ⟨cCVGMIS, last.form.d.toNat, n, 0⟩
  | none =>
    match opCheck s (coreAt s d c) (buildOp s sigs last) last with
    | .error i => failSigners s sigs last.tid i
    | .ok o =>
      let open_ := poisonOpen (coreAt s d c) o
      let s := modCore { s with nextId := s.nextId + 1 } d c fun k =>
        let k := { k with ops := k.ops ++ [{ o with held := open_ }] }
        if tileBusy k (opTarget o) then k else setTileState k (opTarget o) (opState o)
      -- a read-out whose tile is still being written issues when its poison is known; the `.nb` form does not hold
      if open_ then (if last.nb then releaseSigner last.tid s last else s) else sigs.foldl (releaseSigner last.tid) s

/-! Signing (R15, R181). -/

/-- A signature in a lane. The operation's accesses follow those of its signers (R182): a lane of `TLD` or `TST` whose
accesses are outstanding holds first. -/
def signLane (opc : BitVec 8) (iss : Issue) (f : Form) (s : State) (r : Ready) : LaneOut :=
  let m := teamIdOf s r.tid
  let k := f.d.toNat
  let pos := match r.aLoc with | .vec p => p | .scr k => scratchPos k | .uni _ | .void => 0
  let regs := if opc = 0xD7#8 then spanPos r.aLoc (movvCount f.mod) else []
  if (opc = 0xD2#8 ∨ opc = 0xD3#8) ∧ hasAccess s r.tid then .hold .accesses
  else if anyPending s r.tid regs [] then .hold (.pending regs [])
  else
    match counterHold s r.tid .tl with
    | some w => .hold w
    | none =>
      match (s.teams[m]?).bind fun t => t.convs[k]? with
      | none => .trap ⟨cCVGMIS, k, 5, 0⟩
      | some c =>
        match c.count with
        | none => .trap ⟨cCVGMIS, k, 5, 0⟩
        | some n =>
          if (c.sigs.any fun g => g.tid = r.tid) ∨ (heldSigners s m k).contains r.tid then .trap ⟨cCVGDUP, k, 0, 0⟩
          else
            let nb := f.mod.getLsbD 0
            let g : Signature := ⟨r.tid, opc, f, BitVec.ofNat 32 (natLow 32 r.c), nb, iss.pc, pos, r.xs, r.hold⟩
            let sigs := c.sigs ++ [g]
            let s := raiseCtr s r.tid .tl
            let s := modTeam s m fun t => { t with convs := modAt t.convs k fun x => { x with sigs := sigs } }
            if n ≤ sigs.length then .suspend (issueTileOp (holdAt s r.tid (.signed k)) sigs g)
            else
              let held := holdAt s r.tid (.signed k)
              .suspend (if nb then releaseSigner r.tid held g else held)

/-- The teams of the current issue group. -/
def issueTeams (s : State) : List Nat := ((s.cur.map fun i => i.lanes.map fun p => teamIdOf s p.2).getD []).dedup

/-- A signing instruction: its lanes sign, and then a count that can no longer be reached is known (R181, R231). -/
def runSigning (opc : BitVec 8) (f : Form) (s : State) : Host.Outcome State Fault Refusal :=
  match runLanes opc f s fun iss _ s r => signLane opc iss f s r with
  | .next s1 => .next ((issueTeams s).foldl (fun s m => convUnreachable s m f.d.toNat) s1)
  | .fault e => .fault e
  | .refused e => .refused e

/-- `TLD` (R186). -/
def execTld (f : Form) (s : State) : Host.Outcome State Fault Refusal :=
  runSigning 0xD2 f s

/-- `TST` (R187). -/
def execTst (f : Form) (s : State) : Host.Outcome State Fault Refusal :=
  runSigning 0xD3 f s

/-- `TZERO` (R187). -/
def execTzero (f : Form) (s : State) : Host.Outcome State Fault Refusal :=
  runSigning 0xD4 f s

/-- `TMMA` (R188). -/
def execTmma (f : Form) (s : State) : Host.Outcome State Fault Refusal :=
  runSigning 0xD5 f s

/-- `TMMAS` (R189). -/
def execTmmas (f : Form) (s : State) : Host.Outcome State Fault Refusal :=
  runSigning 0xD6 f s

/-- `TMOVV` (R192). -/
def execTmovv (f : Form) (s : State) : Host.Outcome State Fault Refusal :=
  runSigning 0xD7 f s

/-! Products (R61, R188, R189). -/

/-- The canonical NaN of binary32. -/
def nan32 : Word := 0x7FC00000#32

/-- The exact sum of a block's products, with the special cases of R61: a NaN where they give one. -/
def blockSum (ps : List (Val × Val)) : Val :=
  ps.foldl (fun acc p =>
    match acc, exactVal (exactMul p.1 p.2) with
    | .nan q, _ => .nan q
    | _, .nan _ => .nan false
    | .inf a, .inf b => if a = b then .inf a else .nan false
    | .inf a, .fin _ _ _ => .inf a
    | .fin _ _ _, .inf b => .inf b
    | .fin a m e, .fin b n g => if n = 0 then .fin a m e else if m = 0 then .fin b n g else addFin .rne a m e b n g) (.fin false 0 0)

/-- A block's result: the sum times the scale product, rounded once; an exactly zero sum gives +0.0 (R61). -/
def blockResult (sum ga gb : Val) : Word :=
  match sum, ga, gb with
  | _, .nan _, _ => nan32
  | _, _, .nan _ => nan32
  | .nan _, _, _ => nan32
  | .inf n, _, _ => if n then 0xFF800000#32 else 0x7F800000#32
  | .fin n m e, ga, gb =>
    if m = 0 then 0
    else BitVec.ofNat 32 (roundExact .f32 .rne false false (exactMul (.fin n m e) (exactVal (exactMul ga gb)))).code

/-- The accumulator's addition (R61). -/
def accAdd (a r : Word) : Word :=
  BitVec.ofNat 32 (roundExact .f32 .rne false false (exactAdd .rne (fpDecode .f32 a.toNat) (fpDecode .f32 r.toNat))).code

/-- A scale of a slot: 1 without scales. -/
def slotScale (x : Slot) (i : Nat) : Val :=
  if x.sfmt = 1 then scaleDecode .sx8 ((x.scales[i]?).getD 0x7F)
  else if x.sfmt = 2 then scaleDecode .sf12 ((x.scales[i]?).getD 0x7F0)
  else oneVal

/-- Blocks of K that a part field selects (R188). -/
def partBlocks (part k : Nat) : List Nat :=
  let n := k / 32
  if part = 1 then List.range (n / 2) else if part = 2 then (List.range (n / 2)).map (n / 2 + ·) else List.range n

/-- A list cut into rows of n, so many of them. -/
def rowsOf {α : Type} (n : Nat) : Nat → List α → List (List α)
  | 0, _ => []
  | k + 1, l => l.take n :: rowsOf n k (l.drop n)

/-- K positions a slot keeps in a row: those of its format on the A side, also where it records half of them (R318). -/
def rowK (x : Slot) : Nat := if x.side = 1 then (slotK x.fmt).getD x.k else x.k

/-- The values of some of a slot's elements. -/
def slotVals (x : Slot) (l : List Nat) : List Val := l.map fun c => typeVal x.fmt false (BitVec.ofNat 64 c)

/-- A slot's blocks of a side, A by rows and B by columns: for each, its blocks of n along K. -/
def slotRows (x : Slot) (n blocks : Nat) : List (List (List Val)) :=
  (rowsOf (rowK x) 128 x.elems).map fun r => rowsOf n blocks (slotVals x r)

/-- The same for the B side, whose rows lie along K. -/
def slotCols (x : Slot) (blocks : Nat) : List (List (List Val)) :=
  let rows := (rowsOf 128 x.k x.elems).map (slotVals x)
  (List.range 128).map fun j => rowsOf 32 blocks (rows.map fun r => (r[j]?).getD zeroVal)

/-- The products of one block of a sparse product under a metadata word (R189). -/
def sparsePairs (a b : List Val) (w : Nat) : List (Val × Val) :=
  (List.range 8).flatMap fun g =>
    let p0 := w / 2 ^ (4 * g) % 4
    let p1 := w / 2 ^ (4 * g + 2) % 4
    [((a[2 * g]?).getD zeroVal, (b[4 * g + p0]?).getD zeroVal), ((a[2 * g + 1]?).getD zeroVal, (b[4 * g + p1]?).getD zeroVal)]

/-- The accumulator after a product: every block in ascending order (R188, R189). -/
def productElems (o : TileOp) (a b : Slot) (acc : List Word) : List Word :=
  let blks := partBlocks (o.form.mod.toNat / 2 % 4) b.k
  let rowBlocks := ((slotK a.fmt).getD 128) / 32
  let sparse := decide (o.opc = 0xD6#8)
  let rows := slotRows a (if sparse then 16 else 32) (b.k / 32)
  let cols := slotCols b (b.k / 32)
  acc.mapIdx fun n x =>
    let i := n / 128
    let row := (rows[i]?).getD []
    let col := (cols[n % 128]?).getD []
    (blks.zipIdx).foldl (fun x p =>
      let u := (row[p.1]?).getD []
      let v := (col[p.1]?).getD []
      let ps := if sparse then sparsePairs u v (bitsOfBytes ((((o.popped[p.2]?).getD []).drop (4 * i)).take 4)) else u.zip v
      accAdd x (blockResult (blockSum ps) (slotScale a (i * rowBlocks + p.1)) (slotScale b (p.1 * 128 + n % 128)))) x

/-- The bank, the slot and the block that poison a product, lowest bank first (R191, R396). -/
def productErrors (o : TileOp) (a b : Slot) : List (Nat × Nat × Nat) :=
  let first := (partBlocks (o.form.mod.toNat / 2 % 4) b.k).headD 0
  (List.range 8).filterMap fun n =>
    if b.banks.getLsbD n then some (n, o.form.c.toNat, first)
    else if a.banks.getLsbD n then some (n, o.form.b.toNat, first)
    else match o.bankErrors.find? fun e => e.1 = n with
      | some e => some (n, o.form.c.toNat, e.2)
      | none => none

/-- Rows of some banks, and others, written with 0x7FDA_0000 (R191, R360). -/
def poisonRows (banks rows : List Nat) (acc : List Word) : List Word :=
  acc.mapIdx fun n x => if banks.contains (n / 128 / 16) ∨ rows.contains (n / 128) then 0x7FDA0000#32 else x

/-- What a poisoned tile records of a product: the first bank's slot, bank and block; for a bad element of its own reads,
the A side's slot, the row's bank and the first block (R191, R360; log 118). -/
def productCause (o : TileOp) (b : Slot) (errs : List (Nat × Nat × Nat)) : Option (Nat × Nat × Nat) :=
  match errs, o.rowErrors with
  | e :: _, _ => some (e.2.1, e.1, e.2.2)
  | [], r :: _ => some (o.form.b.toNat, r / 16, (partBlocks (o.form.mod.toNat / 2 % 4) b.k).headD 0)
  | [], [] => none

/-- A product performed (R188, R189, R191): the accumulator, its flags, and the B side's bank mask. -/
def runProduct (c : Core) (o : TileOp) : Core :=
  match c.slots[o.form.b.toNat]?, c.slots[o.form.c.toNat]? with
  | some a, some b =>
    let errs := productErrors o a b
    let mask : BitVec 8 := o.bankErrors.foldl (fun m e => m ||| BitVec.ofNat 8 (2 ^ e.1)) 0
    { c with
      accs := modAt c.accs o.form.a.toNat fun t =>
        { t with
          elems := poisonRows (errs.map (·.1)) o.rowErrors (productElems o a b t.elems)
          poisoned := t.poisoned || (productCause o b errs).isSome
          cause := if t.poisoned then t.cause else (productCause o b errs).getD t.cause
          damaged := t.damaged || a.damaged || b.damaged }
      slots := modAt c.slots o.form.c.toNat fun x => { x with banks := x.banks ||| mask, poisoned := x.poisoned || mask ≠ 0#8 } }
  | _, _ => c

/-! `TLD` and `TST` (R185 to R187, R396). -/

/-- A byte that an operation has read. -/
def readByte (o : TileOp) (va : Nat) : Byte :=
  match o.secs.find? fun p => p.1 = va / 64 with
  | some p => secByte p.2.1 (va % 64)
  | none => 0

/-- Whether a range met a mark. -/
def readBad (o : TileOp) (va n : Nat) : Bool := o.secs.any fun p => p.2.2 && va < p.1 * 64 + 64 && p.1 * 64 < va + n

/-- Bytes that an operation has read. -/
def readSpan (o : TileOp) (va n : Nat) : List Byte := (List.range n).map fun i => readByte o (va + i)

/-- The code of an element whose bytes, or whose block's, have been read. -/
def codeOfSpan (x : Tensor) (xy : List Int) (bs : List Byte) : Nat :=
  if planar x then ((planeCodes (elemBits x) bs)[planeIndex x xy]?).getD 0 else bitsOfBytes bs % 2 ^ elemBits x

/-- The fill value as a code. -/
def fillCode (x : Tensor) : Nat := x.fill.toNat % 2 ^ elemBits x

/-- An element's code as read, the fill value out of bounds (R185, R259). -/
def elemCode (o : TileOp) (x : Tensor) (xy : List Int) : Nat :=
  if inBounds x xy then codeOfSpan x xy (readSpan o (elemAddr x xy).toNat (elemSpan x)) else fillCode x

/-- A scale's code as read; a block out of bounds has none, which is 1. -/
def scaleCode (o : TileOp) (x : Tensor) (h : Shape) (c : List Int) : Nat :=
  if scaleIn x o.cval h c then bitsOfBytes (readSpan o (scaleAddr x c).toNat (scaleSize x)) % (if x.sfmt = 2 then 4096 else 256)
  else if x.sfmt = 2 then 0x7F0 else 0x7F

/-- A slot filled (R186, R318, R396). -/
def fillSlot (o : TileOp) (x : Tensor) (h : Shape) (old : Slot) : Slot :=
  let bad := o.secs.any (·.2.2)
  { old with
    banks := if bad then 0xFF#8 else 0#8
    poisoned := bad
    damaged := false
    fmt := x.fmt
    side := h.side
    k := h.k
    elems := (windowCoords x o.cval (some h)).map (elemCode o x)
    sfmt := x.sfmt
    scales := if x.sfmt = 0 then [] else (scaleCoords o.cval h).map (scaleCode o x h) }

/-- An element of an accumulator tile from its code: binary32 bits as they are, others widened exactly (R186). -/
def widenCode (fmt code : Nat) : Word :=
  if fmt = 0x00 then BitVec.ofNat 32 code
  else BitVec.ofNat 32 (roundVal .f32 .rne false false (typeVal fmt false (BitVec.ofNat 64 code))).code

/-- An accumulator tile filled (R186, R396): rows that hold an element under a mark are poisoned. -/
def fillAcc (o : TileOp) (x : Tensor) (n : Nat) (old : Acc32) : Acc32 :=
  let cs := windowCoords x o.cval none
  let badRows := ((cs.zipIdx).filterMap fun p =>
    if inBounds x p.1 && readBad o (elemAddr x p.1).toNat (elemSpan x) then some (p.2 / 128) else none).dedup
  { old with
    elems := (cs.zipIdx).map fun p =>
      if badRows.contains (p.2 / 128) then 0x7FDA0000#32
      else widenCode x.fmt (elemCode o x p.1)
    poisoned := !badRows.isEmpty
    cause := match badRows with | r :: _ => (n, r / 16, 0) | [] => old.cause
    damaged := false }

/-- The block of 32 along the scale axis that coordinates lie in, with the other coordinates. -/
def scaleKey (x : Tensor) (xy : List Int) : Int × Int := ((xy[x.saxis]?).getD 0 / 32, (xy[1 - x.saxis]?).getD 0)

/-- The scales of a window that is stored: one for each block of 32 along the scale axis (R125, R187). -/
def windowScales (x : Tensor) (els : List (List Int × Word)) : List ((Int × Int) × Nat) :=
  let keys := (els.map fun p => scaleKey x p.1).dedup
  keys.map fun k =>
    (k, (fScmax x.fmt (BitVec.ofNat 2 x.sfmt) ((els.filter fun p => scaleKey x p.1 = k).map fun p => p.2.zeroExtend 64)).bits.toNat)

/-- Puts bytes at a virtual address into the sectors to write, one sector's bytes and mask each. -/
def scatter (l : List (Nat × Sector × BitVec 64)) (va : Nat) : List Byte → List (Nat × Sector × BitVec 64)
  | [] => l
  | b :: bs =>
    let v := va / 64
    let put (p : Nat × Sector × BitVec 64) : Nat × Sector × BitVec 64 :=
      (v, secSet p.2.1 (va % 64) b, p.2.2 ||| BitVec.ofNat 64 (2 ^ (va % 64)))
    let l := if l.any fun p => p.1 = v then l.map fun p => if p.1 = v then put p else p else l ++ [put (v, 0, 0)]
    scatter l (va + 1) bs

/-- What a `TST` writes (R187): its elements in bounds converted, and its scales. -/
def tstWrites (o : TileOp) (x : Tensor) (t : Acc32) : List (Nat × Sector × BitVec 64) :=
  let els := ((windowCoords x o.cval none).zip t.elems).filter fun p => inBounds x p.1
  let scales := if x.sfmt = 0 then [] else windowScales x els
  let sg := sigOf o.opc o.form
  let ctl : FCtl := ⟨rndOf (rndCode sg o.form) o.rm 0, satCtl sg o.form, false⟩
  let scaleOf (c : List Int) : Nat := ((scales.find? fun p => p.1 = scaleKey x c).map (·.2)).getD 0
  let code (c : List Int) (w : Word) : Nat :=
    if x.sfmt = 0 then (fCvt x.fmt 0x00 ctl (w.zeroExtend 64)).bits.toNat
    else (fQnt x.fmt (BitVec.ofNat 2 x.sfmt) ctl (w.zeroExtend 64) (BitVec.ofNat 64 (scaleOf c))).bits.toNat
  let l := els.foldl (fun l p => scatter l (elemAddr x p.1).toNat (bytesOf (elemSize x) (code p.1 p.2))) []
  if x.sfmt = 0 then l
  else els.foldl (fun l p => scatter l (scaleAddr x p.1).toNat (bytesOf (scaleSize x) (scaleOf p.1))) l

/-! Running (R179, R180, R182). -/

/-- An operation of a core. -/
def tileOp (s : State) (die site id : Nat) : Option TileOp := (coreAt s die site).ops.find? fun o => o.id = id

/-- Replaces an operation of a core. -/
def putTileOp (s : State) (die site : Nat) (o : TileOp) : State :=
  modCore s die site fun c => { c with ops := c.ops.map fun p => if p.id = o.id then o else p }

/-- Whether the entry that an operation writes or reads out is still its team's. -/
def ownsTarget (c : Core) (o : TileOp) : Bool := tileClaim c (opTarget o) = some o.team

/-- An operation leaves a core's queue: its target takes the state of the next operation on it, or is ready (R179); an
entry that its team has given up keeps nothing of it. -/
def dropTileOp (c : Core) (o : TileOp) : Core :=
  let c := { c with ops := c.ops.filter fun p => p.id ≠ o.id }
  if ownsTarget c o then
    setTileState c (opTarget o) (match c.ops.find? fun p => opTarget p = opTarget o with
      | some p => opState p
      | none => .ready)
  else if tileClaim c (opTarget o) = none ∧ !opsName c (opTarget o) then freeTile c (opTarget o)
  else clearFlags c (opTarget o)

/-- A thread of an operation's team, for the locks that do not apply to it (R336). -/
def opMember (o : TileOp) : Option Nat := (o.signers.head?).map (·.tid)

/-- An operation starts: what it will read or write is fixed. -/
def startTileOp (c : Core) (o : TileOp) : TileOp :=
  let o := { o with started := true }
  match o.tensor with
  | none => o
  | some x =>
    if o.opc = 0xD2#8 then { o with todo := touchedBlocks 64 (windowRanges x o.cval (opShape o x)) }
    else { o with writes := ((c.accs[o.form.a.toNat]?).map (tstWrites o x)).getD [] }

/-- A `TLD` reads its next sector, one event of the package order; at a lock it waits (R182, R396). -/
def tldSector (s : State) (die site : Nat) (o : TileOp) (v : Nat) (rest : List Nat) : State :=
  let (pa, key, lbc) := opXlat o (v * 64)
  let data := lbc && decide (pa / 4096 % 16 ≠ 0)
  if !(lockHitOf s (opMember o) none [(pa, 64)]).isEmpty then s
  else
    let sec := pa / 64
    let bad := ((sec :: sourceSectors s sec).any fun x => (readMark s 0 x key).isSome)
      || (data && !lbcHeaderOk (headerOf s pa))
    let s := if data then touchLine s sec (some o.ctx) (some (lbcUnitsAt s pa false)) else s
    let (s, x, ts) := readNow s sec (some o.ctx) o.ts
    let x := if data then secOfBytes (lbcBytes s pa 64) else x
    putTileOp s die site { o with todo := rest, secs := (v, x, bad) :: o.secs, ts := max o.ts ts }

/-- A `TST` writes its next sector (R182, R396): a part of a marked sector is dropped. -/
def tstSector (s : State) (die site : Nat) (o : TileOp) (p : Nat × Sector × BitVec 64) (rest : List (Nat × Sector × BitVec 64)) :
    State :=
  let (pa, key, _) := opXlat o (p.1 * 64)
  if !(lockHitOf s (opMember o) none [(pa, 64)]).isEmpty then s
  else
    let sec := pa / 64
    let whole := decide (p.2.2 = ~~~ 0#64)
    if (writeMark s 0 sec key whole).isSome then putTileOp s die site { o with writes := rest, dropped := true }
    else
      let s := if whole then retag s sec key else s
      let ts := writeStamp s sec o.ts
      let s := writeNow s sec p.2.1 p.2.2 (some o.ctx) ts
      putTileOp s die site { o with writes := rest, ts := max o.ts ts }

/-- A `TMMAS` pops its next metadata entry; on an empty queue it stalls (R180, R189). -/
def popEntry (s : State) (die site : Nat) (o : TileOp) : State :=
  let c := coreAt s die site
  match opQueue o with
  | none => s
  | some q =>
    match ((c.mqs[q]?).filter fun x => x.claim = some o.team ∨ x.claim = none).map (·.entries) with
    | some (e :: r) =>
      putTileOp (modCore s die site fun c => { c with mqs := modAt c.mqs q fun x => { x with entries := r } }) die site
        { o with popped := o.popped ++ [e] }
    | _ => s

/-- Whether a `TMMAS` has entries left to pop. -/
def popsLeft (c : Core) (o : TileOp) : Bool := (opQueue o).isSome && o.popped.length < opBlocks c o

/-- One more piece of a started operation's work. -/
def tileProgress (s : State) (die site : Nat) (o : TileOp) : State :=
  match o.todo, o.writes with
  | v :: rest, _ => tldSector s die site o v rest
  | [], p :: rest => tstSector s die site o p rest
  | [], [] => if popsLeft (coreAt s die site) o then popEntry s die site o else s

/-- A read-out whose tile turned out poisoned leaves the queue with TILEPOIS; `last` is the signer that reached the
count (R179, R181). -/
def poisonedOp (s : State) (die site : Nat) (o : TileOp) (i : TrapInfo) : State :=
  failSigners (modCore s die site fun c => dropTileOp c o) o.signers (lastSigner o) i

/-- Whether a slot that an operation names is being filled by a decoder (R179, R200). -/
def decoderFills (c : Core) (o : TileOp) : Bool :=
  (opNames o).any fun k => k < 0x40 && tileStateOf c k = .filling && !c.ops.any fun p => opTarget p = k

/-- TILE_OPERATION_ISSUE (R179, R180): a queued operation starts; for a started one, its next sector or entry. -/
def tileIssue (s : State) (die site id : Nat) : State :=
  match tileOp s die site id with
  | none => s
  | some o =>
    let c := coreAt s die site
    if o.started then tileProgress s die site o
    else if !opStartable c.ops o || decoderFills c o then s
    else
      match (if o.held then poisonCheck c o else none) with
      | some i => poisonedOp s die site o i
      | none =>
        let s := putTileOp s die site { startTileOp c o with held := false }
        let s := modCore s die site fun c => if ownsTarget c o then setTileState c (opTarget o) (opState o) else c
        if o.held then o.signers.foldl (releaseSigner (lastSigner o)) s else s

/-- Does what is left of a started operation, as far as it can. -/
def tileProgressN : Nat → State → Nat → Nat → Nat → State
  | 0, s, _, _, _ => s
  | n + 1, s, die, site, id =>
    match tileOp s die site id with
    | none => s
    | some o =>
      if o.todo.isEmpty && o.writes.isEmpty && !popsLeft (coreAt s die site) o then s
      else tileProgressN n (tileProgress s die site o) die site id

/-- What an operation leaves in its target. -/
def tileEffect (c : Core) (o : TileOp) : Core :=
  match o.opc.toNat with
  | 0xD2 =>
    (match o.tensor with
     | none => c
     | some x =>
       if o.form.mod.getLsbD 1 then { c with accs := modAt c.accs o.form.a.toNat (fillAcc o x o.form.a.toNat) }
       else match shapeOf x o.cval with
         | some h => { c with slots := modAt c.slots o.form.a.toNat (fillSlot o x h) }
         | none => c)
  | 0xD3 => if o.dropped then { c with accs := modAt c.accs o.form.a.toNat fun t => { t with damaged := true } } else c
  | 0xD4 =>
    { c with accs := modAt c.accs o.form.a.toNat fun t =>
        { t with elems := List.replicate 16384 0, poisoned := false, damaged := false } }
  | 0xD5 | 0xD6 => runProduct c o
  | _ => c

/-- Signers in the order of R192. -/
def rankSigners (s : State) (l : List Signature) : List Signature :=
  let key (g : Signature) : Nat := tidOf s g.tid
  l.mergeSort fun a b => key a ≤ key b

/-- `TMOVV`'s registers (R192). -/
def movvWrite (s : State) (o : TileOp) (t : Acc32) : State :=
  let m := movvCount o.form.mod
  ((rankSigners s o.signers).zipIdx).foldl (fun s p =>
    let ws := (t.elems.drop (o.cval.toNat * 128 + p.2 * m)).take m
    modThread s p.1.tid fun th =>
      if scratchPos 0 ≤ p.1.pos then setScratches th (p.1.pos - scratchPos 0) ws else setStacks th p.1.pos ws) s

/-- The time of an operation's events reaches its target (R182). -/
def stampTile (c : Core) (code ts : Nat) : Core :=
  modTile c code (fun x => { x with ts := max x.ts ts }) (fun x => { x with ts := max x.ts ts }) id

/-- A team whose last thread has exited, or that has been saved, gives its entries up once its operations have completed (R184, R227). -/
def settleClaims (s : State) (die site team : Nat) : State :=
  if (teamGone s team) || ((teamThreads s team).all fun t => threadExited s t) then
    modCore s die site fun c => releaseClaims c team
  else s

/-- The operation's effect, its target's state, and its signers' tl. -/
def finishTileOp (s : State) (die site : Nat) (o : TileOp) : State :=
  let s := if o.opc = 0xD7#8 then
      match (coreAt s die site).accs[o.form.b.toNat]? with
      | some t => movvWrite s o t
      | none => s
    else s
  let s := modCore s die site fun c => stampTile (dropTileOp (tileEffect c o) o) (opTarget o) o.ts
  settleClaims (o.signers.foldl (fun s g => lowerCtr (raisePtime s g.tid o.ts) g.tid .tl) s) die site o.team

/-- TILE_OPERATION_COMPLETE (R15, R179, R182): what is left of the work, then the effect; at a lock or an empty queue
the operation stays. -/
def tileComplete (s : State) (die site id : Nat) : State :=
  match tileOp s die site id with
  | none => s
  | some o =>
    if !o.started then s
    else
      let s := tileProgressN (o.todo.length + o.writes.length + opBlocks (coreAt s die site) o) s die site id
      match tileOp s die site id with
      | none => s
      | some o =>
        if o.todo.isEmpty && o.writes.isEmpty && !popsLeft (coreAt s die site) o then finishTileOp s die site o else s

/-- TILE_OPERATION_ISSUE. -/
def execTileOperationIssue (die site op : Nat) (s : State) : Host.Outcome State Fault Refusal := .next (tileIssue s die site op)

/-- TILE_OPERATION_COMPLETE. -/
def execTileOperationComplete (die site op : Nat) (s : State) : Host.Outcome State Fault Refusal :=
  .next (tileComplete s die site op)

end Sys2Proof.Machine
end

