-- ==== Sys2Proof/Machine/Engine.lean ====
section
/-! DEFINITION. Engine commands (R154, R172, R196 to R201, R275, R337 to R339, R373 to R375) and the tensor
identifiers (R196, R316). -/

namespace Sys2Proof.Machine

/-! `TIDSET` and `TIDGET` (R196, R316). -/

/-- `TIDSET` in a lane: the image is read and checked while the instruction issues. -/
def tidsetLane (f : Form) (s : State) (r : Ready) : LaneOut :=
  match counterHold s r.tid .ld with
  | some w => .hold w
  | none =>
    match readAtIssue s r.tid (if f.mod.getLsbD 0 then 1 else 0) r.a.toNat 128 64 with
    | .trap i => .trap i
    | .hold w => .hold w
    | .ok s1 bs _ =>
      let valid := imgBits bs 0 63 63 = 1
      match (if valid then badField bs else none) with
      | some off => .trap ⟨cILLOPND, 0, off, 0⟩
      | none =>
        let image := if valid then some (tensorOfImage bs) else none
        .ok (enqueue s1 { accessOf s1 r.tid (.tidSet f.d.toNat image) .nothing 128 r.a.toNat noXlat [] with ctr := .ld }) {}

/-- `TIDSET` (R196). -/
def execTidset (f : Form) (s : State) : Host.Outcome State Fault Refusal :=
  runLanes 0xE2 f s fun _ _ s r => tidsetLane f s r

/-- The identifier is written, in the order of the sets of it, and ld falls (R316). -/
def performTidSet (s : State) (a : Access) (n : Nat) (image : Option Tensor) : State :=
  let same (b : Access) : Bool := b.ctx = a.ctx && match b.kind with | .tidSet m _ => m = n | _ => false
  if ((s.accs.find? same).map (·.id)) ≠ some a.id then s
  else
    endAccess (modCtx s a.ctx fun k =>
      { k with tensors := match image with | some x => insertNat k.tensors n x | none => eraseNat k.tensors n }) a

/-- The first and second sector of an image's place. -/
def halfPlace (p : Place) (second : Bool) : Place :=
  match p with
  | .spad r _ => .spad { r with off := if second then r.off + 64 else r.off } 64
  | .phys [(a, _)] => .phys [(if second then a + 64 else a, 64)]
  | .phys (q :: r) => if second then .phys r else .phys [q]
  | .phys [] => .phys []
  | .nothing => .nothing

/-- `TIDGET` in a lane: the image's two sectors are stores of the lane. -/
def tidgetLane (f : Form) (s : State) (r : Ready) : LaneOut :=
  let space := if f.mod.getLsbD 0 then 1 else 0
  let bs := tensorImage (tensorOf s r.tid f.d.toNat)
  match counterHold s r.tid .st with
  | some w => .hold w
  | none =>
    let wholes := storesWhole (fun w => (storePlace s r.tid space r.a.toNat 128 64 w).toList) (touchedSectors s r.tid space r.a.toNat 128)
    match locate s r.tid space r.a.toNat 128 64 needW wholes with
    | .trap i => .trap i
    | .hold w => .hold w
    | .ok p x ks =>
      let one (second : Bool) (c : Ctr) : Access :=
        { accessOf s r.tid .store (halfPlace p second) 64 (if second then r.a.toNat + 64 else r.a.toNat) x ks with
          bytes := (if second then bs.drop 64 else bs.take 64), ctr := c, wholes := wholes }
      let s1 := enqueue s (one false .none)
      .ok (enqueue s1 { one true .st with id := s1.nextId }) {}

/-- `TIDGET` (R196). -/
def execTidget (f : Form) (s : State) : Host.Outcome State Fault Refusal :=
  runLanes 0xE3 f s fun _ _ s r => tidgetLane f s r

/-! Descriptors (R197 to R201). -/

/-- Engine and function code of the field B. -/
def fnOf (b : BitVec 10) : Nat × Nat := (b.toNat / 128, b.toNat % 128)

/-- The functions of the tables. -/
def listedFn (eng fn : Nat) : Bool := (eng = 0 ∧ fn ≤ 4) ∨ (eng = 1 ∧ fn ≤ 2) ∨ (eng = 2 ∧ fn ≤ 2)

/-- Bits of a body word that a function gives a meaning. -/
def bodyMask (eng fn off slot : Nat) : Nat :=
  let all := 2 ^ 64 - 1
  match eng, fn, off with
  | 0, 0, 0x10 => 0x7FFFF
  | 0, 1, 0x10 => 0xFF
  | 0, 2, 0x10 => 0xFFFFFF
  | 0, 3, 0x10 => 0x3FFFF
  | 0, 4, 0x10 | 0, 4, 0x18 => all
  | 0, 4, 0x20 => 0xFF
  | 1, 0, 0x10 | 1, 0, 0x18 => all
  | 1, 1, 0x10 => 0xF3F
  | 1, 1, 0x18 | 1, 1, 0x20 | 1, 1, 0x38 => all
  | 1, 1, 0x28 => (2 ^ 32 - 1) * 2 ^ 32 + (if slot = 1 then 0x3F else 0xFFFFFF)
  | 1, 1, 0x30 => 2 ^ 32 - 1
  | 1, 2, 0x10 => 0x3F
  | 2, 0, 0x10 | 2, 0, 0x18 | 2, 0, 0x20 | 2, 0, 0x28 => all
  | 2, 1, 0x10 | 2, 1, 0x18 | 2, 1, 0x20 => all
  | 2, 2, 0x10 | 2, 2, 0x18 => all
  | 2, 2, 0x20 => 0xF
  | _, _, _ => 0

/-- Whether an `fd_frame` targets a slot. -/
def slotTarget (bs : List Byte) : Bool := descWord bs 0x10 / 2 ^ 11 % 2 = 1

/-- A rule of a body's own that it breaks, by offset; `spad` is the team's limit. -/
def bodyBad (eng fn : Nat) (bs : List Byte) (spad : Nat) : Option Nat :=
  let w := descWord bs
  if w 0 / 2 ^ 16 % 2 = 1 ∧ (w 8 % 16 ≠ 0 ∨ spad < w 8 + 16) then some 8
  else match eng, fn with
    | 0, 4 => if w 0x20 < 32 then some 0x20 else none
    | 1, 0 => if w 0x10 % 65536 ≠ 0 then some 0x10 else none
    | 1, 1 =>
      if slotTarget bs ∧ (256 < w 0x30 % 65536 ∨ 128 < w 0x30 / 65536 % 65536) then some 0x30 else none
    | 2, 0 => if w 0x28 < 1 ∨ 512 < w 0x28 then some 0x28 else none
    | _, _ => none

/-- The first field of a descriptor that breaks R198 to R201. -/
def descBad (eng fn : Nat) (bs : List Byte) (spad : Nat) : Option Nat :=
  let w := descWord bs
  let slot := if slotTarget bs then 1 else 0
  if w 0 / 2 ^ 8 % 256 ≠ 0 ∨ w 0 / 2 ^ 17 ≠ 0 then some 0
  else if w 8 / 2 ^ 20 ≠ 0 then some 8
  else
    match [0x10, 0x18, 0x20, 0x28, 0x30, 0x38].find? fun off => w off &&& bodyMask eng fn off slot ≠ w off with
    | some off => some (if off = 0x30 ∧ w off / 2 ^ 32 ≠ 0 then 0x34 else off)
    | none => bodyBad eng fn bs spad

/-- The identifiers a descriptor names: number and the offset of its field. -/
def descIds (eng fn : Nat) (bs : List Byte) : List (Nat × Nat) :=
  let b (off i : Nat) : Nat := descWord bs off / 2 ^ (8 * i) % 256
  match eng, fn with
  | 0, 0 => [(b 0x10 0, 0x10), (b 0x10 1, 0x10)]
  | 0, 1 => [(b 0x10 0, 0x10)]
  | 0, 2 => [(b 0x10 0, 0x10), (b 0x10 1, 0x10), (b 0x10 2, 0x10)]
  | 0, 3 => [(b 0x10 1, 0x10), (b 0x10 0, 0x10)]
  | 1, 1 => if slotTarget bs then [] else
      ((List.range 3).filterMap fun i => if b 0x28 i = 0xFF then none else some (b 0x28 i, 0x28))
  | _, _ => []

/-! Tensors as an engine moves them. -/

/-- Signedness and width of an integer format of R194, the raw ones as unsigned. -/
def tensorInt (fmt : Nat) : Option (Bool × Nat) :=
  if fmt = 0x18 then some (false, 32) else if fmt = 0x19 then some (false, 64)
  else if 0x21 ≤ fmt ∧ fmt ≤ 0x27 then some (false, fmt - 0x20)
  else if 0x29 ≤ fmt ∧ fmt ≤ 0x2F then some (true, fmt - 0x28)
  else typeInt fmt

/-- Whether the conversion grid converts one format to another: as `CVT`, with the integers of R194; pairs to pairs. -/
def gridOk (dst src : Nat) : Bool :=
  let pairFmt (x : Nat) : Bool := x = 0x04 ∨ x = 0x05
  let scale (x : Nat) : Bool := x = 0x0A ∨ x = 0x0B
  dst = src || (pairFmt dst && pairFmt src)
    || (!pairFmt dst && !pairFmt src && !(scale dst && (tensorInt src).isSome) && !(scale src && (tensorInt dst).isSome))

/-- One element converted: a code of `src` to a code of `dst`; between identical formats the code goes over as it is (R44;
log 116). -/
def gridElem (dst src : Nat) (rnd : Rnd) (code : Nat) : Nat :=
  let ctl : FCtl := ⟨rnd, false, false⟩
  if dst = src then code
  else if dst = 0x04 ∨ dst = 0x05 then
    let h (n : Nat) : Nat := (fCvt (dst - 2) (src - 2) ctl (BitVec.ofNat 64 n)).bits.toNat
    h (code % 65536) + 65536 * h (code / 65536)
  else
    let v : Exact := match tensorInt src with
      | some (sg, w) => let n := intLow sg w (BitVec.ofNat 64 code); .val (.fin (decide (n < 0)) n.natAbs 0) 0
      | none => .val (typeVal src false (BitVec.ofNat 64 code)) 0
    match tensorInt dst, tensorInt src with
    | some (_, w), some (sg, v) => wrapNat w (intLow sg v (BitVec.ofNat 64 code))
    | some (sg, w), none => (roundToInt sg w rnd v).code % 2 ^ w
    | none, _ => (toType dst ctl v).bits.toNat

/-- Every coordinate of a tensor, dimension 0 fastest. -/
def allCoords (x : Tensor) : List (List Int) :=
  (List.range 5).reverse.foldl (fun acc i =>
    acc.flatMap fun xy => (List.range (extentOf x i)).map fun n => (n : Int) :: xy) [[]]

/-- The bytes that hold a tensor, from first to last. -/
def tensorSpan (x : Tensor) : Nat × Nat :=
  let row := (extentOf x 0 + 31) / 32 * (4 * elemBits x)
  let (lo, plane) : Nat × Nat :=
    if x.layout ≤ 1 then (if planar x then (1, row) else (0, elemSpan x))
    else if x.layout = 2 then (2, runOffset x ((extentOf x 0 + 127) / 128 * ((extentOf x 1 + 127) / 128) * 16384))
    else if x.layout ≤ 4 then (2, runOffset x (extentOf x 0 * extentOf x 1))
    else (1, row)
  let ds := ((List.range 5).filter (lo ≤ ·)).map fun i => ((extentOf x i : Int) - 1) * (strideOf x i).toInt
  let mn := ds.foldl (fun a d => a + min 0 d) 0
  let mx := ds.foldl (fun a d => a + max 0 d) 0
  ((x.base + BitVec.ofInt 64 mn).toNat, plane + (mx - mn).toNat)

/-- Virtual sectors that hold elements at some coordinates. -/
def coordSectors (x : Tensor) (cs : List (List Int)) : List Nat :=
  touchedBlocks 64 (cs.map fun xy => ((elemAddr x xy).toNat, elemSpan x))

/-- Elements placed at their addresses in ascending order: virtual sectors, bytes and masks. A block of bit planes is
written whole, its padding zero; of elements at one position the last stays (R49, R259). -/
def placeElems (x : Tensor) (els : List (List Int × Nat)) : List (Nat × Sector × BitVec 64) :=
  if planar x then
    let blocks := (squeeze (els.map fun p => (elemAddr x p.1).toNat)).dedup
    blocks.foldl (fun l b =>
      let codes := (els.filter fun p => (elemAddr x p.1).toNat = b).map fun p => (planeIndex x p.1, p.2)
      scatter l b (planeBlock (elemBits x) ((List.range 32).map fun j => (lookupNat codes.reverse j).getD 0))) []
  else els.foldl (fun l p => scatter l (elemAddr x p.1).toNat (bytesOf (elemSpan x) p.2)) []

/-- A byte of a source as read. -/
def snapByte (e : EngineOp) (va : Nat) : Byte :=
  match lookupNat e.snap (va / 64) with
  | some x => secByte x (va % 64)
  | none => 0

/-- Bytes of a source as read. -/
def snapBytes (e : EngineOp) (va n : Nat) : List Byte := (List.range n).map fun i => snapByte e (va + i)

/-- An element of a source as read. -/
def snapElem (e : EngineOp) (x : Tensor) (xy : List Int) : Nat :=
  codeOfSpan x xy (snapBytes e (elemAddr x xy).toNat (elemSpan x))

/-! Issue of a command. -/

/-- The identifiers of a command as they stand, with the offset of the field of the first that is unset. -/
def commandTensors (s : State) (ctx : Nat) (ids : List (Nat × Nat)) : Except Nat (List (Nat × Tensor)) :=
  let get (n : Nat) : Option Tensor := (s.contexts[ctx]?).bind fun c => lookupNat c.tensors n
  match ids.find? fun p => (get p.1).isNone with
  | some p => .error p.2
  | none => .ok (ids.filterMap fun p => (get p.1).map fun x => (p.1, x))

/-- A decoder's target formats (R200). -/
def planeFmt (fmt : Nat) : Bool := fmt = 0x14 ∨ fmt = 0x03 ∨ fmt = 0x06 ∨ fmt = 0x07

/-- What the named identifiers must be to each other (R199, R200); an offset where they are not. -/
def tensorsBad (eng fn : Nat) (ts : List Tensor) : Option Nat :=
  match eng, fn, ts with
  | 0, 0, [d, a] => if d.sizes ≠ a.sizes ∨ !gridOk d.fmt a.fmt then some 0x10 else none
  | 0, 2, [d, a, i] =>
    if i.fmt ≠ 0x16 ∨ i.ndim ≠ 1 ∨ extentOf i 0 ≠ extentOf d 1 ∨ extentOf d 0 ≠ extentOf a 0 ∨ extentOf d 2 ≠ extentOf a 2
        ∨ extentOf d 3 ≠ extentOf a 3 ∨ extentOf d 4 ≠ extentOf a 4 ∨ !gridOk d.fmt a.fmt then some 0x10 else none
  | 0, 3, [d, a] =>
    if d.layout ≠ 3 ∨ a.layout ≠ 3 ∨ d.fmt ≠ a.fmt ∨ (slotK a.fmt).isNone ∨ 2 * extentOf d 0 ≠ extentOf a 0
        ∨ d.sizes.drop 1 ≠ a.sizes.drop 1 then some 0x10 else none
  | 1, 1, ts => if ts.any fun x => !planeFmt x.fmt then some 0x28 else none
  | _, _, _ => none

/-- Virtual ranges that a command writes (R199 to R201). -/
def commandTargets (eng fn : Nat) (bs : List Byte) (ts : List Tensor) : List (Nat × Nat) :=
  match eng, fn with
  | 0, 0 | 0, 1 | 0, 2 | 0, 3 => (ts.take 1).map tensorSpan
  | 1, 1 => ts.map tensorSpan
  | 2, 0 => [(descWord bs 0x20, descWord bs 0x28)]
  | 2, 1 => if descWord bs 0x20 < 30944 then [] else [(descWord bs 0x18, 30944)]
  | _, _ => []

/-- Virtual sectors that a command reads first. -/
def commandSources (eng fn : Nat) (bs : List Byte) (ts : List Tensor) : List Nat :=
  let range (a n : Nat) : List Nat := touchedBlocks 64 [(a, n)]
  match eng, fn, ts with
  | 0, 0, [_, a] => coordSectors a (allCoords a)
  | 0, 2, [_, _, i] => coordSectors i (allCoords i)
  | 0, 3, [_, a] => coordSectors a (allCoords a)
  | 0, 4, _ => range (descWord bs 0x10) (descWord bs 0x18)
  | 1, 1, _ => range (descWord bs 0x18) (descWord bs 0x20)
  | 2, 0, _ => range (descWord bs 0x10) (descWord bs 0x18)
  | 2, 1, _ => range (descWord bs 0x10) 32
  | 2, 2, _ => range (descWord bs 0x10) (descWord bs 0x18)
  | _, _, _ => []

/-- A command as an operation; one whose targets its pages do not let it write ends with status 1. -/
def commandOp (s : State) (e : EngineOp) (bs : List Byte) (ts : List (Nat × Tensor)) : EngineOp :=
  let xs := ts.map (·.2)
  let targets := commandTargets e.engine e.fn bs xs
  match tilePages s e.ctx needW targets with
  | .error _ => { e with desc := bs, tensors := ts, status := some 1 }
  | .ok ps =>
    let phys := targets.flatMap fun r => contiguous (physPieces (rangePieces s e.ctx r.1 r.2))
    { e with
      desc := bs
      tensors := ts
      ranges := phys
      pages := ps.map fun p => (p.1, p.2.1, p.2.2.1)
      todo := commandSources e.engine e.fn bs xs }

/-- The engine a command goes to (R197): by number, or the first of the home die of its first destination. -/
def unitOf (c : Word) (e : EngineOp) : Nat :=
  if e.engine = 2 then 0
  else if c.getLsbD 4 then homeDie ((e.ranges.headD (0, 0)).1) * 4 else c.toNat % 16

/-- The command's slot target is filling from issue (R200). -/
def takeSlot (s : State) (t : Nat) (e : EngineOp) : State × EngineOp :=
  if e.engine = 1 ∧ e.fn = 1 ∧ slotTarget e.desc then
    let (d, c) := coreOf s t
    let n := descWord e.desc 0x28 % 64
    match (coreAt s d c).slots[n]? with
    | some old =>
      let wide := 128 < descWord e.desc 0x30 % 65536
      (modCore s d c fun k => { k with slots := modAt k.slots n fun x =>
         { x with state := .filling, side := 4, fmt := if wide then 0x14 else 0x03, k := if wide then 256 else 128 } },
       { e with slot := some (n, old) })
    | none => (s, e)
  else (s, e)

/-- The slot or queue that a command needs its team to hold: its resource code and field offset. -/
def commandClaim (eng fn : Nat) (bs : List Byte) : Option (Nat × Nat) :=
  if eng = 1 ∧ fn = 1 ∧ slotTarget bs then some (descWord bs 0x28 % 64, 0x28)
  else if eng = 0 ∧ fn = 3 then some (0x50 + descWord bs 0x10 / 2 ^ 16 % 4, 0x10)
  else none

/-- A reply's destination: a uniform register takes that of the lowest lane of its group (R20). `span`: the positions
that an indirect destination holds pending (R26). -/
def replyDest (s s0 : State) (t : Nat) (l : Loc) (span : Option (Nat × Nat)) : Dest :=
  match destOf s t l 1 span with
  | .uni g k n => if s.engines.any fun e => s0.nextId ≤ e.id && decide (e.dest = .uni g k n) then .none else .uni g k n
  | d => d

/-- `XOP` and `XOPR` in a lane. -/
def xopLane (reply : Bool) (f : Form) (s0 s : State) (r : Ready) : LaneOut :=
  let (eng, fn) := fnOf f.b
  let bad (off : Nat) : LaneOut := .trap ⟨cXOPERR, 0, off, 0⟩
  match counterHold s r.tid .cp with
  | some w => .hold w
  | none =>
    if !listedFn eng fn then bad 0
    else
      match readAtIssue s r.tid (if f.mod.getLsbD 0 then 1 else 0) r.a.toNat 64 64 with
      | .trap i => .trap i
      | .hold w => .hold w
      | .ok s1 bs at_ =>
        match descBad eng fn bs (launchOf s r.tid).spad with
        | some off => bad off
        | none =>
          match commandTensors s (ctxOf s r.tid) (descIds eng fn bs) with
          | .error off => bad off
          | .ok ts =>
            match tensorsBad eng fn (ts.map (·.2)) with
            | some off => bad off
            | none =>
              let (d, c) := coreOf s r.tid
              let k := coreAt s d c
              let claim := commandClaim eng fn bs
              match (claim.filter fun p => decide (tileClaim k p.1 ≠ some (teamIdOf s r.tid))),
                    (claim.filter fun p => decide (p.1 < 0x40) && !releasable k p.1) with
              | some p, _ => bad p.2
              | none, some p => .hold (.release p.1)
              | none, none =>
                let e : EngineOp :=
                  { plainOp s1 r.tid eng fn with
                    descVa := r.a.toNat
                    descSpad := at_
                    ctr := .cp
                    param := BitVec.ofNat 32 (natLow 32 r.c)
                    dest := if reply then replyDest s1 s0 r.tid r.d r.span else .none }
                let e := commandOp s1 e bs ts
                let e := { e with unit := unitOf e.param e }
                let (s2, e) := takeSlot s1 r.tid e
                .ok (startOp (raiseCtr s2 r.tid .cp) e) {}

/-- `XOP` (R197). -/
def execXop (f : Form) (s : State) : Host.Outcome State Fault Refusal :=
  runLanes 0xE0 f s fun _ _ s1 r => xopLane false f s s1 r

/-- `XOPR` (R197). -/
def execXopr (f : Form) (s : State) : Host.Outcome State Fault Refusal :=
  runLanes 0xE1 f s fun _ _ s1 r => xopLane true f s s1 r

/-! The engine's work. -/

/-- An engine operation. -/
def engineOp (s : State) (id : Nat) : Option EngineOp := s.engines.find? fun e => e.id = id

/-- Replaces an engine operation. -/
def putEngine (s : State) (e : EngineOp) : State :=
  { s with engines := s.engines.map fun x => if x.id = e.id then e else x }

/-- Locks that an operation's read meets, its own and its node's apart. -/
def othersLocks (s : State) (e : EngineOp) (ps : List (Nat × Nat)) : List RangeLock :=
  (lockHitOf s (opThread e) (nodeLock s (opNode e)) ps).filter fun k => k.op ≠ e.id

/-- The status of a mark that an engine meets: a lost sector 1, poison and keys 2 (R361, R364). -/
def markStatus (i : TrapInfo) : Nat := if i.code = cMEMERR then 2 else 1

/-- A source sector as an engine finds it: to wait for, a status, or readable at an address. -/
inductive EngineRead where
  | wait
  | fail (status : Nat)
  | ok (s : State) (x : Sector) (ts : Nat)
  deriving DecidableEq, Repr

/-- Reads one virtual sector for an engine: one event of the package order (R275). -/
def engineRead (s : State) (e : EngineOp) (v : Nat) : EngineRead :=
  match (if 2 ^ 57 ≤ v * 64 then Xres.prot else translate s e.ctx (v * 64)) with
  | .pagef | .prot => .fail 1
  | .ok x =>
    let sec := x.pa / 64
    if !x.r ∨ phyBase ≤ x.pa then .fail 1
    else if !(othersLocks s e [(x.pa, 64)]).isEmpty then .wait
    else
      match (sec :: sourceSectors s sec).findSome? fun y => readMark s 0 y x.key with
      | some i => .fail (markStatus i)
      | none =>
        if lbcData x ∧ !lbcHeaderOk (headerOf s x.pa) then .fail 2
        else
          let s := if lbcData x then touchLine s sec (some e.ctx) (some (lbcUnitsAt s x.pa false)) else s
          let (s, y, ts) := readNow s sec (some e.ctx) e.ts
          .ok s (if lbcData x then secOfBytes (lbcBytes s x.pa 64) else y) ts

/-- An operation reads its next source sector. -/
def engineFetch (s : State) (e : EngineOp) (v : Nat) (rest : List Nat) : State :=
  match engineRead s e v with
  | .wait => s
  | .fail st => putEngine s { e with todo := [], status := some st }
  | .ok s x ts => putEngine s { e with todo := rest, snap := insertNat e.snap v x, ts := max e.ts ts }

/-- Virtual sectors to write as physical ones. -/
def toPhysical (e : EngineOp) (l : List (Nat × Sector × BitVec 64)) : List (Nat × Sector × BitVec 64) :=
  l.map fun p =>
    (match e.pages.find? fun q => q.1 = p.1 * 64 / 65536 with
     | some q => (q.2.1 + p.1 * 64 % 65536) / 64
     | none => p.1, p.2)

/-- An engine has what it will write, push and reply. -/
def engineResult (s : State) (e : EngineOp) (l : List (Nat × Sector × BitVec 64)) (pushes : List (List Byte)) (reply : Nat) : State :=
  putEngine s
    { e with
      stage := 2
      swrites := toPhysical e l
      pushes := pushes
      reply := reply
      status := if pushes.isEmpty then some 0 else none }

/-- A Sluice engine's generator for a context (R53). -/
def sluiceState (s : State) (unit ctx : Nat) : Word :=
  ((s.sluices.find? fun p => p.1 = unit ∧ p.2.1 = ctx).map (·.2.2)).getD (seedOf s ctx)

/-- The generator after some beats. -/
def srSteps : Nat → Word → Word
  | 0, w => w
  | n + 1, w => srSteps n (srAdvance w)

/-- `sl_copy` (R199, R53): beats of 256 destination bytes in the order of the elements, eight bytes a lane. -/
def slCopy (s : State) (e : EngineOp) : State :=
  match e.tensors with
  | [(_, d), (_, a)] =>
    let rc : BitVec 3 := BitVec.ofNat 3 (descWord e.desc 0x10 / 2 ^ 16)
    let w := elemBits d
    let g := sluiceState s e.unit e.ctx
    let cs := allCoords a
    let u (i : Nat) : Nat := (srLane (srSteps (i * w / 2048) g) (i * w / 64 % 32)).toNat % 65536
    let els := (cs.zipIdx).map fun p => (p.1, gridElem d.fmt a.fmt (rndOf rc e.rm (if rc = 6#3 then u p.2 else 0)) (snapElem e a p.1))
    let s := if rc = 6#3 then
        { s with sluices := (e.unit, e.ctx, srSteps ((cs.length * w + 2047) / 2048) g)
                              :: s.sluices.filter fun p => !(p.1 = e.unit ∧ p.2.1 = e.ctx) }
      else s
    engineResult s e (placeElems d els) [] els.length
  | _ => putEngine s { e with status := some 1 }

/-- `sl_fill` (R199). -/
def slFill (s : State) (e : EngineOp) : State :=
  match e.tensors with
  | [(_, d)] =>
    let els := (allCoords d).map fun xy => (xy, fillCode d)
    engineResult s e (placeElems d els) [] els.length
  | _ => putEngine s { e with status := some 1 }

/-- `sl_gather` (R199): the indices first, then the rows they name; a row out of range reads as the source's fill value
(R259). -/
def slGather (s : State) (e : EngineOp) : State :=
  match e.tensors with
  | [(_, d), (_, a), (_, i)] =>
    let row (xy : List Int) : Nat := snapElem e i [(xy[1]?).getD 0]
    let src (xy : List Int) : List Int := xy.set 1 (row xy : Int)
    if e.stage = 0 then
      putEngine s { e with stage := 1, todo := (coordSectors a (((allCoords d).map src).filter (inBounds a))).filter fun v =>
        (lookupNat e.snap v).isNone }
    else
      let els := (allCoords d).map fun xy =>
        (xy, gridElem d.fmt a.fmt .rne (if inBounds a (src xy) then snapElem e a (src xy) else fillCode a))
      engineResult s e (placeElems d els) [] (extentOf d 1)
  | _ => putEngine s { e with status := some 1 }

/-- Magnitude order of `sl_sparse`: NaN counts largest. -/
def sparseLess (x y : Val) : Bool :=
  match x, y with
  | .nan _, _ => false
  | _, .nan _ => true
  | .inf _, _ => false
  | _, .inf _ => true
  | .fin _ m e, .fin _ n g => decide (valCmp (.fin false m e) (.fin false n g) = some .lt)

/-- The two positions of a group of 4 that are kept, ascending: the largest magnitudes, ties to the lower index. -/
def sparseKeep (v : Nat → Val) : Nat × Nat :=
  let top (l : List Nat) : Nat := l.foldl (fun m i => if sparseLess (v m) (v i) then i else m) (l.headD 0)
  let a := top [0, 1, 2, 3]
  let b := top ([0, 1, 2, 3].filter (· ≠ a))
  (min a b, max a b)

/-- `sl_sparse` (R189, R199): half the elements, and an entry for each block of 32 of each panel of 128 rows. -/
def slSparse (s : State) (e : EngineOp) : State :=
  match e.tensors with
  | [(_, d), (_, a)] =>
    let at_ (xy : List Int) (k : Nat) : List Int := (k : Int) :: xy
    let val (xy : List Int) (k : Nat) : Val := typeVal a.fmt false (BitVec.ofNat 64 (snapElem e a (at_ xy k)))
    let rows := (allCoords { a with sizes := a.sizes.set 0 1 }).map fun xy => xy.drop 1
    let keep (xy : List Int) (g : Nat) : Nat × Nat := sparseKeep fun i => val xy (4 * g + i)
    let els := rows.flatMap fun xy => (List.range (extentOf a 0 / 4)).flatMap fun g =>
      let (p, q) := keep xy g
      [(at_ xy (2 * g), snapElem e a (at_ xy (4 * g + p))), (at_ xy (2 * g + 1), snapElem e a (at_ xy (4 * g + q)))]
    let planes := (rows.map fun xy => xy.drop 1).dedup
    let word (pl : List Int) (panel i blk : Nat) : Nat :=
      if panel * 128 + i < extentOf a 1 then
        (List.range 8).foldl (fun n g =>
          let (p, q) := keep (((panel * 128 + i : Nat) : Int) :: pl) (8 * blk + g)
          n + (p + 4 * q) * 2 ^ (4 * g)) 0
      else 0
    let entries := planes.flatMap fun pl => (List.range ((extentOf a 1 + 127) / 128)).flatMap fun panel =>
      (List.range (extentOf a 0 / 32)).map fun blk =>
        (List.range 128).flatMap fun i => bytesOf 4 (word pl panel i blk)
    engineResult s e (placeElems d els) entries entries.length
  | _ => putEngine s { e with status := some 1 }

/-- Whether an image has the form of R373, a version that is fused as allowed, and a signature that verifies. -/
def imageOk (type : Nat) (img : List Byte) : Bool :=
  let w (off : Nat) : Nat := descWord img off
  w 0 = type && w 8 < 2 ^ 32 && Config.minVersion type ≤ w 8 && w 0x10 < 2 ^ 32 && ((img.drop 0x18).take 40).all (· = 0#8)
    && img.length = 64 + w 0x10 + 29792 && Config.signatureVerifies img

/-- `sl_load` (R199, R373, R374). -/
def slLoad (s : State) (e : EngineOp) : State :=
  let img := snapBytes e (descWord e.desc 0x10) (descWord e.desc 0x18)
  let n := descWord e.desc 0x20 % 256
  if imageOk 5 img then
    let s := { s with routines := insertNat s.routines n img,
                      measures := modAt s.measures 4 fun m => extendMeasure m img }
    engineResult s e [] [] 0
  else putEngine s { e with status := some 4 }

/-! The decoder (R200, R337, R338). -/

/-- A session of a decoder. -/
def sessionOf (s : State) (decoder num ctx : Nat) : Option Session :=
  s.sessions.find? fun x => x.decoder = decoder ∧ x.num = num ∧ x.ctx = ctx

/-- `fd_open` (R200): the lowest free session of the decoder. -/
def fdOpen (s : State) (e : EngineOp) : State :=
  match (List.range 64).find? fun n => !s.sessions.any fun x => x.decoder = e.unit ∧ x.num = n with
  | some n =>
    let x : Session := ⟨e.unit, n, e.ctx, BitVec.ofNat 64 (descWord e.desc 0x10), BitVec.ofNat 64 (descWord e.desc 0x18), [], false⟩
    engineResult { s with sessions := s.sessions ++ [x] } e [] [] n
  | none => engineResult s e [] [] 0xFFFFFFFF

/-- `fd_close` (R200). -/
def fdClose (s : State) (e : EngineOp) : State :=
  let n := descWord e.desc 0x10 % 64
  engineResult { s with sessions := s.sessions.filter fun x => !(x.decoder = e.unit ∧ x.num = n ∧ x.ctx = e.ctx) } e [] [] 0

/-- Whether a unit gives a damaged frame in a session (R338). -/
def unitDamaged (x : Session) (u : List Byte) : Bool :=
  Config.av1Corrupt x.units u || (x.damaged && !Config.av1KeyRefresh u && Config.av1RefersDamaged x.units u)

/-- The session after a unit. -/
def sessionNext (x : Session) (u : List Byte) : Session :=
  { x with units := x.units ++ [u], damaged := unitDamaged x u || (x.damaged && !Config.av1KeyRefresh u) }

/-- A sample converted to a plane's format (R200). -/
def sampleCode (fmt depth v : Nat) : Nat :=
  if fmt = 0x14 then v / 2 ^ (depth - 8) % 256
  else if v = 0 then 0
  else (toType fmt ⟨.rne, false, false⟩ (.mag false (divMag v 0 (2 ^ depth - 1) 0) 0)).bits.toNat

/-- How a frame is decoded: 2× downscale, film grain, crop x, y, width and height in luma samples. -/
structure FrameOpts where
  down : Bool
  grain : Bool
  x : Nat
  y : Nat
  w : Nat
  h : Nat
  deriving DecidableEq, Repr

/-- A sample of plane p of the frame a unit shows, at a place of the crop (R200, R337). -/
def sampleAt (hist : List (List Byte)) (u : List Byte) (o : FrameOpts) (p x y : Nat) : Nat :=
  let depth := if Config.av1Ten u then 10 else 8
  if 0 < p ∧ Config.av1Mono u then 2 ^ (depth - 1)
  else
    let half (n : Nat) : Nat := if 0 < p then n / 2 else n
    Config.av1Sample hist u o.down o.grain p (half o.x + x) (half o.y + y) % 2 ^ depth

/-- The elements of a plane that a frame writes, in bounds: fill values for a damaged frame (R339). -/
def planeElems (hist : List (List Byte)) (u : List Byte) (o : FrameOpts) (damaged : Bool) (p : Nat) (x : Tensor) (rest : List Int) :
    List (List Int × Nat) :=
  let half (n : Nat) : Nat := if 0 < p then n / 2 else n
  let depth := if Config.av1Ten u then 10 else 8
  ((List.range (half o.h)).flatMap fun r => (List.range (half o.w)).filterMap fun i =>
    let xy := ((i : Nat) : Int) :: ((r : Nat) : Int) :: rest
    if inBounds x xy then
      some (xy, if damaged then fillCode x else sampleCode x.fmt depth (sampleAt hist u o p i r))
    else none)

/-- The elements of a slot that a frame fills (R200). -/
def slotElems (hist : List (List Byte)) (u : List Byte) (o : FrameOpts) (damaged : Bool) (fmt k : Nat) : List Nat :=
  let depth := if Config.av1Ten u then 10 else 8
  (List.range 128).flatMap fun r => (List.range k).map fun i =>
    if damaged ∨ o.h ≤ r ∨ o.w ≤ i then 0 else sampleCode fmt depth (sampleAt hist u o 0 i r)

/-- The slot that a frame leaves (R200). -/
def slotFrame (hist : List (List Byte)) (u : List Byte) (o : FrameOpts) (damaged : Bool) : Slot :=
  let wide := decide (128 < o.w)
  let fmt := if wide then 0x14 else 0x03
  let k := if wide then 256 else 128
  { slotFree with
    state := .ready
    damaged := damaged
    fmt := fmt
    side := 4
    k := k
    elems := slotElems hist u o damaged fmt k }

/-- Elements of several planes at their addresses. -/
def placePlanes (l : List (Tensor × List (List Int × Nat))) : List (Nat × Sector × BitVec 64) :=
  l.flatMap fun p => placeElems p.1 p.2

/-- Planes named by a 24-bit field: plane number and identifier. -/
def planeNames (w : Nat) : List (Nat × Nat) :=
  (List.range 3).filterMap fun i => let n := w / 2 ^ (8 * i) % 256; if n = 0xFF then none else some (i, n)

/-- Sets or clears a bit of a status vector as an ordinary store (R339). -/
def statusBit (s : State) (e : EngineOp) (va i : Nat) (b : Bool) : State :=
  let a := va + i / 8
  match virtLoad s e.ctx a 1 with
  | [old] =>
    let m : Byte := BitVec.ofNat 8 (2 ^ (i % 8))
    descStore s e.tid e.ctx none a 0 [if b then old ||| m else old &&& ~~~ m]
  | _ => s

/-- `fd_frame` (R200, R338, R339). -/
def fdFrame (s : State) (e : EngineOp) : State :=
  let w := descWord e.desc
  match sessionOf s e.unit (w 0x10 % 64) e.ctx with
  | none => putEngine s { e with status := some 1 }
  | some x =>
    let u := snapBytes e (w 0x18) (w 0x20)
    let bit (i : Nat) : Bool := w 0x10 / 2 ^ i % 2 = 1
    let o : FrameOpts := ⟨bit 9, bit 10, w 0x28 / 2 ^ 32 % 65536, w 0x28 / 2 ^ 48, w 0x30 % 65536, w 0x30 / 65536 % 65536⟩
    let damaged := unitDamaged x u
    let shown := Config.av1Shown x.units u
    let s := { s with sessions := s.sessions.map fun y => if y.decoder = x.decoder ∧ y.num = x.num then sessionNext x u else y }
    if damaged ∧ bit 8 then putEngine s { e with status := some 3 }
    else
      let s := statusBit s e (w 0x38 % 2 ^ 48) (w 0x38 / 2 ^ 48) (damaged && shown)
      if !shown then engineResult s e [] [] 0
      else if slotTarget e.desc then engineResult s { e with slotNew := some (slotFrame x.units u o damaged) } [] [] 1
      else
        let planes := (planeNames (w 0x28 % 2 ^ 24)).filterMap fun p =>
          (lookupNat e.tensors p.2).map fun t => (t, planeElems x.units u o damaged p.1 t [0, 0, 0])
        engineResult s e (placePlanes planes) [] 1

/-! The security block (R201, R374, R375). -/

/-- Consecutive bytes at a virtual address. -/
def placeBytes (va : Nat) (bs : List Byte) : List (Nat × Sector × BitVec 64) := scatter [] va bs

/-- `sb_hash` (R201). -/
def sbHash (s : State) (e : EngineOp) : State :=
  let w := descWord e.desc
  engineResult s e (placeBytes (w 0x20) (shake256 (snapBytes e (w 0x10) (w 0x18)) (w 0x28))) [] (w 0x28)

/-- The first 0x480 bytes of a report (R375). -/
def reportBody (s : State) (ctx : Nat) (nonce : List Byte) : List Byte :=
  bytesOf 8 1 ++ bytesOf 8 ((s.node.getD 0) % 1024 + 2 ^ 16 * ((s.contexts[ctx]?).map (·.ctxid)).getD 0) ++ bytesOf 8 s.clk
    ++ bytesOf 8 0 ++ nonce ++ (List.range 64).map Config.identityKey ++ (s.measures.take 16).flatten

/-- `sb_report` (R201, R375). -/
def sbReport (s : State) (e : EngineOp) : State :=
  let w := descWord e.desc
  if w 0x20 < 30944 then putEngine s { e with status := some 1 }
  else
    let body := reportBody s e.ctx (snapBytes e (w 0x10) 32)
    engineResult s e (placeBytes (w 0x18) (body ++ (List.range 29792).map (Config.reportSignature body))) [] 30944

/-- `sb_extend` (R201, R374). -/
def sbExtend (s : State) (e : EngineOp) : State :=
  let w := descWord e.desc
  let n := w 0x20 % 16
  if n < 5 then putEngine s { e with status := some 1 }
  else
    let data := snapBytes e (w 0x10) (w 0x18)
    engineResult { s with measures := modAt s.measures n fun m => extendMeasure m data } e [] [] 0

/-! Steps of an engine. -/

/-- A metadata entry goes to its queue, once it has room (R199). -/
def enginePush (s : State) (e : EngineOp) (x : List Byte) (rest : List (List Byte)) : State :=
  let (d, c) := coreOf s e.tid
  let q := descWord e.desc 0x10 / 2 ^ 16 % 4
  if queueRoom s d c q = 0 then s
  else
    let s := modCore s d c fun k => { k with mqs := modAt k.mqs q fun m =>
      if m.claim = e.team then { m with entries := m.entries ++ [x] } else m }
    putEngine s { e with pushes := rest, status := if rest.isEmpty then some 0 else none }

/-- Whether an operation may work now: it has been launched, and the package runs (R154, R275, R370). -/
def engineReady (s : State) (e : EngineOp) : Bool := e.locked && e.status.isNone && decide (s.power = 0)

/-- One step of an engine on an operation of a function: its next source sector, its result, or its next push. -/
def engineStep (s : State) (id eng fn : Nat) (work : State → EngineOp → State) : State :=
  match engineOp s id with
  | none => s
  | some e =>
    if e.engine ≠ eng ∨ e.fn ≠ fn ∨ !engineReady s e then s
    else
      match e.todo, e.pushes with
      | v :: rest, _ => engineFetch s e v rest
      | [], x :: rest => enginePush s e x rest
      | [], [] => work s e

/-- SL_COPY. -/
def execSlCopy (e : Nat) (s : State) : Host.Outcome State Fault Refusal := .next (engineStep s e 0 0 slCopy)
/-- SL_FILL. -/
def execSlFill (e : Nat) (s : State) : Host.Outcome State Fault Refusal := .next (engineStep s e 0 1 slFill)
/-- SL_GATHER. -/
def execSlGather (e : Nat) (s : State) : Host.Outcome State Fault Refusal := .next (engineStep s e 0 2 slGather)
/-- SL_SPARSE. -/
def execSlSparse (e : Nat) (s : State) : Host.Outcome State Fault Refusal := .next (engineStep s e 0 3 slSparse)
/-- SL_LOAD. -/
def execSlLoad (e : Nat) (s : State) : Host.Outcome State Fault Refusal := .next (engineStep s e 0 4 slLoad)
/-- FD_OPEN. -/
def execFdOpen (e : Nat) (s : State) : Host.Outcome State Fault Refusal := .next (engineStep s e 1 0 fdOpen)
/-- FD_FRAME. -/
def execFdFrame (e : Nat) (s : State) : Host.Outcome State Fault Refusal := .next (engineStep s e 1 1 fdFrame)
/-- FD_CLOSE. -/
def execFdClose (e : Nat) (s : State) : Host.Outcome State Fault Refusal := .next (engineStep s e 1 2 fdClose)
/-- SB_HASH. -/
def execSbHash (e : Nat) (s : State) : Host.Outcome State Fault Refusal := .next (engineStep s e 2 0 sbHash)
/-- SB_REPORT. -/
def execSbReport (e : Nat) (s : State) : Host.Outcome State Fault Refusal := .next (engineStep s e 2 1 sbReport)
/-- SB_EXTEND. -/
def execSbExtend (e : Nat) (s : State) : Host.Outcome State Fault Refusal := .next (engineStep s e 2 2 sbExtend)

/-! Completion (R154, R172, R198, R275). -/

/-- The key of an operation's destination page. -/
def destKey (e : EngineOp) (sec : Nat) : Nat :=
  match e.pages.find? fun q => q.2.1 / 65536 = sec * 64 / 65536 with
  | some q => q.2.2
  | none => keyIn e.keys sec

/-- The status that a destination's marks give a write, none where it may land. -/
def landStatus (s : State) (e : EngineOp) : Option Nat :=
  (e.swrites.findSome? fun p => writeMark s 0 p.1 (destKey e p.1) (decide (p.2.2 = ~~~ 0#64))).map markStatus

/-- The writes of an operation as one event (R275). -/
def landWrites (s : State) (e : EngineOp) : State × Nat :=
  let s := e.swrites.foldl (fun s p => if p.2.2 = ~~~ 0#64 then retag s p.1 (destKey e p.1) else s) s
  let ts := e.swrites.foldl (fun t p => max t (writeStamp s p.1 e.ts)) e.ts
  (e.swrites.foldl (fun s p => writeNow s p.1 p.2.1 p.2.2 (some e.ctx) ts) s, ts)

/-- Bytes under a mask. -/
def maskCount (m : BitVec 64) : Nat := ((List.range 64).filter fun i => m.getLsbD i).length

/-- The bytes are credited to the arrival object that the descriptor names (R172, R198). -/
def creditObject (s : State) (e : EngineOp) (ts : Nat) : State :=
  match e.team with
  | none => s
  | some m =>
    if descWord e.desc 0 / 2 ^ 16 % 2 = 1 then
      let r : SpadRef := ⟨m, descWord e.desc 8 % 2 ^ 20⟩
      let s := spadFill s r 16
      let (s, bs, t) := spadRead s r 16 ts
      (spadWrite s r (arrivalBytes (creditBytes (arrivalOf bs) ((e.swrites.map fun p => maskCount p.2.2).sum))) t).1
    else s

/-- A decoder's slot at completion (R200): with the frame, or as it was before the command. -/
def finishSlot (s : State) (e : EngineOp) (st : Nat) : State :=
  match e.slot with
  | none => s
  | some (n, old) =>
    let (d, c) := coreOf s e.tid
    let new := if st = 0 then e.slotNew.getD old else old
    modCore s d c fun k => { k with slots := modAt k.slots n fun y => { new with claim := y.claim, ts := max y.ts e.ts } }

/-- Whether a command's end waits for a frame of its team's scratchpad, where its status or its arrival object stands
(R240). -/
def frameWaits (s : State) (e : EngineOp) : Bool :=
  let absent (r : SpadRef) (n : Nat) : Bool := !spadReady s r n && decide (roomFor s r.team = .none)
  (e.descSpad.any fun r => absent ⟨r.team, r.off⟩ 1)
    || (decide (descWord e.desc 0 / 2 ^ 16 % 2 = 1) && e.team.any fun m => absent ⟨m, descWord e.desc 8 % 2 ^ 20⟩ 16)

/-- ENGINE_OPERATION_COMPLETE for a command: nothing lands on a status other than 0 (R198). -/
def commandComplete (s : State) (e : EngineOp) (st0 : Nat) : State :=
  if frameWaits s e then s else
  let st := if st0 = 0 then (landStatus s e).getD 0 else st0
  let s := { s with engines := s.engines.filter fun x => x.id ≠ e.id }
  let (s, ts) := if st = 0 then landWrites s e else (s, e.ts)
  let s := freeLocks (finishSlot s e st) e.id
  let s := if st = 0 then creditObject s e ts else s
  let s := descStore (raisePtime s e.tid ts) e.tid e.ctx e.descSpad e.descVa 0 [BitVec.ofNat 8 st]
  match e.node with
  | some (g, n, _) => send (noteNode s g n ts) [if st = 0 then .nodeComplete g n else .nodeFail g n cXOPERR 0]
  | none =>
    let s := deliverTo s e.tid e.dest [BitVec.ofNat 32 (if st = 0 then e.reply else 0)]
    raiseFences (lowerCtr s e.tid e.ctr) e.id e.tid

/-- The status vector of a decode node (R339). -/
def statusVector (s : State) (e : EngineOp) : State :=
  let n := (descWord e.desc 0 % 65536 + 7) / 8
  let bits := e.writes.foldl (fun a p => a + 2 ^ p.1) 0
  match virtStore s e.ctx (descWord e.desc 0x30) (bytesOf n bits) e.ts with
  | .ok (s, _) => s
  | .error _ => s

/-- The work of a near-memory or decode node completes (R335, R336, R339): its writes as one event, or its failure
with the code of its status and the address word. -/
def nodeOpComplete (s : State) (e : EngineOp) (st : Nat) : State :=
  match e.node with
  | none => s
  | some (g, n, _) =>
    let s := if e.engine = 1 then statusVector s e else s
    if st ≠ 0 then send s [.nodeFail g n st e.info]
    else
      match e.swrites.findSome? fun p => writeMark s (p.1 * 64) p.1 (destKey e p.1) (decide (p.2.2 = ~~~ 0#64)) with
      | some i => send s [.nodeFail g n i.code i.addr]
      | none =>
        let (s, ts) := landWrites { s with engines := s.engines.filter fun x => x.id ≠ e.id } e
        send (noteNode s g n ts) [.nodeComplete g n]

/-- Whether an operation is the work of a near-memory or decode node. -/
def nodeWork (e : EngineOp) : Bool := e.engine = 3 ∨ (e.engine = 1 ∧ e.fn = 16)

/-- ENGINE_OPERATION_COMPLETE (R275). -/
def engineComplete (s : State) (id : Nat) : State :=
  match engineOp s id with
  | none => s
  | some e =>
    match e.status with
    | none => s
    | some st => if e.engine = 8 then s else if nodeWork e then nodeOpComplete s e st else if e.engine = 9 then landingComplete s e st else commandComplete s e st

/-- ENGINE_OPERATION_COMPLETE. -/
def execEngineOperationComplete (e : Nat) (s : State) : Host.Outcome State Fault Refusal := .next (engineComplete s e)

/-- EAGER_COPY_COMPLETE (R154). -/
def execEagerCopyComplete (e : Nat) (s : State) : Host.Outcome State Fault Refusal := .next (eagerComplete s e)

/-- RANGE_LOCK_GRANT (R154): a `GETR` asks for its bytes once its range is locked. -/
def execRangeLockGrant (e : Nat) (s : State) : Host.Outcome State Fault Refusal :=
  let held := (engineOp s e).any (·.locked)
  let s1 := grantLocks s e
  match engineOp s1 e with
  | some x => .next (if x.engine = 9 ∧ !held ∧ x.locked then sendGet s1 x else s1)
  | none => .next s1

end Sys2Proof.Machine
end

