-- ==== Sys2Proof/Machine/Lane.lean ====
section
/-! DEFINITION. Lane and register instructions (R126 to R135). -/

namespace Sys2Proof.Machine

/-! `PGATH` (R127). -/

/-- The contributing partners of a lane by lane and whether q holds: `PGATH` reads predicates only, so a partner whose
other operand fails to resolve contributes all the same. -/
def gathered (f : Form) (s : State) (iss : Issue) (r : Ready) : List (Nat × Bool) :=
  iss.lanes.filterMap fun p =>
    match s.threads[p.2]? with
    | some th =>
      if groupIdOf s p.2 = groupIdOf s r.tid ∧ guardHolds th f then some (p.1, predOf th f.a.toNat != f.mod.getLsbD 2)
      else none
    | none => none

/-- Form 11's comparison of m with B, n partners contributing. -/
def gathTruth (cc : Nat) (m n b : Nat) : Bool :=
  match cc with
  | 0 => m = b
  | 1 => m ≠ b
  | 2 => m < b
  | 3 => m ≤ b
  | 4 => b < m
  | 5 => b ≤ m
  | 6 => m = n
  | _ => 0 < m ∧ m < n

/-- `PGATH`'s value of a register form. -/
def gathValue (form : Nat) (l : List (Nat × Bool)) : DWord :=
  let on := (l.filter (·.2)).map (·.1)
  if form = 0 then laneWord fun j => on.contains j
  else if form = 1 then BitVec.ofNat 64 on.length
  else BitVec.ofNat 64 (on.foldl min 32)

/-- `PGATH` (R127). -/
def execPgath (f : Form) (s : State) : Host.Outcome State Fault Refusal :=
  runLanes 0x80 f s fun iss _ s1 r =>
    let l := gathered f s iss r
    if modBits f.mod 1 0 = 3 then
      .ok s1 { preds := [(f.d.toNat, gathTruth (modBits f.mod 5 3) (l.filter (·.2)).length l.length (natLow 32 r.b))] }
    else .ok s1 { vals := valueWords 32 (gathValue (modBits f.mod 1 0) l) }

/-! `LXCH` (R128). -/

/-- The source lane of a lane, none when it is not valid. -/
def lxchSource (mode g lane : Nat) (b : DWord) : Option Nat :=
  let n := 2 ^ g
  let s0 := lane / n * n
  let r := lane - s0
  match mode with
  | 0 => some (s0 + natLow 32 b % n)
  | 1 => some (s0 + (((r : Int) - intLow true 32 b) % (n : Int)).toNat)
  | 2 =>
    let x : Int := (lane : Int) - intLow true 32 b
    if (s0 : Int) ≤ x ∧ x < ((s0 + n : Nat) : Int) then some x.toNat else none
  | _ => some (s0 + n - 1 - r)

/-- The value a lane takes. -/
def lxchValue (f : Form) (s : State) (iss : Issue) (r : Ready) : DWord :=
  match lxchSource (modBits f.mod 1 0) (modBits f.mod 4 2) r.lane r.b with
  | some j => (partnerA s iss (sigOf 0x81 f) f r j).getD r.a
  | none => r.a

/-- `LXCH` (R128). -/
def execLxch (f : Form) (s : State) : Host.Outcome State Fault Refusal :=
  runLanes 0x81 f s fun iss _ s1 r =>
    .ok s1 { vals := valueWords (if f.mod.getLsbD 5 then 64 else 32) (lxchValue f s iss r) }

/-- `MATCH` (R129). -/
def execMatchLanes (f : Form) (s : State) : Host.Outcome State Fault Refusal :=
  runLanes 0x82 f s fun _ ps s1 r =>
    let w := if f.mod.getLsbD 0 then 64 else 32
    .ok s1 { vals := valueWords 32 (laneWord fun j => (contributor s ps r j).any fun x => natLow w x.a = natLow w r.a) }

/-- `GRED` (R130). -/
def execGred (f : Form) (s : State) : Host.Outcome State Fault Refusal :=
  runLanes 0x83 f s fun _ ps s1 r =>
    let v := gredTree (f.mod.extractLsb' 0 2) (f.mod.extractLsb' 2 3)
      ((List.range 32).map fun j => (contributor s ps r j).map (·.a))
    .ok s1 { vals := valueWords 32 v.bits, flags := v.flags }

/-- The width MOD[0] selects. -/
def width0 (f : Form) : Nat := if f.mod.getLsbD 0 then 64 else 32

/-- `MOV` (R131). -/
def execMov (f : Form) (s : State) : Host.Outcome State Fault Refusal := runValue 0x84 f s (width0 f) (·.a)

/-- `MOVK` (R132): each group's lowest completing lane writes, from the lane that its B names where that one
completes. -/
def execMovk (f : Form) (s : State) : Host.Outcome State Fault Refusal :=
  runLanes 0x85 f s fun _ ps s1 r =>
    .ok s1 { vals := valueWords (width0 f) (((contributor s ps r (natLow 32 r.b % 32)).map (·.a)).getD r.a) }

/-- `MOVI` (R131). -/
def execMovi (f : Form) (s : State) : Host.Outcome State Fault Refusal :=
  runValue 0x86 f s (width0 f) fun _ => f.x2 ++ f.x1

/-! Index registers (R133, R134). -/

/-- Sets one of a thread's index registers. -/
def setX (s : State) (t k : Nat) (x : XReg) : State := modThread s t fun th => { th with xs := setAt th.xs k x }

/-- `XSET` of a lane (R133); the index registers its operands advanced are already in `r`. -/
def xsetReg (f : Form) (wb : Nat) (a b : DWord) : Option XReg :=
  let anchor := f.mod.getLsbD 0
  let base := natLow 12 a + (if anchor then wb else 0)
  if 4095 < base then none
  else some ⟨anchor, b.extractLsb' 0 10, a.extractLsb' 22 6, a.extractLsb' 12 10, BitVec.ofNat 12 base⟩

/-- `XSET` (R133). -/
def execXset (f : Form) (s : State) : Host.Outcome State Fault Refusal :=
  runLanes 0x87 f s fun _ _ s r =>
    match xsetReg f (((s.threads[r.tid]?).map (·.wb)).getD 0) r.a r.b with
    | none => .trap ⟨cIDXB, 0, f.d.toNat, 0⟩
    | some x => .ok s { xset := some (f.d.toNat, x) }

/-- The image of an index register (R22). -/
def xImage (x : XReg) : DWord :=
  BitVec.ofNat 64 (x.base.toNat + 2 ^ 12 * x.bound.toNat + 2 ^ 22 * x.stride.toNat + 2 ^ 28 * x.offset.toNat
    + 2 ^ 38 * (if x.anchor then 1 else 0))

/-- The index register `XGET` reads: as it stands before D is resolved (R7, R24). -/
def xgetValue (f : Form) (s : State) (t : Nat) : DWord :=
  (((s.threads[t]?).bind fun th => th.xs[f.a.toNat]?).map xImage).getD 0

/-- `XGET` (R134). -/
def execXget (f : Form) (s : State) : Host.Outcome State Fault Refusal :=
  runLanes 0x88 f s fun _ _ s r => .ok s { vals := valueWords 64 (xgetValue f s r.tid) }

/-- `XADJ`'s change (R134). -/
def xadjReg (mode : Nat) (x : XReg) (a : DWord) : XReg :=
  if mode = 0 then { x with offset := a.extractLsb' 0 10 }
  else if mode = 1 then { x with offset := x.offset + a.extractLsb' 0 10 }
  else { x with stride := a.extractLsb' 0 6 }

/-- `XADJ` (R134). -/
def execXadj (f : Form) (s : State) : Host.Outcome State Fault Refusal :=
  runLanes 0x89 f s fun _ _ s r =>
    .ok s { xset := (r.xs[f.d.toNat]?).map fun x => (f.d.toNat, xadjReg (modBits f.mod 1 0) x r.a) }

/-! `RCPY` (R135). -/

/-- `RCPY` of a lane: the registers read before the instruction go to D's range (R7, R135). -/
def rcpyLane (s : State) (r : Ready) : LaneOut := .ok s { vals := r.vals }

/-- `RCPY` (R135). -/
def execRcpy (f : Form) (s : State) : Host.Outcome State Fault Refusal :=
  runLanes 0x8A f s fun _ _ s r => rcpyLane s r

end Sys2Proof.Machine
end

