-- ==== Sys2Proof/Machine/Window.lean ====
section
/-! DEFINITION. The window spill unit, `SPILLW` and `FILLW` (R18, R19, R27, R86, R209, R219, R232, R233, R362). -/

namespace Sys2Proof.Machine

/-- BackBase of a thread's group (R219). -/
def backBase (s : State) (t : Nat) : Nat := ((groupOf s t).map (·.privBase)).getD 0 + 32 * (launchOf s t).privlim

/-- The lane of a thread. -/
def laneOf (s : State) (t : Nat) : Nat := ((s.threads[t]?).map (·.lane)).getD 0

/-- Where a stack position is kept (R219). -/
def posAddr (s : State) (t pos : Nat) : Nat := backBase s t + (pos * 32 + laneOf s t) * 4

/-- Where the frame record of a depth is kept (R219). -/
def frameAddr (s : State) (t d : Nat) : Nat :=
  backBase s t + 128 * (launchOf s t).bspos + (d * 32 + laneOf s t) * 32

/-- The frame of a depth. -/
def frameOf (th : Thread) (d : Nat) : Frame := (th.frames.reverse[d]?).getD ⟨0, 0, none⟩

/-- Replaces the frame of a depth. -/
def setFrame (th : Thread) (d : Nat) (f : Frame) : Thread := { th with frames := (th.frames.reverse.set d f).reverse }

/-- The 32 bytes of a frame record (R219). -/
def frameBytes (f : Frame) : List Byte :=
  let (a, b, n, on) := match f.loop with
    | some l => (l.start, l.stop, l.remaining.toNat, 1)
    | none => (0, 0, 0, 0)
  bytesOf 8 f.ret.toNat ++ bytesOf 8 a.toNat ++ bytesOf 8 b.toNat ++ bytesOf 8 (n + 2 ^ 32 * on + 2 ^ 33 * (f.slide % 1024))

/-- The frame that a record's bytes hold. -/
def frameOfBytes (bs : List Byte) : Frame :=
  let w (i : Nat) : Nat := bitsOfBytes ((bs.drop (8 * i)).take 8)
  ⟨BitVec.ofNat 64 (w 0), w 3 / 2 ^ 33 % 1024,
    if w 3 / 2 ^ 32 % 2 = 1 then some ⟨BitVec.ofNat 64 (w 1), BitVec.ofNat 64 (w 2), BitVec.ofNat 32 (w 3), 0⟩ else none⟩

/-- One past the last position of the frame of a depth. -/
def frameEnd (th : Thread) (w d : Nat) : Nat := if d < depthOf th then baseAt th (d + 1) else th.wb + w

/-- Positions of the frame of a depth. -/
def framePositions (th : Thread) (w d : Nat) : List Nat :=
  (List.range (frameEnd th w d - baseAt th d)).map (baseAt th d + ·)

/-- STKLIM for a frame that the backing store cannot hold (R232). -/
def backLimit (s : State) (t : Nat) (th : Thread) (d : Nat) : Option TrapInfo :=
  let l := launchOf s t
  if l.bsdepth ≤ d ∨ l.bspos < frameEnd th l.window d then some ⟨cSTKLIM, d, 0, l.bspos⟩ else none

/-- Why an access of the unit is not made: a trap, or a wait behind a lock of the thread's own copy (R154, R232). -/
inductive UnitStop where
  | trap (i : TrapInfo)
  | hold (w : Wait)
  deriving DecidableEq, Repr

/-- A store of the unit, one of the thread's own private accesses: write-back through its core's L1 (R219, R244). -/
def unitStore (s : State) (t va : Nat) (bs : List Byte) : Except UnitStop State :=
  match storeChecks s (ctxOf s t) (some t) va bs.length with
  | .trap i => .error (.trap i)
  | .hold w => .error (.hold w)
  | .ok ps x ks =>
    if ownCopyMeets s t ps then .error (.hold .ownLock)
    else
      let (d, c) := coreOf s t
      let (s, ts) := storePieces s d c (ctxOf s t) ps bs x.ms true (((s.threads[t]?).map (·.ptime)).getD 0)
      .ok (raisePtime (retagAll s (pieceWholes ps) ks) t ts)

/-- A load of a thread's own through its core's L1, under a policy (R244), expanded where it lies in a data page of an
LBC group (R254, R255). -/
def ownLoad (s : State) (t va n : Nat) (wb : Bool) : Except UnitStop (State × List Byte) :=
  match rangeChecks s (ctxOf s t) (some t) va needR [] [(va, n)] with
  | .trap i => .error (.trap i)
  | .hold w => .error (.hold w)
  | .ok ps x _ =>
    if ownCopyMeets s t ps then .error (.hold .ownLock)
    else if badHeader s x then .error (.trap ⟨cMEMERR, va, 0, 0⟩)
    else
      let (d, c) := coreOf s t
      let (s1, bs) := loadPieces s t d c (ctxOf s t) ps x.ms wb
      .ok (s1, if lbcData x then ps.flatMap fun p => lbcBytes s p.1 p.2 else bs)

/-- A load of the unit (R219, R244). -/
def unitLoad (s : State) (t va n : Nat) : Except UnitStop (State × List Byte) := ownLoad s t va n true

/-- The mark of a poisoned register goes with its word (R362). -/
def markPoison (s : State) (t va : Nat) : State :=
  match translate s (ctxOf s t) va with
  | .ok x => markPut s { markOf s (x.pa / 64) with poison := true }
  | .pagef | .prot => s

/-- Writes some positions of a thread to their places. -/
def storePositions (t : Nat) : List Nat → State → Except UnitStop State
  | [], s => .ok s
  | p :: ps, s =>
    match s.threads[t]? with
    | none => .ok s
    | some th =>
      match unitStore s t (posAddr s t p) (bytesOf 4 (stackReg th p).toNat) with
      | .error i => .error i
      | .ok s => storePositions t ps (if th.poison.contains p then markPoison s t (posAddr s t p) else s)

/-- Writes frames to the backing store in order: the state after what has been written, and what stopped it
(R232). -/
def spillFrames (t : Nat) : List Nat → State → State × Option UnitStop
  | [], s => (s, none)
  | d :: ds, s =>
    match s.threads[t]? with
    | none => (s, none)
    | some th =>
      match backLimit s t th d with
      | some i => (s, some (.trap i))
      | none =>
        match storePositions t (framePositions th (windowOf s t) d) s with
        | .error i => (s, some i)
        | .ok s1 =>
          match unitStore s1 t (frameAddr s1 t d) (frameBytes (frameOf th d)) with
          | .error i => (s1, some i)
          | .ok s2 => spillFrames t ds s2

/-- Reads some positions of a thread back. -/
def loadPositions (t : Nat) : List Nat → State → Except UnitStop State
  | [], s => .ok s
  | p :: ps, s =>
    match unitLoad s t (posAddr s t p) 4 with
    | .error i => .error i
    | .ok (s, bs) => loadPositions t ps (modThread s t fun th => setStack th p (BitVec.ofNat 32 (bitsOfBytes bs)))

/-- Reads one frame back, its record first. -/
def fillFrame (s : State) (t d : Nat) : Except UnitStop State :=
  match unitLoad s t (frameAddr s t d) 32 with
  | .error i => .error i
  | .ok (s, bs) =>
    let s := modThread s t fun th => setFrame th d (frameOfBytes bs)
    match s.threads[t]? with
    | none => .ok s
    | some th =>
      match loadPositions t (framePositions th (windowOf s t) d) s with
      | .error i => .error i
      | .ok s => .ok (modThread s t fun th => { th with resident := d })

/-- Reads frames back from the resident run down to a depth. -/
def fillDown (t : Nat) : Nat → Nat → State → Except UnitStop State
  | 0, _, s => .ok s
  | n + 1, d, s =>
    match s.threads[t]? with
    | none => .ok s
    | some th =>
      if th.resident ≤ d then .ok s
      else
        match fillFrame s t (th.resident - 1) with
        | .error i => .error i
        | .ok s => fillDown t n d s

/-- Frames from the bottom of the resident run that leave it so that the span plus n is at most Q. -/
def spillCount (th : Thread) (w q n : Nat) : Nat :=
  ((List.range (depthOf th + 1 - th.resident)).find? fun k =>
    th.wb + w - baseAt th (th.resident + k) + n ≤ q).getD (depthOf th + 1 - th.resident)

/-- Whether a thread's accesses, and its pending registers among some positions, let the unit move frames now. -/
def unitReady (s : State) (t : Nat) (ps : List Nat) : Bool := !hasAccess s t && !anyPending s t ps []

/-- A trap that a waiting thread takes at the instruction at which it waits. -/
def waitingReq (s : State) (t : Nat) (th : Thread) (i : TrapInfo) : TrapReq :=
  let bs := ((blockFor s t th).map (codeBytes th)).getD []
  let n := match bitsOfBytes (bs.take 1) % 4 with
    | 0 => 8
    | 1 => 12
    | _ => 16
  ⟨t, i, th.pc, n, BitVec.ofNat 64 (bitsOfBytes (bs.take 8)), BitVec.ofNat 64 (bitsOfBytes ((bs.take n).drop 8)), [t]⟩

/-- A waiting thread takes a trap. -/
def waitingTrap (s : State) (t : Nat) (i : TrapInfo) : State :=
  match s.threads[t]? with
  | some th => takeTraps (holdAt s t .ready) [waitingReq s t th i]
  | none => s

/-- The depths of the frames that a SPILL for a call of slide n writes (R232). -/
def spillDepths (s : State) (t n : Nat) (th : Thread) : List Nat :=
  (List.range (spillCount th (windowOf s t) (resvOf s t) n)).map (th.resident + ·)

/-- Whether the unit can serve a waiting thread now. -/
def windowReady (s : State) (t : Nat) (th : Thread) : Bool :=
  match th.wait with
  | .spill n => unitReady s t ((spillDepths s t n th).flatMap (framePositions th (windowOf s t)))
  | .fill _ => unitReady s t []
  | _ => false

/-- SPILL (R232): the fewest bottom frames, then the `CALL` replays. -/
def spillUnit (s : State) (t : Nat) : State :=
  match s.threads[t]? with
  | none => s
  | some th =>
    match th.wait with
    | .spill n =>
      let ds := spillDepths s t n th
      if windowReady s t th then
        match spillFrames t ds s with
        | (s, some (.trap i)) => waitingTrap s t i
        | (_, some (.hold _)) => s
        | (s, none) => modThread s t fun th => becomeReady { th with resident := th.resident + ds.length } (s.clk + 1)
      else s
    | _ => s

/-- FILL (R27, R232): every frame from the resident run down to the one named, then the instruction replays. -/
def fillUnit (s : State) (t : Nat) : State :=
  match s.threads[t]? with
  | none => s
  | some th =>
    match th.wait with
    | .fill d =>
      if windowReady s t th then
        match fillDown t (th.resident + 1) d s with
        | .error (.trap i) => waitingTrap s t i
        | .error (.hold _) => s
        | .ok s => modThread s t fun th => becomeReady th (s.clk + 1)
      else s
    | _ => s

/-- SPILL. -/
def execSpill (t : Nat) (s : State) : Host.Outcome State Fault Refusal := .next (spillUnit s t)

/-- FILL. -/
def execFill (t : Nat) (s : State) : Host.Outcome State Fault Refusal := .next (fillUnit s t)

/-- `SPILLW` in a lane (R209): every resident frame is written, and none stays resident. -/
def spillwLane (s : State) (r : Ready) : LaneOut :=
  match s.threads[r.tid]? with
  | none => .ok s {}
  | some th =>
    let ds := (List.range (depthOf th + 1 - th.resident)).map (th.resident + ·)
    let ps := ds.flatMap (framePositions th (windowOf s r.tid))
    if hasAccess s r.tid then .hold .accesses
    else if anyPending s r.tid ps [] then .hold (.pending ps [])
    else
      match spillFrames r.tid ds s with
      | (_, some (.trap i)) => .trap i
      | (_, some (.hold w)) => .hold w
      | (s, none) => .ok (modThread s r.tid fun th => { th with resident := depthOf th + 1 }) {}

/-- `SPILLW` (R209). -/
def execSpillw (f : Form) (s : State) : Host.Outcome State Fault Refusal :=
  runLanes 0xF5 f s fun _ _ s r => spillwLane s r

/-- STKLIM of the first frame that `FILLW` would bring back from beyond the backing store, or past Q (R27, R209). -/
def fillLimit (s : State) (t : Nat) (th : Thread) (d : Nat) : Option TrapInfo :=
  match ((List.range (th.resident - d)).map (d + ·)).reverse.findSome? (backLimit s t th) with
  | some i => some i
  | none =>
    let need := th.wb + windowOf s t - baseAt th d
    if resvOf s t < need ∧ d < th.resident then some ⟨cSTKLIM, d, 0, need⟩ else none

/-- `FILLW` in a lane (R209): the top frames come back. -/
def fillwLane (s : State) (r : Ready) : LaneOut :=
  match s.threads[r.tid]? with
  | none => .ok s {}
  | some th =>
    let n := max 1 (min (natLow 32 r.a) (depthOf th + 1))
    let d := depthOf th + 1 - n
    if hasAccess s r.tid then .hold .accesses
    else
      match fillLimit s r.tid th d with
      | some i => .trap i
      | none =>
        match fillDown r.tid (th.resident + 1) d s with
        | .error (.trap i) => .trap i
        | .error (.hold w) => .hold w
        | .ok s => .ok s {}

/-- `FILLW` (R209). -/
def execFillw (f : Form) (s : State) : Host.Outcome State Fault Refusal :=
  runLanes 0xF6 f s fun _ _ s r => fillwLane s r

end Sys2Proof.Machine
end

