-- ==== Sys2Proof/Machine/System.lean ====
section
/-! DEFINITION. The system instructions (R39, R56, R204 to R214) and a team that has been saved (R348). -/

namespace Sys2Proof.Machine

/-! System registers (R39, R205). -/

/-- The site map of a die: the fused one without the sites lost since reset (R39). -/
def siteMap (s : State) (d : Nat) : DWord :=
  match s.dies[d]? with
  | none => 0
  | some k =>
    if k.lost then 0
    else
      (List.range 48).foldl (fun m i => if (coreAt s d i).lost then m &&& ~~~ (BitVec.ofNat 64 (2 ^ i)) else m)
        (k.sitemap &&& 0xFFFFFFFFFFFF#64)

/-- What `MFS` reads in a thread. -/
def sysregRead (s : State) (t n : Nat) : DWord :=
  let cx (f : Context → DWord) : DWord := ((contextOf s t).map f).getD 0
  match n with
  | 0x000 => cx (·.trapvec)
  | 0x001 => cx (·.traprec)
  | 0x002 => ((groupOf s t).map fun g => g.fpctl.zeroExtend 64).getD 0
  | 0x003 => cx fun c => c.srseed.zeroExtend 64
  | 0x004 => cx fun c => BitVec.ofNat 64 c.ctxid
  | 0x005 => cx fun c => BitVec.ofNat 64 c.keyid
  | 0x006 => cx fun c => BitVec.ofNat 64 c.peatwc
  | 0x007 => cx fun c => BitVec.ofNat 64 c.aliashot
  | 0x008 => cx fun c => BitVec.ofNat 64 c.leasemax
  | 0x009 => cx (·.budget)
  | 0x00A => BitVec.ofNat 64 (privLimit s t)
  | 0x00B => cx fun c => c.fadeper.zeroExtend 64
  | 0x00C => ((teamOf s t).map fun m => m.pos.zeroExtend 64).getD 0
  | 0x00D => siteMap s 0
  | 0x00E => siteMap s 1
  | 0x00F => siteMap s 2
  | 0x010 => siteMap s 3
  | _ => 0

/-- `MFS` (R205). -/
def execMfs (f : Form) (s : State) : Host.Outcome State Fault Refusal :=
  runLanes 0xF0 f s fun _ _ s r =>
    .ok s { vals := valueWords (if sysregIs64 f.a.toNat then 64 else 32) (sysregRead s r.tid f.a.toNat) }

/-- `BUDGET` as it stores a value (R340). -/
def budgetOf (v : DWord) : DWord :=
  let cores := v.toNat / 256 % 256
  (v &&& 0x0000FFFFFFFF0000#64) ||| BitVec.ofNat 64 (min cores 176 * 256)

/-- `FPCTL` as it stores a value (R56). -/
def fpctlOf (v : Word) : Word :=
  let rm := v.toNat / 256 % 8
  BitVec.ofNat 32 (v.toNat % 32 + (if 6 ≤ rm then 0 else rm) * 256)

/-- A context after `MTS` of one of its registers (R39). -/
def ctxRegWrite (c : Context) (n : Nat) (v : DWord) : Context :=
  match n with
  | 0x000 => { c with trapvec := v &&& ~~~ 0x3F#64 }
  | 0x001 => { c with traprec := v &&& ~~~ 0xFF#64 }
  | 0x003 => { c with srseed := if v.truncate 32 = 0#32 then 1 else v.truncate 32 }
  | 0x004 => { c with ctxid := v.toNat % 65536 }
  | 0x005 => { c with keyid := v.toNat % 256 }
  | 0x006 => { c with peatwc := v.toNat % 4096 }
  | 0x007 => { c with aliashot := v.toNat % 65536 }
  | 0x008 =>
    let x := v.toNat % 2 ^ 32
    { c with leasemax := if x = 0 ∨ 8 < x then 8 else x }
  | 0x009 => { c with budget := budgetOf v }
  | 0x00A => { c with privlim := v.truncate 32 }
  | 0x00B => { c with fadeper := v.truncate 32 }
  | _ => c

/-- The generators of a context load `SRSEED` again (R53). -/
def reseed (s : State) (c : Nat) : State :=
  { s with
    cores := s.cores.map fun k => { k with gens := k.gens.filter fun g => g.ctx ≠ c }
    sluices := s.sluices.filter fun p => p.2.1 ≠ c }

/-- Whether a prepared lane is active. -/
def isReady (p : Nat × Prep) : Bool := match p.2 with | .ready _ => true | .inactive | .hold _ | .trap _ => false

/-- Whether a thread is the lowest active lane of an issue group, or of its own group in it (R205). -/
def writesSysreg (s : State) (ps : List (Nat × Prep)) (n t : Nat) : Bool :=
  let g (x : Nat) : Option Nat := (s.threads[x]?).map (·.group)
  ((ps.find? fun p => isReady p && (n ≠ 2 || g p.1 = g t)).map (·.1)) = some t

/-- `MTS` in a lane. A write of `FADEPER` begins a period (R252; log 119). -/
def mtsLane (n : Nat) (ps : List (Nat × Prep)) (s : State) (r : Ready) : LaneOut :=
  if writesSysreg s ps n r.tid then
    if n = 2 then
      .ok (modGroup s (((s.threads[r.tid]?).map (·.group)).getD 0) fun g => { g with fpctl := fpctlOf (r.a.truncate 32) }) {}
    else
      let c := ctxOf s r.tid
      let s := modCtx s c fun k => ctxRegWrite (if n = 0x00B then { k with fadeClk := s.clk } else k) n r.a
      .ok (if n = 3 then reseed s c else s) {}
  else .ok s {}

/-- `MTS` (R205). -/
def execMts (f : Form) (s : State) : Host.Outcome State Fault Refusal :=
  runLanes 0xF1 f s fun _ ps s r => mtsLane f.d.toNat ps s r

/-! `RTT` (R206, R85, R87). -/

/-- A thread with a window base and depth again; frames opened since are gone (R17). -/
def rewind (s : State) (t wb d : Nat) : State :=
  match s.threads[t]? with
  | none => s
  | some th =>
    let k := depthOf th - d
    let s := modThread s t fun th => { th with wb := wb, frames := th.frames.drop k }
    if wb < th.wb then undefStack s t (wb + windowOf s t) (th.wb - wb) else s

/-- Bytes of an instruction whose first word ends in a length code (R64). -/
def lengthOf (w : Nat) : Nat := match w % 4 with | 0 => 8 | 1 => 12 | _ => 16

/-- `RTT` in a lane: it reads its group's record. It jumps to the PC it finds there: a PC whose low bits are not zero is
taken as it stands, and one at the end of a loop's body counts no iteration (R98; logs 41, 114). -/
def rttLane (f : Form) (s : State) (r : Ready) : LaneOut :=
  match (groupOf s r.tid).bind (·.record), s.threads[r.tid]? with
  | some b, some th =>
    if b.mask.getLsbD th.lane = false then .trap (trapAt cILLOPND 0)
    else if hasAccess s r.tid then .hold .accesses
    else
      match ownLoad s r.tid b.addr 256 false with
      | .error (.trap i) => .trap i
      | .error (.hold w) => .hold w
      | .ok (s, bs) =>
        let w (off n : Nat) : Nat := bitsOfBytes ((bs.drop off).take n)
        let pc : DWord :=
          if f.mod.getLsbD 0 then BitVec.ofNat 64 (w 0x08 8 + lengthOf (w 0x40 8)) else BitVec.ofNat 64 (w 0x10 8)
        let s := rewind s r.tid (w (0x60 + 2 * th.lane) 2 % 4096) (w (0xA0 + 2 * th.lane) 2 % 4096)
        let s := leaveRecord (modThread s r.tid fun th => { th with handler := none }) r.tid
        .ok s { next := .jump pc }
  | _, _ => .trap (trapAt cILLOPND 0)

/-- `RTT` (R206). -/
def execRtt (f : Form) (s : State) : Host.Outcome State Fault Refusal :=
  runLanes 0xF2 f s fun _ _ s r => rttLane f s r

/-! `CTXSV` and `CTXRS` (R207, R208, R347 to R350). -/

/-- A hold name's image (R207). -/
def holdImage (h : HoldName) : Nat :=
  match h with
  | .none => 0
  | .vec p => p % 4096 + 4096
  | .uni k => k % 4096 + 2 * 4096

/-- The hold name of an image. -/
def holdOfImage (n : Nat) : HoldName :=
  match n / 4096 % 4 with
  | 1 => .vec (n % 4096)
  | 2 => .uni (n % 4096)
  | _ => .none

/-- The thread part: 256 bytes. -/
def threadPart (s : State) (t : Nat) (next : DWord) : List Byte :=
  match s.threads[t]? with
  | none => List.replicate 256 0
  | some th =>
    let q := resvOf s t
    bytesOf 8 ((th.resumePc).getD next).toNat
      ++ bytesOf 8 (th.wb % 4096 + 2 ^ 12 * (depthOf th % 4096) + 2 ^ 32 * q)
      ++ bytesOf 8 th.ptime
      ++ bytesOf 8 (th.preds.toNat + 2 ^ 16 * holdImage th.hold1 + 2 ^ 32 * holdImage th.hold2 + 2 ^ 48 * holdImage th.hold3)
      ++ bytesOf 8 th.tl
      ++ ((List.range 16).flatMap fun i => bytesOf 8 ((th.xs[i]?).map xImage |>.getD 0).toNat)
      ++ bytesOf 8 (residentSpan th (windowOf s t))
      ++ List.replicate 80 0

/-- The group part: 512 bytes. -/
def groupPart (s : State) (t : Nat) : List Byte :=
  match groupOf s t, s.threads[t]? with
  | some g, some th =>
    let ks := if th.routine = .save then setUnis g.ks 0 (valueWords 64 g.savedK) else g.ks
    ((List.range 96).flatMap fun i => bytesOf 4 ((ks[i]?).getD 0).toNat)
      ++ bytesOf 8 g.fpctl.toNat ++ bytesOf 8 (launchOf s t).ucount ++ List.replicate 112 0
  | _, _ => List.replicate 512 0

/-- A mask of the entries that a team holds. -/
def claimMask (l : List (Option Nat)) (m : Nat) : Nat :=
  (List.range l.length).foldl (fun n i => if ((l[i]?).getD none) = some m then n + 2 ^ i else n) 0

/-- The image of a convergence register. -/
def convImage (c : Conv) : List Byte :=
  let pend := c.sigs.filter (·.nb)
  let w := match pend with
    | g :: _ => wordBits g.opc g.form
    | [] => 0
  bytesOf 4 (c.count.getD 0) ++ bytesOf 4 pend.length ++ bytesOf 8 (w.extractLsb' 0 64).toNat
    ++ bytesOf 8 (match pend with | g :: _ => g.cval.toNat | [] => 0) ++ bytesOf 8 (w.extractLsb' 64 64).toNat

/-- The image of a completion queue. -/
def queueImage (q : CQueue) : List Byte :=
  (List.range 256).flatMap fun i => match q.entries[i]? with
    | some e => (entryWords e).flatMap fun w => bytesOf 4 w.toNat
    | none => List.replicate 16 0

/-- The team part: 17,408 bytes. -/
def teamPart (s : State) (t : Nat) : List Byte :=
  let m := teamIdOf s t
  match s.teams[m]? with
  | none => List.replicate 17408 0
  | some tm =>
    let c := coreAt s tm.die tm.site
    let l := launchOf s t
    bytesOf 8 (claimMask (c.slots.map (·.claim)) m)
      ++ bytesOf 8 (claimMask (c.accs.map (·.claim)) m + 2 ^ 16 * claimMask (c.mqs.map (·.claim)) m)
      ++ bytesOf 8 (l.resv + 2 ^ 16 * l.groups + 2 ^ 24 * l.ucount + 2 ^ 32 * l.bhi)
      ++ List.replicate 8 0
      ++ ((List.range 16).flatMap fun i => convImage ((tm.convs[i]?).getD ⟨none, []⟩))
      ++ List.replicate 480 0
      ++ ((List.range 4).flatMap fun i => queueImage ((tm.queues[i]?).getD ⟨[], 0⟩))

/-- Bytes of an image from a base at an offset, as a store of the lane through its core's L1 (R207, R244). -/
def partStore (s : State) (t a off : Nat) (bs : List Byte) : Except UnitStop State :=
  if 2 ^ 57 < a + off + bs.length then .error (.trap (trapAt cPROT (a + off))) else unitStore s t (a + off) bs

/-- A team part has been stored: the completion queues' entries that it holds. -/
def noteSaved (s : State) (m : Nat) : State :=
  modTeam s m fun tm => { tm with cqSaved := tm.queues.map (·.entries.length) }

/-- `CTXSV` in a lane: it waits for ld, st and cp and for what else the thread has outstanding, then stores the parts in
order. -/
def ctxsvLane (iss : Issue) (f : Form) (s : State) (r : Ready) : LaneOut :=
  match s.threads[r.tid]? with
  | none => .ok s {}
  | some th =>
    if th.ld ≠ 0 ∨ th.st ≠ 0 ∨ th.cp ≠ 0 then .hold (.counters (some 0) (some 0) (some 0) none)
    else if hasAccess s r.tid then .hold .accesses
    else
      let next := iss.pc + BitVec.ofNat 64 f.len.bytes
      let part (i off : Nat) (bs : State → List Byte) (x : Except UnitStop State) : Except UnitStop State :=
        match x with
        | .ok s => if f.mod.getLsbD i then partStore s r.tid r.a.toNat off (bs s) else .ok s
        | .error e => .error e
      match part 2 0x300 (fun s => teamPart s r.tid) (part 1 0x100 (fun s => groupPart s r.tid)
          (part 0 0 (fun _ => threadPart s r.tid next) (.ok s))) with
      | .ok s => .ok (if f.mod.getLsbD 2 then noteSaved s (teamIdOf s r.tid) else s) {}
      | .error (.trap i) => .trap i
      | .error (.hold w) => .hold w

/-- `CTXSV` (R207). -/
def execCtxsv (f : Form) (s : State) : Host.Outcome State Fault Refusal :=
  runLanes 0xF3 f s fun iss _ s r => ctxsvLane iss f s r

/-! A team off its core (R348). -/

/-- What a core held for a team is free; its scratchpad frames stay (R241, R348). What its threads' outstanding loads
return goes nowhere, as after `EXIT` (R96); queue entries that the saved part holds come back with it. -/
def unloadTeam (s : State) (m b : Nat) : State :=
  match s.teams[m]? with
  | none => s
  | some tm =>
    let s := (teamThreads s m).foldl (fun s t =>
      { modThread s t (fun th => { th with regs := [], poison := [], scratch := [], seed := s.seed, handler := none,
                                           routine := .none, wait := .ready }) with seed := s.seed + 1 }) s
    let s := { s with accs := s.accs.map fun a => if (teamThreads s m).contains a.tid then { a with dest := .none } else a }
    let s := tm.groups.foldl (fun s g => modGroup s g fun k => { k with record := none }) s
    let s := modTeam s m fun t =>
      { t with
        phase := .saved b
        partRestored := false
        episode := none
        queues := t.queues.mapIdx fun i q => { q with entries := q.entries.drop ((t.cqSaved[i]?).getD 0) }
        cqSaved := []
        convs := t.convs.map fun c => { c with count := none } }
    modCore s tm.die tm.site fun c => releaseClaims c m

/-- Whether a thread has ended its team's save routine, or has exited. -/
def routineOver (s : State) (t : Nat) : Bool := ((s.threads[t]?).map fun th => th.exited || decide (th.routine = .none)).getD true

/-- A save block is free again. -/
def freeBlock (s : State) (m b : Nat) : State :=
  modCtx s (teamCtx s m) fun k => { k with blocksUsed := k.blocksUsed.filter (· ≠ b) }

/-- A team begins to give up its core: it waits for its groups' records (R346). -/
def beginPreempt (s : State) (m b : Nat) : State :=
  modTeam (modCtx s (teamCtx s m) fun k => { k with blocksUsed := b :: k.blocksUsed }) m fun t => { t with phase := .preempting b none }

/-- The free save blocks of a context, lowest first. -/
def freeBlocks (s : State) (c n : Nat) : List Nat :=
  match s.contexts[c]? with
  | none => []
  | some k => ((List.range (k.blocksUsed.length + n)).filter fun b => b < k.nblk && !k.blocksUsed.contains b).take n

/-- The save-block header (R346). -/
def headerBytes (s : State) (m : Nat) : List Byte :=
  match s.teams[m]? with
  | none => []
  | some tm =>
    let (h, n) := match (s.grids[tm.grid]?).bind (·.node) with
      | some (g, n) => ((s.graphs[g]?.map fun (x : Graph) => x.handle.toNat).getD 0, n)
      | none => (0, 0)
    bytesOf 8 tm.index ++ bytesOf 8 (h + 2 ^ 32 * n) ++ bytesOf 8 (2 ^ 8 * tm.rank + (tm.groups.length - 1))
      ++ List.replicate 40 (0 : Byte)
      ++ (List.range 48).flatMap fun i => bytesOf 4 (match tm.groups[i]? with
        | some g => (laneMask s ((groupThreads s g).filter fun t => !threadExited s t)).toNat
        | none => 0)

/-- Where a team stands. -/
def phaseOf (s : State) (m : Nat) : TeamPhase := ((s.teams[m]?).map fun t => t.phase).getD .complete

/-- The save block of a team in its restore routine. -/
def restoreBlock (p : TeamPhase) : Option Nat := match p with | .restoring b => some b | _ => none

/-- The save block of a saved team. -/
def savedBlock (p : TeamPhase) : Option Nat := match p with | .saved b => some b | _ => none

/-- The stores of a team's save-block header: a page that is not there makes a fault of the dispatcher, and the team
writes its header once the page has come; any other trap of them stops the context (R87, R346, R353). -/
def writeHeader (s : State) (c m b : Nat) : State :=
  match virtStore s c (blockAddr s c b) (headerBytes s m) 0 with
  | .ok (s, _) => modTeam s m fun t => { t with phase := .preempting b none }
  | .error i =>
    if i.code = cPAGEF then
      let tail := ((s.contexts[c]?).map (·.fqTail)).getD 0
      let s := match (s.teams[m]?).bind fun t => t.groups.head?, liveThreads s m with
        | some g, t :: _ => faultEntry s c g ⟨t, i, 0, 0, 0, 0, []⟩ []
        | _, _ => s
      modTeam s m fun t => { t with phase := .preempting b (some tail) }
    else stopContext s c cPREEMPT i.addr [] (some i.code)

/-- The cluster's teams that are to be pre-empted. -/
def preemptable (s : State) (ms : List Nat) : List Nat :=
  ms.filter fun m => decide (phaseOf s m = .resident) && !(liveThreads s m).isEmpty

/-- A cluster with a resident team is pre-empted whole, or stays when a team of it finds no save block (R346). A team in
its restore routine ends the routine first, and the cluster is pre-empted then (log 120); a stopped context's threads
stay as they are (R344). -/
def preemptCluster (s : State) (k : Nat) : State :=
  match s.clusters[k]? with
  | none => s
  | some cl =>
    let ms := preemptable s cl.teams
    let c := teamCtx s (ms.headD 0)
    let bs := freeBlocks s c ms.length
    if bs.length < ms.length ∨ ((s.contexts[c]?).map (·.stopped)).getD true
        ∨ cl.teams.any (fun m => (restoreBlock (phaseOf s m)).isSome && !(liveThreads s m).isEmpty) then s
    else (ms.zip bs).foldl (fun s p => writeHeader (beginPreempt s p.1 p.2) c p.1 p.2) s

/-- A team that waits to be pre-empted takes PREEMPT when it can; a fault of its stores has it write its header
again (R346, R353). -/
def preemptStep (s : State) (m : Nat) : State :=
  match phaseOf s m with
  | .preempting b (some _) =>
    let s := writeHeader s (teamCtx s m) m b
    if phaseOf s m = .preempting b none then takePreempt s m else s
  | _ => takePreempt s m

/-- Whether a cluster whose restore has ended is to leave again: its context is held, or a team of it is saved (R346). -/
def leavesAgain (s : State) (k : Nat) : Bool :=
  match s.clusters[k]? with
  | none => false
  | some cl => cl.teams.any fun m => (savedBlock (phaseOf s m)).isSome || ((s.contexts[teamCtx s m]?).map (·.held)).getD false

/-- A team whose threads have all ended its routine is saved, or runs again (R210, R348). -/
def routineEnds (s : State) (m : Nat) : State :=
  match s.teams[m]? with
  | none => s
  | some tm =>
    if !((teamThreads s m).all (routineOver s)) then s
    else
      match tm.phase with
      | .saving b => if (liveThreads s m).isEmpty then freeBlock s m b else unloadTeam s m b
      | .restoring b =>
        let s := freeBlock (modTeam s m fun t => { t with phase := .resident }) m b
        if leavesAgain s tm.cluster then preemptCluster s tm.cluster else s
      | .resident | .preempting _ _ | .saved _ | .complete => s

/-! `CTXRS`. -/

/-- Bytes of an image as loads of the lane through its core's L1 (R208, R244). -/
def partLoad (s : State) (t a off n : Nat) : Except UnitStop (State × List Byte) :=
  if 2 ^ 57 < a + off + n then .error (.trap (trapAt cPROT (a + off))) else unitLoad s t (a + off) n

/-- Whether a core can give a team what its image needs (R208). -/
def capacityFor (s : State) (t : Nat) (bs : List Byte) : Bool :=
  let m := teamIdOf s t
  let l := launchOf s t
  let (d, c) := coreOf s t
  let k := coreAt s d c
  let w (off : Nat) : Nat := descWord bs off
  let free (mask base n : Nat) : Bool := (List.range n).all fun i =>
    mask / 2 ^ i % 2 = 0 || (tileClaim k (base + i)).all fun x => x = m
  decide (w 0x10 % 8192 ≤ l.resv) && decide (w 0x10 / 2 ^ 16 % 64 ≤ l.groups) && decide (w 0x10 / 2 ^ 24 % 128 ≤ l.ucount)
    && decide (w 0x10 / 2 ^ 32 % 16 ≤ l.bhi)
    && ((List.range 16).all fun i => i ≤ l.chi || bitsOfBytes ((bs.drop (0x20 + 32 * i)).take 4) = 0)
    && free (w 0) 0 64 && free (w 8 % 65536) 0x40 16 && free (w 8 / 65536 % 16) 0x50 4

/-- An index register from its image (R22). -/
def xOfImage (n : Nat) : XReg :=
  ⟨n / 2 ^ 38 % 2 = 1, BitVec.ofNat 10 (n / 2 ^ 28), BitVec.ofNat 6 (n / 2 ^ 22), BitVec.ofNat 10 (n / 2 ^ 12), BitVec.ofNat 12 n⟩

/-- Frames of a restored thread, the current one first, from the records in the backing store (R219). -/
def framesBack (s : State) (t : Nat) : Nat → List Frame
  | 0 => [frameOfBytes ((virtBytes s (ctxOf s t) (frameAddr s t 0) 32).getD [])]
  | d + 1 => frameOfBytes ((virtBytes s (ctxOf s t) (frameAddr s t (d + 1)) 32).getD []) :: framesBack s t d

/-- The thread part comes back (R350). -/
def restoreThread (s : State) (t : Nat) (bs : List Byte) : State :=
  let w (off : Nat) : Nat := descWord bs off
  let d := w 0x08 / 2 ^ 12 % 4096
  let frames := framesBack s t d
  modThread s t fun th =>
    { th with
      resumePc := some (BitVec.ofNat 64 (w 0))
      wb := w 0x08 % 4096
      frames := frames
      resident := d + 1
      ptime := max th.ptime (w 0x10 % 2 ^ 48)
      preds := BitVec.ofNat 7 (w 0x18)
      hold1 := holdOfImage (w 0x18 / 2 ^ 16 % 65536)
      hold2 := holdOfImage (w 0x18 / 2 ^ 32 % 65536)
      hold3 := holdOfImage (w 0x18 / 2 ^ 48)
      tl := w 0x20 % 64
      xs := (List.range 16).map fun i => xOfImage (w (0x28 + 8 * i)) }

/-- The group part comes back. -/
def restoreGroup (s : State) (t : Nat) (bs : List Byte) : State :=
  modGroup s (((s.threads[t]?).map (·.group)).getD 0) fun g =>
    { g with
      ks := (List.range 96).map fun i => BitVec.ofNat 32 (bitsOfBytes ((bs.drop (4 * i)).take 4))
      fpctl := fpctlOf (BitVec.ofNat 32 (descWord bs 0x180)) }

/-- A signature as an image gives it again: the operation's words and its C value. -/
def sigBack (g : Signature) (bs : List Byte) : Signature :=
  let w (i : Nat) : BitVec 64 := BitVec.ofNat 64 (bitsOfBytes ((bs.drop (8 * i)).take 8))
  let word : BitVec 128 := w 3 ++ w 1
  { g with opc := word.extractLsb' 2 8, form := fieldsOf ((Len.ofBits (word.extractLsb' 0 2)).getD .l64) word,
           cval := (w 2).truncate 32 }

/-- A convergence register comes back from its image: its count, and the pending `.nb` signatures, of the threads that
made them, with the operation the image holds (R208; log 121). -/
def convBack (c : Conv) (bs : List Byte) : Conv :=
  let n := bitsOfBytes (bs.take 4)
  let k := bitsOfBytes ((bs.drop 4).take 4)
  { count := if n = 0 then none else some n, sigs := ((c.sigs.filter (·.nb)).take k).map fun g => sigBack g bs }

/-- An entry of a completion queue from its image. -/
def entryOfImage (bs : List Byte) : CqEntry :=
  let w (j : Nat) : Nat := bitsOfBytes ((bs.drop (4 * j)).take 4)
  ⟨BitVec.ofNat 64 (w 0 + 2 ^ 32 * w 1), w 2 / 65536, w 2 % 65536, BitVec.ofNat 32 (w 3)⟩

/-- A completion queue comes back: the image's entries up to the last that is not empty, then those that came while the
team was off its core (log 121). -/
def queueBack (q : CQueue) (bs : List Byte) (late : Bool) : CQueue :=
  let es := (List.range 256).map fun i => (bs.drop (16 * i)).take 16
  let n := ((List.range 256).filter fun i => bitsOfBytes ((es[i]?).getD []) ≠ 0).foldl (fun _ i => i + 1) 0
  { q with entries := (es.take n).map entryOfImage ++ (if late then q.entries else []) }

/-- An entry's claim is given up; what an operation on the core still works with keeps its contents for it. -/
def dropClaim (c : Core) (code : Nat) : Core :=
  if opsName c code then
    modTile c code (fun x => { x with claim := none }) (fun x => { x with claim := none }) (fun x => { x with claim := none })
  else freeTile c code

/-- A team's claims become those of a mask over the resource codes. -/
def setClaims (c : Core) (m mask : Nat) : Core :=
  (List.range 0x54).foldl (fun c code =>
    if mask / 2 ^ code % 2 = 1 then claimTile c code m
    else if tileClaim c code = some m then dropClaim c code else c) c

/-- The team part comes back. -/
def restoreTeam (s : State) (t : Nat) (bs : List Byte) : State :=
  let m := teamIdOf s t
  let (d, c) := coreOf s t
  let late := (restoreBlock (phaseOf s m)).isSome && !((s.teams[m]?).map (·.partRestored)).getD false
  let s := modCore s d c fun k => setClaims k m (descWord bs 0 + 2 ^ 64 * (descWord bs 8 % 2 ^ 20))
  modTeam s m fun tm =>
    { tm with
      partRestored := true
      convs := tm.convs.mapIdx fun i c => convBack c ((bs.drop (0x20 + 32 * i)).take 32)
      queues := tm.queues.mapIdx fun i q => queueBack q ((bs.drop (0x400 + 4096 * i)).take 4096) late }

/-- The records of RESTCAP of a team's groups, each of its live threads (R86). -/
def restcapRecords (s : State) (iss : Issue) (opc : BitVec 8) (f : Form) (gs : List Nat) : RecordOut :=
  gs.foldl (fun acc g =>
    match acc with
    | .sent s k =>
      (match (groupThreads s g).filter fun x => !threadExited s x with
       | [] => .sent s k
       | x :: r => sendRecord s g (trapReq iss opc f x (trapAt cRESTCAP 0)) (x :: r) false)
    | o => o) (.sent s 0)

/-- RESTCAP (R86, R208, R350): every restoring thread's group writes its record, the routine ends for the team, and its
cluster goes back to the dispatcher's saved ones. A trap of the records' stores is a double trap; a page that is not
there suspends the thread, which then takes RESTCAP afresh (R87, R353). -/
def refuseRestore (s : State) (t : Nat) (iss : Issue) (opc : BitVec 8) (f : Form) : LaneOut :=
  let m := teamIdOf s t
  match s.teams[m]? with
  | none => .suspend s
  | some tm =>
    let r := trapReq iss opc f t (trapAt cRESTCAP 0)
    let g := ((s.threads[t]?).map (·.group)).getD 0
    match restcapRecords s iss opc f tm.groups with
    | .held w => .hold w
    | .fault i => .suspend (faultEntry s (ctxOf s t) g (recordFault r i) [t])
    | .trap i => .suspend (stopContext s (ctxOf s t) cRESTCAP 0 (recordBytes s g r (laneMask s [t])) (some i.code))
    | .sent s _ =>
      .suspend (match restoreBlock (phaseOf s m) with
        | some b => preemptCluster (unloadTeam s m b) tm.cluster
        | none => s)

/-- `CTXRS` in a lane. RESTCAP outside a restore routine is vectored as other traps are (log 122). -/
def ctxrsLane (iss : Issue) (f : Form) (s : State) (r : Ready) : LaneOut :=
  let inRestore := ((s.threads[r.tid]?).map fun th => decide (th.routine = .restore)).getD false
  let phase := phaseOf s (teamIdOf s r.tid)
  let team := f.mod.getLsbD 2
  let a := r.a.toNat
  -- the routine has ended under this issue group (RESTCAP in a lower lane)
  if (savedBlock phase).isSome then .suspend s
  else if hasAccess s r.tid then .hold .accesses
  else if !team && !((teamOf s r.tid).map (·.partRestored)).getD false then .trap (trapAt cILLOPND 0)
  else
    let load (i off n : Nat) (s : State) : Except UnitStop (State × List Byte) :=
      if f.mod.getLsbD i then partLoad s r.tid a off n else .ok (s, [])
    match load 0 0 256 s with
    | .error (.trap i) => .trap i
    | .error (.hold w) => .hold w
    | .ok (s, b0) =>
      match load 1 0x100 512 s with
      | .error (.trap i) => .trap i
      | .error (.hold w) => .hold w
      | .ok (s, b1) =>
        match load 2 0x300 17408 s with
        | .error (.trap i) => .trap i
        | .error (.hold w) => .hold w
        | .ok (s, b2) =>
          if team && !capacityFor s r.tid b2 then
            if inRestore ∧ (restoreBlock phase).isSome then refuseRestore s r.tid iss 0xF4 f else .trap (trapAt cRESTCAP 0)
          else
            let s := if team then restoreTeam s r.tid b2 else s
            let s := if f.mod.getLsbD 1 then restoreGroup s r.tid b1 else s
            .ok (if f.mod.getLsbD 0 then restoreThread s r.tid b0 else s) {}

/-- `CTXRS` (R208). -/
def execCtxrs (f : Form) (s : State) : Host.Outcome State Fault Refusal :=
  runLanes 0xF4 f s fun iss _ s r => ctxrsLane iss f s r

/-! `EXITP` (R210). -/

/-- `EXITP` in a lane. -/
def exitpLane (s : State) (r : Ready) : LaneOut :=
  match s.threads[r.tid]? with
  | none => .ok s {}
  | some th =>
    let m := teamIdOf s r.tid
    match th.routine with
    | .save =>
      let s := modThread (leaveRecord s r.tid) r.tid fun th => { th with routine := .none, handler := none, wait := .stopped }
      .ok (routineEnds s m) { next := .stay }
    | .restore =>
      let s := modThread s r.tid fun th => becomeReady { th with routine := .none, pc := th.resumePc.getD th.pc } (s.clk + 1)
      .ok (routineEnds s m) { next := .stay }
    | .bringUp | .none => .ok (exitThread s r.tid) { next := .stay }

/-- `EXITP` (R210). -/
def execExitp (f : Form) (s : State) : Host.Outcome State Fault Refusal :=
  runLanes 0xF9 f s fun _ _ s r => exitpLane s r

/-! `ICINV` and `TLBINV` (R211). -/

/-- Whether an aligned code block meets a range. -/
def blockMeets (a n block : Nat) : Bool := decide (block < a + n) && decide (a < block + 32)

/-- Discards a range of a context's code in every L1 instruction cache, and marks the loop buffers stale whose bodies
meet it; an iteration under way goes on from its buffer (R99). -/
def discardCode (s : State) (c a n : Nat) : State :=
  { s with cores := s.cores.map fun k =>
      { k with
        code := k.code.filter fun b => !(b.ctx = c && blockMeets a n b.addr)
        loops := k.loops.map fun p =>
          if ((s.grids[p.2.grid]?).map (·.ctx)) = some c ∧ p.2.start.toNat < a + n ∧ a < p.2.stop.toNat then
            (p.1, { p.2 with stale := true })
          else p } }

/-- `ICINV` in a lane. -/
def icinvLane (s : State) (r : Ready) : LaneOut :=
  let a := r.a.toNat
  let n := natLow 32 r.c
  if a % 256 ≠ 0 then .trap ⟨cALIGN, a, 0, 0⟩
  else if n % 256 ≠ 0 then .trap ⟨cALIGN, n, 2, 0⟩
  else if hasAccess s r.tid then .hold .accesses
  else .ok (discardCode s (ctxOf s r.tid) a n) {}

/-- `ICINV` (R211). -/
def execIcinv (f : Form) (s : State) : Host.Outcome State Fault Refusal :=
  runLanes 0xF7 f s fun _ _ s r => icinvLane s r

/-- Whether a drop of a scope takes a cached translation: a page of a context, every page of the contexts of a `CTXID`,
or all (R211). -/
def tlbDrops (s : State) (c scope : Nat) (a : DWord) (e : TlbEntry) : Bool :=
  match scope with
  | 0 => e.ctx = c && e.page = a.toNat / 65536
  | 1 => ((s.contexts[e.ctx]?).map (·.ctxid)) = some (a.toNat % 65536)
  | _ => true

/-- `TLBINV` in a lane: the drop is complete at once. What has been translated keeps its translation (R211). -/
def tlbinvLane (f : Form) (s : State) (r : Ready) : LaneOut :=
  .ok { s with tlb := s.tlb.filter fun e => !tlbDrops s (ctxOf s r.tid) (f.mod.toNat % 4) r.a e } {}

/-- `TLBINV` (R211). -/
def execTlbinv (f : Form) (s : State) : Host.Outcome State Fault Refusal :=
  runLanes 0xF8 f s fun _ _ s r => tlbinvLane f s r

/-! `CLOCK`, `PERF`, `SLEEP`, `HALT` (R212 to R214). -/

/-- `CLOCK` (R212). -/
def execClock (f : Form) (s : State) : Host.Outcome State Fault Refusal :=
  runLanes 0xFA f s fun _ _ s r =>
    .ok s { vals := valueWords 64 (BitVec.ofNat 64
      (if f.mod.getLsbD 0 then ((s.threads[r.tid]?).map (·.ptime)).getD 0 % 2 ^ 48 else s.clk)) }

/-- A counter of `PERF`, none for a number that is not listed (R212). -/
def perfCount (s : State) (t n unit : Nat) : Option Nat :=
  let (d, c) := coreOf s t
  let k := coreAt s d c
  let home (f : Home → Nat) : Option Nat := if 12 ≤ unit then none else (s.homes[unit]?).map f
  match n with
  | 0x000 => some ((lookupNat k.issued (ctxOf s t)).getD 0)
  | 0x001 => some ((lookupNat k.residentClk (ctxOf s t)).getD 0)
  | 0x010 => home (·.aliases.length)
  | 0x011 => home (·.watches.length)
  | 0x012 => home (·.eagerOcc)
  | 0x013 => home (·.eagerFull)
  | 0x014 => home (·.hot)
  | 0x015 => home (·.drained)
  | 0x020 => home (·.peatHits)
  | 0x021 => home (·.peatMisses)
  | 0x022 => home (·.peatGrow)
  | 0x030 => some k.mqStall
  | _ => none

/-- `PERF` (R212). -/
def execPerf (f : Form) (s : State) : Host.Outcome State Fault Refusal :=
  runLanes 0xFB f s fun _ _ s r =>
    match perfCount s r.tid (natLow 32 r.a) (natLow 32 r.b) with
    | some n => .ok s { vals := valueWords 64 (BitVec.ofNat 64 n) }
    | none => .trap (trapAt cILLOPND 0)

/-- `SLEEP` (R213). -/
def execSleep (f : Form) (s : State) : Host.Outcome State Fault Refusal :=
  runLanes 0xFC f s fun iss _ s r =>
    .ok (holdAt (advance s r.tid iss.pc f.len.bytes) r.tid (.sleep (s.clk + min (natLow 32 r.a) 1048576))) { next := .stay }

/-- `HALT` in a lane: in bring-up mode its core stops; elsewhere PROT, whose address word is the code, takes its group's
record and stops the context (R86, R214). -/
def haltLane (s : State) (r : Ready) : LaneOut :=
  let code := natLow 32 r.a
  if ((contextOf s r.tid).map (·.bringUp)).getD false then
    if threadExited s r.tid then .suspend s
    else
      let (d, c) := coreOf s r.tid
      .suspend (stopCore (modDie s d fun k => { k with halts := k.halts ++ [(c, BitVec.ofNat 32 code)] }) r.tid code)
  else .trap (trapAt cPROT code)

/-- `HALT` (R214). -/
def execHalt (f : Form) (s : State) : Host.Outcome State Fault Refusal :=
  runLanes 0xFE f s fun _ _ s r => haltLane s r

end Sys2Proof.Machine
end

