-- ==== Sys2Proof/Machine/Graphs.lean ====
section
/-! DEFINITION. Recorded graphs: their reading and checks, handles, `GFIRE` and `NODEQ` (R202, R203, R217, R319 to
R324, R329 to R332, R337). -/

namespace Sys2Proof.Machine

/-! Launch records (R217). -/

/-- The launch record that 64 bytes hold. -/
def launchOfBytes (bs : List Byte) : Launch :=
  let w := descWord bs
  { entry := BitVec.ofNat 64 (w 0)
    arg := BitVec.ofNat 64 (w 8)
    ucount := w 0x10 / 2 ^ 48 % 128
    groups := w 0x10 / 2 ^ 40 % 64 + 1
    width := w 0x10 / 2 ^ 32 % 8 + 1
    height := w 0x10 / 2 ^ 36 % 8 + 1
    teams := w 0x10 % 2 ^ 32 + 1
    bsdepth := w 0x18 / 2 ^ 48 % 4096
    bspos := w 0x18 / 2 ^ 32 % 8192
    resv := w 0x18 / 2 ^ 16 % 8192
    window := w 0x18 % 1024
    spad := w 0x20 / 2 ^ 32 % 2 ^ 21
    privlim := w 0x20 % 2 ^ 32
    slots := BitVec.ofNat 64 (w 0x28)
    chi := w 0x30 / 2 ^ 36 % 16
    bhi := w 0x30 / 2 ^ 32 % 16
    queues := BitVec.ofNat 4 (w 0x30 / 2 ^ 16)
    tiles := BitVec.ofNat 16 (w 0x30) }

/-- Whether a launch record's reserved bits are zero. -/
def launchReserved (bs : List Byte) : Bool :=
  let w := descWord bs
  let bits (n hi lo : Nat) : Nat := n / 2 ^ lo % 2 ^ (hi - lo + 1)
  bits (w 0x10) 63 55 = 0 && bits (w 0x10) 47 46 = 0 && bits (w 0x10) 39 39 = 0 && bits (w 0x10) 35 35 = 0
    && bits (w 0x18) 63 60 = 0 && bits (w 0x18) 47 45 = 0 && bits (w 0x18) 31 29 = 0 && bits (w 0x18) 15 10 = 0
    && bits (w 0x20) 63 53 = 0 && bits (w 0x30) 63 40 = 0 && bits (w 0x30) 31 20 = 0 && w 0x38 = 0

/-- Whether a record's fields lie in their ranges. -/
def launchRanges (l : Launch) : Bool :=
  l.entry.toNat % 4 = 0 && l.entry.toNat < 2 ^ 57 && 2 ≤ l.ucount && l.ucount ≤ 96 && l.groups ≤ 48 && l.height ≤ 6
    && l.width * l.height ≤ 12 && l.teams % (l.width * l.height) = 0 && l.bspos ≤ 4096 && l.bspos % 4 = 0
    && l.resv % 4 = 0 && l.window ≤ l.resv && l.resv ≤ 4096 && 1 ≤ l.window && l.window ≤ 768
    && l.spad ≤ 1048576 && l.spad % 4096 = 0 && l.privlim % 4 = 0

/-- Whether a team fits on an empty core: the groups of one partition share its 4,096 registers a lane (R19, R221). -/
def launchFits (l : Launch) : Bool := (l.groups + 5) / 6 * l.resv ≤ 4096

/-- Whether a site may take a team: enabled and not lost (R39, R222). -/
def siteOn (s : State) (die site : Nat) : Bool := (siteMap s die).getLsbD site

/-- The sites of a rectangle on the mesh of 8 columns by 6 rows, by rank; none where it leaves the mesh (R222). -/
def rectSites (w h origin : Nat) : Option (List Nat) :=
  if origin % 8 + w ≤ 8 ∧ origin / 8 + h ≤ 6 then
    some ((List.range (w * h)).map fun r => (origin / 8 + r / w) * 8 + origin % 8 + r % w)
  else none

/-- Whether a cluster's shape fits some rectangle of enabled sites. -/
def launchShape (s : State) (l : Launch) : Bool :=
  (List.range 4).any fun d => (List.range 48).any fun o =>
    match rectSites l.width l.height o with
    | some sites => sites.all (siteOn s d)
    | none => false

/-- The checks of a launch record (R217). -/
def launchOk (s : State) (bs : List Byte) : Bool :=
  let l := launchOfBytes bs
  launchReserved bs && launchRanges l && launchFits l && launchShape s l

/-! Parameter blocks of the other kinds (R330 to R332, R337). -/

/-- Whether bytes from lo up to hi are zero. -/
def zeroBytes (bs : List Byte) (lo hi : Nat) : Bool := ((bs.drop lo).take (hi - lo)).all fun b => b = 0#8

/-- The checks of a copy node's block (R330). -/
def copyParamOk (bs : List Byte) : Bool :=
  let fn := descWord bs 0
  let desc := bs.drop 0x40
  let w := descWord desc
  let arrive := w 0 / 2 ^ 16 % 2 = 1
  zeroBytes bs 8 0x40 && !arrive
    && (if fn ≤ 2 then (descBad 0 fn desc 0).isNone
        else
          fn = 0x40 && (descBad 3 0 (desc.take 16 ++ List.replicate 48 0) 0).isNone && w 0x20 / 2 ^ 32 = 0 && w 0x28 ≤ 31
            && w 0x30 = 0 && w 0x38 = 0)

/-- A near-memory block (R332). -/
structure NearParam where
  sat : Bool
  add : Bool
  noact : Bool
  nomul : Bool
  r : Nat
  n : Nat
  deriving DecidableEq, Repr

/-- The first word of a near-memory block. -/
def nearParam (bs : List Byte) : NearParam :=
  let w := descWord bs 0
  let bit (i : Nat) : Bool := w / 2 ^ i % 2 = 1
  ⟨bit 51, bit 50, bit 49, bit 48, w / 2 ^ 32 % 65536 + 1, w % 2 ^ 32⟩

/-- A stream of a near-memory block. -/
structure Stream where
  base : DWord
  idx : Bool
  sfmt : Nat
  fmt : Nat
  rstride : DWord
  ibase : DWord
  sbase : DWord
  deriving DecidableEq, Repr

/-- Stream i. -/
def nearStream (bs : List Byte) (i : Nat) : Stream :=
  let w (off : Nat) : Nat := descWord bs (off + 32 * i)
  ⟨BitVec.ofNat 64 (w 0x10), w 0x18 / 2 ^ 10 % 2 = 1, w 0x18 / 2 ^ 8 % 4, w 0x18 % 256, BitVec.ofNat 64 (w 0x20),
    BitVec.ofNat 64 (w 0x28), if i < 2 then BitVec.ofNat 64 (descWord bs (0x90 + 8 * i)) else 0⟩

/-- Formats that a stream takes. -/
def streamFmts (i : Nat) : List Nat :=
  match i with
  | 0 | 1 => [0x03, 0x06, 0x07, 0x09]
  | 2 => [0x00, 0x03]
  | _ => [0x00, 0x03, 0x02, 0x06, 0x07]

/-- Whether a used stream's fields are legal. -/
def streamOk (bs : List Byte) (i : Nat) : Bool :=
  let x := nearStream bs i
  descWord bs (0x18 + 32 * i) < 2 ^ 11 && (streamFmts i).contains x.fmt && x.sfmt ≤ (if i < 2 then 2 else 0)
    && x.ibase.toNat % 4 = 0 && (x.idx || x.ibase = 0#64) && (x.sfmt ≠ 0 || x.sbase = 0#64)

/-- A breakpoint, slope or offset of the table. -/
def tableWord (bs : List Byte) (off i : Nat) : Nat := bitsOfBytes ((bs.drop (off + 4 * i)).take 4)

/-- Whether the breakpoints are numbers in ascending order. -/
def breaksOk (bs : List Byte) : Bool :=
  let v (i : Nat) : Val := fpDecode .f32 (tableWord bs 0xA0 i)
  ((List.range 5).all fun i => match v i with | .nan _ => false | _ => true)
    && (List.range 4).all fun i => valCmp (v i) (v (i + 1)) ≠ some .gt

/-- The checks of a near-memory block (R332). -/
def nearParamOk (bs : List Byte) : Bool :=
  let p := nearParam bs
  let unused (i : Nat) : Bool := zeroBytes bs (0x10 + 32 * i) (0x30 + 32 * i)
  descWord bs 0 / 2 ^ 52 = 0 && p.n ≠ 0 && descWord bs 8 = 0 && streamOk bs 0 && streamOk bs 3
    && (if p.nomul then unused 1 && descWord bs 0x98 = 0 else streamOk bs 1)
    && (if p.add then streamOk bs 2 else unused 2)
    && (if p.noact then zeroBytes bs 0xA0 0xE4 else breaksOk bs) && zeroBytes bs 0xE4 0x100

/-- The checks of a decode block (R337). -/
def decodeParamOk (bs : List Byte) : Bool :=
  let w := descWord bs
  w 0 < 2 ^ 19 && w 0 % 65536 ≠ 0 && w 8 % 65536 = 0 && w 0x20 < 2 ^ 24 && w 0x30 % 8 = 0 && w 0x38 = 0

/-- Bytes of a parameter block by kind. -/
def paramBytes (kind : Nat) : Nat :=
  match kind with
  | 1 => 128
  | 3 => 256
  | _ => 64

/-- The checks of a parameter block (R322 check 5). -/
def paramOk (s : State) (kind : Nat) (bs : List Byte) : Bool :=
  match kind with
  | 0 => launchOk s bs
  | 1 => copyParamOk bs
  | 2 => decodeParamOk bs
  | 3 => nearParamOk bs
  | _ => zeroBytes bs 8 0x40

/-! Node records (R320). -/

/-- A node's fields beside its kind. -/
def nodeFbonly (rec_ : List Byte) : Bool := descWord rec_ 0 / 2 ^ 8 % 2 = 1
def nodeNsucc (rec_ : List Byte) : Nat := descWord rec_ 0 / 2 ^ 32
def nodeNpred (rec_ : List Byte) : Nat := descWord rec_ 0 / 2 ^ 16 % 65536
def nodeFirst (rec_ : List Byte) : Nat := descWord rec_ 8 % 2 ^ 32
def nodeFallback (rec_ : List Byte) : Nat := descWord rec_ 0x18 % 2 ^ 32

/-- A declared range: first byte, length, access. -/
def nodeRange (rec_ : List Byte) (j : Nat) : Nat × Nat × Nat :=
  (descWord rec_ (0x20 + 16 * j), descWord rec_ (0x28 + 16 * j) % 2 ^ 40, descWord rec_ (0x28 + 16 * j) / 2 ^ 62)

/-- The used declared ranges. -/
def nodeRanges (rec_ : List Byte) : List (Nat × Nat × Nat) :=
  ((List.range 4).map (nodeRange rec_)).filter fun r => r.2.2 ≠ 0

/-- R322 check 1 of a node record. -/
def nodeOk (rec_ : List Byte) : Bool :=
  let w := descWord rec_
  let kind := w 0 % 8
  kind ≤ 4 && w 0 / 2 ^ 3 % 32 = 0 && w 0 / 2 ^ 9 % 128 = 0 && w 8 / 2 ^ 32 = 0 && (nodeNsucc rec_ ≠ 0 || nodeFirst rec_ = 0)
    && w 0x10 % 64 = 0 && w 0x18 / 2 ^ 32 = 0 && (kind = 3 || nodeFallback rec_ = 0xFFFFFFFF)
    && ((List.range 4).all fun j =>
      let r := nodeRange rec_ j
      w (0x28 + 16 * j) / 2 ^ 40 % 2 ^ 22 = 0 && decide (r.2.1 = 0 ↔ r.2.2 = 0))
    && (List.range 4).all fun j => w (0x60 + 8 * j) / 2 ^ 40 % 2 ^ 23 = 0

/-! Edges (R322). -/

/-- Nodes whose predecessors have all been taken, taken one round after another; whether all are taken in the end. -/
def acyclicN : Nat → List (List Nat) → List Nat → Bool
  | 0, _, left => left.isEmpty
  | n + 1, succ, left =>
    if left.isEmpty then true
    else
      let blocked := left.flatMap fun i => (succ[i]?).getD []
      let next := left.filter fun i => blocked.contains i
      if next.length = left.length then false else acyclicN n succ next

/-- Nodes that some nodes reach by a path of edges, themselves apart unless on a path. -/
def reachN : Nat → List (List Nat) → List Nat → List Nat → List Nat
  | 0, _, _, seen => seen
  | n + 1, succ, frontier, seen =>
    let new := ((frontier.flatMap fun i => (succ[i]?).getD []).filter fun i => !seen.contains i).dedup
    if new.isEmpty then seen else reachN n succ new (seen ++ new)

/-- Nodes that a node reaches. -/
def reachOf (succ : List (List Nat)) (i : Nat) : List Nat := reachN succ.length succ [i] []

/-- Whether two nodes' declared ranges share a byte that one of them may write. -/
def rangesClash (a b : List Byte) : Bool :=
  (nodeRanges a).any fun x => (nodeRanges b).any fun y =>
    rangesMeet x.1 x.2.1 y.1 y.2.1 && (decide (2 ≤ x.2.2) || decide (2 ≤ y.2.2))

/-- R322 check 6 for a pair of nodes. -/
def pairClash (recs : List (List Byte)) (succ : List (List Nat)) (m x : Nat) : Bool :=
  let a := (recs[m]?).getD []
  let b := (recs[x]?).getD []
  let kb := descWord b 0 % 8
  m ≠ x && descWord a 0 % 8 = 3 && (kb = 0 || kb = 1 || kb = 3) && !nodeFbonly a && !nodeFbonly b && rangesClash a b
    && !(reachOf succ m).contains x && !(reachOf succ x).contains m

/-- R322 check 7 for a node. -/
def fallbackOk (recs params : List (List Byte)) (succ : List (List Nat)) (i : Nat) : Bool :=
  let a := (recs[i]?).getD []
  let f := nodeFallback a
  (descWord a 0 % 8 ≠ 3 || f = 0xFFFFFFFF || (match recs[f]? with
    | some b => descWord b 0 % 8 = 0 && nodeFbonly b && nodeNpred b = 0 && nodeNsucc b = 0
        && 6 ≤ (launchOfBytes ((params[f]?).getD [])).ucount
    | none => false))
  && !(nodeFbonly a && succ.any fun l => l.contains i)

/-! Reading (R321). -/

/-- Bytes that the dispatcher reads for a context, none where its pages do not give them. -/
def graphBytes (s : State) (c a n : Nat) : Option (List Byte) :=
  if 2 ^ 57 < a + n then none
  else
    match pageCheck needR (rangePieces s c a n) with
    | some _ => none
    | none => some (virtLoad s c a n)

/-- A graph as read: header, records, successor entries and parameter blocks. -/
structure GraphImage where
  header : List Byte
  recs : List (List Byte)
  succ : List (List Nat)
  params : List (List Byte)
  deriving DecidableEq, Repr

/-- Entries of the successor array of one node. -/
def succEntries (bs : List Byte) : List Nat := (List.range (bs.length / 4)).map fun i => bitsOfBytes ((bs.drop (4 * i)).take 4)

/-- R322 checks 1 to 7 of a graph as read. -/
def imageBad (s : State) (x : GraphImage) : Bool :=
  let n := x.recs.length
  let ends := (x.recs.map nodeNsucc).sum
  let preds (i : Nat) : Nat := (x.succ.map fun l => (l.filter (· = i)).length).sum
  let kinds := x.recs.map fun r => descWord r 0 % 8
  ((List.range n).any fun i =>
    let r := (x.recs[i]?).getD []
    let l := (x.succ[i]?).getD []
    l.any (fun j => n ≤ j ∨ j = i) || decide (ends < nodeFirst r + nodeNsucc r) || decide (nodeNpred r ≠ preds i)
      || !fallbackOk x.recs x.params x.succ i)
  || !acyclicN n x.succ (List.range n)
  || ((kinds.zip x.params).any fun p => !paramOk s p.1 p.2)
  || (List.range n).any fun m => (List.range n).any fun k => pairClash x.recs x.succ m k

/-- Reads one node after another; none where a record breaks its form or cannot be read. -/
def readNodes (s : State) (c nodes succ total : Nat) : Nat → Nat → Option (List (List Byte × List Nat × List Byte))
  | 0, _ => some []
  | k + 1, i => do
    let r ← graphBytes s c (nodes + 128 * i) 128
    if !nodeOk r ∨ total ≤ nodeNsucc r then none
    else
      let e ← if nodeNsucc r = 0 then some [] else graphBytes s c (succ + 4 * nodeFirst r) (4 * nodeNsucc r)
      let p ← graphBytes s c (descWord r 0x10) (paramBytes (descWord r 0 % 8))
      let rest ← readNodes s c nodes succ total k (i + 1)
      some ((r, succEntries e, p) :: rest)

/-- Reads and checks a graph (R319 to R322); none is a refusal. -/
def readGraph (s : State) (c a : Nat) : Option GraphImage := do
  if a % 64 ≠ 0 then none
  let h ← graphBytes s c a 64
  let w := descWord h
  let n := w 0
  if n = 0 ∨ 65536 < n ∨ w 8 % 128 ≠ 0 ∨ w 0x10 % 4 ≠ 0 ∨ w 0x18 % 64 ≠ 0 ∨ w 0x20 % 8 ≠ 0 ∨ !zeroBytes h 0x28 0x40 then none
  let l ← readNodes s c (w 8) (w 0x10) (n * 65536) n 0
  let x : GraphImage := ⟨h, l.map (·.1), l.map (·.2.1), l.map (·.2.2)⟩
  if imageBad s x then none else some x

/-- Ranges that the dispatcher has read of a graph. -/
def imageRanges (a : Nat) (x : GraphImage) : List (Nat × Nat) :=
  let w := descWord x.header
  (a, 64) :: (w 8, 128 * x.recs.length) :: (x.recs.flatMap fun r =>
    [(w 0x10 + 4 * nodeFirst r, 4 * nodeNsucc r), (descWord r 0x10, paramBytes (descWord r 0 % 8))])

/-- The reads of a fire as events at the homes. -/
def touchRanges (s : State) (c : Nat) (rs : List (Nat × Nat)) (floor : Nat) : State × Nat :=
  rs.foldl (fun (acc : State × Nat) r => touchPieces acc.1 (physPieces (rangePieces acc.1 c r.1 r.2)) (some c) acc.2) (s, floor)

/-! Acceptance (R323 to R325). -/

/-- A node as it stands at acceptance. -/
def freshNode (rec_ param : List Byte) (succ : List Nat) (clk ts : Nat) : GNode where
  kind := descWord rec_ 0 % 8
  record := rec_
  param := param
  succ := succ
  preds := nodeNpred rec_
  state := if !nodeFbonly rec_ ∧ nodeNpred rec_ = 0 then .ready else .waiting
  code := 0
  addr := 0
  grid := none
  lockOp := none
  readyClk := clk
  fault := none
  aborts := []
  ts := ts

/-- Whether a handle slot of a context holds a live graph. -/
def slotLive (s : State) (h : Nat × Nat × Option Nat) : Bool :=
  match h.2.2.bind fun g => s.graphs[g]? with
  | some x => !x.finished
  | none => false

/-- The lowest handle slot without a live graph, and its generation count. -/
def freeHandle (s : State) (c : Nat) : Option (Nat × Nat) :=
  match s.contexts[c]? with
  | none => none
  | some k =>
    (List.range 64).findSome? fun i =>
      match k.handles.find? fun h => h.1 = i with
      | some h => if slotLive s h then none else some (i, h.2.1)
      | none => some (i, 0)

/-- Fires the graph at an address for a context at or after a time: the state and what `GFIRE` writes (R202). -/
def fireGraph (s : State) (c a floor : Nat) : State × Word :=
  match freeHandle s c with
  | none => (s, 0xFFFFFFFF)
  | some (slot, gen) =>
    match readGraph s c a with
    | none => (s, 0xFFFFFFFE)
    | some x =>
      let (s, ts) := touchRanges s c (imageRanges a x) floor
      let gen' := (gen + 1) % (2 ^ 26 - 1)
      let handle : Word := BitVec.ofNat 32 (gen' * 64 + slot)
      let nodes := (List.range x.recs.length).map fun i =>
        freshNode ((x.recs[i]?).getD []) ((x.params[i]?).getD []) ((x.succ[i]?).getD []) s.clk ts
      let g : Graph :=
        { ctx := c
          handle := handle
          nodes := nodes
          doneAddr := BitVec.ofNat 64 (descWord x.header 0x20)
          errAddr := BitVec.ofNat 64 (descWord x.header 0x18)
          fail := none
          finished := false }
      let s := modCtx s c fun k =>
        { k with handles := (slot, gen', some s.graphs.length) :: k.handles.filter fun h => h.1 ≠ slot }
      ({ s with graphs := s.graphs ++ [g] }, handle)

/-- `GFIRE` in a lane: the dispatcher reads after every access that the lane has issued. -/
def gfireLane (s : State) (r : Ready) : LaneOut :=
  match counterHold s r.tid .ld with
  | some w => .hold w
  | none =>
    .ok (enqueue s { accessOf s r.tid .graphFire .nothing 0 r.a.toNat noXlat [] with
      dest := destOf s r.tid r.d 1 r.span, ctr := .ld }) {}

/-- `GFIRE` (R202). -/
def execGfire (f : Form) (s : State) : Host.Outcome State Fault Refusal :=
  runLanes 0xE4 f s fun _ _ s r => gfireLane s r

/-- The fire is accepted or refused, and the reply arrives. -/
def performGfire (s : State) (a : Access) : State :=
  let pt := ((s.threads[a.tid]?).map (·.ptime)).getD 0
  let (s, v) := fireGraph s a.ctx a.va pt
  endAccess (deliverTo s a.tid a.dest [v]) a

/-! `NODEQ` (R203). -/

/-- The code of a node's state. -/
def nodeStateCode (x : NodeState) : Nat :=
  match x with
  | .waiting => 0
  | .ready => 1
  | .running => 2
  | .done => 3
  | .failed => 4
  | .notRun => 5

/-- The graph that a handle names in a context (R324). -/
def graphOfHandle (s : State) (c h : Nat) : Option Nat :=
  (s.contexts[c]?).bind fun k => (k.handles.find? fun x => x.1 = h % 64 ∧ x.2.1 = h / 64).bind (·.2.2)

/-- The word of a node. -/
def nodeWord (s : State) (c h n : Nat) : Word :=
  match (graphOfHandle s c h).bind fun g => nodeAt s g n with
  | some x => BitVec.ofNat 32 (min x.preds 65535 * 65536 + x.code % 256 * 256 + nodeStateCode x.state)
  | none => 6

/-- `NODEQ` in a lane. -/
def nodeqLane (s : State) (r : Ready) : LaneOut :=
  match counterHold s r.tid .ld with
  | some w => .hold w
  | none =>
    .ok (enqueue s { accessOf s r.tid (.nodeq (natLow 32 r.a) (natLow 32 r.b)) .nothing 0 0 noXlat [] with
      dest := destOf s r.tid r.d 1 r.span, ctr := .ld }) {}

/-- `NODEQ` (R203). -/
def execNodeq (f : Form) (s : State) : Host.Outcome State Fault Refusal :=
  runLanes 0xE5 f s fun _ _ s r => nodeqLane s r

/-- The state is read and written; a thread that sees a node done follows its writes. -/
def performNodeq (s : State) (a : Access) (h n : Nat) : State :=
  let s1 := match (graphOfHandle s a.ctx h).bind fun g => nodeAt s g n with
    | some x => if x.state = .done then raisePtime s a.tid x.ts else s
    | none => s
  endAccess (deliverTo s1 a.tid a.dest [nodeWord s a.ctx h n]) a

end Sys2Proof.Machine
end

