-- ==== Sys2Proof/Machine/Loader.lean ====
section
/-! DEFINITION. An instruction placed where the package runs it next (log 6): a bring-up grid of one group on die 0, as
R377 launches one, its instruction in the bring-up SRAM and in the core's L1 instruction cache. -/

namespace Sys2Proof.Machine

/-- A launch record of one team of one group with the widest limits (R217). -/
def plainLaunch (entry arg : DWord) : Launch where
  entry := entry
  arg := arg
  ucount := 96
  groups := 1
  width := 1
  height := 1
  teams := 1
  bsdepth := 0
  bspos := 0
  resv := 4096
  window := 768
  spad := 0
  privlim := 0
  slots := 0
  chi := 15
  bhi := 15
  queues := 0
  tiles := 0

/-- A context as a thread in bring-up mode has it: every register of R39 at its reset value. -/
def plainContext : Context where
  ctxid := 0
  live := true
  sys := false
  swspill := false
  lodeok := false
  root := 0
  restore := 0
  savebase := 0
  nblk := 0
  blksz := 0
  blocksUsed := []
  privbase := 0
  privsize := 0
  spbase := 0
  spsize := 0
  fq := 0
  fqn := 0
  fqTail := 0
  fqHead := 0
  trapvec := 0
  traprec := 0
  srseed := 1
  keyid := 0
  peatwc := 0
  aliashot := 64
  leasemax := 8
  budget := 0
  privlim := 0xFFFFFFFF#32
  fadeper := 1000
  fadeClk := 0
  tensors := []
  windows := []
  handles := []
  held := false
  stopped := false
  bringUp := true

/-- A thread as R218 starts it: registers undefined under a seed of its own, everything else zero, none or false. -/
def startThread (group lane seed ptime clk : Nat) (pc : DWord) (routine : Routine) : Thread where
  group := group
  lane := lane
  exited := false
  pc := pc
  regs := []
  seed := seed
  poison := []
  xs := List.replicate 16 ⟨false, 0, 0, 0, 0⟩
  preds := 0
  wb := 0
  frames := [⟨0, 0, none⟩]
  resident := 0
  hold1 := .none
  hold2 := .none
  hold3 := .none
  ptime := ptime
  ld := 0
  st := 0
  cp := 0
  tl := 0
  wait := .ready
  age := clk
  promoted := false
  counted := none
  handler := none
  routine := routine
  scratch := []
  resumePc := none

/-- A team of one group that nothing has happened to (R218). -/
def plainTeam (grid cluster : Nat) (groups : List Nat) : Team where
  grid := grid
  cluster := cluster
  index := 0
  rank := 0
  die := 0
  site := 0
  groups := groups
  convs := List.replicate 16 ⟨none, []⟩
  episode := none
  queues := List.replicate 4 ⟨[], 0⟩
  spadBase := 0
  spad := 0
  touched := []
  pos := 0
  phase := .resident
  partRestored := false
  cqSaved := []
  waitcSince := none
  wakeSecs := []
  since := none

/-- The state with an instruction's bytes at the start of die 0's bring-up SRAM and a bring-up grid of one group at
it. -/
def placeWord (s : State) (nbits w : Nat) : State :=
  let bs := bytesOfBits 32 (w % 2 ^ nbits)
  let entry : DWord := BitVec.ofNat 64 (sramBase 0)
  let ctx := s.contexts.length
  let grid := s.grids.length
  let cluster := s.clusters.length
  let team := s.teams.length
  let group := s.groups.length
  { modCore s 0 0 (fun c => { c with code := ⟨ctx, sramBase 0, bs⟩ :: c.code, issuedNow := [] }) with
    mem := memWriteN s.mem (sramBase 0) bs
    contexts := s.contexts ++ [plainContext]
    grids := s.grids ++ [⟨plainLaunch entry 0, ctx, none, [], 1, [], (0, 0), [], none, none, false⟩]
    clusters := s.clusters ++ [⟨grid, 0, [team], none⟩]
    teams := s.teams ++ [plainTeam grid cluster [group]]
    groups := s.groups ++ [⟨team, 0, 0, 0, 0, List.replicate 96 0, 0, 0, 0, none, 0, false⟩]
    threads := s.threads ++ (List.range 32).map fun lane => startThread group lane (s.seed + lane) 0 s.clk entry .bringUp
    seed := s.seed + 32
    clockStopped := false
    power := 0
    agenda := []
    errors := []
    inbox := []
    net := [] }

end Sys2Proof.Machine
end

