-- ==== Sys2Proof/Machine/Admit.lean ====
section
/-! DEFINITION. Grids, tickets, and teams coming onto cores, ending, swapped out and restored (R218 to R227, R230,
R238, R239, R241, R328, R340, R341, R346, R349, R350, R377). -/

namespace Sys2Proof.Machine

/-! What a core holds (R220). -/

/-- Whether a team holds a core's resources: it runs there and some thread has not exited (R227). -/
def onCore (s : State) (m : Nat) : Bool :=
  match s.teams[m]? with
  | some t => teamRuns t && !(liveThreads s m).isEmpty
  | none => false

/-- Teams that hold resources of a core. -/
def teamsOn (s : State) (die site : Nat) : List Nat :=
  (List.range s.teams.length).filter fun m => match s.teams[m]? with
    | some t => t.die = die && t.site = site && onCore s m
    | none => false

/-- The launch record of a team. -/
def teamLaunch (s : State) (m : Nat) : Launch :=
  (((s.teams[m]?).bind fun t => s.grids[t.grid]?).map (·.launch)).getD (plainLaunch 0 0)

/-- Groups that hold a slot of a partition: slot, first physical register, registers a lane. -/
def groupsIn (s : State) (die site part : Nat) : List (Nat × Nat × Nat) :=
  (teamsOn s die site).flatMap fun m =>
    match s.teams[m]? with
    | none => []
    | some t => t.groups.filterMap fun g => match s.groups[g]? with
        | some x => if x.part = part ∧ !x.freed then some (x.slot, x.origin, (teamLaunch s m).resv) else none
        | none => none

/-- The lowest free group slot of a partition. -/
def freeSlot (used : List (Nat × Nat × Nat)) : Option Nat := (List.range 48).find? fun i => !used.any fun u => u.1 = i

/-- The lowest origin with q free physical registers from it (R220, R221). -/
def freeOrigin (used : List (Nat × Nat × Nat)) (q : Nat) : Option Nat :=
  ((List.range 1025).map (4 * ·)).find? fun o => o + q ≤ 4096 && !used.any fun u => rangesMeet o q u.2.1 u.2.2

/-- Deals groups round-robin from a partition: partition, slot and origin of each (R221). -/
def dealGroups (q f : Nat) : Nat → Nat → List (List (Nat × Nat × Nat)) → Option (List (Nat × Nat × Nat))
  | 0, _, _ => some []
  | n + 1, g, used =>
    let p := (f + g) % 6
    let here := (used[p]?).getD []
    match freeSlot here, freeOrigin here q with
    | some k, some o => (dealGroups q f n (g + 1) (used.set p ((k, o, q) :: here))).map fun l => (p, k, o) :: l
    | _, _ => none

/-- The partition with the most free group slots, the lowest of several (R221). -/
def firstPart (used : List (List (Nat × Nat × Nat))) : Nat :=
  (List.range 6).foldl (fun best p =>
    if ((used[p]?).getD []).length < ((used[best]?).getD []).length then p else best) 0

/-- Where a core puts a team's groups; none when it cannot take the team (R220 points 1 to 4). -/
def placeTeam (s : State) (die site : Nat) (l : Launch) : Option (List (Nat × Nat × Nat)) :=
  let ms := teamsOn s die site
  let c := coreAt s die site
  let sum (f : Launch → Nat) : Nat := (ms.map fun m => f (teamLaunch s m)).sum
  let free (mask base n : Nat) : Bool := (List.range n).all fun i => mask / 2 ^ i % 2 = 0 || (tileClaim c (base + i)).isNone
  if c.lost ∨ !siteOn s die site then none
  else if 96 ≤ ms.length ∨ 384 < sum (fun x => x.chi + 1) + l.chi + 1 ∨ 384 < sum (fun x => x.bhi + 1) + l.bhi + 1 then none
  else if !(free l.slots.toNat 0 64 && free l.tiles.toNat 0x40 16 && free l.queues.toNat 0x50 4) then none
  else
    let used := (List.range 6).map (groupsIn s die site)
    dealGroups l.resv (firstPart used) l.groups 0 used

/-! Budgets (R341). -/

/-- Cores that hold teams of a context. -/
def coresOf (s : State) (c : Nat) : List (Nat × Nat) :=
  (((List.range s.teams.length).filter fun m => onCore s m && teamCtx s m = c).filterMap fun m =>
    (s.teams[m]?).map fun t => (t.die, t.site)).dedup

/-- Whether a context's budgets have room for teams on some cores of a die: its DRAM traffic over the last 10 µs in GB/s,
and the estimate of its power (R341; log 12). -/
def budgetRoom (s : State) (c die : Nat) (sites : List Nat) : Bool :=
  match s.contexts[c]? with
  | none => false
  | some k =>
    let b := k.budget.toNat
    let now := coresOf s c
    let limit := b / 2 ^ 8 % 256
    let bw := b / 2 ^ 16 % 65536
    let power := b / 2 ^ 32 % 65536
    let key := c + 65536 * s.clk
    (limit = 0 || (now ++ (sites.map fun x => (die, x))).dedup.length ≤ limit || sites.all fun x => now.contains (die, x))
      && (bw = 0 || movedBytes s c < 10000 * bw) && (power = 0 || Config.powerEstimate key < power)

/-- Where a die puts a cluster: its origin, its sites by rank and its groups' places; the lowest row, then the lowest
column (R222). -/
def placeAt (s : State) (c die : Nat) (l : Launch) (origin : Nat) : Option (List (Nat × List (Nat × Nat × Nat))) :=
  match rectSites l.width l.height origin with
  | none => none
  | some sites =>
    if sites.all (siteOn s die) && budgetRoom s c die sites then
      sites.foldr (fun x acc => match acc, placeTeam s die x l with
        | some r, some p => some ((x, p) :: r)
        | _, _ => none) (some [])
    else none

/-- Sites where a grid's clusters may start: a bring-up grid's only the enabled one with the lowest number (R377). -/
def originsOf (s : State) (die : Nat) (bring : Bool) : List Nat :=
  if bring then ((List.range 48).filter (siteOn s die)).take 1 else List.range 48

/-- The rectangle that a die chooses for a launch. -/
def chooseRect (s : State) (c die : Nat) (l : Launch) (bring : Bool) : Option Nat :=
  (originsOf s die bring).find? fun o => (placeAt s c die l o).isSome

/-! Regions (R219, R238, R239; log 16). -/

/-- Bytes of a group's private region. -/
def privBytes (l : Launch) : Nat := (32 * l.privlim + 128 * l.bspos + 1024 * l.bsdepth + 4095) / 4096 * 4096

/-- The lowest free place of n bytes in an arena beside taken regions. -/
def freeRegion (base size n : Nat) (taken : List (Nat × Nat)) : Option Nat :=
  ((base :: taken.map fun t => t.1 + t.2).filter fun a =>
      a % 4096 = 0 && base ≤ a && a + n ≤ base + size && !taken.any fun t => rangesMeet a n t.1 t.2).foldl
    (fun best a => match best with
      | none => some a
      | some b => some (min a b)) none

/-- Private regions in use by a context's groups. -/
def privTaken (s : State) (c : Nat) : List (Nat × Nat) :=
  s.groups.filterMap fun g => if !g.freed ∧ teamCtx s g.team = c then some (g.privBase, g.privSize) else none

/-- Backing regions in use by a context's teams. -/
def spadTaken (s : State) (c : Nat) : List (Nat × Nat) :=
  (List.range s.teams.length).filterMap fun m => match s.teams[m]? with
    | some t => if t.phase ≠ .complete ∧ teamCtx s m = c then some (t.spadBase, t.spad + 4096) else none
    | none => none

/-- Several regions of one size. -/
def freeRegions (base size n : Nat) : Nat → List (Nat × Nat) → Option (List Nat)
  | 0, _ => some []
  | k + 1, taken => match freeRegion base size n taken with
    | some a => (freeRegions base size n k ((a, n) :: taken)).map fun l => a :: l
    | none => none

/-- The private bases of a cluster's groups and the backing bases of its teams. -/
def clusterRegions (s : State) (c : Nat) (l : Launch) : Option (List Nat × List Nat) :=
  match s.contexts[c]? with
  | none => none
  | some k =>
    let n := l.width * l.height
    match freeRegions k.privbase k.privsize (privBytes l) (n * l.groups) (privTaken s c),
          freeRegions k.spbase k.spsize (l.spad + 4096) n (spadTaken s c) with
    | some p, some q => some (p, q)
    | _, _ => none

/-! Admission (R218, R222, R223). -/

/-- `CLUSTERPOS` (R223). -/
def clusterPos (l : Launch) (origin rank : Nat) : Word :=
  BitVec.ofNat 32 (origin / 8 * 2 ^ 27 + origin % 8 * 2 ^ 24 + l.height * 2 ^ 16 + l.width * 2 ^ 12
    + rank / l.width * 2 ^ 8 + rank % l.width * 2 ^ 4 + rank)

/-- The uniform registers at a start: k0:k1 the argument, the rest zero, but a fallback's k2 to k5 (R218, R336). -/
def startKs (l : Launch) (fb : Option (Nat × Nat × Nat)) : List Word :=
  let ks := valueWords 64 l.arg ++ List.replicate 94 0
  match fb with
  | none => ks
  | some (n, k, pa) => setUnis ks 2 (BitVec.ofNat 32 n :: BitVec.ofNat 32 k :: valueWords 64 (BitVec.ofNat 64 pa))

/-- Claims that a launch record declares are held, every entry empty (R184, R218). -/
def takeClaims (s : State) (die site m : Nat) (l : Launch) : State :=
  let mask := l.slots.toNat + 2 ^ 64 * l.tiles.toNat + 2 ^ 80 * l.queues.toNat
  modCore s die site fun c =>
    (List.range 0x54).foldl (fun c code => if mask / 2 ^ code % 2 = 1 then claimTile c code m else c) c

/-- The map page of a backing region is zero at the start (R239). -/
def clearMap (s : State) (m : Nat) : State :=
  match regionAt s m 0 with
  | .ok x => (writeBytesNow s x.pa (List.replicate 4096 0) (some (teamCtx s m)) 0).1
  | .pagef | .prot => s

/-- One team of a cluster as it starts: its record, its groups and its threads. -/
def startTeam (s : State) (grid cluster die : Nat) (ticket origin rank : Nat) (l : Launch) (fb : Option (Nat × Nat × Nat))
    (floor : Nat) (routine : Routine) (site : Nat) (places : List (Nat × Nat × Nat)) (privs : List Nat) (spadBase : Nat) : State :=
  let m := s.teams.length
  let g0 := s.groups.length
  let n := l.width * l.height
  let team : Team :=
    { plainTeam grid cluster ((List.range l.groups).map (g0 + ·)) with
      index := ticket * n + rank
      rank := rank
      die := die
      site := site
      spadBase := spadBase
      spad := l.spad
      pos := clusterPos l origin rank }
  let groups := (List.range l.groups).map fun i =>
    let p := (places[i]?).getD (0, 0, 0)
    ({ team := m, index := i, part := p.1, slot := p.2.1, origin := p.2.2, ks := startKs l fb, fpctl := 0,
       privBase := (privs[i]?).getD 0, privSize := privBytes l, record := none, savedK := 0, freed := false } : Group)
  let pt := max floor (coreAt s die site).maxExit
  let threads := (List.range l.groups).flatMap fun i =>
    (List.range 32).map fun lane => startThread (g0 + i) lane (s.seed + 32 * i + lane) pt s.clk l.entry routine
  let s :=
    { s with
      teams := s.teams ++ [team]
      groups := s.groups ++ groups
      threads := s.threads ++ threads
      seed := s.seed + 32 * l.groups }
  clearMap (takeClaims s die site m l) m

/-- The time a grid's threads start at or after: that of what its node follows (R325). -/
def gridFloor (s : State) (g : Grid) : Nat := match g.node with | some (x, n) => ((nodeAt s x n).map (·.ts)).getD 0 | none => 0

/-- A cluster comes onto a rectangle (R222): all its teams at once. -/
def admitCluster (s : State) (grid ticket die origin : Nat) : Option State :=
  match s.grids[grid]? with
  | none => none
  | some gr =>
    let l := gr.launch
    match placeAt s gr.ctx die l origin, clusterRegions s gr.ctx l with
    | some sites, some (privs, spads) =>
      let k := s.clusters.length
      let m0 := s.teams.length
      let routine := if gr.bringDie.isSome then Routine.bringUp else .none
      let s := { s with clusters := s.clusters ++ [⟨grid, ticket, (List.range sites.length).map (m0 + ·), none⟩] }
      some ((sites.zipIdx).foldl (fun s p =>
        startTeam s grid k die ticket origin p.2 l gr.fallback (gridFloor s gr) routine p.1.1 p.1.2
          ((privs.drop (p.2 * l.groups)).take l.groups) ((spads[p.2]?).getD 0)) s)
    | _, _ => none

/-- Whether a grid's context admits teams now. -/
def admits (s : State) (gr : Grid) : Bool :=
  ((s.contexts[gr.ctx]?).map fun c => !c.held && !c.stopped && c.live).getD false && !gr.done && s.power = 0

/-- Whether a die has a rectangle and its context regions for a grid's next cluster. -/
def canTake (s : State) (die grid : Nat) : Option Nat :=
  match s.grids[grid]? with
  | none => none
  | some gr =>
    if admits s gr && (clusterRegions s gr.ctx gr.launch).isSome && !((s.dies[die]?).map (·.lost)).getD true then
      chooseRect s gr.ctx die gr.launch gr.bringDie.isSome
    else none

/-! Tickets (R224, R225). -/

/-- Clusters of a launch. -/
def clustersOf (l : Launch) : Nat := l.teams / (l.width * l.height)

/-- The ranges of the dies in pull mode. -/
def ticketRanges (n : Nat) : List (Nat × Nat) := (List.range 4).map fun d => (d * n / 4, (d + 1) * n / 4)

/-- Tickets left in a die's range. -/
def ticketsLeft (gr : Grid) (die : Nat) : Nat := ((gr.tickets[die]?).map fun p => p.2 - p.1).getD 0

/-- TICKET_PULL (R224): the next ticket of the die's counter, and its cluster admitted. -/
def pullTicket (s : State) (die grid : Nat) : State :=
  match s.grids[grid]?, canTake s die grid with
  | some gr, some origin =>
    (match gr.tickets[die]? with
     | some (next, stop) =>
       if next < stop then
         match admitCluster s grid next die origin with
         | some s => modGrid s grid fun x => { x with tickets := setAt x.tickets die (next + 1, stop) }
         | none => s
       else s
     | none => s)
  | _, _ => s

/-- The die with the most tickets left, the first after the thief of several (R225). -/
def stealVictim (gr : Grid) (die : Nat) : Option Nat :=
  ([1, 2, 3].map fun i => (die + i) % 4).foldl (fun best d =>
    if ticketsLeft gr d = 0 then best
    else match best with
      | none => some d
      | some b => if ticketsLeft gr b < ticketsLeft gr d then some d else some b) none

/-- STEAL (R225): the last tickets of the victim's range become the thief's. -/
def stealTickets (s : State) (die grid : Nat) : State :=
  match s.grids[grid]?, canTake s die grid with
  | some gr, some _ =>
    if ticketsLeft gr die ≠ 0 then s
    else
      match stealVictim gr die with
      | none => s
      | some v =>
        let k := max 1 (ticketsLeft gr v / 8)
        match gr.tickets[v]? with
        | none => s
        | some (next, stop) =>
          modGrid s grid fun x => { x with tickets := setAt (setAt x.tickets v (next, stop - k)) die (stop - k, stop) }
  | _, _ => s

/-! Push mode (R226, R328). -/

/-- Free team records that a die reports. -/
def freeRecords (s : State) (die : Nat) (bring : Bool) : Nat :=
  (((originsOf s die bring).filter (siteOn s die)).map fun x => 96 - (teamsOn s die x).length).sum

/-- Whether a grid has clusters to hand out. -/
def undealt (gr : Grid) : Nat := gr.returned.length + (gr.central.2 - gr.central.1)

/-- Takes the next tickets to hand out: returned ones, in order, then new ones. -/
def nextTickets (gr : Grid) (n : Nat) : List Nat × Grid :=
  let back := gr.returned.take n
  let k := min (n - back.length) (gr.central.2 - gr.central.1)
  (back ++ (List.range k).map (gr.central.1 + ·),
   { gr with returned := gr.returned.drop n, central := (gr.central.1 + k, gr.central.2) })

/-- PUSH_BATCH (R328): whole clusters for a die, at most 64 teams and no more than its free records. -/
def pushBatchTo (s : State) (grid die : Nat) : State :=
  match s.grids[grid]? with
  | none => s
  | some gr =>
    let n := min 64 (freeRecords s die gr.bringDie.isSome) / (gr.launch.width * gr.launch.height)
    if !admits s gr ∨ (gr.bringDie.isSome ∧ gr.bringDie ≠ some die) ∨ gr.pushed.any (fun p => p.1 = die) then s
    else
      let (ts, gr) := nextTickets gr n
      { s with grids := setAt s.grids grid { gr with pushed := gr.pushed ++ ts.map fun t => (die, t) } }

/-- Tickets in their original order. -/
def insertTicket (t : Nat) : List Nat → List Nat
  | [] => [t]
  | x :: l => if t < x then t :: x :: l else x :: insertTicket t l

/-- TEAM_ADMIT (R220 to R223): a cluster that was handed to a die comes onto the rectangle it chooses, or goes back
with the rest of its batch. -/
def admitPushed (s : State) (grid ticket die : Nat) : State :=
  match s.grids[grid]? with
  | none => s
  | some gr =>
    if !gr.pushed.contains (die, ticket) then s
    else
      match canTake s die grid with
      | some origin =>
        (match admitCluster s grid ticket die origin with
         | some s => modGrid s grid fun x => { x with pushed := x.pushed.filter fun p => p ≠ (die, ticket) }
         | none => s)
      | none =>
        modGrid s grid fun x =>
          { x with
            pushed := x.pushed.filter fun p => p.1 ≠ die
            returned := (x.pushed.filter fun p => p.1 = die).foldl (fun l p => insertTicket p.2 l) x.returned }

/-- TICKET_PULL (R224). -/
def execTicketPull (die grid : Nat) (s : State) : Host.Outcome State Fault Refusal := .next (pullTicket s die grid)
/-- STEAL (R225). -/
def execSteal (die grid : Nat) (s : State) : Host.Outcome State Fault Refusal := .next (stealTickets s die grid)
/-- PUSH_BATCH (R328). -/
def execPushBatch (grid die : Nat) (s : State) : Host.Outcome State Fault Refusal := .next (pushBatchTo s grid die)
/-- TEAM_ADMIT (R220): the origin is the one that R222 chooses. -/
def execTeamAdmit (grid cluster die origin : Nat) (s : State) : Host.Outcome State Fault Refusal :=
  .next (if canTake s die grid = some origin ∨ canTake s die grid = none then admitPushed s grid cluster die else s)

/-- A grid of a launch record (R224, R328). -/
def newGrid (s : State) (l : Launch) (ctx : Nat) (node : Option (Nat × Nat)) (bring : Option Nat)
    (fb : Option (Nat × Nat × Nat)) : Grid where
  launch := l
  ctx := ctx
  node := node
  tickets := if s.pushMode ∨ bring.isSome then [] else ticketRanges (clustersOf l)
  remaining := l.teams
  pushed := []
  central := if s.pushMode ∨ bring.isSome then (0, clustersOf l) else (0, 0)
  returned := []
  bringDie := bring
  fallback := fb
  done := false

/-! Ending (R227). -/

/-- Whether everything that a team's threads issued has been performed (R227). -/
def teamQuiet (s : State) (m : Nat) : Bool :=
  let ts := teamThreads s m
  !(s.accs.any fun a => a.owners.any ts.contains) && !(s.lodes.any fun o => ts.contains o.tid)
    && !(s.engines.any fun e => e.node.isNone && ts.contains e.tid)
    && !(s.cores.any fun c => c.ops.any fun o => o.team = m)

/-- The largest time of a team's threads. -/
def teamTime (s : State) (m : Nat) : Nat := (teamThreads s m).foldl (fun a t => max a (((s.threads[t]?).map (·.ptime)).getD 0)) 0

/-- A machine check of class 2 for every channel that is closed (R368, R382). -/
def closedReports (s : State) : List LodeOut :=
  (List.range 12).flatMap fun st => (List.range 32).filterMap fun ch => match s.homes[st]? with
    | some h => if channelTrained h st ch then none else some (.machineCheck 2 1 (st / 3) st ch 0xFFFFFFFF 0 0 s.clk)
    | none => none

/-- Every bring-up grid has completed: bring-up mode ends, and channels still closed are reported (R377, R382). -/
def endBringUp (s : State) : State :=
  if s.bringUp ∧ (s.grids.any fun g => g.bringDie.isSome) ∧ s.grids.all fun g => g.bringDie.isNone || g.done then
    { s with bringUp := false, out := s.out ++ closedReports s }
  else s

/-- A grid has completed: its node, or the fallback's part of it (R336). -/
def gridComplete (s : State) (grid : Nat) : State :=
  match s.grids[grid]? with
  | none => s
  | some gr =>
    let s := modGrid s grid fun x => { x with done := true }
    match gr.node with
    | some (g, n) => send s [.nodeComplete g n]
    | none => endBringUp s

/-- TEAM_COMPLETE (R227). -/
def completeTeam (s : State) (m : Nat) : State :=
  match s.teams[m]? with
  | none => s
  | some t =>
    if t.phase = .complete ∨ !(liveThreads s m).isEmpty ∨ !teamQuiet s m then s
    else
      let s := modTeam s m fun x => { x with phase := .complete }
      let s := modCore s t.die t.site fun c => { releaseClaims c m with frames := c.frames.filter fun f => f.team ≠ m }
      let s := t.groups.foldl (fun s g => modGroup s g fun x => { x with freed := true }) s
      let s := match t.phase with
        | .preempting b _ | .saving b | .restoring b | .saved b => freeBlock s m b
        | .resident | .complete => s
      let s := match (s.grids[t.grid]?).bind (·.node) with
        | some (g, n) => noteNode s g n (teamTime s m)
        | none => s
      let left := ((s.grids[t.grid]?).map (·.remaining)).getD 0 - 1
      let s := modGrid s t.grid fun x => { x with remaining := left }
      if left = 0 then gridComplete s t.grid else s

/-- TEAM_COMPLETE. -/
def execTeamComplete (team : Nat) (s : State) : Host.Outcome State Fault Refusal := .next (completeTeam s team)

/-! Swapping out (R230). -/

/-- Whether every live thread of a team holds a monitor, all of them for 4,096 clk. -/
def longWaiting (s : State) (m : Nat) : Bool :=
  (((s.teams[m]?).bind (·.waitcSince)).any fun c => decide (c + 4096 ≤ s.clk))
    && !(liveThreads s m).isEmpty
    && (liveThreads s m).all fun t => match waitAt s t with | .monitor _ => true | _ => false

/-- Sectors that a team's threads watch. -/
def watchedSectors (s : State) (m : Nat) : List Nat :=
  ((liveThreads s m).filterMap fun t => match waitAt s t with | .monitor x => some x | _ => none).dedup

/-- Whether a team of some grid waits for room that a die cannot give. -/
def teamWaits (s : State) (die : Nat) : Bool :=
  (List.range s.grids.length).any fun g => match s.grids[g]? with
    | some gr => admits s gr && (0 < ticketsLeft gr die || 0 < undealt gr || gr.pushed.any fun p => p.1 = die)
        && (canTake s die g).isNone
    | none => false

/-- The teams of a team's cluster. -/
def clusterMates (s : State) (m : Nat) : List Nat := (((s.teams[m]?).bind fun t => s.clusters[t.cluster]?).map (·.teams)).getD []

/-- Whether a team's cluster is swapped out now (R230). -/
def swappable (s : State) (m : Nat) : Bool :=
  match s.teams[m]? with
  | none => false
  | some t =>
    let ms := (clusterMates s m).filter fun k => !(liveThreads s k).isEmpty
    let used := ((s.dies[t.die]?).map (·.wakes.length)).getD 1024
    decide (t.phase = .resident) && !ms.isEmpty && ms.all (longWaiting s) && teamWaits s t.die && decide (used + ms.length ≤ 1024)
      && decide (ms.length ≤ (freeBlocks s (teamCtx s m) ms.length).length)

/-- Whether a sector's bytes satisfy a monitor's comparison. -/
def monitorMet (s : State) (m : Monitor) : Bool :=
  let n := if itWidth m.it = 64 then 8 else 4
  aluIcmp m.cc m.it (BitVec.ofNat 64 (bitsOfBytes (currentBytes s (m.sec * 64 + m.off) n))) m.operand

/-- A team waits to be restored no longer. -/
def endSwap (s : State) (m : Nat) : State :=
  modTeam { s with dies := s.dies.map fun d => { d with wakes := d.wakes.filter fun w => w.1 ≠ m } } m fun x => { x with wakeSecs := [] }

/-- The dispatcher reads each recorded sector once: a write that came before the record re-queues the team as well (R230
step 3). -/
def rereadWatched (s : State) (m : Nat) (secs : List Nat) : State :=
  let s := secs.foldl (fun s sec => (readBytesNow s (sec * 64) 64 (some (teamCtx s m)) 0).1) s
  if s.dies.any fun d => d.monitors.any fun x => teamIdOf s x.tid = m && monitorMet s x then endSwap s m else s

/-- SWAP_OUT (R230): the whole cluster, with a wake entry for each of its teams. -/
def swapCluster (s : State) (m : Nat) : State :=
  match s.teams[m]? with
  | none => s
  | some t =>
    let ms := (clusterMates s m).filter fun k => !(liveThreads s k).isEmpty
    if swappable s m then
      let secs := ms.map fun k => (k, watchedSectors s k)
      let s := modDie s t.die fun d => { d with wakes := d.wakes ++ secs }
      let s := secs.foldl (fun s p => modTeam s p.1 fun x => { x with wakeSecs := p.2 }) s
      preemptCluster (secs.foldl (fun s p => rereadWatched s p.1 p.2) s) t.cluster
    else s

/-- SWAP_OUT. -/
def execSwapOut (team : Nat) (s : State) : Host.Outcome State Fault Refusal := .next (swapCluster s team)

/-! Restoring (R241, R349, R350). -/

/-- A team's dirty frames on its old core are written back and freed (R241). -/
def leaveFrames (s : State) (m : Nat) : State :=
  match s.teams[m]? with
  | none => s
  | some t =>
    let fs := (coreAt s t.die t.site).frames.filter fun f => f.team = m
    let s := fs.foldl frameBack s
    modCore s t.die t.site fun c => { c with frames := c.frames.filter fun f => f.team ≠ m }

/-- Whether a team may start on a site: it was there, or its dirty frames can be written to their slots; it waits until
then (R241; log 123). -/
def framesMayLeave (s : State) (m die site : Nat) : Bool :=
  match s.teams[m]? with
  | none => true
  | some t => (decide (t.die = die ∧ t.site = site)) || ((coreAt s t.die t.site).frames.filter fun f => f.team = m && f.dirty).all fun f =>
      match regionAt s m (4096 * (f.page + 1)) with | .ok _ => true | .pagef | .prot => false

/-- The saved team starts its restore routine on a site: its threads have no resident frame, and count what they have
outstanding still (R350). -/
def restartTeam (s : State) (m b die site origin : Nat) (l : Launch) (places : List (Nat × Nat × Nat)) : State :=
  match s.teams[m]? with
  | none => s
  | some t =>
    let c := teamCtx s m
    let s := if t.die = die ∧ t.site = site then s else leaveFrames s m
    let entry := ((s.contexts[c]?).map (·.restore)).getD 0
    let k01 := valueWords 64 (BitVec.ofNat 64 (blockAddr s c b))
    let s := modTeam s m fun x =>
      { x with die := die, site := site, pos := clusterPos l origin x.rank, phase := .restoring b, partRestored := false,
               since := some s.clk }
    let s := ((t.groups.zip places).foldl (fun s p => modGroup s p.1 fun x =>
      { x with part := p.2.1, slot := p.2.2.1, origin := p.2.2.2, ks := setUnis (List.replicate 96 0) 0 k01, fpctl := 0,
               record := none }) s)
    let pt := (coreAt s die site).maxExit
    let s := (liveThreads s m).foldl (fun s x =>
      { modThread s x (fun th =>
          { startThread th.group th.lane s.seed (max pt th.ptime) (s.clk + 1) entry .restore with
            resumePc := th.resumePc, resident := 1, ld := th.ld, st := th.st, cp := th.cp, tl := th.tl }) with
        seed := s.seed + 1 }) s
    takeClaims s die site m l

/-- TEAM_RESTORE (R349): the whole cluster of a saved team, on the first die with a rectangle for it. -/
def restoreCluster (s : State) (m : Nat) : State :=
  match s.teams[m]? with
  | none => s
  | some t =>
    match s.grids[t.grid]? with
    | none => s
    | some gr =>
      let ms := (clusterMates s m).filter fun k => !(liveThreads s k).isEmpty
      let l := gr.launch
      if !admits s gr ∨ !(ms.all fun k => (savedBlock (phaseOf s k)).isSome)
          ∨ !(ms.all fun k => ((s.teams[k]?).map fun x => x.wakeSecs.isEmpty).getD true) then s
      else
        match (List.range 4).findSome? fun d => (chooseRect s gr.ctx d l false).map fun o => (d, o) with
        | none => s
        | some (d, o) =>
          match placeAt s gr.ctx d l o with
          | none => s
          | some sites =>
            if !(ms.all fun k => (((s.teams[k]?).bind fun x => sites[x.rank]?).all fun p => framesMayLeave s k d p.1)) then s
            else ms.foldl (fun s k => match savedBlock (phaseOf s k), (s.teams[k]?).bind fun x => sites[x.rank]? with
              | some b, some (site, places) => restartTeam s k b d site o l places
              | _, _ => s) s

/-- TEAM_RESTORE. -/
def execTeamRestore (team : Nat) (s : State) : Host.Outcome State Fault Refusal := .next (restoreCluster s team)

end Sys2Proof.Machine
end

