-- ==== Sys2Proof/Machine/BitOps.lean ====
section
/-! DEFINITION. Bit instructions (R107 to R110). -/

namespace Sys2Proof.Machine

/-- `AND` (R107). -/
def execAnd (f : Form) (s : State) : Host.Outcome State Fault Refusal :=
  runValue 0x30 f s (outWidth (itOf f)) fun r => aluAnd (itOf f) (f.mod.getLsbD 4) r.a r.b

/-- `OR` (R107). -/
def execOr (f : Form) (s : State) : Host.Outcome State Fault Refusal :=
  runValue 0x31 f s (outWidth (itOf f)) fun r => aluOr (itOf f) (f.mod.getLsbD 4) r.a r.b

/-- `XOR` (R107). -/
def execXor (f : Form) (s : State) : Host.Outcome State Fault Refusal :=
  runValue 0x32 f s (outWidth (itOf f)) fun r => aluXor (itOf f) (f.mod.getLsbD 4) r.a r.b

/-- `BFN` (R108): the table is imm32[15:0], D's old value the fourth input. -/
def execBfn (f : Form) (s : State) : Host.Outcome State Fault Refusal :=
  runValue 0x33 f s (outWidth (itOf f)) fun r => aluBfn (itOf f) ((imm32Of f).truncate 16) r.dOld r.a r.b r.c

/-- `SHL` (R107). -/
def execShl (f : Form) (s : State) : Host.Outcome State Fault Refusal :=
  runValue 0x34 f s (outWidth (itOf f)) fun r => aluShl (itOf f) r.a r.b

/-- `SHR` (R107). -/
def execShr (f : Form) (s : State) : Host.Outcome State Fault Refusal :=
  runValue 0x35 f s (outWidth (itOf f)) fun r => aluShr (itOf f) r.a r.b

/-- `SHRA` (R107). -/
def execShra (f : Form) (s : State) : Host.Outcome State Fault Refusal :=
  runValue 0x36 f s (outWidth (itOf f)) fun r => aluShra (itOf f) r.a r.b

/-- `ROL` (R107). -/
def execRol (f : Form) (s : State) : Host.Outcome State Fault Refusal :=
  runValue 0x37 f s (outWidth (itOf f)) fun r => aluRol (itOf f) r.a r.b

/-- `FSH` (R107). -/
def execFsh (f : Form) (s : State) : Host.Outcome State Fault Refusal :=
  runValue 0x38 f s (outWidth (itOf f)) fun r => aluFsh (itOf f) (f.mod.getLsbD 4) r.a r.b r.c

/-- `POPC` (R107): D is a single register. -/
def execPopc (f : Form) (s : State) : Host.Outcome State Fault Refusal :=
  runValue 0x39 f s 32 fun r => aluPopc (itOf f) r.a

/-- `CLZ` (R107): D is a single register. -/
def execClz (f : Form) (s : State) : Host.Outcome State Fault Refusal :=
  runValue 0x3A f s 32 fun r => aluClz (itOf f) r.a

/-- `BREV` (R107). -/
def execBrev (f : Form) (s : State) : Host.Outcome State Fault Refusal :=
  runValue 0x3B f s (outWidth (itOf f)) fun r => aluBrev (itOf f) r.a

/-- `BFE` (R109). -/
def execBfe (f : Form) (s : State) : Host.Outcome State Fault Refusal :=
  runValue 0x3C f s (outWidth (itOf f)) fun r => aluBfe (itOf f) r.a r.b

/-- `BFI` (R109). -/
def execBfi (f : Form) (s : State) : Host.Outcome State Fault Refusal :=
  runValue 0x3D f s (outWidth (itOf f)) fun r => aluBfi (itOf f) r.a r.b r.c

/-- `BSEL` (R110). -/
def execBsel (f : Form) (s : State) : Host.Outcome State Fault Refusal :=
  runValue 0x3E f s 32 fun r => aluBsel r.a r.b r.c

end Sys2Proof.Machine
end

