-- ==== Sys2Proof/Machine/Control.lean ====
section
/-! DEFINITION. Control transfer, loops, exits and software traps (R92 to R101). -/

namespace Sys2Proof.Machine

/-- `NOP` (R92): no effect in any lane. -/
def execNop (f : Form) (s : State) : Host.Outcome State Fault Refusal :=
  runLanes 0x00 f s fun _ _ s _ => .ok s {}

/-- The displacement of a form. -/
def dispOf (f : Form) : DWord := (imm32Of f).signExtend 64

/-- `LoopCheck` (R98): a taken branch out of the body of the frame's loop ends it. -/
def loopCheck (th : Thread) (t : DWord) : Thread :=
  match th.frames with
  | fr :: r =>
    (match fr.loop with
     | some l => if t < l.start ∨ l.stop ≤ t then { th with frames := { fr with loop := none } :: r } else th
     | none => th)
  | [] => th

/-- A branch of a lane to a target (R93). -/
def branchTo (s : State) (r : Ready) (t : DWord) : LaneOut :=
  if t.extractLsb' 0 2 ≠ 0#2 then .trap (trapAt cALIGN t.toNat)
  else .ok (modThread s r.tid fun th => loopCheck th t) { next := .jump t }

/-- `BRA` (R93). -/
def execBra (f : Form) (s : State) : Host.Outcome State Fault Refusal :=
  runLanes 0x01 f s fun iss _ s r => branchTo s r (iss.pc + dispOf f)

/-- `JMP` (R93). -/
def execJmp (f : Form) (s : State) : Host.Outcome State Fault Refusal :=
  runLanes 0x02 f s fun _ _ s r => branchTo s r r.a

/-- A frame opens above the caller's, which takes the link record and keeps its loop state (R18, R94). -/
def openFrame (th : Thread) (ret : DWord) (n : Nat) : Thread :=
  match th.frames with
  | fr :: rest => { th with wb := th.wb + n, frames := ⟨0#64, 0, none⟩ :: { fr with ret := ret, slide := n } :: rest }
  | [] => th

/-- A call of a lane to a target (R94): the checks in their order, then the new frame. -/
def callTo (s : State) (pc : DWord) (f : Form) (r : Ready) (t : DWord) : LaneOut :=
  let n := f.d.toNat
  let w := windowOf s r.tid
  let q := resvOf s r.tid
  match s.threads[r.tid]? with
  | none => .ok s {}
  | some th =>
    if t.extractLsb' 0 2 ≠ 0#2 then .trap (trapAt cALIGN t.toNat)
    else if 4095 < th.wb + n + w - 1 ∨ 4095 ≤ depthOf th then .trap ⟨cSTKLIM, depthOf th, 0, th.wb + n + w⟩
    else if q < w + n then .trap ⟨cSTKLIM, depthOf th, 0, w + n⟩
    else if q < residentSpan th w + n then .trap (trapAt cSPILL (depthOf th))
    else
      .ok (modThread s r.tid fun th => openFrame th (pc + BitVec.ofNat 64 f.len.bytes) n) { next := .jump t }

/-- `CALL` (R94). -/
def execCall (f : Form) (s : State) : Host.Outcome State Fault Refusal :=
  runLanes 0x03 f s fun iss _ s r => callTo s iss.pc f r (iss.pc + dispOf f)

/-- `CALLI` (R94). -/
def execCalli (f : Form) (s : State) : Host.Outcome State Fault Refusal :=
  runLanes 0x04 f s fun iss _ s r => callTo s iss.pc f r r.a

/-- A return of a lane (R95): at call depth 0 an exit; the positions above the caller's window become undefined (R17). A
return PC read from memory is taken as it stands, whatever its bits 1:0 (log 114). -/
def returnLane (s : State) (r : Ready) : LaneOut :=
  match s.threads[r.tid]? with
  | none => .ok s {}
  | some th =>
    match th.frames with
    | _ :: fr :: rest =>
      if depthOf th - 1 < th.resident then .trap (trapAt cFILL (depthOf th - 1))
      else
        let s := modThread s r.tid fun th => { th with wb := th.wb - fr.slide, frames := fr :: rest }
        .ok (undefStack s r.tid (th.wb - fr.slide + windowOf s r.tid) fr.slide) { next := .jump fr.ret }
    | _ => .ok (exitThread s r.tid) { next := .stay }

/-- `RET` (R95). -/
def execRet (f : Form) (s : State) : Host.Outcome State Fault Refusal :=
  runLanes 0x05 f s fun _ _ s r => returnLane s r

/-- `EXIT` (R96). -/
def execExit (f : Form) (s : State) : Host.Outcome State Fault Refusal :=
  runLanes 0x06 f s fun _ _ s r => .ok (exitThread s r.tid) { next := .stay }

/-- `LOOP` of a lane (R98, R99). -/
def loopLane (s : State) (pc : DWord) (f : Form) (r : Ready) : LaneOut :=
  let stop := pc + dispOf f
  let start := pc + BitVec.ofNat 64 f.len.bytes
  let c : Word := r.a.truncate 32
  if c = 0#32 then .ok s { next := .jump stop }
  else
    match groupOf s r.tid, teamOf s r.tid with
    | some g, some m =>
      (match enterLoop s m.die m.site g.part m.grid (ctxOf s r.tid) start stop with
       | none => .hold (.loopBuffer start stop)
       | some (s, v) =>
         let s := takeGrant s m.die m.site r.tid
         .ok (modThread s r.tid fun th => match th.frames with
           | fr :: rest => { th with frames := { fr with loop := some ⟨start, stop, c, v⟩ } :: rest }
           | [] => th) { next := .jump start })
    | _, _ => .ok s {}

/-- `LOOP` (R97 to R99). -/
def execLoop (f : Form) (s : State) : Host.Outcome State Fault Refusal :=
  runLanes 0x07 f s fun iss _ s r => loopLane s iss.pc f r

/-- `YIELD` (R100): its age is the clock after its issue, as of every thread that completes an instruction. -/
def execYield (f : Form) (s : State) : Host.Outcome State Fault Refusal :=
  runLanes 0x08 f s fun _ _ s _ => .ok s {}

/-- `TRAP` (R101). -/
def execTrap (f : Form) (s : State) : Host.Outcome State Fault Refusal :=
  runLanes 0x0A f s fun _ _ _ r => .trap ⟨cTRAP, 0, natLow 32 r.a, 0⟩

/-- `BKPT` (R101). -/
def execBkpt (f : Form) (s : State) : Host.Outcome State Fault Refusal :=
  runLanes 0x0B f s fun _ _ _ r => .trap ⟨cBKPT, 0, natLow 32 r.a, 0⟩

end Sys2Proof.Machine
end

