-- ==== Sys2Proof/Machine/Nodes.lean ====
section
/-! DEFINITION. Nodes of a fired graph: their start, their work, and the end of a node and of its graph (R203, R325 to
R339). -/

namespace Sys2Proof.Machine

/-! Ends (R325, R327). -/

/-- Whether a node can still run. -/
def nodeOpen (x : GNode) : Bool :=
  !nodeFbonly x.record && match x.state with
    | .waiting | .ready | .running => true
    | .done | .failed | .notRun => false

/-- A store of the dispatcher for a context; a page that has gone drops it. -/
def graphStore (s : State) (c va : Nat) (bs : List Byte) (floor : Nat) : State × Nat :=
  match virtStore s c va bs floor with
  | .ok r => r
  | .error _ => (s, floor)

/-- The error record (R327). -/
def errorRecord (h : Word) (f : Nat × Nat × Nat) : List Byte :=
  bytesOf 8 (h.toNat + 2 ^ 32 * (f.2.1 % 256)) ++ bytesOf 8 f.1 ++ bytesOf 8 f.2.2 ++ List.replicate 40 0

/-- A graph ends when no node can still run: the error record, the done word, and the message (R327). -/
def settleGraph (s : State) (g : Nat) : State :=
  match s.graphs[g]? with
  | none => s
  | some x =>
    if x.finished ∨ x.nodes.any nodeOpen then s
    else
      let floor := x.nodes.foldl (fun a n => max a n.ts) 0
      let (s, ts) := match x.fail with
        | some f => graphStore s x.ctx x.errAddr.toNat (errorRecord x.handle f) floor
        | none => (s, floor)
      let word : DWord := BitVec.ofNat 64 (x.handle.toNat + 2 ^ 32 * (if x.fail.isSome then 2 else 1))
      let (s, _) := graphStore s x.ctx x.doneAddr.toNat (bytesOf 8 word.toNat) ts
      let s := modGraph s g fun y => { y with finished := true }
      { s with out := s.out ++ [.graphDone (((s.contexts[x.ctx]?).map (·.ctxid)).getD 0) x.handle word] }

/-- What a node held: its locks, its decoder session and its work. -/
def releaseNode (s : State) (g n : Nat) : State :=
  let mine (e : EngineOp) : Bool := nodeWork e && e.node.any fun p => p.1 = g && p.2.1 = n
  let ss := (s.engines.filter fun e => mine e && e.engine = 1).map fun e => (e.unit, e.reply)
  let s :=
    { s with
      engines := s.engines.filter fun e => !mine e
      sessions := s.sessions.filter fun x => !ss.contains (x.decoder, x.num) }
  match (nodeAt s g n).bind (·.lockOp) with
  | some op => modNode (freeLocks s op) g n fun x => { x with lockOp := none }
  | none => s

/-- A node is complete: each successor's count falls, and at 0 it enters the pool (R325). -/
def finishNode (s : State) (g n : Nat) : State :=
  match nodeAt s g n with
  | none => s
  | some x =>
    let s := modNode (releaseNode s g n) g n fun y => { y with state := .done }
    let s := x.succ.foldl (fun s j => modNode s g j fun y =>
      { y with
        preds := y.preds - 1
        ts := max y.ts x.ts
        state := if y.preds = 1 ∧ y.state = .waiting then .ready else y.state
        readyClk := if y.preds = 1 then s.clk else y.readyClk }) s
    settleGraph s g

/-- NODE_FAIL (R327). -/
def failNode (s : State) (g n code addr : Nat) : State :=
  match s.graphs[g]?, nodeAt s g n with
  | some gr, some x =>
    (match x.state with
     | .ready | .running =>
       let s := releaseNode s g n
       let after := reachOf (gr.nodes.map (·.succ)) n
       let s := modGraph s g fun y =>
         { y with
           fail := y.fail.orElse fun _ => some (n, code, addr)
           nodes := y.nodes.mapIdx fun i z =>
             if i = n then { z with state := .failed, code := code, addr := addr }
             else if after.contains i then { z with state := .notRun }
             else z }
       settleGraph s g
     | .waiting | .done | .failed | .notRun => s)
  | _, _ => s

/-- NODE_FAIL. -/
def execNodeFail (g n code addr : Nat) (s : State) : Host.Outcome State Fault Refusal := .next (failNode s g n code addr)

/-! Near-memory nodes (R332 to R336). -/

/-- The work of a node of an engine. -/
def nodeOp (s : State) (g n eng : Nat) : Option EngineOp :=
  s.engines.find? fun e => nodeWork e && decide (e.engine = eng) && e.node.any fun p => p.1 = g && p.2.1 = n

/-- Commands of a near-memory node. -/
def commandCount (bs : List Byte) : Nat := ((nearParam bs).n + 255) / 256

/-- Whether bytes lie in a declared range with an access: 1 read, 2 write. -/
def inDeclared (rec_ : List Byte) (acc a n : Nat) : Bool :=
  (nodeRanges rec_).any fun r => r.2.2 / acc % 2 = 1 && r.1 ≤ a && a + n ≤ r.1 + r.2.1

/-- Bytes of an element of a type. -/
def fmtBytes (fmt : Nat) : Nat := if fmt = 0x00 then 4 else if fmt = 0x02 ∨ fmt = 0x03 then 2 else 1

/-- A read of a near-memory node's snapshot: bytes, a failure with its code and address. -/
inductive NearRead where
  | ok (n : Nat)
  | bad (code addr : Nat)
  deriving DecidableEq, Repr

/-- Reads bytes as memory stood when the node started (R335); a sector that could not be read then fails the command that
needs it. -/
def nearBytes (e : EngineOp) (rec_ : List Byte) (a n : Nat) : NearRead :=
  if !inDeclared rec_ 1 a n then .bad cPROT a
  else match (List.range n).find? fun i => (lookupNat e.snap ((a + i) / 64)).isNone with
    | some i => .bad (if (lookupNat e.writes ((a + i) / 64)) = some [1#8] then cXOPERR else cMEMERR) a
    | none => .ok (bitsOfBytes (snapBytes e a n))

/-- The row of an output in a stream (R333). -/
def nearRow (e : EngineOp) (rec_ : List Byte) (x : Stream) (n : Nat) : NearRead :=
  if x.idx then nearBytes e rec_ (x.ibase.toNat + 4 * n) 4 else .ok n

/-- The address of an element (R333). -/
def nearAddr (x : Stream) (row r : Nat) : Nat :=
  (x.base + BitVec.ofNat 64 row * x.rstride + BitVec.ofNat 64 (r * fmtBytes x.fmt)).toNat

/-- A value or a failure. -/
inductive NearVal where
  | ok (v : Val)
  | bad (code addr : Nat)
  deriving DecidableEq, Repr

/-- Rounds to binary32. -/
def round32 (x : Exact) : Val := fpDecode .f32 (roundExact .f32 .rne false false x).code

/-- An element as its stream delivers it: dequantised where it has scales (R334). -/
def nearElem (e : EngineOp) (rec_ : List Byte) (x : Stream) (rlen n r : Nat) : NearVal :=
  match nearRow e rec_ x n with
  | .bad c a => .bad c a
  | .ok row =>
    match nearBytes e rec_ (nearAddr x row r) (fmtBytes x.fmt) with
    | .bad c a => .bad c a
    | .ok w =>
      let v := typeVal x.fmt false (BitVec.ofNat 64 w)
      if x.sfmt = 0 then .ok v
      else
        let z := x.sfmt
        match nearBytes e rec_ (x.sbase.toNat + (row * ((rlen + 31) / 32) + r / 32) * z) z with
        | .bad c a => .bad c a
        | .ok k =>
          let sc := scaleDecode (if x.sfmt = 1 then .sx8 else .sf12) k
          .ok (fpDecode .bf16 (roundExact .bf16 .rne false false (exactMul v sc)).code)

/-- The sum of an output's products, in ascending order (R334). -/
def nearDot (e : EngineOp) (rec_ : List Byte) (p : NearParam) (s0 s1 : Stream) (n : Nat) : Nat → Val → NearVal
  | 0, acc => .ok acc
  | k + 1, acc =>
    let r := p.r - (k + 1)
    match nearElem e rec_ s0 p.r n r with
    | .bad c a => .bad c a
    | .ok x =>
      if p.nomul then nearDot e rec_ p s0 s1 n k (round32 (exactAdd .rne acc x))
      else
        match nearElem e rec_ s1 p.r n r with
        | .bad c a => .bad c a
        | .ok y => nearDot e rec_ p s0 s1 n k (round32 (exactAdd .rne acc (exactVal (exactMul x y))))

/-- The activation (R334). -/
def nearAct (bs : List Byte) (acc : Val) : Val :=
  let i := ((List.range 5).filter fun j => match valCmp (fpDecode .f32 (tableWord bs 0xA0 j)) acc with
    | some .lt | some .eq => true
    | some .gt | none => false).length
  round32 (exactFma .rne (fpDecode .f32 (tableWord bs 0xB4 i)) acc (fpDecode .f32 (tableWord bs 0xCC i)))

/-- One output as a code of its format. -/
def nearOutput (e : EngineOp) (rec_ : List Byte) (n : Nat) : NearRead :=
  let bs := e.desc
  let p := nearParam bs
  match nearDot e rec_ p (nearStream bs 0) (nearStream bs 1) n p.r (.fin false 0 0) with
  | .bad c a => .bad c a
  | .ok acc =>
    let add := if p.add then nearElem e rec_ (nearStream bs 2) p.r n 0 else .ok (.fin true 0 0)
    match add with
    | .bad c a => .bad c a
    | .ok x =>
      let acc := if p.add then round32 (exactAdd .rne acc x) else acc
      let acc := if p.noact then acc else nearAct bs acc
      .ok (toType (nearStream bs 3).fmt ⟨.rne, p.sat, false⟩ (.val acc 0)).bits.toNat

/-- Outputs of a command from some index, with their addresses. -/
def nearOutputs (e : EngineOp) (rec_ : List Byte) : Nat → Nat → Except (Nat × Nat) (List (Nat × Nat))
  | 0, _ => .ok []
  | k + 1, n =>
    let x := nearStream e.desc 3
    match nearRow e rec_ x n with
    | .bad c a => .error (c, a)
    | .ok row =>
      let a := nearAddr x row 0
      if !inDeclared rec_ 2 a (fmtBytes x.fmt) then .error (cPROT, a)
      else
        match nearOutput e rec_ n with
        | .bad c a => .error (c, a)
        | .ok v => match nearOutputs e rec_ k (n + 1) with
          | .ok l => .ok ((a, v) :: l)
          | .error i => .error i

/-- Outputs of a command: the first, and how many. -/
def commandSpan (bs : List Byte) (cmd : Nat) : Nat × Nat := (256 * cmd, min 256 ((nearParam bs).n - 256 * cmd))

/-- Whether a command has been computed or aborted. -/
def commandOver (e : EngineOp) (x : GNode) (cmd : Nat) : Bool :=
  (lookupNat e.outs cmd).isSome || x.aborts.any fun a => a.1 = cmd

/-- Gives out the fallback's grids, one for each aborted command (R336). -/
def giveFallbacks (s : State) (g n : Nat) (e : EngineOp) (x : GNode) : State :=
  let launch := launchOfBytes (((nodeAt s g (nodeFallback x.record)).map (·.param)).getD [])
  x.aborts.foldl (fun s a =>
    if a.2.2.isSome then s
    else
      let (n0, k) := commandSpan e.desc a.1
      let grid := newGrid s launch e.ctx (some (g, n)) none (some (n0, k, a.2.1))
      let s := modNode s g n fun y =>
        { y with aborts := y.aborts.map fun b => if b.1 = a.1 then (b.1, b.2.1, some s.grids.length) else b }
      { s with grids := s.grids ++ [grid] }) s

/-- A near-memory node whose commands and fallback grids are all over has what it will write, after all that the grids
wrote (R335, R336). -/
def settleNear (s : State) (g n : Nat) : State :=
  match nodeOp s g n 3, nodeAt s g n with
  | some e, some x =>
    if e.status.isSome ∨ !((List.range (commandCount e.desc)).all (commandOver e x)) then s
    else if x.aborts.any fun a => a.2.2.isNone then giveFallbacks s g n e x
    else if x.aborts.all fun a => (a.2.2.bind fun k => s.grids[k]?).any (·.done) then
      let w := fmtBytes (nearStream e.desc 3).fmt
      let cmds := (List.range (commandCount e.desc)).flatMap fun c => (lookupNat e.outs c).getD []
      let out := cmds.foldl (fun l p => scatter l p.1 (bytesOf w p.2)) []
      putEngine s { e with swrites := toPhysical e out, status := some 0, ts := max e.ts x.ts }
    else s
  | _, _ => s

/-- A node's engine reports an error. -/
def nodeError (s : State) (e : EngineOp) (code addr : Nat) : State :=
  putEngine s { e with swrites := [], status := some code, info := addr }

/-- HUMMOCK_COMMAND (R334, R335). -/
def hummock (s : State) (g n cmd : Nat) : State :=
  match nodeOp s g n 3, nodeAt s g n with
  | some e, some x =>
    if e.status.isSome ∨ commandOver e x cmd ∨ commandCount e.desc ≤ cmd then s
    else
      let (n0, k) := commandSpan e.desc cmd
      (match nearOutputs e x.record k n0 with
       | .error (c, a) => nodeError s e c a
       | .ok l => settleNear (putEngine s { e with outs := insertNat e.outs cmd l }) g n)
  | _, _ => s

/-- HUMMOCK_COMMAND. -/
def execHummockCommand (g n cmd : Nat) (s : State) : Host.Outcome State Fault Refusal := .next (hummock s g n cmd)

/-- PARITY_ABORT (R336). -/
def parityAbort (s : State) (g n cmd pa : Nat) : State :=
  match nodeOp s g n 3, nodeAt s g n with
  | some e, some x =>
    if e.status.isSome ∨ commandOver e x cmd ∨ commandCount e.desc ≤ cmd then s
    else if nodeFallback x.record = 0xFFFFFFFF then nodeError s e cMEMERR pa
    else settleNear (modNode s g n fun y => { y with aborts := y.aborts ++ [(cmd, pa, none)] }) g n
  | _, _ => s

/-- PARITY_ABORT. -/
def execParityAbort (g n cmd pa : Nat) (s : State) : Host.Outcome State Fault Refusal := .next (parityAbort s g n cmd pa)

/-- The status byte of a `cn_cpyt` node's header (R198, R329, R330). -/
def copyStatus (s : State) (c g n : Nat) (x : GNode) (st : Nat) : State :=
  let (s, ts) := graphStore s c (descWord x.record 0x10 + 0x40) [BitVec.ofNat 8 st] x.ts
  noteNode s g n ts

/-- Whether a node is a `cn_cpyt` (R329). -/
def isCpyt (x : GNode) : Bool := x.kind = 1 && descWord x.param 0 = 0x40

/-- NODE_COMPLETE (R325, R336): a fallback's grid ends its part; else the node is complete. -/
def completeNode (s : State) (g n : Nat) : State :=
  match s.graphs[g]?, nodeAt s g n with
  | some gr, some x =>
    if x.state ≠ .running then s
    else if (nodeOp s g n 3).isSome then settleNear s g n
    else finishNode (if isCpyt x then copyStatus s gr.ctx g n x 0 else s) g n
  | _, _ => s

/-- NODE_COMPLETE. -/
def execNodeComplete (g n : Nat) (s : State) : Host.Outcome State Fault Refusal := .next (completeNode s g n)

/-! Decode nodes (R337 to R339). -/

/-- Reads virtual sectors for an operation, all or none; an error is a status, none a wait. -/
def readSectors : List Nat → State → EngineOp → Except (Option Nat) (State × EngineOp)
  | [], s, e => .ok (s, e)
  | v :: l, s, e =>
    match engineRead s e v with
    | .wait => .error none
    | .fail st => .error (some st)
    | .ok s x ts => readSectors l s { e with snap := insertNat e.snap v x, ts := max e.ts ts }

/-- The error code of an engine's status (R327, R361). -/
def statusCode (st : Nat) : Nat := if st = 2 then cMEMERR else cXOPERR

/-- How a decode node's frames are taken. -/
def decodeOpts (bs : List Byte) : FrameOpts :=
  let w := descWord bs
  ⟨w 0 / 2 ^ 17 % 2 = 1, w 0 / 2 ^ 18 % 2 = 1, w 0x28 % 65536, w 0x28 / 2 ^ 16 % 65536, w 0x28 / 2 ^ 32 % 65536, w 0x28 / 2 ^ 48⟩

/-- A unit decoded: its planes, its status bit, or the failure of FAULT mode; a unit that shows no frame has neither
planes nor a bit (R337, R339). -/
def unitDecoded (s : State) (e : EngineOp) (x : Session) (u : Nat) (bytes : List Byte) : State :=
  let f := descWord e.desc 0 % 65536
  let o := decodeOpts e.desc
  let damaged := unitDamaged x bytes
  let shown := Config.av1Shown x.units bytes
  let s := { s with sessions := s.sessions.map fun y => if y.decoder = x.decoder ∧ y.num = x.num then sessionNext x bytes else y }
  if damaged ∧ descWord e.desc 0 / 2 ^ 16 % 2 = 1 then nodeError s { e with writes := [(u, [])] } cFRAMEERR u
  else
    let planes := if shown then (planeNames (descWord e.desc 0x20)).filterMap fun p =>
        (lookupNat e.tensors p.2).map fun t => (t, planeElems x.units bytes o damaged p.1 t [(u : Int), 0, 0])
      else []
    putEngine s
      { e with
        snap := []
        stage := u + 1
        swrites := e.swrites ++ toPhysical e (placePlanes planes)
        writes := if damaged && shown then e.writes ++ [(u, [])] else e.writes
        status := if u + 1 = f then some 0 else none }

/-- DECODE_UNIT (R337, R339): the unit's table entry and bytes are read, then decoded. -/
def decodeUnitOf (s : State) (g n u : Nat) : State :=
  match nodeOp s g n 1 with
  | none => s
  | some e =>
    if e.stage ≠ u ∨ e.status.isSome ∨ s.power ≠ 0 then s
    else
      let entry := descWord e.desc 0x18 + 16 * u
      match readSectors (touchedBlocks 64 [(entry, 16)]) s e with
      | .error none => s
      | .error (some st) => nodeError s e (statusCode st) entry
      | .ok (s1, e1) =>
        let a := bitsOfBytes (snapBytes e1 entry 8)
        let w := bitsOfBytes (snapBytes e1 (entry + 8) 8)
        if 2 ^ 32 ≤ w then nodeError s1 e1 cXOPERR entry
        else
          match readSectors (touchedBlocks 64 [(a, w)]) s1 e1 with
          | .error none => s
          | .error (some st) => nodeError s1 e1 (statusCode st) a
          | .ok (s2, e2) =>
            match s2.sessions.find? fun x => x.decoder = e.unit ∧ x.num = e.reply with
            | some x => unitDecoded s2 e2 x u (snapBytes e2 a w)
            | none => nodeError s2 e2 cXOPERR 0

/-- DECODE_UNIT. -/
def execDecodeUnit (g n u : Nat) (s : State) : Host.Outcome State Fault Refusal := .next (decodeUnitOf s g n u)

/-! Start (R325, R326, R329 to R331, R337). -/

/-- What a node's start meets. -/
inductive StartOut where
  | wait
  | pagef (va kind : Nat)
  | fail (code addr : Nat)
  /-- A failure whose status has been stored (R330). -/
  | failed (s : State) (code addr : Nat)
  | ok (s : State)
  deriving DecidableEq, Repr

/-- What a trap of the dispatcher's own accesses makes of a node's start: a page that is not there is waited for (R325,
R353). -/
def trapOut (i : TrapInfo) : StartOut := if i.code = cPAGEF then .pagef i.addr (i.extra0 + 8) else .fail i.code i.addr

/-- The permissions that a declared access needs. -/
def accNeed (acc : Nat) : Need := { r := decide (acc % 2 = 1), w := decide (2 ≤ acc), x := false }

/-- R326 step 1 over the declared ranges. -/
def declaredCheck (s : State) (c : Nat) (rec_ : List Byte) : Option StartOut :=
  let checks := (nodeRanges rec_).filterMap fun r =>
    if 2 ^ 57 < r.1 + r.2.1 then some (trapAt cPROT r.1) else pageCheck (accNeed r.2.2) (rangePieces s c r.1 r.2.1)
  match checks.find? fun i => i.code = cPAGEF with
  | some i => some (.pagef i.addr (i.extra0 + 8))
  | none => (checks.head?).map fun i => .fail cPROT i.addr

/-- The ranges that a node locks, as physical runs (R326 step 3). -/
def nodeLocks (s : State) (c kind : Nat) (rec_ : List Byte) : List (Nat × Nat) :=
  let rs := if kind = 3 then nodeRanges rec_ else if kind = 1 ∨ kind = 2 then (nodeRanges rec_).filter fun r => 2 ≤ r.2.2 else []
  rs.flatMap fun r => contiguous (physPieces (rangePieces s c r.1 r.2.1))

/-- An operation of a node: it has no thread, and the node holds its locks. -/
def nodeWorkOp (s : State) (c g n eng fn : Nat) (x : GNode) : EngineOp :=
  { plainOp s s.threads.length eng fn with
    team := none
    ctx := c
    locked := true
    node := some (g, n, 0)
    desc := x.param
    descVa := descWord x.record 0x10
    ts := x.ts
    rm := 0 }

/-- Adds a node's operation. -/
def addOp (s : State) (e : EngineOp) : State := { s with engines := s.engines ++ [{ e with id := s.nextId }], nextId := s.nextId + 1 }

/-- A Sluice function of a copy node (R329, R330). -/
def startCommand (s : State) (c g n : Nat) (x : GNode) : StartOut :=
  let fn := descWord x.param 0
  let desc := x.param.drop 0x40
  let e := { nodeWorkOp s c g n 0 fn x with descVa := descWord x.record 0x10 + 0x40 }
  match commandTensors s c (descIds 0 fn desc) with
  | .error _ => .fail cXOPERR 0
  | .ok ts =>
    match tensorsBad 0 fn (ts.map (·.2)) with
    | some _ => .fail cXOPERR 0
    | none =>
      let e := commandOp s e desc ts
      .ok (addOp s { e with unit := homeDie ((e.ranges.headD (0, 0)).1) * 4, ranges := [] })

/-- A `cn_cpyt` that cannot be performed: its status, 2 for MEMERR and 1 otherwise, and code 23 (R198, R330). -/
def copyFails (s : State) (c g n : Nat) (x : GNode) (i : TrapInfo) : StartOut :=
  if i.code = cPAGEF then .pagef i.addr (i.extra0 + 8)
  else if i.code = cRLOCK then .wait
  else .failed (copyStatus s c g n x (if i.code = cMEMERR then 2 else 1)) cXOPERR i.addr

/-- `cn_cpyt` (R330): performed as `CPYT`; the node's own locks do not stand in its way. -/
def startCopy (s : State) (c g n : Nat) (x : GNode) : StartOut :=
  let w := descWord x.param
  let d := w 0x50
  let a := w 0x58
  let len := w 0x60
  let xf := w 0x68
  if len = 0 then .ok (send s [.nodeComplete g n])
  else
    match copyAlign xf d a len, lbcAlign s c xf d a len with
    | some i, _ | none, some i => copyFails s c g n x i
    | none, none =>
      match copyChecksOf s c none x.lockOp xf d a len with
      | .hold _ => .wait
      | .trap i => copyFails s c g n x i
      | .ok _ _ _ =>
        let dx := rangeXlats s c d len
        let sx := rangeXlats s c a (xfSrcLen xf len)
        let ds := dx.map fun p => (p.2.pa, p.1)
        let ss := sx.map fun p => (p.2.pa, p.1, lbcData p.2)
        let ks := pieceKeys (rangePieces s c d len)
        let t := s.threads.length
        if copyEager 0x99 xf ds (ss.map fun p => (p.1, p.2.1)) ((dx ++ sx).map fun p => p.2.key) then
          .ok (startOp s { eagerOp s t xf len d ds ss ks with ctx := c, team := none, ctr := .none, node := some (g, n, 0), ts := x.ts })
        else
          let acc : Access := { accessOf s t (.copy xf ds.length len (ss.map (·.2.2)) (dx.map (·.2.point)))
              (.phys (ds ++ ss.map fun p => (p.1, p.2.1))) len d ((dx.map (·.2)).headD noXlat) ks with
            owners := [], ctx := c, node := some (g, n) }
          .ok (enqueue s acc)

/-- R326 step 4: Pooled sectors merged, aliases materialised, dirty copies written back; over write ranges the L2 and
Peat copies are dropped as well. -/
def flushNear (s : State) (c : Nat) (rec_ : List Byte) : State :=
  (nodeRanges rec_).foldl (fun s r =>
    let ps := (physPieces (rangePieces s c r.1 r.2.1)).filter fun p => p.1 < dramEnd
    let secs := pieceSectors ps
    let s := secs.foldl (fun s sec => cleanSource s c sec) s
    let s := (pieceGrains ps).foldl plainGrain s
    let s := (dramLines secs).foldl (fun s l => flushPeat s c l) s
    if 2 ≤ r.2.2 then
      let s := secs.foldl (fun s sec => dirPut ((List.range 4).foldl (fun s d => l2Del s d sec) s) sec dirIdle) s
      (dramLines secs).foldl discardPeat s
    else s) s

/-- Virtual sectors of the ranges that a node reads. -/
def readSectorsOf (rec_ : List Byte) : List Nat :=
  touchedBlocks 64 (((nodeRanges rec_).filter fun r => r.2.2 % 2 = 1).map fun r => (r.1, r.2.1))

/-- Reads the sectors of a near-memory node: none where one stands under another operation's lock; a sector that cannot
be read is noted with its status. -/
def readNear : List Nat → State → EngineOp → Option (State × EngineOp)
  | [], s, e => some (s, e)
  | v :: l, s, e =>
    match engineRead s e v with
    | .wait => none
    | .fail st => readNear l s { e with writes := (v, [BitVec.ofNat 8 st]) :: e.writes }
    | .ok s y ts => readNear l s { e with snap := (v, y) :: e.snap, ts := max e.ts ts }

/-- A near-memory node takes memory as it stands (R335). -/
def startNear (s : State) (c g n : Nat) (x : GNode) : StartOut :=
  let s := flushNear s c x.record
  let targets := ((nodeRanges x.record).filter fun r => 2 ≤ r.2.2).map fun r => (r.1, r.2.1)
  match tilePages s c needW targets with
  | .error i => trapOut i
  | .ok ps =>
    match readNear (readSectorsOf x.record) s { nodeWorkOp s c g n 3 0 x with pages := ps.map fun p => (p.1, p.2.1, p.2.2.1) } with
    | some (s, e) => .ok (addOp s e)
    | none => .wait

/-- Units that wait at a decoder. -/
def queuedUnits (s : State) (d : Nat) : Nat :=
  ((s.engines.filter fun e => e.engine = 1 ∧ e.unit = d).map fun e =>
    if e.fn = 16 then descWord e.desc 0 % 65536 - e.stage else if e.fn = 1 then 1 else 0).sum

/-- The decoder with the fewest queued units that has a free session, and the session. -/
def chooseDecoder (s : State) : Option (Nat × Nat) :=
  let free (d : Nat) : Option Nat := (List.range 64).find? fun k => !s.sessions.any fun x => x.decoder = d ∧ x.num = k
  (List.range 16).foldl (fun best d => match free d with
    | none => best
    | some k => match best with
      | none => some (d, k)
      | some b => if queuedUnits s d < queuedUnits s b.1 then some (d, k) else some b) none

/-- A decode node opens its session (R337). -/
def startDecode (s : State) (c g n : Nat) (x : GNode) : StartOut :=
  let w := descWord x.param
  let names := (planeNames (w 0x20)).map fun p => (p.2, 0x20)
  match commandTensors s c names with
  | .error _ => .fail cXOPERR 0
  | .ok ts =>
    if ts.any fun t => !planeFmt t.2.fmt ∨ t.2.ndim < 3 then .fail cXOPERR 0
    else
      match tilePages s c needW (ts.map fun t => tensorSpan t.2), chooseDecoder s with
      | .error i, _ => trapOut i
      | .ok _, none => .wait
      | .ok ps, some (d, k) =>
        let sess : Session := ⟨d, k, c, BitVec.ofNat 64 (w 8), BitVec.ofNat 64 (w 0x10), [], false⟩
        .ok (addOp { s with sessions := s.sessions ++ [sess] }
          { nodeWorkOp s c g n 1 16 x with
            unit := d
            tensors := ts
            pages := ps.map fun p => (p.1, p.2.1, p.2.2.1)
            reply := k })

/-- A compute node's grid (R224, R328). -/
def startCompute (s : State) (c g n : Nat) (x : GNode) : StartOut :=
  let grid := newGrid s (launchOfBytes x.param) c (some (g, n)) none none
  .ok (modNode { s with grids := s.grids ++ [grid] } g n fun y => { y with grid := some s.grids.length })

/-- A host-signal node (R331). -/
def startSignal (s : State) (c g n : Nat) (x : GNode) (handle : Word) : StartOut :=
  let m : LodeOut := .hostSignal (((s.contexts[c]?).map (·.ctxid)).getD 0) handle n (BitVec.ofNat 64 (descWord x.param 0))
  .ok (send { s with out := s.out ++ [m] } [.nodeComplete g n])

/-- A node's own work, by its kind. -/
def startKind (s : State) (c g n : Nat) (x : GNode) (handle : Word) : StartOut :=
  match x.kind with
  | 0 => startCompute s c g n x
  | 1 => if isCpyt x then startCopy s c g n x else startCommand s c g n x
  | 2 => startDecode s c g n x
  | 3 => startNear s c g n x
  | _ => startSignal s c g n x handle

/-- What starting a node meets, its ranges translated and its locks taken first, behind the accesses that are about to be
performed in them (R326). -/
def tryStart (s : State) (g n : Nat) (gr : Graph) (x : GNode) : StartOut :=
  match declaredCheck s gr.ctx x.record with
  | some r => r
  | none =>
    let rs := nodeLocks s gr.ctx x.kind x.record
    if rs.isEmpty then startKind s gr.ctx g n x gr.handle
    else if !lockFree s none none rs || accessBefore s none (some (g, n)) rs then .wait
    else
      let op := s.nextId
      let s := modNode (takeLocks { s with nextId := op + 1 } op rs none) g n fun y => { y with lockOp := some op }
      startKind s gr.ctx g n { x with lockOp := some op } gr.handle

/-- Whether the fault-queue entry that a node waits for has been passed (R326, R353). -/
def faultOver (s : State) (gr : Graph) (x : GNode) : Bool :=
  match x.fault with
  | none => true
  | some i => ((s.contexts[gr.ctx]?).map fun k => decide (i < k.fqHead)).getD false

/-- A dispatcher's PAGEF: its record in the context's fault queue, and the node waits for it (R326, R353). -/
def dispatcherFault (s : State) (g n va kind : Nat) (gr : Graph) : State :=
  match s.contexts[gr.ctx]? with
  | none => s
  | some cx =>
    if cx.fqn ≤ cx.fqTail - cx.fqHead then s
    else
      let i := cx.fqTail
      let bs := bytesOf 8 (cPAGEF + 256 + 2 ^ 26 + 2 ^ 32 * cx.ctxid) ++ List.replicate 24 0 ++ bytesOf 8 va ++ bytesOf 8 kind
        ++ bytesOf 8 n ++ List.replicate 200 0
      match virtStore s gr.ctx (cx.fq + 256 + 256 * (i % cx.fqn)) bs 0 with
      | .error e => stopContext s gr.ctx cPAGEF va bs (some e.code)
      | .ok (s, ts) =>
        match virtStore s gr.ctx cx.fq (bytesOf 8 (i + 1)) ts with
        | .error e => stopContext s gr.ctx cPAGEF va bs (some e.code)
        | .ok (s, _) =>
          let s := modCtx s gr.ctx fun k => { k with fqTail := i + 1 }
          let s := { s with out := s.out ++ [.fault cx.ctxid i] }
          modNode s g n fun x => { x with fault := some i }

/-- Whether a node stands in the pool of a context that runs. -/
def inPool (s : State) (gr : Graph) (x : GNode) : Bool :=
  x.state = .ready && s.power = 0 && !gr.finished && faultOver s gr x
    && ((s.contexts[gr.ctx]?).map fun k => k.live && !k.stopped).getD false

/-- Whether a node of the pool can start, fail or fault now. -/
def canStart (s : State) (g n : Nat) (gr : Graph) (x : GNode) : Bool :=
  inPool s gr x && match tryStart s g n gr x with
    | .wait => false
    | .pagef _ _ => ((s.contexts[gr.ctx]?).map fun k => decide (k.fqTail - k.fqHead < k.fqn)).getD false
    | .fail _ _ | .failed _ _ _ | .ok _ => true

/-- The pool, in the order in which nodes entered it, then by handle and node (R325). -/
def poolBefore (a b : Nat × Nat × Nat) : Bool :=
  a.1 < b.1 || (a.1 = b.1 && (a.2.1 < b.2.1 || (a.2.1 = b.2.1 && a.2.2 < b.2.2)))

/-- The first node that the dispatcher can start. -/
def firstStart (s : State) : Option (Nat × Nat) :=
  ((List.range s.graphs.length).flatMap fun g => match s.graphs[g]? with
    | none => []
    | some gr => (List.range gr.nodes.length).filterMap fun n => match gr.nodes[n]? with
      | some x => if canStart s g n gr x then some ((x.readyClk, gr.handle.toNat, n), (g, n)) else none
      | none => none).foldl (fun (best : Option ((Nat × Nat × Nat) × (Nat × Nat))) a => match best with
    | none => some a
    | some b => if poolBefore a.1 b.1 then some a else some b) none |>.map (·.2)

/-- NODE_START (R325, R326): the first node of the pool that can start. -/
def startNode (s : State) (g n : Nat) : State :=
  if firstStart s ≠ some (g, n) then s
  else
    match s.graphs[g]?, nodeAt s g n with
    | some gr, some x =>
      (match tryStart s g n gr x with
       | .wait => s
       | .pagef va kind => dispatcherFault s g n va kind gr
       | .fail code addr => failNode s g n code addr
       | .failed s code addr => failNode s g n code addr
       | .ok s => modNode s g n fun y => { y with state := .running })
    | _, _ => s

/-- NODE_START. -/
def execNodeStart (g n : Nat) (s : State) : Host.Outcome State Fault Refusal := .next (startNode s g n)

end Sys2Proof.Machine
end

