-- ==== Sys2Proof/Machine/Ready.lean ====
section
/-! DEFINITION. Ready threads, the PC hash tables that hold them, and the candidates a partition issues (R32 to R34, R99,
R140, R228). -/

namespace Sys2Proof.Machine

/-! Readiness (R33). -/

/-- The counter that an instruction raises in a thread (R140, R181, R190, R196, R197, R202, R203). -/
def ctrOf (opc : Nat) : Ctr :=
  match opc with
  | 0x90 | 0x92 | 0x94 | 0x9C | 0x9D | 0xB0 | 0xB1 | 0xB4 | 0xC3 | 0xE2 | 0xE4 | 0xE5 => .ld
  | 0x91 | 0x93 | 0x95 | 0xA0 | 0xA1 | 0xB2 | 0xB3 | 0xC2 | 0xE3 => .st
  | 0x98 | 0x99 | 0x9A | 0x9B | 0xB6 | 0xB7 | 0xB8 | 0xE0 | 0xE1 => .cp
  | 0xD2 | 0xD3 | 0xD4 | 0xD5 | 0xD6 | 0xD7 | 0xDA => .tl
  | _ => .none

/-- Opcode and fields of the instruction at the head of some bytes; none where the bytes are no instruction of a legal
length. -/
def headForm (bs : List Byte) : Option (BitVec 8 × Form) :=
  match Len.ofBits (BitVec.ofNat 2 (bitsOfBytes (bs.take 1))) with
  | none => none
  | some l =>
    let opc : BitVec 8 := BitVec.ofNat 8 (headOpcode bs)
    if bs.length < l.bytes ∨ !lengthOk opc l then none
    else some (opc, fieldsOf l (BitVec.ofNat 128 (bitsOfBytes (bs.take l.bytes))))

/-- The operand signature an instruction has in a thread. -/
def threadSig (s : State) (t : Nat) (th : Thread) (opc : BitVec 8) (f : Form) : Sig :=
  match opc.toNat with
  | 0x13 => selSig f th
  | 0x94 => ldtSig s f (ctxOf s t)
  | 0x95 => sttSig s f (ctxOf s t)
  | _ => sigOf opc f

/-- Whether nothing of a thread that its next instruction uses is pending, and no counter it would raise stands at 63
(R30, R33). -/
def usesReady (s : State) (t : Nat) (th : Thread) (bs : List Byte) : Bool :=
  match headForm bs with
  | none => true
  | some (opc, f) =>
    (usesPending s t th (threadSig s t th opc f) f).isNone
      && (ctrOf opc.toNat = .none || !guardHolds th f || decide (counterOf th (ctrOf opc.toNat) < 63))

/-- A thread is ready (R33): its next instruction has been fetched, it waits for nothing, and what the instruction uses is
there. -/
def seenReady (s : State) (a : Seen) : Bool :=
  !a.start && match a.bytes, s.threads[a.tid]? with
    | some bs, some th => usesReady s a.tid th bs
    | _, _ => false

/-- The ready threads, as the grouping stage sees them. -/
def readySeen (s : State) : List Seen := (seenThreads s).filter (seenReady s)

/-! The PC hash tables (R32). -/

/-- Ways of a set, and the set of a PC (R32). -/
def pcSet (pc : DWord) : BitVec 4 := pc.extractLsb' 6 4 ^^^ pc.extractLsb' 10 4

/-- Whether an entry is a thread's pair's. -/
def entryOf (e : PcEntry) (a : Seen) : Bool := e.part = a.part && e.grid = a.grid && e.pc = a.pc

/-- Whether a set of a partition has a free way. -/
def wayFree (c : Core) (part : Nat) (pc : DWord) : Bool :=
  decide ((c.pcs.filter fun e => e.part = part && pcSet e.pc = pcSet pc).length < 4)

/-- Whether a thread stands in a core's tables. -/
def inTable (c : Core) (t : Nat) : Bool := c.pcs.any fun e => e.threads.contains t

/-- Whether a thread stands in a core's overflow lists. -/
def inOverflow (c : Core) (t : Nat) : Bool := c.overflow.any fun p => p.2 = t

/-- What has left: threads that are ready no longer, or at another pair, and the entries that they leave empty. -/
def leaveTable (rs : List Seen) (c : Core) : Core :=
  { c with
    pcs := (c.pcs.map fun e => { e with threads := e.threads.filter fun t => rs.any fun a => a.tid = t && entryOf e a }).filter
      fun e => !e.threads.isEmpty
    overflow := c.overflow.filter fun p => rs.any fun a => a.tid = p.2 && a.part = p.1 }

/-- A free way goes to a thread of the overflow list, with every other thread of the list that carries its pair. -/
def fromOverflow (rs : List Seen) (c : Core) (a : Seen) : Core :=
  if inOverflow c a.tid && wayFree c a.part a.pc then
    let e : PcEntry := ⟨a.part, a.grid, a.pc, []⟩
    let ts := (c.overflow.filter fun p => rs.any fun b => b.tid = p.2 && entryOf e b).map (·.2)
    { c with pcs := c.pcs ++ [{ e with threads := ts }], overflow := c.overflow.filter fun p => !ts.contains p.2 }
  else c

/-- A thread becomes ready: it joins its pair's entry, or a free way, or the overflow list. -/
def joinTable (c : Core) (a : Seen) : Core :=
  if inTable c a.tid || inOverflow c a.tid then c
  else if c.pcs.any fun e => entryOf e a then
    { c with pcs := c.pcs.map fun e => if entryOf e a then { e with threads := e.threads ++ [a.tid] } else e }
  else if wayFree c a.part a.pc then { c with pcs := c.pcs ++ [⟨a.part, a.grid, a.pc, [a.tid]⟩] }
  else { c with overflow := c.overflow ++ [(a.part, a.tid)] }

/-- A core's tables with the threads that are ready on it: the overflow lists are served oldest first, then the threads
that become ready now, in the order of their numbers (log 4). -/
def settleTable (rs : List Seen) (c : Core) : Core :=
  let here := rs.filter fun a => a.die = c.die && a.site = c.site
  let c := leaveTable here c
  let waiting := c.overflow.filterMap fun p => here.find? fun a => a.tid = p.2
  here.foldl joinTable (waiting.foldl (fromOverflow here) c)

/-- Every table takes in what has become ready, whose age is the clk at which it did (R33). -/
def settleReady (s : State) : State :=
  let rs := readySeen s
  let s0 := rs.foldl (fun s a => modCore s a.die a.site fun c => c) s
  let fresh := rs.filter fun a => !(coreAt s a.die a.site).pcs.any (fun e => entryOf e a && e.threads.contains a.tid)
    && !inOverflow (coreAt s a.die a.site) a.tid
  { s0 with
    cores := s0.cores.map (settleTable rs)
    threads := s0.threads.mapIdx fun i th =>
      if fresh.any fun a => a.tid = i then { th with age := s.clk, promoted := false } else th }

/-! Candidates (R34). -/

/-- The ready threads of an entry. -/
def entrySeen (s : State) (e : PcEntry) : List Seen := e.threads.filterMap (seenOf s)

/-- A candidate with its oldest member and its class: threads that run from one copy of their code (R34, R99; log 4). -/
def entryCandidate (s : State) (e : PcEntry) : Option (Seen × Bool × Issue) :=
  let l := entrySeen s e
  (oldestSeen l).map fun a => (a, classF (headOpcode (a.bytes.getD [])), candidate l a)

/-- The candidates of a partition that it may issue this clk: of each class that it has not issued yet, those than which
none is older (R34). -/
def partitionIssues (s : State) (c : Core) (part : Nat) : List Issue :=
  let l := (c.pcs.filter fun e => e.part = part).filterMap (entryCandidate s)
  let l := l.filter fun x => !c.issuedNow.contains (part, x.2.1)
  (l.filter fun x => !l.any fun y => y.2.1 = x.2.1 && older y.1 x.1).map fun x => x.2.2

/-- Every issue that may be made this clk. -/
def issues (s : State) : List Issue := s.cores.flatMap fun c => (List.range 6).flatMap (partitionIssues s c)

/-- Whether a partition whose ready threads include a promoted one can issue: this clk does not pass without it (R34,
R228). -/
def mustIssue (s : State) : Bool :=
  s.cores.any fun c => (List.range 6).any fun p =>
    !(partitionIssues s c p).isEmpty
      && (c.overflow.any (fun q => q.1 = p && (s.threads[q.2]?).any (·.promoted))
          || c.pcs.any fun e => e.part = p && e.threads.any fun t => (s.threads[t]?).any (·.promoted))

/-- Whether a thread has been ready and unissued for 2,048 clk (R34). -/
def promotable (s : State) (t : Nat) (th : Thread) : Bool :=
  let (d, c) := coreOf s t
  !th.promoted && decide (th.age + 2048 ≤ s.clk) && (inTable (coreAt s d c) t || inOverflow (coreAt s d c) t)

end Sys2Proof.Machine
end

