-- ==== Sys2Proof/Machine/Events.lean ====
section
/-! DEFINITION. Events of the package's agents: fetches and returns, Reed's work, the die protocol's messages, wakes,
and events of time. -/

namespace Sys2Proof.Machine

/-! Fetch and issue (R34, R65, R99). -/

/-- INSTRUCTION_FETCH (R65). -/
def execInstructionFetch (die site part block : Nat) (s : State) : Host.Outcome State Fault Refusal :=
  .next (fetchBlock s die site part block)

/-- A thread left unissued for 2,048 clk is promoted (R34). -/
def promote (s : State) (t : Nat) : State :=
  match s.threads[t]? with
  | some th => if promotable s t th then modThread s t fun th => { th with promoted := true } else s
  | none => s

/-- PROMOTION (R34). -/
def execPromotion (t : Nat) (s : State) : Host.Outcome State Fault Refusal := .next (promote s t)

/-- LOOP_BUFFER_GRANT (R99). -/
def execLoopBufferGrant (die site part : Nat) (s : State) : Host.Outcome State Fault Refusal := .next (grantLoop s die site part)

/-! Accesses performed (R140, R144). -/

/-- Whether an access's end is the return of data to a register. -/
def returnsData (k : AccKind) : Bool :=
  match k with
  | .load _ _ _ | .alq | .abarv _ | .graphFire | .nodeq _ _ => true
  | _ => false

/-- `ACAS`'s new value where the comparison holds (R161). -/
def casNew (a : Access) (w : Nat) (old : DWord) : Option DWord :=
  if old.toNat = a.cmp.toNat % 2 ^ (8 * w) then some (BitVec.ofNat 64 (bitsOfBytes a.bytes)) else none

/-- An access is performed, when its order allows it. -/
def performAccess (s : State) (a : Access) : State :=
  match a.kind with
  | .load fresh stale sext => performLoad s a fresh stale sext
  | .store => performStore s a
  | .atom op ty => performAtom s a fun old => some (atomOp op ty old a.cmp)
  | .acas w => performAtom s a (casNew a w)
  | .red tag steps _ => redStep s a tag steps
  | .record code stop => performRecord s a code stop
  | .copy _ _ _ _ _ => copyCommit s a.id
  | .matz => performMatz s a
  | .alq => performAlq s a
  | .flush inv peat discard => if discard then performDiscard s a else performFlush s a inv peat
  | .tidSet n image => performTidSet s a n image
  | .mqPush q => performMqPush s a q
  | .abinit b c => performObject s a (some (b, c)) 0
  | .abarv bytes => performObject s a none bytes
  | .graphFire => performGfire s a
  | .nodeq h n => performNodeq s a h n
  | .done => endAccess s a

/-- LOAD_RETURN (R144). -/
def loadReturnOf (s : State) (id : Nat) : State :=
  match readyAccess s id with
  | some a => if returnsData a.kind then performAccess s a else s
  | none => s

/-- LOAD_RETURN. -/
def execLoadReturn (a : Nat) (s : State) : Host.Outcome State Fault Refusal := .next (loadReturnOf s a)

/-- Whether an access ends with an acknowledgement. -/
def acknowledges (k : AccKind) : Bool :=
  match k with
  | .red _ _ _ | .copy _ _ _ _ _ => false
  | k => !returnsData k

/-- ACCESS_ACKNOWLEDGE (R140). -/
def acknowledge (s : State) (id : Nat) : State :=
  match readyAccess s id with
  | some a => if acknowledges a.kind then performAccess s a else s
  | none => s

/-- ACCESS_ACKNOWLEDGE. -/
def execAccessAcknowledge (a : Nat) (s : State) : Host.Outcome State Fault Refusal := .next (acknowledge s a)

/-- SLICE_RED_UPDATE (R308): one step of a combined `RED`. -/
def sliceUpdate (s : State) (id : Nat) : State :=
  match readyAccess s id with
  | some a => (match a.kind with
    | .red tag steps _ => redStep s a tag steps
    | _ => s)
  | none => s

/-- SLICE_RED_UPDATE. -/
def execSliceRedUpdate (a : Nat) (s : State) : Host.Outcome State Fault Refusal := .next (sliceUpdate s a)

/-- COPY_COMMIT (R282). -/
def execCopyCommit (a : Nat) (s : State) : Host.Outcome State Fault Refusal := .next (copyCommit s a)

/-! Reed (R283, R284, R286, R290). -/

/-- SOURCE_BLOCK_READ (R283, R284): a sector of a source block is read at its home and fills its Peat cache. -/
def execSourceBlockRead (_home sec : Nat) (s : State) : Host.Outcome State Fault Refusal := .next (touchSector s sec none)

/-- DHOME_MATERIALISE (R286). -/
def execDhomeMaterialise (dhome grain : Nat) (s : State) : Host.Outcome State Fault Refusal :=
  .next (dhomeMaterialiseGrain s dhome grain)

/-- ALIAS_RELEASE_NOTICE (R286): the source homes drop what no entry of the destination home reads any more. -/
def execAliasReleaseNotice (home grain len : Nat) (s : State) : Host.Outcome State Fault Refusal :=
  .next (freeWatches s home grain len)

/-- HOT_MATERIALISE (R284, R287): the entry of a home that covers a grain. -/
def hotMaterialiseOf (s : State) (home grain : Nat) : State :=
  match ((s.homes[home]?).map (·.aliases)).bind fun l => l.find? fun e => e.dst ≤ grain && grain < e.dst + e.len with
  | some e => modHome (materialiseEntry s home e) home fun h => { h with hot := h.hot + 1 }
  | none => s

/-- HOT_MATERIALISE. -/
def execHotMaterialise (home grain : Nat) (s : State) : Host.Outcome State Fault Refusal := .next (hotMaterialiseOf s home grain)

/-- The oldest alias entry that the watch table of a home waits for, with its home (R290). -/
def oldestWatched (s : State) (h : Home) : Option (Nat × AliasEntry) :=
  let all := (List.range 12).flatMap fun d => (((s.homes[d]?).map (·.aliases)).getD []).filterMap fun e =>
    if h.watches.any fun w => w.dhome = d && entryReads e w.src w.len then some (d, e) else none
  all.foldl (fun (acc : Option (Nat × AliasEntry)) p => match acc with
    | none => some p
    | some q => if p.2.wts < q.2.wts then some p else some q) none

/-- BACKGROUND_MATERIALISER (R290): one entry of a home's drain; it goes on until the tables hold 24,576 entries. -/
def drainOne (s : State) (home : Nat) : State :=
  match s.homes[home]? with
  | none => s
  | some h =>
    let al := h.draining && decide (reedLow < h.aliases.length)
    let wa := h.drainWatch && decide (reedLow < h.watches.length)
    let victim := if al then (oldestAlias h.aliases).map fun e => (home, e) else if wa then oldestWatched s h else none
    match victim with
    | some (d, e) =>
      send (modHome (materialiseEntry s d e) home fun h => { h with drained := h.drained + 1, draining := al, drainWatch := wa })
        [.backgroundMaterialiser home]
    | none => modHome s home fun h => { h with draining := false, drainWatch := false }

/-- BACKGROUND_MATERIALISER. -/
def execBackgroundMaterialiser (home : Nat) (s : State) : Host.Outcome State Fault Refusal := .next (drainOne s home)

/-! The die protocol (R296, R297, R300, R302, R312). -/

/-- RDS (R297). -/
def execRds (die sec : Nat) (s : State) : Host.Outcome State Fault Refusal := .next (homeRequest s sec ⟨0, die, 0⟩)

/-- RDX (R297). -/
def execRdx (die sec : Nat) (s : State) : Host.Outcome State Fault Refusal := .next (homeRequest s sec ⟨1, die, 0⟩)

/-- UPG (R297). -/
def execUpg (die sec : Nat) (s : State) : Host.Outcome State Fault Refusal := .next (homeRequest s sec ⟨2, die, 0⟩)

/-- PJOIN (R300). -/
def execPjoin (die sec tag : Nat) (s : State) : Host.Outcome State Fault Refusal := .next (homeRequest s sec ⟨3, die, tag⟩)

/-- WBM (R297). -/
def execWbm (m : SectorMsg) (s : State) : Host.Outcome State Fault Refusal := .next (homeWbm s m)

/-- DROP (R297). -/
def execDrop (die sec : Nat) (s : State) : Host.Outcome State Fault Refusal := .next (homeDrop s die sec)

/-- INV (R296). -/
def execInv (die sec : Nat) (s : State) : Host.Outcome State Fault Refusal := .next (dieInv s die sec)

/-- FWD (R297). -/
def execFwd (owner dest sec : Nat) (inval : Bool) (s : State) : Host.Outcome State Fault Refusal :=
  .next (dieFwd s owner dest sec inval)

/-- PRECALL (R302). -/
def execPrecall (die sec : Nat) (s : State) : Host.Outcome State Fault Refusal := .next (diePrecall s die sec)

/-- PEEK (R312): the owner's bytes go to the home, for the `LD.S` whose turn it is. -/
def execPeek (owner sec _acc : Nat) (s : State) : Host.Outcome State Fault Refusal := .next (diePeek s owner sec)

/-- ACK (R296). -/
def execAck (m : SectorMsg) (s : State) : Host.Outcome State Fault Refusal := .next (homeAck s m)

/-- DATA (R296). -/
def execData (m : SectorMsg) (s : State) : Host.Outcome State Fault Refusal := .next (dieData s m)

/-- GRANT (R296). -/
def execGrant (m : SectorMsg) (s : State) : Host.Outcome State Fault Refusal := .next (dieGrant s m)

/-! Waits that an event ends (R164, R213). -/

/-- MONITOR_WAKE (R164): the thread whose monitor a write has freed reads again. -/
def wakeMonitor (s : State) (t : Nat) : State := match waitAt s t with | .woken _ => waitcAgain s t | _ => s

/-- MONITOR_WAKE. -/
def execMonitorWake (t : Nat) (s : State) : Host.Outcome State Fault Refusal := .next (wakeMonitor s t)

/-- WAITC_POLL (R164): the thread reads again once its 256 clk are over. -/
def pollAgain (s : State) (t : Nat) : State :=
  match waitAt s t with
  | .poll c => if c ≤ s.clk then waitcAgain s t else s
  | _ => s

/-- WAITC_POLL. -/
def execWaitcPoll (t : Nat) (s : State) : Host.Outcome State Fault Refusal := .next (pollAgain s t)

/-- SLEEP_EXPIRE (R213). -/
def wakeSleeper (s : State) (t : Nat) : State :=
  match waitAt s t with
  | .sleep c => if c ≤ s.clk then modThread s t fun th => becomeReady th s.clk else s
  | _ => s

/-- SLEEP_EXPIRE. -/
def execSleepExpire (t : Nat) (s : State) : Host.Outcome State Fault Refusal := .next (wakeSleeper s t)

/-! Time (R266, R267, R251, R252, R240). -/

/-- Whether a thread is resident: it lives and its team runs. -/
def residentThread (s : State) (t : Nat) : Bool := !threadExited s t && (teamOf s t).any teamRuns

/-- PTIME_TICK (R266): a multiple of 128 package clk. -/
def tick (s : State) : State :=
  { s with ticked := s.ticked + 1,
           threads := s.threads.mapIdx fun t th => if residentThread s t then { th with ptime := th.ptime + 1 } else th }

/-- PTIME_TICK. -/
def execPtimeTick (s : State) : Host.Outcome State Fault Refusal := .next (tick s)

/-- The largest ptime of the package. -/
def largestPtime (s : State) : Nat := s.threads.foldl (fun m th => max m th.ptime) 0

/-- Whether the report of R267 is due. -/
def ptimeDue (s : State) : Bool := decide (2 ^ 47 ≤ largestPtime s) && !s.ptimeReported

/-- PTIME_LIMIT_REPORT (R267). -/
def reportPtime (s : State) : State :=
  if ptimeDue s then { s with out := s.out ++ [.ptime (largestPtime s)], ptimeReported := true } else s

/-- PTIME_LIMIT_REPORT. -/
def execPtimeLimitReport (s : State) : Host.Outcome State Fault Refusal := .next (reportPtime s)

/-- WC_FALLBACK (R251). -/
def wcFallbackOf (s : State) (home line : Nat) : State :=
  match s.homes[home]? with
  | some h =>
    if h.wc.any fun w => w.line = line && decide (w.since + w.wait ≤ s.clk) then
      let (h, m) := wcFall (peatCall s none) h s.mem line
      { s with homes := setAt s.homes home h, mem := m }
    else s
  | none => s

/-- WC_FALLBACK. -/
def execWcFallback (home line : Nat) (s : State) : Host.Outcome State Fault Refusal := .next (wcFallbackOf s home line)

/-- A window at the end of a period (R252): gone at 0. -/
def fadeWindow (w : PinWindow) : Option PinWindow :=
  if w.hit then some { w with hit := false }
  else if w.fade ≤ 1 then none
  else some { w with fade := w.fade - 1 }

/-- Whether a period of `FADEPER` microseconds of 700 clk has ended; a `FADEPER` of 0 has no period (R4, R252). -/
def fadeDue (s : State) (k : Context) : Bool :=
  k.live && decide (k.fadeper ≠ 0) && decide (k.fadeClk + 700 * k.fadeper.toNat ≤ s.clk)

/-- FADE_PERIOD (R252). -/
def fadeContext (s : State) (c : Nat) : State :=
  match s.contexts[c]? with
  | some k =>
    if fadeDue s k then
      modCtx s c fun k => { k with windows := k.windows.filterMap fadeWindow, fadeClk := k.fadeClk + 700 * k.fadeper.toNat }
    else s
  | none => s

/-- FADE_PERIOD. -/
def execFadePeriod (ctx : Nat) (s : State) : Host.Outcome State Fault Refusal := .next (fadeContext s ctx)

/-- SCRATCHPAD_REFILL (R240). -/
def execScratchpadRefill (team page : Nat) (s : State) : Host.Outcome State Fault Refusal := .next (refill s team page)

end Sys2Proof.Machine
end

