-- ==== Sys2Proof/Machine/Host.lean ====
section
/-! DEFINITION. The host's messages and what arrives over Lode: contexts, pre-emption, keys, modes and power (R273, R293,
R305, R323, R328, R342 to R346, R353 to R358, R370). -/

namespace Sys2Proof.Machine

/-! Messages (R345). -/

/-- The device answers a message. -/
def reply (s : State) (h : HostHead) (status value : Nat) : State :=
  { s with out := s.out ++ [.reply h.node h.ctxid h.seq status value] }

/-- A message arrives: nothing does while the Lode ports are down; a node without the host role is refused, and so is
every message after a fatal error (R359). -/
def served (h : HostHead) (s : State) (f : State → State) : State :=
  if !s.lodeUp then s else if hostRole s h.node ∧ !s.fatal then f s else reply s h 1 0

/-- A message that names a live context; without one it is refused. -/
def withContext (h : HostHead) (s : State) (f : Nat → State → State) : State :=
  match ctxWith s h.ctxid with
  | some c => f c s
  | none => reply s h 1 0

/-! Contexts (R342, R344). -/

/-- Whether a descriptor's fields lie in their ranges, its reserved bits are zero and its ctxid is free. -/
def descriptorOk (s : State) (bs : List Byte) : Bool :=
  let w (off : Nat) : Nat := descWord bs off
  let va (off align : Nat) : Bool := decide (w off % align = 0) && decide (w off < 2 ^ 57)
  let fqn := w 0x50
  decide (w 0 < 2 ^ 19) && decide (1 ≤ w 0 % 65536) && (ctxWith s (w 0 % 65536)).isNone
    && decide (w 8 < 2 ^ 52) && decide (w 8 % 2 ^ 14 = 0)
    && va 0x10 4 && va 0x18 65536
    && decide (1 ≤ w 0x20 / 2 ^ 32) && decide (w 0x20 / 2 ^ 32 ≤ 65536)
    && decide (w 0x20 % 2 ^ 32 ≠ 0) && decide (w 0x20 % 65536 = 0)
    && va 0x28 4096 && decide (w 0x30 % 4096 = 0) && va 0x38 4096 && decide (w 0x40 % 4096 = 0) && va 0x48 256
    && (List.range 13).any (fun i => fqn = 2 ^ (i + 4))
    && decide (w 0x68 < 256) && decide (w 0x78 = 0)

/-- The context of a descriptor; its other system registers take the resets of R39. -/
def contextOfDescriptor (s : State) (bs : List Byte) : Context :=
  let w (off : Nat) : Nat := descWord bs off
  { plainContext with
    ctxid := w 0 % 65536
    sys := w 0 / 2 ^ 16 % 2 = 1
    swspill := w 0 / 2 ^ 17 % 2 = 1
    lodeok := w 0 / 2 ^ 18 % 2 = 1
    root := w 8
    restore := BitVec.ofNat 64 (w 0x10)
    savebase := w 0x18
    nblk := w 0x20 / 2 ^ 32
    blksz := w 0x20 % 2 ^ 32
    privbase := w 0x28
    privsize := w 0x30
    spbase := w 0x38
    spsize := w 0x40
    fq := w 0x48
    fqn := w 0x50
    trapvec := BitVec.ofNat 64 (w 0x58) &&& ~~~ 0x3F#64
    traprec := BitVec.ofNat 64 (w 0x60) &&& ~~~ 0xFF#64
    keyid := w 0x68
    budget := budgetOf (BitVec.ofNat 64 (w 0x70))
    fadeClk := s.clk
    bringUp := false }

/-- CTX_CREATE (R342). -/
def createContext (s : State) (h : HostHead) (desc : Nat) : State :=
  let readable := decide (desc % 64 = 0) && decide (desc + 128 ≤ dramEnd)
    && (pieceSectors [(desc, 128)]).all fun sec => (readMark s desc sec 0).isNone
  if !readable then reply s h 1 0
  else
    let (s1, bs, _) := readBytesNow s desc 128 none 0
    if descriptorOk s1 bs then reply { s1 with contexts := s1.contexts ++ [contextOfDescriptor s1 bs] } h 0 0
    else reply s1 h 1 0

/-- CTX_CREATE. -/
def execCtxCreate (h : HostHead) (desc : Nat) (s : State) : Host.Outcome State Fault Refusal :=
  .next (served h s fun s => createContext s h desc)

/-- Teams of a context that have not completed. -/
def ctxTeams (s : State) (c : Nat) : List Nat :=
  (List.range s.teams.length).filter fun m => decide (teamCtx s m = c) && decide (phaseOf s m ≠ .complete)

/-- A team of a context that ends is gone. -/
def removeTeam (s : State) (m : Nat) : State :=
  match s.teams[m]? with
  | none => s
  | some t =>
    let s := (liveThreads s m).foldl (fun s x => modThread (dropMonitor s x) x fun th => { th with exited := true, wait := .ready }) s
    let s := modTeam s m fun x => { x with phase := .complete, episode := none }
    let s := modCluster s t.cluster fun x => { x with episode := none }
    let s := modCore s t.die t.site fun c => { releaseClaims c m with frames := c.frames.filter fun f => f.team ≠ m }
    let s := t.groups.foldl (fun s g => modGroup s g fun x => { x with freed := true, record := none }) s
    { s with dies := s.dies.map fun d => { d with wakes := d.wakes.filter fun w => w.1 ≠ m } }

/-- A graph of a context that ends is gone. -/
def removeGraph (s : State) (g : Nat) : State :=
  match s.graphs[g]? with
  | none => s
  | some x =>
    let s := (List.range x.nodes.length).foldl (fun s n => releaseNode s g n) s
    modGraph s g fun y =>
      { y with
        finished := true
        nodes := y.nodes.map fun z => match z.state with
          | .waiting | .ready | .running => { z with state := .notRun }
          | .done | .failed | .notRun => z }

/-- Whether some leaf below a table maps the page at a physical address (R351). -/
def tableMaps (s : State) (pa : Nat) : List (Nat × Nat) → Nat → Bool
  | [], _ => false
  | (lo, n) :: rest, table => (List.range n).any fun i =>
    let a := table + 8 * i
    if dramEnd ≤ a then false
    else
      let e := bitsOfBytes (currentBytes s a 8)
      let addr := e / 256 % 2 ^ 44 * 256
      if e % 2 = 0 then false
      else if e / 2 % 2 = 1 then decide (addr ≤ pa) && decide (pa < addr + 2 ^ lo)
      else tableMaps s pa rest addr

/-- Whether a live context other than one maps the page at a physical address. -/
def mappedElsewhere (s : State) (c pa : Nat) : Bool :=
  (List.range s.contexts.length).any fun k => k ≠ c && match s.contexts[k]? with
    | some x => x.live && !x.bringUp && tableMaps s pa walkLevels x.root
    | none => false

/-- The alias entries of a context that ends: moved where their pages stay mapped for another context, and freed
(R293). -/
def settleAliases (s : State) (c ctxid : Nat) : State :=
  (List.range 12).foldl (fun s i =>
    ((((s.homes[i]?).map (·.aliases)).getD []).filter fun e => e.ctxid = ctxid).foldl (fun s e =>
      let n := e.len / entryBlock e
      let s := (List.range n).foldl (fun s k =>
        let pa := (e.dst + k * entryBlock e) * 16
        if homeOf pa = i ∧ mappedElsewhere s c pa then materialiseBlock s e k else s) s
      let s := modHome s i fun h => { h with aliases := h.aliases.filter fun x => x ≠ e }
      releaseNotice s i e 0 n) s) s

/-- CTX_DESTROY (R344, R345): refused while a team of a context that has not stopped is resident or saving. -/
def destroyContext (s : State) (h : HostHead) (c : Nat) : State :=
  let stopped := ((s.contexts[c]?).map (·.stopped)).getD false
  if !stopped && (ctxTeams s c).any fun m => (savedBlock (phaseOf s m)).isNone then reply s h 1 0
  else
    let s := (ctxTeams s c).foldl removeTeam s
    let s := ((List.range s.graphs.length).filter fun g => (s.graphs[g]?).any fun x => x.ctx = c).foldl removeGraph s
    let s := { s with grids := s.grids.map fun g => if g.ctx = c then { g with done := true } else g
                      sessions := s.sessions.filter fun x => x.ctx ≠ c }
    let s := settleAliases s c h.ctxid
    reply (modCtx s c fun k => { k with live := false, tensors := [], windows := [], handles := [] }) h 0 0

/-- CTX_DESTROY. -/
def execCtxDestroy (h : HostHead) (s : State) : Host.Outcome State Fault Refusal :=
  .next (served h s fun s => withContext h s fun c s => destroyContext s h c)

/-! Pre-emption (R345, R346). -/

/-- Clusters of a context with a resident team. -/
def residentClusters (s : State) (c : Nat) : List Nat :=
  (((List.range s.teams.length).filter fun m => decide (teamCtx s m = c) && decide (phaseOf s m = .resident)).filterMap fun m =>
    (s.teams[m]?).map (·.cluster)).dedup

/-- PREEMPT (R346): every resident team, as far as save blocks go, those in their restore routine once it has ended, and
no admission until `RESUME`. -/
def preemptContext (s : State) (h : HostHead) (c : Nat) : State :=
  reply ((residentClusters s c).foldl preemptCluster (modCtx s c fun k => { k with held := true })) h 0 0

/-- PREEMPT. -/
def execPreempt (h : HostHead) (s : State) : Host.Outcome State Fault Refusal :=
  .next (served h s fun s => withContext h s fun c s => preemptContext s h c)

/-- RESUME (R345). -/
def execResume (h : HostHead) (s : State) : Host.Outcome State Fault Refusal :=
  .next (served h s fun s => withContext h s fun c s => reply (modCtx s c fun k => { k with held := false }) h 0 0)

/-- GRAPH_FIRE (R323): the reply carries the value of R202. -/
def hostFire (s : State) (h : HostHead) (c : Nat) (addr : DWord) : State :=
  let (s, v) := fireGraph s c addr.toNat 0
  reply s h 0 v.toNat

/-- GRAPH_FIRE. -/
def execGraphFire (h : HostHead) (addr : DWord) (s : State) : Host.Outcome State Fault Refusal :=
  .next (served h s fun s => withContext h s fun c s => hostFire s h c addr)

/-- SET_BUDGET (R340). -/
def execSetBudget (h : HostHead) (v : DWord) (s : State) : Host.Outcome State Fault Refusal :=
  .next (served h s fun s => withContext h s fun c s => reply (modCtx s c fun k => { k with budget := budgetOf v }) h 0 0)

/-! Keys (R354, R355). -/

/-- Replaces a key slot on every base die. -/
def keyPut (s : State) (slot : Nat) (f : KeySlot → KeySlot) : State :=
  { s with homes := s.homes.mapIdx fun i h => { h with keys := insertNat h.keys slot (f (keyAt s i slot)) } }

/-- KEY_LOAD (R354): refused for a slot that is live, and for slot 0. -/
def loadKey (s : State) (h : HostHead) (slot : Nat) (k : BitVec 512) : State :=
  if slot = 0 ∨ 255 < slot ∨ (keyAt s 0 slot).st ≠ 0 then reply s h 1 0
  else reply (keyPut s slot fun x => { x with st := 1, key := k }) h 0 0

/-- KEY_LOAD. -/
def execKeyLoad (h : HostHead) (slot : Nat) (k : BitVec 512) (s : State) : Host.Outcome State Fault Refusal :=
  .next (served h s fun s => loadKey s h slot k)

/-- Sectors whose last write was under a key, of a generation when one is given. -/
def keySectors (s : State) (slot : Nat) (gen : Option (BitVec 8)) : List Nat :=
  s.homes.flatMap fun h => (h.marks.filter fun m => m.key = slot && (match gen with | some g => decide (m.gen = g) | none => true)).map (·.sec)

/-- A sector's copies, its line's Peat and write-combining copies and its partials are discarded (R355). -/
def discardSector (s : State) (sec : Nat) : State := discardPeat (dropCopies (quiesce s sec) sec) (sec / 4)

/-- Alias and watch entries with a sector of their ranges under a key are freed without moving a byte (R293). -/
def freeKeyEntries (s : State) (slot : Nat) : State :=
  let under := keySectors s slot none
  let meets (a n : Nat) : Bool := under.any fun sec => rangesMeet a n (sec * 64) 64
  { s with homes := s.homes.map fun h =>
      { h with
        aliases := h.aliases.filter fun e =>
          !(meets (e.dst * 16) (e.len * 16) || meets (entrySource e) (xf2SrcLen e.xf0 e.xf1 (e.len * 16)))
        watches := h.watches.filter fun w => !meets (w.src * 16) (w.len * 16) } }

/-- Whether an operation writes under a key. -/
def writesUnder (slot : Nat) (e : EngineOp) : Bool := e.keys.any (fun p => p.2 = slot) || e.pages.any fun p => p.2.2 = slot

/-- An operation that would write under a destroyed key ends with status 2 and lands nothing (R355). -/
def failKeyOp (slot : Nat) (s : State) (e : EngineOp) : State :=
  if !writesUnder slot e then s
  else if e.engine = 8 then
    let s := freeLocks { s with engines := s.engines.filter fun x => x.id ≠ e.id } e.id
    match e.node with
    | some (g, n, _) => (match nodeAt s g n with
      | some x => send (copyStatus s e.ctx g n x 2) [.nodeFail g n cXOPERR e.descVa]
      | none => s)
    | none => raiseFences (lowerCtr s e.tid e.ctr) e.id e.tid
  else putEngine s { e with swrites := [], status := some (if nodeWork e then cMEMERR else 2) }

/-- Bytes of no meaning in sectors whose generation has come round (R355; log 19). -/
def scrambleSector (s : State) (sec : Nat) : State :=
  let s := { s with seed := s.seed + 1 }
  putBytes s (sec * 64) ((List.range 64).map fun i => Config.wrappedKeyByte (s.seed * 2 ^ 42 + sec) i) none

/-- KEY_DESTROY (R355). -/
def destroyKey (s : State) (h : HostHead) (slot : Nat) : State :=
  let k := keyAt s 0 slot
  if slot = 0 ∨ 255 < slot ∨ k.st ≠ 1 then reply s h 1 0
  else
    let s := keyPut s slot fun x => { x with st := 2 }
    let s := freeKeyEntries s slot
    let s := (keySectors s slot (some k.gen)).foldl discardSector s
    let s := s.engines.foldl (failKeyOp slot) s
    let s := (keySectors s slot (some (k.gen + 1))).foldl scrambleSector s
    reply (keyPut s slot fun x => { st := 0, gen := x.gen + 1, key := 0 }) h 0 0

/-- KEY_DESTROY. -/
def execKeyDestroy (h : HostHead) (slot : Nat) (s : State) : Host.Outcome State Fault Refusal :=
  .next (served h s fun s => destroyKey s h slot)

/-! Modes (R267, R328, R358, R370). -/

/-- SET_MODE (R328): a grid keeps the mode in which its node became ready. -/
def execSetMode (h : HostHead) (mode : Nat) (s : State) : Host.Outcome State Fault Refusal :=
  .next (served h s fun s => if mode ≤ 1 then reply { s with pushMode := mode = 1 } h 0 0 else reply s h 1 0)

/-- A message of the die protocol with its times at 0. -/
def untimed (i : Instr) : Instr :=
  let zero (m : SectorMsg) : SectorMsg := { m with wts := 0, rts := 0 }
  match i with
  | .ack m => .ack (zero m)
  | .data m => .data (zero m)
  | .grant m => .grant (zero m)
  | .wbm m => .wbm (zero m)
  | j => j

/-- Every ptime, wts and rts is 0. -/
def rebaseTimes (s : State) : State :=
  { s with
    net := s.net.map untimed
    threads := s.threads.map fun t => { t with ptime := 0 }
    cores := s.cores.map fun c =>
      { c with
        maxExit := 0
        l1 := c.l1.map fun x => { x with wts := 0, rts := 0 }
        frames := c.frames.map fun f => { f with times := f.times.map fun _ => (0, 0) }
        slots := c.slots.map fun x => { x with ts := 0 }
        ops := c.ops.map fun o => { o with ts := 0 }
        accs := c.accs.map fun x => { x with ts := 0 } }
    dies := s.dies.map fun d => { d with l2 := d.l2.map fun x => { x with wts := 0, rts := 0 } }
    homes := s.homes.map fun h =>
      { h with
        times := []
        aliases := h.aliases.map fun e => { e with wts := 0 }
        busy := h.busy.map fun b => { b with wts := 0, rts := 0 } }
    graphs := s.graphs.map fun g => { g with nodes := g.nodes.map fun n => { n with ts := 0 } }
    engines := s.engines.map fun e => { e with ts := 0 }
    ptimeReported := false }

/-- REBASE (R267): refused while a team of any context is resident or saved. -/
def rebasePackage (s : State) (h : HostHead) : State :=
  if (List.range s.teams.length).any fun m => decide (phaseOf s m ≠ .complete) then reply s h 1 0
  else reply (rebaseTimes s) h 0 0

/-- REBASE. -/
def execRebase (h : HostHead) (s : State) : Host.Outcome State Fault Refusal := .next (served h s fun s => rebasePackage s h)

/-- SET_NODE (R358). -/
def execSetNode (h : HostHead) (node table : Nat) (s : State) : Host.Outcome State Fault Refusal :=
  .next (served h s fun s => if node ≤ 1023 then reply { s with node := some node, routeTable := table } h 0 0 else reply s h 1 0)

/-- Whether a team that runs, or a saved one as well, stands against a power state (R370). -/
def powerBlocked (s : State) (state : Nat) : Bool :=
  (List.range s.teams.length).any fun m =>
    let p := phaseOf s m
    p ≠ .complete && (state = 2 || (savedBlock p).isNone)

/-- A home's buffers and its Peat cache go to DRAM. -/
def emptyHome (s : State) (i : Nat) : State :=
  match s.homes[i]? with
  | none => s
  | some h =>
    let k := peatCall s none
    let (h, m) := (h.wc.map (·.line)).foldl (fun (a : Home × Memory) l => wcFall k a.1 a.2 l) (h, s.mem)
    let (h, m) := (h.peat.map (·.line)).foldl (fun (a : Home × Memory) l => peatDrop k a.1 a.2 l) (h, m)
    { s with homes := setAt s.homes i h, mem := m }

/-- L2 and Peat are written back and dropped, and the compute dies lose what else they hold (R370). -/
def powerDown (s : State) : State :=
  let secs := (s.dies.flatMap fun d => d.l2.map (·.sec)).dedup
  let s := (List.range 12).foldl emptyHome (secs.foldl exclude s)
  { s with cores := s.cores.map fun c => { c with l1 := [], code := [], loops := [] } }

/-- POWER (R370). -/
def setPower (s : State) (h : HostHead) (state : Nat) : State :=
  if 2 < state ∨ (state ≠ 0 ∧ powerBlocked s state) then reply s h 1 0
  else reply { (if state = 2 then powerDown s else s) with power := state } h 0 0

/-- POWER. -/
def execPower (h : HostHead) (state : Nat) (s : State) : Host.Outcome State Fault Refusal :=
  .next (served h s fun s => setPower s h state)

/-! Management messages as they arrive (R345; log 124). -/

/-- A little-endian field of a message. -/
def messageField (bs : List Byte) (off n : Nat) : Nat := bitsOfBytes ((bs.drop off).take n)

/-- The request that a message makes; none for an unlisted code. -/
def requestOf (h : HostHead) (bs : List Byte) : Option Instr :=
  let w : DWord := BitVec.ofNat 64 (messageField bs 8 8)
  match messageField bs 0 1 with
  | 0x01 => some (.ctxCreate h w.toNat)
  | 0x02 => some (.ctxDestroy h)
  | 0x03 => some (.preempt h)
  | 0x04 => some (.resume h)
  | 0x05 => some (.graphFire h w)
  | 0x06 => some (.setBudget h w)
  | 0x07 => some (.keyLoad h (messageField bs 8 1) (BitVec.ofNat 512 (messageField bs 16 64)))
  | 0x08 => some (.keyDestroy h (messageField bs 8 1))
  | 0x09 => some (.setMode h (messageField bs 8 1))
  | 0x0A => some (.rebase h)
  | 0x0B => some (.setNode h (messageField bs 8 2) (messageField bs 16 8))
  | 0x0C => some (.power h (messageField bs 8 1))
  | _ => none

/-- Head of a message: the sending node, and bytes 2 to 7. -/
def headOf (node : Nat) (bs : List Byte) : HostHead := ⟨node, messageField bs 2 2, messageField bs 4 4⟩

/-- An unlisted code is refused. -/
def refuseMessage (h : HostHead) (s : State) : State := served h s fun s => reply s h 1 0

/-! The fault queue's head (R353). -/

/-- The threads of a context that a fault-queue entry holds. -/
def faultThreads (s : State) (c i : Nat) : List Nat :=
  (ctxThreads s c).filter fun t => ((s.threads[t]?).map fun th => decide (th.wait = .fault i)).getD false

/-- A node that waits for an entry that software has set to PROT fails with it (R326, R353). -/
def faultNodes (s : State) (c i addr : Nat) : List Instr :=
  (List.range s.graphs.length).flatMap fun g => match s.graphs[g]? with
    | some x => if x.ctx = c then (List.range x.nodes.length).filterMap fun n => match x.nodes[n]? with
        | some y => if y.fault = some i ∧ y.state = .ready then some (.nodeFail g n cPROT addr) else none
        | none => none else []
    | none => []

/-- Teams that an entry keeps from taking PREEMPT (R346, R353). -/
def faultTeams (s : State) (c i : Nat) : List Nat :=
  (List.range s.teams.length).filter fun m => decide (teamCtx s m = c) && match phaseOf s m with
    | .preempting _ f => decide (f = some i)
    | _ => false

/-- An entry that head passes: its threads replay, or take PROT where software has set its code to 18; one without
threads that a record's stores made stops the context itself. -/
def passEntry (s : State) (c : Nat) (k : Context) (i : Nat) : State :=
  let bs := ((virtBytes s c (k.fq + 256 + 256 * (i % k.fqn)) 256).getD [])
  let ts := faultThreads s c i
  let s := ts.foldl (fun s t => modThread s t fun th => becomeReady th s.clk) s
  if bitsOfBytes (bs.take 1) = cPROT then
    let addr := descWord bs 0x20
    let s := send s (faultNodes s c i addr)
    let s := if (faultTeams s c i).isEmpty then s else stopContext s c cPREEMPT addr bs (some cPROT)
    takeTraps s (ts.filterMap fun t => (s.threads[t]?).map fun th => ⟨t, trapAt cPROT addr, th.pc, 0, 0, 0, ts⟩)
  else s

/-- FAULT_QUEUE_HEAD (R353): a head at or behind the entries passed, or beyond the tail, passes nothing more. -/
def advanceHead (s : State) (c head : Nat) : State :=
  match s.contexts[c]? with
  | none => s
  | some k =>
    if k.fqHead < head ∧ head ≤ k.fqTail then
      let s := modCtx s c fun x => { x with fqHead := head }
      (List.range (head - k.fqHead)).foldl (fun s j => passEntry s c k (k.fqHead + j)) s
    else s

/-- FAULT_QUEUE_HEAD. -/
def execFaultQueueHead (ctx head : Nat) (s : State) : Host.Outcome State Fault Refusal := .next (advanceHead s ctx head)

/-! Operations over Lode (R166, R167, R273, R305, R356). -/

/-- LODE_WRITE_LANDING (R273). -/
def execLodeWriteLanding (node ctxid addr : Nat) (bytes : List Byte) (s : State) : Host.Outcome State Fault Refusal :=
  .next (if s.lodeUp then lodeLanding s node ctxid addr bytes else s)

/-- LODE_READ (R356). -/
def execLodeRead (node ctxid addr n : Nat) (s : State) : Host.Outcome State Fault Refusal :=
  .next (if s.lodeUp then lodeReadNow s node ctxid addr n else s)

/-- LODE_ACKNOWLEDGE (R166). -/
def execLodeAcknowledge (op status : Nat) (bytes : List Byte) (s : State) : Host.Outcome State Fault Refusal :=
  .next (lodeAck s op status bytes)

/-- ATOMQ_COMMAND (R305). -/
def execAtomqCommand (m : RemoteAtom) (s : State) : Host.Outcome State Fault Refusal := .next (atomqArrive s m)

/-- ATOMQ_REPLY (R167). -/
def execAtomqReply (op status : Nat) (old : DWord) (s : State) : Host.Outcome State Fault Refusal := .next (atomqAnswer s op status old)

end Sys2Proof.Machine
end

