-- ==== Sys2Proof/Machine/Health.lean ====
section
/-! DEFINITION. Package reset and bring-up, loss, errors and their repair, sensors and limits, and the PHY's events
(R359 to R382). -/

namespace Sys2Proof.Machine

/-! Package reset (R373, R374, R377). -/

/-- The package right after a reset; what the outside world has been told stands. -/
def afterReset (s : State) : State :=
  { State.reset with
    dies := s.dies.map fun d => { Die.fresh with sitemap := d.sitemap }
    out := s.out
    nextId := s.nextId
    seed := s.seed
    agenda := s.agenda
    errors := s.errors }

/-- Whether an image of a type verifies. -/
def bootImageOk (kind : Nat) (x : FirmwareImage) : Bool :=
  x.kind = kind && x.version = descWord x.bytes 8 && imageOk kind (x.bytes ++ x.signature)

/-- The images of types 1 to 4 are verified in order, each extending its register; none when one is refused. -/
def verifyImages (images : List FirmwareImage) : List Nat → State → Option State
  | [], s => some s
  | k :: ks, s =>
    match images.find? fun x => x.kind = k with
    | some x => if bootImageOk k x then
        verifyImages images ks { s with measures := modAt s.measures (k - 1) fun m => extendMeasure m x.bytes }
      else none
    | none => none

/-- First byte of a die's bring-up SRAM that its images leave free, on a page. -/
def imageEnd (die : Nat) (l : List TrainingImage) : Nat :=
  (l.foldl (fun m x => if x.die = die then max m (x.offset + x.bytes.length) else m) 0 + 4095) / 4096 * 4096

/-- The context of a die's bring-up grids: its arenas lie behind the images (R377). -/
def bringContext (die : Nat) (l : List TrainingImage) : Context :=
  let e := imageEnd die l
  let size := 0x100000 - e
  let half := size / 8192 * 4096
  { plainContext with
    privbase := sramBase die + e
    privsize := half
    spbase := sramBase die + e + half
    spsize := size - half }

/-- One launch of a die's image: its bytes are loaded, and its grid is set up, or refused (R377). -/
def loadTraining (c : Nat) (s : State) (x : TrainingImage) : State :=
  if 0x100000 < x.offset + x.bytes.length then s
  else
    let s := { s with mem := memWriteN s.mem (sramBase x.die + x.offset) x.bytes }
    let bs := memReadN s.mem (sramBase x.die + x.record) 64
    let l := launchOfBytes bs
    if launchOk s bs ∧ l.width * l.height = 1 then
      { s with grids := s.grids ++ [newGrid s l c none (some x.die) none] }
    else modDie s x.die fun d => { d with halts := d.halts ++ [(48, BitVec.ofNat 32 x.record)] }

/-- The training images of the dies. -/
def startTraining (s : State) (l : List TrainingImage) : State :=
  (List.range 4).foldl (fun s d =>
    let mine := l.filter fun x => x.die = d
    if mine.isEmpty then s
    else mine.foldl (loadTraining s.contexts.length) { s with contexts := s.contexts ++ [bringContext d mine] }) s

/-- PACKAGE_RESET (R373, R377): a refused image leaves the Lode ports down and is reported over SMBus. Without a grid
there is nothing to wait for, and bring-up mode ends. -/
def packageReset (s : State) (images : List FirmwareImage) (training : List TrainingImage) : State :=
  let s := afterReset s
  match verifyImages images [1, 2, 3, 4] s with
  | none => { s with out := s.out ++ [.smbus 0] }
  | some s =>
    let s := startTraining { s with lodeUp := true } training
    if s.grids.isEmpty then { s with bringUp := false, out := s.out ++ closedReports s } else s

/-- PACKAGE_RESET. -/
def execPackageReset (images : List FirmwareImage) (training : List TrainingImage) (s : State) :
    Host.Outcome State Fault Refusal := .next (packageReset s images training)

/-- Whether a step is a package reset. -/
def isReset (i : Instr) : Bool := match i with | .packageReset _ _ => true | _ => false

/-! Error reports (R359, R360, R368). -/

/-- Corrected errors of a source since its last report. -/
def correctedOf (s : State) (source : Nat) : Nat := (lookupNat s.corrected source).getD 0

/-- An error that was corrected is counted. -/
def countCorrected (s : State) (source : Nat) : State :=
  { s with corrected := insertNat s.corrected source (correctedOf s source + 1) }

/-- A machine check goes to the host with the source's count, which starts anew. -/
def machineCheck (s : State) (cls source die stack channel site addr : Nat) : State :=
  { s with
    out := s.out ++ [.machineCheck cls source die stack channel site addr (correctedOf s source) s.clk]
    corrected := insertNat s.corrected source 0 }

/-- A context stops for an error that no instruction of it raised. -/
def stopForError (code : Nat) (s : State) (c : Nat) : State :=
  match s.contexts[c]? with
  | some k =>
    if k.live ∧ !k.stopped then
      stopContext s c code 0 (bytesOf 8 (code + 256 + 2 ^ 32 * k.ctxid) ++ List.replicate 248 (0 : Byte)) none
    else s
  | none => s

/-- A fatal error: every context stops (R359). -/
def fatalStop (s : State) (code : Nat) : State :=
  { (List.range s.contexts.length).foldl (stopForError code) s with fatal := true }

/-- CORRECTED_ERROR_REPORT (R368): class 1. -/
def execCorrectedErrorReport (source die stack channel site : Nat) (s : State) : Host.Outcome State Fault Refusal :=
  .next (machineCheck s 1 source die stack channel site 0)

/-- A link is retired (R360). -/
def retireLink (s : State) (lode : Bool) (link : Nat) : State :=
  if lode then { s with lodeRetired := link :: s.lodeRetired.filter (· ≠ link) }
  else { s with causewayRetired := link :: s.causewayRetired.filter (· ≠ link) }

/-- Errors of a link so far: the first one of a flit starts its replay, each later one is a replay that has failed
(R360; log 125). -/
def linkErrors (s : State) (lode : Bool) (link : Nat) : Nat :=
  ((s.replays.find? fun r => r.1 = lode ∧ r.2.1 = link).map fun r => r.2.2).getD 0

/-- FLIT_CRC_ERROR (R360): the error is counted and the flit replayed; a link that fails replay 16 times is retired. -/
def flitError (s : State) (lode : Bool) (link : Nat) : State :=
  let n := linkErrors s lode link + 1
  let s := countCorrected s (if lode then 0x0F else 0x0E)
  let s := { s with replays := (lode, link, n) :: s.replays.filter fun r => !(r.1 = lode ∧ r.2.1 = link) }
  if 16 < n then retireLink s lode link else s

/-- FLIT_CRC_ERROR. -/
def execFlitCrcError (lode : Bool) (link : Nat) (s : State) : Host.Outcome State Fault Refusal := .next (flitError s lode link)

/-- LINK_RETIRE (R360). -/
def execLinkRetire (lode : Bool) (link : Nat) (s : State) : Host.Outcome State Fault Refusal := .next (retireLink s lode link)

/-! Uncorrectable errors of the structures (R360). A clean copy that is read again from the next level is dropped. -/

/-- A sector is poisoned at its home (R361). -/
def poisonSector (s : State) (sec : Nat) : State :=
  if taggedSector sec then markPut s { markOf s sec with poison := true } else s

/-- An error in a Peat line. -/
def peatError (s : State) (sec : Nat) : State :=
  match (s.homes[homeOf (sec * 64)]?).bind fun h => h.peat.find? fun p => p.line = sec / 4 with
  | none => s
  | some p => if p.dirty ∨ p.parts ≠ [] then poisonSector s sec
    else modHome s (homeOf (sec * 64)) fun h => { h with peat := h.peat.filter fun q => q.line ≠ sec / 4 }

/-- An error in an L2 sector; a dirty one is gone. -/
def l2Error (s0 : State) (die sec : Nat) : State :=
  let s := quiesce s0 sec
  match l2At s die sec with
  | none => s
  | some x => match x.st with
    | .m | .o | .p => poisonSector (dropCopies s sec) sec
    | .s | .e =>
      let d := dirSec s sec
      dirPut (l2Del s die sec) sec (if d.st = 4 then { d with holders := d.holders &&& ~~~ dieBit die }
        else dirOf 1 ((holdersOf d.holders).filter fun y => y ≠ die) 0)

/-- An error in an L1 sector. -/
def l1Error (s0 : State) (die site sec : Nat) : State :=
  let s := quiesce s0 sec
  match l1At (coreAt s die site) sec with
  | none => s
  | some x =>
    if x.own ∧ x.dirty then poisonSector (dropCopies s sec) sec
    else
      let s := if x.own then l1Yield s (coreAt s die site) x else s
      modCore s die site fun c => { c with l1 := c.l1.filter fun y => y.sec ≠ sec }

/-- An error in a scratchpad frame: a dirty sector is poisoned at its home, its page's slot, and in the frame. -/
def frameError (s : State) (team page sector : Nat) : State :=
  match frameAt s team page with
  | none => s
  | some f =>
    if !f.dirty then s
    else
      let s := framePut s { f with bad := (sector, cMEMERR, 1) :: f.bad.filter fun b => b.1 ≠ sector }
      match regionAt s team (4096 * (page + 1)) with
      | .ok x => poisonSector s (x.pa / 64 + sector)
      | .pagef | .prot => s

/-- An error in what a tile operation of a core reads. -/
def tileOpError (s : State) (die site op : Nat) (f : TileOp → TileOp) : State :=
  modCore s die site fun c => { c with ops := c.ops.map fun o => if o.id = op then f o else o }

/-- An error in an accumulator row (R360; log 118). -/
def tileError (s : State) (die site acc row : Nat) : State :=
  modCore s die site fun c =>
    { c with accs := modAt c.accs acc fun t =>
        { t with elems := poisonRows [] [row] t.elems, poisoned := true, cause := if t.poisoned then t.cause else (0, row / 16, 0) } }

/-- An error in a directory set: every line of it is recalled, and the set rebuilt; corrected. -/
def directoryError (s : State) (line : Nat) : State :=
  let es := ((s.homes[homeOf (line * 256)]?).map fun h => h.dir.filter fun e => dirSet e.line = dirSet line).getD []
  countCorrected ((es.flatMap fun e => (List.range 4).map fun k => e.line * 4 + k).foldl exclude s) 8

/-- A table of a home has failed: a fatal error (R359, R360). -/
def tableError (s : State) (home : Nat) : State :=
  fatalStop (machineCheck s 3 7 (home / 3) home 0xFF 0xFFFFFFFF 0) cMEMERR

/-- What an uncorrectable error does (R360). -/
def hwError (s : State) (e : HwError) : State :=
  match e with
  | .peat sec => peatError s sec
  | .l2 die sec => l2Error s die sec
  | .l1 die site sec => l1Error s die site sec
  | .frame team page sector => frameError s team page sector
  | .register tid pos => modThread s tid fun th => { th with poison := pos :: th.poison.filter fun p => p ≠ pos }
  | .bank die site op bank block => tileOpError s die site op fun o => { o with bankErrors := o.bankErrors ++ [(bank, block)] }
  | .row die site op row => tileOpError s die site op fun o => { o with rowErrors := o.rowErrors ++ [row] }
  | .tile die site acc row => tileError s die site acc row
  | .directory line => directoryError s line
  | .table home => tableError s home

/-! Loss (R364, R365). -/

/-- A sector is lost: every copy goes, and its home keeps the mark. -/
def loseSector (s : State) (sec : Nat) : State := markPut (dropCopies s sec) { markOf s sec with lost := true }

/-- What the home does with a sector that a lost die held. -/
def loseCopy (die : Nat) (s : State) (x : L2Sector) : State :=
  match x.st with
  | .m | .o => loseSector s x.sec
  | .p => loseSector (mergeHome s x.sec x.tag ((partialsOf s x.sec).filter fun p => p.1 ≠ die) x.ctx) x.sec
  | .s | .e =>
    let d := dirSec s x.sec
    dirPut s x.sec (if d.st = 4 then { d with holders := d.holders &&& ~~~ dieBit die }
      else dirOf 1 ((holdersOf d.holders).filter fun y => y ≠ die) 0)

/-- Contexts that had a team or an engine's operation on a lost unit. -/
def lostContexts (s : State) (die : Nat) (site : Option Nat) : List Nat :=
  let teams := (List.range s.teams.length).filterMap fun m => match s.teams[m]? with
    | some t => if t.die = die ∧ site.all (fun x => x = t.site) ∧ t.phase ≠ .complete ∧ (savedBlock t.phase).isNone
        then some (teamCtx s m) else none
    | none => none
  let engines := if site.isSome then [] else
    (s.engines.filter fun e => (e.engine = 0 ∨ e.engine = 1 ∨ e.engine = 8) ∧ e.unit / 4 = die).map (·.ctx)
  (teams ++ engines).dedup

/-- Messages of the die protocol under way are taken in first. -/
def quiesceAll (s : State) : State :=
  ((s.net.filterMap fun i => match i with
    | .ack m | .data m | .grant m | .wbm m => some m.sec
    | .inv _ x | .fwd _ _ x _ | .precall _ x | .drop _ x => some x
    | _ => none).dedup).foldl quiesce s

/-- A core is lost. -/
def loseCore (s : State) (die site : Nat) : State :=
  let s := ((coreAt s die site).l1.filter (·.own)).foldl (fun s x => loseSector s x.sec) (quiesceAll s)
  let s := (lostContexts s die (some site)).foldl (stopForError cLOSTDATA) s
  let s := machineCheck s 2 0x0A die 0xF 0xFF site 0
  { modCore s die site (fun c => { c with lost := true, l1 := [] }) with pushMode := true }

/-- A die is lost, its homes with it. -/
def loseDie (s : State) (die : Nat) : State :=
  let s := (((quiesceAll s).dies[die]?).map (·.l2)).getD [] |>.foldl (loseCopy die) (quiesceAll s)
  let s := (lostContexts s die none).foldl (stopForError cLOSTDATA) s
  let s := machineCheck s 3 0x0B die 0xF 0xFF 0xFFFFFFFF 0
  let s := fatalStop s cLOSTDATA
  { modDie s die (fun d => { d with lost := true, l2 := [] }) with
    pushMode := true
    cores := s.cores.map fun c => if c.die = die then { c with lost := true, l1 := [] } else c }

/-- UNIT_LOSS (R365): a core, or a whole die. -/
def unitLossOf (s : State) (die : Nat) (site : Option Nat) : State :=
  match site with
  | some x => loseCore s die x
  | none => loseDie s die

/-- UNIT_LOSS. -/
def execUnitLoss (die : Nat) (site : Option Nat) (s : State) : Host.Outcome State Fault Refusal := .next (unitLossOf s die site)

/-! DRAM (R363, R366, R367). -/

/-- SCRUB (R363): a sector is read and rewritten; it is paused while the channel is blocked. -/
def scrubSector (s : State) (sec : Nat) (e : ScrubFinding) : State :=
  if !taggedSector sec ∨ ((s.homes[homeOf (sec * 64)]?).map fun h => h.blocked.contains (channelOf (sec * 64))).getD true then s
  else
    match e with
    | .clean => s
    | .corrected => countCorrected s 1
    | .uncorrectable => markPut s { markOf s sec with poison := true }

/-- SCRUB. -/
def execScrub (sec : Nat) (e : ScrubFinding) (s : State) : Host.Outcome State Fault Refusal := .next (scrubSector s sec e)

/-- ROW_SWAP (R366): the row gets the channel's next spare row, when the table of 1,024 entries has room. -/
def swapRow (s : State) (stack channel row : Nat) : State :=
  match s.homes[stack]? with
  | none => s
  | some h =>
    let mine := h.remaps.filter fun r => r.channel = channel
    if 1024 ≤ mine.length ∨ h.blocked.contains channel then s
    else
      let s := modHome s stack fun h =>
        { h with remaps := h.remaps.filter (fun r => !(r.channel = channel ∧ r.row = row)) ++ [⟨channel, row, mine.length⟩] }
      machineCheck s 1 1 (stack / 3) stack channel 0xFFFFFFFF 0

/-- ROW_SWAP. -/
def execRowSwap (stack channel row : Nat) (s : State) : Host.Outcome State Fault Refusal := .next (swapRow s stack channel row)

/-- Whether an access of threads lies in a channel. -/
def inChannel (stack channel : Nat) (a : Access) : Bool :=
  match a.place with
  | .phys ps => ps.any fun p => p.1 < dramEnd && decide (homeOf p.1 = stack) && decide (channelOf p.1 = channel)
  | .spad _ _ | .nothing => false

/-- A pending access of a channel that is blocked takes MEMERR with extra0 = 3 in its threads, where they stand. -/
def failAccess (s : State) (a : Access) : State :=
  let ts := a.owners.filter fun t => !threadExited s t
  let s := endAccess s a
  let s := ts.foldl (fun s t => withdrawWaits s (teamIdOf s t) [t]) s
  takeTraps s (ts.filterMap fun t => (s.threads[t]?).map fun th => ⟨t, ⟨cMEMERR, a.va, 3, 0⟩, th.pc, 0, 0, 0, ts⟩)

/-- REMAP_TABLE_ERROR (R367): the channel is blocked first; the reload from the copies reopens it, or leaves it blocked
and is fatal when no two agree. -/
def remapError (s : State) (stack channel : Nat) (agree : Bool) : State :=
  match s.homes[stack]? with
  | none => s
  | some h =>
    if !h.blocked.contains channel then
      let s := modHome s stack fun h => { h with blocked := channel :: h.blocked }
      let s := machineCheck s 2 9 (stack / 3) stack channel 0xFFFFFFFF 0
      let s := (s.accs.filter (inChannel stack channel)).foldl failAccess s
      send s [.remapTableError stack channel agree]
    else if agree then modHome s stack fun h => { h with blocked := h.blocked.filter (· ≠ channel) }
    else fatalStop (machineCheck s 3 9 (stack / 3) stack channel 0xFFFFFFFF 0) cMEMERR

/-- REMAP_TABLE_ERROR. -/
def execRemapTableError (stack channel : Nat) (agree : Bool) (s : State) : Host.Outcome State Fault Refusal :=
  .next (remapError s stack channel agree)

/-! Sensors, limits and rates (R369 to R372). -/

/-- SENSOR_POLL (R369). -/
def execSensorPoll (s : State) : Host.Outcome State Fault Refusal := .next { s with polled := s.polled + 1 }

/-- DROOP (R371). -/
def execDroop (die site : Nat) (s : State) : Host.Outcome State Fault Refusal :=
  .next (modCore s die site fun c => { c with droop := true })

/-- DROOP_RECOVERY (R371). -/
def execDroopRecovery (die site : Nat) (s : State) : Host.Outcome State Fault Refusal :=
  .next (modCore s die site fun c => { c with droop := false })

/-- OVER_TEMPERATURE (R371). -/
def execOverTemperature (die : Nat) (s : State) : Host.Outcome State Fault Refusal :=
  .next (modDie s die fun d => { d with halved := true })

/-- OVER_TEMPERATURE_CLEAR (R371). -/
def execOverTemperatureClear (die : Nat) (s : State) : Host.Outcome State Fault Refusal :=
  .next (modDie s die fun d => { d with halved := false })

/-- OVERCURRENT (R371): every die is halved as over temperature does, until the current falls. -/
def execOvercurrent (s : State) : Host.Outcome State Fault Refusal := .next { s with overcurrent := true }

/-- OVERCURRENT_CLEAR (R371). -/
def execOvercurrentClear (s : State) : Host.Outcome State Fault Refusal := .next { s with overcurrent := false }

/-- A die's main clock in MHz: its policy's rate, halved while a limit acts on it. -/
def dieRate (s : State) (die : Nat) : Nat :=
  match s.dies[die]? with
  | some d => if d.halved || s.overcurrent then d.mhz / 2 else d.mhz
  | none => 0

/-- THERMAL_TRIP (R359, R371): a fatal error, reported over SMBus; every clock stops. -/
def execThermalTrip (s : State) : Host.Outcome State Fault Refusal :=
  .next { fatalStop (machineCheck s 3 0x0C 0 0xF 0xFF 0xFFFFFFFF 0) cMEMERR with clockStopped := true }

/-- RUN_RATE_CHANGE (R372): 350 to 700 MHz in steps of 25. -/
def execRunRateChange (die mhz : Nat) (s : State) : Host.Outcome State Fault Refusal :=
  .next (if 350 ≤ mhz ∧ mhz ≤ 700 ∧ mhz % 25 = 0 then modDie s die fun d => { d with mhz := mhz } else s)

/-! PHY (R379 to R382). -/

/-- READ_POINT (R380). -/
def execReadPoint (b : PhyBlock) (tap : Nat) (s : State) : Host.Outcome State Fault Refusal := .next (phyReadPoint s b tap)

/-- WRITE_POINT (R380). -/
def execWritePoint (b : PhyBlock) (tap : Nat) (s : State) : Host.Outcome State Fault Refusal := .next (phyWritePoint s b tap)

/-- PRBS (R380). -/
def execPrbs (b : PhyBlock) (s : State) : Host.Outcome State Fault Refusal := .next (phyPrbs s b)

/-- PHY_TEST_COMPLETE (R380). -/
def execPhyTestComplete (b : PhyBlock) (s : State) : Host.Outcome State Fault Refusal := .next (phyComplete s b)

/-- PSWAP (R381). -/
def execPswap (b : PhyBlock) (v : Word) (s : State) : Host.Outcome State Fault Refusal := .next (phyPswap s b v)

/-- PDONE (R382). -/
def execPdone (b : PhyBlock) (v : Word) (s : State) : Host.Outcome State Fault Refusal := .next (phyPdone s b v)

/-- REGISTER_WRITE (R379). -/
def execRegisterWrite (b : PhyBlock) (off : Nat) (v : Word) (s : State) : Host.Outcome State Fault Refusal :=
  .next (phyRegisterWrite s b off v)

end Sys2Proof.Machine
end

