-- ==== Sys2Proof/Machine/Dispatch.lean ====
section
/-! DEFINITION. The dispatch: one arm per constructor of `Instr`. -/

namespace Sys2Proof.Machine

def exec (i : Instr) (s : State) : Host.Outcome State Fault Refusal :=
  match i with
  | .nop x0 => Sys2Proof.Machine.execNop x0 s
  | .bra x0 => Sys2Proof.Machine.execBra x0 s
  | .jmp x0 => Sys2Proof.Machine.execJmp x0 s
  | .call x0 => Sys2Proof.Machine.execCall x0 s
  | .calli x0 => Sys2Proof.Machine.execCalli x0 s
  | .ret x0 => Sys2Proof.Machine.execRet x0 s
  | .exit x0 => Sys2Proof.Machine.execExit x0 s
  | .loop x0 => Sys2Proof.Machine.execLoop x0 s
  | .yield x0 => Sys2Proof.Machine.execYield x0 s
  | .trap x0 => Sys2Proof.Machine.execTrap x0 s
  | .bkpt x0 => Sys2Proof.Machine.execBkpt x0 s
  | .icmp x0 => Sys2Proof.Machine.execIcmp x0 s
  | .fcmp x0 => Sys2Proof.Machine.execFcmp x0 s
  | .plop x0 => Sys2Proof.Machine.execPlop x0 s
  | .sel x0 => Sys2Proof.Machine.execSel x0 s
  | .pmovGet x0 => Sys2Proof.Machine.execPmovGet x0 s
  | .pmovPut x0 => Sys2Proof.Machine.execPmovPut x0 s
  | .fclass x0 => Sys2Proof.Machine.execFclass x0 s
  | .add x0 => Sys2Proof.Machine.execAdd x0 s
  | .sub x0 => Sys2Proof.Machine.execSub x0 s
  | .addc x0 => Sys2Proof.Machine.execAddc x0 s
  | .mul x0 => Sys2Proof.Machine.execMul x0 s
  | .mulh x0 => Sys2Proof.Machine.execMulh x0 s
  | .mad x0 => Sys2Proof.Machine.execMad x0 s
  | .madw x0 => Sys2Proof.Machine.execMadw x0 s
  | .abs x0 => Sys2Proof.Machine.execAbs x0 s
  | .min x0 => Sys2Proof.Machine.execMin x0 s
  | .max x0 => Sys2Proof.Machine.execMax x0 s
  | .dot4 x0 => Sys2Proof.Machine.execDot4 x0 s
  | .sad x0 => Sys2Proof.Machine.execSad x0 s
  | .and x0 => Sys2Proof.Machine.execAnd x0 s
  | .or x0 => Sys2Proof.Machine.execOr x0 s
  | .xor x0 => Sys2Proof.Machine.execXor x0 s
  | .bfn x0 => Sys2Proof.Machine.execBfn x0 s
  | .shl x0 => Sys2Proof.Machine.execShl x0 s
  | .shr x0 => Sys2Proof.Machine.execShr x0 s
  | .shra x0 => Sys2Proof.Machine.execShra x0 s
  | .rol x0 => Sys2Proof.Machine.execRol x0 s
  | .fsh x0 => Sys2Proof.Machine.execFsh x0 s
  | .popc x0 => Sys2Proof.Machine.execPopc x0 s
  | .clz x0 => Sys2Proof.Machine.execClz x0 s
  | .brev x0 => Sys2Proof.Machine.execBrev x0 s
  | .bfe x0 => Sys2Proof.Machine.execBfe x0 s
  | .bfi x0 => Sys2Proof.Machine.execBfi x0 s
  | .bsel x0 => Sys2Proof.Machine.execBsel x0 s
  | .lea x0 => Sys2Proof.Machine.execLea x0 s
  | .taddr x0 => Sys2Proof.Machine.execTaddr x0 s
  | .fadd x0 => Sys2Proof.Machine.execFadd x0 s
  | .fsub x0 => Sys2Proof.Machine.execFsub x0 s
  | .fmul x0 => Sys2Proof.Machine.execFmul x0 s
  | .ffma x0 => Sys2Proof.Machine.execFfma x0 s
  | .fmin x0 => Sys2Proof.Machine.execFmin x0 s
  | .fmax x0 => Sys2Proof.Machine.execFmax x0 s
  | .frcp x0 => Sys2Proof.Machine.execFrcp x0 s
  | .frsq x0 => Sys2Proof.Machine.execFrsq x0 s
  | .fsqrt x0 => Sys2Proof.Machine.execFsqrt x0 s
  | .fexp2 x0 => Sys2Proof.Machine.execFexp2 x0 s
  | .flog2 x0 => Sys2Proof.Machine.execFlog2 x0 s
  | .fsin x0 => Sys2Proof.Machine.execFsin x0 s
  | .fcos x0 => Sys2Proof.Machine.execFcos x0 s
  | .ftanh x0 => Sys2Proof.Machine.execFtanh x0 s
  | .fdiv x0 => Sys2Proof.Machine.execFdiv x0 s
  | .fscale x0 => Sys2Proof.Machine.execFscale x0 s
  | .fdot2 x0 => Sys2Proof.Machine.execFdot2 x0 s
  | .frnd x0 => Sys2Proof.Machine.execFrnd x0 s
  | .cvt x0 => Sys2Proof.Machine.execCvt x0 s
  | .qnt x0 => Sys2Proof.Machine.execQnt x0 s
  | .dqnt x0 => Sys2Proof.Machine.execDqnt x0 s
  | .pack x0 => Sys2Proof.Machine.execPack x0 s
  | .unpk x0 => Sys2Proof.Machine.execUnpk x0 s
  | .bpln x0 => Sys2Proof.Machine.execBpln x0 s
  | .bunp x0 => Sys2Proof.Machine.execBunp x0 s
  | .scmax x0 => Sys2Proof.Machine.execScmax x0 s
  | .pgath x0 => Sys2Proof.Machine.execPgath x0 s
  | .lxch x0 => Sys2Proof.Machine.execLxch x0 s
  | .matchLanes x0 => Sys2Proof.Machine.execMatchLanes x0 s
  | .gred x0 => Sys2Proof.Machine.execGred x0 s
  | .mov x0 => Sys2Proof.Machine.execMov x0 s
  | .movk x0 => Sys2Proof.Machine.execMovk x0 s
  | .movi x0 => Sys2Proof.Machine.execMovi x0 s
  | .xset x0 => Sys2Proof.Machine.execXset x0 s
  | .xget x0 => Sys2Proof.Machine.execXget x0 s
  | .xadj x0 => Sys2Proof.Machine.execXadj x0 s
  | .rcpy x0 => Sys2Proof.Machine.execRcpy x0 s
  | .ld x0 => Sys2Proof.Machine.execLd x0 s
  | .st x0 => Sys2Proof.Machine.execSt x0 s
  | .ldk x0 => Sys2Proof.Machine.execLdk x0 s
  | .stk x0 => Sys2Proof.Machine.execStk x0 s
  | .ldt x0 => Sys2Proof.Machine.execLdt x0 s
  | .stt x0 => Sys2Proof.Machine.execStt x0 s
  | .prf x0 => Sys2Proof.Machine.execPrf x0 s
  | .cpy x0 => Sys2Proof.Machine.execCpy x0 s
  | .cpyt x0 => Sys2Proof.Machine.execCpyt x0 s
  | .cpye x0 => Sys2Proof.Machine.execCpye x0 s
  | .matz x0 => Sys2Proof.Machine.execMatz x0 s
  | .alq x0 => Sys2Proof.Machine.execAlq x0 s
  | .pin x0 => Sys2Proof.Machine.execPin x0 s
  | .unpin x0 => Sys2Proof.Machine.execUnpin x0 s
  | .touch x0 => Sys2Proof.Machine.execTouch x0 s
  | .cflush x0 => Sys2Proof.Machine.execCflush x0 s
  | .cinv x0 => Sys2Proof.Machine.execCinv x0 s
  | .atom x0 => Sys2Proof.Machine.execAtom x0 s
  | .acas x0 => Sys2Proof.Machine.execAcas x0 s
  | .red x0 => Sys2Proof.Machine.execRed x0 s
  | .atomq x0 => Sys2Proof.Machine.execAtomq x0 s
  | .cqpop x0 => Sys2Proof.Machine.execCqpop x0 s
  | .waitc x0 => Sys2Proof.Machine.execWaitc x0 s
  | .wsig x0 => Sys2Proof.Machine.execWsig x0 s
  | .putr x0 => Sys2Proof.Machine.execPutr x0 s
  | .getr x0 => Sys2Proof.Machine.execGetr x0 s
  | .bar x0 => Sys2Proof.Machine.execBar x0 s
  | .cbar x0 => Sys2Proof.Machine.execCbar x0 s
  | .abinit x0 => Sys2Proof.Machine.execAbinit x0 s
  | .abarv x0 => Sys2Proof.Machine.execAbarv x0 s
  | .abwait x0 => Sys2Proof.Machine.execAbwait x0 s
  | .fenceg x0 => Sys2Proof.Machine.execFenceg x0 s
  | .fencex x0 => Sys2Proof.Machine.execFencex x0 s
  | .wait x0 => Sys2Proof.Machine.execWait x0 s
  | .cvg x0 => Sys2Proof.Machine.execCvg x0 s
  | .tclaim x0 => Sys2Proof.Machine.execTclaim x0 s
  | .trel x0 => Sys2Proof.Machine.execTrel x0 s
  | .tld x0 => Sys2Proof.Machine.execTld x0 s
  | .tst x0 => Sys2Proof.Machine.execTst x0 s
  | .tzero x0 => Sys2Proof.Machine.execTzero x0 s
  | .tmma x0 => Sys2Proof.Machine.execTmma x0 s
  | .tmmas x0 => Sys2Proof.Machine.execTmmas x0 s
  | .tmovv x0 => Sys2Proof.Machine.execTmovv x0 s
  | .tstat x0 => Sys2Proof.Machine.execTstat x0 s
  | .twait x0 => Sys2Proof.Machine.execTwait x0 s
  | .mqpush x0 => Sys2Proof.Machine.execMqpush x0 s
  | .mqclr x0 => Sys2Proof.Machine.execMqclr x0 s
  | .xop x0 => Sys2Proof.Machine.execXop x0 s
  | .xopr x0 => Sys2Proof.Machine.execXopr x0 s
  | .tidset x0 => Sys2Proof.Machine.execTidset x0 s
  | .tidget x0 => Sys2Proof.Machine.execTidget x0 s
  | .gfire x0 => Sys2Proof.Machine.execGfire x0 s
  | .nodeq x0 => Sys2Proof.Machine.execNodeq x0 s
  | .mfs x0 => Sys2Proof.Machine.execMfs x0 s
  | .mts x0 => Sys2Proof.Machine.execMts x0 s
  | .rtt x0 => Sys2Proof.Machine.execRtt x0 s
  | .ctxsv x0 => Sys2Proof.Machine.execCtxsv x0 s
  | .ctxrs x0 => Sys2Proof.Machine.execCtxrs x0 s
  | .spillw x0 => Sys2Proof.Machine.execSpillw x0 s
  | .fillw x0 => Sys2Proof.Machine.execFillw x0 s
  | .icinv x0 => Sys2Proof.Machine.execIcinv x0 s
  | .tlbinv x0 => Sys2Proof.Machine.execTlbinv x0 s
  | .exitp x0 => Sys2Proof.Machine.execExitp x0 s
  | .clock x0 => Sys2Proof.Machine.execClock x0 s
  | .perf x0 => Sys2Proof.Machine.execPerf x0 s
  | .sleep x0 => Sys2Proof.Machine.execSleep x0 s
  | .halt x0 => Sys2Proof.Machine.execHalt x0 s
  | .instructionFetch x0 x1 x2 x3 => Sys2Proof.Machine.execInstructionFetch x0 x1 x2 x3 s
  | .promotion x0 => Sys2Proof.Machine.execPromotion x0 s
  | .loopBufferGrant x0 x1 x2 => Sys2Proof.Machine.execLoopBufferGrant x0 x1 x2 s
  | .loadReturn x0 => Sys2Proof.Machine.execLoadReturn x0 s
  | .accessAcknowledge x0 => Sys2Proof.Machine.execAccessAcknowledge x0 s
  | .spill x0 => Sys2Proof.Machine.execSpill x0 s
  | .fill x0 => Sys2Proof.Machine.execFill x0 s
  | .tileOperationIssue x0 x1 x2 => Sys2Proof.Machine.execTileOperationIssue x0 x1 x2 s
  | .tileOperationComplete x0 x1 x2 => Sys2Proof.Machine.execTileOperationComplete x0 x1 x2 s
  | .slCopy x0 => Sys2Proof.Machine.execSlCopy x0 s
  | .slFill x0 => Sys2Proof.Machine.execSlFill x0 s
  | .slGather x0 => Sys2Proof.Machine.execSlGather x0 s
  | .slSparse x0 => Sys2Proof.Machine.execSlSparse x0 s
  | .slLoad x0 => Sys2Proof.Machine.execSlLoad x0 s
  | .fdOpen x0 => Sys2Proof.Machine.execFdOpen x0 s
  | .fdFrame x0 => Sys2Proof.Machine.execFdFrame x0 s
  | .fdClose x0 => Sys2Proof.Machine.execFdClose x0 s
  | .sbHash x0 => Sys2Proof.Machine.execSbHash x0 s
  | .sbReport x0 => Sys2Proof.Machine.execSbReport x0 s
  | .sbExtend x0 => Sys2Proof.Machine.execSbExtend x0 s
  | .engineOperationComplete x0 => Sys2Proof.Machine.execEngineOperationComplete x0 s
  | .eagerCopyComplete x0 => Sys2Proof.Machine.execEagerCopyComplete x0 s
  | .rangeLockGrant x0 => Sys2Proof.Machine.execRangeLockGrant x0 s
  | .copyCommit x0 => Sys2Proof.Machine.execCopyCommit x0 s
  | .sourceBlockRead x0 x1 => Sys2Proof.Machine.execSourceBlockRead x0 x1 s
  | .dhomeMaterialise x0 x1 => Sys2Proof.Machine.execDhomeMaterialise x0 x1 s
  | .aliasReleaseNotice x0 x1 x2 => Sys2Proof.Machine.execAliasReleaseNotice x0 x1 x2 s
  | .hotMaterialise x0 x1 => Sys2Proof.Machine.execHotMaterialise x0 x1 s
  | .backgroundMaterialiser x0 => Sys2Proof.Machine.execBackgroundMaterialiser x0 s
  | .rds x0 x1 => Sys2Proof.Machine.execRds x0 x1 s
  | .rdx x0 x1 => Sys2Proof.Machine.execRdx x0 x1 s
  | .upg x0 x1 => Sys2Proof.Machine.execUpg x0 x1 s
  | .wbm x0 => Sys2Proof.Machine.execWbm x0 s
  | .drop x0 x1 => Sys2Proof.Machine.execDrop x0 x1 s
  | .pjoin x0 x1 x2 => Sys2Proof.Machine.execPjoin x0 x1 x2 s
  | .inv x0 x1 => Sys2Proof.Machine.execInv x0 x1 s
  | .fwd x0 x1 x2 x3 => Sys2Proof.Machine.execFwd x0 x1 x2 x3 s
  | .precall x0 x1 => Sys2Proof.Machine.execPrecall x0 x1 s
  | .peek x0 x1 x2 => Sys2Proof.Machine.execPeek x0 x1 x2 s
  | .ack x0 => Sys2Proof.Machine.execAck x0 s
  | .data x0 => Sys2Proof.Machine.execData x0 s
  | .grant x0 => Sys2Proof.Machine.execGrant x0 s
  | .sliceRedUpdate x0 => Sys2Proof.Machine.execSliceRedUpdate x0 s
  | .monitorWake x0 => Sys2Proof.Machine.execMonitorWake x0 s
  | .waitcPoll x0 => Sys2Proof.Machine.execWaitcPoll x0 s
  | .sleepExpire x0 => Sys2Proof.Machine.execSleepExpire x0 s
  | .ptimeTick => Sys2Proof.Machine.execPtimeTick s
  | .ptimeLimitReport => Sys2Proof.Machine.execPtimeLimitReport s
  | .wcFallback x0 x1 => Sys2Proof.Machine.execWcFallback x0 x1 s
  | .fadePeriod x0 => Sys2Proof.Machine.execFadePeriod x0 s
  | .scratchpadRefill x0 x1 => Sys2Proof.Machine.execScratchpadRefill x0 x1 s
  | .ticketPull x0 x1 => Sys2Proof.Machine.execTicketPull x0 x1 s
  | .steal x0 x1 => Sys2Proof.Machine.execSteal x0 x1 s
  | .pushBatch x0 x1 => Sys2Proof.Machine.execPushBatch x0 x1 s
  | .teamAdmit x0 x1 x2 x3 => Sys2Proof.Machine.execTeamAdmit x0 x1 x2 x3 s
  | .teamComplete x0 => Sys2Proof.Machine.execTeamComplete x0 s
  | .swapOut x0 => Sys2Proof.Machine.execSwapOut x0 s
  | .teamRestore x0 => Sys2Proof.Machine.execTeamRestore x0 s
  | .nodeStart x0 x1 => Sys2Proof.Machine.execNodeStart x0 x1 s
  | .nodeComplete x0 x1 => Sys2Proof.Machine.execNodeComplete x0 x1 s
  | .nodeFail x0 x1 x2 x3 => Sys2Proof.Machine.execNodeFail x0 x1 x2 x3 s
  | .hummockCommand x0 x1 x2 => Sys2Proof.Machine.execHummockCommand x0 x1 x2 s
  | .parityAbort x0 x1 x2 x3 => Sys2Proof.Machine.execParityAbort x0 x1 x2 x3 s
  | .decodeUnit x0 x1 x2 => Sys2Proof.Machine.execDecodeUnit x0 x1 x2 s
  | .faultQueueHead x0 x1 => Sys2Proof.Machine.execFaultQueueHead x0 x1 s
  | .ctxCreate x0 x1 => Sys2Proof.Machine.execCtxCreate x0 x1 s
  | .ctxDestroy x0 => Sys2Proof.Machine.execCtxDestroy x0 s
  | .preempt x0 => Sys2Proof.Machine.execPreempt x0 s
  | .resume x0 => Sys2Proof.Machine.execResume x0 s
  | .graphFire x0 x1 => Sys2Proof.Machine.execGraphFire x0 x1 s
  | .setBudget x0 x1 => Sys2Proof.Machine.execSetBudget x0 x1 s
  | .keyLoad x0 x1 x2 => Sys2Proof.Machine.execKeyLoad x0 x1 x2 s
  | .keyDestroy x0 x1 => Sys2Proof.Machine.execKeyDestroy x0 x1 s
  | .setMode x0 x1 => Sys2Proof.Machine.execSetMode x0 x1 s
  | .rebase x0 => Sys2Proof.Machine.execRebase x0 s
  | .setNode x0 x1 x2 => Sys2Proof.Machine.execSetNode x0 x1 x2 s
  | .power x0 x1 => Sys2Proof.Machine.execPower x0 x1 s
  | .lodeWriteLanding x0 x1 x2 x3 => Sys2Proof.Machine.execLodeWriteLanding x0 x1 x2 x3 s
  | .lodeRead x0 x1 x2 x3 => Sys2Proof.Machine.execLodeRead x0 x1 x2 x3 s
  | .lodeAcknowledge x0 x1 x2 => Sys2Proof.Machine.execLodeAcknowledge x0 x1 x2 s
  | .atomqCommand x0 => Sys2Proof.Machine.execAtomqCommand x0 s
  | .atomqReply x0 x1 x2 => Sys2Proof.Machine.execAtomqReply x0 x1 x2 s
  | .phyTestComplete x0 => Sys2Proof.Machine.execPhyTestComplete x0 s
  | .packageReset x0 x1 => Sys2Proof.Machine.execPackageReset x0 x1 s
  | .unitLoss x0 x1 => Sys2Proof.Machine.execUnitLoss x0 x1 s
  | .scrub x0 x1 => Sys2Proof.Machine.execScrub x0 x1 s
  | .rowSwap x0 x1 x2 => Sys2Proof.Machine.execRowSwap x0 x1 x2 s
  | .remapTableError x0 x1 x2 => Sys2Proof.Machine.execRemapTableError x0 x1 x2 s
  | .linkRetire x0 x1 => Sys2Proof.Machine.execLinkRetire x0 x1 s
  | .sensorPoll => Sys2Proof.Machine.execSensorPoll s
  | .droop x0 x1 => Sys2Proof.Machine.execDroop x0 x1 s
  | .overTemperature x0 => Sys2Proof.Machine.execOverTemperature x0 s
  | .thermalTrip => Sys2Proof.Machine.execThermalTrip s
  | .overcurrent => Sys2Proof.Machine.execOvercurrent s
  | .readPoint x0 x1 => Sys2Proof.Machine.execReadPoint x0 x1 s
  | .writePoint x0 x1 => Sys2Proof.Machine.execWritePoint x0 x1 s
  | .prbs x0 => Sys2Proof.Machine.execPrbs x0 s
  | .pswap x0 x1 => Sys2Proof.Machine.execPswap x0 x1 s
  | .pdone x0 x1 => Sys2Proof.Machine.execPdone x0 x1 s
  | .registerWrite x0 x1 x2 => Sys2Proof.Machine.execRegisterWrite x0 x1 x2 s
  | .overTemperatureClear x0 => Sys2Proof.Machine.execOverTemperatureClear x0 s
  | .droopRecovery x0 x1 => Sys2Proof.Machine.execDroopRecovery x0 x1 s
  | .overcurrentClear => Sys2Proof.Machine.execOvercurrentClear s
  | .flitCrcError x0 x1 => Sys2Proof.Machine.execFlitCrcError x0 x1 s
  | .runRateChange x0 x1 => Sys2Proof.Machine.execRunRateChange x0 x1 s
  | .correctedErrorReport x0 x1 x2 x3 x4 => Sys2Proof.Machine.execCorrectedErrorReport x0 x1 x2 x3 x4 s

end Sys2Proof.Machine
end

