-- ==== Sys2Proof/Machine/Pick.lean ====
section
/-! DEFINITION. Which move the machine makes next (log 1). -/

namespace Sys2Proof.Machine

/-- A move of the machine: a step of another agent, an issue, the start of a loop's iteration, a team that takes
PREEMPT, an error that a structure meets, a management message as it arrives, or a package clk in which nothing else
happens. -/
inductive Move where
  | run (i : Instr)
  | issue (x : Issue)
  | start (t : Nat)
  | preempt (m : Nat)
  | error (e : HwError)
  | message (node : Nat) (bytes : List Byte)
  | idle
  deriving DecidableEq, Repr

/-- Numbers below n that pass a test. -/
def below (n : Nat) (p : Nat → Bool) : List Nat := (List.range n).filter p

/-- Threads whose time has come: promotions, sleepers, polls, and those whose monitor was freed 64 clk ago (R228). -/
def dueThreads (s : State) : List Instr :=
  (indicesOf (fun th => !th.exited) 0 s.threads).filterMap fun t => match s.threads[t]? with
    | some th => match th.wait with
        | .sleep c => if c ≤ s.clk then some (.sleepExpire t) else none
        | .poll c => if c ≤ s.clk then some (.waitcPoll t) else none
        | .woken c => if c + 64 ≤ s.clk then some (.monitorWake t) else none
        | _ => if promotable s t th then some (.promotion t) else none
    | none => none

/-- Homes' steps whose time has come: write-combining entries and PHY tests. -/
def dueHomes (s : State) : List Instr :=
  (List.range s.homes.length).flatMap fun i => match s.homes[i]? with
    | some h =>
      (h.wc.filterMap fun w => if w.since + w.wait ≤ s.clk then some (.wcFallback i w.line) else none)
        ++ h.phys.filterMap fun p => match p.test with
          | some (_, _, c) => if c ≤ s.clk then some (.phyTestComplete p.block) else none
          | none => none
    | none => []

/-- Steps whose time has come. -/
def dueSteps (s : State) : List Instr :=
  (if s.ticked < s.clk / 128 then [.ptimeTick] else [])
    ++ (if s.polled < s.clk / 70000 then [.sensorPoll] else [])
    ++ (if ptimeDue s then [.ptimeLimitReport] else [])
    ++ dueThreads s ++ dueHomes s
    ++ (below s.contexts.length fun c => (s.contexts[c]?).any (fadeDue s)).map .fadePeriod

/-- Whether an object of a scratchpad waits for a frame, which is asked for or cannot be had (R240). -/
def frameAwaited (s : State) (r : SpadRef) (n : Nat) : Bool :=
  !spadReady s r n && (spadPages r n).all fun p =>
    (frameAt s r.team p).isSome || s.net.contains (.scratchpadRefill r.team p) || decide (roomFor s r.team = .none)

/-- Whether an access waits for something besides other accesses, operations and locks: a PHY test, an older push into
its queue, a frame. -/
def accessHeld (s : State) (a : Access) : Bool :=
  match a.kind, a.place with
  | .mqPush q, _ => !oldestPush s a q
  | _, .phys ((pa, _) :: _) => decide (phyBase ≤ pa) && (phyAt s (phyBlockOf pa).1).test.isSome
  | _, .spad r n => frameAwaited s r n
  | _, _ => false

/-- Accesses that may be performed now. -/
def accessSteps (s : State) : List Instr :=
  s.accs.filterMap fun a =>
    if !mayPerform s a || accessHeld s a then none
    else if returnsData a.kind then some (.loadReturn a.id)
    else if acknowledges a.kind then some (.accessAcknowledge a.id)
    else match a.kind with
      | .red _ _ _ => some (.sliceRedUpdate a.id)
      | _ => some (.copyCommit a.id)

/-- The work of an engine's function. -/
def engineWork (e : EngineOp) : Option Instr :=
  match e.engine, e.fn with
  | 0, 0 => some (.slCopy e.id)
  | 0, 1 => some (.slFill e.id)
  | 0, 2 => some (.slGather e.id)
  | 0, 3 => some (.slSparse e.id)
  | 0, 4 => some (.slLoad e.id)
  | 1, 0 => some (.fdOpen e.id)
  | 1, 1 => some (.fdFrame e.id)
  | 1, 2 => some (.fdClose e.id)
  | 2, 0 => some (.sbHash e.id)
  | 2, 1 => some (.sbReport e.id)
  | 2, 2 => some (.sbExtend e.id)
  | _, _ => none

/-- What a node's unit may do next: a command of a near-memory node, a unit of a decode node. -/
def unitWork (s : State) (e : EngineOp) : List Instr :=
  match e.node with
  | some (g, n, _) =>
    if e.engine = 1 then [.decodeUnit g n e.stage]
    else match nodeAt s g n with
      | some x => (below (commandCount e.desc) fun c => !commandOver e x c).map fun c => .hummockCommand g n c
      | none => []
  | none => []

/-- Steps of the engines. -/
def engineSteps (s : State) : List Instr :=
  s.engines.flatMap fun e =>
    if !e.locked then (if launchable s e then [.rangeLockGrant e.id] else [])
    else if e.status.isSome then (if frameWaits s e then [] else [.engineOperationComplete e.id])
    else if s.power ≠ 0 then []
    else if e.engine = 8 then [.eagerCopyComplete e.id]
    else if nodeWork e then unitWork s e
    else if engineReady s e then (engineWork e).toList else []

/-- Steps of the tile engines. -/
def tileSteps (s : State) : List Instr :=
  s.cores.flatMap fun c => c.ops.filterMap fun o =>
    if o.started then some (.tileOperationComplete c.die c.site o.id)
    else if opStartable c.ops o && !decoderFills c o then some (.tileOperationIssue c.die c.site o.id)
    else none

/-- Whether a thread that waits for its window's spill unit finds it ready. -/
def windowStep (s : State) (t : Nat) : Option Instr :=
  match s.threads[t]? with
  | some th => match th.wait with
    | .spill _ => if windowReady s t th then some (.spill t) else none
    | .fill _ => if windowReady s t th then some (.fill t) else none
    | _ => none
  | none => none

/-- Partitions in which a waiting `LOOP` can have a buffer. -/
def loopSteps (s : State) : List Instr :=
  (((indicesOf (fun th => match th.wait with | .loopBuffer _ _ => true | _ => false) 0 s.threads).filterMap fun t => match s.threads[t]?, groupOf s t with
    | some th, some g => (match th.wait with
      | .loopBuffer _ _ => let (d, c) := coreOf s t; some (d, c, g.part)
      | _ => none)
    | _, _ => none).dedup.filter fun p => loopGrantable s p.1 p.2.1 p.2.2).map fun p => .loopBufferGrant p.1 p.2.1 p.2.2

/-- Steps of the window units, the loop buffers and the fetch units. -/
def frontSteps (s : State) : List Instr :=
  (indicesOf (fun th => match th.wait with | .spill _ | .fill _ => true | _ => false) 0 s.threads).filterMap (windowStep s) ++ loopSteps s
    ++ (missingBlocks s).map fun p => .instructionFetch p.1 p.2.1 p.2.2.1 p.2.2.2

/-- Steps of the dispatchers about a grid. -/
def gridSteps (s : State) (g : Nat) (gr : Grid) : List Instr :=
  (below 4 fun d => decide (0 < ticketsLeft gr d) && (canTake s d g).isSome).map (fun d => .ticketPull d g)
    ++ (below 4 fun d => decide (gr.tickets ≠ []) && ticketsLeft gr d = 0 && (stealVictim gr d).isSome && (canTake s d g).isSome).map
      (fun d => .steal d g)
    ++ (if 0 < undealt gr ∧ admits s gr then
        ((below 4 fun d => (gr.bringDie.all fun b => b = d) && !(gr.pushed.any fun p => p.1 = d)
            && decide (gr.launch.width * gr.launch.height ≤ freeRecords s d gr.bringDie.isSome)).take 1).map fun d => .pushBatch g d
       else [])
    ++ (gr.pushed.filter fun _ => admits s gr).map fun p => .teamAdmit g p.2 p.1 ((canTake s p.1 g).getD 0)

/-- Steps of the dispatchers. -/
def dispatchSteps (s : State) : List Instr :=
  ((List.range s.grids.length).flatMap fun g => match s.grids[g]? with
    | some gr => if gr.done then [] else gridSteps s g gr
    | none => [])
    ++ (below s.teams.length fun m => decide (phaseOf s m ≠ .complete) && (liveThreads s m).isEmpty && teamQuiet s m).map .teamComplete
    ++ (below s.teams.length fun m => (savedBlock (phaseOf s m)).isSome).map .teamRestore
    ++ (below s.teams.length (swappable s)).map .swapOut
    ++ (match firstStart s with | some (g, n) => [.nodeStart g n] | none => [])

/-- What system software has written to a context's fault queue as head. -/
def writtenHead (s : State) (c : Nat) (k : Context) : Nat :=
  ((virtBytes s c (k.fq + 8) 8).map bitsOfBytes).getD k.fqHead

/-- Fault queues whose head has been advanced, and commands at the head of a die's atomic engine. -/
def queueSteps (s : State) : List Instr :=
  ((List.range s.contexts.length).filterMap fun c => match s.contexts[c]? with
    | some k =>
      if k.live ∧ k.fqHead < k.fqTail ∧ k.fqHead < writtenHead s c k ∧ writtenHead s c k ≤ k.fqTail then
        some (.faultQueueHead c (writtenHead s c k))
      else none
    | none => none)
    ++ s.dies.filterMap fun d => (d.atomq.head?).map .atomqCommand

/-- Steps that agents of the package may make now. -/
def agentSteps (s : State) : List Instr :=
  s.net.take 1 ++ readyWaits s ++ accessSteps s ++ engineSteps s ++ tileSteps s ++ frontSteps s ++ dispatchSteps s ++ queueSteps s

/-- Whether a team that waits to take PREEMPT can: its context runs, its groups' trap records are free, and the
fault-queue entry that its stores have made has been passed (R346, R353). -/
def preemptReady (s : State) (t : Team) (fault : Option Nat) : Bool :=
  let k := ((s.grids[t.grid]?).bind fun g => s.contexts[g.ctx]?)
  (t.groups.all fun g => ((s.groups[g]?).map fun x => x.record.isNone).getD true)
    && !(k.map (·.stopped)).getD true && fault.all fun i => i < (k.map (·.fqHead)).getD 0

/-- Teams that take PREEMPT. -/
def readyPreempts (s : State) : List Nat :=
  below s.teams.length fun m => match s.teams[m]? with
    | some t => (match t.phase with
      | .preempting _ fault => preemptReady s t fault
      | _ => false)
    | none => false

/-- Every move that may be made now, in a fixed order. -/
def moves (s : State) : List Move :=
  (agentSteps s).map .run ++ (readyPreempts s).map .preempt
    ++ ((seenThreads s).filter (·.start)).map (fun a => .start a.tid) ++ (issues s).map .issue

/-- A free choice among moves, or a clk without any; no clk passes while a promoted thread's partition can issue
(R34, R228). -/
def chooseMove (s : State) : List Move → Move
  | [] => .idle
  | [.issue x] => .issue x
  | l =>
    let l := if mustIssue s then l else l ++ [.idle]
    (l[Config.freeOrder s.seed % l.length]?).getD .idle

/-- The next move: what comes from outside (the agenda, errors, messages), then a step whose time has come, then any that
may be made, at a free choice where there are several (log 1). -/
def nextMove (s : State) : Move :=
  match s.agenda, s.errors, s.inbox with
  | i :: _, _, _ => .run i
  | [], e :: _, _ => .error e
  | [], [], m :: _ => .message m.1 m.2
  | [], [], [] =>
    match dueSteps s with
    | i :: _ => .run i
    | [] => chooseMove s (moves s)

/-- A choice has been made: the next one is another. -/
def takeChoice (s : State) : State := { s with seed := s.seed + 1 }

/-- Takes a step out of the queue it stands in. -/
def takeMove (s : State) (i : Instr) : State :=
  match s.agenda with
  | _ :: r => { s with agenda := r }
  | [] =>
    match s.net with
    | j :: r => if i = j then { takeChoice s with net := r } else takeChoice s
    | [] => takeChoice s

end Sys2Proof.Machine
end

