-- ==== Sys2Proof/Machine/Step.lean ====
section
/-! DEFINITION. One step of the package, and an instruction placed where the next step runs it. -/

namespace Sys2Proof.Machine

/-- A management message is served; an unlisted code is refused (R345). -/
def serveMessage (node : Nat) (bytes : List Byte) (s : State) : Host.Outcome State Fault Refusal :=
  match requestOf (headOf node bytes) bytes with
  | some i => exec i s
  | none => .next (refuseMessage (headOf node bytes) s)

/-- A step after a thermal trip: nothing moves until a package reset (R359, R371). -/
def stepStopped (s : State) : Host.Outcome State Fault Refusal :=
  match s.agenda.dropWhile fun i => !isReset i with
  | i :: r => exec i { s with agenda := r }
  | [] => .fault .clockStopped

/-- One step: what has become ready takes its place, and the next move is made. -/
def step (s0 : State) : Host.Outcome State Fault Refusal :=
  if s0.clockStopped then stepStopped s0
  else
    let s := settleReady s0
    match nextMove s with
    | .run i => exec i (takeMove s i)
    | .start t => .next (startIteration (takeChoice s) t)
    | .preempt m => .next (preemptStep (takeChoice s) m)
    | .error e => .next (hwError { s with errors := s.errors.tail } e)
    | .message n bs => serveMessage n bs { s with inbox := s.inbox.tail }
    | .idle => .next (passClk (takeChoice s))
    | .issue x =>
      let bs := issueBytes s x
      let t := beginIssue (takeChoice s) x (classF (headOpcode bs))
      match decode bs with
      | .error e => .next (badInstruction t x bs e)
      | .ok (i, _) => exec i t

/-- The state with an instruction of `nbits` bits `w` where the next step runs it (log 6). -/
def State.withFetchWord (s : State) (nbits w : Nat) : State := placeWord s nbits w

end Sys2Proof.Machine
end

