-- ==== Sys2Proof/WellFormed.lean ====
section
/-! DEFINITION. Well-formed instructions: the static checks of R81 that hold of every legal word, and the ranges of
what names a step of another agent. -/

namespace Sys2Proof

/-- The extension words a length does not have are zero (R72). -/
def Form.fits (f : Form) : Bool :=
  match f.len with
  | .l64 => f.x1 = 0#32 && f.x2 = 0#32
  | .l96 => f.x2 = 0#32
  | .l128 => true

/-- The fields fit the opcode's lengths, and the two rows of `PMOV` keep to their MOD (R72, R79, R102). -/
def wordFits (i : Instr) (opc : BitVec 8) (f : Form) : Bool :=
  f.fits && lengthOk opc f.len &&
    (match i with
     | .pmovGet g => g.mod ≠ 1#6
     | .pmovPut g => g.mod = 1#6
     | _ => true)

/-- The widest launch limits (R217): a word legal under none is never legal. -/
def widestLimits : Machine.Limits := ⟨768, 96, 15, 15⟩

/-- Ranges of what names a step of another agent. -/
def Instr.namesOk (i : Instr) : Bool :=
  match i with
  | .instructionFetch die site part _ => decide (die < 4 ∧ site < 48 ∧ part < 6)
  | .promotion _ => true
  | .loopBufferGrant die site part => decide (die < 4 ∧ site < 48 ∧ part < 6)
  | .loadReturn _ => true
  | .accessAcknowledge _ => true
  | .spill _ => true
  | .fill _ => true
  | .tileOperationIssue die site _ => decide (die < 4 ∧ site < 48)
  | .tileOperationComplete die site _ => decide (die < 4 ∧ site < 48)
  | .slCopy _ => true
  | .slFill _ => true
  | .slGather _ => true
  | .slSparse _ => true
  | .slLoad _ => true
  | .fdOpen _ => true
  | .fdFrame _ => true
  | .fdClose _ => true
  | .sbHash _ => true
  | .sbReport _ => true
  | .sbExtend _ => true
  | .engineOperationComplete _ => true
  | .eagerCopyComplete _ => true
  | .rangeLockGrant _ => true
  | .copyCommit _ => true
  | .sourceBlockRead home _ => decide (home < 12)
  | .dhomeMaterialise dhome _ => decide (dhome < 12)
  | .aliasReleaseNotice home _ _ => decide (home < 12)
  | .hotMaterialise home _ => decide (home < 12)
  | .backgroundMaterialiser home => decide (home < 12)
  | .rds die _ => decide (die < 4)
  | .rdx die _ => decide (die < 4)
  | .upg die _ => decide (die < 4)
  | .wbm m => decide (m.die < 4)
  | .drop die _ => decide (die < 4)
  | .pjoin die _ tag => decide (die < 4 ∧ tag < 32)
  | .inv die _ => decide (die < 4)
  | .fwd owner _ _ _ => decide (owner < 4)
  | .precall die _ => decide (die < 4)
  | .peek owner _ _ => decide (owner < 4)
  | .ack m => decide (m.die < 4)
  | .data m => decide (m.die < 4)
  | .grant m => decide (m.die < 4)
  | .sliceRedUpdate _ => true
  | .monitorWake _ => true
  | .waitcPoll _ => true
  | .sleepExpire _ => true
  | .ptimeTick => true
  | .ptimeLimitReport => true
  | .wcFallback home _ => decide (home < 12)
  | .fadePeriod _ => true
  | .scratchpadRefill _ _ => true
  | .ticketPull die _ => decide (die < 4)
  | .steal die _ => decide (die < 4)
  | .pushBatch _ die => decide (die < 4)
  | .teamAdmit _ _ die _ => decide (die < 4)
  | .teamComplete _ => true
  | .swapOut _ => true
  | .teamRestore _ => true
  | .nodeStart _ _ => true
  | .nodeComplete _ _ => true
  | .nodeFail _ _ _ _ => true
  | .hummockCommand _ _ _ => true
  | .parityAbort _ _ _ _ => true
  | .decodeUnit _ _ _ => true
  | .faultQueueHead _ _ => true
  | .ctxCreate h _ => decide (h.node < 1024 ∧ h.ctxid < 65536)
  | .ctxDestroy h => decide (h.node < 1024 ∧ h.ctxid < 65536)
  | .preempt h => decide (h.node < 1024 ∧ h.ctxid < 65536)
  | .resume h => decide (h.node < 1024 ∧ h.ctxid < 65536)
  | .graphFire h _ => decide (h.node < 1024 ∧ h.ctxid < 65536)
  | .setBudget h _ => decide (h.node < 1024 ∧ h.ctxid < 65536)
  | .keyLoad h slot _ => decide (h.node < 1024 ∧ h.ctxid < 65536 ∧ slot < 256)
  | .keyDestroy h slot => decide (h.node < 1024 ∧ h.ctxid < 65536 ∧ slot < 256)
  | .setMode h _ => decide (h.node < 1024 ∧ h.ctxid < 65536)
  | .rebase h => decide (h.node < 1024 ∧ h.ctxid < 65536)
  | .setNode h _ _ => decide (h.node < 1024 ∧ h.ctxid < 65536)
  | .power h _ => decide (h.node < 1024 ∧ h.ctxid < 65536)
  | .lodeWriteLanding _ _ _ _ => true
  | .lodeRead _ _ _ _ => true
  | .lodeAcknowledge _ _ _ => true
  | .atomqCommand _ => true
  | .atomqReply _ _ _ => true
  | .packageReset _ _ => true
  | .unitLoss die _ => decide (die < 4)
  | .scrub _ _ => true
  | .rowSwap stack channel _ => decide (stack < 12 ∧ channel < 32)
  | .remapTableError stack channel _ => decide (stack < 12 ∧ channel < 32)
  | .linkRetire _ _ => true
  | .sensorPoll => true
  | .droop die site => decide (die < 4 ∧ site < 48)
  | .overTemperature die => decide (die < 4)
  | .thermalTrip => true
  | .overcurrent => true
  | .readPoint b tap => decide (b.stack < 12 ∧ b.channel < 32 ∧ b.pseudo < 2 ∧ tap < 64)
  | .writePoint b tap => decide (b.stack < 12 ∧ b.channel < 32 ∧ b.pseudo < 2 ∧ tap < 64)
  | .prbs b => decide (b.stack < 12 ∧ b.channel < 32 ∧ b.pseudo < 2)
  | .phyTestComplete b => decide (b.stack < 12 ∧ b.channel < 32 ∧ b.pseudo < 2)
  | .pswap b _ => decide (b.stack < 12 ∧ b.channel < 32 ∧ b.pseudo < 2)
  | .pdone b _ => decide (b.stack < 12 ∧ b.channel < 32 ∧ b.pseudo < 2)
  | .registerWrite b _ _ => decide (b.stack < 12 ∧ b.channel < 32 ∧ b.pseudo < 2)
  | .overTemperatureClear die => decide (die < 4)
  | .droopRecovery die site => decide (die < 4 ∧ site < 48)
  | .overcurrentClear => true
  | .flitCrcError _ _ => true
  | .runRateChange die mhz => decide (die < 4 ∧ 350 ≤ mhz ∧ mhz ≤ 700 ∧ mhz % 25 = 0)
  | .correctedErrorReport source die _ _ _ => decide (1 ≤ source ∧ source ≤ 15 ∧ die < 4)
  | _ => true

/-- A well-formed instruction: a word that fits and raises neither ILLMOD nor the group's ILLOPND under the widest
launch limits (R81); or a step of another agent with its names in range. -/
def Instr.wellFormed (i : Instr) : Bool :=
  match i.parts with
  | none => i.namesOk
  | some (opc, f) =>
    wordFits i opc f && !Machine.illMod (Machine.sigOf opc f) f && !Machine.illOpnd widestLimits (Machine.sigOf opc f) f

end Sys2Proof
end

