-- ==== Sys2Proof/Safety.lean ====
section
/-! DEFINITION. What counts as a safe run, and the terms in which claims speak of an issue group. -/

namespace Sys2Proof.Machine

/-- A step went wrong: the machine stopped, or an instruction had no meaning. -/
def stops (o : Host.Outcome State Fault Refusal) : Bool :=
  match o with
  | .next _ => false
  | .fault _ | .refused _ => true

/-- A state whose next step is a next state. -/
def safeStep (s : State) : Prop := stops (step s) = false

/-- What holds of every state of a run: memory is in its canonical form. -/
def Sound (s : State) : Prop := Memory.wf s.mem

/-! An issue group whose instruction runs. -/

/-- The machine between instructions. -/
def idle (s : State) : State := { s with cur := none }

/-- A lane that neither traps nor holds: its guard is false, or its operands can be read. -/
def Prep.goes : Prep → Bool
  | .inactive | .ready _ => true
  | .trap _ | .hold _ => false

/-- The lanes of an issue group as prepared under a signature per thread. -/
def preparedBy (s : State) (iss : Issue) (sig : Thread → Sig) (f : Form) : List (Nat × Prep) := prepAll (idle s) iss sig f

/-- The lanes of an issue group as prepared for an opcode. -/
def prepared (s : State) (iss : Issue) (opc : BitVec 8) (f : Form) : List (Nat × Prep) :=
  preparedBy s iss (fun _ => sigOf opc f) f

/-- The issue group is current, of one thread at least and of distinct threads, none of R82's steps 5 to 7 finds a trap, and no lane traps or
holds on its operands (step 8), under a signature per thread. -/
def runsBy (s : State) (iss : Issue) (opc : BitVec 8) (sig : Thread → Sig) (f : Form) : Bool :=
  decide (s.cur = some iss) && !iss.lanes.isEmpty && decide (iss.lanes.map (·.2)).Nodup && (groupTrap s iss opc (sigOf opc f) f).isNone
    && (preparedBy s iss sig f).all fun p => p.2.goes

/-- The same of an opcode's own signature. -/
def runs (s : State) (iss : Issue) (opc : BitVec 8) (f : Form) : Bool := runsBy s iss opc (fun _ => sigOf opc f) f

/-! What a completed instruction leaves (R82 step 9). -/

/-- A thread's own marks: index registers its operands advanced or the instruction wrote, hold name, predicates. -/
def markThread (r : Ready) (x : Res) (th : Thread) : Thread :=
  let xs := match x.xset with | some p => setAt r.xs p.1 p.2 | none => r.xs
  x.preds.foldl (fun th p => setPred th p.1 p.2) (setHold { th with xs := xs } r.hold)

/-- A value written through a vector or scratch destination. -/
def writeThread (d : Loc) (ws : List Word) (th : Thread) : Thread :=
  match d with
  | .vec p => setStacks th p ws
  | .scr k => setScratches th k ws
  | .uni _ | .void => th

/-- Where a thread goes. -/
def moveThread (pc : DWord) (len clk : Nat) (n : Next) (th : Thread) : Thread :=
  match n with
  | .fall => becomeReady { fallThrough th pc len with counted := none } (clk + 1)
  | .jump x => becomeReady { th with pc := x, counted := none } (clk + 1)
  | .stay => th

/-- A thread after an instruction that completes in it. -/
def doneThread (pc : DWord) (len clk : Nat) (r : Ready) (x : Res) (th : Thread) : Thread :=
  moveThread pc len clk x.next (writeThread r.d x.vals (markThread r x th))

/-- Whether a lane writes a uniform register. -/
def givesUniform (r : Ready) (x : Res) : Bool :=
  match r.d with
  | .uni _ => !x.vals.isEmpty
  | .vec _ | .scr _ | .void => false

/-- Uniform registers with a value written through a uniform destination. -/
def writeUniform (d : Loc) (ws : List Word) (ks : List Word) : List Word :=
  match d with
  | .uni k => setUnis ks k ws
  | .vec _ | .scr _ | .void => ks

/-- A group after an instruction: a uniform destination takes the value of the group's lowest active lane (R20), and the
sticky flags of `FPCTL` gain those of every active lane (R56). -/
def doneGroup (s : State) (rs : List Ready) (eff : Ready → Res) (g : Nat) (gr : Group) : Group :=
  let mine := rs.filter fun r => groupIdOf s r.tid = g
  { gr with
    ks := (match mine.find? fun r => givesUniform r (eff r) with
      | some r => writeUniform r.d (eff r).vals gr.ks
      | none => gr.ks)
    fpctl := mine.foldl (fun w r => w ||| (eff r).flags.setWidth 32) gr.fpctl }

/-- The state after an instruction that completes in every active lane: each takes `pre` and its own result, the others
fall through, each group takes its uniform destination and flags, and nothing else changes. -/
def afterLanes (s : State) (pc : DWord) (len : Nat) (ps : List (Nat × Prep)) (pre : Ready → Thread → Thread)
    (eff : Ready → Res) : State :=
  { s with
    threads := s.threads.mapIdx fun t th =>
      match lookupNat ps t with
      | none => th
      | some (.ready r) => doneThread pc len s.clk r (eff r) (pre r th)
      | some _ => moveThread pc len s.clk .fall th
    groups := s.groups.mapIdx (doneGroup s (readyLanes ps) eff) }

/-- An instruction completes in every active lane with a value, predicates, flags, an index register or a jump, and
leaves the rest of the machine as it was. -/
def completes (i : Instr) (opc : BitVec 8) (f : Form) (s : State) (iss : Issue) (eff : Ready → Res) : Prop :=
  exec i s = .next (afterLanes (idle s) iss.pc f.len.bytes (prepared s iss opc f) (fun _ th => th) eff)

/-! An issue group of one lane. -/

/-- The issue group is one lane, which is active and whose operands can be read. -/
structure Alone (s : State) (iss : Issue) (opc : BitVec 8) (sig : Thread → Sig) (f : Form) (r : Ready) : Prop where
  runs : runsBy s iss opc sig f = true
  only : preparedBy s iss sig f = [(r.tid, .ready r)]

/-- The same of an opcode's own signature. -/
abbrev Single (s : State) (iss : Issue) (opc : BitVec 8) (f : Form) (r : Ready) : Prop :=
  Alone s iss opc (fun _ => sigOf opc f) f r

/-- The lane has completed its instruction with a result, in a state that holds the instruction's other effects. -/
def leaves (s : State) (iss : Issue) (f : Form) (r : Ready) (x : Res) : State :=
  { s with
    threads := s.threads.modify r.tid (doneThread iss.pc f.len.bytes s.clk r x)
    groups := s.groups.modify (groupIdOf s r.tid) fun gr =>
      { gr with ks := writeUniform r.d x.vals gr.ks, fpctl := gr.fpctl ||| x.flags.setWidth 32 } }

/-- The thread waits at its instruction, which has no effect yet. -/
def waitsAt (s : State) (t : Nat) (w : Wait) : State :=
  { s with threads := s.threads.modify t fun th => { th with wait := w } }

/-- The lane takes a trap at its instruction. -/
def trapped (s : State) (iss : Issue) (opc : BitVec 8) (f : Form) (t : Nat) (i : TrapInfo) : State :=
  takeTraps s [trapReq iss opc f t i]

end Sys2Proof.Machine
end

