-- ==== Sys2Proof/Certificates/Slice0/Terms.lean ====
section
/-! DEFINITION. The words in which the statements speak: arithmetic as the spec's tables give it, written apart from the
model's own functions. -/

namespace Sys2Proof.Claims

open Sys2Proof.Machine

/-! Integers (R42, R89, R105). -/

/-- Signedness and width of an integer type field (R89). -/
def kindOf (it : BitVec 3) : Bool × Nat :=
  match it.toNat with
  | 0 => (true, 32)
  | 1 => (false, 32)
  | 2 => (true, 64)
  | 3 => (false, 64)
  | 4 => (true, 16)
  | 5 => (false, 16)
  | 6 => (true, 8)
  | _ => (false, 8)

/-- The number in the low w bits of an operand. -/
def num (k : Bool × Nat) (x : DWord) : Int := if k.1 then (x.setWidth k.2).toInt else ((x.setWidth k.2).toNat : Int)

/-- The register image of a number wrapped to a type (R42): a type narrower than 32 bits is extended to 32. -/
def image (k : Bool × Nat) (v : Int) : DWord :=
  let b := BitVec.ofInt k.2 v
  if k.2 < 32 then ((if k.1 then b.signExtend 32 else b.setWidth 32) : BitVec 32).setWidth 64 else b.setWidth 64

/-- A number clamped to the range of a type (R105). -/
def clamp (k : Bool × Nat) (v : Int) : Int :=
  if k.1 then max (-2 ^ (k.2 - 1)) (min v (2 ^ (k.2 - 1) - 1)) else max 0 (min v (2 ^ k.2 - 1))

/-- Wrapped with SAT clear, clamped with SAT set (R105). -/
def fit (k : Bool × Nat) (sat : Bool) (v : Int) : DWord := image k (if sat then clamp k v else v)

/-- Registers of a result of a type: a pair for a 64-bit one. -/
def regsOf (k : Bool × Nat) (v : DWord) : List Word :=
  if k.2 = 64 then [v.extractLsb' 0 32, v.extractLsb' 32 32] else [v.extractLsb' 0 32]

/-- Byte i of an operand, signed or not. -/
def byteNum (signed : Bool) (i : Nat) (x : DWord) : Int := num (signed, 8) (x >>> (8 * i))

/-- Halfword i of an operand. -/
def halfNum (i : Nat) (x : DWord) : Int := num (false, 16) (x >>> (16 * i))

/-- The larger less the smaller. -/
def distance (x y : Int) : Int := max x y - min x y

/-! Bits (R107 to R110). -/

/-- Width of a bit instruction's type: `.b32` or `.b64` (R107). -/
def widthOf (it : BitVec 3) : Nat :=
  match it.toNat with
  | 2 | 3 => 64
  | _ => 32

/-- A result of w bits as a register image. -/
def bitsImage {w : Nat} (x : BitVec w) : DWord := x.setWidth 64

/-- B or its complement. -/
def maybeNot (inv : Bool) (b : DWord) : DWord := if inv then ~~~ b else b

/-- The count operand. -/
def countOf (b : DWord) : Nat := (b.setWidth 32).toNat

/-- `BFN`: the OR over the rows of the table that give 1 of the AND of the inputs as the row has them (R108). -/
def tableBits (t : BitVec 16) (d a b c : DWord) : DWord :=
  (List.range 16).foldl (fun acc row =>
    if t.getLsbD row then
      acc ||| ((if row.testBit 3 then d else ~~~ d) &&& (if row.testBit 2 then c else ~~~ c)
        &&& (if row.testBit 1 then b else ~~~ b) &&& (if row.testBit 0 then a else ~~~ a))
    else acc) 0

/-- `BFE` in w bits (R109). -/
def fieldOf (w : Nat) (signed : Bool) (a b : DWord) : DWord :=
  let pos := (b.extractLsb' 0 8).toNat
  let len := min (b.extractLsb' 8 8).toNat w
  let x := a.setWidth w
  let y := if signed then x.sshiftRight pos else x >>> pos
  let z := y.setWidth len
  (if signed then z.signExtend w else z.setWidth w).setWidth 64

/-- `BFI` in w bits (R109). -/
def insertField (w : Nat) (a b c : DWord) : DWord :=
  let pos := (c.extractLsb' 0 8).toNat
  let len := (c.extractLsb' 8 8).toNat
  let mask : BitVec w := BitVec.ofNat w (2 ^ len - 1) <<< pos
  ((((a.setWidth w) <<< pos) &&& mask) ||| ((b.setWidth w) &&& ~~~ mask)).setWidth 64

/-- The number of leading zeros of w bits. -/
def leadingZeros (w : Nat) (a : DWord) : Nat := ((List.range w).reverse.takeWhile fun i => !a.getLsbD i).length

/-- The number of one bits among w. -/
def ones (w : Nat) (a : DWord) : Nat := (List.range w).countP fun i => a.getLsbD i

/-- `BSEL`'s bytes of D so far and the next selector (R110). -/
def selectByte (a b : DWord) (done : List Byte) (s : Nat) : Byte :=
  let x : List Byte := (List.range 4).map (fun i => a.extractLsb' (8 * i) 8) ++ (List.range 4).map fun i => b.extractLsb' (8 * i) 8
  match s with
  | 9 => 0xFF#8
  | 10 => if (done.getLast?.getD 0).getLsbD 7 then 0xFF#8 else 0
  | 11 => done.getLast?.getD 0
  | _ => (x[s]?).getD 0

/-- `BSEL` (R110): bytes of D from byte 0 upward. -/
def selectBytes (a b c : DWord) : DWord :=
  let d := (List.range 4).foldl (fun d i => d ++ [selectByte a b d (c.extractLsb' (4 * i) 4).toNat]) []
  ((d[3]?.getD 0) ++ (d[2]?.getD 0) ++ (d[1]?.getD 0) ++ (d[0]?.getD 0) : BitVec 32).setWidth 64

/-! Comparisons (R102). -/

/-- The comparison codes on numbers. -/
def compares (cc : BitVec 3) (x y : Int) : Bool :=
  match cc.toNat with
  | 0 => decide (x = y)
  | 1 => decide (x ≠ y)
  | 2 => decide (x < y)
  | 3 => decide (x ≤ y)
  | 4 => decide (x > y)
  | _ => decide (x ≥ y)

/-! Instructions that complete in every active lane with a result of their own. -/

/-- Whenever the issue group of an opcode runs, the instruction completes in every active lane with this result, and the
rest of the machine stays as it was. -/
def Gives (mk : Form → Instr) (opc : BitVec 8) (eff : Form → State → Issue → Ready → Res) : Prop :=
  ∀ (f : Form) (s : State) (iss : Issue), runs s iss opc f = true → completes (mk f) opc f s iss (eff f s iss)

/-- The same of an instruction that writes registers only. -/
def GivesWords (mk : Form → Instr) (opc : BitVec 8) (ws : Form → Ready → List Word) : Prop :=
  Gives mk opc fun f _ _ r => { vals := ws f r }

/-- The integer type of a form (R89). -/
def typeOf (f : Form) : Bool × Nat := kindOf (f.mod.extractLsb' 0 3)

/-- SAT: bit 75 in a form that carries the operand extension, else MOD[3] (R74, R105). -/
def saturates (opc : BitVec 8) (f : Form) : Bool :=
  if hasExt (sigOf opc f) f then f.x1.getLsbD 11 else f.mod.getLsbD 3

/-- Registers of a type's result, wrapped or clamped. -/
def exactly (opc : BitVec 8) (f : Form) (v : Int) : List Word := regsOf (typeOf f) (fit (typeOf f) (saturates opc f) v)

/-- Registers of a type's result, wrapped. -/
def wrapped (f : Form) (v : Int) : List Word := regsOf (typeOf f) (image (typeOf f) v)

/-- A and B as numbers of the form's type, and C. -/
def numA (f : Form) (r : Ready) : Int := num (typeOf f) r.a
def numB (f : Form) (r : Ready) : Int := num (typeOf f) r.b
def numC (f : Form) (r : Ready) : Int := num (typeOf f) r.c

/-- The signedness of a form's type with another width. -/
def asWidth (f : Form) (w : Nat) : Bool × Nat := ((typeOf f).1, w)

/-- A predicate of a thread: p7 is true (R29). -/
def predicate (s : State) (t n : Nat) : Bool := decide (n = 7) || (s.threads[t]?).any fun th => th.preds.getLsbD n

/-- Width of a bit instruction's form. -/
def bitsOf (f : Form) : Nat := widthOf (f.mod.extractLsb' 0 3)

/-- Registers of a bit result. -/
def bitRegs (f : Form) (v : DWord) : List Word := regsOf (false, bitsOf f) v

/-- The sum of `ADDC` in a lane (R106). -/
def carrySum (f : Form) (s : State) (r : Ready) : Nat :=
  let w := (typeOf f).2
  (r.a.setWidth w).toNat + (if f.mod.getLsbD 4 then ~~~ (r.b.setWidth w) else r.b.setWidth w).toNat
    + (if (if f.mod.getLsbD 5 then f.mod.getLsbD 4 else predicate s r.tid f.c.toNat) then 1 else 0)

/-- One 32-bit register. -/
def oneReg (v : DWord) : List Word := [v.extractLsb' 0 32]

/-- A pair of registers. -/
def pairRegs (v : DWord) : List Word := [v.extractLsb' 0 32, v.extractLsb' 32 32]

/-- One register, or a pair where a bit of MOD says so. -/
def regsBy (wide : Bool) (v : DWord) : List Word := if wide then pairRegs v else oneReg v

/-- `PLOP`'s combination (R102). -/
def combine (op : BitVec 2) (a b : Bool) : Bool :=
  match op.toNat with
  | 0 => a && b
  | 1 => a || b
  | _ => xor a b

/-- The image of an index register (R22). -/
def imageOf (x : XReg) : DWord := (0#25 ++ BitVec.ofBool x.anchor ++ x.offset ++ x.stride ++ x.bound ++ x.base : BitVec 64)

/-- A result and its flags from a floating-point result. -/
def floats (w : Nat) (v : FRes) : Res := { vals := regsBy (decide (w = 64)) v.bits, flags := v.flags }

/-- F, MOD[2:0], and the width of its result (R113). -/
def formatOf (f : Form) : BitVec 3 := f.mod.extractLsb' 0 3
def formatWidth (f : Form) : Nat := if formatOf f = 1#3 then 64 else 32

/-- A floating-point instruction whose exact result is rounded once, element by element (R113, R114). -/
def Rounds (mk : Form → Instr) (opc : BitVec 8) (op : Rnd → Val → Val → Val → Exact) : Prop :=
  Gives mk opc fun f s _ r =>
    let c := ctlOf opc f s r.tid 0
    floats (formatWidth f) (fApply (formatOf f) c (op c.rnd) r.a r.b r.c)

/-- A floating-point instruction that passes its result on unrounded (R114, R117). -/
def Passes (mk : Form → Instr) (opc : BitVec 8) (op : Rnd → Val → Val → Exact) : Prop :=
  Gives mk opc fun f s _ r =>
    let c := ctlOf opc f s r.tid 0
    floats (formatWidth f) (fPass (formatOf f) c.sat c.ftz (op c.rnd) r.a r.b)

/-! Control transfer (R93 to R98). -/

/-- The displacement imm32, sign-extended. -/
def displacement (f : Form) : DWord := (imm32Of f).signExtend 64

/-- A target is a multiple of four. -/
def evenTarget (t : DWord) : Bool := t.extractLsb' 0 2 = 0#2

/-- A taken branch out of the body of its frame's loop ends the loop (R98). -/
def outOfLoop (t : DWord) (th : Thread) : Thread :=
  match th.frames with
  | fr :: rest =>
    (match fr.loop with
     | some l => if l.start ≤ t ∧ t < l.stop then th else { th with frames := { fr with loop := none } :: rest }
     | none => th)
  | [] => th

/-- A call's new frame above the caller's, which takes the link record (R18, R94). -/
def intoFrame (ret : DWord) (n : Nat) (th : Thread) : Thread :=
  match th.frames with
  | fr :: rest => { th with wb := th.wb + n, frames := ⟨0#64, 0, none⟩ :: { fr with ret := ret, slide := n } :: rest }
  | [] => th

/-- R94's checks find nothing in a lane. -/
def callFits (s : State) (f : Form) (r : Ready) (t : DWord) : Prop :=
  ∃ th, s.threads[r.tid]? = some th ∧ evenTarget t = true ∧ th.wb + f.d.toNat + windowOf s r.tid - 1 ≤ 4095 ∧ depthOf th < 4095 ∧
    windowOf s r.tid + f.d.toNat ≤ resvOf s r.tid ∧ residentSpan th (windowOf s r.tid) + f.d.toNat ≤ resvOf s r.tid

/-- A return's frame closed (R95): the window moves down by the frame's slide, and the positions above it become undefined
(R17), each a free value. -/
def outOfFrame (seed w : Nat) (fr : Frame) (rest : List Frame) (th : Thread) : Thread :=
  setStacks { th with wb := th.wb - fr.slide, frames := fr :: rest } (th.wb - fr.slide + w)
    ((List.range fr.slide).map fun i => Config.freeReg seed (th.wb - fr.slide + w + i))

/-- An active loop in a thread's frame. -/
def inLoop (l : LoopRec) (th : Thread) : Thread :=
  match th.frames with
  | fr :: rest => { th with frames := { fr with loop := some l } :: rest }
  | [] => th

/-- Nothing of a thread's group, team or cluster waits for it to go on: no busy trap record, no pending barrier episode, no
signature. -/
def unattached (s : State) (t : Nat) : Prop :=
  (∀ g, groupOf s t = some g → g.record = none) ∧
  (∀ m, s.teams[teamIdOf s t]? = some m → m.episode = none ∧ (∀ c ∈ m.convs, c.sigs = []) ∧
    ∀ k, s.clusters[m.cluster]? = some k → k.episode = none)

/-- A thread that has exited. -/
def exitedThread (th : Thread) : Thread := { th with exited := true, wait := .ready, handler := none }

/-- Whether an access is a load of a thread. -/
def loadOf (t : Nat) (a : Access) : Bool := decide (a.tid = t) && (match a.kind with | .load _ _ _ => true | _ => false)

/-- A state in which a thread of another one has ended (R96): its loads are abandoned, its monitors are gone, its core keeps
its ptime (R31), and the rest is as it was. -/
def Ended (s : State) (r : Ready) (th : Thread) (t : State) : Prop :=
  (t.threads[r.tid]?).map (·.exited) = some true ∧
  (∀ u, u ≠ r.tid → t.threads[u]? = s.threads[u]?) ∧
  t.accs = s.accs.filter (fun a => !loadOf r.tid a) ∧
  (∀ d ∈ t.dies, ∀ m ∈ d.monitors, m.tid ≠ r.tid) ∧
  (coreAt t (coreOf s r.tid).1 (coreOf s r.tid).2).maxExit =
    max (coreAt s (coreOf s r.tid).1 (coreOf s r.tid).2).maxExit th.ptime ∧
  t.mem = s.mem ∧ t.homes = s.homes ∧ t.engines = s.engines ∧ t.lodes = s.lodes ∧ t.contexts = s.contexts ∧
  t.grids = s.grids ∧ t.clusters = s.clusters ∧ t.cur = none

/-! Accesses (R30, R136, R140). -/

/-- EA: A plus B, a signed 32-bit number, times a scale (R136). -/
def byteAddress (a b : DWord) (scale : Nat) : Nat := (((a.toNat : Int) + num (true, 32) b * scale) % 2 ^ 64).toNat

/-- Bytes of a size code (R143). -/
def accessBytes (z : BitVec 3) : Nat := (([1, 1, 2, 2, 4, 8, 16, 16] : List Nat)[z.toNat]?).getD 16

/-- A thread with a counter raised. -/
def counted (c : Ctr) (th : Thread) : Thread :=
  match c with
  | .ld => { th with ld := th.ld + 1 }
  | .st => { th with st := th.st + 1 }
  | .cp => { th with cp := th.cp + 1 }
  | .tl => { th with tl := th.tl + 1 }
  | .none => th

/-- A counter of a thread that is below 63. -/
def unfull (s : State) (t : Nat) (c : Ctr) : Prop :=
  ∃ th, s.threads[t]? = some th ∧
    (match c with | .ld => th.ld < 63 | .st => th.st < 63 | .cp => th.cp < 63 | .tl => th.tl < 63 | .none => True)

/-- A counter of a thread that stands at 63. -/
def full (s : State) (t : Nat) (c : Ctr) : Prop :=
  ∃ th, s.threads[t]? = some th ∧
    (match c with | .ld => th.ld = 63 | .st => th.st = 63 | .cp => th.cp = 63 | .tl => th.tl = 63 | .none => False)

/-- An access that a thread issues, with nothing to write and nowhere to return to. -/
def issued (s : State) (t : Nat) (kind : AccKind) (place : Place) (size va : Nat) (x : Xlat) (keys : List (Nat × Nat)) :
    Access where
  id := s.nextId
  tid := t
  owners := [t]
  ctx := ctxOf s t
  die := (coreOf s t).1
  site := (coreOf s t).2
  issue := s.issueNo
  kind := kind
  place := place
  size := size
  va := va
  keys := keys
  ms := x.ms
  lbc := x.lbc && decide (x.pa / 4096 % 16 ≠ 0)
  writeBack := false
  bytes := []
  cmp := 0
  dest := .none
  ctr := .none
  node := none
  wholes := []
  copies := []
  peeked := []

/-- An access is outstanding, the translations of its pages may be cached (R352), and its thread's counter has risen. -/
def withAccess (s : State) (a : Access) : State :=
  { cacheAccess { s with accs := s.accs ++ [a], nextId := s.nextId + 1 } a with
    threads := s.threads.modify a.tid (counted a.ctr) }

/-- The threads of a list that are in a thread's group. -/
def mates (s : State) (t : Nat) (l : List Nat) : List Nat :=
  l.filter fun x => (s.threads[x]?).map (·.group) = some (((s.threads[t]?).map (·.group)).getD 0)

/-! The system registers (R39, R205). -/

/-- What a context's register holds. -/
def contextRegister (c : Context) (n : Nat) : DWord :=
  match n with
  | 0x000 => c.trapvec
  | 0x001 => c.traprec
  | 0x003 => c.srseed.setWidth 64
  | 0x004 => BitVec.ofNat 64 c.ctxid
  | 0x005 => BitVec.ofNat 64 c.keyid
  | 0x006 => BitVec.ofNat 64 c.peatwc
  | 0x007 => BitVec.ofNat 64 c.aliashot
  | 0x008 => BitVec.ofNat 64 c.leasemax
  | 0x009 => c.budget
  | _ => c.fadeper.setWidth 64

/-- A context after a write of a register: the bits and limits that each keeps. -/
def withRegister (c : Context) (n : Nat) (v : DWord) : Context :=
  match n with
  | 0x000 => { c with trapvec := v &&& 0xFFFFFFFFFFFFFFC0 }
  | 0x001 => { c with traprec := v &&& 0xFFFFFFFFFFFFFF00 }
  | 0x003 => { c with srseed := if v.setWidth 32 = 0#32 then 1 else v.setWidth 32 }
  | 0x004 => { c with ctxid := (v.setWidth 16).toNat }
  | 0x005 => { c with keyid := (v.setWidth 8).toNat }
  | 0x006 => { c with peatwc := (v.setWidth 12).toNat }
  | 0x007 => { c with aliashot := (v.setWidth 16).toNat }
  | 0x008 =>
    let x := (v.setWidth 32).toNat
    { c with leasemax := if x = 0 ∨ 8 < x then 8 else x }
  | 0x00A => { c with privlim := v.setWidth 32 }
  | _ => { c with fadeper := v.setWidth 32 }

/-- A thread at the start of a trap's handler, which waits until the stores of its record are performed (R82, R84, R87). -/
def inHandler (vec : DWord) (code acc : Nat) (th : Thread) : Thread :=
  { th with pc := vec + BitVec.ofNat 64 (64 * code), handler := some code, wait := .recordStore acc, promoted := false }

/-! The die protocol (R296, R313). -/

/-- No L1 of a die owns a sector. -/
def unowned (s : State) (die sec : Nat) : Prop := ∀ c ∈ s.cores, c.die = die → ∀ x ∈ c.l1, x.sec = sec → x.own = false

/-! Accesses as they end (R140, R143). -/

/-- The number that bytes spell, the first the lowest. -/
def valueOf : List Byte → Nat
  | [] => 0
  | b :: bs => b.toNat + 256 * valueOf bs

/-- The register image of loaded bytes (R143). -/
def loaded (bs : List Byte) (sext : Bool) : List Word :=
  if bs.length = 1 ∨ bs.length = 2 then [BitVec.ofInt 32 (num (sext, 8 * bs.length) (BitVec.ofNat 64 (valueOf bs)))]
  else (List.range (bs.length / 4)).map fun i => BitVec.ofNat 32 (valueOf ((bs.drop (4 * i)).take 4))

/-- A thread with a counter lowered. -/
def lowered (c : Ctr) (th : Thread) : Thread :=
  match c with
  | .ld => { th with ld := th.ld - 1 }
  | .st => { th with st := th.st - 1 }
  | .cp => { th with cp := th.cp - 1 }
  | .tl => { th with tl := th.tl - 1 }
  | .none => th

/-- An event of the package order, which keeps its place among its thread's others: everything but an `LD.S`, `MATZ`, `ALQ`
and `CFLUSH` (R260, R261). -/
def anEvent (a : Access) : Prop :=
  (∀ fresh sext, a.kind ≠ .load fresh true sext) ∧ a.kind ≠ .matz ∧ a.kind ≠ .alq ∧ (∀ inv peat, a.kind ≠ .flush inv peat false) ∧
    a.place ≠ .nothing

/-- No eager copy, range lock or begun `RED` message of others stands before an access (R154, R276, R300). -/
def clearWay (s : State) (rest : List Access) : Prop :=
  (∀ e ∈ s.engines, e.engine ≠ 8) ∧ (∀ h ∈ s.homes, h.locks = []) ∧ ∀ b ∈ rest, ∀ tag steps, b.kind ≠ .red tag steps true

/-- The oldest access outstanding, a living thread's own, with no other of its number, no fence waiting and its way clear. -/
def Oldest (s : State) (a : Access) (rest : List Access) (th : Thread) : Prop :=
  s.accs = a :: rest ∧ (∀ b ∈ rest, b.id ≠ a.id) ∧ a.owners = [a.tid] ∧ a.node = none ∧ s.threads[a.tid]? = some th ∧
    th.exited = false ∧ (∀ u ∈ s.threads, ∀ p q, u.wait ≠ .fence p q) ∧ clearWay s rest

/-- Bytes of one sector of DRAM, in neither an MS page nor the data pages of an LBC group. -/
def oneSector (a : Access) (pa n : Nat) : Prop :=
  a.place = .phys [(pa, n)] ∧ 0 < n ∧ pa % 64 + n ≤ 64 ∧ pa < dramEnd ∧ a.ms = false ∧ a.lbc = false

/-- No home holds an alias or a watch entry. -/
def noReed (s : State) : Prop := ∀ h ∈ s.homes, h.aliases = [] ∧ h.watches = []

/-- An entry of one grain without a transform, from a plain page. -/
def oneGrain (e : AliasEntry) : Prop := e.len = 1 ∧ e.xf0 = 0 ∧ e.xf1 = 0 ∧ e.lbc = false ∧ e.low = 0

/-- A grain's source bytes are written into it, and its entry leaves its home, which notifies the source homes (R285 to
R287). -/
def grainOut (s : State) (home : Nat) (e : AliasEntry) : State :=
  let t := putBytes s (e.dst * 16) (rawBytes s (e.src * 16) 16) (ctxOfId s e.ctxid)
  { t with
    homes := t.homes.modify home fun h => { h with aliases := h.aliases.filter fun x => x ≠ e }
    net := t.net ++ [.aliasReleaseNotice home e.src 1] }

/-! Engines (R154, R197 to R201, R275). -/

/-- An engine operation of a function that holds its locks and has no status yet, in a package that runs; its sources are
read and its entries pushed. -/
def Working (s : State) (e : EngineOp) (eng fn : Nat) : Prop :=
  s.engines.find? (fun x => x.id = e.id) = some e ∧ e.engine = eng ∧ e.fn = fn ∧ e.locked = true ∧ e.status = none ∧ s.power = 0 ∧
    e.todo = [] ∧ e.pushes = []

/-- An operation with what it will write and reply. -/
def withResult (e : EngineOp) (l : List (Nat × Sector × BitVec 64)) (reply : Nat) : EngineOp :=
  { e with stage := 2, swrites := toPhysical e l, pushes := [], reply := reply, status := some 0 }

/-- A word of an operation's descriptor. -/
def bodyWord (e : EngineOp) (off : Nat) : Nat := descWord e.desc off

/-- A state with an engine operation replaced. -/
def withEngine (s : State) (e : EngineOp) : State :=
  { s with engines := s.engines.map fun x => if x.id = e.id then e else x }

/-! The host and graphs (R325, R345). -/

/-- The answer to a message. -/
def answered (s : State) (h : HostHead) (status value : Nat) : State :=
  { s with out := s.out ++ [.reply h.node h.ctxid h.seq status value] }

/-- A message arrives that the device serves: the Lode ports are up, the node has the host role, and no error was fatal. -/
def heard (s : State) (h : HostHead) : Prop := s.lodeUp = true ∧ hostRole s h.node = true ∧ s.fatal = false

/-- `BUDGET` as it keeps a value: power and traffic as given, at most 176 cores, the rest zero (R340). -/
def budgetBits (v : DWord) : DWord :=
  (v &&& 0x0000FFFFFFFF0000#64) ||| BitVec.ofNat 64 (256 * min (v.extractLsb' 8 8).toNat 176)

/-- A context changed. -/
def withCtx (s : State) (c : Nat) (f : Context → Context) : State := { s with contexts := s.contexts.modify c f }

/-- A node of a graph changed. -/
def withNode (s : State) (g n : Nat) (f : GNode → GNode) : State :=
  { s with graphs := s.graphs.modify g fun x => { x with nodes := x.nodes.modify n f } }

/-- A node whose end leaves nothing of an engine behind: no operation is a node's work, and it holds no lock. -/
def plainNode (s : State) (x : GNode) : Prop := (∀ e ∈ s.engines, e.node = none) ∧ x.lockOp = none

/-- A grid as its compute node makes it in pull mode: each die gets a range of the cluster tickets (R224). -/
def pullGrid (l : Launch) (ctx g n : Nat) : Grid where
  launch := l
  ctx := ctx
  node := some (g, n)
  tickets := [(0, clustersOf l / 4), (clustersOf l / 4, 2 * clustersOf l / 4), (2 * clustersOf l / 4, 3 * clustersOf l / 4),
    (3 * clustersOf l / 4, clustersOf l)]
  remaining := l.teams
  pushed := []
  central := (0, 0)
  returned := []
  bringDie := none
  fallback := none
  done := false

end Sys2Proof.Claims
end

