-- ==== Sys2Proof/Certificates/Slice0/Obligations.lean ====
section
/-! DEFINITION. The statements about the model. Each docstring names the rules of spec/ that the statement formalises. A
result statement has the whole next state as its conclusion: what it does not name is as it was, every byte of memory
among it. -/

open Sys2Proof Sys2Proof.Machine Sys2Proof.Claims

/-! Instructions that complete in every active lane. -/

/-- R105, R106, R42: the integer instructions write the exact result, wrapped with SAT clear and clamped with SAT set, and
`ADDC` also its carry. -/
def Obligations.IntegerResults : Prop :=
  GivesWords .add 0x20 (fun f r => exactly 0x20 f (numA f r + numB f r)) ∧
  GivesWords .sub 0x21 (fun f r => exactly 0x21 f (numA f r - numB f r)) ∧
  Gives .addc 0x22 (fun f s _ r =>
    { vals := regsOf (typeOf f) (BitVec.ofNat 64 (carrySum f s r % 2 ^ (typeOf f).2))
      preds := [(f.c.toNat, decide (2 ^ (typeOf f).2 ≤ carrySum f s r))] }) ∧
  GivesWords .mul 0x23 (fun f r => exactly 0x23 f (numA f r * numB f r)) ∧
  GivesWords .mulh 0x24 (fun f r => wrapped f (numA f r * numB f r / 2 ^ (typeOf f).2)) ∧
  GivesWords .mad 0x25 (fun f r => exactly 0x25 f (numA f r * numB f r + numC f r)) ∧
  GivesWords .madw 0x26 (fun f r =>
    pairRegs (fit (asWidth f 64) (saturates 0x26 f)
      (num (asWidth f 32) r.a * num (asWidth f 32) r.b + num (asWidth f 64) r.c))) ∧
  GivesWords .abs 0x27 (fun f r => exactly 0x27 f |numA f r|) ∧
  GivesWords .min 0x28 (fun f r => wrapped f (min (numA f r) (numB f r))) ∧
  GivesWords .max 0x29 (fun f r => wrapped f (max (numA f r) (numB f r))) ∧
  GivesWords .dot4 0x2A (fun f r => oneReg (fit (typeOf f) (saturates 0x2A f)
    (numC f r + ((List.range 4).map fun i =>
      byteNum (f.mod.getLsbD 4) i r.a * byteNum (f.mod.getLsbD 5) i r.b).sum))) ∧
  GivesWords .sad 0x2B (fun f r => oneReg (fit (typeOf f) (saturates 0x2B f)
    (numC f r + if f.mod.getLsbD 4
      then ((List.range 2).map fun i => distance (halfNum i r.a) (halfNum i r.b)).sum
      else ((List.range 4).map fun i => distance (byteNum false i r.a) (byteNum false i r.b)).sum)))

/-- R107 to R109: the bit instructions write their results. -/
def Obligations.BitResults : Prop :=
  GivesWords .and 0x30 (fun f r => bitRegs f (bitsImage ((r.a &&& maybeNot (f.mod.getLsbD 4) r.b).setWidth (bitsOf f)))) ∧
  GivesWords .or 0x31 (fun f r => bitRegs f (bitsImage ((r.a ||| maybeNot (f.mod.getLsbD 4) r.b).setWidth (bitsOf f)))) ∧
  GivesWords .xor 0x32 (fun f r => bitRegs f (bitsImage ((r.a ^^^ maybeNot (f.mod.getLsbD 4) r.b).setWidth (bitsOf f)))) ∧
  GivesWords .bfn 0x33 (fun f r =>
    bitRegs f (bitsImage ((tableBits ((imm32Of f).extractLsb' 0 16) r.dOld r.a r.b r.c).setWidth (bitsOf f)))) ∧
  GivesWords .shl 0x34 (fun f r => bitRegs f (bitsImage ((r.a.setWidth (bitsOf f)) <<< countOf r.b))) ∧
  GivesWords .shr 0x35 (fun f r => bitRegs f (bitsImage ((r.a.setWidth (bitsOf f)) >>> countOf r.b))) ∧
  GivesWords .shra 0x36 (fun f r => bitRegs f (bitsImage ((r.a.setWidth (bitsOf f)).sshiftRight (countOf r.b)))) ∧
  GivesWords .rol 0x37 (fun f r => bitRegs f (bitsImage ((r.a.setWidth (bitsOf f)).rotateLeft (countOf r.b)))) ∧
  GivesWords .fsh 0x38 (fun f r =>
    let w := bitsOf f
    let x := r.b.setWidth w ++ r.a.setWidth w
    let m := countOf r.c % w
    bitRegs f (if f.mod.getLsbD 4 then bitsImage ((x <<< m).extractLsb' w w) else bitsImage ((x >>> m).extractLsb' 0 w))) ∧
  GivesWords .popc 0x39 (fun f r => oneReg (BitVec.ofNat 64 (ones (bitsOf f) r.a))) ∧
  GivesWords .clz 0x3A (fun f r => oneReg (BitVec.ofNat 64 (leadingZeros (bitsOf f) r.a))) ∧
  GivesWords .brev 0x3B (fun f r => bitRegs f (bitsImage (r.a.setWidth (bitsOf f)).reverse)) ∧
  GivesWords .bfe 0x3C (fun f r => bitRegs f (fieldOf (bitsOf f) (typeOf f).1 r.a r.b)) ∧
  GivesWords .bfi 0x3D (fun f r => bitRegs f (insertField (bitsOf f) r.a r.b r.c))

/-- R102, R103: the predicate instructions. -/
def Obligations.PredicateResults : Prop :=
  Gives .icmp 0x10 (fun f _ _ r => { preds := [(f.d.toNat, compares (f.mod.extractLsb' 3 3) (numA f r) (numB f r))] }) ∧
  Gives .fcmp 0x11 (fun f _ _ r =>
    let v := fCompare (f.mod.extractLsb' 3 3) (formatOf f) r.a r.b
    { preds := [(f.d.toNat, v.1)], flags := v.2 }) ∧
  Gives .plop 0x12 (fun f s _ r =>
    let op := f.mod.extractLsb' 0 2
    let a := xor (predicate s r.tid f.a.toNat) (f.mod.getLsbD 2)
    let b := xor (predicate s r.tid f.b.toNat) (f.mod.getLsbD 3)
    let c := xor (predicate s r.tid f.c.toNat) (f.mod.getLsbD 4)
    { preds := [(f.d.toNat, combine op (combine op a b) c)] }) ∧
  (∀ f s iss, runsBy s iss 0x13 (selSig f) f = true → exec (.sel f) s = .next (afterLanes (idle s) iss.pc f.len.bytes
    (preparedBy s iss (selSig f) f) (fun _ th => th) fun r =>
      { vals := regsBy (f.mod.getLsbD 0) (if xor (predicate s r.tid f.c.toNat) (f.mod.getLsbD 1) then r.a else r.b) })) ∧
  Gives .pmovGet 0x14 (fun _ s _ r =>
    { vals := oneReg (BitVec.ofNat 64 (((List.range 8).map fun i => if predicate s r.tid i then 2 ^ i else 0).sum)) }) ∧
  Gives .pmovPut 0x14 (fun _ _ _ r =>
    { preds := (List.range 7).filterMap fun i => if r.b.getLsbD i then some (i, r.a.getLsbD i) else none }) ∧
  Gives .fclass 0x15 (fun f _ _ r =>
    { preds := [(f.d.toNat, match typeFp (f.mod.extractLsb' 0 4).toNat with
        | some t => r.b.getLsbD (fClass t (r.a.toNat % 2 ^ fpWidth t))
        | none => false)] })

/-- R91, R111, R112, R124, R125, R127 to R130, R132: `LEA` writes (A + (B << s)) mod 2^64; `TADDR` writes the element's address where
the identifier is set and of layout RM or CM; the instructions that read other lanes. -/
def Obligations.AddressLaneResults : Prop :=
  (
  GivesWords .lea 0x40 (fun f r =>
    pairRegs (r.a + BitVec.ofInt 64 (num (f.mod.getLsbD 3, 32) r.b * 2 ^ (f.mod.extractLsb' 0 3).toNat))) ∧
  (∀ f s iss x, runs s iss 0x41 f = true →
    (∀ r ∈ readyLanes (prepared s iss 0x41 f), ∃ k, contextOf s r.tid = some k ∧ lookupNat k.tensors f.c.toNat = some x) →
    x.layout ≤ 1 →
    completes (.taddr f) 0x41 f s iss fun r => { vals := pairRegs (
      (if f.mod.getLsbD 0 then x.base else r.a)
        + BitVec.ofInt 64 (num (true, 32) r.b) * ((x.strides[(f.mod.extractLsb' 1 3).toNat]?).getD 0)) })) ∧ (
  Gives .bpln 0x75 (fun f s iss r => { vals := oneReg (
    if r.lane < (f.mod.extractLsb' 0 3).toNat then laneWord fun j =>
      (contributor s (prepared s iss 0x75 f) r j).any fun x => x.a.getLsbD r.lane
    else 0) }) ∧
  Gives .bunp 0x76 (fun f s iss r =>
    let w := (f.mod.extractLsb' 0 3).toNat
    let c := ((List.range w).map fun i =>
      if (partnerA s iss (sigOf 0x76 f) f r i).any fun a => a.getLsbD r.lane then 2 ^ i else 0).sum
    { vals := oneReg (if f.mod.getLsbD 3 then ((BitVec.ofNat w c).signExtend 32).setWidth 64 else BitVec.ofNat 64 c) }) ∧
  Gives .scmax 0x77 (fun f s iss r => floats 32
    (fScmax f.c.toNat (f.mod.extractLsb' 0 2) ((contributors s (prepared s iss 0x77 f) r).map (·.a)))) ∧
  Gives .pgath 0x80 (fun f s iss r =>
    let l := gathered f s iss r
    let m := (l.filter (·.2)).length
    if f.mod.extractLsb' 0 2 = 3#2 then
      { preds := [(f.d.toNat, match (f.mod.extractLsb' 3 3).toNat with
          | 0 => decide (m = countOf r.b)
          | 1 => decide (m ≠ countOf r.b)
          | 2 => decide (m < countOf r.b)
          | 3 => decide (m ≤ countOf r.b)
          | 4 => decide (m > countOf r.b)
          | 5 => decide (m ≥ countOf r.b)
          | 6 => decide (m = l.length)
          | _ => decide (0 < m ∧ m < l.length))] }
    else { vals := oneReg (match (f.mod.extractLsb' 0 2).toNat with
      | 0 => laneWord fun j => l.any fun p => decide (p.1 = j) && p.2
      | 1 => BitVec.ofNat 64 m
      | _ => BitVec.ofNat 64 (((l.filter (·.2)).map (·.1)).foldl min 32)) }) ∧
  Gives .lxch 0x81 (fun f s iss r =>
    { vals := regsBy (f.mod.getLsbD 5)
        (match lxchSource (f.mod.extractLsb' 0 2).toNat (f.mod.extractLsb' 2 3).toNat r.lane r.b with
         | some j => (partnerA s iss (sigOf 0x81 f) f r j).getD r.a
         | none => r.a) }) ∧
  Gives .matchLanes 0x82 (fun f s iss r =>
    let w := if f.mod.getLsbD 0 then 64 else 32
    { vals := oneReg (laneWord fun j =>
        (contributor s (prepared s iss 0x82 f) r j).any fun x => x.a.setWidth w = r.a.setWidth w) }) ∧
  Gives .gred 0x83 (fun f s iss r => floats 32 (gredTree (f.mod.extractLsb' 0 2) (f.mod.extractLsb' 2 3)
    ((List.range 32).map fun j => (contributor s (prepared s iss 0x83 f) r j).map (·.a)))) ∧
  Gives .movk 0x85 (fun f s iss r =>
    { vals := regsBy (f.mod.getLsbD 0)
        (((contributor s (prepared s iss 0x85 f) r (countOf r.b % 32)).map (·.a)).getD r.a) }))

/-- R113, R114, R116, R117: the floating-point instructions round the exact result of each element once, under the rounding,
saturate and flush controls that govern, and raise its flags. -/
def Obligations.FloatResults : Prop :=
  Rounds .fadd 0x50 (fun m x y _ => exactAdd m x y) ∧
  Rounds .fsub 0x51 (fun m x y _ => exactAdd m x (negVal y)) ∧
  Rounds .fmul 0x52 (fun _ x y _ => exactMul x y) ∧
  Rounds .ffma 0x53 (fun m x y z => exactFma m x y z) ∧
  Passes .fmin 0x54 (fun _ x y => minMaxNum false x y) ∧
  Passes .fmax 0x55 (fun _ x y => minMaxNum true x y) ∧
  Rounds .frcp 0x56 (fun _ x _ _ => exactDiv (.fin false 1 0) x) ∧
  Rounds .frsq 0x57 (fun _ x _ _ => exactRsqrt x) ∧
  Rounds .fsqrt 0x58 (fun _ x _ _ => exactSqrt x) ∧
  Rounds .fexp2 0x59 (fun _ x _ _ => exactExp2 x) ∧
  Rounds .flog2 0x5A (fun _ x _ _ => exactLog2 x) ∧
  Rounds .fsin 0x5B (fun _ x _ _ => exactSinPi x) ∧
  Rounds .fcos 0x5C (fun _ x _ _ => exactCosPi x) ∧
  Rounds .ftanh 0x5D (fun _ x _ _ => exactTanh x) ∧
  Rounds .fdiv 0x5E (fun _ x y _ => exactDiv x y) ∧
  Gives .fscale 0x5F (fun f s _ r => floats (formatWidth f)
    (fApply (formatOf f) (ctlOf 0x5F f s r.tid 0) (fun x _ _ => exactScale x (num (true, 32) r.b)) r.a r.a r.a)) ∧
  Gives .fdot2 0x60 (fun f s _ r => floats 32 (fDot2 (formatOf f) (ctlOf 0x60 f s r.tid 0) r.a r.b r.c)) ∧
  Passes .frnd 0x61 (fun m x _ => exactIntegral m x)

/-- R118, R120 to R123: the conversions write the value converted once, and raise its flags. A conversion in SR first
advances its partition's generator once for the issue group (R53). -/
def Obligations.ConversionResults : Prop :=
  (∀ f s iss, runs s iss 0x70 f = true → exec (.cvt f) s = .next (afterLanes (convStart 0x70 f (idle s) iss) iss.pc
    f.len.bytes (prepared s iss 0x70 f) (fun _ th => th) fun r =>
      floats (if typeIs64 f.b.toNat then 64 else 32)
        (fCvt f.b.toNat f.c.toNat (ctlOf 0x70 f s r.tid (laneU s iss r.lane)) r.a))) ∧
  (∀ f s iss, runs s iss 0x71 f = true → exec (.qnt f) s = .next (afterLanes (convStart 0x71 f (idle s) iss) iss.pc
    f.len.bytes (prepared s iss 0x71 f) (fun _ th => th) fun r =>
      floats 32 (fQnt f.c.toNat (f.mod.extractLsb' 4 2) (ctlOf 0x71 f s r.tid (laneU s iss r.lane)) r.a r.b))) ∧
  Gives .dqnt 0x72 (fun f _ _ r => floats 32 (fDqnt f.c.toNat (f.mod.extractLsb' 4 2) r.a r.b)) ∧
  (∀ f s iss, runs s iss 0x73 f = true → exec (.pack f) s = .next (afterLanes (convStart 0x73 f (idle s) iss) iss.pc
    f.len.bytes (prepared s iss 0x73 f) (fun _ th => th) fun r =>
      floats 32 (fPack f.c.toNat (f.mod.getLsbD 5) (ctlOf 0x73 f s r.tid (laneU s iss r.lane))
        (ctlOf 0x73 f s r.tid ((laneBits s iss r.lane).toNat / 65536)) r.dOld r.a r.b))) ∧
  Gives .unpk 0x74 (fun f _ _ r => floats 64 (fUnpk f.c.toNat (f.mod.getLsbD 5) r.a)) ∧
  (∀ f s iss, convStart 0x70 f s iss =
    if rndCode (sigOf 0x70 f) f = 6#3 then advanceGen s iss else s)


/-- R92, R131, R133, R134: no effect, moves, and the index registers. -/
def Obligations.MoveResults : Prop :=
  Gives .nop 0x00 (fun _ _ _ _ => {}) ∧
  GivesWords .mov 0x84 (fun f r => regsBy (f.mod.getLsbD 0) r.a) ∧
  GivesWords .movi 0x86 (fun f _ => regsBy (f.mod.getLsbD 0) (f.x2 ++ f.x1)) ∧
  (∀ f s iss, runs s iss 0x87 f = true →
    let base (r : Ready) : Nat :=
      (r.a.extractLsb' 0 12).toNat + if f.mod.getLsbD 0 then ((s.threads[r.tid]?).map (·.wb)).getD 0 else 0
    (∀ r ∈ readyLanes (prepared s iss 0x87 f), base r ≤ 4095) →
    completes (.xset f) 0x87 f s iss fun r =>
      { xset := some (f.d.toNat, ⟨f.mod.getLsbD 0, r.b.extractLsb' 0 10, r.a.extractLsb' 22 6, r.a.extractLsb' 12 10,
          BitVec.ofNat 12 (base r)⟩) }) ∧
  Gives .xget 0x88 (fun f s _ r =>
    { vals := pairRegs ((((s.threads[r.tid]?).bind fun th => th.xs[f.a.toNat]?).map imageOf).getD 0) }) ∧
  Gives .xadj 0x89 (fun f _ _ r =>
    { xset := (r.xs[f.d.toNat]?).map fun x => (f.d.toNat, match (f.mod.extractLsb' 0 2).toNat with
        | 0 => { x with offset := r.a.extractLsb' 0 10 }
        | 1 => { x with offset := x.offset + r.a.extractLsb' 0 10 }
        | _ => { x with stride := r.a.extractLsb' 0 6 }) })

/-! Control transfer. -/

/-- R81, R93, R98: a branch or jump to a target that is a multiple of four, in every active lane. A displacement that is no multiple of
four is ILLMOD; a jump to a target that is none takes ALIGN with it. -/
def Obligations.BranchResults : Prop :=
  (∀ f s iss, runs s iss 0x01 f = true → evenTarget (iss.pc + displacement f) = true →
    exec (.bra f) s = .next (afterLanes (idle s) iss.pc f.len.bytes (prepared s iss 0x01 f)
      (fun _ => outOfLoop (iss.pc + displacement f)) fun _ => { next := .jump (iss.pc + displacement f) })) ∧
  (∀ f s iss, runs s iss 0x02 f = true → (∀ r ∈ readyLanes (prepared s iss 0x02 f), evenTarget r.a = true) →
    exec (.jmp f) s = .next (afterLanes (idle s) iss.pc f.len.bytes (prepared s iss 0x02 f)
      (fun r => outOfLoop r.a) fun r => { next := .jump r.a })) ∧
  (∀ opc f, opc = 0x01 ∨ opc = 0x03 ∨ opc = 0x07 → evenTarget (displacement f) = false → illMod (sigOf opc f) f = true) ∧
  (∀ f s iss r, Single s iss 0x02 f r → evenTarget r.a = false →
    exec (.jmp f) s = .next (trapped (idle s) iss 0x02 f r.tid ⟨9, r.a.toNat, 0, 0⟩))

/-- R94, R95, R18, R17: a call opens a frame in every active lane whose checks pass; a return in a lane closes one and goes
to the link record's PC; a call past the reservation raises STKLIM. -/
def Obligations.CallResults : Prop :=
  (∀ f s iss, runs s iss 0x03 f = true →
    (∀ r ∈ readyLanes (prepared s iss 0x03 f), callFits s f r (iss.pc + displacement f)) →
    exec (.call f) s = .next (afterLanes (idle s) iss.pc f.len.bytes (prepared s iss 0x03 f)
      (fun _ => intoFrame (iss.pc + BitVec.ofNat 64 f.len.bytes) f.d.toNat)
      fun _ => { next := .jump (iss.pc + displacement f) })) ∧
  (∀ f s iss, runs s iss 0x04 f = true → (∀ r ∈ readyLanes (prepared s iss 0x04 f), callFits s f r r.a) →
    exec (.calli f) s = .next (afterLanes (idle s) iss.pc f.len.bytes (prepared s iss 0x04 f)
      (fun _ => intoFrame (iss.pc + BitVec.ofNat 64 f.len.bytes) f.d.toNat) fun r => { next := .jump r.a })) ∧
  (∀ f s iss r th top fr rest, Single s iss 0x05 f r → s.threads[r.tid]? = some th → th.frames = top :: fr :: rest →
    th.resident < th.frames.length - 1 →
    exec (.ret f) s = .next (leaves
      { idle s with seed := s.seed + 1, threads := s.threads.modify r.tid (outOfFrame s.seed (windowOf s r.tid) fr rest) }
      iss f r { next := .jump fr.ret })) ∧
  (∀ f s iss r th, Single s iss 0x03 f r → s.threads[r.tid]? = some th → evenTarget (iss.pc + displacement f) = true →
    th.wb + f.d.toNat + windowOf s r.tid - 1 ≤ 4095 → depthOf th < 4095 →
    resvOf s r.tid < windowOf s r.tid + f.d.toNat →
    exec (.call f) s = .next (trapped (idle s) iss 0x03 f r.tid ⟨8, depthOf th, 0, windowOf s r.tid + f.d.toNat⟩))

/-- R31, R96 to R99: a thread ends: its loads are abandoned, its monitors are gone, and its core keeps its ptime; `RET` at call
depth 0 acts as `EXIT`. A `LOOP` with a count of zero goes past the body; any other enters the body with a buffer of its
partition, or waits for one. -/
def Obligations.ExitLoopResults : Prop :=
  (
  ∀ f s iss r th, s.threads[r.tid]? = some th → unattached s r.tid →
    (Single s iss 0x06 f r → ∃ t, exec (.exit f) s = .next t ∧ Ended s r th t) ∧
    (Single s iss 0x05 f r → th.frames.length = 1 → ∃ t, exec (.ret f) s = .next t ∧ Ended s r th t)) ∧ (
  (∀ f s iss r, Single s iss 0x07 f r → r.a.setWidth 32 = 0#32 →
    exec (.loop f) s = .next (leaves (idle s) iss f r { next := .jump (iss.pc + displacement f) })) ∧
  (∀ f s iss r g m s1 v, Single s iss 0x07 f r → r.a.setWidth 32 ≠ 0#32 → groupOf s r.tid = some g → teamOf s r.tid = some m →
    enterLoop (idle s) m.die m.site g.part m.grid (ctxOf s r.tid) (iss.pc + BitVec.ofNat 64 f.len.bytes)
      (iss.pc + displacement f) = some (s1, v) →
    exec (.loop f) s = .next (leaves
      { takeGrant s1 m.die m.site r.tid with
        threads := s.threads.modify r.tid (inLoop ⟨iss.pc + BitVec.ofNat 64 f.len.bytes, iss.pc + displacement f,
          r.a.setWidth 32, v⟩) }
      iss f r { next := .jump (iss.pc + BitVec.ofNat 64 f.len.bytes) })) ∧
  (∀ f s iss r g m, Single s iss 0x07 f r → r.a.setWidth 32 ≠ 0#32 → groupOf s r.tid = some g → teamOf s r.tid = some m →
    enterLoop (idle s) m.die m.site g.part m.grid (ctxOf s r.tid) (iss.pc + BitVec.ofNat 64 f.len.bytes)
      (iss.pc + displacement f) = none →
    exec (.loop f) s = .next (waitsAt (idle s) r.tid
      (.loopBuffer (iss.pc + BitVec.ofNat 64 f.len.bytes) (iss.pc + displacement f)))))

/-- R135: `RCPY` reads 1 to 32 registers from its source's position and writes them from its destination's; another count
raises ILLOPND with it, and a direct range past the window ILLOPND. -/
def Obligations.RangeCopyResults : Prop :=
  (∀ f s iss r th, Single s iss 0x8A f r → s.threads[r.tid]? = some th →
    exec (.rcpy f) s = .next (leaves (idle s) iss f r { vals := r.vals }) ∧
    1 ≤ countOf r.b ∧ countOf r.b ≤ 32 ∧ r.vals.length = countOf r.b ∧
    ∃ a xs ys, rangeAt th (windowOf s r.tid) f.a (countOf r.b) 0 th.xs = .ok (a, xs) ∧
      rangeAt th (windowOf s r.tid) f.d (countOf r.b) 3 ys = .ok (r.d, r.xs) ∧
      (laneSource (sigOf 0x8A f) f 0 = 0#2 → r.vals = (List.range (countOf r.b)).map fun i => readLoc s r.tid a i)) ∧
  (∀ f s iss lane t th b xs, s.cur = some iss → iss.lanes = [(lane, t)] → groupTrap s iss 0x8A (sigOf 0x8A f) f = none →
    s.threads[t]? = some th → guardHolds th f = true → usesPending (idle s) t th (sigOf 0x8A f) f = none →
    resolveField (idle s) t th (windowOf s t) .count f.b (afterRange th (windowOf s t) f.a) = some (b, xs) →
    let n := countOf (srcValue s t f .count b)
    n < 1 ∨ 32 < n → exec (.rcpy f) s = .next (trapped (idle s) iss 0x8A f t ⟨2, n, 0, 0⟩)) ∧
  (∀ th w x n at_ xs, th.routine ≠ .save → th.routine ≠ .restore → x.toNat < 0x300 →
    rangeAt th w x n at_ xs = if x.toNat + n ≤ w then .ok (.vec (th.wb + x.toNat), xs) else .error ⟨2, 0, 0, 0⟩)

/-! Memory accesses as they are issued. -/

/-- R140, R143, R144, R145, R30: a load that its checks let pass is outstanding, its destination pending and ld raised; one
whose checks find a trap takes it; with ld at 63 it waits. -/
def Obligations.LoadIssue : Prop :=
  (∀ (mk : Form → Instr) (opc : BitVec 8), (mk = .ld ∧ opc = 0x90 ∨ mk = .ldk ∧ opc = 0x92) →
    ∀ f s iss r,
      let n := accessBytes (f.mod.extractLsb' 0 3)
      let ea := byteAddress r.a r.b (if f.mod.getLsbD 5 then n else 1)
      let kind := extFresh (extWord (sigOf opc f) f)
      Single s iss opc f r →
      (∀ p x ks, unfull s r.tid .ld → locate (idle s) r.tid (f.mod.extractLsb' 3 2).toNat ea n n needR [] = .ok p x ks →
        let l : Access := { issued s r.tid (.load (decide (kind = 2)) (decide (kind = 1)) (f.mod.getLsbD 0)) p n ea x ks with
          writeBack := decide (f.mod.extractLsb' 3 2 = 3)
          dest := destOf s r.tid r.d ((n + 3) / 4) r.span
          ctr := .ld }
        (kind ≠ 1 → exec (mk f) s = .next (leaves (withAccess (idle s) l) iss f r {})) ∧
        (kind = 1 →
          exec (mk f) s = .next (leaves (withAccess (withCopies (idle s) l).1 (withCopies (idle s) l).2) iss f r {}))) ∧
      (∀ i, unfull s r.tid .ld → locate (idle s) r.tid (f.mod.extractLsb' 3 2).toNat ea n n needR [] = .trap i →
        exec (mk f) s = .next (trapped (idle s) iss opc f r.tid i)) ∧
      (full s r.tid .ld → exec (mk f) s = .next (waitsAt (idle s) r.tid (.counterFull .ld)))) ∧
  (∀ f s iss, runs s iss 0x96 f = true → completes (.prf f) 0x96 f s iss fun _ => {})

/-- R140, R144, R145: a store of a lane that writes no sector whole is outstanding with its bytes, and st raised; one whose
checks find a trap takes it. -/
def Obligations.StoreIssue : Prop :=
  ∀ (mk : Form → Instr) (opc : BitVec 8), (mk = .st ∧ opc = 0x91 ∨ mk = .stk ∧ opc = 0x93) →
    ∀ f s iss r,
      let n := accessBytes (f.mod.extractLsb' 0 3)
      let ea := byteAddress r.a r.b (if f.mod.getLsbD 5 then n else 1)
      Single s iss opc f r → unfull s r.tid .st → lanesWhole f s [(r.tid, .ready r)] = [] →
      (∀ p x ks, locate (idle s) r.tid (f.mod.extractLsb' 3 2).toNat ea n n needW [] = .ok p x ks →
        exec (mk f) s = .next (leaves (withAccess (idle s)
          { issued s r.tid .store p n ea x ks with
            bytes := bytesOf n (r.c.toNat + 2 ^ 64 * r.cHi.toNat)
            writeBack := decide (f.mod.extractLsb' 3 2 = 3)
            ctr := .st }) iss f r {})) ∧
      (∀ i, locate (idle s) r.tid (f.mod.extractLsb' 3 2).toNat ea n n needW [] = .trap i →
        exec (mk f) s = .next (trapped (idle s) iss opc f r.tid i))

/-- R149: `LDT` outside the tensor returns FILL, and `STT` writes nothing there; inside it they access the element, of two
registers where it has 64 bits. -/
def Obligations.ElementIssue : Prop :=
  (∀ f s iss r x,
    let n := if elemBits x = 64 then 2 else 1
    Alone s iss 0x94 (fun _ => ldtSig s f (curCtx s)) f r → unfull s r.tid .ld →
    (n = 2 → oddPair (idle s) r.tid f.d = false) → elementOf f (idle s) r = .outside x →
    exec (.ldt f) s = .next (leaves (withAccess (idle s)
      { issued s r.tid (.load false false false) .nothing (4 * n) 0 noXlat [] with
        bytes := bytesOf (4 * n) x.fill.toNat, dest := destOf s r.tid r.d n r.span, ctr := .ld }) iss f r {})) ∧
  (∀ f s iss r x ea p xl ks,
    let n := if elemBits x = 64 then 2 else 1
    Alone s iss 0x94 (fun _ => ldtSig s f (curCtx s)) f r → unfull s r.tid .ld →
    (n = 2 → oddPair (idle s) r.tid f.d = false) → elementOf f (idle s) r = .inside x ea →
    locate (idle s) r.tid 0 ea (elemBits x / 8) (elemBits x / 8) needR [] = .ok p xl ks →
    exec (.ldt f) s = .next (leaves (withAccess (idle s)
      { issued s r.tid (.load false false (decide (x.fmt = 0x10 ∨ x.fmt = 0x11))) p (elemBits x / 8) ea xl ks with
        dest := destOf s r.tid r.d n r.span, ctr := .ld }) iss f r {})) ∧
  (∀ f s iss r x, Alone s iss 0x95 (fun _ => sttSig s f (curCtx s)) f r → unfull s r.tid .st →
    (elemBits x = 64 → oddPair (idle s) r.tid f.b = false) → elementOf f (idle s) r = .outside x →
    exec (.stt f) s = .next (leaves (withAccess (idle s)
      { issued s r.tid .store .nothing 0 0 noXlat [] with ctr := .st }) iss f r {})) ∧
  (∀ f s iss r x ea p xl ks, Alone s iss 0x95 (fun _ => sttSig s f (curCtx s)) f r → unfull s r.tid .st →
    (elemBits x = 64 → oddPair (idle s) r.tid f.b = false) →
    elementOf f (idle s) r = .inside x ea → elementsWhole f s [(r.tid, .ready r)] = [] →
    locate (idle s) r.tid 0 ea (elemBits x / 8) (elemBits x / 8) needW [] = .ok p xl ks →
    exec (.stt f) s = .next (leaves (withAccess (idle s)
      { issued s r.tid .store p (elemBits x / 8) ea xl ks with bytes := bytesOf (elemBits x / 8) r.b.toNat, ctr := .st })
      iss f r {}))

/-- R160 to R162: an atomic that its checks let pass is outstanding, and its counter raised. -/
def Obligations.AtomicIssue : Prop :=
  (∀ f s iss r p x ks,
    let n := widthOf (f.mod.extractLsb' 0 3) / 8
    let ea := byteAddress r.a r.b n
    Single s iss 0xB0 f r → unfull s r.tid .ld →
    atomLocate (idle s) r.tid ea n needRW = .ok p x ks →
    exec (.atom f) s = .next (leaves (withAccess (idle s)
      { issued s r.tid (.atom (f.mod.extractLsb' 3 3) (f.mod.extractLsb' 0 3)) p n ea x ks with
        cmp := r.c, dest := destOf s r.tid r.d (n / 4) r.span, ctr := .ld }) iss f r {})) ∧
  (∀ f s iss r p x ks,
    let n := if f.mod.getLsbD 0 then 8 else 4
    Single s iss 0xB1 f r → unfull s r.tid .ld → atomLocate (idle s) r.tid r.a.toNat n needRW = .ok p x ks →
    exec (.acas f) s = .next (leaves (withAccess (idle s)
      { issued s r.tid (.acas n) p n r.a.toNat x ks with
        cmp := r.b, bytes := bytesOf n r.c.toNat, dest := destOf s r.tid r.d (n / 4) r.span, ctr := .ld }) iss f r {})) ∧
  (∀ f s iss r p x ks,
    let n := widthOf (f.mod.extractLsb' 0 3) / 8
    let ea := byteAddress r.a r.b n
    Single s iss 0xB2 f r → unfull s r.tid .st →
    atomLocate (idle s) r.tid ea n needW = .ok p x ks →
    redUnderWay s (placeAddr p / 64) = none →
    exec (.red f) s = .next (leaves (withAccess (idle s)
      { issued s r.tid (.red (tagOf (f.mod.extractLsb' 3 3) (f.mod.extractLsb' 0 3))
          (laneSteps (f.mod.extractLsb' 0 3) (placeAddr p % 64 / n) r.c) false)
        (.phys [(placeAddr p / 64 * 64, 64)]) 64 ea x ks with ctr := .st }) iss f r {}))

/-- R151 to R154: a copy of no bytes has no effect; a misaligned one raises ALIGN; one that its checks let pass is
outstanding to be recorded, or starts as an eager copy. -/
def Obligations.CopyIssue : Prop :=
  ∀ (mk : Form → Instr) (opc : BitVec 8), (mk = .cpy ∧ opc = 0x98 ∨ mk = .cpyt ∧ opc = 0x99 ∨ mk = .cpye ∧ opc = 0x9A) →
    ∀ f s iss r,
      let xf := if opc = 0x98 then 0 else f.d.toNat
      let dst := r.a.toNat
      let src := r.b.toNat
      let n := countOf r.c
      let c := ctxOf s r.tid
      let dx := rangeXlats (idle s) c dst n
      let sx := rangeXlats (idle s) c src (copySrcLen (idle s) xf n)
      let ds := dx.map fun p => (p.2.pa, p.1)
      let ss := sx.map fun p => (p.2.pa, p.1, lbcData p.2)
      let keys := (dx ++ sx).map fun p => p.2.key
      let s1 := cacheRange (cacheRange (idle s) c dst n) c src (copySrcLen (idle s) xf n)
      Single s iss opc f r →
      (n = 0 → exec (mk f) s = .next (leaves (idle s) iss f r {})) ∧
      (∀ i, n ≠ 0 → unfull s r.tid .cp → xf < 32 → copyAlign xf dst src n = some i →
        exec (mk f) s = .next (trapped (idle s) iss opc f r.tid i)) ∧
      (∀ ps x ks, n ≠ 0 → unfull s r.tid .cp → (32 ≤ xf → (lookupNat s.routines xf).isSome) → copyAlign xf dst src n = none →
        lbcAlign (idle s) c xf dst src n = none → copyChecks (idle s) r.tid xf dst src n = .ok ps x ks →
        ownCopyMeets (idle s) r.tid ps = false → ownCopyMeets (idle s) r.tid (ds ++ ss.map fun p => (p.1, p.2.1)) = false →
        (copyEager opc xf ds (ss.map fun p => (p.1, p.2.1)) keys = false →
          exec (mk f) s = .next (leaves (withAccess s1
            { issued s r.tid (.copy xf ds.length n (ss.map (·.2.2)) (dx.map (·.2.point)))
                (.phys (ds ++ ss.map fun p => (p.1, p.2.1))) n dst ((dx.map (·.2)).headD noXlat)
                (pieceKeys (rangePieces (idle s) c dst n)) with ctr := .cp }) iss f r {})) ∧
        (copyEager opc xf ds (ss.map fun p => (p.1, p.2.1)) keys = true →
          exec (mk f) s = .next (leaves
            (startOp { s1 with threads := s.threads.modify r.tid (counted .cp) }
              (eagerOp s1 r.tid xf n dst ds ss (pieceKeys (rangePieces (idle s) c dst n)))) iss f r {})))

/-- R155, R156, R158: `MATZ`, `ALQ`, `CFLUSH` and `CINV` of a range that their checks let pass are outstanding. -/
def Obligations.RangeIssue : Prop :=
  (∀ f s iss r ps x ks, Single s iss 0x9B f r → unfull s r.tid .cp → r.a.toNat % 16 = 0 → countOf r.c % 16 = 0 →
    rangeLimit r.a.toNat (countOf r.c) = none →
    phyCheck r.a.toNat (checkWrite (idle s) r.tid r.a.toNat (countOf r.c) false) = .ok ps x ks →
    ownCopyMeets (idle s) r.tid ps = false →
    exec (.matz f) s = .next (leaves (withAccess (idle s)
      { issued s r.tid .matz (.phys ps) (countOf r.c) r.a.toNat x ks with ctr := .cp }) iss f r {})) ∧
  (∀ f s iss r ps x ks,
    let lo := r.a.toNat / 16 * 16
    let m := if countOf r.c = 0 then 0 else (r.a.toNat + countOf r.c + 15) / 16 * 16 - lo
    Single s iss 0x9C f r → unfull s r.tid .ld → rangeLimit r.a.toNat (countOf r.c) = none →
    phyCheck r.a.toNat (checkPages (idle s) r.tid lo m needNone false) = .ok ps x ks →
    exec (.alq f) s = .next (leaves (withAccess (idle s)
      { issued s r.tid .alq (.phys ps) m r.a.toNat x ks with dest := destOf s r.tid r.d 1 r.span, ctr := .ld }) iss f r {})) ∧
  (∀ (mk : Form → Instr) (opc : BitVec 8) (need : Need) (discard : Bool),
    (mk = .cflush ∧ opc = 0xA0 ∧ need = needNone ∧ discard = false ∨ mk = .cinv ∧ opc = 0xA1 ∧ need = needW ∧ discard = true) →
    ∀ f s iss r ps x ks, Single s iss opc f r → unfull s r.tid .st → r.a.toNat % 256 = 0 → countOf r.c % 256 = 0 →
      rangeLimit r.a.toNat (countOf r.c) = none →
      phyCheck r.a.toNat (checkPages (idle s) r.tid r.a.toNat (countOf r.c) need true) = .ok ps x ks →
      ownCopyMeets (idle s) r.tid ps = false →
      exec (mk f) s = .next (leaves (withAccess (idle s)
        { issued s r.tid (.flush (f.mod.getLsbD 0) (f.mod.getLsbD 1) discard) (.phys ps) (countOf r.c) r.a.toNat x ks with
          ctr := .st }) iss f r {})) ∧
  (∀ (mk : Form → Instr) (opc : BitVec 8), (mk = .cflush ∧ opc = 0xA0 ∨ mk = .cinv ∧ opc = 0xA1) →
    ∀ f s iss r, Single s iss opc f r → unfull s r.tid .st →
      (r.a.toNat % 256 ≠ 0 → exec (mk f) s = .next (trapped (idle s) iss opc f r.tid ⟨9, r.a.toNat, 0, 0⟩)) ∧
      (r.a.toNat % 256 = 0 → countOf r.c % 256 ≠ 0 →
        exec (mk f) s = .next (trapped (idle s) iss opc f r.tid ⟨9, countOf r.c, 2, 0⟩)))

/-- R140, R157: pinned windows. `PIN` adds the window and returns 0, or returns the code of the first rule that it breaks; what
it returns comes through ld. It waits with ld at 63. `UNPIN` drops the window at an address; `TOUCH` renews the one that holds
an address. The order of the checks of `PIN` is the model's choice (log 31). -/
def Obligations.WindowResults : Prop :=
  (∀ f s iss r c cx,
    let a := r.a.toNat
    let n := countOf r.c
    let total (l : List PinWindow) : Nat := (l.map (·.len)).sum
    let gives (t : State) (v : Nat) : State := leaves (withAccess t
      { issued s r.tid (.load false false false) .nothing 4 0 noXlat [] with
        bytes := bytesOf 4 v, dest := destOf s r.tid r.d 1 r.span, ctr := .ld }) iss f r {}
    Single s iss 0x9D f r → unfull s r.tid .ld → ctxOf s r.tid = c → s.contexts[c]? = some cx → a % 65536 = 0 → n % 65536 = 0 → n ≠ 0 →
    a < 2 ^ 57 → a + n ≤ 2 ^ 57 → (∀ w ∈ cx.windows, ¬ (w.va = a ∧ w.len = n)) →
    (16 ≤ cx.windows.length → exec (.pin f) s = .next (gives (idle s) 1)) ∧
    (cx.windows.length < 16 → 256 * 2 ^ 20 < total cx.windows + n →
      exec (.pin f) s = .next (gives (idle s) 2)) ∧
    (cx.windows.length < 16 → total cx.windows + n ≤ 256 * 2 ^ 20 →
      512 * 2 ^ 20 < ((s.contexts.filter (·.live)).map fun k => total k.windows).sum + n →
      exec (.pin f) s = .next (gives (idle s) 3)) ∧
    (cx.windows.length < 16 → total cx.windows + n ≤ 256 * 2 ^ 20 →
      ((s.contexts.filter (·.live)).map fun k => total k.windows).sum + n ≤ 512 * 2 ^ 20 →
      ((∃ w ∈ cx.windows, w.va < a + n ∧ a < w.va + w.len) →
        exec (.pin f) s = .next (gives (idle s) 4)) ∧
      ((∀ w ∈ cx.windows, ¬ (w.va < a + n ∧ a < w.va + w.len)) → ∃ pages,
        exec (.pin f) s = .next (gives { idle s with
          contexts := s.contexts.modify c fun k => { k with windows := k.windows ++ [⟨a, n, pages, 255, false⟩] } } 0)))) ∧
  (∀ f s iss r c cx,
    let a := r.a.toNat
    let n := countOf r.c
    Single s iss 0x9D f r → unfull s r.tid .ld → ctxOf s r.tid = c → s.contexts[c]? = some cx → a % 65536 = 0 → n % 65536 = 0 →
    n ≠ 0 → a < 2 ^ 57 → a + n ≤ 2 ^ 57 → (∃ w ∈ cx.windows, w.va = a ∧ w.len = n) →
    exec (.pin f) s = .next (leaves (withAccess { idle s with
        contexts := s.contexts.modify c fun k => { k with windows := k.windows.map fun w => if w.va = a then { w with fade := 255 } else w } }
      { issued s r.tid (.load false false false) .nothing 4 0 noXlat [] with
        bytes := bytesOf 4 0, dest := destOf s r.tid r.d 1 r.span, ctr := .ld }) iss f r {})) ∧
  (∀ f s iss r, Single s iss 0x9D f r →
    (full s r.tid .ld → exec (.pin f) s = .next (waitsAt (idle s) r.tid (.counterFull .ld))) ∧
    (unfull s r.tid .ld → r.a.toNat % 65536 ≠ 0 → exec (.pin f) s = .next (trapped (idle s) iss 0x9D f r.tid ⟨9, r.a.toNat, 0, 0⟩)) ∧
    (unfull s r.tid .ld → r.a.toNat % 65536 = 0 → countOf r.c % 65536 ≠ 0 ∨ countOf r.c = 0 →
      exec (.pin f) s = .next (trapped (idle s) iss 0x9D f r.tid ⟨9, countOf r.c, 2, 0⟩))) ∧
  (∀ f s iss r, Single s iss 0x9E f r →
    exec (.unpin f) s = .next (leaves { idle s with
      contexts := s.contexts.modify (ctxOf s r.tid) fun k => { k with windows := k.windows.filter fun w => w.va ≠ r.a.toNat } }
      iss f r {})) ∧
  (∀ f s iss r, Single s iss 0x9F f r →
    exec (.touch f) s = .next (leaves { idle s with
      contexts := s.contexts.modify (ctxOf s r.tid) fun k => { k with windows := k.windows.map fun w =>
        if w.va ≤ r.a.toNat ∧ r.a.toNat < w.va + w.len then { w with fade := 255 } else w } } iss f r {}))

/-- R167, R168: `ATOMQ` to a reachable node reserves an entry and sends its command; one to another fills the entry with
status 1 and an undefined old value at once; `CQPOP` takes the oldest entry, or gives status 0xFF of an empty queue, or waits;
its four registers come through ld. Each waits with its counter at 63. -/
def Obligations.QueueResults : Prop :=
  (∀ f s iss r,
    let m := teamIdOf s r.tid
    let ty := f.mod.extractLsb' 0 3
    let op := f.mod.extractLsb' 3 3
    let n := widthOf ty / 8
    let o : LodeOp := { lodeOp s r.tid 3 [] 0 none with
      node := countOf r.b, remote := r.a, fval := r.c, len := n, aop := op.toNat, aty := ty.toNat, queue := f.d.toNat
      wide := decide (n = 8) }
    let s1 : State := { idle s with
      nextId := s.nextId + 1
      lodes := s.lodes ++ [o]
      teams := s.teams.modify m fun t => { t with queues := t.queues.modify f.d.toNat fun q =>
        { q with reserved := q.reserved + 1 } }
      threads := s.threads.modify r.tid (counted .st) }
    Single s iss 0xB3 f r → unfull s r.tid .st →
    (256 ≤ (queueAt s m f.d.toNat).entries.length + (queueAt s m f.d.toNat).reserved →
      exec (.atomq f) s = .next (waitsAt (idle s) r.tid (.cqRoom f.d.toNat))) ∧
    ((queueAt s m f.d.toNat).entries.length + (queueAt s m f.d.toNat).reserved < 256 → reachable s1 (countOf r.b) = true →
      exec (.atomq f) s = .next (leaves { s1 with
        out := s.out ++ [.atomq o.id o.node (ctxidOf s1 r.tid) r.a op.toNat ty.toNat r.c] } iss f r {})) ∧
    ((queueAt s m f.d.toNat).entries.length + (queueAt s m f.d.toNat).reserved < 256 → reachable s1 (countOf r.b) = false →
      ∃ old, exec (.atomq f) s = .next (leaves (atomqFinish { s1 with seed := s.seed + 1 } o 1 old) iss f r {}))) ∧
  (∀ f s iss r e rest,
    let m := teamIdOf s r.tid
    Single s iss 0xB4 f r → unfull s r.tid .ld → (queueAt s m f.a.toNat).entries = e :: rest →
    exec (.cqpop f) s = .next (leaves (withAccess { idle s with
      teams := s.teams.modify m fun t => { t with queues := t.queues.modify f.a.toNat fun q => { q with entries := rest } } }
      { issued s r.tid (.load false false false) .nothing 16 0 noXlat [] with
        bytes := bytesOf 8 e.old.toNat ++ bytesOf 4 (e.status * 65536 + e.tid % 65536) ++ bytesOf 4 e.addr.toNat
        dest := destOf s r.tid r.d 4 r.span, ctr := .ld }) iss f r {})) ∧
  (∀ f s iss r, Single s iss 0xB4 f r → unfull s r.tid .ld → (queueAt s (teamIdOf s r.tid) f.a.toNat).entries = [] →
    (f.mod.getLsbD 0 = true → exec (.cqpop f) s = .next (waitsAt (idle s) r.tid (.cqEntry f.a.toNat))) ∧
    (f.mod.getLsbD 0 = false → ∃ old : DWord, exec (.cqpop f) s = .next (leaves (withAccess { idle s with seed := s.seed + 1 }
      { issued s r.tid (.load false false false) .nothing 16 0 noXlat [] with
        bytes := bytesOf 8 old.toNat ++ bytesOf 4 0xFF0000 ++ bytesOf 4 0
        dest := destOf s r.tid r.d 4 r.span, ctr := .ld }) iss f r {}))) ∧
  (∀ f s iss r, (Single s iss 0xB4 f r → full s r.tid .ld → exec (.cqpop f) s = .next (waitsAt (idle s) r.tid (.counterFull .ld))) ∧
    (Single s iss 0xB3 f r → full s r.tid .st → exec (.atomq f) s = .next (waitsAt (idle s) r.tid (.counterFull .st))))

/-- R164: `WAITC` whose condition holds gives the value that one read event gives; else its thread waits with a monitor of
the slice, or reads again 256 clk later where none is free or the page is MS. -/
def Obligations.ConditionResults : Prop :=
  ∀ f s iss r p x ks th,
    let n := widthOf (f.mod.extractLsb' 0 3) / 8
    let pa := placeAddr p
    let sec := pa / 64
    let h := readBytesNow (cacheRange (idle s) (ctxOf s r.tid) (byteAddress r.a r.b n) n) pa n (some (ctxOf s r.tid)) th.ptime
    let v : DWord := BitVec.ofNat 64 (bitsOfBytes h.2.1)
    let s1 := raisePtime h.1 r.tid h.2.2
    let k := kindOf (f.mod.extractLsb' 0 3)
    Single s iss 0xB5 f r → s.threads[r.tid]? = some th → hasAccess s r.tid = false →
    atomLocate (idle s) r.tid (byteAddress r.a r.b n) n needRW = .ok p x ks → (s1.threads[r.tid]?).isSome = true →
    (compares (f.mod.extractLsb' 3 3) (num k v) (num k r.c) = true →
      exec (.waitc f) s = .next (leaves { s1 with teams := s1.teams.modify (teamIdOf s1 r.tid) fun t =>
        { t with waitcSince := none } } iss f r { vals := valueWords (8 * n) v })) ∧
    (compares (f.mod.extractLsb' 3 3) (num k v) (num k r.c) = false → ∃ t, exec (.waitc f) s = .next t ∧
      (if x.ms ∨ 1024 ≤ sliceMonitors s1 sec then
        t.threads = (waitsAt s1 r.tid (.poll (s1.clk + 256))).threads ∧ t.dies = s1.dies
      else
        t.threads = (waitsAt s1 r.tid (.monitor sec)).threads ∧
        t.dies = s1.dies.modify (homeDie (sec * 64)) fun d => { d with
          monitors := d.monitors ++ [⟨sec, r.tid, f.mod.extractLsb' 3 3, f.mod.extractLsb' 0 3, r.c, pa % 64⟩] }) ∧
      t.mem = s1.mem ∧ t.homes = s1.homes ∧ t.accs = s1.accs)

/-- R165, R166: an operation over Lode reads its descriptor, takes XOPERR at the first field that breaks a rule, and starts: a
node that no port reaches is status 1 at once, else the request leaves and cp has risen. That local bytes are read at issue
is the model's choice (log 15), as is that no peer is reached before SET_NODE (log 18). -/
def Obligations.RemoteResults : Prop :=
  ∀ (mk : Form → Instr) (opc : BitVec 8) (kind : Nat),
    (mk = .putr ∧ opc = 0xB7 ∧ kind = 0 ∨ mk = .getr ∧ opc = 0xB8 ∧ kind = 1 ∨ mk = .wsig ∧ opc = 0xB6 ∧ kind = 2) →
    ∀ f s iss r s1 bs at_, Single s iss opc f r → unfull s r.tid .cp → (s1.threads[r.tid]?).isSome = true →
      readAtIssue (idle s) r.tid (if f.mod.getLsbD 0 then 1 else 0) r.a.toNat 64 64 = .ok s1 bs at_ →
      (∀ off, lodeBad kind bs = some off → exec (mk f) s = .next (trapped (idle s) iss opc f r.tid ⟨23, 0, off, 0⟩)) ∧
      (∀ ps x ks, lodeBad kind bs = none →
        let o := lodeOp s1 r.tid kind bs r.a.toNat at_
        lodeLocal s1 r.tid kind o.local_.toNat o.len = .ok ps x ks →
        let s2 := { cacheRange s1 o.ctx o.local_.toNat o.len with
          nextId := s1.nextId + 1, threads := s1.threads.modify r.tid (counted .cp) }
        let ctxid := ((s1.contexts[ctxOf s1 r.tid]?).map (·.ctxid)).getD 0
        (reachable s2 o.node = false → ((lodeFinish s2 o 1).threads[r.tid]?).isSome = true →
          exec (mk f) s = .next (leaves (lodeFinish s2 o 1) iss f r {})) ∧
        (reachable s2 o.node = true → kind = 0 →
          exec (mk f) s = .next (leaves { s2 with
            lodes := s1.lodes ++ [o]
            out := s1.out ++ [.put o.id o.node ctxid o.remote (virtLoad s2 o.ctx o.local_.toNat o.len)] } iss f r {})) ∧
        (reachable s2 o.node = true → kind = 2 →
          exec (mk f) s = .next (leaves { s2 with
            lodes := s1.lodes ++ [o]
            out := s1.out ++ [.signal o.id o.node ctxid o.remote (virtLoad s2 o.ctx o.local_.toNat o.len) o.flag o.fval
              o.flagop] } iss f r {})) ∧
        (reachable s2 o.node = true → kind = 1 →
          let e := landingOp s2 o ps ks
          let s3 := startOp { s2 with lodes := s1.lodes ++ [{ o with engine := some e.id }] } e
          exec (mk f) s = .next (leaves (if s3.engines.any fun y => y.id = e.id && y.locked then sendGet s3 e else s3) iss f r {})))

/-! Barriers, fences and counters. -/

/-- R169 to R171: a thread that arrives joins its team's or cluster's episode and waits; at another PC or with another number it
takes BARDIV with both. That an arrival is held until the thread's own accesses have been performed is the model's reading
(log 34). -/
def Obligations.BarrierResults : Prop :=
  (∀ f s iss r m tm, Single s iss 0xC0 f r → hasAccess s r.tid = false → teamIdOf s r.tid = m → s.teams[m]? = some tm →
    teamOf s r.tid = some tm →
    (tm.episode = none → (∀ k, s.clusters[tm.cluster]? = some k → k.episode = none) →
      exec (.bar f) s = .next (settleBarriers
        { waitsAt (idle s) r.tid (.barrier false) with
          teams := s.teams.modify m fun t => { t with episode := some ⟨iss.pc, f.len.bytes, f.a.toNat, [r.tid]⟩ } } m)) ∧
    (∀ e, tm.episode = some e → e.pc = iss.pc → e.num = f.a.toNat →
      exec (.bar f) s = .next (settleBarriers
        { waitsAt (idle s) r.tid (.barrier false) with
          teams := s.teams.modify m fun t => { t with episode := some { e with waiting := e.waiting ++ [r.tid] } } } m)) ∧
    (∀ e, tm.episode = some e → ¬ (e.pc = iss.pc ∧ e.num = f.a.toNat) →
      exec (.bar f) s = .next (trapped (idle s) iss 0xC0 f r.tid ⟨11, iss.pc.toNat, e.pc.toNat,
        (laneMask s (mates s r.tid e.waiting)).toNat + 2 ^ 32 * e.num + 2 ^ 36 * f.a.toNat⟩))) ∧
  (∀ f s iss r m tm k, Single s iss 0xC1 f r → hasAccess s r.tid = false → teamIdOf s r.tid = m →
    teamOf s r.tid = some tm → s.clusters[tm.cluster]? = some k →
    (k.episode = none → (∀ u ∈ k.teams, ∀ t, s.teams[u]? = some t → t.episode = none) → tm.episode = none →
      exec (.cbar f) s = .next (settleBarriers
        { waitsAt (idle s) r.tid (.barrier true) with
          clusters := s.clusters.modify tm.cluster fun c =>
            { c with episode := some ⟨iss.pc, f.len.bytes, f.a.toNat, [r.tid]⟩ } } m)) ∧
    (∀ e, k.episode = some e → e.pc = iss.pc → e.num = f.a.toNat →
      exec (.cbar f) s = .next (settleBarriers
        { waitsAt (idle s) r.tid (.barrier true) with
          clusters := s.clusters.modify tm.cluster fun c =>
            { c with episode := some { e with waiting := e.waiting ++ [r.tid] } } } m)) ∧
    (∀ e, k.episode = some e → ¬ (e.pc = iss.pc ∧ e.num = f.a.toNat) →
      exec (.cbar f) s = .next (trapped (idle s) iss 0xC1 f r.tid ⟨11, iss.pc.toNat, e.pc.toNat,
        (laneMask s (mates s r.tid e.waiting)).toNat + 2 ^ 32 * e.num + 2 ^ 36 * f.a.toNat⟩))) ∧
  (∀ s m tm e, s.teams[m]? = some tm → tm.episode = some e → (∀ k, s.clusters[tm.cluster]? = some k → k.episode = none) →
    (∀ t ∈ teamThreads s m, e.waiting.contains t = true ∨
      (threadExited s t = true ∧ ∀ a ∈ s.accs, ¬ t ∈ a.owners)) → e.waiting.Nodup →
    ∀ t ∈ e.waiting, ∀ th, s.threads[t]? = some th → ∃ th', (settleBarriers s m).threads[t]? = some th' ∧
      th'.wait = .ready ∧ th'.regs = th.regs ∧ th'.preds = th.preds ∧ th.ptime ≤ th'.ptime ∧
      ∀ u ∈ teamThreads s m, ∀ tu, s.threads[u]? = some tu → tu.ptime ≤ th'.ptime) ∧
  (∀ s m tm e t, s.teams[m]? = some tm → tm.episode = some e → (∀ k, s.clusters[tm.cluster]? = some k → k.episode = none) →
    t ∈ teamThreads s m → threadExited s t = false → e.waiting.contains t = false → settleBarriers s m = s)

/-- R172, R173: `ABINIT` and `ABARV` of an object that their checks let pass are outstanding; `ABWAIT` goes on where the
generation has passed and waits for the object otherwise. -/
def Obligations.ArrivalIssue : Prop :=
  (∀ f s iss r p x ks, Single s iss 0xC2 f r → unfull s r.tid .st → ¬ (countOf r.b = 0 ∧ countOf r.c = 0) →
    countOf r.b ≤ 32767 → countOf r.c < 2 ^ 31 →
    locate (idle s) r.tid (if f.mod.getLsbD 0 then 2 else 1) r.a.toNat 16 16 needW [] = .ok p x ks →
    exec (.abinit f) s = .next (leaves (withAccess (idle s)
      { issued s r.tid (.abinit (countOf r.b) (countOf r.c)) p 16 r.a.toNat x ks with ctr := .st }) iss f r {})) ∧
  (∀ f s iss r p x ks, Single s iss 0xC3 f r → unfull s r.tid .ld →
    locate (idle s) r.tid (if f.mod.getLsbD 0 then 2 else 1) r.a.toNat 16 16 needRW [] = .ok p x ks →
    exec (.abarv f) s = .next (leaves (withAccess (idle s)
      { issued s r.tid (.abarv (countOf r.b)) p 16 r.a.toNat x ks with dest := destOf s r.tid r.d 1 r.span, ctr := .ld })
      iss f r {})) ∧
  (∀ f s iss r p x ks n, Single s iss 0xC4 f r → hasAccess s r.tid = false →
    locate (idle s) r.tid (if f.mod.getLsbD 0 then 2 else 1) r.a.toNat 16 16 needR [] = .ok (.spad p n) x ks →
    let s1 := spadFill (idle s) p n
    spadReady s1 p n = true →
    let h := spadRead s1 p 16 (((s1.threads[r.tid]?).map (·.ptime)).getD 0)
    let gap := (bitsOfBytes (h.2.1.take 4) + 2 ^ 32 - countOf r.b) % 2 ^ 32
    ((raisePtime h.1 r.tid h.2.2).threads[r.tid]?).isSome = true →
    (1 ≤ gap ∧ gap < 2 ^ 31 → exec (.abwait f) s = .next (leaves (raisePtime h.1 r.tid h.2.2) iss f r {})) ∧
    (¬ (1 ≤ gap ∧ gap < 2 ^ 31) →
      exec (.abwait f) s = .next (waitsAt (raisePtime h.1 r.tid h.2.2) r.tid (.arrival p (countOf r.b)))))

/-- R174 to R177: a fence with nothing outstanding goes on; else its thread waits for what is outstanding now. `WAIT` goes on
with every counter at or below its threshold. `CVG` declares a count. -/
def Obligations.FenceResults : Prop :=
  (∀ f s iss r, Single s iss 0xC5 f r → outstanding s (coreMates s r.tid) = ([], []) → ∃ ts,
    (∀ u ∈ coreMates s r.tid, ∀ th, s.threads[u]? = some th → th.ptime ≤ ts) ∧
    exec (.fenceg f) s = .next (leaves (raisePtime (idle s) r.tid ts) iss f r {})) ∧
  (∀ f s iss r accs ops, Single s iss 0xC5 f r → outstanding s (coreMates s r.tid) = (accs, ops) → ¬ (accs = [] ∧ ops = []) →
    ∃ t th, exec (.fenceg f) s = .next t ∧ t.threads[r.tid]? = some th ∧ th.wait = .fence accs ops ∧ t.mem = s.mem ∧
      t.accs = s.accs ∧ ∀ u, u ≠ r.tid → t.threads[u]? = s.threads[u]?) ∧
  (∀ f s iss r,
    let own := outstanding s [r.tid]
    let rem := if f.mod.getLsbD 0 then (s.lodes.filter fun o => o.tid = r.tid).map (·.id) else []
    Single s iss 0xC6 f r →
    (own.1 = [] → own.2 = [] → rem = [] → exec (.fencex f) s = .next (leaves (idle s) iss f r {})) ∧
    (¬ (own.1 = [] ∧ own.2 = [] ∧ rem = []) →
      exec (.fencex f) s = .next (waitsAt (idle s) r.tid (.fence own.1 (own.2 ++ rem))))) ∧
  (∀ f s iss r th, Single s iss 0xC7 f r → s.threads[r.tid]? = some th →
    let low (x : BitVec 10) (n : Nat) : Prop := x = 0x3FF ∨ n ≤ x.toNat
    (low f.d th.ld ∧ low f.a th.st ∧ low f.b th.cp ∧ low f.c th.tl →
      exec (.wait f) s = .next (leaves (idle s) iss f r {})) ∧
    (¬ (low f.d th.ld ∧ low f.a th.st ∧ low f.b th.cp ∧ low f.c th.tl) → ∃ w, w ≠ .ready ∧
      exec (.wait f) s = .next (waitsAt (idle s) r.tid w))) ∧
  (∀ f s iss r tm c,
    let m := teamIdOf s r.tid
    let n := countOf r.a
    Single s iss 0xC8 f r → s.teams[m]? = some tm → tm.convs[f.d.toNat]? = some c →
    (n < 1 ∨ (teamThreads s m).length < n → exec (.cvg f) s = .next (trapped (idle s) iss 0xC8 f r.tid ⟨2, n, 0, 0⟩)) ∧
    (1 ≤ n → n ≤ (teamThreads s m).length → c.sigs ≠ [] ∨ heldSigners s m f.d.toNat ≠ [] → c.count ≠ some n →
      exec (.cvg f) s = .next (trapped (idle s) iss 0xC8 f r.tid ⟨12, n, f.d.toNat, c.count.getD 0⟩)) ∧
    (1 ≤ n → n ≤ (teamThreads s m).length → (c.sigs = [] ∧ heldSigners s m f.d.toNat = []) ∨ c.count = some n →
      exec (.cvg f) s = .next (leaves { idle s with
        teams := s.teams.modify m fun t => { t with convs := t.convs.set f.d.toNat { c with count := some n } } } iss f r {})))

/-! The tile engine. -/

/-- R184, R190, R193: claims, releases, status, waits and metadata queues. -/
def Obligations.TileClaimResults : Prop :=
  (∀ f s iss r d c,
    let code := f.a.toNat
    let m := teamIdOf s r.tid
    Single s iss 0xD0 f r → coreOf s r.tid = (d, c) →
    (tileClaim (coreAt s d c) code = none →
      exec (.tclaim f) s = .next (leaves (modCore (idle s) d c fun k => claimTile k code m) iss f r { vals := [0] })) ∧
    (tileClaim (coreAt s d c) code = some m → exec (.tclaim f) s = .next (leaves (idle s) iss f r { vals := [0] })) ∧
    (∀ n, tileClaim (coreAt s d c) code = some n → n ≠ m → f.mod.getLsbD 0 = false →
      exec (.tclaim f) s = .next (leaves (idle s) iss f r { vals := [1] })) ∧
    (∀ n, tileClaim (coreAt s d c) code = some n → n ≠ m → f.mod.getLsbD 0 = true →
      exec (.tclaim f) s = .next (waitsAt (idle s) r.tid (.claim code)))) ∧
  (∀ f s iss r d c,
    let code := f.a.toNat
    let m := teamIdOf s r.tid
    Single s iss 0xD1 f r → coreOf s r.tid = (d, c) →
    (tileClaim (coreAt s d c) code ≠ some m → exec (.trel f) s = .next (leaves (idle s) iss f r {})) ∧
    (tileClaim (coreAt s d c) code = some m → tileBusy (coreAt s d c) code = false → opsName (coreAt s d c) code = false →
      exec (.trel f) s = .next (leaves (modCore (idle s) d c fun k => freeTile k code) iss f r {})) ∧
    (tileClaim (coreAt s d c) code = some m → tileBusy (coreAt s d c) code = true ∨ opsName (coreAt s d c) code = true →
      exec (.trel f) s = .next (waitsAt (idle s) r.tid (.release code)))) ∧
  (∀ f s iss r d c, Single s iss 0xD8 f r → coreOf s r.tid = (d, c) →
    exec (.tstat f) s = .next (leaves (idle s) iss f r
      { vals := [BitVec.ofNat 32 (tstatWord (coreAt s d c) (teamIdOf s r.tid) f.a.toNat)] })) ∧
  (∀ f s iss r d c,
    let k := coreAt s d c
    let code := f.a.toNat
    let isOver : Prop := if 0x50 ≤ code then queueLen k (code - 0x50) = 0
      else match (f.mod.extractLsb' 0 2).toNat with
        | 0 => tileStateOf k code = .empty ∨ tileStateOf k code = .ready
        | 1 => tileStateOf k code = .ready
        | _ => tileStateOf k code = .empty
    Single s iss 0xD9 f r → coreOf s r.tid = (d, c) →
    (isOver → exec (.twait f) s = .next (leaves (raisePtime (idle s) r.tid (tileTime k code)) iss f r {})) ∧
    (¬ isOver → exec (.twait f) s = .next (waitsAt (idle s) r.tid (.tile code (f.mod.extractLsb' 0 2).toNat)))) ∧
  (∀ f s iss r d c,
    let q := f.d.toNat
    Single s iss 0xDA f r → coreOf s r.tid = (d, c) →
    (tileClaim (coreAt s d c) (0x50 + q) ≠ some (teamIdOf s r.tid) →
      exec (.mqpush f) s = .next (trapped (idle s) iss 0xDA f r.tid ⟨2, 0x50 + q, 0, 0⟩)) ∧
    (tileClaim (coreAt s d c) (0x50 + q) = some (teamIdOf s r.tid) → queueRoom s d c q = 0 →
      exec (.mqpush f) s = .next (waitsAt (idle s) r.tid (.mqRoom q 1))) ∧
    (∀ p x ks, tileClaim (coreAt s d c) (0x50 + q) = some (teamIdOf s r.tid) → 1 ≤ queueRoom s d c q → unfull s r.tid .tl →
      locate (idle s) r.tid (if f.mod.getLsbD 0 then 1 else 0) r.a.toNat 512 64 needR [] = .ok p x ks →
      exec (.mqpush f) s = .next (leaves (withAccess (idle s)
        { issued s r.tid (.mqPush q) p 512 r.a.toNat x ks with ctr := .tl }) iss f r {}))) ∧
  (∀ f s iss r d c,
    let q := f.d.toNat
    Single s iss 0xDB f r → coreOf s r.tid = (d, c) →
    (tileClaim (coreAt s d c) (0x50 + q) ≠ some (teamIdOf s r.tid) →
      exec (.mqclr f) s = .next (trapped (idle s) iss 0xDB f r.tid ⟨2, 0x50 + q, 0, 0⟩)) ∧
    (tileClaim (coreAt s d c) (0x50 + q) = some (teamIdOf s r.tid) →
      exec (.mqclr f) s = .next (leaves (modCore (idle s) d c fun k =>
        { k with mqs := k.mqs.modify q fun x => { x with entries := [] } }) iss f r {})))

/-- R15, R181: the six signing instructions. A lane's signature joins its register; short of the count its thread waits,
or with `.nb` goes on; the last one queues the operation that the signatures build, and the register is armed again. A signature on a
register with no count raises CVGMIS with extra0 = 5; a second one of the same lane, also while the operation that it signed
stands in the queue and has not issued, CVGDUP. -/
def Obligations.SigningResults : Prop :=
  (
  ∀ (mk : Form → Instr) (opc : BitVec 8),
    (mk = .tld ∧ opc = 0xD2 ∨ mk = .tst ∧ opc = 0xD3 ∨ mk = .tzero ∧ opc = 0xD4 ∨ mk = .tmma ∧ opc = 0xD5 ∨
      mk = .tmmas ∧ opc = 0xD6 ∨ mk = .tmovv ∧ opc = 0xD7) →
    ∀ f s iss r m tm k c n d site,
      let pos := match r.aLoc with | .vec p => p | .scr n => scratchPos n | .uni _ | .void => 0
      let regs := if opc = 0xD7 then spanPos r.aLoc (movvCount f.mod) else []
      let g : Signature := ⟨r.tid, opc, f, r.c.setWidth 32, f.mod.getLsbD 0, iss.pc, pos, r.xs, r.hold⟩
      let s1 : State := { idle s with
        threads := s.threads.modify r.tid fun th => { counted .tl th with wait := .signed k }
        teams := s.teams.modify m fun t => { t with convs := t.convs.modify k fun x => { x with sigs := c.sigs ++ [g] } } }
      Single s iss opc f r → unfull s r.tid .tl → teamIdOf s r.tid = m → s.teams[m]? = some tm → k = f.d.toNat →
      tm.convs[k]? = some c → c.count = some n → coreOf s r.tid = (d, site) → hasAccess s r.tid = false →
      anyPending s r.tid regs [] = false → (∀ x ∈ c.sigs, x.tid ≠ r.tid) → r.tid ∉ heldSigners s m k →
      (let t := if f.mod.getLsbD 0 then releaseSigner r.tid s1 g else s1
       c.sigs.length + 1 < n → n - (c.sigs.length + 1) ≤ unsigned t m { c with sigs := c.sigs ++ [g] } →
        exec (mk f) s = .next t) ∧
      (∀ o, c.sigs.length + 1 = n → firstDiffer (c.sigs ++ [g]) g = none →
        opCheck { s1 with teams := s1.teams.modify m fun t => { t with convs := t.convs.modify k fun x => { x with sigs := [] } } }
          (coreAt s d site) (buildOp { s1 with
            teams := s1.teams.modify m fun t => { t with convs := t.convs.modify k fun x => { x with sigs := [] } } }
            (c.sigs ++ [g]) g) g = .ok o →
        ∃ t, exec (mk f) s = .next t ∧
          (coreAt t d site).ops = (coreAt s d site).ops ++ [{ o with held := poisonOpen (coreAt s d site) o }] ∧
          (∃ tm', t.teams[m]? = some tm' ∧ tm'.convs[k]? = some { c with sigs := [] }) ∧
          t.nextId = s.nextId + 1 ∧ t.mem = s.mem ∧ t.accs = s.accs ∧ t.contexts = s.contexts)) ∧ (
  ∀ (mk : Form → Instr) (opc : BitVec 8), (mk = .tzero ∧ opc = 0xD4 ∨ mk = .tmma ∧ opc = 0xD5 ∨ mk = .tmmas ∧ opc = 0xD6) →
    ∀ f s iss r tm c,
      let after (i : TrapInfo) : State := convUnreachable (trapped (idle s) iss opc f r.tid i) (teamIdOf s r.tid) f.d.toNat
      Single s iss opc f r → unfull s r.tid .tl → s.teams[teamIdOf s r.tid]? = some tm → tm.convs[f.d.toNat]? = some c →
      anyPending s r.tid [] [] = false →
      (c.count = none → exec (mk f) s = .next (after ⟨12, f.d.toNat, 5, 0⟩)) ∧
      (∀ n, c.count = some n → (∃ x ∈ c.sigs, x.tid = r.tid) ∨ r.tid ∈ heldSigners s (teamIdOf s r.tid) f.d.toNat →
        exec (mk f) s = .next (after ⟨13, f.d.toNat, 0, 0⟩)))

/-! Engines and graphs, as their commands are issued. -/

/-- R196, R316: `TIDSET` of a valid image, or of one with bit 63 of its first word clear, is outstanding; a bad field raises
ILLOPND with its offset; `TIDGET` stores the image's two sectors. -/
def Obligations.IdentifierResults : Prop :=
  (∀ f s iss r s1 bs at_,
    let valid : Bool := imgBits bs 0 63 63 = 1
    Single s iss 0xE2 f r → unfull s r.tid .ld →
    readAtIssue (idle s) r.tid (if f.mod.getLsbD 0 then 1 else 0) r.a.toNat 128 64 = .ok s1 bs at_ →
    (s1.threads[r.tid]?).isSome = true →
    (∀ off, valid = true → badField bs = some off →
      exec (.tidset f) s = .next (trapped (idle s) iss 0xE2 f r.tid ⟨2, 0, off, 0⟩)) ∧
    (valid = true → badField bs = none →
      exec (.tidset f) s = .next (leaves (withAccess s1
        { issued s1 r.tid (.tidSet f.d.toNat (some (tensorOfImage bs))) .nothing 128 r.a.toNat noXlat [] with ctr := .ld })
        iss f r {})) ∧
    (valid = false →
      exec (.tidset f) s = .next (leaves (withAccess s1
        { issued s1 r.tid (.tidSet f.d.toNat none) .nothing 128 r.a.toNat noXlat [] with ctr := .ld }) iss f r {}))) ∧
  (∀ f s iss r p x ks,
    let space := if f.mod.getLsbD 0 then 1 else 0
    let bs := tensorImage (tensorOf s r.tid f.d.toNat)
    let wholes := storesWhole (fun w => (storePlace (idle s) r.tid space r.a.toNat 128 64 w).toList)
      (touchedSectors (idle s) r.tid space r.a.toNat 128)
    Single s iss 0xE3 f r → unfull s r.tid .st → locate (idle s) r.tid space r.a.toNat 128 64 needW wholes = .ok p x ks →
    exec (.tidget f) s = .next (leaves (withAccess (withAccess (idle s)
        { issued s r.tid .store (halfPlace p false) 64 r.a.toNat x ks with bytes := bs.take 64, wholes := wholes })
        { issued s r.tid .store (halfPlace p true) 64 (r.a.toNat + 64) x ks with
          id := s.nextId + 1, bytes := bs.drop 64, ctr := .st, wholes := wholes }) iss f r {}))

/-- R197 to R201: a function that is not listed, and the first field of a descriptor that breaks a rule, raise XOPERR; a command
that passes starts with cp raised, and `XOPR` names where its reply goes. The offset in an XOPERR record is the model's
reading (log 32). -/
def Obligations.CommandResults : Prop :=
  ∀ (mk : Form → Instr) (opc : BitVec 8) (reply : Bool), (mk = .xop ∧ opc = 0xE0 ∧ reply = false ∨ mk = .xopr ∧ opc = 0xE1 ∧ reply = true) →
    ∀ f s iss r,
      let eng := (f.b.extractLsb' 7 3).toNat
      let fn := (f.b.extractLsb' 0 7).toNat
      Single s iss opc f r → unfull s r.tid .cp →
      (listedFn eng fn = false → exec (mk f) s = .next (trapped (idle s) iss opc f r.tid ⟨23, 0, 0, 0⟩)) ∧
      (∀ s1 bs at_, listedFn eng fn = true →
        readAtIssue (idle s) r.tid (if f.mod.getLsbD 0 then 1 else 0) r.a.toNat 64 64 = .ok s1 bs at_ →
        (∀ off, descBad eng fn bs (launchOf s r.tid).spad = some off →
          exec (mk f) s = .next (trapped (idle s) iss opc f r.tid ⟨23, 0, off, 0⟩)) ∧
        (∀ ts, descBad eng fn bs (launchOf s r.tid).spad = none →
          commandTensors (idle s) (ctxOf s r.tid) (descIds eng fn bs) = .ok ts → tensorsBad eng fn (ts.map (·.2)) = none →
          commandClaim eng fn bs = none →
          let e0 : EngineOp := { plainOp s1 r.tid eng fn with
            descVa := r.a.toNat
            descSpad := at_
            ctr := .cp
            param := r.c.setWidth 32
            dest := if reply then replyDest s1 s r.tid r.d r.span else .none }
          let e1 := commandOp s1 e0 bs ts
          let e2 := { e1 with unit := unitOf e1.param e1 }
          let p := takeSlot s1 r.tid e2
          let s3 := startOp (modThread p.1 r.tid (counted .cp)) p.2
          (s3.threads[r.tid]?).isSome = true → exec (mk f) s = .next (leaves s3 iss f r {})))

/-! System instructions. -/

/-- R39, R205, R56, R340: `MFS` reads the register, and `MTS` writes it, with the bits and limits that each keeps. That a
write of `FADEPER` begins a period is the model's choice (log 119). -/
def Obligations.SystemRegisters : Prop :=
  (∀ f s iss r c, Single s iss 0xF0 f r → contextOf s r.tid = some c →
    (f.a.toNat ∈ [0x003, 0x004, 0x005, 0x006, 0x007, 0x008, 0x00B] →
      exec (.mfs f) s = .next (leaves (idle s) iss f r { vals := oneReg (contextRegister c f.a.toNat) })) ∧
    (f.a.toNat ∈ [0x000, 0x001, 0x009] →
      exec (.mfs f) s = .next (leaves (idle s) iss f r { vals := pairRegs (contextRegister c f.a.toNat) })) ∧
    (f.a.toNat = 0x00A →
      exec (.mfs f) s = .next (leaves (idle s) iss f r
        { vals := oneReg (BitVec.ofNat 64 (min (launchOf s r.tid).privlim c.privlim.toNat)) })) ∧
    (∀ g, groupOf s r.tid = some g → f.a.toNat = 0x002 →
      exec (.mfs f) s = .next (leaves (idle s) iss f r { vals := [g.fpctl] })) ∧
    (∀ m, teamOf s r.tid = some m → f.a.toNat = 0x00C →
      exec (.mfs f) s = .next (leaves (idle s) iss f r { vals := [m.pos] })) ∧
    (∀ d, d < 4 → f.a.toNat = 0x00D + d →
      exec (.mfs f) s = .next (leaves (idle s) iss f r { vals := pairRegs (siteMap s d) }))) ∧
  (∀ f s iss r, Single s iss 0xF1 f r →
    (f.d.toNat = 0x002 →
      exec (.mts f) s = .next (leaves { idle s with groups := s.groups.modify (groupIdOf s r.tid) fun g => { g with
        fpctl := (r.a.setWidth 32 &&& 0x1F) |||
          (if (r.a.extractLsb' 8 3).toNat ≤ 5 then r.a.setWidth 32 &&& 0x700 else 0) } } iss f r {})) ∧
    (f.d.toNat ∈ [0x000, 0x001, 0x004, 0x005, 0x006, 0x007, 0x008, 0x00A] →
      exec (.mts f) s = .next (leaves { idle s with
        contexts := s.contexts.modify (ctxOf s r.tid) fun c => withRegister c f.d.toNat r.a } iss f r {})) ∧
    (f.d.toNat = 0x00B →
      exec (.mts f) s = .next (leaves { idle s with
        contexts := s.contexts.modify (ctxOf s r.tid) fun c => { withRegister c 0x00B r.a with fadeClk := s.clk } } iss f r {})) ∧
    (f.d.toNat = 0x003 →
      exec (.mts f) s = .next (leaves { idle s with
        contexts := s.contexts.modify (ctxOf s r.tid) fun c => withRegister c 0x003 r.a
        cores := s.cores.map fun k => { k with gens := k.gens.filter fun g => g.ctx ≠ ctxOf s r.tid }
        sluices := s.sluices.filter fun p => p.2.1 ≠ ctxOf s r.tid } iss f r {})) ∧
    (f.d.toNat = 0x009 →
      exec (.mts f) s = .next (leaves { idle s with
        contexts := s.contexts.modify (ctxOf s r.tid) fun c => { c with
          budget := (r.a &&& 0x0000FFFFFFFF0000) ||| BitVec.ofNat 64 (min (r.a.extractLsb' 8 8).toNat 176 * 256) } } iss f r {})))

/-- R207, R208: `CTXSV` stores the parts that MOD names, in order, once ld, st and cp are zero and the thread has nothing
outstanding; `CTXRS` loads them and restores the team, the group and the thread. The resume PC and the slot field that `CTXSV` stores outside a save routine are the
model's readings (logs 67 and 68). -/
def Obligations.ContextResults : Prop :=
  (∀ f s iss r th, Single s iss 0xF3 f r → s.threads[r.tid]? = some th →
    (¬ (th.ld = 0 ∧ th.st = 0 ∧ th.cp = 0) →
      exec (.ctxsv f) s = .next (waitsAt (idle s) r.tid (.counters (some 0) (some 0) (some 0) none))) ∧
    (th.ld = 0 → th.st = 0 → th.cp = 0 → hasAccess s r.tid = true →
      exec (.ctxsv f) s = .next (waitsAt (idle s) r.tid .accesses)) ∧
    (∀ s1 s2 s3, th.ld = 0 → th.st = 0 → th.cp = 0 → hasAccess s r.tid = false →
      (if f.mod.getLsbD 0 then partStore (idle s) r.tid r.a.toNat 0
        (threadPart (idle s) r.tid (iss.pc + BitVec.ofNat 64 f.len.bytes)) else .ok (idle s)) = .ok s1 →
      (if f.mod.getLsbD 1 then partStore s1 r.tid r.a.toNat 0x100 (groupPart s1 r.tid) else .ok s1) = .ok s2 →
      (if f.mod.getLsbD 2 then partStore s2 r.tid r.a.toNat 0x300 (teamPart s2 r.tid) else .ok s2) = .ok s3 →
      let s4 := if f.mod.getLsbD 2 then noteSaved s3 (teamIdOf s3 r.tid) else s3
      (s3.threads[r.tid]?).isSome = true → exec (.ctxsv f) s = .next (leaves s4 iss f r {}))) ∧
  (∀ f s iss r s1 b0 s2 b1 s3 b2, Single s iss 0xF4 f r → savedBlock (phaseOf s (teamIdOf s r.tid)) = none →
    hasAccess s r.tid = false →
    (f.mod.getLsbD 2 = false → ((teamOf s r.tid).map (·.partRestored)).getD false = false →
      exec (.ctxrs f) s = .next (trapped (idle s) iss 0xF4 f r.tid ⟨2, 0, 0, 0⟩)) ∧
    (f.mod.getLsbD 2 = true ∨ ((teamOf s r.tid).map (·.partRestored)).getD false = true →
      (if f.mod.getLsbD 0 then partLoad (idle s) r.tid r.a.toNat 0 256 else .ok (idle s, [])) = .ok (s1, b0) →
      (if f.mod.getLsbD 1 then partLoad s1 r.tid r.a.toNat 0x100 512 else .ok (s1, [])) = .ok (s2, b1) →
      (if f.mod.getLsbD 2 then partLoad s2 r.tid r.a.toNat 0x300 17408 else .ok (s2, [])) = .ok (s3, b2) →
      (f.mod.getLsbD 2 = true → capacityFor s3 r.tid b2 = true) →
      let s4 := if f.mod.getLsbD 2 then restoreTeam s3 r.tid b2 else s3
      let s5 := if f.mod.getLsbD 1 then restoreGroup s4 r.tid b1 else s4
      let s6 := if f.mod.getLsbD 0 then restoreThread s5 r.tid b0 else s5
      (s6.threads[r.tid]?).isSome = true → exec (.ctxrs f) s = .next (leaves s6 iss f r {})))

/-- R209, R210, R211: `SPILLW` writes every resident frame and leaves none resident; `FILLW` brings the top frames back; `EXITP`
ends a routine, and outside one acts as `EXIT`; `ICINV` discards a range of a context's code; `TLBINV` drops the cached
translations of a page of the context, of a `CTXID`, or all. That what was translated before keeps its translation is the
model's choice (log 78). -/
def Obligations.SupervisorResults : Prop :=
  (∀ f s iss r th s1, Single s iss 0xF5 f r → s.threads[r.tid]? = some th → hasAccess s r.tid = false →
    let ds := (List.range (depthOf th + 1 - th.resident)).map (th.resident + ·)
    anyPending s r.tid (ds.flatMap (framePositions th (windowOf s r.tid))) [] = false →
    spillFrames r.tid ds (idle s) = (s1, none) → (s1.threads[r.tid]?).isSome = true →
    exec (.spillw f) s = .next (leaves { s1 with
      threads := s1.threads.modify r.tid fun th => { th with resident := th.frames.length - 1 + 1 } } iss f r {})) ∧
  (∀ f s iss r th s1, Single s iss 0xF6 f r → s.threads[r.tid]? = some th → hasAccess s r.tid = false →
    let n := max 1 (min (countOf r.a) (depthOf th + 1))
    fillLimit (idle s) r.tid th (depthOf th + 1 - n) = none →
    fillDown r.tid (th.resident + 1) (depthOf th + 1 - n) (idle s) = .ok s1 → (s1.threads[r.tid]?).isSome = true →
    exec (.fillw f) s = .next (leaves s1 iss f r {})) ∧
  (∀ f s iss r th, Single s iss 0xF9 f r → s.threads[r.tid]? = some th → unattached s r.tid →
    th.routine = .none ∨ th.routine = .bringUp → ∃ t, exec (.exitp f) s = .next t ∧ Ended s r th t) ∧
  (∀ f s iss r th, Single s iss 0xF9 f r → s.threads[r.tid]? = some th → th.routine = .restore →
    (∀ b, phaseOf s (teamIdOf s r.tid) ≠ .saving b) → (∀ m, teamOf s r.tid = some m → leavesAgain s m.cluster = false) →
    ∃ t, exec (.exitp f) s = .next t ∧ ∀ u tu, s.threads[u]? = some tu → ∃ tu', t.threads[u]? = some tu' ∧
      (u = r.tid → tu'.routine = .none ∧ tu'.pc = th.resumePc.getD th.pc ∧ tu'.wait = .ready) ∧
      (u ≠ r.tid → tu' = tu)) ∧
  (∀ f s iss r,
    let a := r.a.toNat
    let n := countOf r.c
    Single s iss 0xF7 f r →
    (a % 256 ≠ 0 → exec (.icinv f) s = .next (trapped (idle s) iss 0xF7 f r.tid ⟨9, a, 0, 0⟩)) ∧
    (a % 256 = 0 → n % 256 ≠ 0 → exec (.icinv f) s = .next (trapped (idle s) iss 0xF7 f r.tid ⟨9, n, 2, 0⟩)) ∧
    (a % 256 = 0 → n % 256 = 0 → hasAccess s r.tid = false → ∃ cores,
      exec (.icinv f) s = .next (leaves { idle s with cores := cores } iss f r {}) ∧
      cores.map (·.code) = s.cores.map fun k => k.code.filter fun b =>
        ¬ (b.ctx = ctxOf s r.tid ∧ b.addr < a + n ∧ a < b.addr + 32))) ∧
  (∀ f s iss r,
    let keeps (e : TlbEntry) : Bool := match (f.mod.extractLsb' 0 2).toNat with
      | 0 => !(decide (e.ctx = ctxOf s r.tid) && decide (e.page = r.a.toNat / 65536))
      | 1 => decide (((s.contexts[e.ctx]?).map (·.ctxid)) ≠ some (r.a.setWidth 16).toNat)
      | _ => false
    Single s iss 0xF8 f r → exec (.tlbinv f) s = .next (leaves { idle s with tlb := s.tlb.filter keeps } iss f r {}))

/-- R212 to R214: `CLOCK` reads the package clock or ptime; `PERF` a counter; `SLEEP` passes its instruction and waits;
`HALT` stops the core in bring-up mode; elsewhere it sends the record of PROT, whose address word is the code, and the
context stops with code 18 once the record's stores have been performed. -/
def Obligations.ClockResults : Prop :=
  Gives .clock 0xFA (fun f s _ r => { vals := pairRegs (BitVec.ofNat 64
    (if f.mod.getLsbD 0 then ((s.threads[r.tid]?).map (·.ptime)).getD 0 % 2 ^ 48 else s.clk)) }) ∧
  (∀ f s iss r d c h, Single s iss 0xFB f r → coreOf s r.tid = (d, c) →
    (∀ n, perfCount s r.tid (countOf r.a) (countOf r.b) = some n →
      exec (.perf f) s = .next (leaves (idle s) iss f r { vals := pairRegs (BitVec.ofNat 64 n) })) ∧
    (perfCount s r.tid (countOf r.a) (countOf r.b) = none →
      exec (.perf f) s = .next (trapped (idle s) iss 0xFB f r.tid ⟨2, 0, 0, 0⟩)) ∧
    perfCount s r.tid 0x000 (countOf r.b) = some ((lookupNat (coreAt s d c).issued (ctxOf s r.tid)).getD 0) ∧
    perfCount s r.tid 0x001 (countOf r.b) = some ((lookupNat (coreAt s d c).residentClk (ctxOf s r.tid)).getD 0) ∧
    perfCount s r.tid 0x030 (countOf r.b) = some (coreAt s d c).mqStall ∧
    (countOf r.b < 12 → s.homes[countOf r.b]? = some h →
      perfCount s r.tid 0x010 (countOf r.b) = some h.aliases.length ∧ perfCount s r.tid 0x011 (countOf r.b) = some h.watches.length ∧
      perfCount s r.tid 0x012 (countOf r.b) = some h.eagerOcc ∧ perfCount s r.tid 0x013 (countOf r.b) = some h.eagerFull ∧
      perfCount s r.tid 0x014 (countOf r.b) = some h.hot ∧ perfCount s r.tid 0x015 (countOf r.b) = some h.drained ∧
      perfCount s r.tid 0x020 (countOf r.b) = some h.peatHits ∧ perfCount s r.tid 0x021 (countOf r.b) = some h.peatMisses ∧
      perfCount s r.tid 0x022 (countOf r.b) = some h.peatGrow)) ∧
  (∀ f s iss r th, Single s iss 0xFC f r → s.threads[r.tid]? = some th → ∃ t th', exec (.sleep f) s = .next t ∧
    t.threads[r.tid]? = some th' ∧ th'.wait = .sleep (s.clk + min (countOf r.a) 1048576) ∧
    th'.pc = (fallThrough th iss.pc f.len.bytes).pc ∧ t.mem = s.mem ∧ ∀ u, u ≠ r.tid → t.threads[u]? = s.threads[u]?) ∧
  (∀ f s iss r c d site th, Single s iss 0xFE f r → s.threads[r.tid]? = some th → th.exited = false →
    contextOf s r.tid = some c → c.stopped = false → coreOf s r.tid = (d, site) →
    (c.bringUp = true → exec (.halt f) s = .next (stopCore { idle s with
      dies := s.dies.modify d fun k => { k with halts := k.halts ++ [(site, r.a.setWidth 32)] } } r.tid (countOf r.a))) ∧
    (∀ s1 a,
      let q := trapReq iss 0xFE f r.tid ⟨18, countOf r.a, 0, 0⟩
      c.bringUp = false → sendRecord (idle s) th.group q [r.tid] true = .sent s1 a →
      exec (.halt f) s = .next { s1 with
        threads := s1.threads.modify r.tid fun th => { th with wait := .recordStore a, promoted := false } })) ∧
  (∀ s a code, ∃ t,
    performRecord s a code true = stopContext t a.ctx code a.cmp.toNat a.bytes none)

/-! Events of the package's agents: fetches, wakes and time. -/

/-- R65, R32, R34, R99: a fetched block comes into the L1 instruction cache, or its page's fault is taken; a thread of the PC
hash table or its overflow list that is left for 2,048 clk is promoted; a freed loop buffer goes to the oldest waiting `LOOP`;
the tables take in the threads that become ready, whose age begins then, and nothing else changes. -/
def Obligations.FetchEvents : Prop :=
  (∀ s die site part block a,
    let waits := (seenThreads s).filter fun x => decide ((x.die, x.site, x.part) = (die, site, part)) && x.bytes.isNone && !x.start
      && decide (x.pc.toNat / 32 = block)
    oldestSeen waits = some a →
    (∀ b, codeBlock s die site (ctxOf s a.tid) (block * 32) = some b →
      exec (.instructionFetch die site part block) s =
        .next (modCore (cacheRange s (ctxOf s a.tid) (block * 32) 32) die site fun c => { c with code := b :: c.code })) ∧
    (codeBlock s die site (ctxOf s a.tid) (block * 32) = none → translate s (ctxOf s a.tid) (block * 32) = .pagef →
      exec (.instructionFetch die site part block) s = .next (takeTraps s ((candidate waits a).lanes.map fun p =>
        ⟨p.2, ⟨17, block * 32, 4, 0⟩, a.pc, 0, 0, 0, (candidate waits a).lanes.map (·.2)⟩))) ∧
    (codeBlock s die site (ctxOf s a.tid) (block * 32) = none → translate s (ctxOf s a.tid) (block * 32) ≠ .pagef →
      exec (.instructionFetch die site part block) s = .next (takeTraps s ((candidate waits a).lanes.map fun p =>
        ⟨p.2, ⟨18, block * 32, 0, 0⟩, a.pc, 0, 0, 0, (candidate waits a).lanes.map (·.2)⟩)))) ∧
  (∀ s t th d c, s.threads[t]? = some th → th.promoted = false → th.age + 2048 ≤ s.clk → coreOf s t = (d, c) →
    (∃ e ∈ (coreAt s d c).pcs, t ∈ e.threads) ∨ (∃ p ∈ (coreAt s d c).overflow, p.2 = t) →
    exec (.promotion t) s = .next { s with threads := s.threads.modify t fun th => { th with promoted := true } }) ∧
  (∀ s t th, s.threads[t]? = some th → s.clk < th.age + 2048 → exec (.promotion t) s = .next s) ∧
  (∀ s die site part t age grid a b s1 v, loopWaiter s die site part = some (t, age, grid, a, b) →
    takeLoop s die site part grid (ctxOf s t) a b = some (s1, v) →
    exec (.loopBufferGrant die site part) s = .next (modThread (modCore s1 die site fun c =>
      { c with loops := c.loops.map fun p => if p.1 = part ∧ p.2.grid = grid ∧ p.2.start = a
                                             then (p.1, { p.2 with granted := (t, ((s1.threads[t]?).map (·.pc)).getD 0) :: p.2.granted }) else p }
      ) t (fun th => { th with wait := .ready, age := s1.clk, promoted := false }))) ∧
  (∀ s : State, ∃ (cores : List Core) (threads : List Thread), settleReady s = ({ s with cores := cores, threads := threads } : State) ∧ threads.length = s.threads.length ∧
    (∀ (t : Nat) (th : Thread), s.threads[t]? = some th → threads[t]? = some th ∨ threads[t]? = some { th with age := s.clk, promoted := false }) ∧
    ∀ die site, ∃ pcs rest, coreAt (settleReady s) die site = ({ coreAt s die site with pcs := pcs, overflow := rest } : Core))

/-- R164, R213, R266, R267, R252, R240: a monitored sector's write, a poll's end and a sleep's end make their thread ready;
a tick raises the ptime of every resident thread; a window fades by a period; a refilled page comes as zeros until it has
been written. -/
def Obligations.TimeEvents : Prop :=
  (∀ s t th sec, s.threads[t]? = some th → th.wait = .woken sec →
    exec (.monitorWake t) s = .next { s with
      dies := s.dies.map fun d => { d with monitors := d.monitors.filter fun m => m.tid ≠ t }
      threads := s.threads.modify t fun th => { th with wait := .ready, age := s.clk, promoted := false } }) ∧
  (∀ s t th c, s.threads[t]? = some th → th.wait = .poll c →
    (c ≤ s.clk → exec (.waitcPoll t) s = .next { s with
      dies := s.dies.map fun d => { d with monitors := d.monitors.filter fun m => m.tid ≠ t }
      threads := s.threads.modify t fun th => { th with wait := .ready, age := s.clk, promoted := false } }) ∧
    (s.clk < c → exec (.waitcPoll t) s = .next s)) ∧
  (∀ s t th c, s.threads[t]? = some th → th.wait = .sleep c →
    (c ≤ s.clk → exec (.sleepExpire t) s = .next { s with
      threads := s.threads.modify t fun th => { th with wait := .ready, age := s.clk, promoted := false } }) ∧
    (s.clk < c → exec (.sleepExpire t) s = .next s)) ∧
  (∀ s, exec .ptimeTick s = .next { s with
    ticked := s.ticked + 1
    threads := s.threads.mapIdx fun t th =>
      if th.exited = false ∧ (teamOf s t).any teamRuns then { th with ptime := th.ptime + 1 } else th }) ∧
  (∀ s, s.ptimeReported = false → (∃ th ∈ s.threads, 2 ^ 47 ≤ th.ptime) → ∃ p, (∀ th ∈ s.threads, th.ptime ≤ p) ∧
    exec .ptimeLimitReport s = .next { s with out := s.out ++ [.ptime p], ptimeReported := true }) ∧
  (∀ s c k, s.contexts[c]? = some k → k.live = true → k.fadeper ≠ 0 → k.fadeClk + 700 * k.fadeper.toNat ≤ s.clk →
    exec (.fadePeriod c) s = .next { s with contexts := s.contexts.modify c fun k => { k with
      windows := k.windows.filterMap fun w =>
        if w.hit then some { w with hit := false } else if w.fade ≤ 1 then none else some { w with fade := w.fade - 1 }
      fadeClk := k.fadeClk + 700 * k.fadeper.toNat } }) ∧
  (∀ s home line h w, s.homes[home]? = some h → w ∈ h.wc → w.line = line → w.since + w.wait ≤ s.clk → ∃ h' m,
    exec (.wcFallback home line) s = .next { s with homes := s.homes.set home h', mem := m } ∧ ∀ v ∈ h'.wc, v.line ≠ line) ∧
  (∀ s team page t x, s.teams[team]? = some t → frameAt s team page = none →
    (coreAt s t.die t.site).frames.length < 128 → regionAt s team (4096 * (page + 1)) = .ok x → t.touched.contains page = false →
    exec (.scratchpadRefill team page) s = .next (modCore s t.die t.site fun c => { c with frames :=
      ⟨team, page, List.replicate 64 0, (List.range 64).map fun i => homeTimes s (x.pa / 64 + i), [], false, s.clk⟩ :: c.frames }))

/-! The die protocol. -/

/-- R296, R297, R300, R302, R312: what a die answers. `Inv` and `PRecall` give the copy up, `Fwd` hands it on, `Peek` sends its
bytes and keeps it, `Data` and `Grant` bring one in; without a copy the die still acknowledges. -/
def Obligations.DieMessages : Prop :=
  (∀ s die sec, unowned s die sec →
    (∀ x, l2At s die sec = some x → exec (.inv die sec) s = .next (send (l2Del s die sec) [.ack (match x.st with
      | .m | .o => ⟨sec, die, some x.bytes, [], [], 0, x.wts, x.rts, true, false, x.ctx⟩
      | .p => ⟨sec, die, none, x.partials, x.touched, x.tag, x.wts, x.rts, false, false, x.ctx⟩
      | .s | .e => ⟨sec, die, none, [], [], 0, x.wts, x.rts, false, false, x.ctx⟩)])) ∧
    (l2At s die sec = none → exec (.inv die sec) s = .next (send s [.ack ⟨sec, die, none, [], [], 0, 0, 0, false, false, none⟩]))) ∧
  (∀ s owner dest sec x, unowned s owner sec → l2At s owner sec = some x →
    let dirty := decide (x.st = .m ∨ x.st = .o)
    let answers : List Instr := [.data ⟨sec, dest, some x.bytes, [], [], 0, x.wts, x.rts, false, false, none⟩,
      .ack ⟨sec, owner, none, [], [], 0, x.wts, x.rts, dirty, true, none⟩]
    exec (.fwd owner dest sec true) s = .next (send (l2Del s owner sec) answers) ∧
    exec (.fwd owner dest sec false) s = .next (send (l2Mod s owner { x with st := if dirty then .o else .s }) answers)) ∧
  (∀ s die sec,
    (∀ x, l2At s die sec = some x → x.st = .p → exec (.precall die sec) s = .next (send (l2Del s die sec)
      [.ack ⟨sec, die, none, x.partials, x.touched, x.tag, x.wts, x.rts, false, false, x.ctx⟩])) ∧
    ((∀ x, l2At s die sec = some x → x.st ≠ .p) →
      exec (.precall die sec) s = .next (send s [.ack ⟨sec, die, none, [], [], 0, 0, 0, false, false, none⟩]))) ∧
  (∀ s owner sec acc x, unowned s owner sec → l2At s owner sec = some x → exec (.peek owner sec acc) s =
    .next (send s [.ack ⟨sec, owner, some x.bytes, [], [], 0, x.wts, x.rts, false, false, none⟩])) ∧
  (∀ s m x d, m.bytes = some x → s.dies[m.die]? = some d → (∃ y ∈ d.l2, y.sec / 4 = m.sec / 4) →
    exec (.data m) s = .next { s with dies := s.dies.modify m.die fun d => { d with
      l2 := ⟨m.sec, if m.own then (if m.dirty then .m else .e) else .s, x, m.wts, m.rts, 0, [], [], s.clk, false, m.ctx⟩
        :: d.l2.filter fun y => y.sec ≠ m.sec } }) ∧
  (∀ s m, m.tag = 0 → (∀ x, l2At s m.die m.sec = some x →
    exec (.grant m) s = .next (l2Mod s m.die { x with st := .m, wts := max x.wts m.wts, rts := max x.rts m.rts, used := s.clk }))) ∧
  (∀ s m d, m.tag ≠ 0 → s.dies[m.die]? = some d → l2At s m.die m.sec = none → (∃ y ∈ d.l2, y.sec / 4 = m.sec / 4) →
    ∃ x, exec (.grant m) s = .next { s with dies := s.dies.modify m.die fun d => { d with l2 := x :: d.l2.filter fun y => y.sec ≠ m.sec } } ∧
      x.sec = m.sec ∧ x.st = .p ∧ x.tag = m.tag ∧ (∀ v ∈ x.partials, v = none) ∧ ∀ b ∈ x.touched, b = false)

/-- R297, R300, R301, R310: the home answers a request for a sector that is not busy and for whose line the directory has an
entry; behind a busy one, and while every entry of its directory set has a busy sector, the request waits; a monitored
sector does not become Pooled. -/
def Obligations.HomeRequests : Prop :=
  (∀ s die sec tag b, busyOf s sec = some b →
    let waits (k t : Nat) : State := busyPut s sec (some { b with queue := b.queue ++ [⟨k, die, t⟩] })
    exec (.rds die sec) s = .next (waits 0 0) ∧ exec (.rdx die sec) s = .next (waits 1 0) ∧
    exec (.upg die sec) s = .next (waits 2 0) ∧ exec (.pjoin die sec tag) s = .next (waits 3 tag)) ∧
  (∀ s die sec h, busyOf s sec = none → s.homes[homeOf (sec * 64)]? = some h → h.dirWait = [] → dirVictim s sec = .full →
    exec (.rds die sec) s = .next { s with
      homes := s.homes.modify (homeOf (sec * 64)) fun h => { h with dirWait := h.dirWait ++ [(sec, ⟨0, die, 0⟩)] } }) ∧
  (∀ s0 die sec h, busyOf s0 sec = none → s0.homes[homeOf (sec * 64)]? = some h → h.dirWait = [] → (∃ e ∈ h.dir, e.line = sec / 4) →
    let s := dirTouch s0 sec
    let d := dirSec s sec
    let hs := holdersOf d.holders
    let ended (t : State) : State := busyPut t sec none
    let waits (t : State) (q : HomeReq) (dies : List Nat) (fwd : Bool) (msgs : List Instr) : State :=
      send (busyPut t sec (some ⟨sec, q, dies, fwd, false, false, [], 0, 0, [], none⟩)) msgs
    let times := homeTimes s sec
    (d.st = 0 → monitored s sec = false →
      exec (.rds die sec) s0 = .next (ended (dirPut (dataFrom s sec die false true) sec (dirOf 2 [die] die)))) ∧
    (d.st = 0 → monitored s sec = true →
      exec (.rds die sec) s0 = .next (ended (dirPut (dataFrom s sec die false false) sec (dirOf 1 [die] 0)))) ∧
    (d.st = 1 → exec (.rds die sec) s0 =
      .next (ended (dirPut (dataFrom s sec die false false) sec (dirOf 1 (die :: hs.filter fun x => x ≠ die) 0)))) ∧
    (d.st = 2 ∨ d.st = 3 ∨ d.st = 4 → exec (.rds die sec) s0 = .next
      (waits s ⟨0, die, 0⟩ [(d.aux.extractLsb' 0 2).toNat] true [.fwd (d.aux.extractLsb' 0 2).toNat die sec false])) ∧
    (d.st = 0 → exec (.rdx die sec) s0 =
      .next (ended (dirPut (dataFrom (wakeMonitors s sec) sec die true true) sec (dirOf 3 [die] die)))) ∧
    (d.st = 1 → exec (.rdx die sec) s0 =
      .next (waits (wakeMonitors s sec) ⟨1, die, 0⟩ hs false (hs.map fun x => .inv x sec))) ∧
    (d.st = 1 → die ∈ hs → hs.filter (fun x => x ≠ die) ≠ [] → exec (.upg die sec) s0 =
      .next (waits (wakeMonitors s sec) ⟨2, die, 0⟩ (hs.filter fun x => x ≠ die) false
        ((hs.filter fun x => x ≠ die).map fun x => .inv x sec))) ∧
    (d.st = 1 → die ∈ hs → hs.filter (fun x => x ≠ die) = [] → exec (.upg die sec) s0 =
      .next (ended (send (dirPut (wakeMonitors s sec) sec (dirOf 3 [die] die))
        [.grant ⟨sec, die, none, [], [], 0, times.1, times.2, false, true, none⟩]))) ∧
    (∀ tag, monitored s sec = true → exec (.pjoin die sec tag) s0 = .next (ended s)) ∧
    (∀ tag, monitored s sec = false → d.st = 0 → exec (.pjoin die sec tag) s0 =
      .next (ended (send (dirPut s sec (dirOf 5 [die] tag)) [.grant ⟨sec, die, none, [], [], tag, times.1, times.2, false, false, none⟩]))) ∧
    (∀ tag, monitored s sec = false → d.st = 5 → d.aux.toNat = tag → exec (.pjoin die sec tag) s0 =
      .next (ended (send (dirPut s sec (dirOf 5 (die :: hs.filter fun x => x ≠ die) tag))
        [.grant ⟨sec, die, none, [], [], tag, times.1, times.2, false, false, none⟩]))) ∧
    (∀ tag, monitored s sec = false → d.st = 5 → d.aux.toNat ≠ tag → exec (.pjoin die sec tag) s0 =
      .next (waits s ⟨3, die, tag⟩ hs false (hs.map fun x => .precall x sec))))

/-- R296, R297: the home takes what the dies send: an acknowledgement is gathered, the last one completes an upgrade; a
write-back reaches memory and its die leaves the directory; a dropped sharer leaves it. -/
def Obligations.HomeReplies : Prop :=
  (∀ s m b, m.bytes = none → busyOf s m.sec = some b → (∃ x ∈ b.awaited, x ≠ m.die) →
    exec (.ack m) s = .next (busyPut s m.sec (some { b with
      awaited := b.awaited.filter fun x => x ≠ m.die
      wts := max b.wts m.wts
      rts := max b.rts m.rts
      supplied := b.supplied || m.own
      dirty := b.dirty || m.dirty
      ctx := match b.ctx with | some c => some c | none => m.ctx
      partials := if m.parts = [] then b.partials else b.partials ++ [(m.die, m.parts, m.marks)] }))) ∧
  (∀ s m b, m.bytes = none → busyOf s m.sec = some b → b.sec = m.sec → (∀ x ∈ b.awaited, x = m.die) → b.req.kind = 2 →
    (dirSec s m.sec).st ≠ 5 → b.queue = [] →
    let s1 := homeTimesMax s m.sec (max b.wts m.wts) (max b.rts m.rts)
    let times := homeTimes s1 m.sec
    exec (.ack m) s = .next (busyPut (send (dirPut s1 m.sec (dirOf 3 [b.req.die] b.req.die))
      [.grant ⟨m.sec, b.req.die, none, [], [], 0, times.1, times.2, false, true, none⟩]) m.sec none)) ∧
  (∀ s m, m.bytes = none → busyOf s m.sec = none → exec (.ack m) s = .next (homeTimesMax s m.sec m.wts m.rts)) ∧
  (∀ s m x,
    let d := dirSec s m.sec
    m.bytes = some x → d.st = 2 ∨ d.st = 3 ∨ d.st = 4 → (d.aux.extractLsb' 0 2).toNat = m.die →
    exec (.wbm m) s = .next (dirPut (writeBackSector (homeTimesMax s m.sec m.wts m.rts) m.sec x m.ctx) m.sec
      (if d.st = 4 then dirOf 1 ((holdersOf d.holders).filter fun y => y ≠ m.die) 0 else dirIdle))) ∧
  (∀ s die sec,
    let d := dirSec s sec
    (d.st = 1 ∨ d.st = 2 → exec (.drop die sec) s =
      .next (dirPut s sec (dirOf 1 ((holdersOf d.holders).filter fun x => x ≠ die) 0))) ∧
    (d.st ≠ 1 → d.st ≠ 2 → exec (.drop die sec) s = .next s))

/-! Accesses performed. -/

/-- R140, R142, R143, R144, R261, R265, R308: an event waits for its thread's earlier ones, while `MATZ`, `ALQ` and `CFLUSH`
wait for none; a load takes its core's copy within the lease, its register image comes to the destination and its counter
falls; an `LD.S` takes a copy held when it issued, else what its turn at the home has brought, else it takes that turn; a
store takes the line its die owns in E or M, above every lease, byte by byte; a `RED` updates its die's partial one element
half a step, and no other message of its slice to the sector comes between. When an access is performed is the model's
choice within those rules (log 3). -/
def Obligations.AccessPerformed : Prop :=
  (∀ s a b l1 l2 l3, s.accs = l1 ++ b :: l2 ++ a :: l3 → (∀ x ∈ l1 ++ l2, x.id ≠ a.id) → b.id ≠ a.id → (∃ t ∈ b.owners, t ∈ a.owners) →
    anEvent a → anEvent b →
    exec (.loadReturn a.id) s = .next s ∧ exec (.accessAcknowledge a.id) s = .next s ∧ exec (.sliceRedUpdate a.id) s = .next s) ∧
  (∀ l a, a.kind = .matz ∨ a.kind = .alq ∨ (∃ inv peat, a.kind = .flush inv peat false) → performable l a = true) ∧
  (∀ s a b tag steps tag' rest pa n pb m, s.accs.find? (fun x => x.id = a.id) = some a → a.kind = .red tag steps false → b ∈ s.accs →
    b.id ≠ a.id → b.die = a.die → b.kind = .red tag' rest true → a.place = .phys [(pa, n)] → b.place = .phys [(pb, m)] →
    pa < pb + m → pb < pa + n → exec (.sliceRedUpdate a.id) s = .next s) ∧
  (∀ s a rest th sext pa n l p k lo len, Oldest s a rest th → a.kind = .load false false sext → oneSector a pa n →
    l1At (coreAt s a.die a.site) (pa / 64) = some l → l.own = false → th.ptime ≤ l.rts → l.wts ≤ l.rts →
    s.clk - l.granted < 128 * leaseOf s a.ctx → a.dest = .vec p k lo len → ∃ t, exec (.loadReturn a.id) s = .next t ∧ t.accs = rest ∧
      t.threads = s.threads.modify a.tid (fun th =>
        lowered a.ctr (setStacks { th with ptime := max th.ptime l.wts } p ((loaded (secGet l.bytes (pa % 64) n) sext).take k))) ∧
      t.mem = s.mem ∧ t.homes = s.homes ∧ t.dies = s.dies ∧ t.groups = s.groups) ∧
  (∀ s a rest th fresh stale sext r n k g, Oldest s a rest th → a.kind = .load fresh stale sext → a.place = .spad r n →
    spadReady s r n = true → a.dest = .uni g k 1 → ∃ t, exec (.loadReturn a.id) s = .next t ∧ t.accs = rest ∧
      t.groups = s.groups.modify g (fun x => { x with ks := setUnis x.ks k ((loaded (spadBytes s r n) sext).take 1) }) ∧
      t.mem = s.mem ∧ t.homes = s.homes ∧ t.dies = s.dies) ∧
  (∀ s a rest th sext pa n, Oldest s a rest th → a.kind = .load false false sext → oneSector a pa n →
    l1At (coreAt s a.die a.site) (pa / 64) = none → l2At s a.die (pa / 64) = none → requested s a.die (pa / 64) = false →
    l2CanAsk s a.die (pa / 64 / 4) = true → exec (.loadReturn a.id) s = .next { s with net := s.net ++ [.rds a.die (pa / 64)] }) ∧
  (∀ s a rest th sext pa n v l, Oldest s a rest th → a.kind = .load false true sext → oneSector a pa n →
    lookupNat a.copies (pa / 64) = some (v :: l) → ∃ x ∈ v :: l,
      exec (.loadReturn a.id) s = .next (endAccess (deliverTo { s with seed := s.seed + 1 } a.tid a.dest
        (loaded (secGet x (pa % 64) n) sext)) a)) ∧
  (∀ s a rest th sext pa n, Oldest s a rest th → a.kind = .load false true sext → oneSector a pa n →
    (lookupNat a.copies (pa / 64)).getD [] = [] →
    (∀ x, lookupNat a.peeked (pa / 64) = some x → exec (.loadReturn a.id) s =
      .next (endAccess (deliverTo s a.tid a.dest (loaded (secGet x (pa % 64) n) sext)) a)) ∧
    (lookupNat a.peeked (pa / 64) = none → queuedLoad s (pa / 64) a.id = false →
      exec (.loadReturn a.id) s = .next (homeRequest s (pa / 64) ⟨4, a.die, a.id⟩))) ∧
  (∀ s a rest th pa n x d, Oldest s a rest th → a.kind = .store → oneSector a pa n → a.bytes.length = n → a.writeBack = false → a.wholes = [] →
    noReed s → unowned s a.die (pa / 64) → (∀ c ∈ s.cores, c.die = a.die → ∀ y ∈ c.l1, y.sec ≠ pa / 64) →
    s.dies[a.die]? = some d → l2At s a.die (pa / 64) = some x → x.st = .e ∨ x.st = .m →
    ∃ t y, exec (.accessAcknowledge a.id) s = .next t ∧ l2At t a.die (pa / 64) = some y ∧
      (∀ i, i < 64 → secByte y.bytes i = if pa % 64 ≤ i ∧ i < pa % 64 + n then (a.bytes[i - pa % 64]?).getD 0 else secByte x.bytes i) ∧
      y.st = .m ∧ y.wts = max th.ptime (x.rts + 1) ∧ y.rts = y.wts ∧ (∀ sec, sec ≠ pa / 64 → l2At t a.die sec = l2At s a.die sec) ∧
      t.threads = s.threads.modify a.tid (fun th => lowered a.ctr { th with ptime := max th.ptime y.wts }) ∧
      t.accs = rest ∧ t.mem = s.mem ∧ t.homes = s.homes) ∧
  (∀ s a rest th pa n, Oldest s a rest th → a.kind = .store → oneSector a pa n → l1At (coreAt s a.die a.site) (pa / 64) = none →
    l2At s a.die (pa / 64) = none → requested s a.die (pa / 64) = false → l2CanAsk s a.die (pa / 64 / 4) = true →
    exec (.accessAcknowledge a.id) s = .next { s with net := s.net ++ [.rdx a.die (pa / 64)] }) ∧
  (∀ s a rest th op ty, Oldest s a rest th → a.kind = .atom op ty →
    let pa := placeAddr a.place
    let rd := readBytesNow s pa a.size (some a.ctx) th.ptime
    let old : DWord := BitVec.ofNat 64 (valueOf rd.2.1)
    let wr := writeBytesNow rd.1 pa (bytesOf a.size (atomOp op ty old a.cmp).toNat) (some a.ctx) rd.2.2
    exec (.accessAcknowledge a.id) s = .next (endAccess (deliverTo (raisePtime (refreshL1 wr.1 a.die a.site (pa / 64) wr.2) a.tid wr.2)
      a.tid a.dest (regsBy (decide (a.size = 8)) old)) a)) ∧
  (∀ s a rest th w, Oldest s a rest th → a.kind = .acas w →
    let pa := placeAddr a.place
    let rd := readBytesNow s pa a.size (some a.ctx) th.ptime
    let old : DWord := BitVec.ofNat 64 (valueOf rd.2.1)
    old.toNat ≠ a.cmp.toNat % 2 ^ (8 * w) →
    exec (.accessAcknowledge a.id) s = .next (endAccess (deliverTo (raisePtime rd.1 a.tid rd.2.2)
      a.tid a.dest (regsBy (decide (a.size = 8)) old)) a)) ∧
  (∀ s a rest th tag e h u r begun x, Oldest s a rest th → a.kind = .red tag ((e, h, u) :: r) begun → a.ms = false →
    let sec := placeAddr a.place / 64
    sec * 64 < dramEnd → monitored s sec = false → l2At s a.die sec = some x → x.st = .p → x.tag = tag →
    let y := stepPartial tag x.partials x.touched e h u
    let ts := max th.ptime (x.rts + 1)
    ∃ t, exec (.sliceRedUpdate a.id) s = .next t ∧
      t.dies = (l2Mod s a.die { x with partials := y.1, touched := y.2, wts := ts, rts := ts, used := s.clk, ctx := some a.ctx }).dies ∧
      t.threads = s.threads.modify a.tid (fun th => { th with ptime := max th.ptime ts }) ∧
      (∃ b ∈ t.accs, b.id = a.id ∧ b.kind = if r = [] then .done else .red tag r true) ∧ t.mem = s.mem ∧ t.homes = s.homes) ∧
  (∀ s a rest th tag e h u r begun, Oldest s a rest th → a.kind = .red tag ((e, h, u) :: r) begun → a.ms = false →
    let sec := placeAddr a.place / 64
    sec * 64 < dramEnd → monitored s sec = false → l2At s a.die sec = none → requested s a.die sec = false → l2CanAsk s a.die (sec / 4) = true →
    exec (.sliceRedUpdate a.id) s = .next { s with net := s.net ++ [.pjoin a.die sec tag] })

/-! Copies. -/

/-- R153, R154, R281, R282: a recorded copy prepares its homes, takes one timestamp, and writes its entries; a home that
cannot take them, or stands above 7/8 occupancy, makes it eager; one that meets a lock waits. An operation that waits takes
every lock it needs at once, behind its thread's earlier accesses, and meets no other; an eager copy reads its source, writes its destination as one event, frees its locks and
lowers cp. -/
def Obligations.CopyEvents : Prop :=
  (∀ s a rest th xf n ds srcs lbc points pcs, Oldest s a rest th → a.kind = .copy xf ds.length n lbc points → xf ≠ 30 →
    a.place = .phys (ds ++ srcs) → lbc.length = srcs.length →
    let ss := (srcs.zip lbc).map fun p => (p.1.1, p.1.2, p.2)
    let c := composeAll ds ((pieceSectors srcs).foldl (fun s sec => cleanSource s a.ctx sec) s) pcs
    copyPieces xf (n / 16 + (ds ++ srcs).length + 1) (joinRuns (ds.map fun p => (p.1, p.2, false))) (joinRuns ss) = some pcs →
    (reedOver c.1 c.2 = none → reedFull c.1 c.2 = none →
      let dsec := pieceSectors ds
      let ts := (pieceSectors srcs).foldl (fun t sec => max t (homeTimes c.1 sec).1)
        (dsec.foldl (fun t sec => max t (writeStamp c.1 sec th.ptime)) th.ptime)
      let s1 := retagAll c.1 (pieceWholes ds) a.keys
      let s2 := dsec.foldl (fun s sec => prepareMask (mergeMs (exclude s sec) sec 0 64 (some a.ctx)) sec (coverMask [.phys ds] sec)) s1
      let id := ((s2.contexts[a.ctx]?).map (·.ctxid)).getD 0
      let s3 := watchOccupancy { s2 with homes := s2.homes.mapIdx fun i h => { h with
        aliases := h.aliases ++ c.2.filterMap fun p => if (homesOfRun p.dst p.len).contains i then
          some ⟨ts, id, 0, p.xf1, p.xf0, p.src / 16, p.dst / 16, p.len / 16, p.lbc, p.src % 16⟩ else none
        watches := h.watches ++ c.2.flatMap fun p =>
          let k := xf2SrcLen p.xf0 p.xf1 p.len
          if (homesOfRun p.src k).contains i then (homesOfRun p.dst p.len).map fun d => ⟨p.src / 16, d, (p.src % 16 + k + 15) / 16⟩
          else [] } }
      let s4 := dsec.foldl (fun s sec => wakeMonitors (homeTimesPut s sec ts ts) sec) s3
      let s5 := (pieceSectors srcs).foldl (fun s sec => homeTimesMax s sec 0 ts) s4
      let s6 := dsec.foldl (fun s sec => refreshL1 s a.die a.site sec ts) s5
      exec (.copyCommit a.id) s = .next (endAccess (raisePtime s6 a.tid ts) a)) ∧
    (∀ h, reedOver c.1 c.2 = none → reedFull c.1 c.2 = some h →
      exec (.copyCommit a.id) s = .next (copyTurnsEager (countEager s h true) a xf n ds ss)) ∧
    (∀ h, reedOver c.1 c.2 = some h → exec (.copyCommit a.id) s = .next (copyTurnsEager (countEager s h false) a xf n ds ss))) ∧
  (∀ s a xf nd n lbc points ps k, s.accs.find? (fun x => x.id = a.id) = some a → a.kind = .copy xf nd n lbc points →
    a.node = none → a.place = .phys ps → k ∈ lockHit s ps → k.owner ≠ some a.tid → fallbackLock s (some a.tid) ≠ some k.op →
    exec (.copyCommit a.id) s = .next s) ∧
  (∀ s e, s.engines.find? (fun x => x.id = e.id) = some e → e.locked = false → e.engine ≠ 9 → e.node = none →
    e.ranges.length ≤ 256 → (∀ h ∈ s.homes, h.locks = []) →
    (∀ a ∈ s.accs, e.tid ∉ a.owners ∧ ∀ p ∈ accessPieces a, ∀ r ∈ e.ranges, p.1 + p.2 ≤ r.1 ∨ r.2 < p.1) →
    (∀ x ∈ s.engines, x.locked = true ∨ x.node ≠ none ∨ x.tid ≠ e.tid ∧ x.issue ≠ e.issue ∨ e.id ≤ x.id) →
    exec (.rangeLockGrant e.id) s = .next { s with
      homes := s.homes.mapIdx fun i h => { h with locks := (e.ranges.filter fun r => (homesOfRun r.1 (r.2 + 1 - r.1)).contains i).map fun r =>
        (⟨e.id, r.1, r.2, if e.engine = 8 then some e.tid else none⟩ : RangeLock) }
      engines := s.engines.map fun x => if x.id = e.id then
        { e with locked := true, ts := max e.ts (((s.threads[e.tid]?).map (·.ptime)).getD 0) } else x }) ∧
  (∀ s e k, s.engines.find? (fun x => x.id = e.id) = some e → e.locked = false → e.node = none →
    k ∈ lockHit s (e.ranges.map fun r => (r.1, r.2 + 1 - r.1)) → fallbackLock s (some e.tid) ≠ some k.op →
    exec (.rangeLockGrant e.id) s = .next s) ∧
  (∀ s e a, s.engines.find? (fun x => x.id = e.id) = some e → e.locked = false → e.node = none → a ∈ s.accs → anEvent a →
    a.id < e.id → e.tid ∈ a.owners → exec (.rangeLockGrant e.id) s = .next s) ∧
  (∀ s e, s.engines.find? (fun x => x.id = e.id) = some e → e.locked = true → e.engine = 8 → e.node = none → e.xf = 0 →
    let bs := e.srcs.flatMap fun p => if p.2.2 = true then lbcBytes s p.1 p.2.1 else currentBytes s p.1 p.2.1
    bs.length % 16 = 0 →
    let rd := touchPieces s (e.srcs.map fun p => (p.1, p.2.1)) (some e.ctx) e.ts
    let wr := writePieces (retagAll rd.1 (pieceWholes e.dsts) e.keys) e.dsts bs (some e.ctx) rd.2
    let s2 : State := { wr.1 with
      engines := wr.1.engines.filter fun x => x.id ≠ e.id
      homes := wr.1.homes.map fun h => { h with locks := h.locks.filter fun k => k.op ≠ e.id } }
    exec (.eagerCopyComplete e.id) s = .next (raiseFences { s2 with
      threads := s2.threads.modify e.tid fun th => lowered e.ctr { th with ptime := max th.ptime wr.2 } } e.id e.tid)) ∧
  (∀ s e, s.engines.find? (fun x => x.id = e.id) = some e → e.locked = false → exec (.eagerCopyComplete e.id) s = .next s)

/-! The Reed tables. -/

/-- R283, R284, R286, R287, R290: a source block's line is read at its home; a destination home writes the old bytes into
the grains that read them and drops their entries; source homes free what no entry reads; hot and drained entries are
materialised. -/
def Obligations.ReedEvents : Prop :=
  (∀ s home sec h, sec * 64 < dramEnd → s.homes[homeOf (sec * 64)]? = some h → (∀ w ∈ h.wc, w.line ≠ sec / 4) →
    (∃ p ∈ h.peat, p.line = sec / 4) → (∀ c ∈ s.contexts, c.windows = []) →
    exec (.sourceBlockRead home sec) s = .next { s with homes := s.homes.set (homeOf (sec * 64)) { h with
      peatHits := h.peatHits + 1
      peat := h.peat.map fun p => if p.line = sec / 4 then { p with used := s.clk } else p } }) ∧
  (∀ s dhome h e, s.homes[dhome]? = some h → h.aliases = [e] → h.watches.length ≤ 28672 → oneGrain e → homeOf (e.dst * 16) = dhome →
    exec (.dhomeMaterialise dhome e.src) s = .next (grainOut s dhome e)) ∧
  (∀ s dhome g h, s.homes[dhome]? = some h → (∀ e ∈ h.aliases, entryReads e g 1 = false) →
    exec (.dhomeMaterialise dhome g) s = .next s) ∧
  (∀ s home g n h, s.homes[home]? = some h →
    exec (.aliasReleaseNotice home g n) s = .next { s with homes := s.homes.map fun k => { k with
      watches := k.watches.filter fun w =>
        decide (w.dhome ≠ home) || decide (g + n ≤ w.src) || decide (w.src + w.len ≤ g) || h.aliases.any fun e => entryReads e w.src w.len } }) ∧
  (∀ s home h e, s.homes[home]? = some h → h.aliases = [e] → oneGrain e → homeOf (e.dst * 16) = home →
    let t := grainOut s home e
    exec (.hotMaterialise home e.dst) s = .next { t with homes := t.homes.modify home fun h => { h with hot := h.hot + 1 } }) ∧
  (∀ s home g h, s.homes[home]? = some h → (∀ e ∈ h.aliases, g < e.dst ∨ e.dst + e.len ≤ g) → exec (.hotMaterialise home g) s = .next s) ∧
  (∀ s home h e, s.homes[home]? = some h → h.draining = true → h.drainWatch = false → 24576 < h.aliases.length → e ∈ h.aliases →
    (∀ x ∈ h.aliases, x ≠ e → e.wts < x.wts) → oneGrain e → homeOf (e.dst * 16) = home →
    let t := grainOut s home e
    exec (.backgroundMaterialiser home) s = .next { t with
      homes := t.homes.modify home fun h => { h with drained := h.drained + 1, draining := true, drainWatch := false }
      net := t.net ++ [.backgroundMaterialiser home] }) ∧
  (∀ s home h, s.homes[home]? = some h → h.aliases.length ≤ 24576 → h.watches.length ≤ 24576 →
    exec (.backgroundMaterialiser home) s =
      .next { s with homes := s.homes.modify home fun h => { h with draining := false, drainWatch := false } })

/-! The tile engine and the spill unit. -/

/-- R15, R179, R180, R182, R186 to R188, R191: an operation starts behind the ones it clashes with, reads its sectors one
event each, waits at a lock, and leaves its result in its entry, whose state becomes ready; its signers' tl falls. -/
def Obligations.TileOperations : Prop :=
  (∀ s die site o c t, coreAt s die site = c → c.ops = [o] → o.started = false → o.held = false → o.opc = 0xD4 → o.tensor = none →
    o.form.a.toNat < 16 → c.accs[o.form.a.toNat]? = some t → t.claim = some o.team →
    ∃ u, exec (.tileOperationIssue die site o.id) s = .next u ∧
      coreAt u die site = { c with ops := [{ o with started := true }], accs := c.accs.set o.form.a.toNat { t with state := .filling } } ∧
      u.threads = s.threads ∧ u.mem = s.mem ∧ u.homes = s.homes) ∧
  (∀ s die site o c x t, coreAt s die site = c → c.ops = [o] → o.started = false → o.held = false → o.opc = 0xD2 →
    o.form.mod.getLsbD 1 = false → o.tensor = some x → o.form.a.toNat < 64 → c.slots[o.form.a.toNat]? = some t → t.claim = some o.team →
    ∃ u, exec (.tileOperationIssue die site o.id) s = .next u ∧
      coreAt u die site = { c with
        ops := [{ o with started := true, todo := touchedBlocks 64 (windowRanges x o.cval (shapeOf x o.cval)) }]
        slots := c.slots.set o.form.a.toNat { t with state := .filling } } ∧
      u.threads = s.threads ∧ u.mem = s.mem ∧ u.homes = s.homes) ∧
  (∀ s die site o p c, coreAt s die site = c → c.ops = [p, o] → p.id ≠ o.id → o.started = false → opTarget p = opTarget o →
    exec (.tileOperationIssue die site o.id) s = .next s) ∧
  (∀ s die site o c v rest pa key, coreAt s die site = c → c.ops = [o] → o.started = true → o.todo = v :: rest →
    opXlat o (v * 64) = (pa, key, false) →
    (lockHit s [(pa, 64)] = [] →
      let rd := readNow s (pa / 64) (some o.ctx) o.ts
      let bad := (pa / 64 :: sourceSectors s (pa / 64)).any fun x => (readMark s 0 x key).isSome
      exec (.tileOperationIssue die site o.id) s = .next (putTileOp rd.1 die site
        { o with todo := rest, secs := (v, rd.2.1, bad) :: o.secs, ts := max o.ts rd.2.2 })) ∧
    (∀ k ∈ lockHit s [(pa, 64)], fallbackLock s (opMember o) ≠ some k.op → exec (.tileOperationIssue die site o.id) s = .next s)) ∧
  (∀ s die site o c t g th, coreAt s die site = c → c.ops = [o] → o.started = true → o.todo = [] → o.writes = [] → o.signers = [g] →
    s.threads[g.tid]? = some th → teamGone s o.team = false → g.tid ∈ teamThreads s o.team → th.exited = false →
    o.opc = 0xD4 → o.form.a.toNat < 16 → c.accs[o.form.a.toNat]? = some t → t.claim = some o.team →
    ∃ u, exec (.tileOperationComplete die site o.id) s = .next u ∧
      coreAt u die site = { c with ops := [], accs := c.accs.set o.form.a.toNat { t with
        elems := List.replicate 16384 0, poisoned := false, damaged := false, state := .ready, ts := max t.ts o.ts } } ∧
      u.threads = s.threads.modify g.tid (fun th => { th with ptime := max th.ptime o.ts, tl := th.tl - 1 }) ∧
      u.mem = s.mem ∧ u.homes = s.homes) ∧
  (∀ s die site o c t a b g th, coreAt s die site = c → c.ops = [o] → o.started = true → o.todo = [] → o.writes = [] → o.signers = [g] →
    s.threads[g.tid]? = some th → teamGone s o.team = false → g.tid ∈ teamThreads s o.team → th.exited = false →
    o.opc = 0xD5 → o.form.a.toNat < 16 → c.accs[o.form.a.toNat]? = some t → t.claim = some o.team → c.slots[o.form.b.toNat]? = some a →
    c.slots[o.form.c.toNat]? = some b → a.banks = 0 → b.banks = 0 → o.bankErrors = [] → o.rowErrors = [] →
    ∃ u, exec (.tileOperationComplete die site o.id) s = .next u ∧
      coreAt u die site = { c with ops := [], accs := c.accs.set o.form.a.toNat { t with
        elems := productElems o a b t.elems, damaged := t.damaged || a.damaged || b.damaged, state := .ready, ts := max t.ts o.ts } } ∧
      u.threads = s.threads.modify g.tid (fun th => { th with ptime := max th.ptime o.ts, tl := th.tl - 1 }) ∧
      u.mem = s.mem ∧ u.homes = s.homes) ∧
  (∀ s die site o, tileOp s die site o.id = some o → o.started = false → exec (.tileOperationComplete die site o.id) s = .next s)

/-- R18, R27, R219, R232: SPILL writes the fewest bottom frames of the resident run to the backing store, FILL brings the
frames back down to the one named, and the thread replays its instruction; while its accesses are outstanding, or behind
a lock of its own copy, it waits; a fault is taken at the waiting instruction. -/
def Obligations.WindowUnit : Prop :=
  (∀ s t th n s1, s.threads[t]? = some th → th.wait = .spill n → windowReady s t th = true →
    let ds := spillDepths s t n th
    spillFrames t ds s = (s1, none) →
    exec (.spill t) s = .next { s1 with threads := s1.threads.modify t fun th =>
      { th with resident := th.resident + ds.length, wait := .ready, age := s1.clk + 1, promoted := false } }) ∧
  (∀ s t th n s1 i u, s.threads[t]? = some th → th.wait = .spill n → windowReady s t th = true →
    spillFrames t (spillDepths s t n th) s = (s1, some (.trap i)) → s1.threads[t]? = some u →
    exec (.spill t) s = .next (takeTraps (holdAt s1 t .ready) [waitingReq s1 t u i])) ∧
  (∀ s t th n s1 w, s.threads[t]? = some th → th.wait = .spill n → windowReady s t th = true →
    spillFrames t (spillDepths s t n th) s = (s1, some (.hold w)) → exec (.spill t) s = .next s) ∧
  (∀ s t th d w, s.threads[t]? = some th → th.wait = .fill d → windowReady s t th = true →
    fillDown t (th.resident + 1) d s = .error (.hold w) → exec (.fill t) s = .next s) ∧
  (∀ s t th d i, s.threads[t]? = some th → th.wait = .fill d → windowReady s t th = true →
    fillDown t (th.resident + 1) d s = .error (.trap i) →
    exec (.fill t) s = .next (takeTraps (holdAt s t .ready) [waitingReq s t th i])) ∧
  (∀ s t th d s1, s.threads[t]? = some th → th.wait = .fill d → windowReady s t th = true →
    fillDown t (th.resident + 1) d s = .ok s1 →
    exec (.fill t) s = .next { s1 with threads := s1.threads.modify t fun th =>
      { th with wait := .ready, age := s1.clk + 1, promoted := false } }) ∧
  (∀ s t th, s.threads[t]? = some th → windowReady s t th = false → exec (.spill t) s = .next s ∧ exec (.fill t) s = .next s) ∧
  (∀ th w q n, spillCount th w q n ≤ depthOf th + 1 - th.resident ∧
    (∀ k, k < spillCount th w q n → q < th.wb + w - baseAt th (th.resident + k) + n)) ∧
  (∀ fr, fr.slide < 1024 → (∀ l, fr.loop = some l → l.version = 0) → frameOfBytes (frameBytes fr) = fr)

/-! The engines' work. -/

/-- R53, R189, R199, R200, R201, R337 to R339, R374, R375: the Sluice functions: elements converted one by one, the fill value,
rows by index, one out of range as the source's fill value, half the elements of each group of four with their metadata, a routine whose image verifies. The decoder's:
the lowest free session, a frame's status, a session's end. The security block's: a hash, a report, an extended measurement.
The order of the stochastic generator's numbers and the status of a session that is not open are the model's choices (logs
54 and 57). -/
def Obligations.EngineWork : Prop :=
  (∀ s e m d n a, Working s e 0 0 → e.tensors = [(m, d), (n, a)] → d.fmt = a.fmt → bodyWord e 0x10 / 2 ^ 16 % 8 ≠ 6 →
    exec (.slCopy e.id) s = .next (withEngine s (withResult e
      (placeElems d ((allCoords a).map fun xy => (xy, snapElem e a xy))) (allCoords a).length))) ∧
  (∀ s e m d n a, Working s e 0 0 → e.tensors = [(m, d), (n, a)] → bodyWord e 0x10 / 2 ^ 16 % 8 ≠ 6 →
    exec (.slCopy e.id) s = .next (withEngine s (withResult e
      (placeElems d ((allCoords a).map fun xy =>
        (xy, gridElem d.fmt a.fmt (rndOf (BitVec.ofNat 3 (bodyWord e 0x10 / 2 ^ 16)) e.rm 0) (snapElem e a xy)))) (allCoords a).length))) ∧
  (∀ s e m d, Working s e 0 1 → e.tensors = [(m, d)] →
    exec (.slFill e.id) s = .next (withEngine s (withResult e
      (placeElems d ((allCoords d).map fun xy => (xy, d.fill.toNat % 2 ^ elemBits d))) (allCoords d).length))) ∧
  (∀ s e m d n a k i, Working s e 0 2 → e.tensors = [(m, d), (n, a), (k, i)] →
    let src (xy : List Int) : List Int := xy.set 1 (snapElem e i [(xy[1]?).getD 0] : Int)
    (e.stage = 0 → exec (.slGather e.id) s = .next (withEngine s { e with
      stage := 1
      todo := (coordSectors a (((allCoords d).map src).filter (inBounds a))).filter fun v => (lookupNat e.snap v).isNone })) ∧
    (e.stage ≠ 0 → exec (.slGather e.id) s = .next (withEngine s (withResult e
      (placeElems d ((allCoords d).map fun xy => (xy, gridElem d.fmt a.fmt .rne (if inBounds a (src xy) = true then snapElem e a (src xy)
        else a.fill.toNat % 2 ^ elemBits a)))) (extentOf d 1))))) ∧
  (∀ s e m d n a, Working s e 0 3 → e.tensors = [(m, d), (n, a)] →
    let val (xy : List Int) (k : Nat) : Val := typeVal a.fmt false (BitVec.ofNat 64 (snapElem e a ((k : Int) :: xy)))
    let rows := (allCoords { a with sizes := a.sizes.set 0 1 }).map fun xy => xy.drop 1
    let keep (xy : List Int) (g : Nat) : Nat × Nat := sparseKeep fun i => val xy (4 * g + i)
    let els := rows.flatMap fun xy => (List.range (extentOf a 0 / 4)).flatMap fun g =>
      [((((2 * g : Nat) : Int) :: xy), snapElem e a (((4 * g + (keep xy g).1 : Nat) : Int) :: xy)),
       ((((2 * g + 1 : Nat) : Int) :: xy), snapElem e a (((4 * g + (keep xy g).2 : Nat) : Int) :: xy))]
    ∃ entries, exec (.slSparse e.id) s = .next (withEngine s { e with
        stage := 2, swrites := toPhysical e (placeElems d els), pushes := entries, reply := entries.length
        status := if entries = [] then some 0 else none }) ∧
      entries.length = ((rows.map fun xy => xy.drop 1).dedup).length * ((extentOf a 1 + 127) / 128) * (extentOf a 0 / 32) ∧
      ∀ x ∈ entries, x.length = 512) ∧
  (∀ s e, Working s e 0 4 → let img := snapBytes e (bodyWord e 0x10) (bodyWord e 0x18)
    exec (.slLoad e.id) s = .next (if imageOk 5 img = true then withEngine { s with
        routines := insertNat s.routines (bodyWord e 0x20 % 256) img
        measures := s.measures.modify 4 fun m => extendMeasure m img } (withResult e [] 0)
      else withEngine s { e with status := some 4 })) ∧
  (∀ s e n, Working s e 1 0 → n < 64 → (∀ x ∈ s.sessions, ¬ (x.decoder = e.unit ∧ x.num = n)) →
    (∀ k, k < n → ∃ x ∈ s.sessions, x.decoder = e.unit ∧ x.num = k) →
    exec (.fdOpen e.id) s = .next (withEngine { s with sessions := s.sessions ++
      [⟨e.unit, n, e.ctx, BitVec.ofNat 64 (bodyWord e 0x10), BitVec.ofNat 64 (bodyWord e 0x18), [], false⟩] } (withResult e [] n))) ∧
  (∀ s e, Working s e 1 0 → (∀ k, k < 64 → ∃ x ∈ s.sessions, x.decoder = e.unit ∧ x.num = k) →
    exec (.fdOpen e.id) s = .next (withEngine s (withResult e [] 0xFFFFFFFF))) ∧
  (∀ s e, Working s e 1 2 → exec (.fdClose e.id) s = .next (withEngine { s with
    sessions := s.sessions.filter fun x => !decide (x.decoder = e.unit ∧ x.num = bodyWord e 0x10 % 64 ∧ x.ctx = e.ctx) } (withResult e [] 0))) ∧
  (∀ s e, Working s e 1 1 → (∀ x ∈ s.sessions, ¬ (x.decoder = e.unit ∧ x.num = bodyWord e 0x10 % 64 ∧ x.ctx = e.ctx)) →
    exec (.fdFrame e.id) s = .next (withEngine s { e with status := some 1 })) ∧
  (∀ s e x, Working s e 1 1 → sessionOf s e.unit (bodyWord e 0x10 % 64) e.ctx = some x →
    let u := snapBytes e (bodyWord e 0x18) (bodyWord e 0x20)
    let s1 : State := { s with sessions := s.sessions.map fun y =>
      if y.decoder = x.decoder ∧ y.num = x.num then { x with units := x.units ++ [u], damaged := unitDamaged x u || (x.damaged && !Config.av1KeyRefresh u) }
      else y }
    let dam := unitDamaged x u
    let o : FrameOpts := ⟨decide (bodyWord e 0x10 / 2 ^ 9 % 2 = 1), decide (bodyWord e 0x10 / 2 ^ 10 % 2 = 1), bodyWord e 0x28 / 2 ^ 32 % 65536,
      bodyWord e 0x28 / 2 ^ 48, bodyWord e 0x30 % 65536, bodyWord e 0x30 / 65536 % 65536⟩
    let s2 := statusBit s1 e (bodyWord e 0x38 % 2 ^ 48) (bodyWord e 0x38 / 2 ^ 48) (dam && Config.av1Shown x.units u)
    exec (.fdFrame e.id) s = .next (
      if dam = true ∧ bodyWord e 0x10 / 2 ^ 8 % 2 = 1 then withEngine s1 { e with status := some 3 }
      else if Config.av1Shown x.units u = false then withEngine s2 (withResult e [] 0)
      else if slotTarget e.desc = true then withEngine s2 (withResult { e with slotNew := some (slotFrame x.units u o dam) } [] 1)
      else withEngine s2 (withResult e (placePlanes ((planeNames (bodyWord e 0x28 % 2 ^ 24)).filterMap fun p =>
        (lookupNat e.tensors p.2).map fun z => (z, planeElems x.units u o dam p.1 z [0, 0, 0]))) 1))) ∧
  (∀ s e, Working s e 2 0 →
    let bs := shake256 (snapBytes e (bodyWord e 0x10) (bodyWord e 0x18)) (bodyWord e 0x28)
    exec (.sbHash e.id) s = .next (withEngine s (withResult e (scatter [] (bodyWord e 0x20) bs) (bodyWord e 0x28)))) ∧
  (∀ s e, Working s e 2 1 →
    (bodyWord e 0x20 < 30944 → exec (.sbReport e.id) s = .next (withEngine s { e with status := some 1 })) ∧
    (30944 ≤ bodyWord e 0x20 →
      let head := bytesOf 8 1
        ++ bytesOf 8 ((s.node.getD 0) % 1024 + 2 ^ 16 * ((s.contexts[e.ctx]?).map (·.ctxid)).getD 0)
        ++ bytesOf 8 s.clk ++ bytesOf 8 0 ++ snapBytes e (bodyWord e 0x10) 32 ++ (List.range 64).map Config.identityKey
        ++ (s.measures.take 16).flatten
      exec (.sbReport e.id) s = .next (withEngine s (withResult e
        (scatter [] (bodyWord e 0x18) (head ++ (List.range 29792).map (Config.reportSignature head))) 30944)))) ∧
  (∀ s e, Working s e 2 2 →
    (bodyWord e 0x20 % 16 < 5 → exec (.sbExtend e.id) s = .next (withEngine s { e with status := some 1 })) ∧
    (5 ≤ bodyWord e 0x20 % 16 → exec (.sbExtend e.id) s = .next (withEngine { s with
      measures := s.measures.modify (bodyWord e 0x20 % 16) fun m => extendMeasure m (snapBytes e (bodyWord e 0x10) (bodyWord e 0x18)) }
      (withResult e [] 0))))

/-- R154, R198, R275: an engine operation that has not been launched does nothing; when it completes, its writes land as one event on
status 0 and nothing lands on any other, its locks are freed, its status byte is stored, its reply is delivered and cp
falls. That the reply of a failed command is 0 is the model's choice (log 61). -/
def Obligations.EngineCompletion : Prop :=
  (∀ s e, s.engines.find? (fun x => x.id = e.id) = some e → engineReady s e = false →
    exec (.slCopy e.id) s = .next s ∧ exec (.slFill e.id) s = .next s ∧ exec (.slGather e.id) s = .next s ∧
    exec (.slSparse e.id) s = .next s ∧ exec (.slLoad e.id) s = .next s ∧ exec (.fdOpen e.id) s = .next s ∧
    exec (.fdFrame e.id) s = .next s ∧ exec (.fdClose e.id) s = .next s ∧ exec (.sbHash e.id) s = .next s ∧
    exec (.sbReport e.id) s = .next s ∧ exec (.sbExtend e.id) s = .next s) ∧
  (∀ s e st, s.engines.find? (fun x => x.id = e.id) = some e → e.status = some st → e.engine ≤ 2 → e.fn ≠ 16 → e.node = none →
    e.slot = none → descWord e.desc 0 / 2 ^ 16 % 2 = 0 → frameWaits s e = false →
    (st = 0 → ∀ p ∈ e.swrites, writeMark s 0 p.1 (destKey e p.1) (decide (p.2.2 = ~~~ 0#64)) = none) →
    let s1 : State := { s with engines := s.engines.filter fun x => x.id ≠ e.id }
    let w : State × Nat := if st = 0 then landWrites s1 e else (s1, e.ts)
    let s2 : State := { w.1 with homes := w.1.homes.map fun h => { h with locks := h.locks.filter fun k => k.op ≠ e.id } }
    let s3 := descStore (raisePtime s2 e.tid w.2) e.tid e.ctx e.descSpad e.descVa 0 [BitVec.ofNat 8 st]
    let s4 := deliverTo s3 e.tid e.dest [BitVec.ofNat 32 (if st = 0 then e.reply else 0)]
    exec (.engineOperationComplete e.id) s = .next (raiseFences { s4 with
      threads := s4.threads.modify e.tid (lowered e.ctr) } e.id e.tid)) ∧
  (∀ s e st, s.engines.find? (fun x => x.id = e.id) = some e → e.status = some st → e.engine ≤ 2 → e.fn ≠ 16 →
    frameWaits s e = true → exec (.engineOperationComplete e.id) s = .next s) ∧
  (∀ s e, s.engines.find? (fun x => x.id = e.id) = some e → e.status = none → exec (.engineOperationComplete e.id) s = .next s)

/-! Dispatch. -/

/-- R220 to R226, R328: a die's pull takes its next ticket and admits the cluster on the rectangle that R222 chooses; a die
without tickets steals an eighth of the fullest range; the dispatcher hands batches out in push mode, and a cluster that
finds no room goes back with its batch. -/
def Obligations.TicketEvents : Prop :=
  (∀ s die grid gr next stop origin s1, s.grids[grid]? = some gr → canTake s die grid = some origin →
    gr.tickets[die]? = some (next, stop) → next < stop → admitCluster s grid next die origin = some s1 →
    exec (.ticketPull die grid) s = .next { s1 with grids := s1.grids.modify grid fun x => { x with
      tickets := x.tickets.set die (next + 1, stop) } }) ∧
  (∀ s die grid, canTake s die grid = none → exec (.ticketPull die grid) s = .next s ∧ exec (.steal die grid) s = .next s) ∧
  (∀ s die grid gr a, s.grids[grid]? = some gr → gr.tickets[die]? = some (a, a) → exec (.ticketPull die grid) s = .next s) ∧
  (∀ s die grid gr origin a i next stop, s.grids[grid]? = some gr → canTake s die grid = some origin → gr.tickets[die]? = some (a, a) →
    1 ≤ i → i ≤ 3 → gr.tickets[(die + i) % 4]? = some (next, stop) → next < stop →
    (∀ j, 1 ≤ j → j ≤ 3 → (j < i → ticketsLeft gr ((die + j) % 4) < stop - next) ∧ (i < j → ticketsLeft gr ((die + j) % 4) ≤ stop - next)) →
    let k := max 1 ((stop - next) / 8)
    exec (.steal die grid) s = .next { s with grids := s.grids.modify grid fun x => { x with
      tickets := (x.tickets.set ((die + i) % 4) (next, stop - k)).set die (stop - k, stop) } }) ∧
  (∀ s die grid gr, s.grids[grid]? = some gr → admits s gr = true → gr.bringDie = none → (∀ p ∈ gr.pushed, p.1 ≠ die) → gr.returned = [] →
    let k := min (min 64 (freeRecords s die false) / (gr.launch.width * gr.launch.height)) (gr.central.2 - gr.central.1)
    exec (.pushBatch grid die) s = .next { s with grids := s.grids.set grid { gr with
      pushed := gr.pushed ++ (List.range k).map fun i => (die, gr.central.1 + i)
      central := (gr.central.1 + k, gr.central.2) } }) ∧
  (∀ s die grid gr p, s.grids[grid]? = some gr → p ∈ gr.pushed → p.1 = die → exec (.pushBatch grid die) s = .next s) ∧
  (∀ s die grid gr ticket origin s1, s.grids[grid]? = some gr → (die, ticket) ∈ gr.pushed → canTake s die grid = some origin →
    admitCluster s grid ticket die origin = some s1 →
    exec (.teamAdmit grid ticket die origin) s = .next { s1 with grids := s1.grids.modify grid fun x => { x with
      pushed := x.pushed.filter fun p => p ≠ (die, ticket) } }) ∧
  (∀ s die grid gr ticket origin, s.grids[grid]? = some gr → gr.pushed = [(die, ticket)] → gr.returned = [] → canTake s die grid = none →
    exec (.teamAdmit grid ticket die origin) s = .next { s with grids := s.grids.modify grid fun x => { x with
      pushed := [], returned := [ticket] } })

/-- R184, R227, R230, R241, R349, R350: a team whose threads have all exited, and whose operations are performed, frees
what it holds, and the last of a grid's completes its node; a cluster that waits long in `WAITC` is swapped out with the
sectors it watches, each read once more, and a saved one is restored onto the first die with room. -/
def Obligations.TeamEvents : Prop :=
  (∀ s m t gr, s.teams[m]? = some t → t.phase = .resident → liveThreads s m = [] → teamQuiet s m = true → s.grids[t.grid]? = some gr →
    let s1 := modCore { s with teams := s.teams.modify m fun x => { x with phase := .complete } } t.die t.site fun c =>
      { releaseClaims c m with frames := c.frames.filter fun f => f.team ≠ m }
    let s2 := t.groups.foldl (fun s g => { s with groups := s.groups.modify g fun x => { x with freed := true } }) s1
    (gr.node = none → 1 < gr.remaining → exec (.teamComplete m) s = .next { s2 with
      grids := s2.grids.modify t.grid fun x => { x with remaining := gr.remaining - 1 } }) ∧
    (∀ g n, gr.node = some (g, n) → gr.remaining = 1 →
      let s3 := noteNode s2 g n (teamTime s2 m)
      exec (.teamComplete m) s = .next { s3 with
        grids := (s3.grids.modify t.grid fun x => { x with remaining := 0 }).modify t.grid fun x => { x with done := true }
        net := s3.net ++ [.nodeComplete g n] })) ∧
  (∀ s m t, s.teams[m]? = some t → liveThreads s m ≠ [] ∨ teamQuiet s m = false ∨ t.phase = .complete →
    exec (.teamComplete m) s = .next s) ∧
  (∀ s m t, s.teams[m]? = some t → swappable s m = true → clusterMates s m = [m] →
    let secs := watchedSectors s m
    let s1 : State := { s with
      dies := s.dies.modify t.die fun d => { d with wakes := d.wakes ++ [(m, secs)] }
      teams := s.teams.modify m fun x => { x with wakeSecs := secs } }
    let s2 := secs.foldl (fun s sec => (readBytesNow s (sec * 64) 64 (some (teamCtx s m)) 0).1) s1
    exec (.swapOut m) s = .next (preemptCluster
      (if (s2.dies.any fun d => d.monitors.any fun x => teamIdOf s2 x.tid = m && monitorMet s2 x) = true then { s2 with
        dies := s2.dies.map fun d => { d with wakes := d.wakes.filter fun w => w.1 ≠ m }
        teams := s2.teams.modify m fun x => { x with wakeSecs := [] } } else s2) t.cluster)) ∧
  (∀ s m, swappable s m = false → exec (.swapOut m) s = .next s) ∧
  (∀ s m t gr k d o b site places, s.teams[m]? = some t → s.grids[t.grid]? = some gr → admits s gr = true →
    s.clusters[t.cluster]? = some k → k.teams = [m] → t.phase = .saved b → t.wakeSecs = [] → t.rank = 0 → d < 4 → liveThreads s m ≠ [] →
    (∀ e, e < d → chooseRect s gr.ctx e gr.launch false = none) → chooseRect s gr.ctx d gr.launch false = some o →
    placeAt s gr.ctx d gr.launch o = some [(site, places)] →
    (framesMayLeave s m d site = false → exec (.teamRestore m) s = .next s) ∧
    (framesMayLeave s m d site = true → exec (.teamRestore m) s = .next (restartTeam s m b d site o gr.launch places)) ∧
    ∃ u, (restartTeam s m b d site o gr.launch places).teams[m]? = some u ∧ u.phase = .restoring b ∧ u.die = d ∧ u.site = site ∧
      u.pos = clusterPos gr.launch o 0) ∧
  (∀ s m t sec, s.teams[m]? = some t → sec ∈ t.wakeSecs → (∀ k, s.clusters[t.cluster]? = some k → m ∈ k.teams) → liveThreads s m ≠ [] →
    exec (.teamRestore m) s = .next s)

/-! Recorded graphs. -/

/-- R202, R203, R325 to R337, R353: `GFIRE` and `NODEQ` ask the dispatcher; the first node of the pool that can start starts; a
node's end readies its successors, and the end of the last one the graph; a failure leaves the nodes it reaches not run; a
near-memory node's commands and a decode node's units leave their outputs; a fault-queue entry that the head passes lets its
threads go on. The value of a handle, the answer for a graph that cannot be read and the error codes beyond the named ones
are the model's choices (logs 17, 80, 84 and 86). -/
def Obligations.GraphEvents : Prop :=
  (∀ f s iss r, Single s iss 0xE4 f r → unfull s r.tid .ld →
    exec (.gfire f) s = .next (leaves (withAccess (idle s)
      { issued s r.tid .graphFire .nothing 0 r.a.toNat noXlat [] with dest := destOf s r.tid r.d 1 r.span, ctr := .ld })
      iss f r {})) ∧
  (∀ f s iss r, Single s iss 0xE5 f r → unfull s r.tid .ld →
    exec (.nodeq f) s = .next (leaves (withAccess (idle s)
      { issued s r.tid (.nodeq (countOf r.a) (countOf r.b)) .nothing 0 0 noXlat [] with
        dest := destOf s r.tid r.d 1 r.span, ctr := .ld }) iss f r {})) ∧
  (∀ s g n gr x, s.graphs[g]? = some gr → gr.nodes[n]? = some x → firstStart s = some (g, n) → x.kind = 0 → nodeRanges x.record = [] →
    s.pushMode = false →
    exec (.nodeStart g n) s = .next (withNode { s with grids := s.grids ++ [pullGrid (launchOfBytes x.param) gr.ctx g n] } g n
      fun y => { y with grid := some s.grids.length, state := .running })) ∧
  (∀ s g n gr x cx, s.graphs[g]? = some gr → gr.nodes[n]? = some x → firstStart s = some (g, n) → x.kind = 4 → nodeRanges x.record = [] →
    s.contexts[gr.ctx]? = some cx →
    exec (.nodeStart g n) s = .next (withNode { s with
      out := s.out ++ [.hostSignal cx.ctxid gr.handle n (BitVec.ofNat 64 (valueOf ((x.param.take 8))))]
      net := s.net ++ [.nodeComplete g n] } g n fun y => { y with state := .running })) ∧
  (∀ s g n, firstStart s ≠ some (g, n) → exec (.nodeStart g n) s = .next s) ∧
  (∀ s g n gr x j y, s.graphs[g]? = some gr → gr.nodes[n]? = some x → x.state = .running → nodeOp s g n 3 = none → plainNode s x →
    isCpyt x = false → x.succ = [j] → j ≠ n → gr.nodes[j]? = some y → y.state = .waiting → y.preds = 1 → nodeFbonly y.record = false →
    exec (.nodeComplete g n) s = .next (withNode (withNode s g n fun z => { z with state := .done }) g j
      fun _ => { y with preds := 0, ts := max y.ts x.ts, state := .ready, readyClk := s.clk })) ∧
  (∀ s g n gr x, s.graphs[g]? = some gr → gr.nodes[n]? = some x → x.state = .running → nodeOp s g n 3 = none → plainNode s x →
    isCpyt x = false → x.succ = [] → gr.finished = false → gr.fail = none → (∀ i y, i ≠ n → gr.nodes[i]? = some y → nodeOpen y = false) →
    let word := gr.handle.toNat + 2 ^ 32
    let s1 := (graphStore (withNode s g n fun z => { z with state := .done }) gr.ctx gr.doneAddr.toNat (bytesOf 8 word)
      (gr.nodes.foldl (fun m y => max m y.ts) 0)).1
    exec (.nodeComplete g n) s = .next { s1 with
      graphs := s1.graphs.modify g fun y => { y with finished := true }
      out := s1.out ++ [.graphDone (((s1.contexts[gr.ctx]?).map (·.ctxid)).getD 0) gr.handle (BitVec.ofNat 64 word)] }) ∧
  (∀ s g n gr x, s.graphs[g]? = some gr → gr.nodes[n]? = some x → x.state ≠ .running → exec (.nodeComplete g n) s = .next s) ∧
  (∀ s g n code addr gr x i y, s.graphs[g]? = some gr → gr.nodes[n]? = some x → x.state = .running → plainNode s x → gr.fail = none →
    i ≠ n → gr.nodes[i]? = some y → nodeOpen y = true → i ∉ reachOf (gr.nodes.map (·.succ)) n →
    exec (.nodeFail g n code addr) s = .next { s with graphs := s.graphs.modify g fun z => { z with
      fail := some (n, code, addr)
      nodes := z.nodes.mapIdx fun k w => if k = n then { w with state := .failed, code := code, addr := addr }
        else if k ∈ reachOf (gr.nodes.map (·.succ)) n then { w with state := .notRun } else w } }) ∧
  (∀ s g n code addr gr x, s.graphs[g]? = some gr → gr.nodes[n]? = some x → x.state = .waiting →
    exec (.nodeFail g n code addr) s = .next s) ∧
  (∀ s g n cmd x e, nodeAt s g n = some x → nodeOp s g n 3 = some e → e.status = none → commandOver e x cmd = false →
    cmd < ((nearParam e.desc).n + 255) / 256 →
    (∀ c a, nearOutputs e x.record (min 256 ((nearParam e.desc).n - 256 * cmd)) (256 * cmd) = .error (c, a) →
      exec (.hummockCommand g n cmd) s = .next (withEngine s { e with swrites := [], status := some c, info := a })) ∧
    (∀ l, nearOutputs e x.record (min 256 ((nearParam e.desc).n - 256 * cmd)) (256 * cmd) = .ok l →
      exec (.hummockCommand g n cmd) s = .next (settleNear (withEngine s { e with outs := insertNat e.outs cmd l }) g n))) ∧
  (∀ s g n cmd pa x e, nodeAt s g n = some x → nodeOp s g n 3 = some e → e.status = none → commandOver e x cmd = false →
    cmd < ((nearParam e.desc).n + 255) / 256 →
    (nodeFallback x.record = 0xFFFFFFFF →
      exec (.parityAbort g n cmd pa) s = .next (withEngine s { e with swrites := [], status := some 20, info := pa })) ∧
    (nodeFallback x.record ≠ 0xFFFFFFFF →
      exec (.parityAbort g n cmd pa) s =
        .next (settleNear (withNode s g n fun y => { y with aborts := y.aborts ++ [(cmd, pa, none)] }) g n))) ∧
  (∀ s g n u e s1 e1 s2 e2 x, nodeOp s g n 1 = some e → e.stage = u → e.status = none → s.power = 0 →
    let entry := descWord e.desc 0x18 + 16 * u
    readSectors (touchedBlocks 64 [(entry, 16)]) s e = .ok (s1, e1) →
    let at_ := bitsOfBytes (snapBytes e1 entry 8)
    let len := bitsOfBytes (snapBytes e1 (entry + 8) 8)
    len < 2 ^ 32 → readSectors (touchedBlocks 64 [(at_, len)]) s1 e1 = .ok (s2, e2) →
    s2.sessions.find? (fun y => y.decoder = e.unit ∧ y.num = e.reply) = some x → e2.unit = e.unit → e2.reply = e.reply →
    let bytes := snapBytes e2 at_ len
    let dam := unitDamaged x bytes
    let s3 : State := { s2 with sessions := s2.sessions.map fun y =>
      if y.decoder = x.decoder ∧ y.num = x.num then sessionNext x bytes else y }
    let planes := if Config.av1Shown x.units bytes = true then
        (planeNames (descWord e2.desc 0x20)).filterMap fun p => (lookupNat e2.tensors p.2).map fun t =>
          (t, planeElems x.units bytes (decodeOpts e2.desc) dam p.1 t [(u : Int), 0, 0])
      else []
    exec (.decodeUnit g n u) s = .next (
      if dam = true ∧ descWord e2.desc 0 / 2 ^ 16 % 2 = 1 then
        withEngine s3 { e2 with writes := [(u, [])], swrites := [], status := some 24, info := u }
      else withEngine s3 { e2 with
        snap := [], stage := u + 1, swrites := e2.swrites ++ toPhysical e2 (placePlanes planes)
        writes := if (dam && Config.av1Shown x.units bytes) = true then e2.writes ++ [(u, [])] else e2.writes
        status := if u + 1 = descWord e2.desc 0 % 65536 then some 0 else none })) ∧
  (∀ s g n u e, nodeOp s g n 1 = some e → e.stage ≠ u → exec (.decodeUnit g n u) s = .next s) ∧
  (∀ s c k t th, s.contexts[c]? = some k → k.fqHead < k.fqTail → s.threads[t]? = some th →
    (∀ s0 : State, s0 = { s with contexts := s.contexts.modify c fun x => { x with fqHead := k.fqHead + 1 } } →
      faultThreads s0 c k.fqHead = [t] ∧
      bitsOfBytes (((virtBytes s0 c (k.fq + 256 + 256 * (k.fqHead % k.fqn)) 256).getD []).take 1) ≠ 18) →
    exec (.faultQueueHead c (k.fqHead + 1)) s = .next { s with
      contexts := s.contexts.modify c fun x => { x with fqHead := k.fqHead + 1 }
      threads := s.threads.modify t fun x => becomeReady x s.clk }) ∧
  (∀ s c k head, s.contexts[c]? = some k → head ≤ k.fqHead ∨ k.fqTail < head → exec (.faultQueueHead c head) s = .next s)

/-! The host. -/

/-- R340, R342, R344, R345, R346, R353, R202: the context messages. A message does nothing while the Lode ports are down, and is
refused from a node without the host role, after a fatal error, and for a ctxid that no context has; else the device answers
it with its effect. The value of a handle, the answers for a graph or a descriptor that cannot be read, and what CTX_DESTROY
takes are the model's choices (logs 17, 80, 92 and 98). -/
def Obligations.HostContexts : Prop :=
  (∀ s h n v, s.lodeUp = false →
    exec (.ctxCreate h n) s = .next s ∧ exec (.ctxDestroy h) s = .next s ∧ exec (.preempt h) s = .next s ∧
    exec (.resume h) s = .next s ∧ exec (.graphFire h v) s = .next s ∧ exec (.setBudget h v) s = .next s) ∧
  (∀ s h n v, s.lodeUp = true → hostRole s h.node = false ∨ s.fatal = true →
    exec (.ctxCreate h n) s = .next (answered s h 1 0) ∧ exec (.ctxDestroy h) s = .next (answered s h 1 0) ∧
    exec (.preempt h) s = .next (answered s h 1 0) ∧ exec (.resume h) s = .next (answered s h 1 0) ∧
    exec (.graphFire h v) s = .next (answered s h 1 0) ∧ exec (.setBudget h v) s = .next (answered s h 1 0)) ∧
  (∀ s h v, heard s h → ctxWith s h.ctxid = none →
    exec (.ctxDestroy h) s = .next (answered s h 1 0) ∧ exec (.preempt h) s = .next (answered s h 1 0) ∧
    exec (.resume h) s = .next (answered s h 1 0) ∧ exec (.graphFire h v) s = .next (answered s h 1 0) ∧
    exec (.setBudget h v) s = .next (answered s h 1 0)) ∧
  (∀ s h a s1 bs ts, heard s h → a % 64 = 0 → a + 128 ≤ dramEnd → (∀ sec ∈ pieceSectors [(a, 128)], readMark s a sec 0 = none) →
    readBytesNow s a 128 none 0 = (s1, bs, ts) →
    let w (off : Nat) : Nat := descWord bs off
    (descriptorOk s1 bs = true → exec (.ctxCreate h a) s = .next (answered { s1 with contexts := s1.contexts ++ [
      { plainContext with
        ctxid := w 0 % 65536
        sys := decide (w 0 / 65536 % 2 = 1)
        swspill := decide (w 0 / 131072 % 2 = 1)
        lodeok := decide (w 0 / 262144 % 2 = 1)
        root := w 8
        restore := BitVec.ofNat 64 (w 0x10)
        savebase := w 0x18
        nblk := w 0x20 / 4294967296
        blksz := w 0x20 % 4294967296
        privbase := w 0x28
        privsize := w 0x30
        spbase := w 0x38
        spsize := w 0x40
        fq := w 0x48
        fqn := w 0x50
        trapvec := BitVec.ofNat 64 (w 0x58) &&& 0xFFFFFFFFFFFFFFC0
        traprec := BitVec.ofNat 64 (w 0x60) &&& 0xFFFFFFFFFFFFFF00
        keyid := w 0x68
        budget := budgetBits (BitVec.ofNat 64 (w 0x70))
        fadeClk := s1.clk
        bringUp := false }] } h 0 0)) ∧
    (descriptorOk s1 bs = false → exec (.ctxCreate h a) s = .next (answered s1 h 1 0))) ∧
  (∀ s h a, heard s h → a % 64 ≠ 0 ∨ dramEnd < a + 128 → exec (.ctxCreate h a) s = .next (answered s h 1 0)) ∧
  (∀ s h c, heard s h → ctxWith s h.ctxid = some c → ctxTeams s c = [] → (∀ x ∈ s.graphs, x.ctx ≠ c) →
    (∀ x ∈ s.homes, ∀ e ∈ x.aliases, e.ctxid ≠ h.ctxid) →
    exec (.ctxDestroy h) s = .next (answered (withCtx { s with
      grids := s.grids.map fun g => if g.ctx = c then { g with done := true } else g
      sessions := s.sessions.filter fun x => x.ctx ≠ c } c fun k => { k with live := false, tensors := [], windows := [], handles := [] })
      h 0 0)) ∧
  (∀ s h c k m, heard s h → ctxWith s h.ctxid = some c → s.contexts[c]? = some k → k.stopped = false → m ∈ ctxTeams s c →
    savedBlock (phaseOf s m) = none → exec (.ctxDestroy h) s = .next (answered s h 1 0)) ∧
  (∀ s h c, heard s h → ctxWith s h.ctxid = some c →
    (residentClusters s c = [] →
      exec (.preempt h) s = .next (answered (withCtx s c fun k => { k with held := true }) h 0 0)) ∧
    (∀ m, residentClusters s c = [m] →
      exec (.preempt h) s = .next (answered (preemptCluster (withCtx s c fun k => { k with held := true }) m) h 0 0)) ∧
    exec (.resume h) s = .next (answered (withCtx s c fun k => { k with held := false }) h 0 0) ∧
    (∀ v, exec (.setBudget h v) s = .next (answered (withCtx s c fun k => { k with budget := budgetBits v }) h 0 0)) ∧
    (∀ a, freeHandle s c = none → exec (.graphFire h a) s = .next (answered s h 0 0xFFFFFFFF)) ∧
    (∀ a slot gen, freeHandle s c = some (slot, gen) → readGraph s c a.toNat = none →
      exec (.graphFire h a) s = .next (answered s h 0 0xFFFFFFFE)) ∧
    (∀ a slot gen x, freeHandle s c = some (slot, gen) → readGraph s c a.toNat = some x →
      let t := touchRanges s c (imageRanges a.toNat x) 0
      let next := (gen + 1) % (2 ^ 26 - 1)
      let handle : Word := BitVec.ofNat 32 (next * 64 + slot)
      exec (.graphFire h a) s = .next (answered { withCtx t.1 c fun k => { k with
          handles := (slot, next, some t.1.graphs.length) :: k.handles.filter fun y => y.1 ≠ slot } with
        graphs := t.1.graphs ++ [{
          ctx := c
          handle := handle
          nodes := (List.range x.recs.length).map fun i =>
            freshNode ((x.recs[i]?).getD []) ((x.params[i]?).getD []) ((x.succ[i]?).getD []) t.1.clk t.2
          doneAddr := BitVec.ofNat 64 (descWord x.header 0x20)
          errAddr := BitVec.ofNat 64 (descWord x.header 0x18)
          fail := none
          finished := false }] } h 0 handle.toNat)))

/-- R267, R328, R354, R355, R358, R370, R373, R377, R379 to R382: the messages on keys, modes, times, node and power, the
package's reset, and the events of the PHY. What memory holds after a reset, and that no image trains once one is refused,
are the model's choices (logs 99 and 100). -/
def Obligations.HostPackage : Prop :=
  (∀ s h slot k m n tab p, s.lodeUp = false →
    exec (.keyLoad h slot k) s = .next s ∧ exec (.keyDestroy h slot) s = .next s ∧ exec (.setMode h m) s = .next s ∧
    exec (.rebase h) s = .next s ∧ exec (.setNode h n tab) s = .next s ∧ exec (.power h p) s = .next s) ∧
  (∀ s h slot k m n tab p, s.lodeUp = true → hostRole s h.node = false ∨ s.fatal = true →
    exec (.keyLoad h slot k) s = .next (answered s h 1 0) ∧ exec (.keyDestroy h slot) s = .next (answered s h 1 0) ∧
    exec (.setMode h m) s = .next (answered s h 1 0) ∧ exec (.rebase h) s = .next (answered s h 1 0) ∧
    exec (.setNode h n tab) s = .next (answered s h 1 0) ∧ exec (.power h p) s = .next (answered s h 1 0)) ∧
  (∀ s h slot k, heard s h → 1 ≤ slot → slot ≤ 255 → (keyAt s 0 slot).st = 0 →
    exec (.keyLoad h slot k) s = .next (answered { s with homes := s.homes.mapIdx fun i x => { x with
      keys := (slot, { keyAt s i slot with st := 1, key := k }) :: x.keys.filter fun e => e.1 ≠ slot } } h 0 0)) ∧
  (∀ s h slot k, heard s h → slot = 0 ∨ 255 < slot ∨ (keyAt s 0 slot).st ≠ 0 →
    exec (.keyLoad h slot k) s = .next (answered s h 1 0)) ∧
  (∀ s h slot, heard s h → 1 ≤ slot → slot ≤ 255 → (keyAt s 0 slot).st = 1 → noReed s → s.engines = [] →
    (∀ x ∈ s.homes, ∀ m ∈ x.marks, m.key ≠ slot) →
    exec (.keyDestroy h slot) s = .next (answered { s with homes := s.homes.mapIdx fun i x => { x with
      keys := (slot, ⟨0, (keyAt s i slot).gen + 1, 0⟩) :: x.keys.filter fun e => e.1 ≠ slot } } h 0 0)) ∧
  (∀ s h slot, heard s h → slot = 0 ∨ 255 < slot ∨ (keyAt s 0 slot).st ≠ 1 →
    exec (.keyDestroy h slot) s = .next (answered s h 1 0)) ∧
  (∀ s h m, heard s h →
    (m ≤ 1 → exec (.setMode h m) s = .next (answered { s with pushMode := decide (m = 1) } h 0 0)) ∧
    (1 < m → exec (.setMode h m) s = .next (answered s h 1 0))) ∧
  (∀ s h n tab, heard s h →
    (n ≤ 1023 → exec (.setNode h n tab) s = .next (answered { s with node := some n, routeTable := tab } h 0 0)) ∧
    (1023 < n → exec (.setNode h n tab) s = .next (answered s h 1 0))) ∧
  (∀ s h, heard s h → (∀ t ∈ s.teams, t.phase = .complete) → ∃ t, exec (.rebase h) s = .next (answered t h 0 0) ∧
    (∀ x ∈ t.threads, x.ptime = 0) ∧ (∀ c ∈ t.cores, c.maxExit = 0 ∧ ∀ x ∈ c.l1, x.wts = 0 ∧ x.rts = 0) ∧
    (∀ d ∈ t.dies, ∀ x ∈ d.l2, x.wts = 0 ∧ x.rts = 0) ∧ (∀ x ∈ t.homes, x.times = [] ∧ ∀ e ∈ x.aliases, e.wts = 0) ∧
    t.net.length = s.net.length ∧ (∀ x ∈ t.homes, ∀ b ∈ x.busy, b.wts = 0 ∧ b.rts = 0) ∧ (∀ m, .wbm m ∈ t.net → m.wts = 0 ∧ m.rts = 0) ∧
    t.mem = s.mem ∧ t.contexts = s.contexts ∧ t.teams = s.teams ∧ t.out = s.out) ∧
  (∀ s h t, heard s h → t ∈ s.teams → t.phase ≠ .complete → exec (.rebase h) s = .next (answered s h 1 0)) ∧
  (∀ s h, heard s h →
    exec (.power h 0) s = .next (answered { s with power := 0 } h 0 0) ∧
    ((∀ t ∈ s.teams, t.phase = .complete ∨ (savedBlock t.phase).isSome = true) →
      exec (.power h 1) s = .next (answered { s with power := 1 } h 0 0)) ∧
    ((∀ t ∈ s.teams, t.phase = .complete) → (∀ d ∈ s.dies, d.l2 = []) → (∀ x ∈ s.homes, x.peat = [] ∧ x.wc = []) →
      exec (.power h 2) s = .next (answered { s with
        cores := s.cores.map fun c => { c with l1 := [], code := [], loops := [] }
        power := 2 } h 0 0)) ∧
    (∀ t ∈ s.teams, t.phase ≠ .complete → exec (.power h 2) s = .next (answered s h 1 0)) ∧
    (∀ t ∈ s.teams, t.phase ≠ .complete → savedBlock t.phase = none → exec (.power h 1) s = .next (answered s h 1 0)) ∧
    (∀ p, 2 < p → exec (.power h p) s = .next (answered s h 1 0))) ∧
  (∀ s images,
    let fresh : State := { State.reset with
      dies := s.dies.map fun d => { Die.fresh with sitemap := d.sitemap }
      out := s.out, nextId := s.nextId, seed := s.seed, agenda := s.agenda, errors := s.errors }
    let good := (List.range 4).all fun i => match images.find? fun x => x.kind = i + 1 with
      | some x => decide (x.version = descWord x.bytes 8) && imageOk (i + 1) (x.bytes ++ x.signature)
      | none => false
    exec (.packageReset images []) s = .next (
      if good = true then { fresh with
        measures := fresh.measures.mapIdx fun i m => if 4 ≤ i then m else match images.find? fun x => x.kind = i + 1 with
          | some x => extendMeasure m x.bytes
          | none => m
        lodeUp := true
        bringUp := false
        out := s.out ++ (List.range 12).flatMap fun st => (List.range 32).map fun ch => .machineCheck 2 1 (st / 3) st ch 0xFFFFFFFF 0 0 0 }
      else { fresh with out := s.out ++ [.smbus 0] }) ∧
    ∀ training, good = false → exec (.packageReset images training) s = .next { fresh with out := s.out ++ [.smbus 0] }) ∧
  (∀ s b tap,
    exec (.readPoint b tap) s = .next (phyPut s { phySet (phyAt s b) 0 (BitVec.ofNat 32 (tap * 256)) with
      test := some (0, tap, s.clk + 1024) }) ∧
    exec (.writePoint b tap) s = .next (phyPut s { phySet (phyAt s b) 0 (BitVec.ofNat 32 (tap * 256 + 1)) with
      test := some (1, tap, s.clk + 1024) }) ∧
    exec (.prbs b) s = .next (phyPut s { phySet (phyAt s b) 0 ((phyReg (phyAt s b) 0 &&& 0x3F00#32) ||| 2#32) with
      test := some (2, 0, s.clk + 16384) })) ∧
  (∀ s b kind tap stop, (phyAt s b).test = some (kind, tap, stop) →
    let p : Phy := { phyAt s b with test := none }
    let t : State := { s with seed := s.seed + 1 }
    (kind = 0 → exec (.phyTestComplete b) s = .next (phyPut t ((List.range 33).foldl (fun p i =>
      phyMark p (0x300 + 8 * i) tap (Config.phyPass true (phyWire b i) tap s.seed)) p))) ∧
    (kind = 1 → exec (.phyTestComplete b) s = .next (phyPut t ((List.range 33).foldl (fun p i =>
      phyMark p (0x500 + 8 * i) tap (Config.phyPass false (phyWire b i) tap s.seed)) p))) ∧
    (kind = 2 →
      let swap := phyReg (phyAt s b) 0x010
      let wire (i : Nat) : Nat := phyWire b (if swap.getLsbD 6 = true ∧ swap.toNat % 32 = i then 32 else i)
      exec (.phyTestComplete b) s = .next (phyPut t ((List.range 32).foldl (fun p i =>
        phySet p (0x700 + 4 * i) (BitVec.ofNat 32 (min (Config.phyErrors (wire i) s.seed) 0xFFFFFFFF))) p)))) ∧
  (∀ s b, (phyAt s b).test = none → exec (.phyTestComplete b) s = .next s) ∧
  (∀ s b v,
    exec (.pswap b v) s = .next (if v.toNat / 128 = 0 ∧ v.getLsbD 5 = false then phyPut s (phySet (phyAt s b) 0x010 v) else s) ∧
    exec (.pdone b v) s = .next (if v = 1 then phyPut s { phyAt s b with done := true } else s)) ∧
  (∀ s b i v, i ≤ 32 →
    exec (.registerWrite b (0x100 + 4 * i) v) s = .next (phyPut s (phySet (phyAt s b) (0x100 + 4 * i) (BitVec.ofNat 32 (v.toNat % 64)))) ∧
    exec (.registerWrite b (0x200 + 4 * i) v) s = .next (phyPut s (phySet (phyAt s b) (0x200 + 4 * i) (BitVec.ofNat 32 (v.toNat % 64)))) ∧
    exec (.registerWrite b (0x300 + 8 * i) v) s = .next s ∧ exec (.registerWrite b (0x500 + 8 * i) v) s = .next s ∧
    exec (.registerWrite b (0x700 + 4 * i) v) s = .next s)

/-! What arrives over Lode. -/

/-- R166, R167, R273, R305, R356, R360, R372: a remote write lands, or is answered with a status and writes nothing; a remote
read is served; an acknowledgement and a reply end the operation they answer; a remote atomic joins its die's queue and is
served at its head; a link's errors, which retire it after 16 replays that fail, and a die's rate. Undefined old values are free values (log 2), and a peer's flag
operation is a step of its own (log 62). -/
def Obligations.LodeEvents : Prop :=
  (∀ s node c a bs n, s.lodeUp = false →
    exec (.lodeWriteLanding node c a bs) s = .next s ∧ exec (.lodeRead node c a n) s = .next s) ∧
  (∀ s node c a bs st, s.lodeUp = true → remotePieces s node c a bs.length needW = .error st →
    exec (.lodeWriteLanding node c a bs) s = .next { s with out := s.out ++ [.writeReply node st] }) ∧
  (∀ s node c a bs pa keys, s.lodeUp = true → remotePieces s node c a bs.length needW = .ok ([(pa, bs.length)], keys) →
    0 < bs.length → pa % 64 + bs.length < 64 → msPartsOf (exclude s (pa / 64)) (pa / 64) = [] →
    let lo := pa % 64
    let mask : BitVec 64 := BitVec.ofNat 64 ((2 ^ bs.length - 1) * 2 ^ lo)
    let t := wakeMonitors (putSector (prepareMask (exclude s (pa / 64)) (pa / 64) mask) (pa / 64) (secPut 0 lo bs) mask (remoteCtx s c)) (pa / 64)
    exec (.lodeWriteLanding node c a bs) s = .next { t with out := t.out ++ [.writeReply node 0] }) ∧
  (∀ s node c a n st, s.lodeUp = true → remotePieces s node c a n needR = .error st →
    exec (.lodeRead node c a n) s = .next { s with out := s.out ++ [.readReply node st []] }) ∧
  (∀ s node a n ps keys, s.lodeUp = true → remotePieces s node 0 a n needR = .ok (ps, keys) →
    let t := (touchPieces s ps none 0).1
    exec (.lodeRead node 0 a n) s = .next { t with out := t.out ++
      [.readReply node 0 (ps.flatMap fun p => currentBytes s p.1 p.2)] }) ∧
  (∀ s node c k a n ps keys, s.lodeUp = true → c ≠ 0 → ctxWith s c = some k → remotePieces s node c a n needR = .ok (ps, keys) →
    let t := (touchPieces s ps (some k) 0).1
    exec (.lodeRead node c a n) s = .next { t with out := t.out ++ [.readReply node 0 (virtLoad s k a n)] }) ∧
  (∀ s o st bs, s.lodes.find? (fun x => x.id = o.id) = some o →
    (o.kind = 0 ∨ o.kind = 2 →
      let t := descStore { s with lodes := s.lodes.filter fun x => x.id ≠ o.id } o.tid o.ctx o.descSpad o.descVa 0x28 (bytesOf 8 st)
      exec (.lodeAcknowledge o.id st bs) s = .next (raiseFences { t with threads := t.threads.modify o.tid (lowered .cp) } o.id o.tid)) ∧
    (∀ e, o.kind = 1 → o.engine = some e → exec (.lodeAcknowledge o.id st bs) s = .next { s with
      engines := s.engines.map fun x => if x.id = e ∧ x.locked = true then { x with status := some st, writes := [(0, bs)] } else x })) ∧
  (∀ s op st bs, (∀ o ∈ s.lodes, o.id ≠ op) → exec (.lodeAcknowledge op st bs) s = .next s) ∧
  (∀ s o st old tm q, s.lodes.find? (fun x => x.id = o.id && x.kind = 3) = some o → s.teams[o.team]? = some tm →
    tm.queues[o.queue]? = some q →
    let e : CqEntry := ⟨if o.wide = true then old else (old.setWidth 32).setWidth 64, st, tidOf s o.tid, o.remote.extractLsb' 0 32⟩
    let t : State := { s with
      lodes := s.lodes.filter fun x => x.id ≠ o.id
      teams := s.teams.modify o.team fun x => { x with queues := x.queues.set o.queue ⟨q.entries ++ [e], q.reserved - 1⟩ } }
    exec (.atomqReply o.id st old) s = .next (raiseFences { t with threads := t.threads.modify o.tid (lowered .st) } o.id o.tid)) ∧
  (∀ s op st old, (∀ o ∈ s.lodes, o.id ≠ op ∨ o.kind ≠ 3) → exec (.atomqReply op st old) s = .next s) ∧
  (∀ s m, (∀ d ∈ s.dies, d.atomq.head? ≠ some m) →
    exec (.atomqCommand m) s = .next { s with dies := s.dies.modify (atomDie s m) fun x => { x with atomq := x.atomq ++ [m] } }) ∧
  (∀ s m i d, s.dies[i]? = some d → d.atomq.head? = some m → (∀ j e, j < i → s.dies[j]? = some e → e.atomq.head? ≠ some m) →
    let n := tyBytes (BitVec.ofNat 3 m.aty)
    let t : State := { s with dies := s.dies.modify i fun x => { x with atomq := x.atomq.tail } }
    let refused (st : Nat) : State := { t with
      seed := s.seed + 1
      out := s.out ++ [.atomReply m.op m.node st (Config.freeReg s.seed 8193 ++ Config.freeReg s.seed 8192)] }
    (m.addr % n ≠ 0 → exec (.atomqCommand m) s = .next (refused 2)) ∧
    (∀ st, m.addr % n = 0 → remotePieces t m.node m.ctxid m.addr n needRW = .error st →
      exec (.atomqCommand m) s = .next (refused st)) ∧
    (∀ ps keys, m.addr % n = 0 → remotePieces t m.node m.ctxid m.addr n needRW = .ok (ps, keys) → lockHit t ps ≠ [] →
      exec (.atomqCommand m) s = .next (refused 2)) ∧
    (∀ pa keys, m.addr % n = 0 → remotePieces t m.node m.ctxid m.addr n needRW = .ok ([(pa, n)], keys) → lockHit t [(pa, n)] = [] →
      let rd := readBytesNow t pa n (remoteCtx t m.ctxid) 0
      let old : DWord := BitVec.ofNat 64 (valueOf rd.2.1)
      let wr := writeBytesNow rd.1 pa (bytesOf n (atomOp (BitVec.ofNat 3 m.aop) (BitVec.ofNat 3 m.aty) old m.val).toNat)
        (remoteCtx t m.ctxid) rd.2.2
      exec (.atomqCommand m) s = .next { wr.1 with out := wr.1.out ++ [.atomReply m.op m.node 0 old] })) ∧
  (∀ s lode link,
    let src : Nat := if lode = true then 15 else 14
    let n : Nat := ((s.replays.find? fun r => r.1 = lode ∧ r.2.1 = link).map fun r => r.2.2).getD 0 + 1
    let t : State := { s with
      corrected := (src, ((lookupNat s.corrected src).getD 0) + 1) :: s.corrected.filter fun x => x.1 ≠ src
      replays := (lode, link, n) :: s.replays.filter fun r => ¬ (r.1 = lode ∧ r.2.1 = link) }
    exec (.flitCrcError lode link) s = if 16 < n then exec (.linkRetire lode link) t else .next t) ∧
  (∀ s link,
    exec (.linkRetire true link) s = .next { s with lodeRetired := link :: s.lodeRetired.filter fun x => x ≠ link } ∧
    exec (.linkRetire false link) s = .next { s with causewayRetired := link :: s.causewayRetired.filter fun x => x ≠ link }) ∧
  (∀ s die mhz,
    (350 ≤ mhz ∧ mhz ≤ 700 ∧ mhz % 25 = 0 →
      exec (.runRateChange die mhz) s = .next { s with dies := s.dies.modify die fun d => { d with mhz := mhz } }) ∧
    (¬ (350 ≤ mhz ∧ mhz ≤ 700 ∧ mhz % 25 = 0) → exec (.runRateChange die mhz) s = .next s))

/-! Errors, loss and limits. -/

/-- R359, R360, R363 to R372: a lost core loses the sectors it owned and stops the contexts with a team on it; scrubbing counts
what it corrects and poisons what it cannot; an error poisons a register, a dirty line or an accumulator row, drops a clean
line, and is fatal in a table; a row moves to the next spare row; a channel whose remap table disagrees is
blocked, and stays so when no two copies agree; limits halve a die's clock, hold a core, or stop every
context and every clock. That a
remap-table error takes two steps is the model's choice (log 101), and the measures come from outside (log 12). -/
def Obligations.HealthEvents : Prop :=
  (∀ s source die stack channel site,
    exec (.correctedErrorReport source die stack channel site) s = .next { s with
      out := s.out ++ [.machineCheck 1 source die stack channel site 0 ((lookupNat s.corrected source).getD 0) s.clk]
      corrected := (source, 0) :: s.corrected.filter fun x => x.1 ≠ source }) ∧
  (∀ s die site, quiesceAll s = s → (∀ x ∈ (coreAt s die site).l1, x.own = false) → lostContexts s die (some site) = [] →
    let t := modCore s die site fun c => { c with lost := true, l1 := [] }
    exec (.unitLoss die (some site)) s = .next { t with
      pushMode := true
      out := s.out ++ [.machineCheck 2 10 die 15 255 site 0 ((lookupNat s.corrected 10).getD 0) s.clk]
      corrected := (10, 0) :: s.corrected.filter fun x => x.1 ≠ 10 }) ∧
  (∀ s die d, quiesceAll s = s → s.dies[die]? = some d → d.l2 = [] → lostContexts s die none = [] → (∀ k ∈ s.contexts, k.live = false) →
    exec (.unitLoss die none) s = .next { s with
      pushMode := true
      fatal := true
      cores := s.cores.map fun c => if c.die = die then { c with lost := true, l1 := [] } else c
      dies := s.dies.modify die fun d => { d with lost := true, l2 := [] }
      out := s.out ++ [.machineCheck 3 11 die 15 255 0xFFFFFFFF 0 ((lookupNat s.corrected 11).getD 0) s.clk]
      corrected := (11, 0) :: s.corrected.filter fun x => x.1 ≠ 11 }) ∧
  (∀ s sec h, taggedSector sec = true → s.homes[homeOf (sec * 64)]? = some h → channelOf (sec * 64) ∉ h.blocked →
    exec (.scrub sec .clean) s = .next s ∧
    exec (.scrub sec .corrected) s = .next { s with
      corrected := (1, ((lookupNat s.corrected 1).getD 0) + 1) :: s.corrected.filter fun x => x.1 ≠ 1 } ∧
    exec (.scrub sec .uncorrectable) s = .next (markPut s { markOf s sec with poison := true })) ∧
  (∀ s sec h e, s.homes[homeOf (sec * 64)]? = some h → channelOf (sec * 64) ∈ h.blocked → exec (.scrub sec e) s = .next s) ∧
  (∀ s stack channel row h, s.homes[stack]? = some h → channel ∉ h.blocked →
    let used := (h.remaps.filter fun r => r.channel = channel).length
    (used < 1024 → exec (.rowSwap stack channel row) s = .next { s with
      homes := s.homes.modify stack fun x => { x with
        remaps := (x.remaps.filter fun r => ¬ (r.channel = channel ∧ r.row = row)) ++ [⟨channel, row, used⟩] }
      out := s.out ++ [.machineCheck 1 1 (stack / 3) stack channel 0xFFFFFFFF 0 ((lookupNat s.corrected 1).getD 0) s.clk]
      corrected := (1, 0) :: s.corrected.filter fun x => x.1 ≠ 1 }) ∧
    (1024 ≤ used → exec (.rowSwap stack channel row) s = .next s)) ∧
  (∀ s stack channel h agree, s.homes[stack]? = some h →
    (channel ∉ h.blocked → (∀ a ∈ s.accs, inChannel stack channel a = false) →
      exec (.remapTableError stack channel agree) s = .next { s with
        homes := s.homes.modify stack fun x => { x with blocked := channel :: x.blocked }
        out := s.out ++ [.machineCheck 2 9 (stack / 3) stack channel 0xFFFFFFFF 0 ((lookupNat s.corrected 9).getD 0) s.clk]
        corrected := (9, 0) :: s.corrected.filter fun x => x.1 ≠ 9
        net := s.net ++ [.remapTableError stack channel agree] }) ∧
    (channel ∈ h.blocked → agree = true → exec (.remapTableError stack channel agree) s = .next { s with
      homes := s.homes.modify stack fun x => { x with blocked := x.blocked.filter fun y => y ≠ channel } }) ∧
    (channel ∈ h.blocked → agree = false → (∀ k ∈ s.contexts, k.live = false) →
      exec (.remapTableError stack channel agree) s = .next { s with
        fatal := true
        out := s.out ++ [.machineCheck 3 9 (stack / 3) stack channel 0xFFFFFFFF 0 ((lookupNat s.corrected 9).getD 0) s.clk]
        corrected := (9, 0) :: s.corrected.filter fun x => x.1 ≠ 9 })) ∧
  (∀ s e l, s.clockStopped = false → s.agenda = [] → s.errors = e :: l →
    let t : State := { settleReady s with errors := l }
    (∀ k p, e = .register k p → step s = .next { t with
      threads := t.threads.modify k fun th => { th with poison := p :: th.poison.filter fun q => q ≠ p } }) ∧
    (∀ sec h x, e = .peat sec → taggedSector sec = true → t.homes[homeOf (sec * 64)]? = some h →
      h.peat.find? (fun p => p.line = sec / 4) = some x →
      (x.dirty = true → step s = .next (markPut t { markOf t sec with poison := true })) ∧
      (x.dirty = false → x.parts = [] → step s = .next { t with
        homes := t.homes.modify (homeOf (sec * 64)) fun h => { h with peat := h.peat.filter fun p => p.line ≠ sec / 4 } })) ∧
    (∀ die site acc row, e = .tile die site acc row → ∃ u, step s = .next u ∧
      ∀ x, (coreAt t die site).accs[acc]? = some x → ∃ y, (coreAt u die site).accs[acc]? = some y ∧ y.poisoned = true ∧
        y.elems.length = x.elems.length ∧ ∀ i v, x.elems[i]? = some v → y.elems[i]? = some (if i / 128 = row then 0x7FDA0000 else v)) ∧
    (∀ home, e = .table home → ∃ u, step s = .next u ∧ u.fatal = true ∧ ∀ k ∈ u.contexts, k.live = true → k.stopped = true)) ∧
  (∀ s die site,
    exec .sensorPoll s = .next { s with polled := s.polled + 1 } ∧
    exec (.droop die site) s = .next (modCore s die site fun c => { c with droop := true }) ∧
    exec (.droopRecovery die site) s = .next (modCore s die site fun c => { c with droop := false }) ∧
    exec (.overTemperature die) s = .next { s with dies := s.dies.modify die fun d => { d with halved := true } } ∧
    exec (.overTemperatureClear die) s = .next { s with dies := s.dies.modify die fun d => { d with halved := false } } ∧
    exec .overcurrent s = .next { s with overcurrent := true } ∧
    exec .overcurrentClear s = .next { s with overcurrent := false } ∧
    (∃ t, exec .thermalTrip s = .next t ∧ t.clockStopped = true ∧ t.fatal = true ∧ ∀ k ∈ t.contexts, k.live = true → k.stopped = true) ∧
    ((∀ k ∈ s.contexts, k.live = false ∨ k.stopped = true) → exec .thermalTrip s = .next { s with
      clockStopped := true
      fatal := true
      out := s.out ++ [.machineCheck 3 12 0 15 255 0xFFFFFFFF 0 ((lookupNat s.corrected 12).getD 0) s.clk]
      corrected := (12, 0) :: s.corrected.filter fun x => x.1 ≠ 12 }))

/-! Traps. -/

/-- R82 to R87, R101, R137, R139, R206: `TRAP` and `BKPT` send their group's record as their thread's stores and, once those are
performed, start the handler at `TRAPVEC` + 64 × code; what a record holds and where it stands; `RTT` returns to the resume PC, or after the instruction, and takes ILLOPND
in a thread that no record names; the first checks of an access. That every lane's fields are written is the model's reading
of R85 (logs 76 and 77). -/
def Obligations.TrapEntry : Prop :=
  (∀ (mk : Form → Instr) (opc : BitVec 8) (code : Nat), (mk = .trap ∧ opc = 0x0A ∧ code = 26 ∨ mk = .bkpt ∧ opc = 0x0B ∧ code = 25) →
    ∀ f s iss r th gr k ps x keys, Single s iss opc f r → s.threads[r.tid]? = some th → th.handler = none →
      s.groups[th.group]? = some gr → gr.record = none → s.contexts[ctxOf s r.tid]? = some k → k.bringUp = false → k.stopped = false →
      storeChecks (idle s) (ctxOf s r.tid) (some r.tid) (recordAddr s th.group) 256 = .ok ps x keys →
      let a : Access := {
        id := s.nextId, tid := r.tid, owners := [r.tid], ctx := ctxOf s r.tid, die := (coreOf s r.tid).1, site := (coreOf s r.tid).2
        issue := s.issueNo, kind := .record code false, place := .phys ps, size := 256, va := recordAddr s th.group, keys := keys
        ms := x.ms, lbc := false, writeBack := false
        bytes := recordBytes (idle s) th.group (trapReq iss opc f r.tid ⟨code, 0, countOf r.a, 0⟩) (BitVec.ofNat 32 (2 ^ th.lane))
        cmp := 0, dest := .none, ctr := .none, node := none, wholes := pieceWholes ps, copies := [], peeked := [] }
      exec (mk f) s = .next { idle s with
        accs := s.accs ++ [a]
        nextId := s.nextId + 1
        groups := s.groups.modify th.group fun y => { y with record := some ⟨code, BitVec.ofNat 32 (2 ^ th.lane), recordAddr s th.group⟩ }
        threads := s.threads.modify r.tid (inHandler k.trapvec code a.id) }) ∧
  (∀ s a code, readyAccess s a.id = some a → a.kind = .record code false →
    let w := storePieces s a.die a.site a.ctx (accessPieces a) a.bytes a.ms false
      (a.owners.foldl (fun m t => max m (((s.threads[t]?).map (·.ptime)).getD 0)) 0)
    let t := endAccess (retagAll (a.owners.foldl (fun s t => raisePtime s t w.2) w.1) a.wholes a.keys) a
    exec (.accessAcknowledge a.id) s = .next { t with
      threads := t.threads.map fun y => if y.wait = .recordStore a.id then { y with wait := .ready, age := t.clk + 1, promoted := false } else y }) ∧
  (∀ s g gr tm gd k, s.groups[g]? = some gr → s.teams[gr.team]? = some tm → s.grids[tm.grid]? = some gd → s.contexts[gd.ctx]? = some k →
    recordAddr s g = k.traprec.toNat / 256 * 256 + 256 * (((tm.die * 48 + tm.site) * 6 + gr.part) * 48 + gr.slot)) ∧
  (∀ s g q m,
    let bs := recordBytes s g q m
    bs.length = 256 ∧
    (q.info.code < 256 → valueOf (bs.take 1) = q.info.code ∧ valueOf ((bs.drop 1).take 1) = 1) ∧
    valueOf ((bs.drop 8).take 8) = q.pc.toNat ∧
    valueOf ((bs.drop 0x10).take 8) = (if q.info.code = 25 ∨ q.info.code = 26 then (q.pc + BitVec.ofNat 64 q.len).toNat
      else if q.info.code ∈ [18, 21, 22, 24] then 0 else q.pc.toNat) ∧
    valueOf ((bs.drop 0x18).take 4) = m.toNat ∧
    valueOf ((bs.drop 0x20).take 8) = q.info.addr % 2 ^ 64 ∧
    valueOf ((bs.drop 0x28).take 8) = q.info.extra0 % 2 ^ 64 ∧
    valueOf ((bs.drop 0x30).take 8) = q.info.extra1 % 2 ^ 64 ∧
    valueOf ((bs.drop 0x40).take 8) = q.word0.toNat ∧
    valueOf ((bs.drop 0x48).take 8) = q.word1.toNat ∧
    (∀ b ∈ bs.drop 0xE0, b = 0)) ∧
  (∀ f s iss r th gr, Single s iss 0xF2 f r → s.threads[r.tid]? = some th → s.groups[th.group]? = some gr →
    (∀ b, gr.record = some b → b.mask.getLsbD th.lane = false) →
    exec (.rtt f) s = .next (trapped (idle s) iss 0xF2 f r.tid ⟨2, 0, 0, 0⟩)) ∧
  (∀ f s iss r th gr b s0 bs, Single s iss 0xF2 f r → s.threads[r.tid]? = some th → s.groups[th.group]? = some gr → gr.record = some b →
    b.mask.getLsbD th.lane = true → hasAccess s r.tid = false → ownLoad (idle s) r.tid b.addr 256 false = .ok (s0, bs) →
    let back : DWord := if f.mod.getLsbD 0 = true then
        BitVec.ofNat 64 (valueOf ((bs.drop 8).take 8) + lengthOf (valueOf ((bs.drop 0x40).take 8)))
      else BitVec.ofNat 64 (valueOf ((bs.drop 0x10).take 8))
    let s1 := rewind s0 r.tid (valueOf ((bs.drop (0x60 + 2 * th.lane)).take 2) % 4096)
      (valueOf ((bs.drop (0xA0 + 2 * th.lane)).take 2) % 4096)
    let s2 := leaveRecord { s1 with threads := s1.threads.modify r.tid fun y => { y with handler := none } } r.tid
    (s2.threads[r.tid]?).isSome = true →
    exec (.rtt f) s = .next (leaves s2 iss f r { next := .jump back })) ∧
  (∀ f s iss r, Single s iss 0x90 f r → unfull s r.tid .ld →
    let n := accessBytes (f.mod.extractLsb' 0 3)
    let ea := byteAddress r.a r.b (if f.mod.getLsbD 5 then n else 1)
    let space := (f.mod.extractLsb' 3 2).toNat
    let limit := min (launchOf s r.tid).privlim (((contextOf s r.tid).map fun k => k.privlim.toNat).getD 0)
    (ea % n ≠ 0 → exec (.ld f) s = .next (trapped (idle s) iss 0x90 f r.tid ⟨9, ea, 0, 0⟩)) ∧
    (ea % n = 0 → space = 3 → limit < ea + n → exec (.ld f) s = .next (trapped (idle s) iss 0x90 f r.tid ⟨8, ea, 0, limit⟩)) ∧
    (ea % n = 0 → space = 1 → (launchOf s r.tid).spad < ea + n →
      exec (.ld f) s = .next (trapped (idle s) iss 0x90 f r.tid ⟨18, ea, 0, 0⟩)) ∧
    (ea % n = 0 → space = 2 → 2 ^ 24 ≤ ea ∨ siblingTeam s r.tid (ea / 2 ^ 20) = none →
      exec (.ld f) s = .next (trapped (idle s) iss 0x90 f r.tid ⟨18, ea, 0, 0⟩)) ∧
    (ea % n = 0 → space = 0 → 2 ^ 57 ≤ ea → exec (.ld f) s = .next (trapped (idle s) iss 0x90 f r.tid ⟨18, ea, 0, 0⟩)))

/-! Rules stated whole. -/

/-- R100: `YIELD` sets the age of each active thread to the clock after its issue, and has no other effect: what the state holds
otherwise is that of a completed instruction without a result. -/
def Obligations.YieldAge : Prop :=
  ∀ f s iss, runs s iss 0x08 f = true → ∃ t, exec (.yield f) s = .next t ∧
    t = afterLanes (idle s) iss.pc f.len.bytes (prepared s iss 0x08 f) (fun _ th => th) (fun _ => {}) ∧
    ∀ p r, p ∈ prepared s iss 0x08 f → p.2 = .ready r → ∀ th, t.threads[p.1]? = some th → th.age = s.clk + 1

/-- R110: `BSEL` builds D byte by byte from byte 0 upward: selectors 0 to 7 name a byte of A or B, 8 is 0x00, 9 is 0xFF, 10 is the sign
of the byte of D before, 11 is that byte again, and 12 to 15 are 0x00; bits [31:16] of C are ignored. -/
def Obligations.SelectBytes : Prop :=
  (∀ f s iss, runs s iss 0x3E f = true → completes (.bsel f) 0x3E f s iss fun r => { vals := oneReg (selectBytes r.a r.b r.c) }) ∧
  (∀ a b c : DWord, ∀ i, i < 4 →
    let sel := (c.extractLsb' (4 * i) 4).toNat
    let d := selectBytes a b c
    let before : Byte := if i = 0 then 0 else d.extractLsb' (8 * (i - 1)) 8
    d.extractLsb' (8 * i) 8 =
      if sel < 4 then a.extractLsb' (8 * sel) 8
      else if sel < 8 then b.extractLsb' (8 * (sel - 4)) 8
      else if sel = 9 then 0xFF
      else if sel = 10 then (if before.getLsbD 7 then 0xFF else 0)
      else if sel = 11 then before
      else 0) ∧
  selectBytes 0x44332211 0x88776655 0x0000AA74 = 0xFFFF8855 ∧
  selectBytes 0x44332211 0x88776655 0x0000B980 = 0xFFFF0011

/-! Encoding, steps, reset and memory. -/

/-- R64, R65, R69, R72, R79: decoding undoes encoding for every well-formed thread instruction, whatever bytes follow it, and
encoding undoes decoding for every word that decodes: no bit of an encoding is dropped. -/
def Obligations.DecodeEncode : Prop :=
  (∀ i rest, i.parts.isSome = true → i.wellFormed = true → decode (encode i ++ rest) = .ok (i, rest)) ∧
  (∀ bs i rest, decode bs = .ok (i, rest) → encode i ++ rest = bs)

/-- The words of R104 and R146 decode to the instructions they stand for, with every field as the rules give it. -/
def Obligations.DecodeWords : Prop :=
  let icmp : Form := ⟨.l64, 0b010001#6, 0, 0, 0x3B0#10, 0x3AC#10, 0x3B1#10, 0x000#10, false, 7#3, 0, 0⟩
  let ld : Form := ⟨.l64, 0b100100#6, 0, 0, 0x3B0#10, 0x001#10, 0x300#10, 0x004#10, false, 7#3, 0, 0⟩
  decode [0x40#8, 0x1C, 0x00, 0xB1, 0xB3, 0x0E, 0x3B, 0x44] = .ok (.icmp icmp, []) ∧
  decodeTableWord 64 0x443B0EB3B1001C40 = some (.icmp icmp) ∧
  encode (.icmp icmp) = [0x40#8, 0x1C, 0x00, 0xB1, 0xB3, 0x0E, 0x3B, 0x44] ∧
  decode [0x40#8, 0x1E, 0x01, 0x00, 0x07, 0x00, 0x3B, 0x90] = .ok (.ld ld, []) ∧
  decodeTableWord 64 0x903B000700011E40 = some (.ld ld) ∧
  encode (.ld ld) = [0x40#8, 0x1E, 0x01, 0x00, 0x07, 0x00, 0x3B, 0x90]

/-- R34, R65, R82, R95, R345: a step of the machine. When the bytes at an issue group's PC decode to an instruction, the step is that
instruction's execution in the state in which the group has taken its partition's slot: what has become ready has its age, its
threads are ready, and the free choice has advanced. Bytes that do not decode trap; an agent's step is executed out of the queue
it stands in; an error and a host message are taken as they come, an unlisted code refused; a clk passes where nothing else
moves, and once every clock has stopped only a package reset does anything. Which move comes next is the model's choice (log 1). -/
def Obligations.StepRunsDecoded : Prop :=
  (∀ s x i rest, s.clockStopped = false → nextMove (settleReady s) = .issue x → decode (issueBytes (settleReady s) x) = .ok (i, rest) →
    let t := beginIssue (takeChoice (settleReady s)) x (classF (headOpcode (issueBytes (settleReady s) x)))
    step s = exec i t ∧ t.cur = some x ∧ t.clk = s.clk ∧ t.seed = s.seed + 1 ∧ t.mem = s.mem ∧ t.homes = s.homes ∧ t.groups = s.groups ∧
    t.threads = (settleReady s).threads.mapIdx fun k th =>
      if k ∈ x.lanes.map (·.2) then { th with wait := .ready, counted := some x.pc } else th) ∧
  (∀ s, (settleReady s).threads.length = s.threads.length ∧ ∀ (k : Nat) (th u : Thread), s.threads[k]? = some th → (settleReady s).threads[k]? = some u →
    u = { th with age := u.age, promoted := u.promoted } ∧ (u.age ≠ th.age → u.age = s.clk)) ∧
  (∀ s x e, s.clockStopped = false → nextMove (settleReady s) = .issue x → decode (issueBytes (settleReady s) x) = .error e →
    step s = .next (badInstruction (beginIssue (takeChoice (settleReady s)) x (classF (headOpcode (issueBytes (settleReady s) x)))) x
      (issueBytes (settleReady s) x) e)) ∧
  (∀ s i, s.clockStopped = false → nextMove (settleReady s) = .run i → step s = exec i (takeMove (settleReady s) i)) ∧
  (∀ s i l, s.clockStopped = false → s.agenda = i :: l → step s = exec i { settleReady s with agenda := l }) ∧
  (∀ s m, s.clockStopped = false → nextMove (settleReady s) = .preempt m → step s = .next (preemptStep (takeChoice (settleReady s)) m)) ∧
  (∀ s t, s.clockStopped = false → nextMove (settleReady s) = .start t → step s = .next (startIteration (takeChoice (settleReady s)) t)) ∧
  (∀ s, s.clockStopped = false → nextMove (settleReady s) = .idle → step s = .next (passClk (takeChoice (settleReady s)))) ∧
  (∀ s e l, s.clockStopped = false → s.agenda = [] → s.errors = e :: l → step s = .next (hwError { settleReady s with errors := l } e)) ∧
  (∀ s n bs l, s.clockStopped = false → s.agenda = [] → s.errors = [] → s.inbox = (n, bs) :: l →
    (∀ i, requestOf (headOf n bs) bs = some i → step s = exec i { settleReady s with inbox := l }) ∧
    (s.lodeUp = true → valueOf (bs.take 1) = 0 ∨ 12 < valueOf (bs.take 1) → step s = .next (answered { settleReady s with inbox := l }
      ⟨n, valueOf ((bs.drop 2).take 2), valueOf ((bs.drop 4).take 4)⟩ 1 0))) ∧
  (∀ s, s.clockStopped = true →
    ((∀ i ∈ s.agenda, isReset i = false) → step s = .fault .clockStopped) ∧
    ∀ l i r, s.agenda = l ++ i :: r → (∀ j ∈ l, isReset j = false) → isReset i = true → step s = exec i { s with agenda := r })

/-- R39, R328, R343, R354, R373, R374, R379: the package right after reset: bring-up mode, push mode, no thread, context or grid, every
measurement register zero, key slot 0 live on every base die and the others empty, every delay tap 32 and every other PHY
register 0. That memory lists nothing is the model's choice (log 5), as are the node number and the route table (log 18). -/
def Obligations.ResetValues : Prop :=
  State.reset.bringUp = true ∧ State.reset.pushMode = true ∧ State.reset.power = 0 ∧ State.reset.clk = 0 ∧
  State.reset.threads = [] ∧ State.reset.contexts = [] ∧ State.reset.grids = [] ∧ State.reset.graphs = [] ∧
  State.reset.fatal = false ∧ State.reset.node = none ∧ State.reset.dies.length = 4 ∧ State.reset.homes.length = 12 ∧
  Memory.wf State.reset.mem ∧ (∀ a, memRead State.reset.mem a = 0) ∧
  State.reset.measures = List.replicate 16 (List.replicate 64 0) ∧
  (∀ h, (keyAt State.reset h 0).st = 1 ∧ ∀ slot, 0 < slot → (keyAt State.reset h slot).st = 0) ∧
  (∀ b i, i ≤ 32 → phyReg (phyAt State.reset b) (0x100 + 4 * i) = 32 ∧ phyReg (phyAt State.reset b) (0x200 + 4 * i) = 32 ∧
    phyReg (phyAt State.reset b) 0 = 0 ∧ phyReg (phyAt State.reset b) 0x010 = 0 ∧ (phyAt State.reset b).done = false) ∧
  plainContext.trapvec = 0 ∧ plainContext.traprec = 0 ∧ plainContext.srseed = 1 ∧ plainContext.keyid = 0 ∧
  plainContext.peatwc = 0 ∧ plainContext.aliashot = 64 ∧ plainContext.leasemax = 8 ∧ plainContext.privlim = 0xFFFFFFFF ∧
  plainContext.fadeper = 1000

/-- The canonical form of memory, addresses strictly rising and no entry equal to what an unlisted address reads as, is kept by
every step from every state. That form, and the 0 that an unlisted address reads as, are the model's choice (log 5). -/
def Obligations.MemoryCanonical : Prop :=
  ∀ s t : State, Memory.wf s.mem → step s = .next t → Memory.wf t.mem

/-- Bytes written to memory are read back, and every other byte reads as before. That a byte nothing has written reads as 0 is
the model's choice (log 5). -/
def Obligations.MemoryReadWrite : Prop :=
  ∀ (m : Memory) (a : Nat) (bs : List Byte), Memory.wf m →
    memReadN (memWriteN m a bs) a bs.length = bs ∧
    (∀ i, i < bs.length → memRead (memWriteN m a bs) (a + i) = (bs[i]?).getD 0) ∧
    ∀ b, b < a ∨ a + bs.length ≤ b → memRead (memWriteN m a bs) b = memRead m b
end

