-- ==== Sys2Proof/Laws/Arith.lean ====
section
/-! SUPPORT. The integer and bit results are those the statements' arithmetic gives. -/

namespace Sys2Proof.Claims

open Sys2Proof.Machine

theorem kindOf_eq (it : BitVec 3) : kindOf it = (itSigned it, itWidth it) := by
  revert it; decide

theorem kindOf_pos (it : BitVec 3) : 0 < (kindOf it).2 := by revert it; decide

theorem kindOf_le (it : BitVec 3) : (kindOf it).2 ≤ 64 := by revert it; decide

theorem natLow_eq (w : Nat) (x : DWord) : natLow w x = (x.setWidth w).toNat := by simp [natLow]

theorem intLow_eq (s : Bool) (w : Nat) (hw : 0 < w) (x : DWord) : intLow s w x = num (s, w) x := by
  simp only [intLow, num, natLow_eq]
  cases s
  · simp
  · have h1 : (2:Nat) ^ w = 2 * 2 ^ (w - 1) := by
      conv_lhs => rw [show w = (w - 1) + 1 by omega, pow_succ]
      omega
    simp only [true_and, if_true, BitVec.toInt_eq_toNat_cond]
    split <;> split <;> first | rfl | omega

theorem itVal_eq (it : BitVec 3) (x : DWord) : itVal it x = num (kindOf it) x := by
  rw [kindOf_eq]
  exact intLow_eq _ _ (by rw [show itWidth it = (kindOf it).2 by rw [kindOf_eq]]; exact kindOf_pos it) x

theorem wrapNat_eq (w : Nat) (v : Int) : wrapNat w v = (BitVec.ofInt w v).toNat := by
  simp [wrapNat, BitVec.toNat_ofInt]

theorem packInt_eq (s : Bool) (w : Nat) (hw : 0 < w) (hw2 : w ≤ 64) (v : Int) : packInt s w v = image (s, w) v := by
  simp only [packInt, image, wrapNat_eq]
  generalize BitVec.ofInt w v = b
  have hb := b.isLt
  by_cases h32 : w < 32
  · have hp : (2:Nat) ^ w ≤ 2 ^ 32 := Nat.pow_le_pow_right (by omega) (by omega)
    have hp64 : (2:Nat) ^ 32 < 2 ^ 64 := by norm_num
    have h1 : (2:Nat) ^ w = 2 * 2 ^ (w - 1) := by
      conv_lhs => rw [show w = (w - 1) + 1 by omega, pow_succ]
      omega
    cases s
    · simp only [h32, true_and, Bool.false_eq_true, false_and, if_false, if_true]
      apply BitVec.eq_of_toNat_eq
      simp only [BitVec.toNat_ofNat, BitVec.toNat_setWidth]
      rw [Nat.mod_eq_of_lt (show b.toNat < 2 ^ 32 by omega)]
    · simp only [h32, true_and, if_true]
      split
      · rename_i hge
        apply BitVec.eq_of_toNat_eq
        simp only [BitVec.toNat_ofNat, BitVec.toNat_setWidth, BitVec.toNat_signExtend]
        have hm : b.msb = true := by rw [BitVec.msb_eq_decide]; simpa using hge
        simp only [hm, if_true]
        rw [Nat.mod_eq_of_lt (show b.toNat < 2 ^ 32 by omega)]
        congr 1
        omega
      · rename_i hlt
        apply BitVec.eq_of_toNat_eq
        simp only [BitVec.toNat_ofNat, BitVec.toNat_setWidth, BitVec.toNat_signExtend]
        have hm : b.msb = false := by rw [BitVec.msb_eq_decide]; simpa using hlt
        simp only [hm, Bool.false_eq_true, if_false, Nat.add_zero]
        rw [Nat.mod_eq_of_lt (show b.toNat < 2 ^ 32 by omega)]
  · simp only [h32, false_and, if_false]
    apply BitVec.eq_of_toNat_eq
    simp

theorem clampInt_eq (s : Bool) (w : Nat) (v : Int) : clampInt s w v = clamp (s, w) v := by
  have h2 : 0 < (2:Nat) ^ w := by positivity
  have h1 : 0 < (2:Nat) ^ (w - 1) := by positivity
  cases s
  · simp only [clampInt, clamp, Bool.false_eq_true, if_false]
    have : ((2 ^ w - 1 : Nat) : Int) = 2 ^ w - 1 := by push_cast [h2]; rfl
    rw [this]
    split
    · omega
    · split <;> omega
  · simp only [clampInt, clamp, if_true]
    have e1 : ((2 ^ (w - 1) - 1 : Nat) : Int) = 2 ^ (w - 1) - 1 := by push_cast [h1]; rfl
    have e2 : (-(2 ^ (w - 1) : Nat) : Int) = -2 ^ (w - 1) := by push_cast; rfl
    have h1' : (0:Int) < 2 ^ (w - 1) := by positivity
    rw [e1, e2]
    split
    · omega
    · split <;> omega

theorem itResult_eq (it : BitVec 3) (sat : Bool) (v : Int) : itResult it sat v = fit (kindOf it) sat v := by
  have h1 := kindOf_pos it
  have h2 := kindOf_le it
  rw [kindOf_eq] at *
  simp only [itResult, fit, packInt_eq _ _ h1 h2, clampInt_eq]

theorem valueWords_eq (it : BitVec 3) (v : DWord) : valueWords (outWidth it) v = regsOf (kindOf it) v := by
  rw [kindOf_eq]
  simp only [valueWords, outWidth, regsOf]
  split <;> simp_all

/-! Bits. -/

theorem bitWidth_eq (it : BitVec 3) : bitWidth it = widthOf it := by revert it; decide

theorem widthOf_cases (it : BitVec 3) : widthOf it = 32 ∨ widthOf it = 64 := by revert it; decide

theorem outWidth_bits (it : BitVec 3) (v : DWord) : valueWords (outWidth it) v = regsOf (false, widthOf it) v := by
  have : outWidth it = widthOf it := by revert it; decide
  simp [valueWords, regsOf, this]

theorem lowBits_eq (w : Nat) (x : DWord) : lowBits w x = bitsImage (x.setWidth w) := by
  apply BitVec.eq_of_toNat_eq
  simp [lowBits, natLow, bitsImage]

theorem notIf_eq (inv : Bool) (b : DWord) : notIf inv b = maybeNot inv b := rfl

theorem natLow32_eq (b : DWord) : natLow 32 b = countOf b := by simp [natLow, countOf]

theorem aluShl_eq (it : BitVec 3) (a n : DWord) :
    aluShl it a n = bitsImage ((a.setWidth (widthOf it)) <<< countOf n) := by
  have hw := widthOf_cases it
  simp only [aluShl, bitWidth_eq, natLow32_eq, lowBits_eq]
  generalize widthOf it = w at *
  apply BitVec.eq_of_getLsbD_eq
  intro i hi
  split
  · simp [bitsImage]
    omega
  · simp only [bitsImage, BitVec.getLsbD_setWidth, BitVec.getLsbD_shiftLeft]
    by_cases h1 : i < w <;> by_cases h2 : i < countOf n <;> simp [hi, h1, h2] 
    omega

theorem aluShr_eq (it : BitVec 3) (a n : DWord) :
    aluShr it a n = bitsImage ((a.setWidth (widthOf it)) >>> countOf n) := by
  have hw := widthOf_cases it
  simp only [aluShr, bitWidth_eq, natLow32_eq, lowBits_eq]
  generalize widthOf it = w at *
  apply BitVec.eq_of_getLsbD_eq
  intro i hi
  split
  · simp [bitsImage]
    omega
  · simp only [bitsImage, BitVec.getLsbD_setWidth, BitVec.getLsbD_ushiftRight]
    by_cases h1 : countOf n + i < w
    · simp [hi, h1, show countOf n + i < 64 by omega]
    · simp [h1]

theorem sshiftRight_div {w : Nat} (hw : 0 < w) (x : BitVec w) (n : Nat) :
    (x.sshiftRight n).toInt = x.toInt / 2 ^ (if w ≤ n then w else n) := by
  rw [BitVec.toInt_sshiftRight, Int.shiftRight_eq_div_pow]
  have hlo := BitVec.le_toInt x
  have hhi := BitVec.toInt_lt (x := x)
  split
  · rename_i h
    have hpow : (2:Int) ^ (w - 1) ≤ 2 ^ w := by
      apply pow_le_pow_right₀ <;> omega
    have hpow2 : (2:Int) ^ w ≤ 2 ^ n := by
      apply pow_le_pow_right₀ <;> omega
    by_cases hn : x.toInt < 0
    · rw [show x.toInt / ((2 ^ n : Nat) : Int) = -1 by
        push_cast
        rw [Int.ediv_eq_iff_of_pos (by positivity)]
        constructor <;> [(simp; omega); (simp; omega)]]
      symm
      rw [Int.ediv_eq_iff_of_pos (by positivity)]
      constructor <;> [(simp; omega); (simp; omega)]
    · rw [Int.ediv_eq_zero_of_lt (by omega) (by push_cast; omega), Int.ediv_eq_zero_of_lt (by omega) (by omega)]
  · push_cast; rfl

theorem aluShra_eq (it : BitVec 3) (a n : DWord) :
    aluShra it a n = bitsImage ((a.setWidth (widthOf it)).sshiftRight (countOf n)) := by
  have hw := widthOf_cases it
  simp only [aluShra, bitWidth_eq, natLow32_eq, wrapNat_eq]
  generalize widthOf it = w at *
  rw [intLow_eq true w (by omega)]
  have h := sshiftRight_div (by omega) (a.setWidth w) (countOf n)
  simp only [num, if_true]
  push_cast
  rw [← h, BitVec.ofInt_toInt]
  apply BitVec.eq_of_toNat_eq
  simp [bitsImage]

theorem bits_fold_lt (g : Nat → Bool) (w : Nat) :
    (List.range w).foldl (fun acc i => acc + (if g i then 2 ^ i else 0)) 0 < 2 ^ w := by
  induction w with
  | zero => simp
  | succ w ih =>
    rw [List.range_succ, List.foldl_append, pow_succ]
    simp only [List.foldl_cons, List.foldl_nil]
    split <;> omega

theorem bits_fold_testBit (g : Nat → Bool) (w i : Nat) :
    ((List.range w).foldl (fun acc i => acc + (if g i then 2 ^ i else 0)) 0).testBit i = (decide (i < w) && g i) := by
  induction w with
  | zero => simp
  | succ w ih =>
    rw [List.range_succ, List.foldl_append]
    simp only [List.foldl_cons, List.foldl_nil]
    have hlt := bits_fold_lt g w
    by_cases hg : g w
    · simp only [hg, if_true]
      rw [Nat.add_comm]
      by_cases hi : i = w
      · subst hi
        rw [Nat.testBit_two_pow_add_eq, ih]
        simp [hg]
      · rcases Nat.lt_or_ge i w with h | h
        · rw [Nat.testBit_two_pow_add_gt h, ih]
          simp [h, show i < w + 1 by omega]
        · have h2 : w < i := by omega
          rw [Nat.testBit_lt_two_pow]
          · simp [show ¬ i < w + 1 by omega]
          · calc _ < 2 ^ w + 2 ^ w := by omega
              _ = 2 ^ (w + 1) := by rw [pow_succ]; omega
              _ ≤ 2 ^ i := Nat.pow_le_pow_right (by omega) (by omega)
    · simp only [hg, Bool.false_eq_true, if_false, Nat.add_zero, ih]
      by_cases hi : i = w
      · subst hi; simp [hg]
      · have : (i < w + 1) ↔ (i < w) := by omega
        simp [this]

theorem bitsBy_getLsbD (w : Nat) (hw : w ≤ 64) (g : Nat → Bool) (i : Nat) :
    (bitsBy w g).getLsbD i = (decide (i < w) && g i) := by
  simp only [bitsBy, BitVec.getLsbD_ofNat, bits_fold_testBit]
  by_cases h : i < w
  · simp [h, show i < 64 by omega]
  · simp [h]

theorem aluBrev_eq (it : BitVec 3) (a : DWord) : aluBrev it a = bitsImage (a.setWidth (widthOf it)).reverse := by
  have hw := widthOf_cases it
  simp only [aluBrev, bitWidth_eq]
  generalize widthOf it = w at *
  apply BitVec.eq_of_getLsbD_eq
  intro i hi
  rw [bitsBy_getLsbD _ (by omega)]
  simp only [bitsImage, BitVec.getLsbD_setWidth, BitVec.getLsbD_reverse]
  by_cases h : i < w
  · rw [BitVec.getMsbD_eq_getLsbD]
    rcases hw with rfl | rfl
    · simp [h, hi]; intro _; omega
    · simp [hi]
  · rw [BitVec.getMsbD_of_ge _ _ (by omega)]
    simp [h]

theorem aluRol_eq (it : BitVec 3) (a n : DWord) :
    aluRol it a n = bitsImage ((a.setWidth (widthOf it)).rotateLeft (countOf n)) := by
  have hw := widthOf_cases it
  simp only [aluRol, bitWidth_eq, natLow32_eq]
  simp only [natLow_eq]
  generalize widthOf it = w at *
  generalize a.setWidth w = x
  have hx := x.isLt
  have hk : countOf n % w < w := Nat.mod_lt _ (by omega)
  generalize hkk : countOf n % w = k at *
  apply BitVec.eq_of_toNat_eq
  simp only [bitsImage, BitVec.toNat_ofNat, BitVec.toNat_setWidth, BitVec.toNat_rotateLeft, hkk]
  congr 1
  have e : (2:Nat) ^ w = 2 ^ (w - k) * 2 ^ k := by rw [← pow_add]; congr 1; omega
  have h1 : x.toNat <<< k % 2 ^ w = (x.toNat % 2 ^ (w - k)) * 2 ^ k := by
    rw [Nat.shiftLeft_eq, e, Nat.mul_mod_mul_right]
  have h2 : x.toNat >>> (w - k) = x.toNat / 2 ^ (w - k) := Nat.shiftRight_eq_div_pow _ _
  have h3 : x.toNat / 2 ^ (w - k) < 2 ^ k := by
    rw [Nat.div_lt_iff_lt_mul (by positivity), Nat.mul_comm, ← e]; exact hx
  rw [h1, h2, show x.toNat % 2 ^ (w - k) * 2 ^ k = 2 ^ k * (x.toNat % 2 ^ (w - k)) from Nat.mul_comm _ _,
    ← Nat.two_pow_add_eq_or_of_lt h3]
  have h4 : x.toNat * 2 ^ k = (x.toNat / 2 ^ (w - k)) * 2 ^ w + (x.toNat % 2 ^ (w - k)) * 2 ^ k := by
    conv_lhs => rw [← Nat.div_add_mod x.toNat (2 ^ (w - k))]
    rw [e]; ring
  have h5 : 2 ^ k * (x.toNat % 2 ^ (w - k)) + x.toNat / 2 ^ (w - k) < 2 ^ w := by
    have h6 : x.toNat % 2 ^ (w - k) + 1 ≤ 2 ^ (w - k) := Nat.mod_lt _ (by positivity)
    have h7 := Nat.mul_le_mul_left (2 ^ k) h6
    rw [Nat.mul_add, Nat.mul_one] at h7
    rw [e, Nat.mul_comm (2 ^ (w - k))]
    omega
  rw [h4, show x.toNat / 2 ^ (w - k) * 2 ^ w + x.toNat % 2 ^ (w - k) * 2 ^ k + x.toNat / 2 ^ (w - k)
    = (2 ^ k * (x.toNat % 2 ^ (w - k)) + x.toNat / 2 ^ (w - k)) + 2 ^ w * (x.toNat / 2 ^ (w - k)) by ring,
    Nat.add_mul_mod_self_left, Nat.mod_eq_of_lt h5]

theorem aluFsh_eq (it : BitVec 3) (left : Bool) (a b c : DWord) :
    aluFsh it left a b c =
      let w := widthOf it
      let x := b.setWidth w ++ a.setWidth w
      let m := countOf c % w
      if left then bitsImage ((x <<< m).extractLsb' w w) else bitsImage ((x >>> m).extractLsb' 0 w) := by
  have hw := widthOf_cases it
  simp only [aluFsh, bitWidth_eq, natLow32_eq]
  simp only [natLow_eq]
  generalize widthOf it = w at *
  have e : (b.setWidth w ++ a.setWidth w).toNat = (b.setWidth w).toNat * 2 ^ w + (a.setWidth w).toNat := by
    rw [BitVec.toNat_append, Nat.shiftLeft_eq, Nat.mul_comm, ← Nat.two_pow_add_eq_or_of_lt (a.setWidth w).isLt]
  generalize b.setWidth w ++ a.setWidth w = x at *
  rw [← e]
  apply BitVec.eq_of_toNat_eq
  split
  · simp only [bitsImage, BitVec.toNat_ofNat, BitVec.toNat_setWidth, BitVec.extractLsb'_toNat, BitVec.toNat_shiftLeft,
      Nat.shiftLeft_eq, Nat.shiftRight_eq_div_pow]
    congr 1
    rw [pow_add, Nat.mod_mul_right_div_self, Nat.mod_mod]
  · simp only [bitsImage, BitVec.toNat_ofNat, BitVec.toNat_setWidth, BitVec.extractLsb'_toNat, BitVec.toNat_ushiftRight,
      Nat.shiftRight_eq_div_pow, pow_zero, Nat.div_one]

theorem aluPopc_eq (it : BitVec 3) (a : DWord) : aluPopc it a = BitVec.ofNat 64 (ones (widthOf it) a) := by
  simp only [aluPopc, ones, bitWidth_eq, List.countP_eq_length_filter]

theorem leadingZeros_spec (w : Nat) (a : DWord) :
    leadingZeros w a = if natLow w a = 0 then w else w - 1 - (natLow w a).log2 := by
  induction w with
  | zero => simp [leadingZeros, natLow, Nat.mod_one]
  | succ w ih =>
    have hb : natLow (w + 1) a = natLow w a + (if a.getLsbD w then 2 ^ w else 0) := by
      simp only [natLow, BitVec.getLsbD]
      have := Nat.testBit_eq_decide_div_mod_eq (x := a.toNat) (i := w)
      rw [pow_succ, Nat.mod_mul]
      split
      · rename_i h; rw [this] at h; simp at h; rw [h]; simp
      · rename_i h; rw [this] at h; simp at h; rw [h]; simp
    have hlt : natLow w a < 2 ^ w := Nat.mod_lt _ (by positivity)
    have step : leadingZeros (w + 1) a = if a.getLsbD w then 0 else leadingZeros w a + 1 := by
      simp only [leadingZeros, List.range_succ, List.reverse_append, List.reverse_cons, List.reverse_nil, List.nil_append,
        List.cons_append, List.takeWhile_cons]
      cases a.getLsbD w <;> simp
    rw [step, hb]
    split
    · have hp : 0 < 2 ^ w := by positivity
      have : (natLow w a + 2 ^ w).log2 = w := by
        rw [Nat.log2_eq_iff (by omega)]
        constructor <;> [omega; (rw [pow_succ]; omega)]
      rw [this, if_neg (by omega)]
      omega
    · rw [ih, Nat.add_zero]
      by_cases h0 : natLow w a = 0
      · simp [h0]
      · have : (natLow w a).log2 < w := (Nat.log2_lt h0).mpr hlt
        simp only [Nat.add_zero, h0, if_false]
        omega

theorem aluClz_eq (it : BitVec 3) (a : DWord) : aluClz it a = BitVec.ofNat 64 (leadingZeros (widthOf it) a) := by
  simp only [aluClz, bitWidth_eq, leadingZeros_spec]

theorem aluBfi_eq (it : BitVec 3) (a b c : DWord) : aluBfi it a b c = insertField (widthOf it) a b c := by
  have hw := widthOf_cases it
  simp only [aluBfi, bitWidth_eq, insertField]
  generalize widthOf it = w at *
  have h1 : natLow 8 c = (c.extractLsb' 0 8).toNat := by simp [natLow]
  have h2 : natLow 8 (c >>> 8) = (c.extractLsb' 8 8).toNat := by simp [natLow]
  rw [h1, h2]
  generalize (c.extractLsb' 0 8).toNat = pos
  generalize (c.extractLsb' 8 8).toNat = len
  apply BitVec.eq_of_getLsbD_eq
  intro i hi
  rw [bitsBy_getLsbD _ (by omega)]
  simp only [BitVec.getLsbD_setWidth, BitVec.getLsbD_or, BitVec.getLsbD_and, BitVec.getLsbD_shiftLeft, BitVec.getLsbD_not,
    BitVec.getLsbD_ofNat, Nat.testBit_two_pow_sub_one]
  by_cases h : i < w
  · by_cases h3 : pos ≤ i
    · by_cases h4 : i - pos < len
      · simp [h, hi, h3, h4, show i < pos + len by omega, show ¬ i < pos by omega, show i - pos < w by omega]
      · simp [h, hi, h3, h4, show ¬ i < pos + len by omega]
    · simp [h, hi, h3, show i < pos by omega]
  · simp [h]

theorem aluBfn_eq (it : BitVec 3) (t : BitVec 16) (d a b c : DWord) :
    aluBfn it t d a b c = bitsImage ((tableBits t d a b c).setWidth (widthOf it)) := by
  have hw := widthOf_cases it
  simp only [aluBfn, bitWidth_eq]
  generalize widthOf it = w at *
  apply BitVec.eq_of_getLsbD_eq
  intro i hi
  rw [bitsBy_getLsbD _ (by omega)]
  simp only [bitsImage, BitVec.getLsbD_setWidth, hi, decide_true, Bool.true_and]
  congr 1
  have one : ∀ (p : Bool) (x : DWord), (if p then x else ~~~ x).getLsbD i = (p == x.getLsbD i) := by
    intro p x; cases p <;> simp [hi]
  have key : ∀ (l : List Nat) (acc : DWord),
      (l.foldl (fun acc row =>
        if t.getLsbD row then
          acc ||| ((if row.testBit 3 then d else ~~~ d) &&& (if row.testBit 2 then c else ~~~ c)
            &&& (if row.testBit 1 then b else ~~~ b) &&& (if row.testBit 0 then a else ~~~ a))
        else acc) acc).getLsbD i =
      (acc.getLsbD i || l.any fun row => t.getLsbD row && ((row.testBit 3 == d.getLsbD i) && (row.testBit 2 == c.getLsbD i)
        && (row.testBit 1 == b.getLsbD i) && (row.testBit 0 == a.getLsbD i))) := by
    intro l
    induction l with
    | nil => simp
    | cons r l ih =>
      intro acc
      rw [List.foldl_cons, ih, List.any_cons, ← Bool.or_assoc]
      congr 1
      cases t.getLsbD r
      · simp only [Bool.false_eq_true, if_false, Bool.false_and, Bool.or_false]
      · simp only [if_true, BitVec.getLsbD_or, BitVec.getLsbD_and, one, Bool.true_and]
  rw [tableBits, key]
  have h16 : List.range 16 = [0, 1, 2, 3, 4, 5, 6, 7, 8, 9, 10, 11, 12, 13, 14, 15] := rfl
  rw [h16]
  cases d.getLsbD i <;> cases c.getLsbD i <;> cases b.getLsbD i <;> cases a.getLsbD i <;> simp [Nat.testBit]

theorem aluBfe_eq (it : BitVec 3) (a b : DWord) :
    aluBfe it a b = fieldOf (widthOf it) (kindOf it).1 a b := by
  have hw := widthOf_cases it
  simp only [aluBfe, bitWidth_eq, fieldOf, kindOf_eq]
  generalize widthOf it = w at *
  have h1 : natLow 8 b = (b.extractLsb' 0 8).toNat := by simp [natLow]
  have h2 : natLow 8 (b >>> 8) = (b.extractLsb' 8 8).toNat := by simp [natLow]
  rw [h1, h2]
  generalize (b.extractLsb' 0 8).toNat = pos
  generalize (b.extractLsb' 8 8).toNat = len
  have hl : (if w ≤ len then w else len) = min len w := by split <;> omega
  rw [hl]
  have hlw : min len w ≤ w := by omega
  generalize min len w = n at *
  have hx : ∀ s : Bool, intLow s w a / ((2 ^ (if w ≤ pos then w else pos) : Nat) : Int)
      = if s then ((a.setWidth w).sshiftRight pos).toInt else (((a.setWidth w) >>> pos).toNat : Int) := by
    intro s
    rw [intLow_eq s w (by omega)]
    cases s
    · simp only [num, Bool.false_eq_true, if_false, BitVec.toNat_ushiftRight, Nat.shiftRight_eq_div_pow]
      split
      · rename_i h
        have hlt := (a.setWidth w).isLt
        have hp : (2:Nat) ^ w ≤ 2 ^ pos := Nat.pow_le_pow_right (by omega) h
        rw [Nat.div_eq_of_lt (by omega)]
        have := Nat.div_eq_of_lt hlt
        exact_mod_cast this
      · norm_cast
    · simp only [num, if_true]
      rw [sshiftRight_div (by omega)]
      push_cast; rfl
  rw [hx]
  have hwrap : ∀ s : Bool, wrapNat n (if s then ((a.setWidth w).sshiftRight pos).toInt else (((a.setWidth w) >>> pos).toNat : Int))
      = ((if s then (a.setWidth w).sshiftRight pos else (a.setWidth w) >>> pos).setWidth n).toNat := by
    intro s
    cases s
    · simp only [Bool.false_eq_true, if_false, wrapNat, BitVec.toNat_setWidth]
      norm_cast
    · simp only [if_true, wrapNat, BitVec.toNat_setWidth, BitVec.toInt_eq_toNat_bmod]
      have hd : ((2 ^ n : Nat) : Int) ∣ ((2 ^ w : Nat) : Int) := by
        exact_mod_cast Nat.pow_dvd_pow 2 hlw
      rw [Int.bmod_def]
      split
      · rw [Int.emod_emod_of_dvd _ hd]; norm_cast
      · rw [Int.sub_emod, Int.emod_emod_of_dvd _ hd, Int.emod_eq_zero_of_dvd hd, Int.sub_zero, Int.emod_emod_of_dvd _ dvd_rfl]
        norm_cast
  rw [hwrap]
  generalize (if itSigned it then (a.setWidth w).sshiftRight pos else (a.setWidth w) >>> pos) = y
  generalize y.setWidth n = z
  have hz := z.isLt
  cases itSigned it
  · simp only [Bool.false_eq_true, false_and, if_false]
    rw [wrapNat_eq]
    apply BitVec.eq_of_toNat_eq
    simp [BitVec.toNat_ofInt]
  · simp only [true_and, if_true]
    have hi : (if 0 < n ∧ 2 ^ (n - 1) ≤ z.toNat then (z.toNat : Int) - ((2 ^ n : Nat) : Int) else (z.toNat : Int)) = z.toInt := by
      rw [BitVec.toInt_eq_toNat_cond]
      rcases Nat.eq_zero_or_pos n with h0 | h0
      · subst h0; simp
        omega
      · have hp : (2:Nat) ^ n = 2 * 2 ^ (n - 1) := by
          conv_lhs => rw [show n = (n - 1) + 1 by omega, pow_succ]
          omega
        split <;> split <;> first | rfl | omega
    rw [hi, wrapNat_eq]
    apply BitVec.eq_of_toNat_eq
    simp [BitVec.signExtend]

theorem selectByte_eq (a b : DWord) (done : List Byte) (s : Nat) (hs : s < 16) :
    bselByte a b s done.getLast? = selectByte a b done s := by
  have hb : ∀ (x : DWord) (i : Nat), (byteOf i x).truncate 8 = x.extractLsb' (8 * i) 8 := by
    intro x i
    apply BitVec.eq_of_getLsbD_eq
    intro j hj
    interval_cases j <;> simp [byteOf]
  have h4 : List.range 4 = [0, 1, 2, 3] := rfl
  cases hd : done.getLast? <;> interval_cases s <;> simp [bselByte, selectByte, hb, h4, hd]

theorem aluBsel_eq (a b c : DWord) : aluBsel a b c = selectBytes a b c := by
  have hs : ∀ i, natLow 4 (c >>> (4 * i)) = (c.extractLsb' (4 * i) 4).toNat := by
    intro i; simp [natLow]
  have h4 : List.range 4 = [0, 1, 2, 3] := rfl
  have hlt : ∀ i, (c.extractLsb' (4 * i) 4).toNat < 16 := fun i => (c.extractLsb' (4 * i) 4).isLt
  simp only [aluBsel, selectBytes, hs, h4, List.foldl_cons, List.foldl_nil]
  rw [← selectByte_eq a b [] _ (hlt 0), ← selectByte_eq a b _ _ (hlt 1), ← selectByte_eq a b _ _ (hlt 2),
    ← selectByte_eq a b _ _ (hlt 3)]
  rfl

theorem plopOp_eq (op : BitVec 2) (a b : Bool) :
    plopOp op a b = (match op.toNat with | 0 => a && b | 1 => a || b | _ => xor a b) := by
  revert op a b; decide

theorem aluIcmp_eq (cc it : BitVec 3) (a b : DWord) :
    aluIcmp cc it a b = compares cc (num (kindOf it) a) (num (kindOf it) b) := by
  simp only [aluIcmp, itVal_eq]
  generalize num (kindOf it) a = x
  generalize num (kindOf it) b = y
  have : ∀ c : BitVec 3, c = 0#3 ∨ c = 1#3 ∨ c = 2#3 ∨ c = 3#3 ∨ c = 4#3 ∨ c = 5#3 ∨ c = 6#3 ∨ c = 7#3 := by decide
  rcases this cc with rfl | rfl | rfl | rfl | rfl | rfl | rfl | rfl <;> rfl

theorem aluAddc_eq (it : BitVec 3) (sub first p : Bool) (a b : DWord) :
    aluAddc it sub first p a b =
      let w := (kindOf it).2
      let s : Nat := (a.setWidth w).toNat + (if sub then ~~~ (b.setWidth w) else b.setWidth w).toNat
        + (if (if first then sub else p) then 1 else 0)
      (BitVec.ofNat 64 (s % 2 ^ w), decide (2 ^ w ≤ s)) := by
  have hk : itWidth it = (kindOf it).2 := by rw [kindOf_eq]
  simp only [aluAddc, hk, natLow_eq]
  cases first <;> cases sub <;> cases p <;> simp [BitVec.toNat_not]

theorem aluLea_eq (s : Nat) (signed : Bool) (a b : DWord) :
    aluLea s signed a b = a + BitVec.ofInt 64 (num (signed, 32) b * 2 ^ s) := by
  simp only [aluLea, intLow_eq signed 32 (by omega)]
  push_cast; rfl

end Sys2Proof.Claims
end

