-- ==== Sys2Proof/Laws/Lanes.lean ====
section
/-! SUPPORT. What an instruction of an issue group leaves when it completes in every active lane: one lemma for `runWith`
and its like. -/

namespace Sys2Proof.Machine

/-- A group but for what a lane writes into it: the uniform registers and the sticky flags. -/
def bareGroup (g : Group) : Group := { g with ks := [], fpctl := g.fpctl &&& 0xFFFFFFE0#32 }

/-- A state that differs from another by what lanes of other threads wrote into threads and groups. -/
structure LaneView (s0 s : State) (t : Nat) : Prop where
  rest : ∃ ths gs, s = { s0 with threads := ths, groups := gs }
  thread : s.threads[t]? = s0.threads[t]?
  groups : s.groups.map bareGroup = s0.groups.map bareGroup

/-! Threads. -/

theorem lookupNat_append {β : Type} (l r : List (Nat × β)) (a : Nat) :
    lookupNat (l ++ r) a = (lookupNat l a).or (lookupNat r a) := by
  induction l with
  | nil => rfl
  | cons x l ih => obtain ⟨k, v⟩ := x; simp only [List.cons_append, lookupNat]; split <;> simp_all

theorem lookupNat_none {β : Type} (l : List (Nat × β)) (a : Nat) (h : a ∉ l.map (·.1)) : lookupNat l a = none := by
  induction l with
  | nil => rfl
  | cons x l ih =>
    obtain ⟨k, v⟩ := x
    simp only [List.map_cons, List.mem_cons, not_or] at h
    simp only [lookupNat, ih h.2, if_neg (Ne.symm h.1)]

theorem prepReady_tid {s iss sg f lane t th a b c d xs r} (h : prepReady s iss sg f lane t th a b c d xs = .ready r) :
    r.tid = t := by
  unfold prepReady at h
  extract_lets at h
  split at h
  · cases h
  · split at h
    · cases h
    · split at h
      · cases h
      · cases h; rfl

theorem rangeReady_tid {s iss sg f lane t th n a d xs r} (h : rangeReady s iss sg f lane t th n a d xs = .ready r) :
    r.tid = t := by
  unfold rangeReady at h
  extract_lets at h
  split at h
  · cases h
  · split at h
    · cases h
    · cases h
    · cases h; rfl

theorem prepRange_tid {s iss sg f lane t th r} (h : prepRange s iss sg f lane t th = .ready r) : r.tid = t := by
  unfold prepRange at h
  extract_lets at h
  split at h
  · cases h
  · extract_lets at h
    split at h
    · rename_i hp
      split at hp
      · cases hp; cases h
      · cases hp
    · cases h
    · cases h
    · split at h
      · cases h
      · split at h
        · cases h
        · split at h
          · cases h
          · exact rangeReady_tid h

theorem prepLane_tid {s iss sg f lane t r} (h : prepLane s iss sg f lane t = .ready r) : r.tid = t := by
  simp only [prepLane] at h
  split at h
  · cases h
  · split at h
    · cases h
    · split at h
      · simp only [prepActive] at h
        split at h
        · cases h
        · split at h
          · exact prepRange_tid h
          · split at h
            · cases h
            · exact prepReady_tid h
      · cases h

theorem prepAll_tid {s iss sig f p r} (h : p ∈ prepAll s iss sig f) (hr : p.2 = .ready r) : r.tid = p.1 := by
  simp only [prepAll, List.mem_map] at h
  obtain ⟨q, -, rfl⟩ := h
  dsimp only at hr
  split at hr
  · exact prepLane_tid hr
  · cases hr

theorem prepAll_tids (s iss sig f) : (prepAll s iss sig f).map (·.1) = iss.lanes.map (·.2) := by
  simp [prepAll, Function.comp_def]

/-! One lane. -/

theorem mapIdx_modify {α : Type} (l : List α) (f : Nat → α → α) (t : Nat) (g : α → α) :
    (l.mapIdx f).modify t g = l.mapIdx fun i x => if i = t then g (f i x) else f i x := by
  apply List.ext_getElem?
  intro i
  simp only [List.getElem?_modify, List.getElem?_mapIdx]
  cases l[i]? <;> simp [eq_comm]

theorem readyLanes_append (ps qs : List (Nat × Prep)) : readyLanes (ps ++ qs) = readyLanes ps ++ readyLanes qs := by
  simp [readyLanes]

theorem laneMarks_eq (s : State) (r : Ready) (x : Res) : laneMarks s r x = modThread s r.tid (markThread r x) := rfl

theorem modThread_twice (s : State) (t : Nat) (f g : Thread → Thread) :
    modThread (modThread s t f) t g = modThread s t (g ∘ f) := by
  simp [modThread, modAt, List.modify_modify_eq]

theorem moveOn_eq (s : State) (t : Nat) (pc : DWord) (len : Nat) (n : Next) :
    moveOn s t pc len n = modThread s t (moveThread pc len s.clk n) := by
  cases n with
  | fall => rfl
  | jump x => rfl
  | stay =>
    have : moveThread pc len s.clk .stay = id := rfl
    simp [moveOn, this, modThread, modAt]

theorem setStacks_group (ws : List Word) : ∀ (th : Thread) (p : Nat), (setStacks th p ws).group = th.group := by
  induction ws with
  | nil => intros; rfl
  | cons w ws ih => intro th p; simp only [setStacks, ih]; rfl

theorem setScratches_group (ws : List Word) : ∀ (th : Thread) (p : Nat), (setScratches th p ws).group = th.group := by
  induction ws with
  | nil => intros; rfl
  | cons w ws ih => intro th p; simp only [setScratches, ih]

theorem setPred_group (th : Thread) (n : Nat) (b : Bool) : (setPred th n b).group = th.group := by
  simp only [setPred]; split <;> rfl

theorem setHold_group (th : Thread) (h : Option (BitVec 2 × HoldName)) : (setHold th h).group = th.group := by
  cases h with
  | none => rfl
  | some p => simp only [setHold]; split <;> [rfl; (split <;> rfl)]

theorem setPreds_group (l : List (Nat × Bool)) :
    ∀ th : Thread, (l.foldl (fun th p => setPred th p.1 p.2) th).group = th.group := by
  induction l with
  | nil => intro; rfl
  | cons p l ih => intro th; simp only [List.foldl_cons, ih, setPred_group]

theorem markThread_group (r : Ready) (x : Res) (th : Thread) : (markThread r x th).group = th.group := by
  simp only [markThread, setPreds_group, setHold_group]

theorem writeThread_group (d : Loc) (ws : List Word) (th : Thread) : (writeThread d ws th).group = th.group := by
  cases d <;> simp only [writeThread, setStacks_group, setScratches_group]

theorem bareGroup_flags (w : Word) (fl : Flags) : (w ||| fl.setWidth 32) &&& 0xFFFFFFE0#32 = w &&& 0xFFFFFFE0#32 := by
  apply BitVec.eq_of_getLsbD_eq
  intro i hi
  simp only [BitVec.getLsbD_and, BitVec.getLsbD_or, BitVec.getLsbD_setWidth]
  by_cases h5 : i < 5
  · interval_cases i <;> simp
  · simp [BitVec.getLsbD_of_ge fl i (by omega)]

theorem doneGroup_bare (s : State) (rs : List Ready) (eff : Ready → Res) (g : Nat) (gr : Group) :
    bareGroup (doneGroup s rs eff g gr) = bareGroup gr := by
  have h : ∀ (l : List Ready) (w : Word),
      l.foldl (fun w r => w ||| (eff r).flags.setWidth 32) w &&& 0xFFFFFFE0#32 = w &&& 0xFFFFFFE0#32 := by
    intro l
    induction l with
    | nil => intro; rfl
    | cons r l ih => intro w; rw [List.foldl_cons, ih, bareGroup_flags]
  simp only [bareGroup, doneGroup, h]

/-- One lane's completion, in a state that has its thread. -/
theorem laneDone_eq (s : State) (r : Ready) (x : Res) (wrote : List Nat) (pc : DWord) (len : Nat) (pre : Thread → Thread)
    (th : Thread) (ht : s.threads[r.tid]? = some th) (hp : (pre th).group = th.group) :
    laneDone (modThread s r.tid pre) r x wrote pc len =
      ({ s with
         threads := s.threads.modify r.tid fun th => doneThread pc len s.clk r x (pre th)
         groups := s.groups.modify th.group fun gr => { gr with
           ks := if givesUniform r x && !wrote.contains th.group then writeUniform r.d x.vals gr.ks else gr.ks
           fpctl := gr.fpctl ||| x.flags.setWidth 32 } },
       if givesUniform r x && !wrote.contains th.group then th.group :: wrote else wrote) := by
  obtain ⟨hlt, hth⟩ := List.getElem?_eq_some_iff.mp ht
  have hflags : ∀ (s' : State) (th' : Thread), s'.threads[r.tid]? = some th' →
      orFlags s' r.tid x.flags = { s' with groups := s'.groups.modify th'.group fun g => { g with fpctl := g.fpctl ||| x.flags.setWidth 32 } } := by
    intro s' th' h'
    simp only [orFlags, h', Option.map_some, Option.getD_some]
    split
    · rename_i h0
      have : (fun g : Group => { g with fpctl := g.fpctl ||| x.flags.setWidth 32 }) = id := by
        funext g; simp [h0]
      rw [this, List.modify_id]
    · rfl
  cases hd : r.d with
  | vec p =>
    simp only [laneDone, laneMarks_eq, laneWrite, hd, writeLoc, moveOn_eq, givesUniform, Bool.false_and, modThread_twice]
    rw [hflags _ (setStacks (markThread r x (pre th)) p x.vals)
      (by simp [modThread, modAt, ht, Function.comp_def])]
    simp [modThread, modAt, List.modify_modify_eq, setStacks_group, markThread_group, hp, Function.comp_def, doneThread,
      writeThread, hd]
  | scr k =>
    simp only [laneDone, laneMarks_eq, laneWrite, hd, writeLoc, moveOn_eq, givesUniform, Bool.false_and, modThread_twice]
    rw [hflags _ (setScratches (markThread r x (pre th)) k x.vals)
      (by simp [modThread, modAt, ht, Function.comp_def])]
    simp [modThread, modAt, List.modify_modify_eq, setScratches_group, markThread_group, hp, Function.comp_def, doneThread,
      writeThread, hd]
  | void =>
    simp only [laneDone, laneMarks_eq, laneWrite, hd, writeLoc, moveOn_eq, givesUniform, Bool.false_and, modThread_twice]
    rw [hflags _ (markThread r x (pre th)) (by simp [modThread, modAt, ht, Function.comp_def])]
    simp [modThread, modAt, List.modify_modify_eq, markThread_group, hp, Function.comp_def, doneThread, writeThread, hd]
  | uni k =>
    have hg : ((modThread s r.tid (markThread r x ∘ pre)).threads[r.tid]?).map (·.group) = some th.group := by
      simp [modThread, modAt, ht, Function.comp_def, markThread_group, hp]
    simp only [laneDone, laneMarks_eq, laneWrite, hd, moveOn_eq, givesUniform, modThread_twice, hg, Option.getD_some]
    by_cases hw : x.vals.isEmpty = true ∨ wrote.contains th.group = true
    · rw [if_pos hw]
      have hb : (!x.vals.isEmpty && !wrote.contains th.group) = false := by
        rcases hw with h | h <;> simp only [h, Bool.not_true, Bool.false_and, Bool.and_false]
      simp only [hb]
      rw [hflags _ (markThread r x (pre th)) (by simp [modThread, modAt, ht, Function.comp_def])]
      simp [modThread, modAt, List.modify_modify_eq, markThread_group, hp, Function.comp_def, doneThread, writeThread, hd]
    · rw [if_neg hw]
      have hb : (!x.vals.isEmpty && !wrote.contains th.group) = true := by
        simp only [not_or, Bool.not_eq_true] at hw
        simp only [hw.1, hw.2, Bool.not_false, Bool.and_true]
      simp only [hb, writeLoc, hg, Option.getD_some]
      rw [hflags _ (markThread r x (pre th)) (by simp [modGroup, modThread, modAt, ht, Function.comp_def])]
      simp [modGroup, modThread, modAt, List.modify_modify_eq, markThread_group, hp, Function.comp_def, doneThread, writeThread,
        hd, writeUniform]

/-! All lanes. -/

theorem afterLanes_nil (s : State) (pc : DWord) (len : Nat) (pre eff) : afterLanes s pc len [] pre eff = s := by
  have h1 : (fun (_ : Nat) (th : Thread) => th) = fun _ => id := rfl
  have h2 : doneGroup s [] eff = fun _ => id := by funext g gr; rfl
  simp only [afterLanes, lookupNat, readyLanes, List.filterMap_nil, h2]
  simp [List.mapIdx_eq_zipIdx_map, Function.comp_def]

theorem afterLanes_view (s : State) (pc : DWord) (len : Nat) (ps pre eff) (t : Nat) (ht : t ∉ ps.map (·.1)) :
    LaneView s (afterLanes s pc len ps pre eff) t := by
  refine ⟨⟨_, _, rfl⟩, ?_, ?_⟩
  · simp only [afterLanes, List.getElem?_mapIdx, lookupNat_none ps t ht]
    cases s.threads[t]? <;> rfl
  · apply List.ext_getElem?
    intro i
    simp only [afterLanes, List.getElem?_map, List.getElem?_mapIdx]
    cases s.groups[i]? <;> simp [doneGroup_bare]

theorem doneGroup_append (s : State) (rs : List Ready) (r : Ready) (eff : Ready → Res) (g : Nat) (gr : Group) :
    doneGroup s (rs ++ [r]) eff g gr =
      if groupIdOf s r.tid = g then
        { doneGroup s rs eff g gr with
          ks := if givesUniform r (eff r) && !(rs.any fun x => decide (groupIdOf s x.tid = g) && givesUniform x (eff x))
                then writeUniform r.d (eff r).vals (doneGroup s rs eff g gr).ks else (doneGroup s rs eff g gr).ks
          fpctl := (doneGroup s rs eff g gr).fpctl ||| (eff r).flags.setWidth 32 }
      else doneGroup s rs eff g gr := by
  have hany : (rs.any fun x => decide (groupIdOf s x.tid = g) && givesUniform x (eff x))
      = ((rs.filter fun x => groupIdOf s x.tid = g).find? fun x => givesUniform x (eff x)).isSome := by
    clear gr
    induction rs with
    | nil => rfl
    | cons x l ih =>
      by_cases hx : groupIdOf s x.tid = g
      · cases hu : givesUniform x (eff x) <;> simp [hx, hu]
        simpa using ih
      · simp [hx]; simpa using ih
  split
  · rename_i h
    simp only [doneGroup, List.filter_append, List.filter_cons, h, decide_true, if_true, List.filter_nil, List.find?_append,
      List.foldl_append, List.foldl_cons, List.foldl_nil, hany]
    cases hf : (rs.filter fun x => groupIdOf s x.tid = g).find? fun x => givesUniform x (eff x) with
    | some y => simp
    | none => cases hu : givesUniform r (eff r) <;> simp [hu]
  · rename_i h
    simp only [doneGroup, List.filter_append, List.filter_cons, h, decide_false, Bool.false_eq_true, if_false, List.filter_nil,
      List.append_nil]

/-- Every lane in turn leaves what the lanes leave together. -/
theorem lanes_fold (s0 : State) (pc : DWord) (len : Nat) (body : State → Ready → LaneOut) (pre : Ready → Thread → Thread)
    (eff : Ready → Res) (ps : List (Nat × Prep)) (hnd : (ps.map (·.1)).Nodup)
    (hgo : ∀ p ∈ ps, p.2.goes = true)
    (htid : ∀ p ∈ ps, ∀ r, p.2 = .ready r → r.tid = p.1 ∧ (s0.threads[r.tid]?).isSome)
    (hpre : ∀ r th, (pre r th).group = th.group)
    (hb : ∀ p ∈ ps, ∀ r, p.2 = .ready r → ∀ s, LaneView s0 s r.tid → body s r = .ok (modThread s r.tid (pre r)) (eff r)) :
    ∃ wrote, ps.foldl (laneStep pc len body) ⟨s0, [], []⟩ = ⟨afterLanes s0 pc len ps pre eff, wrote, []⟩ ∧
      ∀ g, wrote.contains g = (readyLanes ps).any fun r => decide (groupIdOf s0 r.tid = g) && givesUniform r (eff r) := by
  induction ps using List.reverseRecOn with
  | nil => exact ⟨[], by simp [afterLanes_nil], by simp [readyLanes]⟩
  | append_singleton ps p ih =>
    simp only [List.map_append, List.map_cons, List.map_nil] at hnd
    obtain ⟨hnd1, -, hdis⟩ := List.nodup_append.mp hnd
    have hp : p.1 ∉ ps.map (·.1) := fun h => hdis _ h p.1 (by simp) rfl
    have hmem : ∀ q ∈ ps, q ∈ ps ++ [p] := fun q hq => List.mem_append_left _ hq
    obtain ⟨wrote, hfold, hw⟩ := ih hnd1 (fun q h => hgo q (hmem q h)) (fun q h => htid q (hmem q h))
      (fun q h => hb q (hmem q h))
    have hlast : p ∈ ps ++ [p] := by simp
    have hview := afterLanes_view s0 pc len ps pre eff p.1 hp
    rw [List.foldl_append, hfold]
    simp only [List.foldl_cons, List.foldl_nil]
    have hlook : ∀ t, lookupNat (ps ++ [p]) t = if t = p.1 then some p.2 else lookupNat ps t := by
      intro t
      rw [lookupNat_append]
      by_cases h : t = p.1
      · subst h; rw [lookupNat_none ps _ hp]; obtain ⟨k, v⟩ := p; simp [lookupNat]
      · obtain ⟨k, v⟩ := p; simp only [lookupNat]; simp only at h; simp [Ne.symm h, h]
    obtain ⟨t, v⟩ := p
    cases v with
    | trap i => exact absurd (hgo _ hlast) (by simp [Prep.goes])
    | hold w => exact absurd (hgo _ hlast) (by simp [Prep.goes])
    | inactive =>
      refine ⟨wrote, ?_, ?_⟩
      · simp only [laneStep]
        congr 1
        simp only [advance, modThread, modAt, afterLanes, mapIdx_modify, readyLanes_append]
        have : readyLanes [(t, Prep.inactive)] = [] := rfl
        rw [this, List.append_nil]
        congr 1
        congr 1
        funext i th
        rw [hlook]
        by_cases h : i = t
        · subst h
          have hn := lookupNat_none ps _ hp
          simp only at hn
          simp [hn, moveThread]
        · simp only [h, if_false]
      · intro g
        rw [hw, readyLanes_append]
        have : readyLanes [(t, Prep.inactive)] = [] := rfl
        rw [this, List.append_nil]
    | ready r =>
      obtain ⟨hr, hsome⟩ := htid _ hlast r rfl
      simp only at hr
      obtain ⟨th, hth⟩ := Option.isSome_iff_exists.mp hsome
      have hgid : groupIdOf s0 r.tid = th.group := by simp [groupIdOf, hth]
      have hth1 : (afterLanes s0 pc len ps pre eff).threads[r.tid]? = some th := by
        rw [hr]; rw [hr] at hth; rw [hview.thread, hth]
      simp only [laneStep]
      rw [hb _ hlast r rfl _ (by rw [hr]; exact hview)]
      simp only []
      rw [laneDone_eq _ r (eff r) wrote pc len (pre r) th hth1 (hpre r th)]
      refine ⟨if givesUniform r (eff r) && !wrote.contains th.group then th.group :: wrote else wrote, ?_, ?_⟩
      · congr 1
        simp only [afterLanes, mapIdx_modify, readyLanes_append]
        have : readyLanes [(t, Prep.ready r)] = [r] := rfl
        rw [this]
        congr 1
        · congr 1
          funext i th
          rw [hlook]
          by_cases h : i = t
          · subst h
            have hn := lookupNat_none ps _ hp
            simp only at hn
            simp [hn, hr]
          · simp only [hr, h, if_false]
        · congr 1
          funext g gr
          rw [doneGroup_append, hgid, hw th.group]
          by_cases h : th.group = g
          · subst h; simp
          · simp [h, Ne.symm h]
      · intro g
        rw [readyLanes_append]
        have : readyLanes [(t, Prep.ready r)] = [r] := rfl
        rw [this, List.any_append]
        simp only [List.any_cons, List.any_nil, Bool.or_false, ← hw g, hgid]
        by_cases hg : th.group = g
        · subst hg
          cases hu : givesUniform r (eff r) <;> cases hc : wrote.contains th.group <;>
            simp only [hc, Bool.false_and, Bool.true_and, Bool.and_true, Bool.and_false, Bool.not_false, Bool.not_true, if_true,
              Bool.false_eq_true, if_false, List.contains_cons, beq_self_eq_true, decide_true, Bool.or_false, Bool.true_or,
              Bool.or_true]
        · have : decide (th.group = g) = false := by simp [hg]
          split
          · rw [List.contains_cons]; simp [Ne.symm hg, this]
          · simp [this]

/-! An issue group that runs. -/

theorem runsBy_cur {s iss opc sig f} (h : runsBy s iss opc sig f = true) : s.cur = some iss := by
  simp only [runsBy, Bool.and_eq_true, decide_eq_true_eq] at h; exact h.1.1.1.1

theorem runsBy_some {s iss opc sig f} (h : runsBy s iss opc sig f = true) : iss.lanes.isEmpty = false := by
  simp only [runsBy, Bool.and_eq_true, decide_eq_true_eq] at h; simpa using h.1.1.1.2

theorem runsBy_nodup {s iss opc sig f} (h : runsBy s iss opc sig f = true) :
    ((preparedBy s iss sig f).map (·.1)).Nodup := by
  simp only [runsBy, Bool.and_eq_true, decide_eq_true_eq] at h
  rw [preparedBy, prepAll_tids]; exact h.1.1.2

theorem runsBy_noTrap {s iss opc sig f} (h : runsBy s iss opc sig f = true) :
    groupTrap s iss opc (sigOf opc f) f = none := by
  simp only [runsBy, Bool.and_eq_true] at h; simpa using h.1.2

theorem runsBy_goes {s iss opc sig f} (h : runsBy s iss opc sig f = true) :
    ∀ p ∈ preparedBy s iss sig f, p.2.goes = true := by
  simp only [runsBy, Bool.and_eq_true, List.all_eq_true] at h; exact h.2

theorem preparedBy_ready {s iss sig f p r} (h : p ∈ preparedBy s iss sig f) (hr : p.2 = .ready r) :
    r.tid = p.1 ∧ (s.threads[r.tid]?).isSome := by
  refine ⟨prepAll_tid h hr, ?_⟩
  rw [prepAll_tid h hr]
  simp only [preparedBy, prepAll, List.mem_map] at h
  obtain ⟨q, -, rfl⟩ := h
  dsimp only at hr ⊢
  split at hr
  · rename_i th hth; simp only [idle] at hth; simp [hth]
  · cases hr

theorem holdNotReady_goes (s : State) (ps : List (Nat × Prep)) (h : ∀ p ∈ ps, p.2.goes = true) : holdNotReady s ps = s := by
  induction ps with
  | nil => rfl
  | cons p ps ih =>
    have hp := h p (by simp)
    have ih := ih fun q hq => h q (by simp [hq])
    obtain ⟨t, v⟩ := p
    cases v with
    | hold w => cases hp
    | inactive => exact ih
    | trap i => exact ih
    | ready r => exact ih

theorem isHeld_goes (ps : List (Nat × Prep)) (h : ∀ p ∈ ps, p.2.goes = true) : ∀ p ∈ ps, isHeld p = false := by
  intro p hp
  have := h p hp
  cases hq : p.2 <;> simp_all [Prep.goes, isHeld]

theorem readyIssue_goes (iss : Issue) (ps : List (Nat × Prep)) (h : ∀ p ∈ ps, p.2.goes = true) : readyIssue iss ps = iss := by
  have hh := isHeld_goes ps h
  have : (iss.lanes.filter fun l => !ps.any fun p => p.1 = l.2 && isHeld p) = iss.lanes := by
    rw [List.filter_eq_self]
    intro l _
    simp only [Bool.not_eq_true', List.any_eq_false, Bool.and_eq_true, not_and]
    intro p hp _
    simp [hh p hp]
  simp only [readyIssue, this]

/-- An issue group that runs is its lanes in turn. -/
theorem runWith_runs {opc f s sig start pick body iss} (h : runsBy s iss opc sig f = true) :
    runWith opc f s sig start pick body =
      .next (runPreps (start (idle s) iss) iss opc f (pick (idle s) (preparedBy s iss sig f))
        (body iss (preparedBy s iss sig f))) := by
  have hg := runsBy_goes h
  simp only [runWith, runsBy_cur h, runsBy_noTrap h]
  have h2 : holdNotReady { s with cur := none } (prepAll { s with cur := none } iss sig f) = idle s :=
    holdNotReady_goes _ _ hg
  have h3 : readyIssue iss (prepAll { s with cur := none } iss sig f) = iss := readyIssue_goes _ _ hg
  have h4 : (prepAll { s with cur := none } iss sig f).any isHeld = false := by
    rw [List.any_eq_false]
    intro p hp
    simp [isHeld_goes _ hg p hp]
  rw [h2, h3, h4, runsBy_some h]
  rfl

/-- An instruction that completes in every active lane leaves `afterLanes`. -/
theorem runWith_completes {opc f s sig start body iss} (h : runsBy s iss opc sig f = true)
    (pre : Ready → Thread → Thread) (eff : Ready → Res)
    (hstart : (start (idle s) iss).threads = s.threads)
    (hpre : ∀ r th, (pre r th).group = th.group)
    (hb : ∀ p ∈ preparedBy s iss sig f, ∀ r, p.2 = .ready r → ∀ s', LaneView (start (idle s) iss) s' r.tid →
      body iss (preparedBy s iss sig f) s' r = .ok (modThread s' r.tid (pre r)) (eff r)) :
    runWith opc f s sig start (fun _ ps => ps) body =
      .next (afterLanes (start (idle s) iss) iss.pc f.len.bytes (preparedBy s iss sig f) pre eff) := by
  rw [runWith_runs h]
  obtain ⟨wrote, hfold, -⟩ := lanes_fold (start (idle s) iss) iss.pc f.len.bytes (body iss (preparedBy s iss sig f)) pre eff
    (preparedBy s iss sig f) (runsBy_nodup h) (runsBy_goes h)
    (fun p hp r hr => by rw [hstart]; exact preparedBy_ready hp hr) hpre hb
  simp only [runPreps, hfold, List.isEmpty_nil, if_true]

/-- The common case: a pure result in every active lane. -/
theorem runLanes_completes {opc f s body iss} (h : runs s iss opc f = true) (eff : Ready → Res)
    (hb : ∀ p ∈ prepared s iss opc f, ∀ r, p.2 = .ready r → ∀ s', LaneView (idle s) s' r.tid →
      body iss (prepared s iss opc f) s' r = .ok s' (eff r)) :
    runLanes opc f s body =
      .next (afterLanes (idle s) iss.pc f.len.bytes (prepared s iss opc f) (fun _ th => th) eff) := by
  refine runWith_completes h (fun _ th => th) eff rfl (fun _ _ => rfl) ?_
  intro p hp r hr s' hv
  have : modThread s' r.tid (fun th => th) = s' := by
    have : (fun th : Thread => th) = id := rfl
    simp [modThread, modAt, this]
  rw [this]
  exact hb p hp r hr s' hv

/-- An instruction that writes a value completes in every active lane. -/
theorem runValue_completes {opc f s iss w value} (h : runs s iss opc f = true) :
    runValue opc f s w value =
      .next (afterLanes (idle s) iss.pc f.len.bytes (prepared s iss opc f) (fun _ th => th)
        fun r => { vals := valueWords w (value r) }) :=
  runLanes_completes h _ fun _ _ _ _ _ _ => rfl

/-- An instruction that writes a value and raises flags completes in every active lane. -/
theorem runFlagged_completes {opc f s iss w value} (h : runs s iss opc f = true) :
    runFlagged opc f s w (fun s _ => s) value =
      .next (afterLanes (idle s) iss.pc f.len.bytes (prepared s iss opc f) (fun _ th => th)
        fun r => { vals := valueWords w (value iss r).bits, flags := (value iss r).flags }) :=
  runLanes_completes h _ fun _ _ _ _ _ _ => rfl

/-! An issue group of one lane. -/

theorem runsBy_sat {s iss opc sig f r} (h : Alone s iss opc sig f r) : (s.threads[r.tid]?).isSome :=
  (preparedBy_ready (p := (r.tid, .ready r)) (by rw [h.only]; simp) rfl).2

/-- What one lane's effect makes of the issue group. -/
def aloneOut (s : State) (iss : Issue) (opc : BitVec 8) (f : Form) (r : Ready) : LaneOut → State
  | .ok s' x => (laneDone s' r x [] iss.pc f.len.bytes).1
  | .suspend s' => s'
  | .hold w => holdAt s r.tid w
  | .trap i => takeTraps s [trapReq iss opc f r.tid i]

theorem runWith_alone {opc f s sig start pick body iss r} (h : Alone s iss opc sig f r)
    (hpick : pick (idle s) [(r.tid, .ready r)] = [(r.tid, .ready r)]) :
    runWith opc f s sig start pick body =
      .next (aloneOut (start (idle s) iss) iss opc f r (body iss [(r.tid, .ready r)] (start (idle s) iss) r)) := by
  rw [runWith_runs h.runs, h.only, hpick]
  have key : ∀ o, body iss [(r.tid, .ready r)] (start (idle s) iss) r = o →
      runPreps (start (idle s) iss) iss opc f [(r.tid, .ready r)] (body iss [(r.tid, .ready r)])
        = aloneOut (start (idle s) iss) iss opc f r o := by
    intro o ho
    cases o <;> simp [runPreps, laneStep, ho, aloneOut]
  rw [key _ rfl]

theorem runLanes_alone {opc f s body iss r} (h : Single s iss opc f r) :
    runLanes opc f s body = .next (aloneOut (idle s) iss opc f r (body iss [(r.tid, .ready r)] (idle s) r)) :=
  runWith_alone h rfl

/-- A lane that completes leaves its result in the state of the other effects. -/
theorem aloneOut_ok {s s' iss opc f r x} (hs : (s'.threads[r.tid]?).isSome) :
    aloneOut s iss opc f r (.ok s' x) = leaves s' iss f r x := by
  obtain ⟨th, hth⟩ := Option.isSome_iff_exists.mp hs
  have h := laneDone_eq s' r x [] iss.pc f.len.bytes (fun th => th) th hth rfl
  have hid : modThread s' r.tid (fun th => th) = s' := by
    have : (fun th : Thread => th) = id := rfl
    simp [modThread, modAt, this]
  rw [hid] at h
  simp only [aloneOut, h, leaves, groupIdOf, hth, Option.map_some, Option.getD_some]
  congr 1
  congr 1
  funext gr
  cases hd : r.d with
  | uni k =>
    simp only [givesUniform, hd, writeUniform, List.contains_nil, Bool.not_false, Bool.and_true]
    cases hv : x.vals with
    | nil => simp [setUnis]
    | cons a l => simp
  | vec p => simp [givesUniform, hd, writeUniform]
  | scr p => simp [givesUniform, hd, writeUniform]
  | void => simp [givesUniform, hd, writeUniform]

/-- One lane that completes. -/
theorem runLanes_leaves {opc f s body iss r s' x} (h : Single s iss opc f r)
    (hb : body iss [(r.tid, .ready r)] (idle s) r = .ok s' x) (hs : (s'.threads[r.tid]?).isSome) :
    runLanes opc f s body = .next (leaves s' iss f r x) := by
  rw [runLanes_alone h, hb, aloneOut_ok hs]

/-- One lane that traps. -/
theorem runLanes_traps {opc f s body iss r i} (h : Single s iss opc f r)
    (hb : body iss [(r.tid, .ready r)] (idle s) r = .trap i) :
    runLanes opc f s body = .next (trapped (idle s) iss opc f r.tid i) := by
  rw [runLanes_alone h, hb]; rfl

/-- One lane that waits. -/
theorem runLanes_waits {opc f s body iss r w} (h : Single s iss opc f r)
    (hb : body iss [(r.tid, .ready r)] (idle s) r = .hold w) :
    runLanes opc f s body = .next (waitsAt (idle s) r.tid w) := by
  rw [runLanes_alone h, hb]; rfl

/-- One lane that has acted and waits. -/
theorem runLanes_suspends {opc f s body iss r s'} (h : Single s iss opc f r)
    (hb : body iss [(r.tid, .ready r)] (idle s) r = .suspend s') : runLanes opc f s body = .next s' := by
  rw [runLanes_alone h, hb]; rfl

end Sys2Proof.Machine
end

