-- ==== Sys2Proof/Laws/Gives.lean ====
section
/-! SUPPORT. From the model's shared forms of an instruction to the statements' forms. -/

namespace Sys2Proof.Claims

open Sys2Proof.Machine

theorem regs32 (v : DWord) : valueWords 32 v = oneReg v := rfl
theorem regs64 (v : DWord) : valueWords 64 v = pairRegs v := rfl

theorem givesWords_of {mk : Form → Instr} {opc : BitVec 8} {w : Form → Nat} {value : Form → Ready → DWord}
    {ws : Form → Ready → List Word}
    (he : ∀ f s, exec (mk f) s = runValue opc f s (w f) (value f))
    (hv : ∀ f r, valueWords (w f) (value f r) = ws f r) : GivesWords mk opc ws := by
  intro f s iss h
  rw [completes, he, runValue_completes h]
  simp only [hv, prepared]

theorem sat_eq (opc : BitVec 8) (f : Form) (h : (sigOf opc f).satBit = some 3) : satOf opc f = saturates opc f := by
  simp only [satOf, satCtl, saturates, h, modCtl, extSat]

theorem typeOf_eq (f : Form) : kindOf (itOf f) = typeOf f := rfl

theorem byteNum_eq (s : Bool) (i : Nat) (x : DWord) : intLow s 8 (byteOf i x) = byteNum s i x := by
  rw [intLow_eq s 8 (by omega)]
  have : (byteOf i x).setWidth 8 = (x >>> (8 * i)).setWidth 8 := by
    apply BitVec.eq_of_getLsbD_eq
    intro j hj
    interval_cases j <;> simp [byteOf]
  simp only [num, byteNum, this]


theorem pred_eq (s : State) (t n : Nat) (hs : (s.threads[t]?).isSome) : predAt s t n = predicate s t n := by
  obtain ⟨th, hth⟩ := Option.isSome_iff_exists.mp hs
  simp only [predAt, predicate, hth, predOf]
  by_cases h7 : n = 7 <;> simp [h7]

theorem pred_view {s0 s' : State} {t : Nat} (hv : LaneView s0 s' t) (hs : (s0.threads[t]?).isSome) (n : Nat) :
    predAt s' t n = predicate s0 t n := by
  rw [pred_eq]
  · simp only [predicate, hv.thread]
  · rw [hv.thread]; exact hs
theorem modBits_eq (m : BitVec 6) (lo n : Nat) : modBits m (lo + n - 1) lo = (m.extractLsb' lo n).toNat ∨ n = 0 := by
  rcases Nat.eq_zero_or_pos n with h | h
  · exact .inr h
  · left
    simp [modBits, Nat.shiftRight_eq_div_pow, show lo + n - 1 - lo + 1 = n by omega]


theorem modBits_at (m : BitVec 6) (hi lo n : Nat) (h : hi + 1 = lo + n) (hn : 0 < n) : modBits m hi lo = (m.extractLsb' lo n).toNat := by
  have := (modBits_eq m lo n).resolve_right (by omega)
  rw [← this]; congr 1; omega

theorem readyLanes_mem {ps : List (Nat × Prep)} {p r} (hp : p ∈ ps) (hr : p.2 = .ready r) : r ∈ readyLanes ps := by
  simp only [readyLanes, List.mem_filterMap]
  exact ⟨p, hp, by simp [hr]⟩

theorem bare_team {a b : Group} (h : bareGroup a = bareGroup b) : a.team = b.team := by
  have := congrArg Group.team h; simpa [bareGroup] using this

theorem teamOf_view {s0 s' : State} {t : Nat} (hv : LaneView s0 s' t) : teamOf s' t = teamOf s0 t := by
  obtain ⟨⟨ths, gs, rfl⟩, ht, hg⟩ := hv
  simp only [teamOf, groupOf, ht]
  cases hth : s0.threads[t]? with
  | none => rfl
  | some th =>
    simp only [Option.bind_some]
    have h2 := congrArg (fun l => l[th.group]?) hg
    simp only [List.getElem?_map] at h2
    cases h3 : gs[th.group]? <;> cases h4 : s0.groups[th.group]? <;> simp_all
    rw [bare_team h2]

theorem contextOf_view {s0 s' : State} {t : Nat} (hv : LaneView s0 s' t) : contextOf s' t = contextOf s0 t := by
  simp only [contextOf, ctxOf, gridOf, teamOf_view hv]
  obtain ⟨⟨ths, gs, rfl⟩, -, -⟩ := hv
  rfl

theorem runFlagged_start {opc f s iss w value start} (h : runs s iss opc f = true)
    (hs : (start (idle s) iss).threads = s.threads) :
    runFlagged opc f s w start value =
      .next (afterLanes (start (idle s) iss) iss.pc f.len.bytes (prepared s iss opc f) (fun _ th => th)
        fun r => { vals := valueWords w (value iss r).bits, flags := (value iss r).flags }) := by
  refine (runWith_completes h (fun _ th => th) _ hs (fun _ _ => rfl) ?_)
  intro p hp r hr s' hv
  have : modThread s' r.tid (fun th => th) = s' := by
    have : (fun th : Thread => th) = id := rfl
    simp [modThread, modAt, this]
  rw [this]

theorem setCore_threads (s : State) (c : Core) : (setCore s c).threads = s.threads := by
  simp only [setCore]; split <;> rfl

theorem convStart_threads (opc f) (s : State) (iss) : (convStart opc f s iss).threads = s.threads := by
  simp only [convStart]; split
  · simp only [advanceGen, modCore, setCore_threads]
  · rfl

theorem floats_eq (w : Nat) (h : w = 32 ∨ w = 64) (v : FRes) :
    ({ vals := valueWords w v.bits, flags := v.flags } : Res) = floats w v := by
  rcases h with rfl | rfl <;> rfl

end Sys2Proof.Claims
end

