-- ==== Sys2Proof/Laws/State.lean ====
section
/-! SUPPORT. What each update of the state leaves in each field, and cores as they are read after a change. -/

namespace Sys2Proof.Machine


@[simp] theorem modThread_threads (s : State) (t : Nat) (f : Thread → Thread) : (modThread s t f).threads = modAt s.threads t f := rfl
@[simp] theorem modThread_groups (s : State) (t : Nat) (f : Thread → Thread) : (modThread s t f).groups = s.groups := rfl
@[simp] theorem modThread_teams (s : State) (t : Nat) (f : Thread → Thread) : (modThread s t f).teams = s.teams := rfl
@[simp] theorem modThread_clusters (s : State) (t : Nat) (f : Thread → Thread) : (modThread s t f).clusters = s.clusters := rfl
@[simp] theorem modThread_grids (s : State) (t : Nat) (f : Thread → Thread) : (modThread s t f).grids = s.grids := rfl
@[simp] theorem modThread_contexts (s : State) (t : Nat) (f : Thread → Thread) : (modThread s t f).contexts = s.contexts := rfl
@[simp] theorem modThread_cores (s : State) (t : Nat) (f : Thread → Thread) : (modThread s t f).cores = s.cores := rfl
@[simp] theorem modThread_dies (s : State) (t : Nat) (f : Thread → Thread) : (modThread s t f).dies = s.dies := rfl
@[simp] theorem modThread_homes (s : State) (t : Nat) (f : Thread → Thread) : (modThread s t f).homes = s.homes := rfl
@[simp] theorem modThread_mem (s : State) (t : Nat) (f : Thread → Thread) : (modThread s t f).mem = s.mem := rfl
@[simp] theorem modThread_tlb (s : State) (t : Nat) (f : Thread → Thread) : (modThread s t f).tlb = s.tlb := rfl
@[simp] theorem modThread_graphs (s : State) (t : Nat) (f : Thread → Thread) : (modThread s t f).graphs = s.graphs := rfl
@[simp] theorem modThread_accs (s : State) (t : Nat) (f : Thread → Thread) : (modThread s t f).accs = s.accs := rfl
@[simp] theorem modThread_engines (s : State) (t : Nat) (f : Thread → Thread) : (modThread s t f).engines = s.engines := rfl
@[simp] theorem modThread_lodes (s : State) (t : Nat) (f : Thread → Thread) : (modThread s t f).lodes = s.lodes := rfl
@[simp] theorem modThread_out (s : State) (t : Nat) (f : Thread → Thread) : (modThread s t f).out = s.out := rfl
@[simp] theorem modThread_sessions (s : State) (t : Nat) (f : Thread → Thread) : (modThread s t f).sessions = s.sessions := rfl
@[simp] theorem modThread_sluices (s : State) (t : Nat) (f : Thread → Thread) : (modThread s t f).sluices = s.sluices := rfl
@[simp] theorem modThread_measures (s : State) (t : Nat) (f : Thread → Thread) : (modThread s t f).measures = s.measures := rfl
@[simp] theorem modThread_routines (s : State) (t : Nat) (f : Thread → Thread) : (modThread s t f).routines = s.routines := rfl
@[simp] theorem modThread_clk (s : State) (t : Nat) (f : Thread → Thread) : (modThread s t f).clk = s.clk := rfl
@[simp] theorem modThread_pushMode (s : State) (t : Nat) (f : Thread → Thread) : (modThread s t f).pushMode = s.pushMode := rfl
@[simp] theorem modThread_bringUp (s : State) (t : Nat) (f : Thread → Thread) : (modThread s t f).bringUp = s.bringUp := rfl
@[simp] theorem modThread_power (s : State) (t : Nat) (f : Thread → Thread) : (modThread s t f).power = s.power := rfl
@[simp] theorem modThread_node (s : State) (t : Nat) (f : Thread → Thread) : (modThread s t f).node = s.node := rfl
@[simp] theorem modThread_routeTable (s : State) (t : Nat) (f : Thread → Thread) : (modThread s t f).routeTable = s.routeTable := rfl
@[simp] theorem modThread_lodeRetired (s : State) (t : Nat) (f : Thread → Thread) : (modThread s t f).lodeRetired = s.lodeRetired := rfl
@[simp] theorem modThread_causewayRetired (s : State) (t : Nat) (f : Thread → Thread) : (modThread s t f).causewayRetired = s.causewayRetired := rfl
@[simp] theorem modThread_corrected (s : State) (t : Nat) (f : Thread → Thread) : (modThread s t f).corrected = s.corrected := rfl
@[simp] theorem modThread_replays (s : State) (t : Nat) (f : Thread → Thread) : (modThread s t f).replays = s.replays := rfl
@[simp] theorem modThread_inbox (s : State) (t : Nat) (f : Thread → Thread) : (modThread s t f).inbox = s.inbox := rfl
@[simp] theorem modThread_fatal (s : State) (t : Nat) (f : Thread → Thread) : (modThread s t f).fatal = s.fatal := rfl
@[simp] theorem modThread_clockStopped (s : State) (t : Nat) (f : Thread → Thread) : (modThread s t f).clockStopped = s.clockStopped := rfl
@[simp] theorem modThread_lodeUp (s : State) (t : Nat) (f : Thread → Thread) : (modThread s t f).lodeUp = s.lodeUp := rfl
@[simp] theorem modThread_ptimeReported (s : State) (t : Nat) (f : Thread → Thread) : (modThread s t f).ptimeReported = s.ptimeReported := rfl
@[simp] theorem modThread_ticked (s : State) (t : Nat) (f : Thread → Thread) : (modThread s t f).ticked = s.ticked := rfl
@[simp] theorem modThread_polled (s : State) (t : Nat) (f : Thread → Thread) : (modThread s t f).polled = s.polled := rfl
@[simp] theorem modThread_overcurrent (s : State) (t : Nat) (f : Thread → Thread) : (modThread s t f).overcurrent = s.overcurrent := rfl
@[simp] theorem modThread_nextId (s : State) (t : Nat) (f : Thread → Thread) : (modThread s t f).nextId = s.nextId := rfl
@[simp] theorem modThread_seed (s : State) (t : Nat) (f : Thread → Thread) : (modThread s t f).seed = s.seed := rfl
@[simp] theorem modThread_issueNo (s : State) (t : Nat) (f : Thread → Thread) : (modThread s t f).issueNo = s.issueNo := rfl
@[simp] theorem modThread_cur (s : State) (t : Nat) (f : Thread → Thread) : (modThread s t f).cur = s.cur := rfl
@[simp] theorem modThread_net (s : State) (t : Nat) (f : Thread → Thread) : (modThread s t f).net = s.net := rfl
@[simp] theorem modThread_agenda (s : State) (t : Nat) (f : Thread → Thread) : (modThread s t f).agenda = s.agenda := rfl
@[simp] theorem modThread_errors (s : State) (t : Nat) (f : Thread → Thread) : (modThread s t f).errors = s.errors := rfl

@[simp] theorem modGroup_threads (s : State) (t : Nat) (f : Group → Group) : (modGroup s t f).threads = s.threads := rfl
@[simp] theorem modGroup_groups (s : State) (t : Nat) (f : Group → Group) : (modGroup s t f).groups = modAt s.groups t f := rfl
@[simp] theorem modGroup_teams (s : State) (t : Nat) (f : Group → Group) : (modGroup s t f).teams = s.teams := rfl
@[simp] theorem modGroup_clusters (s : State) (t : Nat) (f : Group → Group) : (modGroup s t f).clusters = s.clusters := rfl
@[simp] theorem modGroup_grids (s : State) (t : Nat) (f : Group → Group) : (modGroup s t f).grids = s.grids := rfl
@[simp] theorem modGroup_contexts (s : State) (t : Nat) (f : Group → Group) : (modGroup s t f).contexts = s.contexts := rfl
@[simp] theorem modGroup_cores (s : State) (t : Nat) (f : Group → Group) : (modGroup s t f).cores = s.cores := rfl
@[simp] theorem modGroup_dies (s : State) (t : Nat) (f : Group → Group) : (modGroup s t f).dies = s.dies := rfl
@[simp] theorem modGroup_homes (s : State) (t : Nat) (f : Group → Group) : (modGroup s t f).homes = s.homes := rfl
@[simp] theorem modGroup_mem (s : State) (t : Nat) (f : Group → Group) : (modGroup s t f).mem = s.mem := rfl
@[simp] theorem modGroup_tlb (s : State) (t : Nat) (f : Group → Group) : (modGroup s t f).tlb = s.tlb := rfl
@[simp] theorem modGroup_graphs (s : State) (t : Nat) (f : Group → Group) : (modGroup s t f).graphs = s.graphs := rfl
@[simp] theorem modGroup_accs (s : State) (t : Nat) (f : Group → Group) : (modGroup s t f).accs = s.accs := rfl
@[simp] theorem modGroup_engines (s : State) (t : Nat) (f : Group → Group) : (modGroup s t f).engines = s.engines := rfl
@[simp] theorem modGroup_lodes (s : State) (t : Nat) (f : Group → Group) : (modGroup s t f).lodes = s.lodes := rfl
@[simp] theorem modGroup_out (s : State) (t : Nat) (f : Group → Group) : (modGroup s t f).out = s.out := rfl
@[simp] theorem modGroup_sessions (s : State) (t : Nat) (f : Group → Group) : (modGroup s t f).sessions = s.sessions := rfl
@[simp] theorem modGroup_sluices (s : State) (t : Nat) (f : Group → Group) : (modGroup s t f).sluices = s.sluices := rfl
@[simp] theorem modGroup_measures (s : State) (t : Nat) (f : Group → Group) : (modGroup s t f).measures = s.measures := rfl
@[simp] theorem modGroup_routines (s : State) (t : Nat) (f : Group → Group) : (modGroup s t f).routines = s.routines := rfl
@[simp] theorem modGroup_clk (s : State) (t : Nat) (f : Group → Group) : (modGroup s t f).clk = s.clk := rfl
@[simp] theorem modGroup_pushMode (s : State) (t : Nat) (f : Group → Group) : (modGroup s t f).pushMode = s.pushMode := rfl
@[simp] theorem modGroup_bringUp (s : State) (t : Nat) (f : Group → Group) : (modGroup s t f).bringUp = s.bringUp := rfl
@[simp] theorem modGroup_power (s : State) (t : Nat) (f : Group → Group) : (modGroup s t f).power = s.power := rfl
@[simp] theorem modGroup_node (s : State) (t : Nat) (f : Group → Group) : (modGroup s t f).node = s.node := rfl
@[simp] theorem modGroup_routeTable (s : State) (t : Nat) (f : Group → Group) : (modGroup s t f).routeTable = s.routeTable := rfl
@[simp] theorem modGroup_lodeRetired (s : State) (t : Nat) (f : Group → Group) : (modGroup s t f).lodeRetired = s.lodeRetired := rfl
@[simp] theorem modGroup_causewayRetired (s : State) (t : Nat) (f : Group → Group) : (modGroup s t f).causewayRetired = s.causewayRetired := rfl
@[simp] theorem modGroup_corrected (s : State) (t : Nat) (f : Group → Group) : (modGroup s t f).corrected = s.corrected := rfl
@[simp] theorem modGroup_replays (s : State) (t : Nat) (f : Group → Group) : (modGroup s t f).replays = s.replays := rfl
@[simp] theorem modGroup_inbox (s : State) (t : Nat) (f : Group → Group) : (modGroup s t f).inbox = s.inbox := rfl
@[simp] theorem modGroup_fatal (s : State) (t : Nat) (f : Group → Group) : (modGroup s t f).fatal = s.fatal := rfl
@[simp] theorem modGroup_clockStopped (s : State) (t : Nat) (f : Group → Group) : (modGroup s t f).clockStopped = s.clockStopped := rfl
@[simp] theorem modGroup_lodeUp (s : State) (t : Nat) (f : Group → Group) : (modGroup s t f).lodeUp = s.lodeUp := rfl
@[simp] theorem modGroup_ptimeReported (s : State) (t : Nat) (f : Group → Group) : (modGroup s t f).ptimeReported = s.ptimeReported := rfl
@[simp] theorem modGroup_ticked (s : State) (t : Nat) (f : Group → Group) : (modGroup s t f).ticked = s.ticked := rfl
@[simp] theorem modGroup_polled (s : State) (t : Nat) (f : Group → Group) : (modGroup s t f).polled = s.polled := rfl
@[simp] theorem modGroup_overcurrent (s : State) (t : Nat) (f : Group → Group) : (modGroup s t f).overcurrent = s.overcurrent := rfl
@[simp] theorem modGroup_nextId (s : State) (t : Nat) (f : Group → Group) : (modGroup s t f).nextId = s.nextId := rfl
@[simp] theorem modGroup_seed (s : State) (t : Nat) (f : Group → Group) : (modGroup s t f).seed = s.seed := rfl
@[simp] theorem modGroup_issueNo (s : State) (t : Nat) (f : Group → Group) : (modGroup s t f).issueNo = s.issueNo := rfl
@[simp] theorem modGroup_cur (s : State) (t : Nat) (f : Group → Group) : (modGroup s t f).cur = s.cur := rfl
@[simp] theorem modGroup_net (s : State) (t : Nat) (f : Group → Group) : (modGroup s t f).net = s.net := rfl
@[simp] theorem modGroup_agenda (s : State) (t : Nat) (f : Group → Group) : (modGroup s t f).agenda = s.agenda := rfl
@[simp] theorem modGroup_errors (s : State) (t : Nat) (f : Group → Group) : (modGroup s t f).errors = s.errors := rfl

@[simp] theorem modTeam_threads (s : State) (t : Nat) (f : Team → Team) : (modTeam s t f).threads = s.threads := rfl
@[simp] theorem modTeam_groups (s : State) (t : Nat) (f : Team → Team) : (modTeam s t f).groups = s.groups := rfl
@[simp] theorem modTeam_teams (s : State) (t : Nat) (f : Team → Team) : (modTeam s t f).teams = modAt s.teams t f := rfl
@[simp] theorem modTeam_clusters (s : State) (t : Nat) (f : Team → Team) : (modTeam s t f).clusters = s.clusters := rfl
@[simp] theorem modTeam_grids (s : State) (t : Nat) (f : Team → Team) : (modTeam s t f).grids = s.grids := rfl
@[simp] theorem modTeam_contexts (s : State) (t : Nat) (f : Team → Team) : (modTeam s t f).contexts = s.contexts := rfl
@[simp] theorem modTeam_cores (s : State) (t : Nat) (f : Team → Team) : (modTeam s t f).cores = s.cores := rfl
@[simp] theorem modTeam_dies (s : State) (t : Nat) (f : Team → Team) : (modTeam s t f).dies = s.dies := rfl
@[simp] theorem modTeam_homes (s : State) (t : Nat) (f : Team → Team) : (modTeam s t f).homes = s.homes := rfl
@[simp] theorem modTeam_mem (s : State) (t : Nat) (f : Team → Team) : (modTeam s t f).mem = s.mem := rfl
@[simp] theorem modTeam_tlb (s : State) (t : Nat) (f : Team → Team) : (modTeam s t f).tlb = s.tlb := rfl
@[simp] theorem modTeam_graphs (s : State) (t : Nat) (f : Team → Team) : (modTeam s t f).graphs = s.graphs := rfl
@[simp] theorem modTeam_accs (s : State) (t : Nat) (f : Team → Team) : (modTeam s t f).accs = s.accs := rfl
@[simp] theorem modTeam_engines (s : State) (t : Nat) (f : Team → Team) : (modTeam s t f).engines = s.engines := rfl
@[simp] theorem modTeam_lodes (s : State) (t : Nat) (f : Team → Team) : (modTeam s t f).lodes = s.lodes := rfl
@[simp] theorem modTeam_out (s : State) (t : Nat) (f : Team → Team) : (modTeam s t f).out = s.out := rfl
@[simp] theorem modTeam_sessions (s : State) (t : Nat) (f : Team → Team) : (modTeam s t f).sessions = s.sessions := rfl
@[simp] theorem modTeam_sluices (s : State) (t : Nat) (f : Team → Team) : (modTeam s t f).sluices = s.sluices := rfl
@[simp] theorem modTeam_measures (s : State) (t : Nat) (f : Team → Team) : (modTeam s t f).measures = s.measures := rfl
@[simp] theorem modTeam_routines (s : State) (t : Nat) (f : Team → Team) : (modTeam s t f).routines = s.routines := rfl
@[simp] theorem modTeam_clk (s : State) (t : Nat) (f : Team → Team) : (modTeam s t f).clk = s.clk := rfl
@[simp] theorem modTeam_pushMode (s : State) (t : Nat) (f : Team → Team) : (modTeam s t f).pushMode = s.pushMode := rfl
@[simp] theorem modTeam_bringUp (s : State) (t : Nat) (f : Team → Team) : (modTeam s t f).bringUp = s.bringUp := rfl
@[simp] theorem modTeam_power (s : State) (t : Nat) (f : Team → Team) : (modTeam s t f).power = s.power := rfl
@[simp] theorem modTeam_node (s : State) (t : Nat) (f : Team → Team) : (modTeam s t f).node = s.node := rfl
@[simp] theorem modTeam_routeTable (s : State) (t : Nat) (f : Team → Team) : (modTeam s t f).routeTable = s.routeTable := rfl
@[simp] theorem modTeam_lodeRetired (s : State) (t : Nat) (f : Team → Team) : (modTeam s t f).lodeRetired = s.lodeRetired := rfl
@[simp] theorem modTeam_causewayRetired (s : State) (t : Nat) (f : Team → Team) : (modTeam s t f).causewayRetired = s.causewayRetired := rfl
@[simp] theorem modTeam_corrected (s : State) (t : Nat) (f : Team → Team) : (modTeam s t f).corrected = s.corrected := rfl
@[simp] theorem modTeam_replays (s : State) (t : Nat) (f : Team → Team) : (modTeam s t f).replays = s.replays := rfl
@[simp] theorem modTeam_inbox (s : State) (t : Nat) (f : Team → Team) : (modTeam s t f).inbox = s.inbox := rfl
@[simp] theorem modTeam_fatal (s : State) (t : Nat) (f : Team → Team) : (modTeam s t f).fatal = s.fatal := rfl
@[simp] theorem modTeam_clockStopped (s : State) (t : Nat) (f : Team → Team) : (modTeam s t f).clockStopped = s.clockStopped := rfl
@[simp] theorem modTeam_lodeUp (s : State) (t : Nat) (f : Team → Team) : (modTeam s t f).lodeUp = s.lodeUp := rfl
@[simp] theorem modTeam_ptimeReported (s : State) (t : Nat) (f : Team → Team) : (modTeam s t f).ptimeReported = s.ptimeReported := rfl
@[simp] theorem modTeam_ticked (s : State) (t : Nat) (f : Team → Team) : (modTeam s t f).ticked = s.ticked := rfl
@[simp] theorem modTeam_polled (s : State) (t : Nat) (f : Team → Team) : (modTeam s t f).polled = s.polled := rfl
@[simp] theorem modTeam_overcurrent (s : State) (t : Nat) (f : Team → Team) : (modTeam s t f).overcurrent = s.overcurrent := rfl
@[simp] theorem modTeam_nextId (s : State) (t : Nat) (f : Team → Team) : (modTeam s t f).nextId = s.nextId := rfl
@[simp] theorem modTeam_seed (s : State) (t : Nat) (f : Team → Team) : (modTeam s t f).seed = s.seed := rfl
@[simp] theorem modTeam_issueNo (s : State) (t : Nat) (f : Team → Team) : (modTeam s t f).issueNo = s.issueNo := rfl
@[simp] theorem modTeam_cur (s : State) (t : Nat) (f : Team → Team) : (modTeam s t f).cur = s.cur := rfl
@[simp] theorem modTeam_net (s : State) (t : Nat) (f : Team → Team) : (modTeam s t f).net = s.net := rfl
@[simp] theorem modTeam_agenda (s : State) (t : Nat) (f : Team → Team) : (modTeam s t f).agenda = s.agenda := rfl
@[simp] theorem modTeam_errors (s : State) (t : Nat) (f : Team → Team) : (modTeam s t f).errors = s.errors := rfl

@[simp] theorem modCluster_threads (s : State) (t : Nat) (f : Cluster → Cluster) : (modCluster s t f).threads = s.threads := rfl
@[simp] theorem modCluster_groups (s : State) (t : Nat) (f : Cluster → Cluster) : (modCluster s t f).groups = s.groups := rfl
@[simp] theorem modCluster_teams (s : State) (t : Nat) (f : Cluster → Cluster) : (modCluster s t f).teams = s.teams := rfl
@[simp] theorem modCluster_clusters (s : State) (t : Nat) (f : Cluster → Cluster) : (modCluster s t f).clusters = modAt s.clusters t f := rfl
@[simp] theorem modCluster_grids (s : State) (t : Nat) (f : Cluster → Cluster) : (modCluster s t f).grids = s.grids := rfl
@[simp] theorem modCluster_contexts (s : State) (t : Nat) (f : Cluster → Cluster) : (modCluster s t f).contexts = s.contexts := rfl
@[simp] theorem modCluster_cores (s : State) (t : Nat) (f : Cluster → Cluster) : (modCluster s t f).cores = s.cores := rfl
@[simp] theorem modCluster_dies (s : State) (t : Nat) (f : Cluster → Cluster) : (modCluster s t f).dies = s.dies := rfl
@[simp] theorem modCluster_homes (s : State) (t : Nat) (f : Cluster → Cluster) : (modCluster s t f).homes = s.homes := rfl
@[simp] theorem modCluster_mem (s : State) (t : Nat) (f : Cluster → Cluster) : (modCluster s t f).mem = s.mem := rfl
@[simp] theorem modCluster_tlb (s : State) (t : Nat) (f : Cluster → Cluster) : (modCluster s t f).tlb = s.tlb := rfl
@[simp] theorem modCluster_graphs (s : State) (t : Nat) (f : Cluster → Cluster) : (modCluster s t f).graphs = s.graphs := rfl
@[simp] theorem modCluster_accs (s : State) (t : Nat) (f : Cluster → Cluster) : (modCluster s t f).accs = s.accs := rfl
@[simp] theorem modCluster_engines (s : State) (t : Nat) (f : Cluster → Cluster) : (modCluster s t f).engines = s.engines := rfl
@[simp] theorem modCluster_lodes (s : State) (t : Nat) (f : Cluster → Cluster) : (modCluster s t f).lodes = s.lodes := rfl
@[simp] theorem modCluster_out (s : State) (t : Nat) (f : Cluster → Cluster) : (modCluster s t f).out = s.out := rfl
@[simp] theorem modCluster_sessions (s : State) (t : Nat) (f : Cluster → Cluster) : (modCluster s t f).sessions = s.sessions := rfl
@[simp] theorem modCluster_sluices (s : State) (t : Nat) (f : Cluster → Cluster) : (modCluster s t f).sluices = s.sluices := rfl
@[simp] theorem modCluster_measures (s : State) (t : Nat) (f : Cluster → Cluster) : (modCluster s t f).measures = s.measures := rfl
@[simp] theorem modCluster_routines (s : State) (t : Nat) (f : Cluster → Cluster) : (modCluster s t f).routines = s.routines := rfl
@[simp] theorem modCluster_clk (s : State) (t : Nat) (f : Cluster → Cluster) : (modCluster s t f).clk = s.clk := rfl
@[simp] theorem modCluster_pushMode (s : State) (t : Nat) (f : Cluster → Cluster) : (modCluster s t f).pushMode = s.pushMode := rfl
@[simp] theorem modCluster_bringUp (s : State) (t : Nat) (f : Cluster → Cluster) : (modCluster s t f).bringUp = s.bringUp := rfl
@[simp] theorem modCluster_power (s : State) (t : Nat) (f : Cluster → Cluster) : (modCluster s t f).power = s.power := rfl
@[simp] theorem modCluster_node (s : State) (t : Nat) (f : Cluster → Cluster) : (modCluster s t f).node = s.node := rfl
@[simp] theorem modCluster_routeTable (s : State) (t : Nat) (f : Cluster → Cluster) : (modCluster s t f).routeTable = s.routeTable := rfl
@[simp] theorem modCluster_lodeRetired (s : State) (t : Nat) (f : Cluster → Cluster) : (modCluster s t f).lodeRetired = s.lodeRetired := rfl
@[simp] theorem modCluster_causewayRetired (s : State) (t : Nat) (f : Cluster → Cluster) : (modCluster s t f).causewayRetired = s.causewayRetired := rfl
@[simp] theorem modCluster_corrected (s : State) (t : Nat) (f : Cluster → Cluster) : (modCluster s t f).corrected = s.corrected := rfl
@[simp] theorem modCluster_replays (s : State) (t : Nat) (f : Cluster → Cluster) : (modCluster s t f).replays = s.replays := rfl
@[simp] theorem modCluster_inbox (s : State) (t : Nat) (f : Cluster → Cluster) : (modCluster s t f).inbox = s.inbox := rfl
@[simp] theorem modCluster_fatal (s : State) (t : Nat) (f : Cluster → Cluster) : (modCluster s t f).fatal = s.fatal := rfl
@[simp] theorem modCluster_clockStopped (s : State) (t : Nat) (f : Cluster → Cluster) : (modCluster s t f).clockStopped = s.clockStopped := rfl
@[simp] theorem modCluster_lodeUp (s : State) (t : Nat) (f : Cluster → Cluster) : (modCluster s t f).lodeUp = s.lodeUp := rfl
@[simp] theorem modCluster_ptimeReported (s : State) (t : Nat) (f : Cluster → Cluster) : (modCluster s t f).ptimeReported = s.ptimeReported := rfl
@[simp] theorem modCluster_ticked (s : State) (t : Nat) (f : Cluster → Cluster) : (modCluster s t f).ticked = s.ticked := rfl
@[simp] theorem modCluster_polled (s : State) (t : Nat) (f : Cluster → Cluster) : (modCluster s t f).polled = s.polled := rfl
@[simp] theorem modCluster_overcurrent (s : State) (t : Nat) (f : Cluster → Cluster) : (modCluster s t f).overcurrent = s.overcurrent := rfl
@[simp] theorem modCluster_nextId (s : State) (t : Nat) (f : Cluster → Cluster) : (modCluster s t f).nextId = s.nextId := rfl
@[simp] theorem modCluster_seed (s : State) (t : Nat) (f : Cluster → Cluster) : (modCluster s t f).seed = s.seed := rfl
@[simp] theorem modCluster_issueNo (s : State) (t : Nat) (f : Cluster → Cluster) : (modCluster s t f).issueNo = s.issueNo := rfl
@[simp] theorem modCluster_cur (s : State) (t : Nat) (f : Cluster → Cluster) : (modCluster s t f).cur = s.cur := rfl
@[simp] theorem modCluster_net (s : State) (t : Nat) (f : Cluster → Cluster) : (modCluster s t f).net = s.net := rfl
@[simp] theorem modCluster_agenda (s : State) (t : Nat) (f : Cluster → Cluster) : (modCluster s t f).agenda = s.agenda := rfl
@[simp] theorem modCluster_errors (s : State) (t : Nat) (f : Cluster → Cluster) : (modCluster s t f).errors = s.errors := rfl

@[simp] theorem modGrid_threads (s : State) (t : Nat) (f : Grid → Grid) : (modGrid s t f).threads = s.threads := rfl
@[simp] theorem modGrid_groups (s : State) (t : Nat) (f : Grid → Grid) : (modGrid s t f).groups = s.groups := rfl
@[simp] theorem modGrid_teams (s : State) (t : Nat) (f : Grid → Grid) : (modGrid s t f).teams = s.teams := rfl
@[simp] theorem modGrid_clusters (s : State) (t : Nat) (f : Grid → Grid) : (modGrid s t f).clusters = s.clusters := rfl
@[simp] theorem modGrid_grids (s : State) (t : Nat) (f : Grid → Grid) : (modGrid s t f).grids = modAt s.grids t f := rfl
@[simp] theorem modGrid_contexts (s : State) (t : Nat) (f : Grid → Grid) : (modGrid s t f).contexts = s.contexts := rfl
@[simp] theorem modGrid_cores (s : State) (t : Nat) (f : Grid → Grid) : (modGrid s t f).cores = s.cores := rfl
@[simp] theorem modGrid_dies (s : State) (t : Nat) (f : Grid → Grid) : (modGrid s t f).dies = s.dies := rfl
@[simp] theorem modGrid_homes (s : State) (t : Nat) (f : Grid → Grid) : (modGrid s t f).homes = s.homes := rfl
@[simp] theorem modGrid_mem (s : State) (t : Nat) (f : Grid → Grid) : (modGrid s t f).mem = s.mem := rfl
@[simp] theorem modGrid_tlb (s : State) (t : Nat) (f : Grid → Grid) : (modGrid s t f).tlb = s.tlb := rfl
@[simp] theorem modGrid_graphs (s : State) (t : Nat) (f : Grid → Grid) : (modGrid s t f).graphs = s.graphs := rfl
@[simp] theorem modGrid_accs (s : State) (t : Nat) (f : Grid → Grid) : (modGrid s t f).accs = s.accs := rfl
@[simp] theorem modGrid_engines (s : State) (t : Nat) (f : Grid → Grid) : (modGrid s t f).engines = s.engines := rfl
@[simp] theorem modGrid_lodes (s : State) (t : Nat) (f : Grid → Grid) : (modGrid s t f).lodes = s.lodes := rfl
@[simp] theorem modGrid_out (s : State) (t : Nat) (f : Grid → Grid) : (modGrid s t f).out = s.out := rfl
@[simp] theorem modGrid_sessions (s : State) (t : Nat) (f : Grid → Grid) : (modGrid s t f).sessions = s.sessions := rfl
@[simp] theorem modGrid_sluices (s : State) (t : Nat) (f : Grid → Grid) : (modGrid s t f).sluices = s.sluices := rfl
@[simp] theorem modGrid_measures (s : State) (t : Nat) (f : Grid → Grid) : (modGrid s t f).measures = s.measures := rfl
@[simp] theorem modGrid_routines (s : State) (t : Nat) (f : Grid → Grid) : (modGrid s t f).routines = s.routines := rfl
@[simp] theorem modGrid_clk (s : State) (t : Nat) (f : Grid → Grid) : (modGrid s t f).clk = s.clk := rfl
@[simp] theorem modGrid_pushMode (s : State) (t : Nat) (f : Grid → Grid) : (modGrid s t f).pushMode = s.pushMode := rfl
@[simp] theorem modGrid_bringUp (s : State) (t : Nat) (f : Grid → Grid) : (modGrid s t f).bringUp = s.bringUp := rfl
@[simp] theorem modGrid_power (s : State) (t : Nat) (f : Grid → Grid) : (modGrid s t f).power = s.power := rfl
@[simp] theorem modGrid_node (s : State) (t : Nat) (f : Grid → Grid) : (modGrid s t f).node = s.node := rfl
@[simp] theorem modGrid_routeTable (s : State) (t : Nat) (f : Grid → Grid) : (modGrid s t f).routeTable = s.routeTable := rfl
@[simp] theorem modGrid_lodeRetired (s : State) (t : Nat) (f : Grid → Grid) : (modGrid s t f).lodeRetired = s.lodeRetired := rfl
@[simp] theorem modGrid_causewayRetired (s : State) (t : Nat) (f : Grid → Grid) : (modGrid s t f).causewayRetired = s.causewayRetired := rfl
@[simp] theorem modGrid_corrected (s : State) (t : Nat) (f : Grid → Grid) : (modGrid s t f).corrected = s.corrected := rfl
@[simp] theorem modGrid_replays (s : State) (t : Nat) (f : Grid → Grid) : (modGrid s t f).replays = s.replays := rfl
@[simp] theorem modGrid_inbox (s : State) (t : Nat) (f : Grid → Grid) : (modGrid s t f).inbox = s.inbox := rfl
@[simp] theorem modGrid_fatal (s : State) (t : Nat) (f : Grid → Grid) : (modGrid s t f).fatal = s.fatal := rfl
@[simp] theorem modGrid_clockStopped (s : State) (t : Nat) (f : Grid → Grid) : (modGrid s t f).clockStopped = s.clockStopped := rfl
@[simp] theorem modGrid_lodeUp (s : State) (t : Nat) (f : Grid → Grid) : (modGrid s t f).lodeUp = s.lodeUp := rfl
@[simp] theorem modGrid_ptimeReported (s : State) (t : Nat) (f : Grid → Grid) : (modGrid s t f).ptimeReported = s.ptimeReported := rfl
@[simp] theorem modGrid_ticked (s : State) (t : Nat) (f : Grid → Grid) : (modGrid s t f).ticked = s.ticked := rfl
@[simp] theorem modGrid_polled (s : State) (t : Nat) (f : Grid → Grid) : (modGrid s t f).polled = s.polled := rfl
@[simp] theorem modGrid_overcurrent (s : State) (t : Nat) (f : Grid → Grid) : (modGrid s t f).overcurrent = s.overcurrent := rfl
@[simp] theorem modGrid_nextId (s : State) (t : Nat) (f : Grid → Grid) : (modGrid s t f).nextId = s.nextId := rfl
@[simp] theorem modGrid_seed (s : State) (t : Nat) (f : Grid → Grid) : (modGrid s t f).seed = s.seed := rfl
@[simp] theorem modGrid_issueNo (s : State) (t : Nat) (f : Grid → Grid) : (modGrid s t f).issueNo = s.issueNo := rfl
@[simp] theorem modGrid_cur (s : State) (t : Nat) (f : Grid → Grid) : (modGrid s t f).cur = s.cur := rfl
@[simp] theorem modGrid_net (s : State) (t : Nat) (f : Grid → Grid) : (modGrid s t f).net = s.net := rfl
@[simp] theorem modGrid_agenda (s : State) (t : Nat) (f : Grid → Grid) : (modGrid s t f).agenda = s.agenda := rfl
@[simp] theorem modGrid_errors (s : State) (t : Nat) (f : Grid → Grid) : (modGrid s t f).errors = s.errors := rfl

@[simp] theorem modCtx_threads (s : State) (t : Nat) (f : Context → Context) : (modCtx s t f).threads = s.threads := rfl
@[simp] theorem modCtx_groups (s : State) (t : Nat) (f : Context → Context) : (modCtx s t f).groups = s.groups := rfl
@[simp] theorem modCtx_teams (s : State) (t : Nat) (f : Context → Context) : (modCtx s t f).teams = s.teams := rfl
@[simp] theorem modCtx_clusters (s : State) (t : Nat) (f : Context → Context) : (modCtx s t f).clusters = s.clusters := rfl
@[simp] theorem modCtx_grids (s : State) (t : Nat) (f : Context → Context) : (modCtx s t f).grids = s.grids := rfl
@[simp] theorem modCtx_contexts (s : State) (t : Nat) (f : Context → Context) : (modCtx s t f).contexts = modAt s.contexts t f := rfl
@[simp] theorem modCtx_cores (s : State) (t : Nat) (f : Context → Context) : (modCtx s t f).cores = s.cores := rfl
@[simp] theorem modCtx_dies (s : State) (t : Nat) (f : Context → Context) : (modCtx s t f).dies = s.dies := rfl
@[simp] theorem modCtx_homes (s : State) (t : Nat) (f : Context → Context) : (modCtx s t f).homes = s.homes := rfl
@[simp] theorem modCtx_mem (s : State) (t : Nat) (f : Context → Context) : (modCtx s t f).mem = s.mem := rfl
@[simp] theorem modCtx_tlb (s : State) (t : Nat) (f : Context → Context) : (modCtx s t f).tlb = s.tlb := rfl
@[simp] theorem modCtx_graphs (s : State) (t : Nat) (f : Context → Context) : (modCtx s t f).graphs = s.graphs := rfl
@[simp] theorem modCtx_accs (s : State) (t : Nat) (f : Context → Context) : (modCtx s t f).accs = s.accs := rfl
@[simp] theorem modCtx_engines (s : State) (t : Nat) (f : Context → Context) : (modCtx s t f).engines = s.engines := rfl
@[simp] theorem modCtx_lodes (s : State) (t : Nat) (f : Context → Context) : (modCtx s t f).lodes = s.lodes := rfl
@[simp] theorem modCtx_out (s : State) (t : Nat) (f : Context → Context) : (modCtx s t f).out = s.out := rfl
@[simp] theorem modCtx_sessions (s : State) (t : Nat) (f : Context → Context) : (modCtx s t f).sessions = s.sessions := rfl
@[simp] theorem modCtx_sluices (s : State) (t : Nat) (f : Context → Context) : (modCtx s t f).sluices = s.sluices := rfl
@[simp] theorem modCtx_measures (s : State) (t : Nat) (f : Context → Context) : (modCtx s t f).measures = s.measures := rfl
@[simp] theorem modCtx_routines (s : State) (t : Nat) (f : Context → Context) : (modCtx s t f).routines = s.routines := rfl
@[simp] theorem modCtx_clk (s : State) (t : Nat) (f : Context → Context) : (modCtx s t f).clk = s.clk := rfl
@[simp] theorem modCtx_pushMode (s : State) (t : Nat) (f : Context → Context) : (modCtx s t f).pushMode = s.pushMode := rfl
@[simp] theorem modCtx_bringUp (s : State) (t : Nat) (f : Context → Context) : (modCtx s t f).bringUp = s.bringUp := rfl
@[simp] theorem modCtx_power (s : State) (t : Nat) (f : Context → Context) : (modCtx s t f).power = s.power := rfl
@[simp] theorem modCtx_node (s : State) (t : Nat) (f : Context → Context) : (modCtx s t f).node = s.node := rfl
@[simp] theorem modCtx_routeTable (s : State) (t : Nat) (f : Context → Context) : (modCtx s t f).routeTable = s.routeTable := rfl
@[simp] theorem modCtx_lodeRetired (s : State) (t : Nat) (f : Context → Context) : (modCtx s t f).lodeRetired = s.lodeRetired := rfl
@[simp] theorem modCtx_causewayRetired (s : State) (t : Nat) (f : Context → Context) : (modCtx s t f).causewayRetired = s.causewayRetired := rfl
@[simp] theorem modCtx_corrected (s : State) (t : Nat) (f : Context → Context) : (modCtx s t f).corrected = s.corrected := rfl
@[simp] theorem modCtx_replays (s : State) (t : Nat) (f : Context → Context) : (modCtx s t f).replays = s.replays := rfl
@[simp] theorem modCtx_inbox (s : State) (t : Nat) (f : Context → Context) : (modCtx s t f).inbox = s.inbox := rfl
@[simp] theorem modCtx_fatal (s : State) (t : Nat) (f : Context → Context) : (modCtx s t f).fatal = s.fatal := rfl
@[simp] theorem modCtx_clockStopped (s : State) (t : Nat) (f : Context → Context) : (modCtx s t f).clockStopped = s.clockStopped := rfl
@[simp] theorem modCtx_lodeUp (s : State) (t : Nat) (f : Context → Context) : (modCtx s t f).lodeUp = s.lodeUp := rfl
@[simp] theorem modCtx_ptimeReported (s : State) (t : Nat) (f : Context → Context) : (modCtx s t f).ptimeReported = s.ptimeReported := rfl
@[simp] theorem modCtx_ticked (s : State) (t : Nat) (f : Context → Context) : (modCtx s t f).ticked = s.ticked := rfl
@[simp] theorem modCtx_polled (s : State) (t : Nat) (f : Context → Context) : (modCtx s t f).polled = s.polled := rfl
@[simp] theorem modCtx_overcurrent (s : State) (t : Nat) (f : Context → Context) : (modCtx s t f).overcurrent = s.overcurrent := rfl
@[simp] theorem modCtx_nextId (s : State) (t : Nat) (f : Context → Context) : (modCtx s t f).nextId = s.nextId := rfl
@[simp] theorem modCtx_seed (s : State) (t : Nat) (f : Context → Context) : (modCtx s t f).seed = s.seed := rfl
@[simp] theorem modCtx_issueNo (s : State) (t : Nat) (f : Context → Context) : (modCtx s t f).issueNo = s.issueNo := rfl
@[simp] theorem modCtx_cur (s : State) (t : Nat) (f : Context → Context) : (modCtx s t f).cur = s.cur := rfl
@[simp] theorem modCtx_net (s : State) (t : Nat) (f : Context → Context) : (modCtx s t f).net = s.net := rfl
@[simp] theorem modCtx_agenda (s : State) (t : Nat) (f : Context → Context) : (modCtx s t f).agenda = s.agenda := rfl
@[simp] theorem modCtx_errors (s : State) (t : Nat) (f : Context → Context) : (modCtx s t f).errors = s.errors := rfl

@[simp] theorem modDie_threads (s : State) (t : Nat) (f : Die → Die) : (modDie s t f).threads = s.threads := rfl
@[simp] theorem modDie_groups (s : State) (t : Nat) (f : Die → Die) : (modDie s t f).groups = s.groups := rfl
@[simp] theorem modDie_teams (s : State) (t : Nat) (f : Die → Die) : (modDie s t f).teams = s.teams := rfl
@[simp] theorem modDie_clusters (s : State) (t : Nat) (f : Die → Die) : (modDie s t f).clusters = s.clusters := rfl
@[simp] theorem modDie_grids (s : State) (t : Nat) (f : Die → Die) : (modDie s t f).grids = s.grids := rfl
@[simp] theorem modDie_contexts (s : State) (t : Nat) (f : Die → Die) : (modDie s t f).contexts = s.contexts := rfl
@[simp] theorem modDie_cores (s : State) (t : Nat) (f : Die → Die) : (modDie s t f).cores = s.cores := rfl
@[simp] theorem modDie_dies (s : State) (t : Nat) (f : Die → Die) : (modDie s t f).dies = modAt s.dies t f := rfl
@[simp] theorem modDie_homes (s : State) (t : Nat) (f : Die → Die) : (modDie s t f).homes = s.homes := rfl
@[simp] theorem modDie_mem (s : State) (t : Nat) (f : Die → Die) : (modDie s t f).mem = s.mem := rfl
@[simp] theorem modDie_tlb (s : State) (t : Nat) (f : Die → Die) : (modDie s t f).tlb = s.tlb := rfl
@[simp] theorem modDie_graphs (s : State) (t : Nat) (f : Die → Die) : (modDie s t f).graphs = s.graphs := rfl
@[simp] theorem modDie_accs (s : State) (t : Nat) (f : Die → Die) : (modDie s t f).accs = s.accs := rfl
@[simp] theorem modDie_engines (s : State) (t : Nat) (f : Die → Die) : (modDie s t f).engines = s.engines := rfl
@[simp] theorem modDie_lodes (s : State) (t : Nat) (f : Die → Die) : (modDie s t f).lodes = s.lodes := rfl
@[simp] theorem modDie_out (s : State) (t : Nat) (f : Die → Die) : (modDie s t f).out = s.out := rfl
@[simp] theorem modDie_sessions (s : State) (t : Nat) (f : Die → Die) : (modDie s t f).sessions = s.sessions := rfl
@[simp] theorem modDie_sluices (s : State) (t : Nat) (f : Die → Die) : (modDie s t f).sluices = s.sluices := rfl
@[simp] theorem modDie_measures (s : State) (t : Nat) (f : Die → Die) : (modDie s t f).measures = s.measures := rfl
@[simp] theorem modDie_routines (s : State) (t : Nat) (f : Die → Die) : (modDie s t f).routines = s.routines := rfl
@[simp] theorem modDie_clk (s : State) (t : Nat) (f : Die → Die) : (modDie s t f).clk = s.clk := rfl
@[simp] theorem modDie_pushMode (s : State) (t : Nat) (f : Die → Die) : (modDie s t f).pushMode = s.pushMode := rfl
@[simp] theorem modDie_bringUp (s : State) (t : Nat) (f : Die → Die) : (modDie s t f).bringUp = s.bringUp := rfl
@[simp] theorem modDie_power (s : State) (t : Nat) (f : Die → Die) : (modDie s t f).power = s.power := rfl
@[simp] theorem modDie_node (s : State) (t : Nat) (f : Die → Die) : (modDie s t f).node = s.node := rfl
@[simp] theorem modDie_routeTable (s : State) (t : Nat) (f : Die → Die) : (modDie s t f).routeTable = s.routeTable := rfl
@[simp] theorem modDie_lodeRetired (s : State) (t : Nat) (f : Die → Die) : (modDie s t f).lodeRetired = s.lodeRetired := rfl
@[simp] theorem modDie_causewayRetired (s : State) (t : Nat) (f : Die → Die) : (modDie s t f).causewayRetired = s.causewayRetired := rfl
@[simp] theorem modDie_corrected (s : State) (t : Nat) (f : Die → Die) : (modDie s t f).corrected = s.corrected := rfl
@[simp] theorem modDie_replays (s : State) (t : Nat) (f : Die → Die) : (modDie s t f).replays = s.replays := rfl
@[simp] theorem modDie_inbox (s : State) (t : Nat) (f : Die → Die) : (modDie s t f).inbox = s.inbox := rfl
@[simp] theorem modDie_fatal (s : State) (t : Nat) (f : Die → Die) : (modDie s t f).fatal = s.fatal := rfl
@[simp] theorem modDie_clockStopped (s : State) (t : Nat) (f : Die → Die) : (modDie s t f).clockStopped = s.clockStopped := rfl
@[simp] theorem modDie_lodeUp (s : State) (t : Nat) (f : Die → Die) : (modDie s t f).lodeUp = s.lodeUp := rfl
@[simp] theorem modDie_ptimeReported (s : State) (t : Nat) (f : Die → Die) : (modDie s t f).ptimeReported = s.ptimeReported := rfl
@[simp] theorem modDie_ticked (s : State) (t : Nat) (f : Die → Die) : (modDie s t f).ticked = s.ticked := rfl
@[simp] theorem modDie_polled (s : State) (t : Nat) (f : Die → Die) : (modDie s t f).polled = s.polled := rfl
@[simp] theorem modDie_overcurrent (s : State) (t : Nat) (f : Die → Die) : (modDie s t f).overcurrent = s.overcurrent := rfl
@[simp] theorem modDie_nextId (s : State) (t : Nat) (f : Die → Die) : (modDie s t f).nextId = s.nextId := rfl
@[simp] theorem modDie_seed (s : State) (t : Nat) (f : Die → Die) : (modDie s t f).seed = s.seed := rfl
@[simp] theorem modDie_issueNo (s : State) (t : Nat) (f : Die → Die) : (modDie s t f).issueNo = s.issueNo := rfl
@[simp] theorem modDie_cur (s : State) (t : Nat) (f : Die → Die) : (modDie s t f).cur = s.cur := rfl
@[simp] theorem modDie_net (s : State) (t : Nat) (f : Die → Die) : (modDie s t f).net = s.net := rfl
@[simp] theorem modDie_agenda (s : State) (t : Nat) (f : Die → Die) : (modDie s t f).agenda = s.agenda := rfl
@[simp] theorem modDie_errors (s : State) (t : Nat) (f : Die → Die) : (modDie s t f).errors = s.errors := rfl

@[simp] theorem modHome_threads (s : State) (t : Nat) (f : Home → Home) : (modHome s t f).threads = s.threads := rfl
@[simp] theorem modHome_groups (s : State) (t : Nat) (f : Home → Home) : (modHome s t f).groups = s.groups := rfl
@[simp] theorem modHome_teams (s : State) (t : Nat) (f : Home → Home) : (modHome s t f).teams = s.teams := rfl
@[simp] theorem modHome_clusters (s : State) (t : Nat) (f : Home → Home) : (modHome s t f).clusters = s.clusters := rfl
@[simp] theorem modHome_grids (s : State) (t : Nat) (f : Home → Home) : (modHome s t f).grids = s.grids := rfl
@[simp] theorem modHome_contexts (s : State) (t : Nat) (f : Home → Home) : (modHome s t f).contexts = s.contexts := rfl
@[simp] theorem modHome_cores (s : State) (t : Nat) (f : Home → Home) : (modHome s t f).cores = s.cores := rfl
@[simp] theorem modHome_dies (s : State) (t : Nat) (f : Home → Home) : (modHome s t f).dies = s.dies := rfl
@[simp] theorem modHome_homes (s : State) (t : Nat) (f : Home → Home) : (modHome s t f).homes = modAt s.homes t f := rfl
@[simp] theorem modHome_mem (s : State) (t : Nat) (f : Home → Home) : (modHome s t f).mem = s.mem := rfl
@[simp] theorem modHome_tlb (s : State) (t : Nat) (f : Home → Home) : (modHome s t f).tlb = s.tlb := rfl
@[simp] theorem modHome_graphs (s : State) (t : Nat) (f : Home → Home) : (modHome s t f).graphs = s.graphs := rfl
@[simp] theorem modHome_accs (s : State) (t : Nat) (f : Home → Home) : (modHome s t f).accs = s.accs := rfl
@[simp] theorem modHome_engines (s : State) (t : Nat) (f : Home → Home) : (modHome s t f).engines = s.engines := rfl
@[simp] theorem modHome_lodes (s : State) (t : Nat) (f : Home → Home) : (modHome s t f).lodes = s.lodes := rfl
@[simp] theorem modHome_out (s : State) (t : Nat) (f : Home → Home) : (modHome s t f).out = s.out := rfl
@[simp] theorem modHome_sessions (s : State) (t : Nat) (f : Home → Home) : (modHome s t f).sessions = s.sessions := rfl
@[simp] theorem modHome_sluices (s : State) (t : Nat) (f : Home → Home) : (modHome s t f).sluices = s.sluices := rfl
@[simp] theorem modHome_measures (s : State) (t : Nat) (f : Home → Home) : (modHome s t f).measures = s.measures := rfl
@[simp] theorem modHome_routines (s : State) (t : Nat) (f : Home → Home) : (modHome s t f).routines = s.routines := rfl
@[simp] theorem modHome_clk (s : State) (t : Nat) (f : Home → Home) : (modHome s t f).clk = s.clk := rfl
@[simp] theorem modHome_pushMode (s : State) (t : Nat) (f : Home → Home) : (modHome s t f).pushMode = s.pushMode := rfl
@[simp] theorem modHome_bringUp (s : State) (t : Nat) (f : Home → Home) : (modHome s t f).bringUp = s.bringUp := rfl
@[simp] theorem modHome_power (s : State) (t : Nat) (f : Home → Home) : (modHome s t f).power = s.power := rfl
@[simp] theorem modHome_node (s : State) (t : Nat) (f : Home → Home) : (modHome s t f).node = s.node := rfl
@[simp] theorem modHome_routeTable (s : State) (t : Nat) (f : Home → Home) : (modHome s t f).routeTable = s.routeTable := rfl
@[simp] theorem modHome_lodeRetired (s : State) (t : Nat) (f : Home → Home) : (modHome s t f).lodeRetired = s.lodeRetired := rfl
@[simp] theorem modHome_causewayRetired (s : State) (t : Nat) (f : Home → Home) : (modHome s t f).causewayRetired = s.causewayRetired := rfl
@[simp] theorem modHome_corrected (s : State) (t : Nat) (f : Home → Home) : (modHome s t f).corrected = s.corrected := rfl
@[simp] theorem modHome_replays (s : State) (t : Nat) (f : Home → Home) : (modHome s t f).replays = s.replays := rfl
@[simp] theorem modHome_inbox (s : State) (t : Nat) (f : Home → Home) : (modHome s t f).inbox = s.inbox := rfl
@[simp] theorem modHome_fatal (s : State) (t : Nat) (f : Home → Home) : (modHome s t f).fatal = s.fatal := rfl
@[simp] theorem modHome_clockStopped (s : State) (t : Nat) (f : Home → Home) : (modHome s t f).clockStopped = s.clockStopped := rfl
@[simp] theorem modHome_lodeUp (s : State) (t : Nat) (f : Home → Home) : (modHome s t f).lodeUp = s.lodeUp := rfl
@[simp] theorem modHome_ptimeReported (s : State) (t : Nat) (f : Home → Home) : (modHome s t f).ptimeReported = s.ptimeReported := rfl
@[simp] theorem modHome_ticked (s : State) (t : Nat) (f : Home → Home) : (modHome s t f).ticked = s.ticked := rfl
@[simp] theorem modHome_polled (s : State) (t : Nat) (f : Home → Home) : (modHome s t f).polled = s.polled := rfl
@[simp] theorem modHome_overcurrent (s : State) (t : Nat) (f : Home → Home) : (modHome s t f).overcurrent = s.overcurrent := rfl
@[simp] theorem modHome_nextId (s : State) (t : Nat) (f : Home → Home) : (modHome s t f).nextId = s.nextId := rfl
@[simp] theorem modHome_seed (s : State) (t : Nat) (f : Home → Home) : (modHome s t f).seed = s.seed := rfl
@[simp] theorem modHome_issueNo (s : State) (t : Nat) (f : Home → Home) : (modHome s t f).issueNo = s.issueNo := rfl
@[simp] theorem modHome_cur (s : State) (t : Nat) (f : Home → Home) : (modHome s t f).cur = s.cur := rfl
@[simp] theorem modHome_net (s : State) (t : Nat) (f : Home → Home) : (modHome s t f).net = s.net := rfl
@[simp] theorem modHome_agenda (s : State) (t : Nat) (f : Home → Home) : (modHome s t f).agenda = s.agenda := rfl
@[simp] theorem modHome_errors (s : State) (t : Nat) (f : Home → Home) : (modHome s t f).errors = s.errors := rfl

@[simp] theorem modGraph_threads (s : State) (t : Nat) (f : Graph → Graph) : (modGraph s t f).threads = s.threads := rfl
@[simp] theorem modGraph_groups (s : State) (t : Nat) (f : Graph → Graph) : (modGraph s t f).groups = s.groups := rfl
@[simp] theorem modGraph_teams (s : State) (t : Nat) (f : Graph → Graph) : (modGraph s t f).teams = s.teams := rfl
@[simp] theorem modGraph_clusters (s : State) (t : Nat) (f : Graph → Graph) : (modGraph s t f).clusters = s.clusters := rfl
@[simp] theorem modGraph_grids (s : State) (t : Nat) (f : Graph → Graph) : (modGraph s t f).grids = s.grids := rfl
@[simp] theorem modGraph_contexts (s : State) (t : Nat) (f : Graph → Graph) : (modGraph s t f).contexts = s.contexts := rfl
@[simp] theorem modGraph_cores (s : State) (t : Nat) (f : Graph → Graph) : (modGraph s t f).cores = s.cores := rfl
@[simp] theorem modGraph_dies (s : State) (t : Nat) (f : Graph → Graph) : (modGraph s t f).dies = s.dies := rfl
@[simp] theorem modGraph_homes (s : State) (t : Nat) (f : Graph → Graph) : (modGraph s t f).homes = s.homes := rfl
@[simp] theorem modGraph_mem (s : State) (t : Nat) (f : Graph → Graph) : (modGraph s t f).mem = s.mem := rfl
@[simp] theorem modGraph_tlb (s : State) (t : Nat) (f : Graph → Graph) : (modGraph s t f).tlb = s.tlb := rfl
@[simp] theorem modGraph_graphs (s : State) (t : Nat) (f : Graph → Graph) : (modGraph s t f).graphs = modAt s.graphs t f := rfl
@[simp] theorem modGraph_accs (s : State) (t : Nat) (f : Graph → Graph) : (modGraph s t f).accs = s.accs := rfl
@[simp] theorem modGraph_engines (s : State) (t : Nat) (f : Graph → Graph) : (modGraph s t f).engines = s.engines := rfl
@[simp] theorem modGraph_lodes (s : State) (t : Nat) (f : Graph → Graph) : (modGraph s t f).lodes = s.lodes := rfl
@[simp] theorem modGraph_out (s : State) (t : Nat) (f : Graph → Graph) : (modGraph s t f).out = s.out := rfl
@[simp] theorem modGraph_sessions (s : State) (t : Nat) (f : Graph → Graph) : (modGraph s t f).sessions = s.sessions := rfl
@[simp] theorem modGraph_sluices (s : State) (t : Nat) (f : Graph → Graph) : (modGraph s t f).sluices = s.sluices := rfl
@[simp] theorem modGraph_measures (s : State) (t : Nat) (f : Graph → Graph) : (modGraph s t f).measures = s.measures := rfl
@[simp] theorem modGraph_routines (s : State) (t : Nat) (f : Graph → Graph) : (modGraph s t f).routines = s.routines := rfl
@[simp] theorem modGraph_clk (s : State) (t : Nat) (f : Graph → Graph) : (modGraph s t f).clk = s.clk := rfl
@[simp] theorem modGraph_pushMode (s : State) (t : Nat) (f : Graph → Graph) : (modGraph s t f).pushMode = s.pushMode := rfl
@[simp] theorem modGraph_bringUp (s : State) (t : Nat) (f : Graph → Graph) : (modGraph s t f).bringUp = s.bringUp := rfl
@[simp] theorem modGraph_power (s : State) (t : Nat) (f : Graph → Graph) : (modGraph s t f).power = s.power := rfl
@[simp] theorem modGraph_node (s : State) (t : Nat) (f : Graph → Graph) : (modGraph s t f).node = s.node := rfl
@[simp] theorem modGraph_routeTable (s : State) (t : Nat) (f : Graph → Graph) : (modGraph s t f).routeTable = s.routeTable := rfl
@[simp] theorem modGraph_lodeRetired (s : State) (t : Nat) (f : Graph → Graph) : (modGraph s t f).lodeRetired = s.lodeRetired := rfl
@[simp] theorem modGraph_causewayRetired (s : State) (t : Nat) (f : Graph → Graph) : (modGraph s t f).causewayRetired = s.causewayRetired := rfl
@[simp] theorem modGraph_corrected (s : State) (t : Nat) (f : Graph → Graph) : (modGraph s t f).corrected = s.corrected := rfl
@[simp] theorem modGraph_replays (s : State) (t : Nat) (f : Graph → Graph) : (modGraph s t f).replays = s.replays := rfl
@[simp] theorem modGraph_inbox (s : State) (t : Nat) (f : Graph → Graph) : (modGraph s t f).inbox = s.inbox := rfl
@[simp] theorem modGraph_fatal (s : State) (t : Nat) (f : Graph → Graph) : (modGraph s t f).fatal = s.fatal := rfl
@[simp] theorem modGraph_clockStopped (s : State) (t : Nat) (f : Graph → Graph) : (modGraph s t f).clockStopped = s.clockStopped := rfl
@[simp] theorem modGraph_lodeUp (s : State) (t : Nat) (f : Graph → Graph) : (modGraph s t f).lodeUp = s.lodeUp := rfl
@[simp] theorem modGraph_ptimeReported (s : State) (t : Nat) (f : Graph → Graph) : (modGraph s t f).ptimeReported = s.ptimeReported := rfl
@[simp] theorem modGraph_ticked (s : State) (t : Nat) (f : Graph → Graph) : (modGraph s t f).ticked = s.ticked := rfl
@[simp] theorem modGraph_polled (s : State) (t : Nat) (f : Graph → Graph) : (modGraph s t f).polled = s.polled := rfl
@[simp] theorem modGraph_overcurrent (s : State) (t : Nat) (f : Graph → Graph) : (modGraph s t f).overcurrent = s.overcurrent := rfl
@[simp] theorem modGraph_nextId (s : State) (t : Nat) (f : Graph → Graph) : (modGraph s t f).nextId = s.nextId := rfl
@[simp] theorem modGraph_seed (s : State) (t : Nat) (f : Graph → Graph) : (modGraph s t f).seed = s.seed := rfl
@[simp] theorem modGraph_issueNo (s : State) (t : Nat) (f : Graph → Graph) : (modGraph s t f).issueNo = s.issueNo := rfl
@[simp] theorem modGraph_cur (s : State) (t : Nat) (f : Graph → Graph) : (modGraph s t f).cur = s.cur := rfl
@[simp] theorem modGraph_net (s : State) (t : Nat) (f : Graph → Graph) : (modGraph s t f).net = s.net := rfl
@[simp] theorem modGraph_agenda (s : State) (t : Nat) (f : Graph → Graph) : (modGraph s t f).agenda = s.agenda := rfl
@[simp] theorem modGraph_errors (s : State) (t : Nat) (f : Graph → Graph) : (modGraph s t f).errors = s.errors := rfl

@[simp] theorem send_threads (s : State) (l : List Instr) : (send s l).threads = s.threads := rfl
@[simp] theorem send_groups (s : State) (l : List Instr) : (send s l).groups = s.groups := rfl
@[simp] theorem send_teams (s : State) (l : List Instr) : (send s l).teams = s.teams := rfl
@[simp] theorem send_clusters (s : State) (l : List Instr) : (send s l).clusters = s.clusters := rfl
@[simp] theorem send_grids (s : State) (l : List Instr) : (send s l).grids = s.grids := rfl
@[simp] theorem send_contexts (s : State) (l : List Instr) : (send s l).contexts = s.contexts := rfl
@[simp] theorem send_cores (s : State) (l : List Instr) : (send s l).cores = s.cores := rfl
@[simp] theorem send_dies (s : State) (l : List Instr) : (send s l).dies = s.dies := rfl
@[simp] theorem send_homes (s : State) (l : List Instr) : (send s l).homes = s.homes := rfl
@[simp] theorem send_mem (s : State) (l : List Instr) : (send s l).mem = s.mem := rfl
@[simp] theorem send_tlb (s : State) (l : List Instr) : (send s l).tlb = s.tlb := rfl
@[simp] theorem send_graphs (s : State) (l : List Instr) : (send s l).graphs = s.graphs := rfl
@[simp] theorem send_accs (s : State) (l : List Instr) : (send s l).accs = s.accs := rfl
@[simp] theorem send_engines (s : State) (l : List Instr) : (send s l).engines = s.engines := rfl
@[simp] theorem send_lodes (s : State) (l : List Instr) : (send s l).lodes = s.lodes := rfl
@[simp] theorem send_out (s : State) (l : List Instr) : (send s l).out = s.out := rfl
@[simp] theorem send_sessions (s : State) (l : List Instr) : (send s l).sessions = s.sessions := rfl
@[simp] theorem send_sluices (s : State) (l : List Instr) : (send s l).sluices = s.sluices := rfl
@[simp] theorem send_measures (s : State) (l : List Instr) : (send s l).measures = s.measures := rfl
@[simp] theorem send_routines (s : State) (l : List Instr) : (send s l).routines = s.routines := rfl
@[simp] theorem send_clk (s : State) (l : List Instr) : (send s l).clk = s.clk := rfl
@[simp] theorem send_pushMode (s : State) (l : List Instr) : (send s l).pushMode = s.pushMode := rfl
@[simp] theorem send_bringUp (s : State) (l : List Instr) : (send s l).bringUp = s.bringUp := rfl
@[simp] theorem send_power (s : State) (l : List Instr) : (send s l).power = s.power := rfl
@[simp] theorem send_node (s : State) (l : List Instr) : (send s l).node = s.node := rfl
@[simp] theorem send_routeTable (s : State) (l : List Instr) : (send s l).routeTable = s.routeTable := rfl
@[simp] theorem send_lodeRetired (s : State) (l : List Instr) : (send s l).lodeRetired = s.lodeRetired := rfl
@[simp] theorem send_causewayRetired (s : State) (l : List Instr) : (send s l).causewayRetired = s.causewayRetired := rfl
@[simp] theorem send_corrected (s : State) (l : List Instr) : (send s l).corrected = s.corrected := rfl
@[simp] theorem send_replays (s : State) (l : List Instr) : (send s l).replays = s.replays := rfl
@[simp] theorem send_inbox (s : State) (l : List Instr) : (send s l).inbox = s.inbox := rfl
@[simp] theorem send_fatal (s : State) (l : List Instr) : (send s l).fatal = s.fatal := rfl
@[simp] theorem send_clockStopped (s : State) (l : List Instr) : (send s l).clockStopped = s.clockStopped := rfl
@[simp] theorem send_lodeUp (s : State) (l : List Instr) : (send s l).lodeUp = s.lodeUp := rfl
@[simp] theorem send_ptimeReported (s : State) (l : List Instr) : (send s l).ptimeReported = s.ptimeReported := rfl
@[simp] theorem send_ticked (s : State) (l : List Instr) : (send s l).ticked = s.ticked := rfl
@[simp] theorem send_polled (s : State) (l : List Instr) : (send s l).polled = s.polled := rfl
@[simp] theorem send_overcurrent (s : State) (l : List Instr) : (send s l).overcurrent = s.overcurrent := rfl
@[simp] theorem send_nextId (s : State) (l : List Instr) : (send s l).nextId = s.nextId := rfl
@[simp] theorem send_seed (s : State) (l : List Instr) : (send s l).seed = s.seed := rfl
@[simp] theorem send_issueNo (s : State) (l : List Instr) : (send s l).issueNo = s.issueNo := rfl
@[simp] theorem send_cur (s : State) (l : List Instr) : (send s l).cur = s.cur := rfl
@[simp] theorem send_net (s : State) (l : List Instr) : (send s l).net = s.net ++ l := rfl
@[simp] theorem send_agenda (s : State) (l : List Instr) : (send s l).agenda = s.agenda := rfl
@[simp] theorem send_errors (s : State) (l : List Instr) : (send s l).errors = s.errors := rfl

/-! A core replaced. -/

@[simp] theorem setCore_threads (s : State) (c : Core) : (setCore s c).threads = s.threads := by simp only [setCore]; split <;> rfl
@[simp] theorem setCore_groups (s : State) (c : Core) : (setCore s c).groups = s.groups := by simp only [setCore]; split <;> rfl
@[simp] theorem setCore_teams (s : State) (c : Core) : (setCore s c).teams = s.teams := by simp only [setCore]; split <;> rfl
@[simp] theorem setCore_clusters (s : State) (c : Core) : (setCore s c).clusters = s.clusters := by simp only [setCore]; split <;> rfl
@[simp] theorem setCore_grids (s : State) (c : Core) : (setCore s c).grids = s.grids := by simp only [setCore]; split <;> rfl
@[simp] theorem setCore_contexts (s : State) (c : Core) : (setCore s c).contexts = s.contexts := by simp only [setCore]; split <;> rfl
@[simp] theorem setCore_dies (s : State) (c : Core) : (setCore s c).dies = s.dies := by simp only [setCore]; split <;> rfl
@[simp] theorem setCore_homes (s : State) (c : Core) : (setCore s c).homes = s.homes := by simp only [setCore]; split <;> rfl
@[simp] theorem setCore_mem (s : State) (c : Core) : (setCore s c).mem = s.mem := by simp only [setCore]; split <;> rfl
@[simp] theorem setCore_tlb (s : State) (c : Core) : (setCore s c).tlb = s.tlb := by simp only [setCore]; split <;> rfl
@[simp] theorem setCore_graphs (s : State) (c : Core) : (setCore s c).graphs = s.graphs := by simp only [setCore]; split <;> rfl
@[simp] theorem setCore_accs (s : State) (c : Core) : (setCore s c).accs = s.accs := by simp only [setCore]; split <;> rfl
@[simp] theorem setCore_engines (s : State) (c : Core) : (setCore s c).engines = s.engines := by simp only [setCore]; split <;> rfl
@[simp] theorem setCore_lodes (s : State) (c : Core) : (setCore s c).lodes = s.lodes := by simp only [setCore]; split <;> rfl
@[simp] theorem setCore_out (s : State) (c : Core) : (setCore s c).out = s.out := by simp only [setCore]; split <;> rfl
@[simp] theorem setCore_sessions (s : State) (c : Core) : (setCore s c).sessions = s.sessions := by simp only [setCore]; split <;> rfl
@[simp] theorem setCore_sluices (s : State) (c : Core) : (setCore s c).sluices = s.sluices := by simp only [setCore]; split <;> rfl
@[simp] theorem setCore_measures (s : State) (c : Core) : (setCore s c).measures = s.measures := by simp only [setCore]; split <;> rfl
@[simp] theorem setCore_routines (s : State) (c : Core) : (setCore s c).routines = s.routines := by simp only [setCore]; split <;> rfl
@[simp] theorem setCore_clk (s : State) (c : Core) : (setCore s c).clk = s.clk := by simp only [setCore]; split <;> rfl
@[simp] theorem setCore_pushMode (s : State) (c : Core) : (setCore s c).pushMode = s.pushMode := by simp only [setCore]; split <;> rfl
@[simp] theorem setCore_bringUp (s : State) (c : Core) : (setCore s c).bringUp = s.bringUp := by simp only [setCore]; split <;> rfl
@[simp] theorem setCore_power (s : State) (c : Core) : (setCore s c).power = s.power := by simp only [setCore]; split <;> rfl
@[simp] theorem setCore_node (s : State) (c : Core) : (setCore s c).node = s.node := by simp only [setCore]; split <;> rfl
@[simp] theorem setCore_routeTable (s : State) (c : Core) : (setCore s c).routeTable = s.routeTable := by simp only [setCore]; split <;> rfl
@[simp] theorem setCore_lodeRetired (s : State) (c : Core) : (setCore s c).lodeRetired = s.lodeRetired := by simp only [setCore]; split <;> rfl
@[simp] theorem setCore_causewayRetired (s : State) (c : Core) : (setCore s c).causewayRetired = s.causewayRetired := by simp only [setCore]; split <;> rfl
@[simp] theorem setCore_corrected (s : State) (c : Core) : (setCore s c).corrected = s.corrected := by simp only [setCore]; split <;> rfl
@[simp] theorem setCore_replays (s : State) (c : Core) : (setCore s c).replays = s.replays := by simp only [setCore]; split <;> rfl
@[simp] theorem setCore_inbox (s : State) (c : Core) : (setCore s c).inbox = s.inbox := by simp only [setCore]; split <;> rfl
@[simp] theorem setCore_fatal (s : State) (c : Core) : (setCore s c).fatal = s.fatal := by simp only [setCore]; split <;> rfl
@[simp] theorem setCore_clockStopped (s : State) (c : Core) : (setCore s c).clockStopped = s.clockStopped := by simp only [setCore]; split <;> rfl
@[simp] theorem setCore_lodeUp (s : State) (c : Core) : (setCore s c).lodeUp = s.lodeUp := by simp only [setCore]; split <;> rfl
@[simp] theorem setCore_ptimeReported (s : State) (c : Core) : (setCore s c).ptimeReported = s.ptimeReported := by simp only [setCore]; split <;> rfl
@[simp] theorem setCore_ticked (s : State) (c : Core) : (setCore s c).ticked = s.ticked := by simp only [setCore]; split <;> rfl
@[simp] theorem setCore_polled (s : State) (c : Core) : (setCore s c).polled = s.polled := by simp only [setCore]; split <;> rfl
@[simp] theorem setCore_overcurrent (s : State) (c : Core) : (setCore s c).overcurrent = s.overcurrent := by simp only [setCore]; split <;> rfl
@[simp] theorem setCore_nextId (s : State) (c : Core) : (setCore s c).nextId = s.nextId := by simp only [setCore]; split <;> rfl
@[simp] theorem setCore_seed (s : State) (c : Core) : (setCore s c).seed = s.seed := by simp only [setCore]; split <;> rfl
@[simp] theorem setCore_issueNo (s : State) (c : Core) : (setCore s c).issueNo = s.issueNo := by simp only [setCore]; split <;> rfl
@[simp] theorem setCore_cur (s : State) (c : Core) : (setCore s c).cur = s.cur := by simp only [setCore]; split <;> rfl
@[simp] theorem setCore_net (s : State) (c : Core) : (setCore s c).net = s.net := by simp only [setCore]; split <;> rfl
@[simp] theorem setCore_agenda (s : State) (c : Core) : (setCore s c).agenda = s.agenda := by simp only [setCore]; split <;> rfl
@[simp] theorem setCore_errors (s : State) (c : Core) : (setCore s c).errors = s.errors := by simp only [setCore]; split <;> rfl

@[simp] theorem modCore_threads (s : State) (d c : Nat) (f : Core → Core) : (modCore s d c f).threads = s.threads := setCore_threads _ _
@[simp] theorem modCore_groups (s : State) (d c : Nat) (f : Core → Core) : (modCore s d c f).groups = s.groups := setCore_groups _ _
@[simp] theorem modCore_teams (s : State) (d c : Nat) (f : Core → Core) : (modCore s d c f).teams = s.teams := setCore_teams _ _
@[simp] theorem modCore_clusters (s : State) (d c : Nat) (f : Core → Core) : (modCore s d c f).clusters = s.clusters := setCore_clusters _ _
@[simp] theorem modCore_grids (s : State) (d c : Nat) (f : Core → Core) : (modCore s d c f).grids = s.grids := setCore_grids _ _
@[simp] theorem modCore_contexts (s : State) (d c : Nat) (f : Core → Core) : (modCore s d c f).contexts = s.contexts := setCore_contexts _ _
@[simp] theorem modCore_dies (s : State) (d c : Nat) (f : Core → Core) : (modCore s d c f).dies = s.dies := setCore_dies _ _
@[simp] theorem modCore_homes (s : State) (d c : Nat) (f : Core → Core) : (modCore s d c f).homes = s.homes := setCore_homes _ _
@[simp] theorem modCore_mem (s : State) (d c : Nat) (f : Core → Core) : (modCore s d c f).mem = s.mem := setCore_mem _ _
@[simp] theorem modCore_tlb (s : State) (d c : Nat) (f : Core → Core) : (modCore s d c f).tlb = s.tlb := setCore_tlb _ _
@[simp] theorem modCore_graphs (s : State) (d c : Nat) (f : Core → Core) : (modCore s d c f).graphs = s.graphs := setCore_graphs _ _
@[simp] theorem modCore_accs (s : State) (d c : Nat) (f : Core → Core) : (modCore s d c f).accs = s.accs := setCore_accs _ _
@[simp] theorem modCore_engines (s : State) (d c : Nat) (f : Core → Core) : (modCore s d c f).engines = s.engines := setCore_engines _ _
@[simp] theorem modCore_lodes (s : State) (d c : Nat) (f : Core → Core) : (modCore s d c f).lodes = s.lodes := setCore_lodes _ _
@[simp] theorem modCore_out (s : State) (d c : Nat) (f : Core → Core) : (modCore s d c f).out = s.out := setCore_out _ _
@[simp] theorem modCore_sessions (s : State) (d c : Nat) (f : Core → Core) : (modCore s d c f).sessions = s.sessions := setCore_sessions _ _
@[simp] theorem modCore_sluices (s : State) (d c : Nat) (f : Core → Core) : (modCore s d c f).sluices = s.sluices := setCore_sluices _ _
@[simp] theorem modCore_measures (s : State) (d c : Nat) (f : Core → Core) : (modCore s d c f).measures = s.measures := setCore_measures _ _
@[simp] theorem modCore_routines (s : State) (d c : Nat) (f : Core → Core) : (modCore s d c f).routines = s.routines := setCore_routines _ _
@[simp] theorem modCore_clk (s : State) (d c : Nat) (f : Core → Core) : (modCore s d c f).clk = s.clk := setCore_clk _ _
@[simp] theorem modCore_pushMode (s : State) (d c : Nat) (f : Core → Core) : (modCore s d c f).pushMode = s.pushMode := setCore_pushMode _ _
@[simp] theorem modCore_bringUp (s : State) (d c : Nat) (f : Core → Core) : (modCore s d c f).bringUp = s.bringUp := setCore_bringUp _ _
@[simp] theorem modCore_power (s : State) (d c : Nat) (f : Core → Core) : (modCore s d c f).power = s.power := setCore_power _ _
@[simp] theorem modCore_node (s : State) (d c : Nat) (f : Core → Core) : (modCore s d c f).node = s.node := setCore_node _ _
@[simp] theorem modCore_routeTable (s : State) (d c : Nat) (f : Core → Core) : (modCore s d c f).routeTable = s.routeTable := setCore_routeTable _ _
@[simp] theorem modCore_lodeRetired (s : State) (d c : Nat) (f : Core → Core) : (modCore s d c f).lodeRetired = s.lodeRetired := setCore_lodeRetired _ _
@[simp] theorem modCore_causewayRetired (s : State) (d c : Nat) (f : Core → Core) : (modCore s d c f).causewayRetired = s.causewayRetired := setCore_causewayRetired _ _
@[simp] theorem modCore_corrected (s : State) (d c : Nat) (f : Core → Core) : (modCore s d c f).corrected = s.corrected := setCore_corrected _ _
@[simp] theorem modCore_replays (s : State) (d c : Nat) (f : Core → Core) : (modCore s d c f).replays = s.replays := setCore_replays _ _
@[simp] theorem modCore_inbox (s : State) (d c : Nat) (f : Core → Core) : (modCore s d c f).inbox = s.inbox := setCore_inbox _ _
@[simp] theorem modCore_fatal (s : State) (d c : Nat) (f : Core → Core) : (modCore s d c f).fatal = s.fatal := setCore_fatal _ _
@[simp] theorem modCore_clockStopped (s : State) (d c : Nat) (f : Core → Core) : (modCore s d c f).clockStopped = s.clockStopped := setCore_clockStopped _ _
@[simp] theorem modCore_lodeUp (s : State) (d c : Nat) (f : Core → Core) : (modCore s d c f).lodeUp = s.lodeUp := setCore_lodeUp _ _
@[simp] theorem modCore_ptimeReported (s : State) (d c : Nat) (f : Core → Core) : (modCore s d c f).ptimeReported = s.ptimeReported := setCore_ptimeReported _ _
@[simp] theorem modCore_ticked (s : State) (d c : Nat) (f : Core → Core) : (modCore s d c f).ticked = s.ticked := setCore_ticked _ _
@[simp] theorem modCore_polled (s : State) (d c : Nat) (f : Core → Core) : (modCore s d c f).polled = s.polled := setCore_polled _ _
@[simp] theorem modCore_overcurrent (s : State) (d c : Nat) (f : Core → Core) : (modCore s d c f).overcurrent = s.overcurrent := setCore_overcurrent _ _
@[simp] theorem modCore_nextId (s : State) (d c : Nat) (f : Core → Core) : (modCore s d c f).nextId = s.nextId := setCore_nextId _ _
@[simp] theorem modCore_seed (s : State) (d c : Nat) (f : Core → Core) : (modCore s d c f).seed = s.seed := setCore_seed _ _
@[simp] theorem modCore_issueNo (s : State) (d c : Nat) (f : Core → Core) : (modCore s d c f).issueNo = s.issueNo := setCore_issueNo _ _
@[simp] theorem modCore_cur (s : State) (d c : Nat) (f : Core → Core) : (modCore s d c f).cur = s.cur := setCore_cur _ _
@[simp] theorem modCore_net (s : State) (d c : Nat) (f : Core → Core) : (modCore s d c f).net = s.net := setCore_net _ _
@[simp] theorem modCore_agenda (s : State) (d c : Nat) (f : Core → Core) : (modCore s d c f).agenda = s.agenda := setCore_agenda _ _
@[simp] theorem modCore_errors (s : State) (d c : Nat) (f : Core → Core) : (modCore s d c f).errors = s.errors := setCore_errors _ _

theorem modCore_cores (s : State) (d c : Nat) (f : Core → Core) : ∃ cs, modCore s d c f = { s with cores := cs } := by
  simp only [modCore, setCore]; split <;> exact ⟨_, rfl⟩

theorem coreAt_fresh (s : State) (d c : Nat) : (coreAt s d c).die = d ∧ (coreAt s d c).site = c := by
  simp only [coreAt]
  cases h : s.cores.find? fun c' => c'.die = d ∧ c'.site = c with
  | none => exact ⟨rfl, rfl⟩
  | some x => have := List.find?_some h; simpa using this

theorem find_map_self {l : List Core} {d c : Nat} {x : Core} (hx : x.die = d ∧ x.site = c)
    (h : (l.any fun k => k.die = d ∧ k.site = c) = true) :
    (l.map fun k => if k.die = d ∧ k.site = c then x else k).find? (fun c' => c'.die = d ∧ c'.site = c) = some x := by
  induction l with
  | nil => simp at h
  | cons a l ih =>
    simp only [List.map_cons, List.find?_cons]
    by_cases ha : a.die = d ∧ a.site = c
    · simp [ha, hx]
    · rw [List.any_cons] at h
      have : decide (a.die = d ∧ a.site = c) = false := by simpa using ha
      rw [this] at h
      simp only [ha, if_false, decide_false]
      exact ih (by simpa using h)

theorem coreAt_modCore (s : State) (d c : Nat) (f : Core → Core) (hf : ∀ k, (f k).die = k.die ∧ (f k).site = k.site) :
    coreAt (modCore s d c f) d c = f (coreAt s d c) := by
  have hx : (f (coreAt s d c)).die = d ∧ (f (coreAt s d c)).site = c := by
    rw [(hf _).1, (hf _).2]; exact coreAt_fresh s d c
  generalize hy : f (coreAt s d c) = x at *
  simp only [modCore, hy, setCore, hx.1, hx.2]
  split
  · rename_i h
    simp only [coreAt, find_map_self hx h, Option.getD_some]
  · rename_i h
    simp only [coreAt, List.find?_append]
    have : s.cores.find? (fun c' => decide (c'.die = d ∧ c'.site = c)) = none := by
      rw [List.find?_eq_none]; simpa using h
    rw [this]
    simp [hx]

theorem coreAt_modCore_ne {s : State} {d c d' c' : Nat} {f : Core → Core} (hf : ∀ k, (f k).die = k.die ∧ (f k).site = k.site)
    (h : ¬ (d' = d ∧ c' = c)) : coreAt (modCore s d c f) d' c' = coreAt s d' c' := by
  have hx : (f (coreAt s d c)).die = d ∧ (f (coreAt s d c)).site = c := by
    rw [(hf _).1, (hf _).2]; exact coreAt_fresh s d c
  generalize hy : f (coreAt s d c) = x at *
  have hn : ¬ (x.die = d' ∧ x.site = c') := by rintro ⟨h1, h2⟩; exact h ⟨by rw [← h1, hx.1], by rw [← h2, hx.2]⟩
  simp only [modCore, hy, setCore, hx.1, hx.2]
  split
  · simp only [coreAt]
    congr 1
    have : ∀ l : List Core, (l.map fun k => if k.die = d ∧ k.site = c then x else k).find? (fun k => decide (k.die = d' ∧ k.site = c'))
        = l.find? (fun k => decide (k.die = d' ∧ k.site = c')) := by
      intro l
      induction l with
      | nil => rfl
      | cons a l ih =>
        simp only [List.map_cons, List.find?_cons]
        by_cases ha : a.die = d ∧ a.site = c
        · have hna : ¬ (a.die = d' ∧ a.site = c') := by rintro ⟨h1, h2⟩; exact h ⟨by rw [← h1, ha.1], by rw [← h2, ha.2]⟩
          simp only [ha, and_self, if_true, hn, decide_false]
          rw [ha.1, ha.2] at hna
          simp only [hna, decide_false]
          exact ih
        · simp only [ha, if_false, ih]
    exact this _
  · simp only [coreAt, List.find?_append]
    cases s.cores.find? fun k => decide (k.die = d' ∧ k.site = c') <;> simp [hn]

/-! A thread changed that keeps its group. -/

theorem teamOf_modThread (s : State) (t u : Nat) (g : Thread → Thread) (hg : ∀ th, (g th).group = th.group) :
    teamOf (modThread s t g) u = teamOf s u := by
  simp only [teamOf, groupOf, modThread, modAt, List.getElem?_modify]
  by_cases h : t = u
  · subst h; cases hs : s.threads[t]? <;> simp [hg]
  · cases hs : s.threads[u]? <;> simp [h]

theorem windowOf_modThread (s : State) (t u : Nat) (g : Thread → Thread) (hg : ∀ th, (g th).group = th.group) :
    windowOf (modThread s t g) u = windowOf s u := by
  simp only [windowOf, launchOf, gridOf, teamOf_modThread s t u g hg]
  rfl

theorem teamIdOf_modThread (s : State) (t u : Nat) (g : Thread → Thread) (hg : ∀ th, (g th).group = th.group) :
    teamIdOf (modThread s t g) u = teamIdOf s u := by
  simp only [teamIdOf, groupOf, modThread, modAt, List.getElem?_modify]
  by_cases h : t = u
  · subst h; cases hs : s.threads[t]? <;> simp [hg]
  · cases hs : s.threads[u]? <;> simp [h]

end Sys2Proof.Machine
end

