-- ==== Sys2Proof/Laws/Control.lean ====
section
/-! SUPPORT. Control transfer: from the model's operations to the statements' terms. -/

namespace Sys2Proof.Claims

open Sys2Proof.Machine

theorem loopCheck_eq (th : Thread) (t : DWord) : loopCheck th t = outOfLoop t th := by
  simp only [loopCheck, outOfLoop]
  cases hf : th.frames with
  | nil => simp
  | cons fr r =>
    cases hl : fr.loop with
    | none => simp [hl]
    | some l =>
      simp only [hl]
      by_cases h : t < l.start ∨ l.stop ≤ t
      · have : ¬ (l.start ≤ t ∧ t < l.stop) := by
          rcases h with h | h
          · intro h2; exact absurd h (BitVec.not_lt.mpr h2.1)
          · intro h2; exact absurd h2.2 (BitVec.not_lt.mpr h)
        rw [if_pos h, if_neg this]
      · have : l.start ≤ t ∧ t < l.stop := by
          rw [not_or] at h
          exact ⟨BitVec.not_lt.mp h.1, BitVec.not_le.mp h.2⟩
        rw [if_neg h, if_pos this]

theorem outOfLoop_group (t : DWord) (th : Thread) : (outOfLoop t th).group = th.group := by
  simp only [outOfLoop]; split
  · split
    · split <;> rfl
    · rfl
  · rfl

theorem branchTo_ok {s : State} {r : Ready} {t : DWord} (h : evenTarget t = true) :
    branchTo s r t = .ok (modThread s r.tid (outOfLoop t)) { next := .jump t } := by
  have h2 : t.extractLsb' 0 2 = 0#2 := by simpa [evenTarget] using h
  have : (fun th => loopCheck th t) = outOfLoop t := by funext th; exact loopCheck_eq th t
  simp [branchTo, h2, this]

theorem branchTo_trap {s : State} {r : Ready} {t : DWord} (h : evenTarget t = false) :
    branchTo s r t = .trap ⟨9, t.toNat, 0, 0⟩ := by
  have h2 : t.extractLsb' 0 2 ≠ 0#2 := by simpa [evenTarget] using h
  simp [branchTo, h2, trapAt, cALIGN]


theorem runLanes_pre {opc f s body iss} (h : runs s iss opc f = true) (pre : Ready → Thread → Thread) (eff : Ready → Res)
    (hpre : ∀ r th, (pre r th).group = th.group)
    (hb : ∀ p ∈ prepared s iss opc f, ∀ r, p.2 = .ready r → ∀ s', LaneView (idle s) s' r.tid →
      body iss (prepared s iss opc f) s' r = .ok (modThread s' r.tid (pre r)) (eff r)) :
    runLanes opc f s body = .next (afterLanes (idle s) iss.pc f.len.bytes (prepared s iss opc f) pre eff) :=
  runWith_completes (start := fun s _ => s) h pre eff rfl hpre hb

theorem launchOf_view {s0 s' : State} {t : Nat} (hv : LaneView s0 s' t) : launchOf s' t = launchOf s0 t := by
  simp only [launchOf, gridOf, teamOf_view hv]
  obtain ⟨⟨ths, gs, rfl⟩, -, -⟩ := hv
  rfl

theorem callTo_ok {s s' : State} {pc : DWord} {f : Form} {r : Ready} {t : DWord} (hv : LaneView (idle s) s' r.tid)
    (h : callFits s f r t) :
    callTo s' pc f r t = .ok (modThread s' r.tid (intoFrame (pc + BitVec.ofNat 64 f.len.bytes) f.d.toNat)) { next := .jump t } := by
  obtain ⟨th, hth, ht, h1, h2, h3, h4⟩ := h
  have hth' : s'.threads[r.tid]? = some th := by rw [hv.thread]; exact hth
  have hw : windowOf s' r.tid = windowOf s r.tid := by simp only [windowOf, launchOf_view hv]; rfl
  have hq : resvOf s' r.tid = resvOf s r.tid := by simp only [resvOf, launchOf_view hv]; rfl
  have h0 : t.extractLsb' 0 2 = 0#2 := by simpa [evenTarget] using ht
  simp only [callTo, hth', hw, hq, h0]
  rw [if_neg (by simp), if_neg (by omega), if_neg (by omega), if_neg (by omega)]
  rfl

theorem intoFrame_group (ret : DWord) (n : Nat) (th : Thread) : (intoFrame ret n th).group = th.group := by
  simp only [intoFrame]; split <;> rfl

theorem single_sat {s iss opc f r sig} (h : Alone s iss opc sig f r) : ((idle s).threads[r.tid]?).isSome := by
  have := runsBy_sat h
  exact this

theorem takeLoop_threads {s d c p g x a b s1 v} (h : takeLoop s d c p g x a b = some (s1, v)) : s1.threads = s.threads := by
  simp only [takeLoop] at h
  split at h
  · split at h
    · cases h; simp only [modCore_threads]
    · cases h; rfl
  · split at h
    · cases h; simp only [modCore_threads, freeLoops]
    · cases h

theorem releaseClaims_core (c : Core) (m : Nat) :
    (releaseClaims c m).maxExit = c.maxExit ∧ (releaseClaims c m).die = c.die ∧ (releaseClaims c m).site = c.site := by
  exact ⟨rfl, rfl, rfl⟩

theorem setStacks_exited (ws : List Word) : ∀ (th : Thread) (p : Nat), (setStacks th p ws).exited = th.exited := by
  induction ws with
  | nil => intros; rfl
  | cons w ws ih => intro th p; simp only [setStacks, ih]; rfl

theorem setScratches_exited (ws : List Word) : ∀ (th : Thread) (p : Nat), (setScratches th p ws).exited = th.exited := by
  induction ws with
  | nil => intros; rfl
  | cons w ws ih => intro th p; simp only [setScratches, ih]

theorem setPreds_exited (l : List (Nat × Bool)) :
    ∀ th : Thread, (l.foldl (fun th p => setPred th p.1 p.2) th).exited = th.exited := by
  induction l with
  | nil => intro; rfl
  | cons p l ih => intro th; rw [List.foldl_cons, ih]; simp only [setPred]; split <;> rfl

theorem setHold_exited (th : Thread) (h : Option (BitVec 2 × HoldName)) : (setHold th h).exited = th.exited := by
  cases h with
  | none => rfl
  | some p => simp only [setHold]; split <;> [rfl; (split <;> rfl)]

theorem markWrite_exited (r : Ready) (x : Res) (th : Thread) : (writeThread r.d x.vals (markThread r x th)).exited = th.exited := by
  have h1 : (markThread r x th).exited = th.exited := by simp only [markThread, setPreds_exited, setHold_exited]
  cases r.d <;> simp only [writeThread, setStacks_exited, setScratches_exited, h1]

/-- The parts of a state that an exit may change. -/
structure ExitFrame (s t : State) : Prop where
  rest : ∃ gs ts cs, t = { s with groups := gs, teams := ts, cores := cs }
  exits : ∀ d c, (coreAt t d c).maxExit = (coreAt s d c).maxExit

theorem reclaim_frame (s : State) (t : Nat) : ExitFrame s (reclaim s t) := by
  have key : ∀ (s : State) (m d c : Nat), ExitFrame s (modCore (modTeam s m fun k => { k with convs := [], episode := none }) d c
      fun x => releaseClaims x m) := by
    intro s m d c
    constructor
    · obtain ⟨cs, h⟩ := modCore_cores (modTeam s m fun k => { k with convs := [], episode := none }) d c fun x => releaseClaims x m
      exact ⟨s.groups, _, cs, h⟩
    · intro d' c'
      by_cases h : d' = d ∧ c' = c
      · obtain ⟨rfl, rfl⟩ := h
        rw [coreAt_modCore _ _ _ _ fun k => (releaseClaims_core k m).2, (releaseClaims_core _ m).1]
        rfl
      · rw [coreAt_modCore_ne (fun k => (releaseClaims_core k m).2) h]; rfl
  have trans : ∀ {s t u : State}, ExitFrame s t → ExitFrame t u → ExitFrame s u := by
    rintro s t u ⟨⟨gs, ts, cs, rfl⟩, h⟩ ⟨⟨gs', ts', cs', rfl⟩, h'⟩
    exact ⟨⟨gs', ts', cs', rfl⟩, fun d c => (h' d c).trans (h d c)⟩
  have refl : ∀ s : State, ExitFrame s s := fun s => ⟨⟨s.groups, s.teams, s.cores, rfl⟩, fun _ _ => rfl⟩
  have grp : ∀ (s : State) g f, ExitFrame s (modGroup s g f) := fun s g f => ⟨⟨_, s.teams, s.cores, rfl⟩, fun _ _ => rfl⟩
  unfold reclaim
  split
  · exact refl s
  · rename_i th _
    have h1 : ExitFrame s (if (groupThreads s th.group).all fun x => threadExited s x then
        modGroup s th.group fun g => { g with freed := true } else s) := by
      split
      · exact grp _ _ _
      · exact refl _
    dsimp only
    generalize (if (groupThreads s th.group).all fun x => threadExited s x then
        modGroup s th.group fun g => { g with freed := true } else s) = s' at *
    split
    · exact h1
    · split
      · exact trans h1 (key _ _ _ _)
      · exact h1

/-- What `exitCore` leaves of an unattached thread. -/
def exitedState (s : State) (t : Nat) : State :=
  modCore { s with
      dies := s.dies.map fun d => { d with monitors := d.monitors.filter fun m => m.tid ≠ t }
      accs := s.accs.filter fun a => !loadOf t a
      threads := s.threads.modify t exitedThread }
    (coreOf s t).1 (coreOf s t).2 fun k => { k with maxExit := max k.maxExit (((s.threads[t]?).map (·.ptime)).getD 0) }

theorem exitedThread_group (th : Thread) : (exitedThread th).group = th.group := rfl

theorem exitCore_eq {s : State} {t : Nat} (h : unattached s t) (ht : (s.threads[t]?).isSome) : exitCore s t = exitedState s t := by
  obtain ⟨th, hth⟩ := Option.isSome_iff_exists.mp ht
  have hl : leaveRecord s t = s := by
    have hg := h.1
    simp only [groupOf, hth, Option.bind_some] at hg
    simp only [leaveRecord, hth]
    cases hx : s.groups[th.group]? with
    | none => rfl
    | some g => simp only [Option.bind_some, hg g hx]
  simp only [exitCore, hl]
  have hE : exitedState s t = exitedState s t := rfl
  have hs : settleBarriers (exitedState s t) (teamIdOf (exitedState s t) t) = exitedState s t := by
    have hm := h.2
    obtain ⟨cs, hcs⟩ := modCore_cores { s with
      dies := s.dies.map fun d => { d with monitors := d.monitors.filter fun m => m.tid ≠ t }
      accs := s.accs.filter fun a => !loadOf t a
      threads := s.threads.modify t exitedThread } (coreOf s t).1 (coreOf s t).2 fun k => { k with maxExit := max k.maxExit (((s.threads[t]?).map (·.ptime)).getD 0) }
    have hteams : (exitedState s t).teams = s.teams := by rw [exitedState, hcs]
    have hcl : (exitedState s t).clusters = s.clusters := by rw [exitedState, hcs]
    have hid : teamIdOf (exitedState s t) t = teamIdOf s t := by
      rw [exitedState, hcs]
      exact teamIdOf_modThread s t t exitedThread exitedThread_group
    simp only [settleBarriers]
    rw [hid, hteams]
    cases hx : s.teams[teamIdOf s t]? with
    | none => rfl
    | some m =>
      obtain ⟨h1, -, h3⟩ := hm m hx
      simp only [h1]
      cases hk : (exitedState s t).clusters[m.cluster]? with
      | none => rfl
      | some k =>
        rw [hcl] at hk
        simp only [Option.bind_some, h3 k hk]
  exact hs

theorem exitThread_frame {s : State} {t : Nat} (h : unattached s t) (ht : (s.threads[t]?).isSome) :
    ExitFrame (exitedState s t) (exitThread s t) := by
  simp only [exitThread, exitCore_eq h ht]
  obtain ⟨cs, hcs⟩ := modCore_cores { s with
      dies := s.dies.map fun d => { d with monitors := d.monitors.filter fun m => m.tid ≠ t }
      accs := s.accs.filter fun a => !loadOf t a
      threads := s.threads.modify t exitedThread } (coreOf s t).1 (coreOf s t).2 fun k => { k with maxExit := max k.maxExit (((s.threads[t]?).map (·.ptime)).getD 0) }
  have hteams : (exitedState s t).teams = s.teams := by rw [exitedState, hcs]
  have hc : ∀ k, convUnreachable (exitedState s t) (teamIdOf s t) k = exitedState s t := by
    intro k
    simp only [convUnreachable, hteams]
    cases hx : s.teams[teamIdOf s t]? with
    | none => rfl
    | some m =>
      simp only [Option.bind_some]
      cases hk : m.convs[k]? with
      | none => rfl
      | some c =>
        have := (h.2 m hx).2.1 c (List.mem_of_getElem? hk)
        simp [this]
  have hf : ∀ l : List Nat, l.foldl (fun s' k => convUnreachable s' (teamIdOf s t) k) (exitedState s t) = exitedState s t := by
    intro l
    induction l with
    | nil => rfl
    | cons a l ih => rw [List.foldl_cons, hc, ih]
  rw [hf]
  exact reclaim_frame _ _

theorem exited_ended {s u : State} {t : Nat} {r : Ready} {th : Thread} (hr : r.tid = t) (hth : s.threads[t]? = some th) (h : ExitFrame (exitedState (idle s) t) u)
    (iss : Issue) (f : Form) : Ended s r th (leaves u iss f r { next := .stay }) := by
  subst hr
  obtain ⟨⟨gs, ts, cs, rfl⟩, hx⟩ := h
  obtain ⟨cs', hcs⟩ := modCore_cores { idle s with
      dies := (idle s).dies.map fun d => { d with monitors := d.monitors.filter fun m => m.tid ≠ r.tid }
      accs := (idle s).accs.filter fun a => !loadOf r.tid a
      threads := (idle s).threads.modify r.tid exitedThread } (coreOf (idle s) r.tid).1 (coreOf (idle s) r.tid).2 fun k => { k with maxExit := max k.maxExit ((((idle s).threads[r.tid]?).map (·.ptime)).getD 0) }
  have hE : exitedState (idle s) r.tid = { idle s with
      dies := (idle s).dies.map fun d => { d with monitors := d.monitors.filter fun m => m.tid ≠ r.tid }
      accs := (idle s).accs.filter fun a => !loadOf r.tid a
      threads := (idle s).threads.modify r.tid exitedThread
      cores := cs' } := hcs
  have hcore := hx (coreOf s r.tid).1 (coreOf s r.tid).2
  have hmax : (coreAt (exitedState (idle s) r.tid) (coreOf s r.tid).1 (coreOf s r.tid).2).maxExit
      = max (coreAt s (coreOf s r.tid).1 (coreOf s r.tid).2).maxExit th.ptime := by
    have := coreAt_modCore { idle s with
      dies := (idle s).dies.map fun d => { d with monitors := d.monitors.filter fun m => m.tid ≠ r.tid }
      accs := (idle s).accs.filter fun a => !loadOf r.tid a
      threads := (idle s).threads.modify r.tid exitedThread } (coreOf s r.tid).1 (coreOf s r.tid).2
      (fun k => { k with maxExit := max k.maxExit ((((idle s).threads[r.tid]?).map (·.ptime)).getD 0) }) (fun _ => ⟨rfl, rfl⟩)
    have h2 : exitedState (idle s) r.tid = _ := rfl
    rw [exitedState]
    refine (congrArg Core.maxExit this).trans ?_
    have h3 : (idle s).threads[r.tid]? = some th := hth
    simp only [h3]
    rfl
  rw [hE] at hcore hmax
  rw [hE]
  have hex : ∀ th', (doneThread iss.pc f.len.bytes s.clk r { next := .stay } (exitedThread th')).exited = true := by
    intro th'
    exact (markWrite_exited r { next := .stay } _).trans rfl
  refine ⟨?_, ?_, rfl, ?_, ?_, rfl, rfl, rfl, rfl, rfl, rfl, rfl, rfl⟩
  · have h3 : ((idle s).threads.modify r.tid exitedThread)[r.tid]? = some (exitedThread th) := by
      simp [idle, hth]
    simp only [leaves, List.getElem?_modify, h3, if_true, Option.map_some]
    simp [hex, idle]
  · intro u hu
    simp only [leaves, List.getElem?_modify, Ne.symm hu, if_false, idle]
    cases h4 : s.threads[u]? <;> simp
  · intro d hd m hm
    simp only [leaves, List.mem_map] at hd
    obtain ⟨d0, -, rfl⟩ := hd
    simp only [List.mem_filter] at hm
    simpa using hm.2
  · exact hcore.trans hmax

end Sys2Proof.Claims
end

