-- ==== Sys2Proof/Laws/Access.lean ====
section
/-! SUPPORT. Accesses as they are issued: from the model's operations to the statements' terms. -/

namespace Sys2Proof.Claims

open Sys2Proof.Machine

theorem byteAddress_eq (a b : DWord) (n : Nat) : (effective a b n).toNat = byteAddress a b n := by
  have h : intLow true 32 b = num (true, 32) b := intLow_eq true 32 (by omega) b
  simp only [effective, byteAddress, h]
  rw [← BitVec.ofInt_toInt (x := a), ← BitVec.ofInt_add, BitVec.toNat_ofInt, BitVec.toNat_ofInt]
  congr 1
  omega

theorem accessBytes_eq (z : BitVec 3) : sizeBytes z = accessBytes z := by
  revert z; decide

theorem tyBytes_eq (z : BitVec 3) : tyBytes z = widthOf z / 8 := by revert z; decide

theorem counterHold_free {s : State} {t : Nat} {c : Ctr} (h : unfull s t c) : counterHold (idle s) t c = none := by
  obtain ⟨th, ht, hc⟩ := h
  have ht' : (idle s).threads[t]? = some th := ht
  simp only [counterHold, ht', Option.map_some, Option.getD_some]
  rw [if_pos]
  cases c <;> first | exact hc | simp [counterOf]

theorem counterHold_full {s : State} {t : Nat} {c : Ctr} (h : full s t c) : counterHold (idle s) t c = some (.counterFull c) := by
  obtain ⟨th, ht, hc⟩ := h
  have ht' : (idle s).threads[t]? = some th := ht
  simp only [counterHold, ht', Option.map_some, Option.getD_some]
  rw [if_neg]
  cases c <;> simp only [counterOf] at * <;> omega

theorem counted_eq (c : Ctr) (s : State) (t : Nat) : raiseCtr s t c = modThread s t (counted c) := by
  rfl

theorem cachePage_frame (s : State) (c p : Nat) : ∃ l, cachePage s c p = { s with tlb := l } := by
  simp only [cachePage]
  split
  · exact ⟨s.tlb, rfl⟩
  · split
    · split
      · exact ⟨s.tlb, rfl⟩
      · exact ⟨_, rfl⟩
    all_goals exact ⟨s.tlb, rfl⟩

theorem cachePages_frame (c p : Nat) : ∀ (is : List Nat) (s : State),
    ∃ l, is.foldl (fun s i => cachePage s c (p + i)) s = { s with tlb := l } := by
  intro is
  induction is with
  | nil => intro s; exact ⟨s.tlb, rfl⟩
  | cons i is ih =>
    intro s
    obtain ⟨l, h⟩ := cachePage_frame s c (p + i)
    obtain ⟨m, h2⟩ := ih (cachePage s c (p + i))
    rw [h] at h2
    exact ⟨m, by rw [List.foldl_cons, h, h2]⟩

/-- Issuing an access changes cached translations only (R352). -/
theorem cacheAccess_frame (s : State) (a : Access) : ∃ l, cacheAccess s a = { s with tlb := l } := by
  have key : ∀ c va n, ∃ l, cacheRange s c va n = { s with tlb := l } := by
    intro c va n
    simp only [cacheRange]
    split
    · exact ⟨s.tlb, rfl⟩
    · exact cachePages_frame _ _ _ _
  simp only [cacheAccess]
  split
  · split <;> exact key _ _ _
  · exact ⟨s.tlb, rfl⟩
  · exact ⟨s.tlb, rfl⟩

theorem enqueue_eq (s : State) (a : Access) (h : a.owners = [a.tid]) : enqueue s a = withAccess s a := by
  obtain ⟨l, hl⟩ := cacheAccess_frame { s with accs := s.accs ++ [a], nextId := s.nextId + 1 } a
  simp only [enqueue, withAccess, h, List.foldl_cons, List.foldl_nil, counted_eq, hl]
  rfl

theorem issued_eq (s : State) (t : Nat) (k : AccKind) (p : Place) (n va : Nat) (x : Xlat) (ks : List (Nat × Nat)) :
    accessOf (idle s) t k p n va x ks = issued s t k p n va x ks := rfl

theorem withAccess_some {s : State} {a : Access} {t : Nat} (h : (s.threads[t]?).isSome) :
    ((withAccess s a).threads[t]?).isSome := by
  simp only [withAccess, List.getElem?_modify]
  cases hs : s.threads[t]? with
  | none => simp [hs] at h
  | some th => simp

/-- An instruction of one lane that issues an access. -/
theorem runLanes_issues {opc f s body iss r a} (h : Single s iss opc f r)
    (hb : body iss [(r.tid, .ready r)] (idle s) r = .ok (enqueue (idle s) a) {}) (ho : a.owners = [a.tid]) :
    runLanes opc f s body = .next (leaves (withAccess (idle s) a) iss f r {}) := by
  rw [enqueue_eq _ _ ho] at hb
  exact runLanes_leaves h hb (withAccess_some (single_sat h))

theorem spaceOf_eq (f : Form) : spaceOf f = (f.mod.extractLsb' 3 2).toNat := modBits_at _ _ _ 2 rfl (by omega)

theorem lowestActive_one (s : State) (t : Nat) (r : Ready) : lowestActive s [(t, .ready r)] = [(t, .ready r)] := rfl

theorem memAddr_eq (f : Form) (r : Ready) :
    memAddr f r = byteAddress r.a r.b (if f.mod.getLsbD 5 then accessBytes (f.mod.extractLsb' 0 3) else 1) := by
  simp only [memAddr, byteAddress_eq, accessBytes_eq, modIt]

theorem private_eq (f : Form) : decide ((f.mod.extractLsb' 3 2).toNat = 3) = decide (f.mod.extractLsb' 3 2 = 3) := by
  congr 1; rw [← BitVec.toNat_inj]; rfl

theorem runWith_ok {opc f s sig start pick body iss r s' x} (h : Alone s iss opc sig f r)
    (hpick : pick (idle s) [(r.tid, .ready r)] = [(r.tid, .ready r)])
    (hb : body iss [(r.tid, .ready r)] (start (idle s) iss) r = .ok s' x) (hs : (s'.threads[r.tid]?).isSome) :
    runWith opc f s sig start pick body = .next (leaves s' iss f r x) := by
  rw [runWith_alone h hpick, hb, aloneOut_ok hs]

theorem storeLane_ok {s : State} {r : Ready} {space ea n al : Nat} {bs p x ks} (hu : unfull s r.tid .st)
    (hl : locate (idle s) r.tid space ea n al needW [] = .ok p x ks) :
    storeLane (idle s) r space ea n al bs [] = .ok (withAccess (idle s)
      { issued s r.tid .store p n ea x ks with bytes := bs, writeBack := decide (space = 3), ctr := .st }) {} := by
  simp only [storeLane, counterHold_free hu, hl, List.contains_nil, List.filter_false]
  rw [enqueue_eq _ _ rfl]
  rfl

theorem count_eq (b : DWord) : natLow 32 b = countOf b := by simp [natLow, countOf]

theorem some_of_length {α : Type} {l m : List α} {i : Nat} (h : (l[i]?).isSome) (hl : m.length = l.length) : (m[i]?).isSome := by
  have hi : i < l.length := by simpa using h
  have : i < m.length := by omega
  simpa using this

theorem raiseFences_length (s : State) (a b : Nat) : (raiseFences s a b).threads.length = s.threads.length := by
  simp [raiseFences]

end Sys2Proof.Claims
end

