-- ==== Sys2Proof/Laws/Memory.lean ====
section
/-! SUPPORT. Every operation that writes memory keeps its canonical form. -/

namespace Sys2Proof.Machine

theorem memCells_bound (a : Nat) (bs : List Byte) : ∀ x ∈ memCells a bs, a ≤ x.1 ∧ x.1 < a + bs.length := by
  induction bs generalizing a with
  | nil => simp [memCells]
  | cons b bs ih =>
    intro x hx
    simp only [memCells] at hx
    split at hx
    · have := ih (a + 1) x hx; simp; omega
    · rcases List.mem_cons.1 hx with rfl | h
      · simp
      · have := ih (a + 1) x h; simp; omega

theorem memCells_rising (a : Nat) (bs : List Byte) : (memCells a bs).Pairwise fun x y => x.1 < y.1 := by
  induction bs generalizing a with
  | nil => simp [memCells]
  | cons b bs ih =>
    simp only [memCells]
    split
    · exact ih _
    · refine List.pairwise_cons.2 ⟨fun x hx => ?_, ih _⟩
      have := memCells_bound _ _ x hx; simp; omega

theorem memCells_listed (a : Nat) (bs : List Byte) : ∀ x ∈ memCells a bs, x.2 ≠ memDefault := by
  induction bs generalizing a with
  | nil => simp [memCells]
  | cons b bs ih =>
    intro x hx
    simp only [memCells] at hx
    split at hx
    · exact ih _ x hx
    · rcases List.mem_cons.1 hx with rfl | h
      · assumption
      · exact ih _ x h

theorem memWf_iff (m : Memory) : memWf m = true ↔ m.Pairwise (fun x y => x.1 < y.1) ∧ ∀ x ∈ m, x.2 ≠ memDefault := by
  simp [memWf]

theorem mem_dropWhile_rising {m : Memory} (h : m.Pairwise fun x y => x.1 < y.1) (a : Nat) :
    ∀ x ∈ m.dropWhile (fun x => x.1 < a), a ≤ x.1 := by
  induction m with
  | nil => simp
  | cons y r ih =>
    have h' := List.pairwise_cons.1 h
    intro x hx
    by_cases hy : y.1 < a
    · rw [List.dropWhile_cons_of_pos (by simpa using hy)] at hx; exact ih h'.2 x hx
    · rw [List.dropWhile_cons_of_neg (by simpa using hy)] at hx
      rcases List.mem_cons.1 hx with rfl | hx
      · omega
      · have := h'.1 x hx; omega

theorem memWriteN_wf {m : Memory} (h : memWf m = true) (a : Nat) (bs : List Byte) : memWf (memWriteN m a bs) = true := by
  rw [memWf_iff] at h ⊢
  have hd := mem_dropWhile_rising h.1 (a + bs.length)
  have hc := memCells_bound a bs
  have ht : ∀ x ∈ m.takeWhile (fun x => x.1 < a), x.1 < a := fun x hx => by simpa using List.mem_takeWhile_imp hx
  refine ⟨?_, ?_⟩
  · unfold memWriteN
    refine List.pairwise_append.2 ⟨List.pairwise_append.2 ⟨h.1.sublist (List.takeWhile_sublist _), memCells_rising a bs, ?_⟩,
      h.1.sublist (List.dropWhile_sublist _), ?_⟩
    · intro x hx y hy; have := ht x hx; have := hc y hy; omega
    · intro x hx y hy
      have hy := hd y hy
      rcases List.mem_append.1 hx with hx | hx
      · have := ht x hx; omega
      · have := hc x hx; omega
  · intro x hx
    unfold memWriteN at hx
    rcases List.mem_append.1 hx with hx | hx
    · rcases List.mem_append.1 hx with hx | hx
      · exact h.2 x ((List.takeWhile_sublist _).mem hx)
      · exact memCells_listed a bs x hx
    · exact h.2 x ((List.dropWhile_sublist _).mem hx)
theorem memWrite_wf {m : Memory} (h : memWf m = true) (a : Nat) (b : Byte) : memWf (memWrite m a b) = true :=
  memWriteN_wf h a [b]

theorem dramPut_wf {m : Memory} (h : memWf m = true) (line : Nat) (x : Line) : memWf (dramPut m line x) = true :=
  memWriteN_wf h _ _

theorem memWrites_wf (p : Nat → Bool) (a : Nat → Nat) (b : Nat → Byte) (l : List Nat) :
    ∀ m : Memory, memWf m = true → memWf (l.foldl (fun m i => if p i then memWrite m (a i) (b i) else m) m) = true := by
  induction l with
  | nil => intro m h; exact h
  | cons i l ih =>
    intro m h
    rw [List.foldl_cons]
    apply ih
    split
    · exact memWrite_wf h _ _
    · exact h

theorem reset_memory : Memory.wf State.reset.mem := by decide

end Sys2Proof.Machine
end

