-- ==== Sys2Proof/Laws/PerInstr.lean ====
section
/-! SUPPORT. Of every instruction, what its words are: a thread instruction is stored in its length's bytes with its own opcode in
bits [9:2] (R64, R69), and the step of another agent has no word. -/

namespace Sys2Proof.Laws.Encoded

/-- A thread instruction's word has its length's bytes and its opcode in OPC; a step of another agent has no bytes. -/
def Statement (i : Instr) : Prop :=
  match i.parts with
  | none => encode i = []
  | some (o, f) => (encode i).length = f.len.bytes ∧ (wordBits o f).extractLsb' 2 8 = o ∧ (wordBits o f).extractLsb' 0 2 = f.len.bits

theorem bytes_length (n w : Nat) : (bytesOfBits n w).length = n := by
  induction n generalizing w with
  | zero => rfl
  | succ n ih => simp [bytesOfBits, ih]

/-- What lies below the join of an append is the lower part's. -/
theorem extract_low {n m : Nat} (x : BitVec n) (y : BitVec m) (s l : Nat) (h : s + l ≤ m) :
    (x ++ y).extractLsb' s l = y.extractLsb' s l := by
  ext i hi
  simp [BitVec.getLsbD_append, show s + i < m by omega]

/-- The upper part of an append. -/
theorem extract_high {n m : Nat} (x : BitVec n) (y : BitVec m) (l : Nat) : (x ++ y).extractLsb' m l = x.extractLsb' 0 l := by
  ext i hi
  simp [BitVec.getLsbD_append]

/-- The whole of it. -/
theorem extract_all {n : Nat} (x : BitVec n) : x.extractLsb' 0 n = x := by
  ext i hi
  simp [BitVec.getLsbD_eq_getElem hi]

/-- OPC is bits [9:2] of the word (R69). -/
theorem wordBits_opcode (o : BitVec 8) (f : Form) : (wordBits o f).extractLsb' 2 8 = o :=
  (extract_low (f.x2 ++ f.x1) (baseWord o f) 2 8 (by decide)).trans
    ((extract_high (f.mod ++ f.holdSrc ++ f.holdEntry ++ f.c ++ f.b ++ f.a ++ f.d ++ BitVec.ofBool f.inv ++ f.pred ++ o) f.len.bits 8).trans
      ((extract_low (f.mod ++ f.holdSrc ++ f.holdEntry ++ f.c ++ f.b ++ f.a ++ f.d ++ BitVec.ofBool f.inv ++ f.pred) o 0 8
        (by decide)).trans (extract_all o)))

/-- LEN is bits [1:0] of the word (R64). -/
theorem wordBits_length (o : BitVec 8) (f : Form) : (wordBits o f).extractLsb' 0 2 = f.len.bits :=
  (extract_low (f.x2 ++ f.x1) (baseWord o f) 0 2 (by decide)).trans
    ((extract_low (f.mod ++ f.holdSrc ++ f.holdEntry ++ f.c ++ f.b ++ f.a ++ f.d ++ BitVec.ofBool f.inv ++ f.pred ++ o) f.len.bits 0 2
      (by decide)).trans (extract_all f.len.bits))

/-- Of a thread instruction. -/
theorem of_parts {i : Instr} {o : BitVec 8} {f : Form} (h : i.parts = some (o, f)) : Statement i := by
  simp only [Statement, h, encode]
  exact ⟨bytes_length _ _, wordBits_opcode o f, wordBits_length o f⟩

theorem nop (f : Form) : Statement (.nop f) := of_parts rfl
theorem bra (f : Form) : Statement (.bra f) := of_parts rfl
theorem jmp (f : Form) : Statement (.jmp f) := of_parts rfl
theorem call (f : Form) : Statement (.call f) := of_parts rfl
theorem calli (f : Form) : Statement (.calli f) := of_parts rfl
theorem ret (f : Form) : Statement (.ret f) := of_parts rfl
theorem exit (f : Form) : Statement (.exit f) := of_parts rfl
theorem loop (f : Form) : Statement (.loop f) := of_parts rfl
theorem yield (f : Form) : Statement (.yield f) := of_parts rfl
theorem trap (f : Form) : Statement (.trap f) := of_parts rfl
theorem bkpt (f : Form) : Statement (.bkpt f) := of_parts rfl
theorem icmp (f : Form) : Statement (.icmp f) := of_parts rfl
theorem fcmp (f : Form) : Statement (.fcmp f) := of_parts rfl
theorem plop (f : Form) : Statement (.plop f) := of_parts rfl
theorem sel (f : Form) : Statement (.sel f) := of_parts rfl
theorem pmovGet (f : Form) : Statement (.pmovGet f) := of_parts rfl
theorem pmovPut (f : Form) : Statement (.pmovPut f) := of_parts rfl
theorem fclass (f : Form) : Statement (.fclass f) := of_parts rfl
theorem add (f : Form) : Statement (.add f) := of_parts rfl
theorem sub (f : Form) : Statement (.sub f) := of_parts rfl
theorem addc (f : Form) : Statement (.addc f) := of_parts rfl
theorem mul (f : Form) : Statement (.mul f) := of_parts rfl
theorem mulh (f : Form) : Statement (.mulh f) := of_parts rfl
theorem mad (f : Form) : Statement (.mad f) := of_parts rfl
theorem madw (f : Form) : Statement (.madw f) := of_parts rfl
theorem abs (f : Form) : Statement (.abs f) := of_parts rfl
theorem min (f : Form) : Statement (.min f) := of_parts rfl
theorem max (f : Form) : Statement (.max f) := of_parts rfl
theorem dot4 (f : Form) : Statement (.dot4 f) := of_parts rfl
theorem sad (f : Form) : Statement (.sad f) := of_parts rfl
theorem and (f : Form) : Statement (.and f) := of_parts rfl
theorem or (f : Form) : Statement (.or f) := of_parts rfl
theorem xor (f : Form) : Statement (.xor f) := of_parts rfl
theorem bfn (f : Form) : Statement (.bfn f) := of_parts rfl
theorem shl (f : Form) : Statement (.shl f) := of_parts rfl
theorem shr (f : Form) : Statement (.shr f) := of_parts rfl
theorem shra (f : Form) : Statement (.shra f) := of_parts rfl
theorem rol (f : Form) : Statement (.rol f) := of_parts rfl
theorem fsh (f : Form) : Statement (.fsh f) := of_parts rfl
theorem popc (f : Form) : Statement (.popc f) := of_parts rfl
theorem clz (f : Form) : Statement (.clz f) := of_parts rfl
theorem brev (f : Form) : Statement (.brev f) := of_parts rfl
theorem bfe (f : Form) : Statement (.bfe f) := of_parts rfl
theorem bfi (f : Form) : Statement (.bfi f) := of_parts rfl
theorem bsel (f : Form) : Statement (.bsel f) := of_parts rfl
theorem lea (f : Form) : Statement (.lea f) := of_parts rfl
theorem taddr (f : Form) : Statement (.taddr f) := of_parts rfl
theorem fadd (f : Form) : Statement (.fadd f) := of_parts rfl
theorem fsub (f : Form) : Statement (.fsub f) := of_parts rfl
theorem fmul (f : Form) : Statement (.fmul f) := of_parts rfl
theorem ffma (f : Form) : Statement (.ffma f) := of_parts rfl
theorem fmin (f : Form) : Statement (.fmin f) := of_parts rfl
theorem fmax (f : Form) : Statement (.fmax f) := of_parts rfl
theorem frcp (f : Form) : Statement (.frcp f) := of_parts rfl
theorem frsq (f : Form) : Statement (.frsq f) := of_parts rfl
theorem fsqrt (f : Form) : Statement (.fsqrt f) := of_parts rfl
theorem fexp2 (f : Form) : Statement (.fexp2 f) := of_parts rfl
theorem flog2 (f : Form) : Statement (.flog2 f) := of_parts rfl
theorem fsin (f : Form) : Statement (.fsin f) := of_parts rfl
theorem fcos (f : Form) : Statement (.fcos f) := of_parts rfl
theorem ftanh (f : Form) : Statement (.ftanh f) := of_parts rfl
theorem fdiv (f : Form) : Statement (.fdiv f) := of_parts rfl
theorem fscale (f : Form) : Statement (.fscale f) := of_parts rfl
theorem fdot2 (f : Form) : Statement (.fdot2 f) := of_parts rfl
theorem frnd (f : Form) : Statement (.frnd f) := of_parts rfl
theorem cvt (f : Form) : Statement (.cvt f) := of_parts rfl
theorem qnt (f : Form) : Statement (.qnt f) := of_parts rfl
theorem dqnt (f : Form) : Statement (.dqnt f) := of_parts rfl
theorem pack (f : Form) : Statement (.pack f) := of_parts rfl
theorem unpk (f : Form) : Statement (.unpk f) := of_parts rfl
theorem bpln (f : Form) : Statement (.bpln f) := of_parts rfl
theorem bunp (f : Form) : Statement (.bunp f) := of_parts rfl
theorem scmax (f : Form) : Statement (.scmax f) := of_parts rfl
theorem pgath (f : Form) : Statement (.pgath f) := of_parts rfl
theorem lxch (f : Form) : Statement (.lxch f) := of_parts rfl
theorem matchLanes (f : Form) : Statement (.matchLanes f) := of_parts rfl
theorem gred (f : Form) : Statement (.gred f) := of_parts rfl
theorem mov (f : Form) : Statement (.mov f) := of_parts rfl
theorem movk (f : Form) : Statement (.movk f) := of_parts rfl
theorem movi (f : Form) : Statement (.movi f) := of_parts rfl
theorem xset (f : Form) : Statement (.xset f) := of_parts rfl
theorem xget (f : Form) : Statement (.xget f) := of_parts rfl
theorem xadj (f : Form) : Statement (.xadj f) := of_parts rfl
theorem rcpy (f : Form) : Statement (.rcpy f) := of_parts rfl
theorem ld (f : Form) : Statement (.ld f) := of_parts rfl
theorem st (f : Form) : Statement (.st f) := of_parts rfl
theorem ldk (f : Form) : Statement (.ldk f) := of_parts rfl
theorem stk (f : Form) : Statement (.stk f) := of_parts rfl
theorem ldt (f : Form) : Statement (.ldt f) := of_parts rfl
theorem stt (f : Form) : Statement (.stt f) := of_parts rfl
theorem prf (f : Form) : Statement (.prf f) := of_parts rfl
theorem cpy (f : Form) : Statement (.cpy f) := of_parts rfl
theorem cpyt (f : Form) : Statement (.cpyt f) := of_parts rfl
theorem cpye (f : Form) : Statement (.cpye f) := of_parts rfl
theorem matz (f : Form) : Statement (.matz f) := of_parts rfl
theorem alq (f : Form) : Statement (.alq f) := of_parts rfl
theorem pin (f : Form) : Statement (.pin f) := of_parts rfl
theorem unpin (f : Form) : Statement (.unpin f) := of_parts rfl
theorem touch (f : Form) : Statement (.touch f) := of_parts rfl
theorem cflush (f : Form) : Statement (.cflush f) := of_parts rfl
theorem cinv (f : Form) : Statement (.cinv f) := of_parts rfl
theorem atom (f : Form) : Statement (.atom f) := of_parts rfl
theorem acas (f : Form) : Statement (.acas f) := of_parts rfl
theorem red (f : Form) : Statement (.red f) := of_parts rfl
theorem atomq (f : Form) : Statement (.atomq f) := of_parts rfl
theorem cqpop (f : Form) : Statement (.cqpop f) := of_parts rfl
theorem waitc (f : Form) : Statement (.waitc f) := of_parts rfl
theorem wsig (f : Form) : Statement (.wsig f) := of_parts rfl
theorem putr (f : Form) : Statement (.putr f) := of_parts rfl
theorem getr (f : Form) : Statement (.getr f) := of_parts rfl
theorem bar (f : Form) : Statement (.bar f) := of_parts rfl
theorem cbar (f : Form) : Statement (.cbar f) := of_parts rfl
theorem abinit (f : Form) : Statement (.abinit f) := of_parts rfl
theorem abarv (f : Form) : Statement (.abarv f) := of_parts rfl
theorem abwait (f : Form) : Statement (.abwait f) := of_parts rfl
theorem fenceg (f : Form) : Statement (.fenceg f) := of_parts rfl
theorem fencex (f : Form) : Statement (.fencex f) := of_parts rfl
theorem wait (f : Form) : Statement (.wait f) := of_parts rfl
theorem cvg (f : Form) : Statement (.cvg f) := of_parts rfl
theorem tclaim (f : Form) : Statement (.tclaim f) := of_parts rfl
theorem trel (f : Form) : Statement (.trel f) := of_parts rfl
theorem tld (f : Form) : Statement (.tld f) := of_parts rfl
theorem tst (f : Form) : Statement (.tst f) := of_parts rfl
theorem tzero (f : Form) : Statement (.tzero f) := of_parts rfl
theorem tmma (f : Form) : Statement (.tmma f) := of_parts rfl
theorem tmmas (f : Form) : Statement (.tmmas f) := of_parts rfl
theorem tmovv (f : Form) : Statement (.tmovv f) := of_parts rfl
theorem tstat (f : Form) : Statement (.tstat f) := of_parts rfl
theorem twait (f : Form) : Statement (.twait f) := of_parts rfl
theorem mqpush (f : Form) : Statement (.mqpush f) := of_parts rfl
theorem mqclr (f : Form) : Statement (.mqclr f) := of_parts rfl
theorem xop (f : Form) : Statement (.xop f) := of_parts rfl
theorem xopr (f : Form) : Statement (.xopr f) := of_parts rfl
theorem tidset (f : Form) : Statement (.tidset f) := of_parts rfl
theorem tidget (f : Form) : Statement (.tidget f) := of_parts rfl
theorem gfire (f : Form) : Statement (.gfire f) := of_parts rfl
theorem nodeq (f : Form) : Statement (.nodeq f) := of_parts rfl
theorem mfs (f : Form) : Statement (.mfs f) := of_parts rfl
theorem mts (f : Form) : Statement (.mts f) := of_parts rfl
theorem rtt (f : Form) : Statement (.rtt f) := of_parts rfl
theorem ctxsv (f : Form) : Statement (.ctxsv f) := of_parts rfl
theorem ctxrs (f : Form) : Statement (.ctxrs f) := of_parts rfl
theorem spillw (f : Form) : Statement (.spillw f) := of_parts rfl
theorem fillw (f : Form) : Statement (.fillw f) := of_parts rfl
theorem icinv (f : Form) : Statement (.icinv f) := of_parts rfl
theorem tlbinv (f : Form) : Statement (.tlbinv f) := of_parts rfl
theorem exitp (f : Form) : Statement (.exitp f) := of_parts rfl
theorem clock (f : Form) : Statement (.clock f) := of_parts rfl
theorem perf (f : Form) : Statement (.perf f) := of_parts rfl
theorem sleep (f : Form) : Statement (.sleep f) := of_parts rfl
theorem halt (f : Form) : Statement (.halt f) := of_parts rfl
theorem instructionFetch (die site part : Nat) (block : Nat) : Statement (.instructionFetch die site part block) := rfl
theorem promotion (t : Nat) : Statement (.promotion t) := rfl
theorem loopBufferGrant (die site part : Nat) : Statement (.loopBufferGrant die site part) := rfl
theorem loadReturn (a : Nat) : Statement (.loadReturn a) := rfl
theorem accessAcknowledge (a : Nat) : Statement (.accessAcknowledge a) := rfl
theorem spill (t : Nat) : Statement (.spill t) := rfl
theorem fill (t : Nat) : Statement (.fill t) := rfl
theorem tileOperationIssue (die site op : Nat) : Statement (.tileOperationIssue die site op) := rfl
theorem tileOperationComplete (die site op : Nat) : Statement (.tileOperationComplete die site op) := rfl
theorem slCopy (e : Nat) : Statement (.slCopy e) := rfl
theorem slFill (e : Nat) : Statement (.slFill e) := rfl
theorem slGather (e : Nat) : Statement (.slGather e) := rfl
theorem slSparse (e : Nat) : Statement (.slSparse e) := rfl
theorem slLoad (e : Nat) : Statement (.slLoad e) := rfl
theorem fdOpen (e : Nat) : Statement (.fdOpen e) := rfl
theorem fdFrame (e : Nat) : Statement (.fdFrame e) := rfl
theorem fdClose (e : Nat) : Statement (.fdClose e) := rfl
theorem sbHash (e : Nat) : Statement (.sbHash e) := rfl
theorem sbReport (e : Nat) : Statement (.sbReport e) := rfl
theorem sbExtend (e : Nat) : Statement (.sbExtend e) := rfl
theorem engineOperationComplete (e : Nat) : Statement (.engineOperationComplete e) := rfl
theorem eagerCopyComplete (e : Nat) : Statement (.eagerCopyComplete e) := rfl
theorem rangeLockGrant (e : Nat) : Statement (.rangeLockGrant e) := rfl
theorem copyCommit (a : Nat) : Statement (.copyCommit a) := rfl
theorem sourceBlockRead (home sec : Nat) : Statement (.sourceBlockRead home sec) := rfl
theorem dhomeMaterialise (dhome grain : Nat) : Statement (.dhomeMaterialise dhome grain) := rfl
theorem aliasReleaseNotice (home grain len : Nat) : Statement (.aliasReleaseNotice home grain len) := rfl
theorem hotMaterialise (home grain : Nat) : Statement (.hotMaterialise home grain) := rfl
theorem backgroundMaterialiser (home : Nat) : Statement (.backgroundMaterialiser home) := rfl
theorem rds (die sec : Nat) : Statement (.rds die sec) := rfl
theorem rdx (die sec : Nat) : Statement (.rdx die sec) := rfl
theorem upg (die sec : Nat) : Statement (.upg die sec) := rfl
theorem wbm (m : SectorMsg) : Statement (.wbm m) := rfl
theorem drop (die sec : Nat) : Statement (.drop die sec) := rfl
theorem pjoin (die sec tag : Nat) : Statement (.pjoin die sec tag) := rfl
theorem inv (die sec : Nat) : Statement (.inv die sec) := rfl
theorem fwd (owner dest sec : Nat) (inval : Bool) : Statement (.fwd owner dest sec inval) := rfl
theorem precall (die sec : Nat) : Statement (.precall die sec) := rfl
theorem peek (owner sec acc : Nat) : Statement (.peek owner sec acc) := rfl
theorem ack (m : SectorMsg) : Statement (.ack m) := rfl
theorem data (m : SectorMsg) : Statement (.data m) := rfl
theorem grant (m : SectorMsg) : Statement (.grant m) := rfl
theorem sliceRedUpdate (a : Nat) : Statement (.sliceRedUpdate a) := rfl
theorem monitorWake (t : Nat) : Statement (.monitorWake t) := rfl
theorem waitcPoll (t : Nat) : Statement (.waitcPoll t) := rfl
theorem sleepExpire (t : Nat) : Statement (.sleepExpire t) := rfl
theorem ptimeTick : Statement (.ptimeTick) := rfl
theorem ptimeLimitReport : Statement (.ptimeLimitReport) := rfl
theorem wcFallback (home line : Nat) : Statement (.wcFallback home line) := rfl
theorem fadePeriod (ctx : Nat) : Statement (.fadePeriod ctx) := rfl
theorem scratchpadRefill (team page : Nat) : Statement (.scratchpadRefill team page) := rfl
theorem ticketPull (die grid : Nat) : Statement (.ticketPull die grid) := rfl
theorem steal (die grid : Nat) : Statement (.steal die grid) := rfl
theorem pushBatch (grid die : Nat) : Statement (.pushBatch grid die) := rfl
theorem teamAdmit (grid cluster die origin : Nat) : Statement (.teamAdmit grid cluster die origin) := rfl
theorem teamComplete (team : Nat) : Statement (.teamComplete team) := rfl
theorem swapOut (team : Nat) : Statement (.swapOut team) := rfl
theorem teamRestore (team : Nat) : Statement (.teamRestore team) := rfl
theorem nodeStart (g n : Nat) : Statement (.nodeStart g n) := rfl
theorem nodeComplete (g n : Nat) : Statement (.nodeComplete g n) := rfl
theorem nodeFail (g n code addr : Nat) : Statement (.nodeFail g n code addr) := rfl
theorem hummockCommand (g n cmd : Nat) : Statement (.hummockCommand g n cmd) := rfl
theorem parityAbort (g n cmd pa : Nat) : Statement (.parityAbort g n cmd pa) := rfl
theorem decodeUnit (g n u : Nat) : Statement (.decodeUnit g n u) := rfl
theorem faultQueueHead (ctx head : Nat) : Statement (.faultQueueHead ctx head) := rfl
theorem ctxCreate (h : HostHead) (desc : Nat) : Statement (.ctxCreate h desc) := rfl
theorem ctxDestroy (h : HostHead) : Statement (.ctxDestroy h) := rfl
theorem preempt (h : HostHead) : Statement (.preempt h) := rfl
theorem resume (h : HostHead) : Statement (.resume h) := rfl
theorem graphFire (h : HostHead) (addr : DWord) : Statement (.graphFire h addr) := rfl
theorem setBudget (h : HostHead) (v : DWord) : Statement (.setBudget h v) := rfl
theorem keyLoad (h : HostHead) (slot : Nat) (k : BitVec 512) : Statement (.keyLoad h slot k) := rfl
theorem keyDestroy (h : HostHead) (slot : Nat) : Statement (.keyDestroy h slot) := rfl
theorem setMode (h : HostHead) (mode : Nat) : Statement (.setMode h mode) := rfl
theorem rebase (h : HostHead) : Statement (.rebase h) := rfl
theorem setNode (h : HostHead) (node table : Nat) : Statement (.setNode h node table) := rfl
theorem power (h : HostHead) (state : Nat) : Statement (.power h state) := rfl
theorem lodeWriteLanding (node ctxid addr : Nat) (bytes : List Byte) : Statement (.lodeWriteLanding node ctxid addr bytes) := rfl
theorem lodeRead (node ctxid addr n : Nat) : Statement (.lodeRead node ctxid addr n) := rfl
theorem lodeAcknowledge (op status : Nat) (bytes : List Byte) : Statement (.lodeAcknowledge op status bytes) := rfl
theorem atomqCommand (m : RemoteAtom) : Statement (.atomqCommand m) := rfl
theorem atomqReply (op status : Nat) (old : DWord) : Statement (.atomqReply op status old) := rfl
theorem phyTestComplete (b : PhyBlock) : Statement (.phyTestComplete b) := rfl
theorem packageReset (images : List FirmwareImage) (training : List TrainingImage) : Statement (.packageReset images training) := rfl
theorem unitLoss (die : Nat) (site : Option Nat) : Statement (.unitLoss die site) := rfl
theorem scrub (sec : Nat) (e : ScrubFinding) : Statement (.scrub sec e) := rfl
theorem rowSwap (stack channel row : Nat) : Statement (.rowSwap stack channel row) := rfl
theorem remapTableError (stack channel : Nat) (agree : Bool) : Statement (.remapTableError stack channel agree) := rfl
theorem linkRetire (lode : Bool) (link : Nat) : Statement (.linkRetire lode link) := rfl
theorem sensorPoll : Statement (.sensorPoll) := rfl
theorem droop (die site : Nat) : Statement (.droop die site) := rfl
theorem overTemperature (die : Nat) : Statement (.overTemperature die) := rfl
theorem thermalTrip : Statement (.thermalTrip) := rfl
theorem overcurrent : Statement (.overcurrent) := rfl
theorem readPoint (b : PhyBlock) (tap : Nat) : Statement (.readPoint b tap) := rfl
theorem writePoint (b : PhyBlock) (tap : Nat) : Statement (.writePoint b tap) := rfl
theorem prbs (b : PhyBlock) : Statement (.prbs b) := rfl
theorem pswap (b : PhyBlock) (v : Word) : Statement (.pswap b v) := rfl
theorem pdone (b : PhyBlock) (v : Word) : Statement (.pdone b v) := rfl
theorem registerWrite (b : PhyBlock) (off : Nat) (v : Word) : Statement (.registerWrite b off v) := rfl
theorem overTemperatureClear (die : Nat) : Statement (.overTemperatureClear die) := rfl
theorem droopRecovery (die site : Nat) : Statement (.droopRecovery die site) := rfl
theorem overcurrentClear : Statement (.overcurrentClear) := rfl
theorem flitCrcError (lode : Bool) (link : Nat) : Statement (.flitCrcError lode link) := rfl
theorem runRateChange (die mhz : Nat) : Statement (.runRateChange die mhz) := rfl
theorem correctedErrorReport (source die stack channel site : Nat) : Statement (.correctedErrorReport source die stack channel site) := rfl

end Sys2Proof.Laws.Encoded
end

