-- ==== Sys2Proof/Laws/Step.lean ====
section
/-! SUPPORT. What a step does before its move: threads that have become ready take their places (R32, R34). -/

namespace Sys2Proof.Laws
open Sys2Proof.Machine

/-- Cores that are looked at come to be listed, and nothing else changes. -/
theorem modCore_fold_frame (l : List Seen) : ∀ s : State, ∃ cs, l.foldl (fun s a => modCore s a.die a.site fun c => c) s = { s with cores := cs } := by
  induction l with
  | nil => intro s; exact ⟨s.cores, rfl⟩
  | cons a l ih =>
    intro s
    obtain ⟨cs, h⟩ := ih (modCore s a.die a.site fun c => c)
    simp only [List.foldl_cons, h]
    simp only [modCore, setCore]; split <;> exact ⟨cs, rfl⟩

/-- What settling can do: cores' tables change, and threads get their age. -/
theorem settleReady_frame (s : State) : ∃ cs f, settleReady s = { s with cores := cs, threads := s.threads.mapIdx f } ∧
    ∀ i th, f i th = th ∨ f i th = { th with age := s.clk, promoted := false } := by
  obtain ⟨cs, h⟩ := modCore_fold_frame (readySeen s) s
  unfold settleReady
  simp only [h]
  refine ⟨_, _, rfl, ?_⟩
  intro i th
  split
  · exact .inr rfl
  · exact .inl rfl

end Sys2Proof.Laws
end

