-- ==== Sys2Proof/Tests/Slice0.lean ====
section
/-! SUPPORT. Tests of the model. Words and results are those of the spec's own examples or worked by hand from its rules; each
`witness_` theorem shows that the hypotheses of a statement can be met, clause by clause. -/

open Sys2Proof Sys2Proof.Machine Sys2Proof.Claims

namespace Sys2Proof.Tests

/-! A small machine: one thread of one group in bring-up mode on core 0 of die 0, its issue group current. -/

/-- First byte of die 0's bring-up SRAM. -/
def sram : Nat := 0xE000000000

/-- The thread: v0 to v63 hold their own numbers. -/
def oneThread : Thread :=
  { startThread 0 0 0 0 0 (BitVec.ofNat 64 sram) .bringUp with regs := (List.range 64).map fun i => (i, BitVec.ofNat 32 i) }

/-- Its issue group. -/
def oneIssue : Issue := ⟨0, 0, 0, BitVec.ofNat 64 sram, [(0, 0)]⟩

/-- The machine. -/
def tiny : State :=
  { State.reset with
    contexts := [plainContext]
    grids := [⟨plainLaunch (BitVec.ofNat 64 sram) 0, 0, none, [], 1, [], (0, 0), [], none, none, false⟩]
    clusters := [⟨0, 0, [0], none⟩]
    teams := [plainTeam 0 0 [0]]
    groups := [⟨0, 0, 0, 0, 0, List.replicate 96 0, 0, 0, 0, none, 0, false⟩]
    threads := [oneThread]
    clk := 1
    cur := some oneIssue }

/-- A 64-bit word's fields. -/
def form (mod d a b c : Nat) : Form :=
  ⟨.l64, BitVec.ofNat 6 mod, 0, 0, BitVec.ofNat 10 c, BitVec.ofNat 10 b, BitVec.ofNat 10 a, BitVec.ofNat 10 d, false, 7, 0, 0⟩

/-- A 96-bit word's fields. -/
def formImm (mod d a b c imm : Nat) : Form := { form mod d a b c with len := .l96, x1 := BitVec.ofNat 32 imm }

/-- The lane of a one-lane issue group as its operands are read. -/
def laneOf (s : State) (sig : Thread → Sig) (f : Form) : Ready :=
  (readyLanes (preparedBy s oneIssue sig f)).headD ⟨0, 0, 0, 0, 0, 0, .void, .void, none, [], none, 0, [], none⟩

/-- The same under an opcode's own signature. -/
def lane (s : State) (opc : BitVec 8) (f : Form) : Ready := laneOf s (fun _ => sigOf opc f) f

/-- The issue group is one ready lane, checked. -/
def aloneB (s : State) (opc : BitVec 8) (sig : Thread → Sig) (f : Form) : Bool :=
  runsBy s oneIssue opc sig f && decide (preparedBy s oneIssue sig f = [((laneOf s sig f).tid, .ready (laneOf s sig f))])

theorem alone {s : State} {opc : BitVec 8} {sig : Thread → Sig} {f : Form} (h : aloneB s opc sig f = true) :
    Alone s oneIssue opc sig f (laneOf s sig f) := by
  simp only [aloneB, Bool.and_eq_true, decide_eq_true_eq] at h
  exact ⟨h.1, h.2⟩

theorem single {s : State} {opc : BitVec 8} {f : Form} (h : aloneB s opc (fun _ => sigOf opc f) f = true) :
    Single s oneIssue opc f (lane s opc f) := alone h

/-- Every form runs on the machine above. -/
def allRun (l : List (BitVec 8 × Form)) : Bool := l.all fun p => runs tiny oneIssue p.1 p.2

/-- An access's checks pass; a range's checks pass. -/
def located (x : Located) : Bool := match x with | .ok _ _ _ => true | .trap _ | .hold _ => false
def checked (x : Checked) : Bool := match x with | .ok _ _ _ => true | .trap _ | .hold _ => false

theorem located_of {x : Located} (h : located x = true) : ∃ p y ks, x = .ok p y ks := by
  cases x <;> simp_all [located]

theorem checked_of {x : Checked} (h : checked x = true) : ∃ p y ks, x = .ok p y ks := by
  cases x <;> simp_all [checked]

/-- In each of these machines the opcode's form runs in one ready lane. -/
def lonely (l : List (State × BitVec 8 × Form)) : Bool := l.all fun p => aloneB p.1 p.2.1 (fun _ => sigOf p.2.1 p.2.2) p.2.2

theorem lonely_single {l : List (State × BitVec 8 × Form)} (h : lonely l = true) {s : State} {opc : BitVec 8} {f : Form}
    (hm : (s, opc, f) ∈ l) : Single s oneIssue opc f (lane s opc f) :=
  single (List.all_eq_true.mp h _ hm)

/-! Witnesses: the hypotheses of each statement can be met, clause by clause. -/

/-- Opcodes whose forms run with v2 := v4 op v6, v8. -/
def plainForms (l : List (BitVec 8)) : List (BitVec 8 × Form) := l.map fun o => (o, form 0 2 4 6 8)

/-- IntegerResults: each instruction runs, a pair and a 16-bit type among them. -/
theorem witness_IntegerResults :
    allRun (plainForms [0x20, 0x21, 0x23, 0x24, 0x25, 0x26, 0x27, 0x28, 0x29, 0x2A, 0x2B]
      ++ [(0x22, form 1 2 4 6 0), (0x20, form 2 2 4 6 8), (0x20, form 12 2 4 6 8), (0x2B, form 16 2 4 6 8)]) = true := by
  decide +kernel

/-- BitResults: each instruction runs, and the 64-bit type. -/
theorem witness_BitResults :
    allRun (plainForms [0x30, 0x31, 0x32, 0x34, 0x35, 0x36, 0x37, 0x38, 0x39, 0x3A, 0x3B, 0x3C, 0x3D]
      ++ [(0x33, formImm 0 2 4 6 8 0xCA), (0x34, form 2 2 4 6 8)]) = true := by
  decide +kernel

/-- PredicateResults: each instruction runs; the selected predicate of `SEL` may be p7. -/
theorem witness_PredicateResults :
    allRun [(0x10, form 0 2 4 6 8), (0x11, form 0 2 4 6 8), (0x12, form 0 2 4 6 0), (0x14, form 0 2 4 6 8), (0x14, form 1 0 4 6 0),
      (0x15, form 1 2 4 6 8)] = true ∧
    runsBy tiny oneIssue 0x13 (selSig (form 0 2 4 6 7)) (form 0 2 4 6 7) = true := by
  decide +kernel

/-- The machine with an identifier that is set: a row of 16 elements of `.u8` at the third SRAM sector. -/
def rowTensor : Tensor where
  saxis := 0
  sblk := 0
  sfmt := 0
  layout := 0
  ndim := 1
  fmt := 0x14
  base := BitVec.ofNat 64 (sram + 128)
  sbase := 0
  fill := 7
  sizes := [16, 1, 1, 1, 1]
  strides := [1, 0, 0, 0, 0]
  srow := 0
  splane := 0

/-- The small machine with its context replaced. -/
def withContext (s : State) (k : Context) : State := { s with contexts := [k] }

/-- The small machine whose identifier 8 is set. -/
def tensored : State := withContext tiny { plainContext with tensors := [(8, rowTensor)] }

/-- AddressLaneResults: each instruction runs; `TADDR`'s identifier is set, with layout RM. -/
theorem witness_AddressLaneResults :
    allRun [(0x40, form 0 2 4 6 8), (0x75, form 1 2 4 6 8), (0x76, form 1 2 4 6 8), (0x77, form 0 2 4 6 8), (0x80, form 0 2 4 6 8),
      (0x81, form 0 2 4 6 8), (0x82, form 0 2 4 6 8), (0x83, form 0 2 4 6 8), (0x85, form 0 0x300 4 6 8)] = true ∧
    runs tensored oneIssue 0x41 (form 0 2 4 6 8) = true ∧
    (∀ r ∈ readyLanes (prepared tensored oneIssue 0x41 (form 0 2 4 6 8)),
      (contextOf tensored r.tid).any fun k => decide (lookupNat k.tensors 8 = some rowTensor)) ∧
    rowTensor.layout ≤ 1 := by
  decide +kernel

/-- FloatResults: each instruction runs; `FDOT2` in `.f16x2`. -/
theorem witness_FloatResults :
    allRun (plainForms [0x50, 0x51, 0x52, 0x53, 0x54, 0x55, 0x56, 0x57, 0x58, 0x59, 0x5A, 0x5B, 0x5C, 0x5D, 0x5E, 0x5F, 0x61]
      ++ [(0x60, form 4 2 4 6 8), (0x50, form 1 2 4 6 8)]) = true := by
  decide +kernel

/-- ConversionResults: each conversion runs. -/
theorem witness_ConversionResults :
    allRun [(0x70, form 0 2 4 0 2), (0x71, form 0 2 4 6 0x03), (0x72, form 0 2 4 6 0x03), (0x73, form 0 2 4 6 0x03),
      (0x74, form 0 2 4 6 0x04)] = true := by
  decide +kernel

/-- MoveResults: each move runs; `XSET`'s base is at most 4095. -/
theorem witness_MoveResults :
    allRun [(0x00, form 0 0 0 0 0), (0x84, form 0 2 4 0 0), (0x86, { form 1 2 0 0 0 with len := .l128, x1 := 5, x2 := 6 }),
      (0x87, form 0 2 4 6 0), (0x88, form 0 2 1 0 0), (0x89, form 0 1 4 0 0)] = true ∧
    (∀ r ∈ readyLanes (prepared tiny oneIssue 0x87 (form 0 2 4 6 0)), (r.a.extractLsb' 0 12).toNat ≤ 4095) := by
  decide +kernel

/-- BranchResults: taken targets that are multiples of four, and ones that are not. -/
theorem witness_BranchResults :
    runs tiny oneIssue 0x01 (formImm 0 0 0 0 0 64) = true ∧ evenTarget (oneIssue.pc + displacement (formImm 0 0 0 0 0 64)) = true ∧
    runs tiny oneIssue 0x02 (form 0 0 4 0 0) = true ∧
    (∀ r ∈ readyLanes (prepared tiny oneIssue 0x02 (form 0 0 4 0 0)), evenTarget r.a = true) ∧
    evenTarget (displacement (formImm 0 0 0 0 0 66)) = false ∧
    aloneB tiny 0x02 (fun _ => sigOf 0x02 (form 0 0 6 0 0)) (form 0 0 6 0 0) = true ∧
    evenTarget (lane tiny 0x02 (form 0 0 6 0 0)).a = false := by
  decide +kernel

/-- The small machine with registers of its thread set. -/
def setRegs (s : State) (l : List (Nat × Nat)) : State :=
  { s with threads := s.threads.map fun th => { th with regs := l.foldl (fun m p => insertNat m p.1 (BitVec.ofNat 32 p.2)) th.regs } }

/-- The same with its launch record changed. -/
def withLaunch (s : State) (f : Launch → Launch) : State :=
  { s with grids := s.grids.map fun g => { g with launch := f g.launch } }

/-- The same with its thread changed. -/
def withThread (s : State) (f : Thread → Thread) : State := { s with threads := s.threads.map f }

/-- The same with its team changed. -/
def withTeam (s : State) (f : Team → Team) : State := { s with teams := s.teams.map f }

/-- The same with its group changed. -/
def withGroup (s : State) (f : Group → Group) : State := { s with groups := s.groups.map f }

/-- Channel 0 of every base die is open. -/
def opened (s : State) : State :=
  { s with homes := s.homes.mapIdx fun i h => { h with phys := [⟨⟨i, 0, 0⟩, [], none, true⟩, ⟨⟨i, 0, 1⟩, [], none, true⟩] } }

/-- v4:v5 = 4096 and v6:v7 = 8192, in open DRAM; v8 = 256. -/
def ranged : State := setRegs (opened tiny) [(4, 4096), (5, 0), (6, 8192), (7, 0), (8, 256), (9, 0)]

/-- v4:v5 is the SRAM's fourth sector. -/
def sramed : State := setRegs tiny [(4, 192), (5, 0xE0), (6, 0), (7, 0), (8, 0), (9, 0)]

/-- The thread is one call deep, its caller's frame resident. -/
def called : State := withThread tiny fun th => { th with frames := [⟨0, 0, none⟩, ⟨BitVec.ofNat 64 sram, 4, none⟩], wb := 4 }

/-- A reservation three positions above the window. -/
def tight : State := withLaunch tiny fun l => { l with resv := 771 }

/-- The thread may take a call. -/
def callable (s : State) (f : Form) (t : DWord) : Bool :=
  (s.threads[0]?).any fun th => evenTarget t && decide (th.wb + f.d.toNat + windowOf s 0 - 1 ≤ 4095) && decide (depthOf th < 4095) &&
    decide (windowOf s 0 + f.d.toNat ≤ resvOf s 0) && decide (residentSpan th (windowOf s 0) + f.d.toNat ≤ resvOf s 0)

/-- CallResults: calls that fit, a return, and a call past the reservation. -/
theorem witness_CallResults :
    lonely [(tiny, 0x03, formImm 0 4 0 0 0 64), (setRegs tiny [(8, 64), (9, 0)], 0x04, form 0 4 8 0 0), (called, 0x05, form 0 0 0 0 0),
      (tight, 0x03, formImm 0 4 0 0 0 64)] = true ∧
    callable tiny (formImm 0 4 0 0 0 64) (oneIssue.pc + displacement (formImm 0 4 0 0 0 64)) = true ∧
    callable (setRegs tiny [(8, 64), (9, 0)]) (form 0 4 8 0 0) (lane (setRegs tiny [(8, 64), (9, 0)]) 0x04 (form 0 4 8 0 0)).a = true ∧
    (called.threads.map fun th => (th.frames.length, th.resident)) = [(2, 0)] ∧
    resvOf tight 0 < windowOf tight 0 + 4 := by
  decide +kernel

/-- Nothing of the thread's group, team or cluster waits for it. -/
def unattachedB (s : State) : Bool :=
  (groupOf s 0).all (fun g => g.record.isNone) && (s.teams[teamIdOf s 0]?).all fun m =>
    m.episode.isNone && (m.convs.all fun c => c.sigs.isEmpty) && (s.clusters[m.cluster]?).all fun k => k.episode.isNone

/-- Four buffers of the partition hold other bodies, each given to the thread where it stands. -/
def loopsFull : State := modCore tiny 0 0 fun c => { c with
  loops := (List.range 4).map fun i =>
    (0, ⟨7, BitVec.ofNat 64 (4096 + 64 * i), 0, 1, false, [], [(0, BitVec.ofNat 64 sram)]⟩) }

/-- ExitLoopResults: an exit, a return at depth 0, a `LOOP` with count zero, one that finds a buffer and one that does not. -/
theorem witness_ExitLoopResults :
    lonely [(tiny, 0x06, form 0 0 0 0 0), (tiny, 0x05, form 0 0 0 0 0), (setRegs tiny [(4, 0)], 0x07, formImm 0 0 4 0 0 64),
      (tiny, 0x07, formImm 0 0 4 0 0 64), (tiny, 0x07, formImm 0 0 4 0 0 20), (loopsFull, 0x07, formImm 0 0 4 0 0 524)] = true ∧
    unattachedB tiny = true ∧ (oneThread.frames.length = 1) ∧
    (lane (setRegs tiny [(4, 0)]) 0x07 (formImm 0 0 4 0 0 64)).a.setWidth 32 = 0#32 ∧
    (lane tiny 0x07 (formImm 0 0 4 0 0 64)).a.setWidth 32 ≠ 0#32 ∧
    (enterLoop (idle tiny) 0 0 0 0 0 (oneIssue.pc + 12) (oneIssue.pc + 64)).isSome = true ∧
    (enterLoop (idle loopsFull) 0 0 0 0 0 (oneIssue.pc + 12) (oneIssue.pc + 524)).isNone = true := by
  decide +kernel

/-- The count of a lane's `RCPY`, where the steps before it find nothing. -/
def rangeCount (s : State) (f : Form) : Option Nat :=
  if (groupTrap s oneIssue 0x8A (sigOf 0x8A f) f).isNone && (usesPending (idle s) 0 oneThread (sigOf 0x8A f) f).isNone
      && guardHolds oneThread f then
    (resolveField (idle s) 0 oneThread (windowOf s 0) .count f.b (afterRange oneThread (windowOf s 0) f.a)).map fun p =>
      countOf (srcValue s 0 f .count p.1)
  else none

/-- RangeCopyResults: counts 1 and 32 in reach; 0 and 33; a direct range to the window's last register. -/
theorem witness_RangeCopyResults :
    lonely [(tiny, 0x8A, form 0 2 4 0x3A1 0), (tiny, 0x8A, formImm 0 8 16 0x3C0 0 32)] = true ∧
    countOf (lane tiny 0x8A (form 0 2 4 0x3A1 0)).b = 1 ∧ countOf (lane tiny 0x8A (formImm 0 8 16 0x3C0 0 32)).b = 32 ∧
    laneSource (sigOf 0x8A (form 0 2 4 0x3A1 0)) (form 0 2 4 0x3A1 0) 0 = 0#2 ∧
    rangeCount tiny (form 0 8 16 0x300 0) = some 0 ∧ rangeCount tiny (formImm 0 8 16 0x3C0 0 33) = some 33 ∧
    (rangeAt oneThread 768 736 32 0 oneThread.xs).isOk = true ∧ (rangeAt oneThread 768 737 32 0 oneThread.xs).isOk = false ∧
    oneThread.routine = .bringUp := by
  decide +kernel

/-- The checks of an access of one lane, global. -/
def at0 (s : State) (space ea n : Nat) (need : Need) : Located := locate (idle s) 0 space ea n n need []

/-- A counter of the thread stands at n; in the small machine, at 63. -/
def counterAt (c : Ctr) (n : Nat) (s : State) : State := withThread s fun th =>
  match c with
  | .ld => { th with ld := n }
  | .st => { th with st := n }
  | .cp => { th with cp := n }
  | .tl => { th with tl := n }
  | .none => th
def fullOf (c : Ctr) : State := counterAt c 63 tiny

/-- No counter of the thread stands at 63, in each of these machines. -/
def countersFree (l : List State) : Bool := l.all fun s => (s.threads[0]?).any fun th =>
  decide (th.ld < 63) && decide (th.st < 63) && decide (th.cp < 63) && decide (th.tl < 63)

theorem unfull_of {l : List State} (h : countersFree l = true) {s : State} (hm : s ∈ l) (c : Ctr) : unfull s 0 c := by
  have := List.all_eq_true.mp h s hm
  rcases hs : s.threads[0]? with _ | th
  · simp [hs] at this
  · simp only [hs, Option.any_some, Bool.and_eq_true, decide_eq_true_eq] at this
    exact ⟨th, hs, by cases c <;> simp [this]⟩

/-- LoadIssue: loads (plain, and `.STALE`, `.F`) and a `LDK` that pass their checks, one with ld at 62, a misaligned one, and one
with ld at 63. -/
theorem witness_LoadIssue :
    lonely [(sramed, 0x90, form 4 2 4 6 0), (sramed, 0x92, form 4 0x300 4 6 0), (setRegs sramed [(4, 193)], 0x90, form 4 2 4 6 0),
      (fullOf .ld, 0x90, form 4 2 4 6 0), (sramed, 0x96, form 0 2 4 6 0), (sramed, 0x90, formImm 4 2 4 6 0 0x2000),
      (sramed, 0x90, formImm 4 2 4 6 0 0x4000), (counterAt .ld 62 sramed, 0x90, form 4 2 4 6 0)] = true ∧
    [0x2000, 0x4000, 0].map (fun e => extFresh (extWord (sigOf 0x90 (formImm 4 2 4 6 0 e)) (formImm 4 2 4 6 0 e))) = [1, 2, 0] ∧
    (lane sramed 0x90 (form 4 2 4 6 0)).a.toNat = sram + 192 ∧
    located (at0 sramed 0 (sram + 192) 4 needR) = true ∧
    at0 sramed 0 (sram + 193) 4 needR = .trap ⟨9, sram + 193, 0, 0⟩ ∧
    (fullOf .ld).threads.map (·.ld) = [63] ∧ countersFree [tiny, sramed, counterAt .ld 62 sramed] = true := by
  decide +kernel

/-- StoreIssue: a store and a `STK` of a word that pass, and a misaligned one. -/
theorem witness_StoreIssue :
    lonely [(sramed, 0x91, form 4 0 4 6 8), (sramed, 0x93, form 4 0 4 6 8), (setRegs sramed [(4, 193)], 0x91, form 4 0 4 6 8)] = true ∧
    countersFree [sramed, setRegs sramed [(4, 193)]] = true ∧
    lanesWhole (form 4 0 4 6 8) sramed [(0, .ready (lane sramed 0x91 (form 4 0 4 6 8)))] = [] ∧
    located (at0 sramed 0 (sram + 192) 4 needW) = true ∧
    at0 sramed 0 (sram + 193) 4 needW = .trap ⟨9, sram + 193, 0, 0⟩ := by
  decide +kernel

/-- Where an element lies. -/
def insideOf (x : Element) : Option Nat := match x with | .inside _ ea => some ea | .outside _ | .trap _ => none
def outsideOf (x : Element) : Bool := match x with | .outside _ => true | .inside _ _ | .trap _ => false

/-- The machine whose thread names element n of the row. -/
def element (n : Nat) : State := setRegs tensored [(4, n)]

/-- The lane of an `LDT` or `STT`. -/
def ldtLane (s : State) : Ready := laneOf s (fun _ => ldtSig s (form 0 2 4 0 8) (curCtx s)) (form 0 2 4 0 8)
def sttLane (s : State) : Ready := laneOf s (fun _ => sttSig s (form 0 0 4 6 8) (curCtx s)) (form 0 0 4 6 8)

/-- The same of a row of two elements of `.u64`. -/
def wideElement (n : Nat) : State :=
  setRegs (withContext tiny { plainContext with tensors := [(8, { rowTensor with fmt := 0x17, sizes := [2, 1, 1, 1, 1], strides := [8, 0, 0, 0, 0] })] }) [(4, n)]

/-- ElementIssue: the row's last element, and the one past it; the same of a row of 64-bit elements. -/
theorem witness_ElementIssue :
    aloneB (element 15) 0x94 (fun _ => ldtSig (element 15) (form 0 2 4 0 8) (curCtx (element 15))) (form 0 2 4 0 8) = true ∧
    aloneB (element 16) 0x94 (fun _ => ldtSig (element 16) (form 0 2 4 0 8) (curCtx (element 16))) (form 0 2 4 0 8) = true ∧
    aloneB (element 15) 0x95 (fun _ => sttSig (element 15) (form 0 0 4 6 8) (curCtx (element 15))) (form 0 0 4 6 8) = true ∧
    aloneB (element 16) 0x95 (fun _ => sttSig (element 16) (form 0 0 4 6 8) (curCtx (element 16))) (form 0 0 4 6 8) = true ∧
    insideOf (elementOf (form 0 2 4 0 8) (idle (element 15)) (ldtLane (element 15))) = some (sram + 143) ∧
    outsideOf (elementOf (form 0 2 4 0 8) (idle (element 16)) (ldtLane (element 16))) = true ∧
    insideOf (elementOf (form 0 0 4 6 8) (idle (element 15)) (sttLane (element 15))) = some (sram + 143) ∧
    outsideOf (elementOf (form 0 0 4 6 8) (idle (element 16)) (sttLane (element 16))) = true ∧
    elementsWhole (form 0 0 4 6 8) (element 15) [(0, .ready (sttLane (element 15)))] = [] ∧
    countersFree [element 15, element 16, wideElement 1, wideElement 2] = true ∧ elemBits rowTensor = 8 ∧
    ([1, 2].all fun n =>
      aloneB (wideElement n) 0x94 (fun _ => ldtSig (wideElement n) (form 0 2 4 0 8) (curCtx (wideElement n))) (form 0 2 4 0 8) &&
      aloneB (wideElement n) 0x95 (fun _ => sttSig (wideElement n) (form 0 0 4 6 8) (curCtx (wideElement n))) (form 0 0 4 6 8)) = true ∧
    insideOf (elementOf (form 0 2 4 0 8) (idle (wideElement 1)) (ldtLane (wideElement 1))) = some (sram + 136) ∧
    outsideOf (elementOf (form 0 2 4 0 8) (idle (wideElement 2)) (ldtLane (wideElement 2))) = true ∧
    oddPair (idle (wideElement 1)) 0 2 = false ∧ oddPair (idle (wideElement 1)) 0 6 = false ∧
    located (locate (idle (wideElement 1)) 0 0 (sram + 136) 8 8 needR []) = true ∧
    located (locate (idle (wideElement 1)) 0 0 (sram + 136) 8 8 needW []) = true ∧
    located (locate (idle (element 15)) 0 0 (sram + 143) 1 1 needR []) = true ∧
    located (locate (idle (element 15)) 0 0 (sram + 143) 1 1 needW []) = true := by
  decide +kernel

/-- AtomicIssue: an `ATOM`, an `ACAS` and a `RED` of a DRAM word that pass their checks. -/
theorem witness_AtomicIssue :
    lonely [(setRegs ranged [(6, 0)], 0xB0, form 0 2 4 6 8), (ranged, 0xB1, form 0 2 4 6 8), (setRegs ranged [(6, 0)], 0xB2, form 0 0 4 6 8)] = true ∧
    (lane ranged 0xB1 (form 0 2 4 6 8)).a.toNat = 4096 ∧
    located (atomLocate (idle ranged) 0 4096 4 needRW) = true ∧ located (atomLocate (idle ranged) 0 4096 4 needW) = true ∧
    countersFree [ranged, setRegs ranged [(6, 0)]] = true ∧ redUnderWay ranged 64 = none := by
  decide +kernel

/-- The pieces of a copy from 8192 to 4096. -/
def copyDst (n : Nat) : List (Nat × Nat) := (rangeXlats (idle ranged) 0 4096 n).map fun p => (p.2.pa, p.1)
def copySrc (a n : Nat) : List (Nat × Nat) := (rangeXlats (idle ranged) 0 a n).map fun p => (p.2.pa, p.1)

/-- The pieces that a range's checks give meet no copy of the thread's own. -/
def clearOf (s : State) (x : Checked) : Bool := match x with | .ok ps _ _ => !ownCopyMeets s 0 ps | .trap _ | .hold _ => false

/-- CopyIssue: no bytes, a misaligned count, a copy to record and an eager one, whose ranges meet. -/
theorem witness_CopyIssue :
    lonely [(setRegs ranged [(8, 0)], 0x98, form 0 0 4 6 8), (setRegs ranged [(8, 20)], 0x98, form 0 0 4 6 8), (ranged, 0x98, form 0 0 4 6 8),
      (ranged, 0x99, form 0 1 4 6 8), (ranged, 0x9A, form 0 0 4 6 8), (setRegs ranged [(6, 4112), (8, 128)], 0x98, form 0 0 4 6 8)] = true ∧
    (copyAlign 0 4096 8192 20).isSome = true ∧ (copyAlign 0 4096 8192 256).isNone = true ∧
    (lbcAlign (idle ranged) 0 0 4096 8192 256).isNone = true ∧
    countersFree [ranged, setRegs ranged [(8, 20)], setRegs ranged [(6, 4112), (8, 128)]] = true ∧
    ownCopyMeets (idle ranged) 0 (copyDst 256 ++ copySrc 8192 256) = false ∧
    ownCopyMeets (idle ranged) 0 (copyDst 128 ++ copySrc 4112 128) = false ∧
    clearOf (idle ranged) (copyChecks (idle ranged) 0 0 4096 8192 256) = true ∧
    clearOf (idle ranged) (copyChecks (idle ranged) 0 0 4096 4112 128) = true ∧
    copyEager 0x98 0 (copyDst 256) (copySrc 8192 256) [0, 0] = false ∧ copyEager 0x98 0 (copyDst 128) (copySrc 4112 128) [0, 0] = true ∧
    copyEager 0x9A 0 (copyDst 256) (copySrc 8192 256) [0, 0] = true := by
  decide +kernel

/-- RangeIssue: each range instruction's checks pass, and its two misalignments. -/
theorem witness_RangeIssue :
    lonely [(ranged, 0x9B, form 0 0 4 0 8), (ranged, 0x9C, form 0 2 4 0 8), (ranged, 0xA0, form 0 0 4 0 8), (ranged, 0xA1, form 0 0 4 0 8),
      (setRegs ranged [(4, 4100)], 0xA0, form 0 0 4 0 8), (setRegs ranged [(8, 100)], 0xA0, form 0 0 4 0 8)] = true ∧
    rangeLimit 4096 256 = none ∧ countersFree [ranged, setRegs ranged [(4, 4100)], setRegs ranged [(8, 100)]] = true ∧
    clearOf (idle ranged) (phyCheck 4096 (checkWrite (idle ranged) 0 4096 256 false)) = true ∧
    checked (phyCheck 4096 (checkPages (idle ranged) 0 4096 256 needNone false)) = true ∧
    clearOf (idle ranged) (phyCheck 4096 (checkPages (idle ranged) 0 4096 256 needNone true)) = true ∧
    clearOf (idle ranged) (phyCheck 4096 (checkPages (idle ranged) 0 4096 256 needW true)) = true ∧
    4100 % 256 ≠ 0 ∧ 100 % 256 ≠ 0 := by
  decide +kernel

/-- Pinned windows of 64 KiB, one per 16 MiB from 16 MiB up; one window of m MiB. -/
def windows (n : Nat) : List PinWindow := (List.range n).map fun i => ⟨(i + 1) * 2 ^ 24, 65536, [], 255, false⟩
def bigWindow (m : Nat) : List PinWindow := [⟨2 ^ 30, m * 2 ^ 20, [], 255, false⟩]

/-- `PIN` of 64 KiB at 2^20 under windows already pinned; the second context's windows too. -/
def pinning (l k : List PinWindow) : State :=
  { setRegs tiny [(4, 2 ^ 20), (5, 0), (8, 65536)] with contexts := [{ plainContext with windows := l }, { plainContext with windows := k }] }

/-- Bytes of windows. -/
def windowBytes (l : List PinWindow) : Nat := (l.map (·.len)).sum

/-- WindowResults: each of `PIN`'s codes at the edge of its rule, and the success next to it; a window pinned before, a full
counter, and both misalignments; `UNPIN` and `TOUCH`. -/
theorem witness_WindowResults :
    lonely [(pinning (windows 16) [], 0x9D, form 0 2 4 0 8), (pinning (windows 15) [], 0x9D, form 0 2 4 0 8),
      (pinning (bigWindow 256) [], 0x9D, form 0 2 4 0 8), (pinning (bigWindow 255) (bigWindow 257), 0x9D, form 0 2 4 0 8),
      (pinning [⟨2 ^ 20 - 65536, 131072, [], 255, false⟩] [], 0x9D, form 0 2 4 0 8), (pinning [] [], 0x9D, form 0 2 4 0 8),
      (pinning [⟨2 ^ 20, 65536, [], 3, false⟩] [], 0x9D, form 0 2 4 0 8), (counterAt .ld 63 (pinning [] []), 0x9D, form 0 2 4 0 8),
      (setRegs (pinning [] []) [(4, 2 ^ 20 + 4096)], 0x9D, form 0 2 4 0 8), (setRegs (pinning [] []) [(8, 0)], 0x9D, form 0 2 4 0 8),
      (pinning [] [], 0x9E, form 0 0 4 0 0), (pinning [] [], 0x9F, form 0 0 4 0 0)] = true ∧
    countersFree [pinning (windows 16) [], pinning (windows 15) [], pinning (bigWindow 256) [], pinning (bigWindow 255) (bigWindow 257),
      pinning [⟨2 ^ 20 - 65536, 131072, [], 255, false⟩] [], pinning [] [], pinning [⟨2 ^ 20, 65536, [], 3, false⟩] [],
      setRegs (pinning [] []) [(4, 2 ^ 20 + 4096)], setRegs (pinning [] []) [(8, 0)]] = true ∧
    16 ≤ (windows 16).length ∧ (windows 15).length < 16 ∧ windowBytes (windows 15) + 65536 ≤ 256 * 2 ^ 20 ∧
    256 * 2 ^ 20 < windowBytes (bigWindow 256) + 65536 ∧
    windowBytes (bigWindow 255) + 65536 ≤ 256 * 2 ^ 20 ∧ 512 * 2 ^ 20 < windowBytes (bigWindow 255) + windowBytes (bigWindow 257) + 65536 := by
  decide +kernel

/-- Memory that lists bytes, and the route table at 65536 whose node 0 is reached through port 0. -/
def routed (s : State) (l : Memory) : State := { s with mem := l ++ [(65536, 1#8)], node := some 0, routeTable := 65536 }

/-- The team's queue 1 holds n entries. -/
def queued (s : State) (n : Nat) : State :=
  withTeam s fun t => { t with queues := t.queues.set 1 ⟨List.replicate n ⟨7, 0, 0, 0⟩, 0⟩ }

/-- QueueResults: a full queue and one entry less; a node that a port reaches and one none reaches; an entry and none to pop. -/
theorem witness_QueueResults :
    lonely [(queued tiny 256, 0xB3, form 0 1 4 6 8), (queued tiny 255, 0xB3, form 0 1 4 6 8), (queued tiny 1, 0xB4, form 0 0 1 0 0),
      (tiny, 0xB4, form 1 0 1 0 0), (tiny, 0xB4, form 0 0 1 0 0), (routed (setRegs (queued tiny 255) [(6, 0)]) [], 0xB3, form 0 1 4 6 8),
      (fullOf .ld, 0xB4, form 0 0 1 0 0), (fullOf .st, 0xB3, form 0 1 4 6 8)] = true ∧
    countersFree [queued tiny 256, queued tiny 255, queued tiny 1, tiny, routed (setRegs (queued tiny 255) [(6, 0)]) []] = true ∧
    (queueAt (queued tiny 256) 0 1).entries.length = 256 ∧ (queueAt (queued tiny 255) 0 1).entries.length = 255 ∧
    (queueAt tiny 0 1).entries = [] ∧ reachable (routed tiny []) 0 = true ∧ reachable tiny 6 = false := by
  decide +kernel

/-- ConditionResults: a condition that holds, one that does not, in a plain page, with no monitor in use. -/
theorem witness_ConditionResults :
    lonely [(setRegs ranged [(6, 0), (8, 0)], 0xB5, form 0 2 4 6 8), (setRegs ranged [(6, 0)], 0xB5, form 0 2 4 6 8)] = true ∧
    hasAccess ranged 0 = false ∧ located (atomLocate (idle ranged) 0 4096 4 needRW) = true ∧
    (readBytesNow (cacheRange (idle ranged) 0 4096 4) 4096 4 (some 0) 0).2.1 = [0, 0, 0, 0] ∧ sliceMonitors ranged 64 < 1024 ∧
    compares 0 0 0 = true ∧ compares 0 0 256 = false := by
  decide +kernel

/-- A descriptor of 4 bytes to node 0 at 4096; the same with no length. -/
def described : State := routed ranged [(4100, 4#8)]

/-- What an instruction reads at issue. -/
def readOf (x : IssueRead) : Option (List Byte) := match x with | .ok _ bs _ => some bs | .trap _ | .hold _ => none

/-- RemoteResults: a bad descriptor; a good one to a node that a port reaches, and to one that none reaches. -/
theorem witness_RemoteResults :
    lonely [(ranged, 0xB7, form 0 0 4 0 0), (described, 0xB7, form 0 0 4 0 0), (described, 0xB8, form 0 0 4 0 0), (described, 0xB6, form 0 0 4 0 0)] = true ∧
    countersFree [ranged, described] = true ∧
    ((readOf (readAtIssue (idle ranged) 0 0 4096 64 64)).bind (lodeBad 0)) = some 0 ∧
    ((readOf (readAtIssue (idle described) 0 0 4096 64 64)).any fun bs => [0, 1, 2].all fun k => (lodeBad k bs).isNone) = true ∧
    ([0, 1, 2].all fun k => checked (lodeLocal (idle described) 0 k 0 4)) = true ∧
    reachable described 0 = true ∧ reachable ranged 0 = false := by
  decide +kernel

/-- The team, or the cluster, has an episode of a thread that waits. -/
def meeting (pc : DWord) (n : Nat) (l : List Nat) : State :=
  withTeam tiny fun t => { t with episode := some ⟨pc, 8, n, l⟩ }
def gathering (pc : DWord) (n : Nat) (l : List Nat) : State :=
  { tiny with clusters := tiny.clusters.map fun c => { c with episode := some ⟨pc, 8, n, l⟩ } }

/-- BarrierResults: no episode; one at the PC with the number; one with another number; all arrived, and one missing. -/
theorem witness_BarrierResults :
    lonely [(tiny, 0xC0, form 0 0 3 0 0), (meeting oneIssue.pc 3 [], 0xC0, form 0 0 3 0 0), (meeting oneIssue.pc 4 [], 0xC0, form 0 0 3 0 0),
      (tiny, 0xC1, form 0 0 3 0 0), (gathering oneIssue.pc 3 [], 0xC1, form 0 0 3 0 0), (gathering oneIssue.pc 4 [], 0xC1, form 0 0 3 0 0)] = true ∧
    hasAccess tiny 0 = false ∧ tiny.teams.map (·.episode) = [none] ∧ tiny.clusters.map (fun k => (k.episode, k.teams)) = [(none, [0])] ∧
    teamThreads tiny 0 = [0] ∧ (meeting oneIssue.pc 3 [0]).teams.map (fun t => t.episode.map (·.waiting)) = [some [0]] ∧
    threadExited tiny 0 = false := by
  decide +kernel

/-- The team has a scratchpad of a page, in its frame. -/
def padded : State :=
  modCore (withTeam (withLaunch (setRegs tiny [(4, 64), (5, 0), (6, 1), (8, 2)]) fun l => { l with spad := 4096 }) fun t =>
    { t with spad := 4096, spadBase := 2 ^ 20 }) 0 0 fun c => { c with
      frames := [⟨0, 0, List.replicate 64 0, List.replicate 64 (0, 0), [], false, 0⟩] }

/-- An access lies in a scratchpad. -/
def inSpad (x : Located) : Option (Nat × Nat) := match x with | .ok (.spad p n) _ _ => some (p.off, n) | .ok _ _ _ | .trap _ | .hold _ => none

/-- ArrivalIssue: an object's initialisation at the largest counts, an arrival, a wait that is over and one that is not. -/
theorem witness_ArrivalIssue :
    lonely [(setRegs padded [(6, 32767), (8, 2 ^ 31 - 1)], 0xC2, form 0 0 4 6 8), (padded, 0xC3, form 0 2 4 6 0),
      (setRegs padded [(6, 2 ^ 32 - 1)], 0xC4, form 0 0 4 6 0), (setRegs padded [(6, 0)], 0xC4, form 0 0 4 6 0)] = true ∧
    inSpad (locate (idle padded) 0 1 64 16 16 needW []) = some (64, 16) ∧
    inSpad (locate (idle padded) 0 1 64 16 16 needRW []) = some (64, 16) ∧
    inSpad (locate (idle padded) 0 1 64 16 16 needR []) = some (64, 16) ∧
    countersFree [padded, setRegs padded [(6, 32767), (8, 2 ^ 31 - 1)]] = true ∧ hasAccess padded 0 = false ∧
    spadReady (spadFill (idle padded) ⟨0, 64⟩ 16) ⟨0, 64⟩ 16 = true ∧
    (spadRead (spadFill (idle padded) ⟨0, 64⟩ 16) ⟨0, 64⟩ 16 0).2.1.take 4 = [0, 0, 0, 0] := by
  decide +kernel

/-- A store of the thread is outstanding. -/
def storing : State := { tiny with accs := [{ issued tiny 0 .store (.phys [(4096, 4)]) 4 4096 noXlat [] with bytes := [1, 2, 3, 4], ctr := .st }] }

/-- The convergence register 2 has a count of 1 and a signature. -/
def converging : State := withTeam tiny fun t => { t with
  convs := t.convs.set 2 ⟨some 2, [⟨9, 0xD4, form 0 2 0 0 0, 0, false, 0, 0, [], none⟩]⟩ }

/-- FenceResults: nothing outstanding and a store outstanding; thresholds met and not met; counts 1 and 2 of one thread's team. -/
theorem witness_FenceResults :
    lonely [(tiny, 0xC5, form 0 0 0 0 0), (storing, 0xC5, form 0 0 0 0 0), (tiny, 0xC6, form 1 0 0 0 0), (storing, 0xC6, form 0 0 0 0 0),
      (tiny, 0xC7, form 0 0 0 0 0), (withThread tiny fun th => { th with st := 1 }, 0xC7, form 0 0x3FF 0 0x3FF 0x3FF),
      (setRegs tiny [(4, 1)], 0xC8, form 0 2 4 0 0), (setRegs tiny [(4, 2)], 0xC8, form 0 2 4 0 0), (setRegs tiny [(4, 0)], 0xC8, form 0 2 4 0 0),
      (setRegs converging [(4, 1)], 0xC8, form 0 2 4 0 0)] = true ∧
    outstanding tiny (coreMates tiny 0) = ([], []) ∧ outstanding storing (coreMates storing 0) = ([0], []) ∧ outstanding storing [0] = ([0], []) ∧
    (teamThreads tiny 0).length = 1 ∧ (tiny.teams.map fun t => (t.convs[2]?).map (·.sigs.length)) = [some 0] ∧
    (converging.teams.map fun t => (t.convs[2]?).map fun c => (c.count, c.sigs.length)) = [some (some 2, 1)] := by
  decide +kernel

/-- Core 0's accumulator 0 is claimed by a team, and its state. -/
def tiled (claim : Option Nat) (st : TileState) : State := modCore tiny 0 0 fun c => { c with
  accs := c.accs.set 0 { accFree with claim := claim, state := st } }

/-- Core 0's queue 1 is claimed by the team and holds n entries. -/
def queuedMeta (n : Nat) : State := modCore sramed 0 0 fun c => { c with mqs := c.mqs.set 1 ⟨some 0, List.replicate n []⟩ }

/-- TileClaimResults: a free entry, the team's own and another's; one in use; a queue with room and one without. -/
theorem witness_TileClaimResults :
    lonely [(tiny, 0xD0, form 0 2 0x40 0 0), (tiled (some 0) .empty, 0xD0, form 0 2 0x40 0 0), (tiled (some 1) .empty, 0xD0, form 0 2 0x40 0 0),
      (tiled (some 1) .empty, 0xD0, form 1 2 0x40 0 0), (tiled (some 1) .empty, 0xD1, form 0 0 0x40 0 0), (tiled (some 0) .ready, 0xD1, form 0 0 0x40 0 0),
      (tiled (some 0) .filling, 0xD1, form 0 0 0x40 0 0), (tiny, 0xD8, form 0 2 0x40 0 0), (tiled (some 0) .ready, 0xD9, form 1 0 0x40 0 0),
      (tiled (some 0) .filling, 0xD9, form 0 0 0x40 0 0), (sramed, 0xDA, form 0 1 4 0 0), (queuedMeta 63, 0xDA, form 0 1 4 0 0),
      (queuedMeta 64, 0xDA, form 0 1 4 0 0), (sramed, 0xDB, form 0 1 0 0 0), (queuedMeta 63, 0xDB, form 0 1 0 0 0)] = true ∧
    coreOf tiny 0 = (0, 0) ∧ tileClaim (coreAt tiny 0 0) 0x40 = none ∧ tileClaim (coreAt (tiled (some 1) .empty) 0 0) 0x40 = some 1 ∧
    tileBusy (coreAt (tiled (some 0) .ready) 0 0) 0x40 = false ∧ opsName (coreAt (tiled (some 0) .ready) 0 0) 0x40 = false ∧
    tileBusy (coreAt (tiled (some 0) .filling) 0 0) 0x40 = true ∧ queueRoom (queuedMeta 63) 0 0 1 = 1 ∧ queueRoom (queuedMeta 64) 0 0 1 = 0 ∧
    tileClaim (coreAt sramed 0 0) 0x51 = none ∧ tileClaim (coreAt (queuedMeta 63) 0 0) 0x51 = some 0 ∧
    countersFree [queuedMeta 63] = true ∧ located (locate (idle (queuedMeta 63)) 0 0 (sram + 192) 512 64 needR []) = true := by
  decide +kernel

/-- The thread's twin in the next lane, which does not issue. -/
def paired : State := { tiny with threads := [oneThread, { oneThread with lane := 1 }] }

/-- Convergence register 2 counts to n. -/
def counting (s : State) (n : Nat) (l : List Signature) : State := withTeam s fun t => { t with convs := t.convs.set 2 ⟨some n, l⟩ }

/-- The thread's own signature of `TZERO c2, a0`. -/
def ownSignature : Signature := ⟨0, 0xD4, form 0 2 0 0 0, 0, false, oneIssue.pc, 0, oneThread.xs, none⟩

/-- The thread has signed, and nothing is pending. -/
def signedState : State :=
  withThread (withTeam (idle (tiled (some 0) .ready)) fun t => { t with convs := t.convs.set 2 ⟨some 1, []⟩ }) fun th =>
    { counted .tl th with wait := .signed 2 }

/-- SigningResults: a signature short of its count by one; the last one, whose operation passes its checks; no count; a second one. -/
theorem witness_SigningResults :
    lonely [(counting paired 2 [], 0xD4, form 0 2 0 0 0), (counting (tiled (some 0) .ready) 1 [], 0xD4, form 0 2 0 0 0),
      (tiny, 0xD4, form 0 2 0 0 0), (counting tiny 2 [ownSignature], 0xD4, form 0 2 0 0 0)] = true ∧
    unsigned (counting paired 2 []) 0 ⟨some 2, [ownSignature]⟩ = 1 ∧
    (lane (counting (tiled (some 0) .ready) 1 []) 0xD4 (form 0 2 0 0 0)).xs = oneThread.xs ∧
    firstDiffer [ownSignature] ownSignature = none ∧
    (opCheck signedState (coreAt (tiled (some 0) .ready) 0 0) (buildOp signedState [ownSignature] ownSignature) ownSignature).isOk = true ∧
    anyPending tiny 0 [] [] = false ∧ (tiny.teams.map fun t => (t.convs[2]?).map (·.count)) = [some none] ∧
    lonely [(counting paired 2 [], 0xD4, form 1 2 0 0 0)] = true ∧ (form 1 2 0 0 0).mod.getLsbD 0 = true ∧
    countersFree [counting paired 2 [], counting (tiled (some 0) .ready) 1 [], tiny, counting tiny 2 [ownSignature]] = true ∧
    heldSigners (counting paired 2 []) 0 2 = [] ∧ hasAccess paired 0 = false := by
  decide +kernel

/-- An operation that the thread signed stands in the queue and has not issued; its signers hold. -/
def heldOp : State := modCore (counting tiny 1 []) 0 0 fun c => { c with
  ops := [{ buildOp signedState [ownSignature] ownSignature with held := true }] }

/-- SigningResults, FenceResults: a second signature, and another count, while the operation stands in the queue. -/
theorem witness_SigningResults_held :
    lonely [(heldOp, 0xD4, form 0 2 0 0 0), (setRegs heldOp [(4, 1)], 0xC8, form 0 2 4 0 0)] = true ∧
    heldSigners heldOp 0 2 = [0] ∧ countersFree [heldOp] = true ∧
    (heldOp.teams.map fun t => (t.convs[2]?).map fun c => (c.count, c.sigs.length)) = [some (some 1, 0)] := by
  decide +kernel

/-- Memory that holds bytes from an address on. -/
def bytesAt (a : Nat) (bs : List Byte) : Memory := memWriteN [] a bs

/-- IdentifierResults: an image of the row, one with a field no rule allows, one not valid; and a place to store an image. -/
theorem witness_IdentifierResults :
    lonely [({ ranged with mem := bytesAt 4096 (tensorImage (some rowTensor)) }, 0xE2, form 0 8 4 0 0),
      ({ ranged with mem := bytesAt 4096 [0, 0, 0, 0, 0, 0, 0, 0x80] }, 0xE2, form 0 8 4 0 0), (ranged, 0xE2, form 0 8 4 0 0),
      (ranged, 0xE3, form 0 8 4 0 0)] = true ∧
    ((readOf (readAtIssue (idle { ranged with mem := bytesAt 4096 (tensorImage (some rowTensor)) }) 0 0 4096 128 64)).any fun bs =>
      decide (imgBits bs 0 63 63 = 1) && (badField bs).isNone && decide (tensorOfImage bs = rowTensor)) = true ∧
    ((readOf (readAtIssue (idle { ranged with mem := bytesAt 4096 [0, 0, 0, 0, 0, 0, 0, 0x80] }) 0 0 4096 128 64)).any fun bs =>
      decide (imgBits bs 0 63 63 = 1) && (badField bs).isSome) = true ∧
    ((readOf (readAtIssue (idle ranged) 0 0 4096 128 64)).any fun bs => decide (imgBits bs 0 63 63 = 0)) = true ∧
    countersFree [ranged] = true ∧
    located (locate (idle ranged) 0 0 4096 128 64 needW (storesWhole (fun w => (storePlace (idle ranged) 0 0 4096 128 64 w).toList)
      (touchedSectors (idle ranged) 0 0 4096 128))) = true := by
  decide +kernel

/-- CommandResults: a function that is not listed, a descriptor with a wrong field, and one that passes (`fd_close`). -/
theorem witness_CommandResults :
    lonely [(ranged, 0xE0, form 0 0 4 0x07F 8), (ranged, 0xE0, form 0 0 4 0x082 8), (ranged, 0xE1, form 0 2 4 0x082 8)] = true ∧
    countersFree [ranged] = true ∧ listedFn 0 0x7F = false ∧ listedFn 1 2 = true ∧
    ((readOf (readAtIssue (idle { ranged with mem := [(4111, 1#8)] }) 0 0 4096 64 64)).bind fun bs => descBad 1 2 bs 0) = some 8 ∧
    ((readOf (readAtIssue (idle ranged) 0 0 4096 64 64)).any fun bs => (descBad 1 2 bs 0).isNone && (descIds 1 2 bs).isEmpty
      && (commandClaim 1 2 bs).isNone) = true ∧
    tensorsBad 1 2 [] = none := by
  decide +kernel

/-- SystemRegisters: reads and writes of every register. -/
theorem witness_SystemRegisters :
    (([0x000, 0x001, 0x002, 0x003, 0x004, 0x005, 0x006, 0x007, 0x008, 0x009, 0x00A, 0x00B, 0x00C, 0x00D, 0x010] : List Nat).all fun n =>
      aloneB tiny 0xF0 (fun _ => sigOf 0xF0 (form 0 2 n 0 0)) (form 0 2 n 0 0)) = true ∧
    (([0x000, 0x001, 0x002, 0x003, 0x004, 0x005, 0x006, 0x007, 0x008, 0x009, 0x00A, 0x00B] : List Nat).all fun n =>
      aloneB tiny 0xF1 (fun _ => sigOf 0xF1 (form 0 n 4 0 0)) (form 0 n 4 0 0)) = true ∧
    (contextOf tiny 0).isSome = true ∧ (groupOf tiny 0).isSome = true ∧ (teamOf tiny 0).isSome = true := by
  decide +kernel

/-- v4:v5 is a block in the SRAM. -/
def blocked : State := setRegs tiny [(4, 8192), (5, 0xE0)]

/-- A part store or load succeeds. -/
def stores (x : Except UnitStop State) : Bool := match x with | .ok s => (s.threads[0]?).isSome | .error _ => false

/-- ContextResults: a counter that is not zero, and the thread part stored; a restore with no team part yet, and one after it. -/
theorem witness_ContextResults :
    lonely [(storing, 0xF3, form 1 0 4 0 0), (withThread blocked fun th => { th with st := 1 }, 0xF3, form 1 0 4 0 0), (blocked, 0xF3, form 1 0 4 0 0), (blocked, 0xF4, form 1 0 4 0 0),
      (withTeam blocked fun t => { t with partRestored := true }, 0xF4, form 1 0 4 0 0)] = true ∧
    stores (partStore (idle blocked) 0 (sram + 8192) 0 (threadPart (idle blocked) 0 (oneIssue.pc + 8))) = true ∧
    (partLoad (idle blocked) 0 (sram + 8192) 0 256).isOk = true ∧ savedBlock (phaseOf blocked 0) = none ∧
    (blocked.teams.map (·.partRestored)) = [false] ∧ hasAccess storing 0 = true ∧ storing.threads.map (·.st) = [0] ∧
    hasAccess blocked 0 = false := by
  decide +kernel

/-- A window of 4 registers with a backing store in the SRAM. -/
def stacked : State :=
  withGroup (withLaunch tiny fun l => { l with window := 4, bspos := 16, bsdepth := 16 }) fun g => { g with privBase := sram + 4096, privSize := 65536 }

/-- SupervisorResults: every frame written back, frames read back, the ends of routines, and code discarded. -/
theorem witness_SupervisorResults :
    lonely [(stacked, 0xF5, form 0 0 0 0 0), (withThread stacked fun th => { th with resident := 1 }, 0xF6, form 0 0 0x3A1 0 0),
      (tiny, 0xF9, form 0 0 0 0 0), (withThread tiny fun th => { th with routine := .restore }, 0xF9, form 0 0 0 0 0),
      (setRegs ranged [(4, 4100)], 0xF7, form 0 0 4 0 8), (setRegs ranged [(8, 100)], 0xF7, form 0 0 4 0 8), (ranged, 0xF7, form 0 0 4 0 8),
      (tiny, 0xF8, form 0 0 4 0 0)] = true ∧
    (spillFrames 0 [0] (idle stacked)).2.isNone = true ∧ anyPending stacked 0 [0, 1, 2, 3] [] = false ∧
    (fillLimit (idle (withThread stacked fun th => { th with resident := 1 })) 0 { oneThread with resident := 1 } 0).isNone = true ∧
    stores (fillDown 0 2 0 (idle (withThread stacked fun th => { th with resident := 1 }))) = true ∧
    unattachedB tiny = true ∧ oneThread.routine = .bringUp ∧ phaseOf tiny 0 = .resident ∧ leavesAgain tiny 0 = false ∧
    hasAccess stacked 0 = false := by
  decide +kernel

/-- A context of translated addresses: 32 GiB at 0, with its trap record at 3 × 2^16. -/
def mapped : State :=
  { withContext (opened tiny) { plainContext with bringUp := false, sys := true, root := 0x10000, traprec := 0x30000, trapvec := 0x40000 } with
    mem := [(0x10000, 1#8), (0x10002, 2#8), (0x20000, 0x1F#8)] }

/-- ClockResults: clocks and counters, one of no such code, a sleep, and a halt in bring-up mode and in a context. -/
theorem witness_ClockResults :
    lonely [(tiny, 0xFA, form 0 2 0 0 0), (setRegs tiny [(4, 0), (6, 11)], 0xFB, form 0 2 4 6 0), (setRegs tiny [(4, 0xFFFF)], 0xFB, form 0 2 4 6 0),
      (tiny, 0xFC, form 0 0 4 0 0), (tiny, 0xFE, form 0 0 4 0 0), (mapped, 0xFE, form 0 0 4 0 0)] = true ∧
    (perfCount tiny 0 0 11).isSome = true ∧ perfCount tiny 0 0xFFFF 6 = none ∧ (tiny.homes[11]?).isSome = true ∧
    oneThread.exited = false ∧ (contextOf tiny 0).map (·.bringUp) = some true ∧ (contextOf mapped 0).map (·.bringUp) = some false ∧
    (sendRecord (idle mapped) 0 (trapReq oneIssue 0xFE (form 0 0 4 0 0) 0 ⟨18, 4, 0, 0⟩) [0] true matches .sent _ _) = true := by
  decide +kernel

/-! Events of the package's agents. -/

/-- The thread waits in some way. -/
def waiting (w : Wait) : State := withThread (idle tiny) fun th => { th with wait := w }

/-- The threads that miss the block at the PC of the first. -/
def missing (s : State) : List Seen :=
  (seenThreads s).filter fun x => decide ((x.die, x.site, x.part) = (0, 0, 0)) && x.bytes.isNone && !x.start

/-- A thread at an address. -/
def fetching (s : State) (pc : Nat) : State := withThread (idle s) fun th => { th with pc := BitVec.ofNat 64 pc }

/-- The thread has stood in the PC hash table, or in its overflow list, for 2,048 clk. -/
def waitingLong : State :=
  { modCore (idle tiny) 0 0 fun c => { c with pcs := [⟨0, 0, BitVec.ofNat 64 sram, [0]⟩] } with clk := 2048 }
def overflowing : State := { modCore (idle tiny) 0 0 fun c => { c with overflow := [(0, 0)] } with clk := 2048 }

/-- FetchEvents: a block that comes, one whose page is absent, one that no address reaches; a promotion at its first clk out of
either list; a buffer for a waiting `LOOP`. -/
theorem witness_FetchEvents :
    ([fetching tiny sram, fetching mapped (2 ^ 40), fetching mapped (2 ^ 57)].all fun s => (oldestSeen (missing s)).isSome) = true ∧
    (codeBlock (fetching tiny sram) 0 0 0 sram).isSome = true ∧
    (codeBlock (fetching mapped (2 ^ 40)) 0 0 0 (2 ^ 40)).isNone = true ∧ translate (fetching mapped (2 ^ 40)) 0 (2 ^ 40) = .pagef ∧
    (codeBlock (fetching mapped (2 ^ 57)) 0 0 0 (2 ^ 57)).isNone = true ∧ translate (fetching mapped (2 ^ 57)) 0 (2 ^ 57) ≠ .pagef ∧
    (coreAt waitingLong 0 0).pcs.map (·.threads) = [[0]] ∧ waitingLong.clk = 2048 ∧ waitingLong.threads.map (fun th => (th.age, th.promoted)) =
      [(0, false)] ∧ (coreAt overflowing 0 0).overflow = [(0, 0)] ∧ overflowing.clk = 2048 ∧
    (loopWaiter (waiting (.loopBuffer 64 128)) 0 0 0).map (·.1) = some 0 ∧
    (takeLoop (waiting (.loopBuffer 64 128)) 0 0 0 0 0 64 128).isSome = true := by
  decide +kernel

/-- A write-combining entry of line 0, since clk 0. -/
def combining : State := { tiny with homes := tiny.homes.modify 0 fun h => { h with wc := [⟨0, 1, 0, none, 0, 0⟩] } }

/-- TimeEvents: each wait at its end and one clk before; a ptime at its limit; a fade period's end; an entry at its wait; a page to refill. -/
theorem witness_TimeEvents :
    ((waiting (.woken 3)).threads.map (·.wait)) = [.woken 3] ∧ ((waiting (.poll 1)).threads.map (·.wait)) = [.poll 1] ∧
    ((waiting (.poll 2)).threads.map (·.wait)) = [.poll 2] ∧ ((waiting (.sleep 1)).threads.map (·.wait)) = [.sleep 1] ∧
    ((waiting (.sleep 2)).threads.map (·.wait)) = [.sleep 2] ∧ (waiting (.poll 1)).clk = 1 ∧
    (∃ th ∈ (withThread tiny fun th => { th with ptime := 2 ^ 47 }).threads, 2 ^ 47 ≤ th.ptime) ∧ tiny.ptimeReported = false ∧
    plainContext.live = true ∧ plainContext.fadeper ≠ 0 ∧ plainContext.fadeClk + 700 * plainContext.fadeper.toNat ≤ 700000 ∧
    ((combining.homes[0]?).any fun h => h.wc.any fun w => decide (w.line = 0 ∧ w.since + w.wait ≤ combining.clk)) = true ∧
    frameAt padded 0 1 = none ∧ (coreAt padded 0 0).frames.length < 128 ∧
    (regionAt padded 0 8192 matches .ok _) = true ∧ (padded.teams.map fun t => t.touched.contains 1) = [false] := by
  decide +kernel

/-- Die 0's L2 holds sector 0 in a state. -/
def holding (st : L2State) : State :=
  { tiny with dies := tiny.dies.modify 0 fun d => { d with l2 := [⟨0, st, 0, 1, 2, 3, [], [], 0, false, none⟩] } }

/-- DieMessages: a copy in each state and none; a sharer's and an owner's answer; a line the die holds for what arrives. -/
theorem witness_DieMessages :
    ([L2State.m, .o, .p, .s, .e].all fun st => ((l2At (holding st) 0 0).map (·.st)) = some st) = true ∧ (l2At tiny 0 0).isNone = true ∧
    ([L2State.m, .o, .p, .s, .e].all fun st => (holding st).cores.isEmpty) = true ∧
    ((holding .s).dies[0]?).any (fun d => d.l2.any fun y => decide (y.sec / 4 = 1 / 4)) = true ∧ (l2At (holding .s) 0 1).isNone = true := by
  decide +kernel

/-- The directory has sector 0 in a state, with holders and an owner or tag; the sector may be busy. -/
def directed (st : Nat) (hs : List Nat) (aux : Nat) (busy : List Busy) : State :=
  { tiny with homes := tiny.homes.modify 0 fun h => { h with
      dir := [⟨0, [if hs = [] then dirIdle else dirOf st hs aux, dirIdle, dirIdle, dirIdle], 0⟩], busy := busy } }

/-- A sector busy with a request that awaits dies. -/
def busyWith (k : Nat) (await : List Nat) : Busy := ⟨0, ⟨k, 0, 0⟩, await, false, false, false, [], 0, 0, [], none⟩

/-- Every entry of the directory set of line 0 has a busy sector. -/
def crowded : State :=
  { tiny with homes := tiny.homes.modify 0 fun h => { h with
      dir := (List.range 8).map fun i => ⟨16 * (i + 1), [dirIdle, dirIdle, dirIdle, dirIdle], 0⟩
      busy := (List.range 8).map fun i => { busyWith 1 [1] with sec := 64 * (i + 1) } } }

/-- HomeRequests: a full directory set; a busy sector; an idle one, watched or not; every state of the directory; sharers with and without another. -/
theorem witness_HomeRequests :
    (busyOf (directed 1 [0, 1] 0 [busyWith 2 [1]]) 0).isSome = true ∧
    (directed 0 [] 0 []).homes.length = 12 ∧ homeOf 0 = 0 ∧ ((directed 0 [] 0 []).homes[0]?).any (fun h => h.dir.any fun e => decide (e.line = 0)) = true ∧
    (dirSec (directed 0 [] 0 []) 0).st = 0 ∧ monitored (directed 0 [] 0 []) 0 = false ∧
    monitored { directed 0 [] 0 [] with dies := tiny.dies.modify 0 fun d => { d with monitors := [⟨0, 0, 0, 0, 0, 0⟩] } } 0 = true ∧
    ([1, 2, 3, 4, 5].all fun st => decide ((dirSec (directed st [0, 1] 0 []) 0).st = st)) = true ∧
    holdersOf (dirSec (directed 1 [0, 1] 0 []) 0).holders = [0, 1] ∧ holdersOf (dirSec (directed 1 [0] 0 []) 0).holders = [0] ∧
    (dirSec (directed 5 [0] 3 []) 0).aux.toNat = 3 ∧ (busyOf crowded 0).isNone = true ∧ dirVictim crowded 0 = .full ∧
    ((directed 0 [] 0 []).homes.all fun h => h.dirWait.isEmpty) = true := by
  decide +kernel

/-- HomeReplies: an acknowledgement before the last one, the last one of an upgrade, one nobody awaits; an owner's write-back in each
of its states; a drop by a sharer and by none. -/
theorem witness_HomeReplies :
    (busyOf (directed 1 [0, 1, 2] 0 [busyWith 2 [1, 2]]) 0).map (·.awaited) = some [1, 2] ∧
    (busyOf (directed 1 [0, 1] 0 [busyWith 2 [1]]) 0).map (fun b => (b.sec, b.awaited, b.req.kind, b.queue)) = some (0, [1], 2, []) ∧
    (dirSec (directed 1 [0, 1] 0 [busyWith 2 [1]]) 0).st ≠ 5 ∧ (busyOf (directed 1 [0, 1] 0 []) 0).isNone = true ∧
    ([2, 3, 4].all fun st => decide ((dirSec (directed st [0, 1] 1 []) 0).st = st ∧ ((dirSec (directed st [0, 1] 1 []) 0).aux.extractLsb' 0 2).toNat = 1)) = true ∧
    (dirSec (directed 0 [] 0 []) 0).st ≠ 1 ∧ (dirSec (directed 0 [] 0 []) 0).st ≠ 2 := by
  decide +kernel

/-- An access of the thread, with the number n. -/
def access (n : Nat) (k : AccKind) (p : Place) : Access :=
  { issued tiny 0 k p 4 4096 noXlat [] with id := n, bytes := [1, 2, 3, 4], cmp := 1, dest := .vec 2 1 2 1, ctr := .ld }

/-- The accesses outstanding in an idle machine. -/
def under (s : State) (l : List Access) : State := { idle s with accs := l }

/-- Oldest, checked; an access that begins no `RED` message. -/
def notBegun (b : Access) : Bool := match b.kind with | .red _ _ true => false | _ => true
def oldestB (s : State) (a : Access) (rest : List Access) : Bool :=
  decide (s.accs = a :: rest) && (rest.all fun b => b.id ≠ a.id) && decide (a.owners = [a.tid]) && a.node.isNone &&
    ((s.threads[a.tid]?).any fun th => !th.exited) && (s.threads.all fun u => match u.wait with | .fence _ _ => false | _ => true) &&
    (s.engines.all fun e => e.engine ≠ 8) && (s.homes.all fun h => h.locks.isEmpty) && rest.all notBegun

theorem oldest_of {s : State} {a : Access} {rest : List Access} (h : oldestB s a rest = true) : ∃ th, Oldest s a rest th := by
  simp only [oldestB, Bool.and_eq_true, decide_eq_true_eq, List.all_eq_true, Option.isNone_iff_eq_none, Option.any_eq_true] at h
  obtain ⟨⟨⟨⟨⟨⟨⟨⟨h1, h2⟩, h3⟩, h4⟩, th, h5, h6⟩, h7⟩, h8⟩, h9⟩, h10⟩ := h
  refine ⟨th, h1, fun b hb => h2 b hb, h3, h4, h5, by simpa using h6, fun u hu p q e => ?_, fun e he => h8 e he,
    fun k hk => by simpa using h9 k hk, fun b hb tag steps e => ?_⟩
  · have := h7 u hu
    rw [e] at this
    simp at this
  · have := h10 b hb
    rw [notBegun, e] at this
    simp at this

/-- Die 0's L2 holds sector 64 in a state, under tag 3; its core's L1 does, leased at clk 1. -/
def cached (st : L2State) : State :=
  { ranged with dies := tiny.dies.modify 0 fun d => { d with l2 := [⟨64, st, 0, 1, 2, 3, List.replicate 16 none, List.replicate 16 false, 0, false, none⟩] } }
def leased : State := modCore ranged 0 0 fun c => { c with l1 := [⟨64, 0, 1, 2, 1, false, false, false, 0, none⟩] }

/-- A word of sector 64, and the sector. -/
def word : Place := .phys [(4096, 4)]
def sector : Place := .phys [(4096, 64)]

/-- A `.STALE` load of a word, with the copies held when it issued and what its turn has brought. -/
def staleWord (copies : List (Nat × List Sector)) (peeked : List (Nat × Sector)) : Access :=
  { access 0 (.load false true false) word with copies := copies, peeked := peeked }

/-- A `RED` message has begun, and another waits. -/
def begun : State := under (cached .p) [access 0 (.red 4 [(0, 1, 5)] true) sector, access 1 (.red 3 [(0, 0, 5)] false) sector]

/-- AccessPerformed: an access behind another; a leased load, one from the scratchpad and one that misses; a store to an owned line and
one that misses; atomics; a `RED` on a partial and one that misses; an owner to peek at. -/
theorem witness_AccessPerformed :
    (under ranged [access 0 .store word, access 1 .store word]).accs = [] ++ access 0 .store word :: [] ++ access 1 .store word :: [] ∧
    oldestB (under leased [access 0 (.load false false false) word]) (access 0 (.load false false false) word) [] = true ∧
    ((l1At (coreAt leased 0 0) 64).any fun l => !l.own && decide (oneThread.ptime ≤ l.rts ∧ leased.clk - l.granted < 128 * leaseOf leased 0)) = true ∧
    oneSector (access 0 (.load false false false) word) 4096 4 ∧
    oldestB (under padded [{ access 0 (.load false false false) (.spad ⟨0, 64⟩ 4) with dest := .uni 0 1 1 }])
      { access 0 (.load false false false) (.spad ⟨0, 64⟩ 4) with dest := .uni 0 1 1 } [] = true ∧ spadReady padded ⟨0, 64⟩ 4 = true ∧
    (l1At (coreAt ranged 0 0) 64).isNone = true ∧ (l2At ranged 0 64).isNone = true ∧ requested (under ranged [access 0 .store word]) 0 64 = false ∧
    l2CanAsk (under ranged [access 0 .store word]) 0 16 = true ∧
    oldestB (under (cached .e) [access 0 .store word]) (access 0 .store word) [] = true ∧ ((l2At (cached .e) 0 64).map (·.st)) = some .e ∧
    (cached .e).cores.isEmpty = true ∧ (∀ h ∈ (cached .e).homes, h.aliases = [] ∧ h.watches = []) ∧
    oldestB (under ranged [access 0 (.atom 0 0) word]) (access 0 (.atom 0 0) word) [] = true ∧
    (readBytesNow (under ranged [access 0 (.acas 4) word]) 4096 4 (some 0) 0).2.1 = [0, 0, 0, 0] ∧
    oldestB (under (cached .p) [access 0 (.red 3 [(0, 0, 5)] false) sector]) (access 0 (.red 3 [(0, 0, 5)] false) sector) [] = true ∧
    monitored (cached .p) 64 = false ∧ ((l2At (cached .p) 0 64).map fun x => (x.st, x.tag)) = some (.p, 3) ∧
    oldestB (under ranged [access 0 (.red 3 [(0, 0, 5)] false) sector]) (access 0 (.red 3 [(0, 0, 5)] false) sector) [] = true ∧
    oldestB (under (cached .m) [access 0 (.load false true false) word]) (access 0 (.load false true false) word) [] = true ∧
    oldestB (under (cached .m) [staleWord [(64, [0, 1])] []]) (staleWord [(64, [0, 1])] []) [] = true ∧
    oldestB (under (cached .m) [staleWord [] [(64, 2)]]) (staleWord [] [(64, 2)]) [] = true ∧
    queuedLoad (under (cached .m) [access 0 (.load false true false) word]) 64 0 = false ∧
    begun.accs.find? (fun x => x.id = 1) = some (access 1 (.red 3 [(0, 0, 5)] false) sector) ∧
    access 0 (.red 4 [(0, 1, 5)] true) sector ∈ begun.accs := by
  refine ⟨by decide +kernel, by decide +kernel, by decide +kernel, ⟨rfl, by decide, by decide, by decide, rfl, rfl⟩, by decide +kernel⟩

theorem witness_AccessPerformed_order : anEvent (access 0 .store word) ∧ anEvent (access 1 .store word) := by
  simp [anEvent, access, issued, word]

/-- A copy of 256 bytes from 8192 to 4096 waits to be recorded. -/
def copying : Access := { access 0 (.copy 0 1 256 [false] [0]) (.phys [(4096, 256), (8192, 256)]) with ctr := .cp }

/-- Home tables changed. -/
def withHomes (s : State) (f : Home → Home) : State := { s with homes := s.homes.map f }

/-- An alias entry of one grain from block 512 to block 256, and many of it. -/
def grain : AliasEntry := ⟨0, 0, 0, 0, 0, 512, 256, 1, false, 0⟩
def fullTables : State := { ranged with homes := ranged.homes.modify (homeOf 8192) fun h => { h with watches := List.replicate 32768 ⟨0, 0, 1⟩ } }

/-- An eager copy of 256 bytes under its locks, or waiting for them. -/
def eager (locked : Bool) : EngineOp :=
  { plainOp ranged 0 8 0 with id := 5, locked := locked, dsts := [(4096, 256)], srcs := [(8192, 256, false)], ranges := [(4096, 4351)], ctr := .cp }

/-- A lock on the destination. -/
def locked : State := withHomes ranged fun h => { h with locks := [⟨9, 4096, 4351, none⟩] }

/-- CopyEvents: a copy recorded; one whose home drains; one that meets a lock; locks granted and refused; an eager copy under its locks. -/
theorem witness_CopyEvents :
    oldestB (under ranged [copying]) copying [] = true ∧ (∀ h ∈ ranged.homes, h.locks = []) ∧
    (copyPieces 0 (256 / 16 + 3) (joinRuns [(4096, 256, false)]) (joinRuns [(8192, 256, false)])).isSome = true ∧
    ((copyPieces 0 (256 / 16 + 3) (joinRuns [(4096, 256, false)]) (joinRuns [(8192, 256, false)])).any fun p =>
      let clean (s : State) : State := (pieceSectors [(8192, 256)]).foldl (fun s sec => cleanSource s 0 sec) s
      let c := composeAll [(4096, 256)] (clean (under ranged [copying])) p
      let d := composeAll [(4096, 256)] (clean (under (withHomes ranged fun h => { h with draining := true }) [copying])) p
      (reedOver c.1 c.2).isNone && (reedFull c.1 c.2).isNone && (reedOver d.1 d.2).isSome) = true ∧
    lockHit (under locked [copying]) [(4096, 256), (8192, 256)] ≠ [] ∧
    ({ ranged with engines := [eager false] }.engines.find? fun x => x.id = 5) = some (eager false) ∧ (eager false).ranges.length ≤ 256 ∧
    lockHit { locked with engines := [eager false] } [(4096, 256)] ≠ [] ∧ (eager true).locked = true ∧ (eager true).xf = 0 ∧ ranged.accs = [] ∧
    (currentBytes ranged 8192 256).length % 16 = 0 ∧ fallbackLock (under locked [copying]) (some 0) = none ∧
    (eager false).engine = 8 ∧ (eager false).node = none ∧ (access 0 .store word).id < (eager false).id ∧ (access 0 .store word).owners = [0] := by
  decide +kernel

/-- The home of block 256 holds the entry; its line is in the home's Peat cache. -/
def aliased : State := { ranged with homes := ranged.homes.modify (homeOf 4096) fun h => { h with aliases := [grain] } }
def peated : State := { ranged with homes := ranged.homes.modify (homeOf 4096) fun h => { h with peat := [⟨16, 0, 1, 16, 0, none, false, 0, []⟩] } }

/-- A home whose table stands one entry above the level that draining stops at. -/
def draining : State :=
  { ranged with homes := ranged.homes.modify (homeOf 4096) fun h => { h with
      aliases := grain :: List.replicate 24576 { grain with wts := 1 }, draining := true } }

/-- ReedEvents: a line in its Peat cache; an entry of one grain, whose block is read or not; a table at the level and one above it. -/
theorem witness_ReedEvents :
    ((peated.homes[homeOf 4096]?).any fun h => h.wc.isEmpty && h.peat.any fun p => decide (p.line = 64 / 4)) = true ∧
    (∀ c ∈ peated.contexts, c.windows = []) ∧ ((aliased.homes[homeOf 4096]?).map (·.aliases)) = some [grain] ∧
    (grain.len = 1 ∧ grain.xf0 = 0 ∧ grain.xf1 = 0 ∧ grain.lbc = false ∧ grain.low = 0) ∧ homeOf (grain.dst * 16) = homeOf 4096 ∧
    entryReads grain 256 1 = false ∧ ((draining.homes[homeOf 4096]?).any fun h => h.draining && !h.drainWatch && decide (24576 < h.aliases.length)
      && decide (grain ∈ h.aliases) && h.aliases.all fun x => decide (x ≠ grain → grain.wts < x.wts)) = true ∧
    ((aliased.homes[homeOf 4096]?).any fun h => decide (h.aliases.length ≤ 24576 ∧ h.watches.length ≤ 24576)) = true := by
  decide +kernel

/-- CopyEvents: a copy whose source home has no room for a watch entry. -/
theorem witness_CopyEvents_full :
    ((copyPieces 0 (256 / 16 + 3) (joinRuns [(4096, 256, false)]) (joinRuns [(8192, 256, false)])).any fun p =>
      let c := composeAll [(4096, 256)] ((pieceSectors [(8192, 256)]).foldl (fun s sec => cleanSource s 0 sec) (under fullTables [copying])) p
      (reedOver c.1 c.2).isNone && (reedFull c.1 c.2).isSome) = true := by
  decide +kernel

/-- A signature of the thread. -/
def signer : Signature := ⟨0, 0xD4, form 0 0 0 0 0, 0, false, BitVec.ofNat 64 sram, 0, [], none⟩

/-- A tile operation of the team. -/
def tileOf (n : Nat) (opc : BitVec 8) (f : Form) : TileOp where
  id := n
  team := 0
  ctx := 0
  opc := opc
  form := f
  cval := 0
  tensor := if opc = 0xD2 then some rowTensor else none
  signers := [signer]
  held := false
  rm := 0
  started := false
  ts := 0
  pages := []
  todo := []
  secs := []
  writes := []
  dropped := false
  popped := []
  bankErrors := []
  rowErrors := []

/-- Core 0 with tile operations in its queue. -/
def working (l : List TileOp) : State := modCore ranged 0 0 fun c => { c with
  ops := l
  accs := c.accs.map fun t => { t with claim := some 0 }
  slots := c.slots.map fun t => { t with claim := some 0 } }

/-- A `TLD` that has the sector of block 4096 to read. -/
def reading : TileOp := { tileOf 1 0xD2 (form 0 0 0 0 0) with started := true, todo := [64] }

/-- A started operation. -/
def started (opc : BitVec 8) : TileOp := { tileOf 1 opc (form 0 0 0 1 2) with started := true }

/-- What completes an operation: its signer lives in its team. -/
def signedFor (s : State) (o : TileOp) : Bool :=
  o.signers.all fun g => (s.threads[g.tid]?).any (fun th => !th.exited) && !teamGone s o.team && decide (g.tid ∈ teamThreads s o.team)

/-- TileOperations: a tile to zero and a slot to load, an operation behind one on its target, a sector read free and locked, and the
completions of `TMOVZ` and of `TMMA`. -/
theorem witness_TileOperations :
    ([tileOf 1 0xD4 (form 0 0 15 0 0), tileOf 1 0xD2 (form 0 0 63 0 0)].all fun o => decide ((coreAt (working [o]) 0 0).ops = [o] ∧ o.started = false)) = true ∧
    ((coreAt (working [tileOf 1 0xD4 (form 0 0 15 0 0)]) 0 0).accs[15]?).any (fun t => decide (t.claim = some 0)) = true ∧
    ((coreAt (working []) 0 0).slots[63]?).any (fun t => decide (t.claim = some 0)) = true ∧
    (coreAt (working [tileOf 1 0xD4 (form 0 0 0 0 0), tileOf 2 0xD4 (form 0 0 0 0 0)]) 0 0).ops = [tileOf 1 0xD4 (form 0 0 0 0 0), tileOf 2 0xD4 (form 0 0 0 0 0)] ∧
    opTarget (tileOf 1 0xD4 (form 0 0 0 0 0)) = opTarget (tileOf 2 0xD4 (form 0 0 0 0 0)) ∧
    opXlat reading 4096 = (4096, 0, false) ∧ lockHit (working [reading]) [(4096, 64)] = [] ∧
    lockHit { working [reading] with homes := locked.homes } [(4096, 64)] ≠ [] ∧
    ([0xD4, 0xD5].all fun k => decide ((coreAt (working [started k]) 0 0).ops = [started k]) && signedFor (working [started k]) (started k)) = true ∧
    ((coreAt (working [started 0xD5]) 0 0).accs[0]?).any (fun t => decide (t.claim = some 0)) = true ∧
    (opMember reading).bind (fun t => fallbackLock (working [reading]) (some t)) = none ∧
    ([1, 2].all fun n => ((coreAt (working [started 0xD5]) 0 0).slots[n]?).any fun x => decide (x.banks = 0) && !x.poisoned) = true ∧
    (tileOp (working [tileOf 1 0xD4 (form 0 0 0 0 0)]) 0 0 1).isSome = true := by
  decide +kernel

/-- The thread of the machine above waits for the spill unit. -/
def unitFor (w : Wait) (r : Nat) : State := withThread (idle stacked) fun th => { th with wait := w, resident := r }

/-- The same with no page mapped, and without a backing store. -/
def unpaged (w : Wait) (r : Nat) : State :=
  withContext (unitFor w r) { plainContext with bringUp := false, root := 0x10000 }
def unstacked : State := withLaunch (unitFor (.spill 4096) 0) fun l => { l with bspos := 0, bsdepth := 0 }

/-- The same behind a lock of the thread's own eager copy. -/
def unitLocked (w : Wait) (r : Nat) : State :=
  withHomes (unitFor w r) fun h => { h with locks := [⟨9, sram, sram + 2 ^ 20, some 0⟩] }
def unitStops (x : Option UnitStop) : Nat := match x with | none => 0 | some (.trap _) => 1 | some (.hold _) => 2
def loadStops (x : Except UnitStop State) : Nat := match x with | .ok _ => 0 | .error (.trap _) => 1 | .error (.hold _) => 2

/-- WindowUnit: a spill and a fill that succeed, ones past the backing store, ones behind an own lock; accesses outstanding; a frame
with a loop. -/
theorem witness_WindowUnit :
    ((unitFor (.spill 4096) 0).threads[0]?).any (fun th => windowReady (unitFor (.spill 4096) 0) 0 th
      && decide (spillDepths (unitFor (.spill 4096) 0) 0 4096 th = [0])) = true ∧
    (spillFrames 0 [0] (unitFor (.spill 4096) 0)).2.isNone = true ∧ unitStops (spillFrames 0 [0] unstacked).2 = 1 ∧
    unitStops (spillFrames 0 [0] (unitLocked (.spill 4096) 0)).2 = 2 ∧ loadStops (fillDown 0 2 0 (unitLocked (.fill 0) 1)) = 2 ∧
    loadStops (fillDown 0 2 0 (unpaged (.fill 0) 1)) = 1 ∧
    ((unitLocked (.spill 4096) 0).threads[0]?).any (fun th => windowReady (unitLocked (.spill 4096) 0) 0 th) = true ∧
    ((unpaged (.fill 0) 1).threads[0]?).any (fun th => windowReady (unpaged (.fill 0) 1) 0 th) = true ∧
    ((spillFrames 0 [0] unstacked).1.threads[0]?).isSome = true ∧
    ((unitFor (.fill 0) 1).threads[0]?).any (fun th => windowReady (unitFor (.fill 0) 1) 0 th) = true ∧
    stores (fillDown 0 2 0 (unitFor (.fill 0) 1)) = true ∧
    ((under (unitFor (.spill 4096) 0) [access 0 .store word]).threads[0]?).any
      (fun th => !windowReady (under (unitFor (.spill 4096) 0) [access 0 .store word]) 0 th) = true ∧
    (⟨64, 1023, some ⟨4, 64, 5, 0⟩⟩ : Frame).slide < 1024 := by
  decide +kernel

/-- An engine's operation of the thread, under its locks, with a descriptor. -/
def engineOf (eng fn : Nat) (desc : List Byte) (ts : List (Nat × Tensor)) : EngineOp :=
  { plainOp ranged 0 eng fn with id := 5, locked := true, desc := desc, tensors := ts }

/-- The machine that works on it. -/
def engaged (e : EngineOp) : State := { idle ranged with engines := [e] }

/-- An operation is worked on, checked. -/
def worksB (s : State) (e : EngineOp) (eng fn : Nat) : Bool :=
  decide (s.engines.find? (fun x => x.id = e.id) = some e ∧ e.engine = eng ∧ e.fn = fn ∧ e.locked = true ∧ e.status = none ∧
    s.power = 0 ∧ e.todo = [] ∧ e.pushes = [])

theorem works_of {s : State} {e : EngineOp} {eng fn : Nat} (h : worksB s e eng fn = true) : Working s e eng fn := by
  simp only [worksB, decide_eq_true_eq] at h
  exact h

/-- A descriptor whose byte at an offset is given. -/
def descAt (off : Nat) (bs : List Byte) : List Byte := List.replicate off 0 ++ bs

/-- The row in another format. -/
def bfRow : Tensor := { rowTensor with fmt := 0x03 }

/-- Sessions 0 to n - 1 of decoder 0. -/
def sessions (n : Nat) : List Session := (List.range n).map fun i => ⟨0, i, 0, 0, 0, [], false⟩

/-- EngineWork: each function with its tensors; a session to open, none left and the last one; a session and none; buffers one byte
short and just long enough; a register below 5 and 5. -/
theorem witness_EngineWork :
    ([engineOf 0 0 [] [(8, rowTensor), (9, rowTensor)], engineOf 0 0 [] [(8, bfRow), (9, rowTensor)], engineOf 0 1 [] [(8, rowTensor)],
      engineOf 0 2 [] [(8, rowTensor), (9, rowTensor), (10, rowTensor)], engineOf 0 3 [] [(8, rowTensor), (9, rowTensor)], engineOf 0 4 [] [],
      engineOf 1 0 [] [], engineOf 1 1 [] [], engineOf 1 2 [] [], engineOf 2 0 [] [], engineOf 2 1 [] [], engineOf 2 2 [] []].all fun e =>
        worksB (engaged e) e e.engine e.fn) = true ∧
    bodyWord (engineOf 0 0 [] []) 0x10 / 2 ^ 16 % 8 ≠ 6 ∧
    (engineOf 0 2 [] []).stage = 0 ∧ ({ engineOf 0 2 [] [] with stage := 1 } : EngineOp).stage ≠ 0 ∧
    ((List.range 64).all fun k => (sessions 64).any fun x => decide (x.decoder = 0 ∧ x.num = k)) = true ∧
    ((sessions 63).all fun x => decide (x.num ≠ 63)) = true ∧ (engaged (engineOf 1 1 [] [])).sessions = [] ∧
    (sessionOf { engaged (engineOf 1 1 [] []) with sessions := sessions 1 } 0 0 0).isSome = true ∧
    bodyWord (engineOf 2 1 (descAt 0x20 [0xDF, 0x78]) []) 0x20 = 30943 ∧ bodyWord (engineOf 2 1 (descAt 0x20 [0xE0, 0x78]) []) 0x20 = 30944 ∧
    bodyWord (engineOf 2 2 (descAt 0x20 [4]) []) 0x20 % 16 = 4 ∧ bodyWord (engineOf 2 2 (descAt 0x20 [5]) []) 0x20 % 16 = 5 := by
  decide +kernel

/-- An operation whose work is done. -/
def ended (st : Nat) : EngineOp := { engineOf 0 1 [] [] with status := some st, swrites := [(64, 1, ~~~ 0#64)] }

/-- An operation's status stands in the scratchpad, and another resident team has all 128 frames of the core. -/
def frameless : State :=
  let s := withTeam (engaged { ended 0 with descSpad := some ⟨0, 64⟩ }) fun t => { t with spad := 4096, spadBase := 2 ^ 20 }
  modCore { s with teams := s.teams ++ [plainTeam 0 0 []] } 0 0 fun c => { c with
    frames := (List.range 128).map fun i => ⟨1, i, [], [], [], true, 0⟩ }

/-- EngineCompletion: an operation whose status' frame has no room; an operation not in order; one that ends with status 0 or 1; one that still works. -/
theorem witness_EngineCompletion :
    (engaged (eager false)).engines.find? (fun x => x.id = 5) = some (eager false) ∧ engineReady (engaged (eager false)) (eager false) = false ∧
    ([0, 1].all fun st => decide ((engaged (ended st)).engines.find? (fun x => x.id = 5) = some (ended st) ∧ (ended st).status = some st ∧
      (ended st).engine ≤ 2 ∧ (ended st).fn ≠ 16 ∧ (ended st).node = none ∧ (ended st).slot = none ∧ descWord (ended st).desc 0 / 2 ^ 16 % 2 = 0)) = true ∧
    ((ended 0).swrites.all fun p => (writeMark (engaged (ended 0)) 0 p.1 (destKey (ended 0) p.1) (decide (p.2.2 = ~~~ 0#64))).isNone) = true ∧
    (engineOf 0 1 [] []).status = none ∧ frameWaits (engaged (ended 0)) (ended 0) = false ∧
    frameWaits frameless { ended 0 with descSpad := some ⟨0, 64⟩ } = true := by
  decide +kernel

/-- The machine with a scratchpad arena. -/
def roomy : State := withContext tiny { plainContext with spsize := 2 ^ 20 }

/-- The machine's grid with ticket ranges. -/
def ticketed (l : List (Nat × Nat)) : State := { roomy with grids := tiny.grids.map fun g => { g with tickets := l } }

/-- The machine's grid with clusters handed out to dies. -/
def pushedTo (l : List (Nat × Nat)) : State := { roomy with grids := tiny.grids.map fun g => { g with pushed := l } }

/-- No context admits. -/
def heldBack (s : State) : State := { s with contexts := s.contexts.map fun k => { k with held := true } }

/-- A die's range of tickets. -/
def ranges : List (Nat × Nat) := [(0, 0), (0, 2), (2, 2), (2, 10)]

/-- TicketEvents: a die with a ticket, one that steals from the fullest range, one that takes none; batches and clusters handed out. -/
theorem witness_TicketEvents :
    ((canTake (ticketed ranges) 1 0).any fun o => (admitCluster (ticketed ranges) 0 0 1 o).isSome) = true ∧
    ((ticketed ranges).grids.map (·.tickets)) = [ranges] ∧ (canTake (ticketed ranges) 0 0).isSome = true ∧
    canTake (heldBack (ticketed ranges)) 0 0 = none ∧
    ([1, 2].all fun j => decide (ticketsLeft ((ticketed ranges).grids.headD ⟨plainLaunch 0 0, 0, none, [], 0, [], (0, 0), [], none, none, false⟩) j < 8)) = true ∧
    (tiny.grids.all fun g => admits tiny g && g.bringDie.isNone && g.pushed.isEmpty && g.returned.isEmpty) = true ∧
    ((pushedTo [(1, 0)]).grids.map (·.pushed)) = [[(1, 0)]] ∧
    ((canTake (pushedTo [(1, 0)]) 1 0).any fun o => (admitCluster (pushedTo [(1, 0)]) 0 0 1 o).isSome) = true ∧
    canTake (heldBack (pushedTo [(1, 0)])) 1 0 = none := by
  decide +kernel

/-- The machine's thread has exited; its grid has n teams left and serves a node or none. -/
def finished (n : Nat) (node : Option (Nat × Nat)) : State :=
  { withThread (idle tiny) (fun th => { th with exited := true }) with
    grids := tiny.grids.map fun g => { g with remaining := n, node := node } }

/-- A team that has watched sector 64 for 4096 clk while another grid finds no room. -/
def starved : State :=
  { withTeam (withThread (idle tiny) fun th => { th with wait := .monitor 64 }) (fun t => { t with waitcSince := some 0 }) with
    clk := 4096
    contexts := [{ plainContext with nblk := 1, blksz := 65536, savebase := 2 ^ 20 }]
    grids := tiny.grids ++ [⟨{ plainLaunch 0 0 with width := 9 }, 0, none, [(0, 1)], 1, [], (0, 0), [], none, none, false⟩] }

/-- A saved team, on a package whose die 0 has no core. -/
def saved : State :=
  { withTeam (idle tiny) (fun t => { t with phase := .saved 0 }) with dies := tiny.dies.modify 0 fun d => { d with sitemap := 0 } }

/-- The same with a dirty frame on die 0 whose slot does not translate. -/
def stranded : State := modCore (withContext (withTeam saved fun t => { t with spad := 4096, spadBase := 2 ^ 20 })
  { plainContext with bringUp := false, root := 0x10000 }) 0 0 fun c => { c with frames := [⟨0, 0, [], [], [], true, 0⟩] }

/-- TeamEvents: a team that ends, not the last and the last of a node's grid; one that goes on; one to swap out and one not; one to
restore on die 1, and one that waits for a sector. -/
theorem witness_TeamEvents :
    (liveThreads (finished 2 none) 0 = [] ∧ teamQuiet (finished 2 none) 0 = true ∧ phaseOf (finished 2 none) 0 = .resident) ∧
    ((finished 2 none).grids.map fun g => (g.node, g.remaining)) = [(none, 2)] ∧
    ((finished 1 (some (0, 0))).grids.map fun g => (g.node, g.remaining)) = [(some (0, 0), 1)] ∧ liveThreads tiny 0 = [0] ∧
    swappable starved 0 = true ∧ clusterMates starved 0 = [0] ∧ swappable tiny 0 = false ∧
    framesMayLeave saved 0 1 0 = true ∧ framesMayLeave stranded 0 1 0 = false ∧
    (saved.grids.all (admits saved)) = true ∧ (stranded.grids.all (admits stranded)) = true ∧
    (stranded.grids.all fun g => (chooseRect stranded g.ctx 0 g.launch false).isNone) = true ∧
    (stranded.grids.all fun g => (chooseRect stranded g.ctx 1 g.launch false).any fun o => (placeAt stranded g.ctx 1 g.launch o).any fun l => decide (l.length = 1)) = true ∧ (saved.clusters.map (·.teams)) = [[0]] ∧ (saved.teams.map fun t => (t.phase, t.wakeSecs, t.rank)) = [(.saved 0, [], 0)] ∧
    (saved.grids.all fun g => (chooseRect saved g.ctx 0 g.launch false).isNone) = true ∧
    (saved.grids.all fun g => (chooseRect saved g.ctx 1 g.launch false).any fun o => (placeAt saved g.ctx 1 g.launch o).any fun l => decide (l.length = 1)) = true ∧
    ((withTeam saved fun t => { t with wakeSecs := [64] }).teams.map fun t => (t.wakeSecs, decide (t.phase = .complete))) = [([64], false)] := by
  decide +kernel

/-- Words by offset as bytes. -/
def wordsAt (n : Nat) (l : List (Nat × Nat)) : List Byte := (List.range n).flatMap fun i => bytesOf 8 ((lookupNat l (8 * i)).getD 0)

/-- A node without ranges and without a fallback, and one that reads block 4096 and writes block 8192. -/
def bare (kind : Nat) : List Byte := wordsAt 16 [(0, kind), (0x18, 0xFFFFFFFF)]
def between (fallback : Nat) : List Byte :=
  wordsAt 16 [(0, 3), (0x18, fallback), (0x20, 4096), (0x28, 2 ^ 62 + 64), (0x30, 8192), (0x38, 2 ^ 63 + 64)]

/-- A node in a state. -/
def nodeIn (st : NodeState) (record : List Byte) (succ : List Nat) (preds : Nat) : GNode :=
  { freshNode record (List.replicate 64 0) succ 0 0 with state := st, preds := preds }

/-- A machine with a fired graph. -/
def graphed (l : List GNode) : State := { idle ranged with graphs := [⟨0, 64, l, 0x2000, 0x3000, none, false⟩], pushMode := false }

/-- One output of one product without multiplication and activation: bfloat16 to binary32. -/
def nearBlock : List Byte := wordsAt 32 [(0, 1 + 3 * 2 ^ 48), (0x10, 4096), (0x18, 3), (0x70, 8192), (0x78, 0)]

/-- The work of a node. -/
def workOf (eng fn : Nat) (desc : List Byte) : EngineOp :=
  { plainOp ranged 0 eng fn with id := 5, locked := true, desc := desc, node := some (0, 0, 0), snap := [(64, 0)] }

/-- A near-memory node at work; a decode node at work, its session open. -/
def computing (record : List Byte) : State :=
  { graphed [nodeIn .running record [] 0] with engines := [workOf 3 0 nearBlock] }
def decoding : State :=
  { graphed [nodeIn .running (bare 2) [] 0] with engines := [workOf 1 16 (wordsAt 16 [(0, 1), (0x18, 4096)])], sessions := sessions 1 }

/-- The thread waits for entry 3 of its context's fault queue. -/
def queuing : State :=
  { withContext (waiting (.fault 3)) { plainContext with fqn := 16, fqHead := 3, fqTail := 5 } with homes := ranged.homes }

/-- The reads of a decode unit succeed, checked. -/
def decodes (s : State) (e : EngineOp) : Bool :=
  match readSectors (touchedBlocks 64 [(4096, 16)]) s e with
  | .ok (s1, e1) =>
    (match readSectors (touchedBlocks 64 [(bitsOfBytes (snapBytes e1 4096 8), bitsOfBytes (snapBytes e1 4104 8))]) s1 e1 with
    | .ok (s2, e2) => (s2.sessions.any fun y => decide (y.decoder = e.unit ∧ y.num = e.reply)) && decide (e2.unit = e.unit ∧ e2.reply = e.reply)
    | .error _ => false)
  | .error _ => false

/-- GraphEvents: the two instructions; a compute node and a signal node that start, and a node that does not; a node with a successor, a last
one and one that does not run; failures; a command in its ranges and one outside; aborts with and without a fallback; a unit; a head. -/
theorem witness_GraphEvents :
    lonely [(tiny, 0xE4, form 0 2 4 0 0), (tiny, 0xE5, form 0 2 4 6 0)] = true ∧ countersFree [tiny] = true ∧
    isCpyt (nodeIn .running (bare 4) [1] 0) = false ∧
    ([0, 4].all fun k => decide (firstStart (graphed [nodeIn .ready (bare k) [] 0]) = some (0, 0) ∧ nodeRanges (bare k) = [] ∧
      (nodeIn .ready (bare k) [] 0).kind = k)) = true ∧
    (∀ h ∈ (graphed []).homes, h.locks.length ≤ 256) ∧ firstStart (graphed [nodeIn .running (bare 0) [] 0]) = none ∧
    nodeOp (graphed [nodeIn .running (bare 4) [1] 0, nodeIn .waiting (bare 4) [] 1]) 0 0 3 = none ∧
    (nodeIn .running (bare 4) [1] 0).lockOp = none ∧ (graphed []).engines = [] ∧ nodeFbonly (bare 4) = false ∧
    nodeOpen (nodeIn .done (bare 4) [] 0) = false ∧ nodeOpen (nodeIn .waiting (bare 4) [] 1) = true ∧
    1 ∉ reachOf ([nodeIn .running (bare 4) [] 0, nodeIn .waiting (bare 4) [] 1].map (·.succ)) 0 ∧
    ([bare 3, between 0xFFFFFFFF, between 1].all fun r => (nodeOp (computing r) 0 0 3).any fun e => e.status.isNone &&
      (nodeAt (computing r) 0 0).any fun x => !commandOver e x 0 && decide (0 < ((nearParam e.desc).n + 255) / 256)) = true ∧
    (nearOutputs (workOf 3 0 nearBlock) (bare 3) 1 0).isOk = false ∧ (nearOutputs (workOf 3 0 nearBlock) (between 1) 1 0).isOk = true ∧
    nodeFallback (between 0xFFFFFFFF) = 0xFFFFFFFF ∧ nodeFallback (between 1) = 1 ∧
    ((nodeOp decoding 0 0 1).any fun e => decide (e.stage = 0) && e.status.isNone && decodes decoding e) = true ∧
    faultThreads { queuing with contexts := queuing.contexts.modify 0 fun x => { x with fqHead := 4 } } 0 3 = [0] ∧
    bitsOfBytes (((virtBytes { queuing with contexts := queuing.contexts.modify 0 fun x => { x with fqHead := 4 } } 0 (256 + 256 * 3) 256).getD []).take 1) ≠ 18 := by
  decide +kernel

/-- A message of node 0 for context 5. -/
def msg : HostHead := ⟨0, 5, 1⟩

/-- The machine hears the host; its contexts have translated addresses. -/
def hosted : State := { withContext (idle mapped) { plainContext with bringUp := false, ctxid := 5, sys := true, root := 0x10000, nblk := 1, blksz := 65536, savebase := 2 ^ 20, lodeok := true } with
  lodeUp := true, mem := mapped.mem, homes := ranged.homes }

/-- No team. -/
def emptied (s : State) : State := { s with threads := [], teams := [], groups := [], clusters := [], grids := [] }

/-- A peer that is no host. -/
def peered : State := { hosted with node := some 0, routeTable := 65536 }

/-- A context descriptor, with context 6 and the fewest save blocks. -/
def descriptor : List Byte := wordsAt 16 [(0, 6), (8, 0x10000), (0x20, 2 ^ 32 + 65536), (0x50, 16)]

/-- A graph of one signal node in memory. -/
def fired : State := { hosted with mem := memWriteN (memWriteN hosted.mem 0x50000
  (wordsAt 8 [(0, 1), (8, 0x50080), (0x18, 0x51000), (0x20, 0x52000)])) 0x50080 (wordsAt 16 [(0, 4), (0x10, 0x50100), (0x18, 0xFFFFFFFF)]) }

/-- All handle slots are live. -/
def handled : State := { hosted with
  contexts := hosted.contexts.map fun k => { k with handles := (List.range 64).map fun i => (i, 0, some 0) }
  graphs := (graphed [nodeIn .running (bare 4) [] 0]).graphs }

/-- HostContexts: ports down, a peer, no such context, and a message heard; descriptors good and bad; a context with and without teams; a
handle slot and none; a graph and none. -/
theorem witness_HostContexts :
    tiny.lodeUp = false ∧ (hosted.lodeUp = true ∧ hostRole hosted 0 = true ∧ hosted.fatal = false) ∧ hostRole peered 0 = false ∧
    ctxWith hosted 5 = some 0 ∧ ctxWith hosted 4 = none ∧
    (∀ sec ∈ pieceSectors [(4096, 128)], readMark hosted 4096 sec 0 = none) ∧ 4096 + 128 ≤ dramEnd ∧ dramEnd < dramEnd - 64 + 128 ∧ dramEnd % 64 = 0 ∧
    descriptorOk hosted descriptor = true ∧ descriptorOk hosted (wordsAt 16 [(0, 5)]) = false ∧
    ctxTeams (emptied hosted) 0 = [] ∧ (∀ x ∈ hosted.homes, x.aliases = []) ∧ hosted.graphs = [] ∧
    ctxTeams hosted 0 = [0] ∧ savedBlock (phaseOf hosted 0) = none ∧ (hosted.contexts.map (·.stopped)) = [false] ∧
    residentClusters (emptied hosted) 0 = [] ∧ residentClusters hosted 0 = [0] ∧
    freeHandle handled 0 = none ∧ freeHandle hosted 0 = some (0, 0) ∧ readGraph hosted 0 0x50000 = none ∧ (readGraph fired 0 0x50000).isSome = true := by
  decide +kernel

/-- No context is live; key slot 7 of every base die is in a state. -/
def keyed (st : Nat) : State := withHomes hosted fun h => { h with keys := [(7, ⟨st, 3, 0⟩)] }

/-- A block of a PHY under test. -/
def testing (k : Nat) : State := { tiny with homes := tiny.homes.modify 2 fun h => { h with phys := [⟨⟨2, 31, 1⟩, [], some (k, 5, 9), true⟩] } }

/-- The team has left. -/
def left : State := withTeam hosted fun t => { t with phase := .complete }

/-- HostPackage: ports down, a peer and a message heard; a slot empty, live and out of range; modes and numbers at their ends; teams that are
complete, saved and at work; a reset without images; a test of each kind and none; registers at their ends. -/
theorem witness_HostPackage :
    tiny.lodeUp = false ∧ (hosted.lodeUp = true ∧ hostRole hosted 0 = true ∧ hosted.fatal = false) ∧ hostRole peered 0 = false ∧
    (keyAt (keyed 0) 0 7).st = 0 ∧ (keyAt (keyed 1) 0 7).st = 1 ∧ (keyAt (keyed 2) 0 7).st ≠ 1 ∧ (keyAt (keyed 2) 0 7).st ≠ 0 ∧ (255 : Nat) < 256 ∧
    (∀ h ∈ (keyed 1).homes, h.aliases = [] ∧ h.watches = []) ∧ (keyed 1).engines = [] ∧ (∀ x ∈ (keyed 1).homes, ∀ m ∈ x.marks, m.key ≠ 7) ∧
    (∀ t ∈ left.teams, t.phase = .complete) ∧ (∃ t ∈ hosted.teams, t.phase ≠ .complete ∧ savedBlock t.phase = none) ∧
    (∃ t ∈ saved.teams, t.phase ≠ .complete ∧ (savedBlock t.phase).isSome = true) ∧
    (∀ d ∈ left.dies, d.l2 = []) ∧ (∀ x ∈ left.homes, x.peat = [] ∧ x.wc = []) ∧
    ((List.range 4).all fun i => match ([] : List FirmwareImage).find? fun x => x.kind = i + 1 with | some _ => true | none => false) = false ∧
    ([0, 1, 2].all fun k => (phyAt (testing k) ⟨2, 31, 1⟩).test = some (k, 5, 9)) = true ∧ (phyAt tiny ⟨2, 31, 1⟩).test = none := by
  decide +kernel

/-- A Lode operation of the thread. -/
def lodeOf (kind : Nat) : LodeOp where
  id := 7
  tid := 0
  team := 0
  ctx := 0
  kind := kind
  node := 0
  local_ := 0
  remote := 0
  flag := 0
  fval := 0
  flagop := 0
  len := 4
  descVa := 4096
  descSpad := none
  aop := 0
  aty := 0
  queue := 1
  wide := false
  engine := if kind = 1 then some 5 else none

/-- The operation is under way. -/
def sent (kind : Nat) : State := { hosted with lodes := [lodeOf kind] }

/-- A remote atomic on a word. -/
def remoteOn (a : Nat) : RemoteAtom := ⟨0, 3, 0, a, 0, 0, 1⟩

/-- Each die's queue of them. -/
def waited (l : List RemoteAtom) : State := { hosted with dies := hosted.dies.map fun d => { d with atomq := l } }

/-- The pieces of an operation that lies whole in memory. -/
def piecesOf (x : Except Nat (List (Nat × Nat) × List (Nat × Nat))) : Option (List (Nat × Nat)) := match x with | .ok p => some p.1 | .error _ => none

/-- LodeEvents: ports down; bytes that land up to a sector's last but one, past the end of memory, through a context; each kind of operation
that ends and none; an atomic that joins, is misaligned, out of range, locked, and served; rates at their ends. -/
theorem witness_LodeEvents :
    tiny.lodeUp = false ∧ hosted.lodeUp = true ∧
    piecesOf (remotePieces hosted 0 0 4096 63 needW) = some [(4096, 63)] ∧ piecesOf (remotePieces hosted 0 5 4096 63 needW) = some [(4096, 63)] ∧
    piecesOf (remotePieces hosted 0 0 dramEnd 4 needW) = none ∧ piecesOf (remotePieces hosted 0 0 dramEnd 4 needR) = none ∧
    piecesOf (remotePieces hosted 0 0 4096 64 needR) = some [(4096, 64)] ∧ piecesOf (remotePieces hosted 0 5 4096 64 needR) = some [(4096, 64)] ∧
    ctxWith hosted 5 = some 0 ∧
    ([0, 1, 2, 3].all fun k => decide ((sent k).lodes.find? (fun x => x.id = 7) = some (lodeOf k) ∧ (lodeOf k).kind = k)) = true ∧
    (lodeOf 1).engine = some 5 ∧ ((sent 3).teams.all fun t => t.queues[1]?.isSome) = true ∧ hosted.lodes = [] ∧
    (hosted.dies[atomDie hosted (remoteOn 4096)]?).any (fun d => decide (d.atomq.head? ≠ some (remoteOn 4096))) = true ∧
    ([4096, 4098, dramEnd].all fun a =>
      ((waited [remoteOn a]).dies[atomDie (waited [remoteOn a]) (remoteOn a)]?).any fun d => decide (d.atomq.head? = some (remoteOn a))) = true ∧
    4098 % tyBytes 0#3 ≠ 0 ∧ dramEnd % tyBytes 0#3 = 0 ∧ piecesOf (remotePieces (waited []) 0 0 dramEnd 4 needRW) = none ∧
    piecesOf (remotePieces (waited []) 0 0 4096 4 needRW) = some [(4096, 4)] ∧ lockHit (waited []) [(4096, 4)] = [] ∧
    lockHit { waited [] with homes := locked.homes } [(4096, 4)] ≠ [] ∧
    ([350, 700].all fun m => decide (350 ≤ m ∧ m ≤ 700 ∧ m % 25 = 0)) = true ∧ ([325, 725, 360].all fun m => decide (¬ (350 ≤ m ∧ m ≤ 700 ∧ m % 25 = 0))) = true := by
  decide +kernel

/-- Contexts that have ended. -/
def dormant (s : State) : State := { s with contexts := s.contexts.map fun k => { k with live := false } }

/-- The home of block 4096 has a channel blocked, or rows remapped. -/
def blockedAt (c : Nat) : State := { ranged with homes := ranged.homes.modify (homeOf 4096) fun h => { h with blocked := [c] } }
def remapped (n : Nat) : State := { ranged with homes := ranged.homes.modify (homeOf 4096) fun h => { h with remaps := List.replicate n ⟨3, 9, 0⟩ } }

/-- An error arrives; the home of block 4096 has its line in its Peat cache, dirty or clean. -/
def erring (e : HwError) (dirty : Bool) : State :=
  { withHomes peated (fun h => { h with peat := h.peat.map fun p => { p with dirty := dirty } }) with errors := [e] }

/-- HealthEvents: errors of each kind; a lost core and a lost die without work; a sector scrubbed and one of a blocked channel; the last spare row and none; a
remap table's error, its end, and the one that no copy mends. -/
theorem witness_HealthEvents :
    tiny.net = [] ∧ (∀ x ∈ (coreAt tiny 1 5).l1, x.own = false) ∧ lostContexts tiny 1 (some 5) = [] ∧ (tiny.dies[1]?).any (fun d => d.l2.isEmpty) = true ∧
    lostContexts (dormant tiny) 1 none = [] ∧ (∀ k ∈ (dormant tiny).contexts, k.live = false) ∧
    taggedSector 64 = true ∧ (ranged.homes[homeOf (64 * 64)]?).any (fun h => h.blocked.isEmpty) = true ∧
    ((blockedAt (channelOf 4096)).homes[homeOf (64 * 64)]?).any (fun h => decide (channelOf (64 * 64) ∈ h.blocked)) = true ∧
    ([1023, 1024].all fun n => ((remapped n).homes[homeOf 4096]?).any fun h => decide ((h.remaps.filter fun r => r.channel = 3).length = n ∧ 3 ∉ h.blocked)) = true ∧
    ((blockedAt 3).homes[homeOf 4096]?).any (fun h => decide (3 ∈ h.blocked)) = true ∧ (∀ a ∈ tiny.accs, inChannel (homeOf 4096) 3 a = false) ∧
    (∀ k ∈ (dormant (blockedAt 3)).contexts, k.live = false) ∧
    peated.clockStopped = false ∧ peated.agenda = [] ∧
    ([true, false].all fun d => ((erring (.peat 64) d).homes[homeOf (64 * 64)]?).any fun h =>
      (h.peat.find? fun p => p.line = 64 / 4).any fun x => decide (x.dirty = d ∧ x.parts = [])) = true ∧
    ((erring (.tile 0 0 3 127) false).errors = [.tile 0 0 3 127] ∧ ((coreAt (erring (.tile 0 0 3 127) false) 0 0).accs[3]?).isSome = true) ∧
    (erring (.register 0 5) false).errors = [.register 0 5] ∧ (erring (.table 3) false).errors = [.table 3] := by
  decide +kernel

theorem witness_HealthEvents_quiet : quiesceAll tiny = tiny ∧ quiesceAll (dormant tiny) = dormant tiny := ⟨rfl, rfl⟩

/-- A record of the group names its thread. -/
def recorded : State := withGroup mapped fun g => { g with record := some ⟨25, 1, 0x30000⟩ }

/-- A record's stores, outstanding. -/
def recordAccess : Access :=
  { issued mapped 0 (.record 26 false) (.phys [(0x30000, 256)]) 256 0x30000 noXlat [] with bytes := List.replicate 256 0 }

/-- TrapEntry: the two instructions in a context whose record can be written; a return in a thread that a record names, and in one that
none names; the checks of an access one by one. -/
theorem witness_TrapEntry :
    lonely [(mapped, 0x0A, form 0 0 4 0 0), (mapped, 0x0B, form 0 0 0 0 0), (recorded, 0xF2, form 0 0 0 0 0), (recorded, 0xF2, form 1 0 0 0 0),
      (mapped, 0xF2, form 0 0 0 0 0), (setRegs tiny [(4, 2), (5, 0), (6, 0), (7, 0)], 0x90, form 4 2 4 6 0),
      (setRegs tiny [(4, 4), (5, 0), (6, 0), (7, 0)], 0x90, form 28 2 4 6 0), (setRegs tiny [(4, 4), (5, 0), (6, 0), (7, 0)], 0x90, form 12 2 4 6 0),
      (setRegs tiny [(4, 2 ^ 24), (5, 0), (6, 0), (7, 0)], 0x90, form 20 2 4 6 0), (setRegs tiny [(4, 0), (5, 2 ^ 25), (6, 0), (7, 0)], 0x90, form 4 2 4 6 0)] = true ∧
    (mapped.threads.all fun th => th.handler.isNone) = true ∧ (mapped.groups.all fun g => g.record.isNone) = true ∧
    (mapped.contexts.all fun k => !k.bringUp) = true ∧
    (mapped.contexts.all fun k => !k.stopped) = true ∧
    checked (storeChecks (idle mapped) 0 (some 0) (recordAddr mapped 0) 256) = true ∧
    ((readyAccess (under mapped [recordAccess]) 0).map (·.kind)) = some (.record 26 false) ∧
    hasAccess recorded 0 = false ∧ (ownLoad (idle recorded) 0 0x30000 256 false).isOk = true ∧
    countersFree [setRegs tiny [(4, 2), (5, 0), (6, 0), (7, 0)], setRegs tiny [(4, 4), (5, 0), (6, 0), (7, 0)],
      setRegs tiny [(4, 2 ^ 24), (5, 0), (6, 0), (7, 0)], setRegs tiny [(4, 0), (5, 2 ^ 25), (6, 0), (7, 0)]] = true ∧
    ([(4, 2), (28, 4), (12, 4)].all fun p => decide (accessBytes ((form p.1 2 4 6 0).mod.extractLsb' 0 3) = 4)) = true ∧
    ([4, 12, 20, 28].map fun m => ((form m 2 4 6 0).mod.extractLsb' 3 2).toNat) = [0, 1, 2, 3] ∧
    (launchOf tiny 0).spad = 0 ∧ (launchOf tiny 0).privlim = 0 ∧ siblingTeam tiny 0 (2 ^ 24 / 2 ^ 20) = none ∧ 2 ^ 57 ≤ 2 ^ 25 * 2 ^ 32 := by
  decide +kernel

/-- YieldAge, SelectBytes: the instructions run. -/
theorem witness_Yield_Select : runs tiny oneIssue 0x08 (form 0 0 0 0 0) = true ∧ runs tiny oneIssue 0x3E (form 0 2 4 6 8) = true := by
  decide +kernel

/-- DecodeEncode: a well-formed instruction, and a word that decodes with bytes behind it. -/
theorem witness_DecodeEncode :
    (Instr.icmp (form 1 1 4 6 0)).parts.isSome = true ∧ (Instr.icmp (form 1 1 4 6 0)).wellFormed = true ∧
    (decode (encode (.icmp (form 1 1 4 6 0)) ++ [1, 2, 3])).isOk = true := by
  decide +kernel

/-- The machine right after reset with the `ICMP` of R104 where it fetches next, and with a word of LEN 3. -/
def placed : State := State.reset.withFetchWord 64 0x443B0EB3B1001C40
def misplaced : State := State.reset.withFetchWord 64 0x443B0EB3B1001C43

/-- Whether the next move is an issue whose bytes decode. -/
def issuesWord (s : State) : Option Bool :=
  match nextMove (settleReady s) with
  | .issue x => some (decode (issueBytes s x)).isOk
  | .run _ | .start _ | .preempt _ | .error _ | .message _ _ | .idle => none

/-- A team that waits for no trap record before it takes PREEMPT; a thread at its loop's end. -/
def preemptive : State := withTeam (waiting (.sleep 9)) fun t => { t with phase := .preempting 0 none }

/-- A package whose clocks have stopped, with a step on the agenda and behind it a reset. -/
def tripped : State := { tiny with clockStopped := true, agenda := [.sensorPoll, .packageReset [] []] }

/-- StepRunsDecoded: an issue that decodes and one that does not; a step on the agenda; an idle package; an error, a listed message and
one of no code; stopped clocks with and without a reset. -/
theorem witness_StepRunsDecoded :
    issuesWord placed = some true ∧ issuesWord misplaced = some false ∧ placed.clockStopped = false ∧
    nextMove (settleReady { tiny with agenda := [.sensorPoll] }) = .run .sensorPoll ∧ nextMove (settleReady State.reset) = .idle ∧
    tiny.agenda = [] ∧ tiny.errors = [] ∧ ({ tiny with errors := [.register 0 5] } : State).errors = .register 0 5 :: [] ∧
    (requestOf (headOf 0 (wordsAt 4 [(0, 1), (8, 4096)])) (wordsAt 4 [(0, 1), (8, 4096)])).isSome = true ∧
    valueOf ((wordsAt 4 [(0, 13)]).take 1) = 13 ∧ hosted.lodeUp = true ∧
    tripped.clockStopped = true ∧ tripped.agenda = [.sensorPoll] ++ .packageReset [] [] :: [] ∧ isReset .sensorPoll = false ∧
    isReset (.packageReset [] []) = true := by
  decide +kernel

/-- MemoryCanonical, MemoryReadWrite: a canonical memory, and a step from a state that has it. -/
theorem witness_Memory : Memory.wf (bytesAt 4096 [1, 0, 3]) ∧ Memory.wf tiny.mem ∧ (bytesAt 4096 [1, 0, 3]).length = 2 ∧
    step { tiny with agenda := [.sensorPoll] } = .next { tiny with polled := 1 } := by
  refine ⟨by decide +kernel, by decide +kernel, by decide +kernel, rfl⟩

/-- A team that takes PREEMPT next; a thread at a loop's start. -/
def looped : State :=
  withThread (idle tiny) fun th => { th with frames := [⟨0, 0, some ⟨BitVec.ofNat 64 sram, BitVec.ofNat 64 (sram + 64), 3, 0⟩⟩] }

/-- StepRunsDecoded: a choice between one move and a clk without any falls on the move. -/
theorem witness_StepRunsDecoded_choice (h : Config.freeOrder 0 % 2 = 0) :
    nextMove (settleReady preemptive) = .preempt 0 ∧ nextMove (settleReady looped) = .start 0 := by
  have h1 : dueSteps (settleReady preemptive) = [] := by decide +kernel
  have h2 : moves (settleReady preemptive) = [.preempt 0] := by decide +kernel
  have h3 : dueSteps (settleReady looped) = [] := by decide +kernel
  have h4 : moves (settleReady looped) = [.start 0] := by decide +kernel
  have h5 : mustIssue (settleReady preemptive) = false ∧ mustIssue (settleReady looped) = false := by decide +kernel
  have h6 : (settleReady preemptive).agenda = [] ∧ (settleReady looped).agenda = [] ∧ (settleReady preemptive).errors = [] ∧
    (settleReady looped).errors = [] ∧ (settleReady preemptive).inbox = [] ∧ (settleReady looped).inbox = [] ∧
    (settleReady preemptive).seed = 0 ∧ (settleReady looped).seed = 0 := ⟨rfl, rfl, rfl, rfl, rfl, rfl, rfl, rfl⟩
  simp [nextMove, h1, h2, h3, h4, h5, h6, chooseMove, h]

/-! Words written out from the encoding tables: MOD, HOLD, C, B, A, D, GRD, OPC, LEN (R69), and the bytes that the spec gives for them. -/

/-- A word's fields in the order of R69. -/
def field64 (mod : BitVec 6) (hold : BitVec 4) (c b a d : BitVec 10) (grd : BitVec 4) (opc : BitVec 8) (len : BitVec 2) : BitVec 64 :=
  mod ++ hold ++ c ++ b ++ a ++ d ++ grd ++ opc ++ len

/-- Decoding reads one instruction and leaves nothing. -/
def reads (bs : List Byte) (i : Instr) : Bool :=
  match decode bs with
  | .ok (j, rest) => decide (j = i) && rest.isEmpty
  | .error _ => false

/-- R11: `?p0 FADD.f32 v2, v0, v1`. -/
theorem test_decode_fadd :
    reads [0x40, 0x81, 0x00, 0x00, 0x04, 0x00, 0x3B, 0x00] (.fadd ⟨.l64, 0, 0, 0, 0x3B0, 1, 0, 2, false, 0, 0, 0⟩) = true ∧
    field64 0 0 0x3B0 1 0 2 0 0x50 0 = 0x003B000400008140 := by decide

/-- R74: a guard that is inverted and an imm32; an operand extension. -/
theorem test_decode_fadd_long :
    reads [0x41, 0x69, 0x01, 0x04, 0x00, 0x0F, 0x3B, 0x00, 0x00, 0x00, 0x00, 0x3F]
      (.fadd ⟨.l96, 0, 0, 0, 0x3B0, 0x3C0, 4, 5, true, 2, 0x3F000000, 0⟩) = true ∧
    reads [0x41, 0x9D, 0x00, 0x01, 0x04, 0x00, 0x3B, 0x00, 0x88, 0x00, 0x00, 0x00]
      (.fadd ⟨.l96, 0, 0, 0, 0x3B0, 1, 1, 2, false, 7, 0x88, 0⟩) = true := by decide

/-- The assembly reference's `FADD.f32.sat v3, v4>h1, 100`: 128 bits with a hold name. -/
theorem test_decode_fadd_hold :
    reads [0x42, 0xDD, 0x00, 0x04, 0x00, 0x0F, 0x7B, 0x00, 0x00, 0x08, 0x00, 0x00, 0x64, 0x00, 0x00, 0x00]
      (.fadd ⟨.l128, 0, 0, 1, 0x3B0, 0x3C0, 4, 3, false, 7, 0x800, 0x64⟩) = true := by decide

/-- `XSET x3, 40, 8, 1, 0, sa` (move instructions). -/
theorem test_decode_xset :
    reads [0x1D, 0xDE, 0x00, 0xC0, 0x83, 0x0E, 0x3B, 0x04, 0x28, 0x80, 0x40, 0x00]
      (.xset ⟨.l96, 1, 0, 0, 0x3B0, 0x3A0, 0x3C0, 3, false, 7, 0x408028, 0⟩) = true := by decide

/-- `ST` and `LD` of the programs: imm32, discarding, private. -/
theorem test_decode_memory :
    reads [0x45, 0x1A, 0xEC, 0x0C, 0x00, 0x3F, 0x01, 0x10, 0x10, 0x00, 0x00, 0x00]
      (.st ⟨.l96, 4, 0, 0, 0x013, 0x3C0, 0x00C, 0x3B0, false, 6, 0x10, 0⟩) = true ∧
    reads [0x40, 0x0A, 0xEC, 0x06, 0xC0, 0x0E, 0x3B, 0x10] (.ld ⟨.l64, 4, 0, 0, 0x3B0, 0x3B0, 6, 0x3B0, false, 2, 0, 0⟩) = true ∧
    reads [0x40, 0x1E, 0x02, 0xB0, 0x37, 0x00, 0x3B, 0xF0] (.ld ⟨.l64, 0x3C, 0, 0, 0x3B0, 0x00D, 0x3B0, 8, false, 7, 0, 0⟩) = true := by decide

/-- `CPYT` and `RED.add.bf16x2` of the programs. -/
theorem test_decode_copy_red :
    reads [0x65, 0x42, 0x00, 0x04, 0x1B, 0x0C, 0x3C, 0x00, 0x10, 0x00, 0x00, 0x00]
      (.cpyt ⟨.l96, 0, 0, 0, 0x3C0, 0x306, 0x304, 1, false, 0, 0x10, 0⟩) = true ∧
    reads [0xC8, 0x1E, 0xEC, 0x04, 0x0B, 0x30, 0x00, 0x14] (.red ⟨.l64, 5, 0, 0, 3, 2, 0x304, 0x3B0, false, 7, 0, 0⟩) = true := by decide

/-- `TLD c0, s0, t0, k12` and `TMMA.hi c0, a0, s0, s1`. -/
theorem test_decode_tile :
    reads [0x48, 0x1F, 0x00, 0x00, 0x00, 0xC0, 0x30, 0x00] (.tld ⟨.l64, 0, 0, 0, 0x30C, 0, 0, 0, false, 7, 0, 0⟩) = true ∧
    reads [0x54, 0x1F, 0x00, 0x00, 0x00, 0x10, 0x00, 0x10] (.tmma ⟨.l64, 4, 0, 0, 1, 0, 0, 0, false, 7, 0, 0⟩) = true := by decide

/-- Words without an example in the spec, one for each other family of R79, field by field. -/
theorem test_decode_families :
    ([(0x05, .ret), (0x12, .plop), (0x20, .add), (0x34, .shl), (0x41, .taddr), (0x70, .cvt), (0x81, .lxch), (0xA0, .cflush), (0xB5, .waitc),
      (0xC0, .bar), (0xC8, .cvg), (0xE0, .xop), (0xE4, .gfire), (0xF0, .mfs), (0xF9, .exitp)] : List (Nat × (Form → Instr))).all (fun p =>
        reads (bytesOfBits 8 (field64 0b000010 0b1001 0x3B0 0x155 0x2AA 0x0F3 0b1101 (BitVec.ofNat 8 p.1) 0b00).toNat)
          (p.2 ⟨.l64, 2, 2, 1, 0x3B0, 0x155, 0x2AA, 0x0F3, true, 5, 0, 0⟩)) = true := by decide

/-- The two rows of `PMOV` differ in MOD (R102). -/
theorem test_decode_pmov :
    reads (bytesOfBits 8 (field64 0 0 0x3B0 0x3B0 0x3B0 4 0b0111 0x14 0).toNat) (.pmovGet ⟨.l64, 0, 0, 0, 0x3B0, 0x3B0, 0x3B0, 4, false, 7, 0, 0⟩) = true ∧
    reads (bytesOfBits 8 (field64 1 0 0x3B0 0x3B0 4 0x3B0 0b0111 0x14 0).toNat) (.pmovPut ⟨.l64, 1, 0, 0, 0x3B0, 0x3B0, 4, 0x3B0, false, 7, 0, 0⟩) = true := by decide

/-- Refusals by name: LEN 11, an opcode without an instruction, a length R79 does not permit, too few bytes. -/
theorem test_decode_refuses :
    decode (List.replicate 16 0xFF) = .error .lenReserved ∧
    decode (bytesOfBits 8 (field64 0 0 0 0 0 0 7 0x09 0).toNat) = .error .noOpcode ∧
    decode ((bytesOfBits 8 (field64 0 0 0 0 0 0 7 0x86 0).toNat)) = .error .badLength ∧
    decode (List.replicate 11 0x01) = .error .crossesBlock := by decide

/-- WellFormed: a term that each check refuses, and its neighbour that it takes. -/
theorem test_wellFormed :
    (Instr.fadd (form 0 2 4 6 0x3B0)).wellFormed = true ∧
    (Instr.fadd { form 0 2 4 6 0x3B0 with x1 := 1 }).wellFormed = false ∧
    (Instr.movi (form 0 2 0 0 0)).wellFormed = false ∧
    (Instr.pmovGet (form 1 2 4 6 8)).wellFormed = false ∧ (Instr.pmovPut (form 0 2 4 6 8)).wellFormed = false ∧
    (Instr.fadd (form 7 2 4 6 0x3B0)).wellFormed = false ∧
    (Instr.fadd (form 0 2 0x3F0 6 0x3B0)).wellFormed = false ∧
    (Instr.rds 3 64).wellFormed = true ∧ (Instr.rds 4 64).wellFormed = false := by decide +kernel

/-! Values, each worked by hand from its rule. -/

/-- What a lane's registers receive from one instruction. -/
def after (s : State) (i : Instr) (n : Nat) : Option Word :=
  match exec i s with
  | .next t => (t.threads[0]?).bind fun th => lookupNat th.regs n
  | .fault _ | .refused _ => none

/-- Sums wrap at 32 bits; the difference of 3 and 5 is 2³² − 2 (R105). -/
theorem test_add_wraps : after (setRegs tiny [(4, 2 ^ 32 - 1), (6, 3)]) (.add (form 0 2 4 6 0)) 2 = some 2 ∧
    after (setRegs tiny [(4, 3), (6, 5)]) (.sub (form 0 2 4 6 0)) 2 = some 0xFFFFFFFE := by decide +kernel

/-- A source that is the destination is read first. -/
theorem test_source_is_destination : after (setRegs tiny [(4, 7)]) (.add (form 0 4 4 4 0)) 4 = some 14 := by decide +kernel

/-- 1.0 + 2.0 = 3.0, and 0.5 × 0.5 = 0.25 in binary32. -/
theorem test_float : after (setRegs tiny [(4, 0x3F800000), (6, 0x40000000)]) (.fadd (form 0 2 4 6 0)) 2 = some 0x40400000 ∧
    after (setRegs tiny [(4, 0x3F000000), (6, 0x3F000000)]) (.fmul (form 0 2 4 6 0)) 2 = some 0x3E800000 := by decide +kernel

/-- Counts: 3 ones, 31 leading zeros, bit 0 to bit 31 (R110). -/
theorem test_bits : after (setRegs tiny [(4, 0x111)]) (.popc (form 0 2 4 0 0)) 2 = some 3 ∧
    after (setRegs tiny [(4, 1)]) (.clz (form 0 2 4 0 0)) 2 = some 31 ∧ after (setRegs tiny [(4, 1)]) (.brev (form 0 2 4 0 0)) 2 = some 0x80000000 := by
  decide +kernel

/-- A store to memory is read back little-endian, and its neighbours stay (R3). -/
theorem test_memory : memReadN (memWriteN [] 4096 [1, 2, 3]) 4095 5 = [0, 1, 2, 3, 0] ∧
    memWriteN (memWriteN [] 4096 [1, 2, 3]) 4096 [0, 0, 0] = [] := by decide

/-- Right after reset no thread exists; the word placed runs in 32 lanes. -/
theorem test_reset : State.reset.threads = [] ∧ placed.threads.length = 32 ∧ placed.contexts.length = 1 := by decide +kernel

end Sys2Proof.Tests
end

/-! SUPPORT. Statements settled: `YIELD` (R100), `BSEL` (R110), and the two words that the spec assembles (R104, R146). -/

namespace Sys2Proof.Compute

open Sys2Proof.Machine Sys2Proof.Claims

/-! A thread after an instruction that completes in its lane. -/

theorem lookupNat_mem {β : Type} {l : List (Nat × β)} {p : Nat × β} (hnd : (l.map (·.1)).Nodup) (hp : p ∈ l) :
    lookupNat l p.1 = some p.2 := by
  induction l with
  | nil => cases hp
  | cons x l ih =>
    obtain ⟨hx, hl⟩ := List.nodup_cons.mp hnd
    rcases List.mem_cons.mp hp with rfl | hp
    · simp [lookupNat]
    · have hne : x.1 ≠ p.1 := fun h => hx (List.mem_map.mpr ⟨p, hp, h.symm⟩)
      rw [lookupNat, if_neg hne, ih hl hp]

theorem afterLanes_thread_ready {s : State} {pc : DWord} {len : Nat} {ps : List (Nat × Prep)}
    {pre : Ready → Thread → Thread} {eff : Ready → Res} {p : Nat × Prep} {r : Ready}
    (hnd : (ps.map (·.1)).Nodup) (hp : p ∈ ps) (hr : p.2 = .ready r) :
    (afterLanes s pc len ps pre eff).threads[p.1]? =
      (s.threads[p.1]?).map fun th => doneThread pc len s.clk r (eff r) (pre r th) := by
  simp only [afterLanes, List.getElem?_mapIdx, lookupNat_mem hnd hp, hr]

/-- A thread that completes an instruction without moving itself has its age from the clk after (R33). -/
theorem doneThread_age {pc : DWord} {len clk : Nat} {r : Ready} {x : Res} {th : Thread} (h : x.next ≠ .stay) :
    (doneThread pc len clk r x th).age = clk + 1 := by
  cases hn : x.next with
  | fall => simp only [doneThread, moveThread, hn, becomeReady]
  | jump t => simp only [doneThread, moveThread, hn, becomeReady]
  | stay => exact absurd hn h

theorem yield_completes {f : Form} {s : State} {iss : Issue} (h : runs s iss 0x08 f = true) :
    completes (.yield f) 0x08 f s iss fun _ => {} :=
  runLanes_completes (body := fun _ _ s _ => .ok s {}) h _ fun _ _ _ _ _ _ => rfl

/-! `BSEL`, byte by byte (R110). -/

theorem bsel_gives : GivesWords .bsel 0x3E fun _ r => oneReg (selectBytes r.a r.b r.c) :=
  givesWords_of (w := fun _ => 32) (fun _ _ => rfl) fun _ r => by rw [aluBsel_eq, regs32]

/-- Selector i of C: bits [4i+3:4i]. -/
def selector (c : DWord) (i : Nat) : Nat := (c.extractLsb' (4 * i) 4).toNat

theorem selector_lt (c : DWord) (i : Nat) : selector c i < 16 := (c.extractLsb' (4 * i) 4).isLt

/-- The first n bytes of D, formed from byte 0 upward. -/
def bytesFormed (a b c : DWord) : Nat → List Byte
  | 0 => []
  | n + 1 => bytesFormed a b c n ++ [selectByte a b (bytesFormed a b c n) (selector c n)]

theorem bytesFormed_length (a b c : DWord) (n : Nat) : (bytesFormed a b c n).length = n := by
  induction n with
  | zero => rfl
  | succ n ih => simp [bytesFormed, ih]

theorem selectBytes_eq_formed (a b c : DWord) :
    selectBytes a b c =
      (((bytesFormed a b c 4)[3]?.getD 0) ++ ((bytesFormed a b c 4)[2]?.getD 0) ++ ((bytesFormed a b c 4)[1]?.getD 0) ++
        ((bytesFormed a b c 4)[0]?.getD 0) : BitVec 32).setWidth 64 := rfl

/-- A byte once formed stays. -/
theorem bytesFormed_getElem? (a b c : DWord) {i n : Nat} (h : i < n) :
    (bytesFormed a b c n)[i]? = some (selectByte a b (bytesFormed a b c i) (selector c i)) := by
  induction n with
  | zero => omega
  | succ n ih =>
    have hlen := bytesFormed_length a b c n
    rcases Nat.lt_succ_iff_lt_or_eq.mp h with h | rfl
    · rw [bytesFormed, List.getElem?_append_left (by omega), ih h]
    · rw [bytesFormed, List.getElem?_append_right (by omega), hlen, Nat.sub_self]
      rfl

theorem extract_fourBytes (d : Nat → Byte) {i : Nat} (hi : i < 4) :
    ((d 3 ++ d 2 ++ d 1 ++ d 0 : BitVec 32).setWidth 64).extractLsb' (8 * i) 8 = d i := by
  have above : ∀ {m} (x : BitVec m) (y : Byte) (k : Nat), (x ++ y).extractLsb' (8 * (k + 1)) 8 = x.extractLsb' (8 * k) 8 :=
    fun x y k => BitVec.extractLsb'_append_eq_of_le (by omega)
  rw [BitVec.extractLsb'_setWidth_of_le (by omega)]
  match i with
  | 0 => exact BitVec.extractLsb'_append_eq_right
  | 1 => rw [above]; exact BitVec.extractLsb'_append_eq_right
  | 2 => rw [above, above]; exact BitVec.extractLsb'_append_eq_right
  | 3 => rw [above, above, above]; exact BitVec.extractLsb'_eq_self

/-- Byte i of D is what its selector makes of the bytes below it. -/
theorem selectBytes_byte (a b c : DWord) {i : Nat} (hi : i < 4) :
    (selectBytes a b c).extractLsb' (8 * i) 8 = selectByte a b (bytesFormed a b c i) (selector c i) := by
  rw [selectBytes_eq_formed, extract_fourBytes (fun k => (bytesFormed a b c 4)[k]?.getD 0) hi, bytesFormed_getElem? a b c hi,
    Option.getD_some]

/-- The byte formed last before byte i is byte i − 1 of D, and 0 where there is none. -/
theorem bytesFormed_last (a b c : DWord) {i : Nat} (hi : i < 4) :
    (bytesFormed a b c i).getLast?.getD 0 = if i = 0 then 0 else (selectBytes a b c).extractLsb' (8 * (i - 1)) 8 := by
  cases i with
  | zero => rfl
  | succ k =>
    rw [if_neg (Nat.succ_ne_zero k), Nat.add_sub_cancel, selectBytes_byte a b c (by omega), bytesFormed, List.getLast?_concat,
      Option.getD_some]

/-- R110's table of selectors. -/
theorem selectByte_table (a b : DWord) (done : List Byte) {s : Nat} (hs : s < 16) :
    selectByte a b done s =
      if s < 4 then a.extractLsb' (8 * s) 8
      else if s < 8 then b.extractLsb' (8 * (s - 4)) 8
      else if s = 9 then 0xFF
      else if s = 10 then (if (done.getLast?.getD 0).getLsbD 7 then 0xFF else 0)
      else if s = 11 then done.getLast?.getD 0
      else 0 := by
  interval_cases s <;> rfl

/-! The statements. -/

/-- Settles O53: `YIELD` completes in every active lane without a result, so its threads' age is that of a completed instruction. -/
theorem yieldAge : Obligations.YieldAge := by
  intro f s iss h
  refine ⟨_, yield_completes h, rfl, ?_⟩
  intro p r hp hr th hth
  rw [prepared, afterLanes_thread_ready (runsBy_nodup h) hp hr, Option.map_eq_some_iff] at hth
  obtain ⟨th0, -, rfl⟩ := hth
  exact doneThread_age Next.noConfusion

/-- Settles O54: each byte of D by R110's table of selectors, over the bytes formed before it. -/
theorem selectBytes : Obligations.SelectBytes := by
  refine ⟨bsel_gives, ?_, by decide, by decide⟩
  intro a b c i hi
  dsimp only
  rw [selectBytes_byte a b c hi, selectByte_table a b _ (selector_lt c i), bytesFormed_last a b c hi]
  rfl

/-- Settles O56: the decoder and the encoder run on the bytes that R104 and R146 print. -/
theorem decodeWords : Obligations.DecodeWords :=
  ⟨by decide, by decide, by decide, by decide, by decide, by decide⟩

end Sys2Proof.Compute

/-! SUPPORT. Statements settled: decoding and encoding undo each other (R64, R65, R69, R72, R79). -/

namespace Sys2Proof.Encoding

/-! Bytes and the number they spell (R3). -/

theorem pow_bytes_succ (n : Nat) : 256 ^ (n + 1) = 256 * 256 ^ n := by rw [Nat.pow_succ, Nat.mul_comm]

/-- The bytes of a number, with others behind them, spell the number below those. -/
theorem bitsOfBytes_append (n w : Nat) (l : List Byte) :
    bitsOfBytes (bytesOfBits n w ++ l) = w % 256 ^ n + 256 ^ n * bitsOfBytes l := by
  induction n generalizing w with
  | zero => simp [bytesOfBits, Nat.mod_one]
  | succ n ih =>
    have hlow : (BitVec.ofNat 8 (w % 256)).toNat = w % 256 := by simp
    have hsplit : w % (256 * 256 ^ n) = w % 256 + 256 * (w / 256 % 256 ^ n) := Nat.mod_mul
    rw [bytesOfBits, List.cons_append, bitsOfBytes, ih, hlow, pow_bytes_succ, hsplit, Nat.mul_add, Nat.mul_assoc, Nat.add_assoc]

/-- The n bytes of a number depend on its low 8n bits. -/
theorem bytesOfBits_congr {n v w : Nat} (h : v % 256 ^ n = w % 256 ^ n) : bytesOfBits n v = bytesOfBits n w := by
  induction n generalizing v w with
  | zero => rfl
  | succ n ih =>
    have hv : v % (256 * 256 ^ n) = v % 256 + 256 * (v / 256 % 256 ^ n) := Nat.mod_mul
    have hw : w % (256 * 256 ^ n) = w % 256 + 256 * (w / 256 % 256 ^ n) := Nat.mod_mul
    rw [pow_bytes_succ, hv, hw] at h
    have hlow : v % 256 = w % 256 := by omega
    have hhigh : v / 256 % 256 ^ n = w / 256 % 256 ^ n := by omega
    rw [bytesOfBits, bytesOfBits, hlow, ih hhigh]

/-- The bytes of the number that bytes spell are those bytes. -/
theorem bytesOfBits_bitsOfBytes {n : Nat} {bs : List Byte} (h : n ≤ bs.length) :
    bytesOfBits n (bitsOfBytes bs) = bs.take n := by
  induction n generalizing bs with
  | zero => simp [bytesOfBits]
  | succ n ih =>
    cases bs with
    | nil => simp at h
    | cons b bs =>
      have hb := b.isLt
      have hlow : (b.toNat + 256 * bitsOfBytes bs) % 256 = b.toNat := by omega
      have hhigh : (b.toNat + 256 * bitsOfBytes bs) / 256 = bitsOfBytes bs := by omega
      rw [bitsOfBytes, bytesOfBits, hlow, hhigh, ih (by simpa using h), List.take_succ_cons, BitVec.ofNat_toNat,
        BitVec.setWidth_eq]

/-! Words and their fields (R69, R72). -/

/-- Two words agree in their low n bits. -/
def Agree (n : Nat) (x y : BitVec 128) : Prop := ∀ j, j < n → x.getLsbD j = y.getLsbD j

theorem Agree.extract {n s k : Nat} {x y : BitVec 128} (h : Agree n x y) (hk : s + k ≤ n) :
    x.extractLsb' s k = y.extractLsb' s k := by
  ext i hi
  rw [BitVec.getElem_extractLsb', BitVec.getElem_extractLsb', h (s + i) (by omega)]

/-- Words whose numbers are equal modulo 2^n agree in their low n bits. -/
theorem agree_of_mod {n : Nat} {v w : Nat} (h : v % 2 ^ n = w % 2 ^ n) : Agree n (BitVec.ofNat 128 v) (BitVec.ofNat 128 w) := by
  intro j hj
  have := congrArg (fun x => x.testBit j) h
  simp only [Nat.testBit_mod_two_pow, hj, decide_true, Bool.true_and] at this
  simp only [BitVec.getLsbD_ofNat, this]

theorem mod_of_agree {n : Nat} {x y : BitVec 128} (h : Agree n x y) : x.toNat % 2 ^ n = y.toNat % 2 ^ n := by
  apply Nat.eq_of_testBit_eq
  intro j
  simp only [Nat.testBit_mod_two_pow]
  by_cases hj : j < n
  · simp only [hj, decide_true, Bool.true_and]; exact h j hj
  · simp only [hj, decide_false, Bool.false_and]

theorem len_bytes_le (l : Len) : 8 ≤ l.bytes ∧ l.bytes ≤ 16 := by cases l <;> decide

theorem len_ofBits_bits (l : Len) : Len.ofBits l.bits = some l := by cases l <;> rfl

theorem bits_of_len_ofBits {b : BitVec 2} {l : Len} (h : Len.ofBits b = some l) : l.bits = b := by
  revert h; revert l b; decide

/-- The fields of two words that agree within the length are the same. -/
theorem fieldsOf_congr {l : Len} {x y : BitVec 128} (h : Agree (8 * l.bytes) x y) : fieldsOf l x = fieldsOf l y := by
  have hb := (len_bytes_le l).1
  have base : ∀ s k, s + k ≤ 64 → x.extractLsb' s k = y.extractLsb' s k := fun s k hk => h.extract (by omega)
  have hinv : x.getLsbD 13 = y.getLsbD 13 := h 13 (by omega)
  have hx1 : (if l = .l64 then 0 else x.extractLsb' 64 32) = if l = .l64 then 0 else y.extractLsb' 64 32 := by
    cases l with
    | l64 => simp only [if_true]
    | l96 => simpa only [reduceCtorEq, if_false] using h.extract (show 64 + 32 ≤ 8 * 12 by omega)
    | l128 => simpa only [reduceCtorEq, if_false] using h.extract (show 64 + 32 ≤ 8 * 16 by omega)
  have hx2 : (if l = .l128 then x.extractLsb' 96 32 else 0) = if l = .l128 then y.extractLsb' 96 32 else 0 := by
    cases l with
    | l64 => simp only [reduceCtorEq, if_false]
    | l96 => simp only [reduceCtorEq, if_false]
    | l128 => simpa only [if_true] using h.extract (show 96 + 32 ≤ 8 * 16 by omega)
  simp only [fieldsOf, hx1, hx2, hinv, base _ _ (show 58 + 6 ≤ 64 by decide), base _ _ (show 56 + 2 ≤ 64 by decide),
    base _ _ (show 54 + 2 ≤ 64 by decide), base _ _ (show 44 + 10 ≤ 64 by decide), base _ _ (show 34 + 10 ≤ 64 by decide),
    base _ _ (show 24 + 10 ≤ 64 by decide), base _ _ (show 14 + 10 ≤ 64 by decide), base _ _ (show 10 + 3 ≤ 64 by decide)]

/-- The extension words that a length does not have are zero. -/
theorem fits_iff (f : Form) : f.fits = true ↔ (f.len = .l64 → f.x1 = 0) ∧ (f.len ≠ .l128 → f.x2 = 0) := by
  unfold Form.fits
  split <;> simp_all

/-- What lies below bit 64 of a word is its base word's. -/
theorem wordBits_base (o : BitVec 8) (f : Form) {s k : Nat} (h : s + k ≤ 64) :
    (wordBits o f).extractLsb' s k = (baseWord o f).extractLsb' s k := BitVec.extractLsb'_append_eq_of_add_le h

/-- The fields of an encoded word are those it was made of. -/
theorem fieldsOf_wordBits {o : BitVec 8} {f : Form} (h : f.fits = true) : fieldsOf f.len (wordBits o f) = f := by
  obtain ⟨h1, h2⟩ := (fits_iff f).mp h
  have hinv : (wordBits o f).getLsbD 13 = f.inv := by
    have hbit : (wordBits o f).extractLsb' 13 1 = BitVec.ofBool f.inv := by
      rw [wordBits_base o f (by decide), baseWord]
      simp (disch := decide) only [BitVec.extractLsb'_append_eq_of_le]
      exact BitVec.extractLsb'_append_eq_right
    simpa using congrArg (fun x => x.getLsbD 0) hbit
  have hx1 : (if f.len = .l64 then 0 else (wordBits o f).extractLsb' 64 32) = f.x1 := by
    have : (wordBits o f).extractLsb' 64 32 = f.x1 :=
      (BitVec.extractLsb'_append_eq_of_le (by decide)).trans BitVec.extractLsb'_append_eq_right
    rw [this]; split <;> simp_all
  have hx2 : (if f.len = .l128 then (wordBits o f).extractLsb' 96 32 else 0) = f.x2 := by
    have : (wordBits o f).extractLsb' 96 32 = f.x2 :=
      (BitVec.extractLsb'_append_eq_of_le (by decide)).trans BitVec.extractLsb'_append_eq_left
    rw [this]; split <;> simp_all
  have hb : ∀ s k, s + k ≤ 64 → (wordBits o f).extractLsb' s k = (baseWord o f).extractLsb' s k := fun _ _ => wordBits_base o f
  rw [fieldsOf, hinv, hx1, hx2, hb 58 6 (by decide), hb 56 2 (by decide), hb 54 2 (by decide), hb 44 10 (by decide),
    hb 34 10 (by decide), hb 24 10 (by decide), hb 14 10 (by decide), hb 10 3 (by decide), baseWord]
  simp (disch := decide) only [BitVec.extractLsb'_append_eq_of_le, BitVec.extractLsb'_append_eq_of_add_le]
  simp only [Nat.reduceSub, BitVec.extractLsb'_eq_self]

theorem ofBool_getLsbD (w : BitVec 128) (i : Nat) : BitVec.ofBool (w.getLsbD i) = w.extractLsb' i 1 := by
  ext j hj
  obtain rfl : j = 0 := by omega
  simp

/-- The base word made of a word's fields is its low 64 bits. -/
theorem baseWord_fieldsOf {l : Len} {w : BitVec 128} (h : Len.ofBits (w.extractLsb' 0 2) = some l) :
    baseWord (w.extractLsb' 2 8) (fieldsOf l w) = w.extractLsb' 0 64 := by
  simp only [baseWord, fieldsOf, bits_of_len_ofBits h, ofBool_getLsbD]
  simp (disch := rfl) only [BitVec.extractLsb'_append_extractLsb'_eq_extractLsb']

/-- A word made of a word's opcode and fields agrees with it within its length. -/
theorem wordBits_fieldsOf {l : Len} {w : BitVec 128} (h : Len.ofBits (w.extractLsb' 0 2) = some l) :
    Agree (8 * l.bytes) (wordBits (w.extractLsb' 2 8) (fieldsOf l w)) w := by
  intro j hj
  rw [wordBits, baseWord_fieldsOf h]
  simp only [BitVec.getLsbD_append, BitVec.getLsbD_extractLsb']
  cases l with
  | l64 => simp [show j < 64 from hj]
  | l96 =>
    have hj : j < 96 := hj
    by_cases h64 : j < 64
    · simp [h64]
    · simp [h64, fieldsOf, show j - 64 < 32 by omega, show 64 + (j - 64) = j by omega]
  | l128 =>
    have hj : j < 128 := hj
    by_cases h64 : j < 64
    · simp [h64]
    · by_cases h96 : j - 64 < 32
      · simp [h64, fieldsOf, h96, show 64 + (j - 64) = j by omega]
      · simp [h64, fieldsOf, h96, show j - 64 - 32 < 32 by omega, show 96 + (j - 64 - 32) = j by omega]

/-! The opcode map (R79, R102). -/

/-- What the opcode map builds has the map's opcode. -/
theorem opcodeCtor_parts {n : Nat} {k : Form → Instr} (h : opcodeCtor n = some k) (f : Form) :
    (k f).parts = some (BitVec.ofNat 8 n, f) := by
  unfold opcodeCtor at h
  split at h <;> cases h <;> rfl

theorem ctorOf_parts {o : BitVec 8} {m : BitVec 6} {k : Form → Instr} (h : ctorOf o m = some k) (f : Form) :
    (k f).parts = some (o, f) := by
  unfold ctorOf at h
  split at h
  next ho => subst ho; split at h <;> cases h <;> rfl
  next ho => rw [opcodeCtor_parts h f, BitVec.ofNat_toNat, BitVec.setWidth_eq]

/-- The opcode map finds the constructor of a thread instruction that keeps to its row's MOD. -/
theorem ctorOf_of_parts {i : Instr} {o : BitVec 8} {f : Form} (h : i.parts = some (o, f)) (hw : wordFits i o f = true) :
    ∃ k, ctorOf o f.mod = some k ∧ k f = i := by
  cases i
  case pmovGet g =>
    cases h
    have hm : f.mod ≠ 1#6 := by simp_all [wordFits]
    exact ⟨.pmovGet, by simp [ctorOf, hm], rfl⟩
  case pmovPut g =>
    cases h
    have hm : f.mod = 1#6 := by simp_all [wordFits]
    exact ⟨.pmovPut, by simp [ctorOf, hm], rfl⟩
  all_goals cases h
  all_goals exact ⟨_, rfl, rfl⟩

/-! The statement. -/

theorem wordFits_fits {i : Instr} {o : BitVec 8} {f : Form} (h : wordFits i o f = true) :
    f.fits = true ∧ lengthOk o f.len = true := by
  simp only [wordFits, Bool.and_eq_true] at h
  exact h.1

theorem wellFormed_wordFits {i : Instr} {o : BitVec 8} {f : Form} (hp : i.parts = some (o, f)) (h : i.wellFormed = true) :
    wordFits i o f = true := by
  simp only [Instr.wellFormed, hp, Bool.and_eq_true] at h
  exact h.1.1

/-- The decoder on 128 bits whose length and constructor are known. -/
theorem decode_of_word {bs : List Byte} {w : BitVec 128} {l : Len} {k : Form → Instr}
    (hw : BitVec.ofNat 128 (bitsOfBytes (bs.take 16)) = w) (hl : Len.ofBits (w.extractLsb' 0 2) = some l)
    (hn : l.bytes ≤ bs.length) (hk : ctorOf (w.extractLsb' 2 8) (w.extractLsb' 58 6) = some k)
    (hok : lengthOk (w.extractLsb' 2 8) l = true) : decode bs = .ok (k (fieldsOf l w), bs.drop l.bytes) := by
  simp only [decode, hw, hl, decodeBits, hk, hok, if_true, if_neg (Nat.not_lt.mpr hn)]

/-- The same read backwards. -/
theorem decode_ok {bs : List Byte} {i : Instr} {rest : List Byte} (h : decode bs = .ok (i, rest)) :
    ∃ w l k, BitVec.ofNat 128 (bitsOfBytes (bs.take 16)) = w ∧ Len.ofBits (w.extractLsb' 0 2) = some l ∧ l.bytes ≤ bs.length ∧
      ctorOf (w.extractLsb' 2 8) (w.extractLsb' 58 6) = some k ∧ i = k (fieldsOf l w) ∧ rest = bs.drop l.bytes := by
  obtain ⟨w, hw⟩ : ∃ w, BitVec.ofNat 128 (bitsOfBytes (bs.take 16)) = w := ⟨_, rfl⟩
  simp only [decode, hw] at h
  split at h
  next => cases h
  next l hl =>
    split at h
    next => cases h
    next hn =>
      simp only [decodeBits, hl] at h
      cases hk : ctorOf (w.extractLsb' 2 8) (w.extractLsb' 58 6) with
      | none => simp [hk] at h
      | some k =>
        simp only [hk] at h
        split at h
        next => cases h
        next j hj =>
          split at hj
          next => cases hj; cases h; exact ⟨w, l, k, hw, hl, Nat.not_lt.mp hn, hk, rfl, rfl⟩
          next => cases hj

/-- The 128 bits at an encoded instruction agree with its word within its length. -/
theorem encoded_agree (o : BitVec 8) (f : Form) (rest : List Byte) :
    Agree (8 * f.len.bytes)
      (BitVec.ofNat 128 (bitsOfBytes ((bytesOfBits f.len.bytes (wordBits o f).toNat ++ rest).take 16))) (wordBits o f) := by
  have hlen := Laws.Encoded.bytes_length f.len.bytes (wordBits o f).toNat
  have hle := (len_bytes_le f.len).2
  rw [List.take_append, hlen, List.take_of_length_le (by omega), bitsOfBytes_append]
  have : wordBits o f = BitVec.ofNat 128 (wordBits o f).toNat := by simp
  rw [this]
  apply agree_of_mod
  have hpow : (256 : Nat) ^ f.len.bytes = 2 ^ (8 * f.len.bytes) := by rw [Nat.pow_mul]
  simp [hpow]

theorem decode_encode {i : Instr} {o : BitVec 8} {f : Form} (hp : i.parts = some (o, f)) (hw : wordFits i o f = true)
    (rest : List Byte) : decode (encode i ++ rest) = .ok (i, rest) := by
  obtain ⟨hfit, hok⟩ := wordFits_fits hw
  obtain ⟨k, hk, rfl⟩ := ctorOf_of_parts hp hw
  have hb := (len_bytes_le f.len).1
  have hagree := encoded_agree o f rest
  have hlen := Laws.Encoded.bytes_length f.len.bytes (wordBits o f).toNat
  have hmod : (wordBits o f).extractLsb' 58 6 = f.mod := congrArg Form.mod (fieldsOf_wordBits (o := o) hfit)
  have hopc := Laws.Encoded.wordBits_opcode o f
  have henc : encode (k f) = bytesOfBits f.len.bytes (wordBits o f).toNat := by simp only [encode, hp]
  rw [henc, decode_of_word rfl (l := f.len) (k := k)]
  · rw [fieldsOf_congr hagree, fieldsOf_wordBits hfit, List.drop_left' hlen]
  · rw [hagree.extract (by omega), Laws.Encoded.wordBits_length, len_ofBits_bits]
  · rw [List.length_append, hlen]; omega
  · rw [hagree.extract (by omega), hagree.extract (by omega), hopc, hmod, hk]
  · rw [hagree.extract (by omega), hopc, hok]

theorem encode_decode {bs : List Byte} {i : Instr} {rest : List Byte} (h : decode bs = .ok (i, rest)) :
    encode i ++ rest = bs := by
  obtain ⟨w, l, k, hw, hl, hn, hk, rfl, rfl⟩ := decode_ok h
  have hlen : (fieldsOf l w).len = l := rfl
  have hle := (len_bytes_le l).2
  have hpow : (2 : Nat) ^ (8 * l.bytes) = 256 ^ l.bytes := by rw [Nat.pow_mul]
  have hmod := mod_of_agree (wordBits_fieldsOf hl)
  rw [hpow] at hmod
  have hnat : w.toNat % 256 ^ l.bytes = bitsOfBytes (bs.take 16) % 256 ^ l.bytes := by
    rw [← hw, BitVec.toNat_ofNat, ← hpow]
    exact Nat.mod_mod_of_dvd _ (Nat.pow_dvd_pow 2 (by omega))
  simp only [encode, ctorOf_parts hk, hlen]
  rw [bytesOfBits_congr (hmod.trans hnat), bytesOfBits_bitsOfBytes (by simp; omega), List.take_take, Nat.min_eq_left hle,
    List.take_append_drop]

/-- Settles O55: the decoder reads of the bytes only what lies within the length, and every bit within it is a field's. -/
theorem decodeEncode : Obligations.DecodeEncode := by
  refine ⟨?_, fun bs i rest h => encode_decode h⟩
  intro i rest hp hwf
  obtain ⟨⟨o, f⟩, hof⟩ := Option.isSome_iff_exists.mp hp
  exact decode_encode hof (wellFormed_wordFits hof hwf) rest

end Sys2Proof.Encoding

/-! SUPPORT. Statements settled: the integer instructions (R105, R106), the bit instructions (R107 to R109) and the floating-point
instructions (R113 to R117). -/

namespace Sys2Proof.Compute

open Sys2Proof.Machine Sys2Proof.Claims

/-! Integer results: the operands as numbers, the exact result put into the type. -/

/-- An integer instruction whose result is wrapped or clamped under its saturate control. -/
theorem givesExactly {mk : Form → Instr} {opc : BitVec 8} {alu : BitVec 3 → Bool → Ready → DWord} {v : Form → Ready → Int}
    (he : ∀ f s, exec (mk f) s = runValue opc f s (outWidth (itOf f)) fun r => alu (itOf f) (satOf opc f) r)
    (hsat : ∀ f, (sigOf opc f).satBit = some 3)
    (hv : ∀ f sat r, alu (itOf f) sat r = itResult (itOf f) sat (v f r)) :
    GivesWords mk opc fun f r => exactly opc f (v f r) :=
  givesWords_of he fun f r => by
    rw [hv, itResult_eq, valueWords_eq, typeOf_eq, sat_eq opc f (hsat f)]; rfl

/-- An integer instruction whose result is wrapped. -/
theorem givesWrapped {mk : Form → Instr} {opc : BitVec 8} {alu : BitVec 3 → Ready → DWord} {v : Form → Ready → Int}
    (he : ∀ f s, exec (mk f) s = runValue opc f s (outWidth (itOf f)) fun r => alu (itOf f) r)
    (hv : ∀ f r, alu (itOf f) r = itResult (itOf f) false (v f r)) :
    GivesWords mk opc fun f r => wrapped f (v f r) :=
  givesWords_of he fun f r => by rw [hv, itResult_eq, valueWords_eq, typeOf_eq]; rfl

theorem numA_eq (f : Form) (r : Ready) : itVal (itOf f) r.a = numA f r := itVal_eq _ _
theorem numB_eq (f : Form) (r : Ready) : itVal (itOf f) r.b = numB f r := itVal_eq _ _
theorem numC_eq (f : Form) (r : Ready) : itVal (itOf f) r.c = numC f r := itVal_eq _ _

theorem itWidth_typeOf (f : Form) : itWidth (itOf f) = (typeOf f).2 := by rw [← typeOf_eq, kindOf_eq]
theorem itSigned_typeOf (f : Form) : itSigned (itOf f) = (typeOf f).1 := by rw [← typeOf_eq, kindOf_eq]

theorem add_gives : GivesWords .add 0x20 fun f r => exactly 0x20 f (numA f r + numB f r) :=
  givesExactly (alu := fun it sat r => aluAdd it sat r.a r.b) (fun _ _ => rfl) (fun _ => rfl)
    fun f _ r => by rw [aluAdd, numA_eq, numB_eq]

theorem sub_gives : GivesWords .sub 0x21 fun f r => exactly 0x21 f (numA f r - numB f r) :=
  givesExactly (alu := fun it sat r => aluSub it sat r.a r.b) (fun _ _ => rfl) (fun _ => rfl)
    fun f _ r => by rw [aluSub, numA_eq, numB_eq]

theorem mul_gives : GivesWords .mul 0x23 fun f r => exactly 0x23 f (numA f r * numB f r) :=
  givesExactly (alu := fun it sat r => aluMul it sat r.a r.b) (fun _ _ => rfl) (fun _ => rfl)
    fun f _ r => by rw [aluMul, numA_eq, numB_eq]

theorem mad_gives : GivesWords .mad 0x25 fun f r => exactly 0x25 f (numA f r * numB f r + numC f r) :=
  givesExactly (alu := fun it sat r => aluMad it sat r.a r.b r.c) (fun _ _ => rfl) (fun _ => rfl)
    fun f _ r => by rw [aluMad, numA_eq, numB_eq, numC_eq]

theorem abs_gives : GivesWords .abs 0x27 fun f r => exactly 0x27 f |numA f r| :=
  givesExactly (alu := fun it sat r => aluAbs it sat r.a) (fun _ _ => rfl) (fun _ => rfl) fun f _ r => by
    rw [aluAbs, numA_eq]
    split
    next h => rw [abs_of_neg h]
    next h => rw [abs_of_nonneg (Int.not_lt.mp h)]

theorem mulh_gives : GivesWords .mulh 0x24 fun f r => wrapped f (numA f r * numB f r / 2 ^ (typeOf f).2) :=
  givesWrapped (alu := fun it r => aluMulh it r.a r.b) (fun _ _ => rfl) fun f r => by
    rw [aluMulh, numA_eq, numB_eq, itWidth_typeOf]; push_cast; rfl

theorem min_gives : GivesWords .min 0x28 fun f r => wrapped f (min (numA f r) (numB f r)) :=
  givesWrapped (alu := fun it r => aluMin it r.a r.b) (fun _ _ => rfl) fun f r => by rw [aluMin, numA_eq, numB_eq, Int.min_def]

theorem max_gives : GivesWords .max 0x29 fun f r => wrapped f (max (numA f r) (numB f r)) :=
  givesWrapped (alu := fun it r => aluMax it r.a r.b) (fun _ _ => rfl) fun f r => by rw [aluMax, numA_eq, numB_eq, Int.max_def]

/-- `MADW` computes in 64 bits of the type's signedness (R105). -/
theorem madw_gives : GivesWords .madw 0x26 fun f r =>
    pairRegs (fit (asWidth f 64) (saturates 0x26 f)
      (num (asWidth f 32) r.a * num (asWidth f 32) r.b + num (asWidth f 64) r.c)) :=
  givesWords_of (w := fun _ => 64) (value := fun f r => aluMadw (itOf f) (satOf 0x26 f) r.a r.b r.c) (fun _ _ => rfl)
    fun f r => by
      rw [regs64, aluMadw, itSigned_typeOf, sat_eq 0x26 f rfl]
      simp only [intLow_eq _ 32 (by decide), intLow_eq _ 64 (by decide), packInt_eq _ 64 (by decide) (by decide), clampInt_eq,
        fit, asWidth]

/-- `DOT4` (R105): one register, which holds the type's result. -/
theorem dot4_gives : GivesWords .dot4 0x2A fun f r => oneReg (fit (typeOf f) (saturates 0x2A f)
    (numC f r + ((List.range 4).map fun i => byteNum (f.mod.getLsbD 4) i r.a * byteNum (f.mod.getLsbD 5) i r.b).sum)) :=
  givesWords_of (w := fun _ => 32)
    (value := fun f r => aluDot4 (itOf f) (satOf 0x2A f) (f.mod.getLsbD 4) (f.mod.getLsbD 5) r.a r.b r.c) (fun _ _ => rfl)
    fun f r => by
      have hrange : List.range 4 = [0, 1, 2, 3] := rfl
      simp only [regs32, aluDot4, itResult_eq, numC_eq, byteNum_eq, typeOf_eq, sat_eq 0x2A f rfl, hrange, List.map_cons,
        List.map_nil, List.sum_cons, List.sum_nil, Int.add_assoc, Int.add_zero]

/-- The larger less the smaller of two natural numbers. -/
theorem distance_nat (x y : Nat) : (if x ≤ y then ((y - x : Nat) : Int) else ((x - y : Nat) : Int)) = distance x y := by
  unfold distance; split <;> omega

theorem num_unsigned (w : Nat) (x : DWord) : num (false, w) x = (natLow w x : Nat) := by simp [num, natLow]

theorem sad_gives : GivesWords .sad 0x2B fun f r => oneReg (fit (typeOf f) (saturates 0x2B f)
    (numC f r + if f.mod.getLsbD 4
      then ((List.range 2).map fun i => distance (halfNum i r.a) (halfNum i r.b)).sum
      else ((List.range 4).map fun i => distance (byteNum false i r.a) (byteNum false i r.b)).sum)) :=
  givesWords_of (w := fun _ => 32) (value := fun f r => aluSad (itOf f) (satOf 0x2B f) (f.mod.getLsbD 4) r.a r.b r.c)
    (fun _ _ => rfl) fun f r => by
      have h4 : List.range 4 = [0, 1, 2, 3] := rfl
      have h2 : List.range 2 = [0, 1] := rfl
      simp only [regs32, aluSad, itResult_eq, numC_eq, typeOf_eq, sat_eq 0x2B f rfl, distance_nat, halfNum, byteNum,
        num_unsigned, h4, h2, List.map_cons, List.map_nil, List.sum_cons, List.sum_nil, Int.add_assoc, Int.add_zero]
      split <;> rfl

/-- An instruction whose lanes each complete with a result, in a state that other lanes have written their own results into. -/
theorem gives_of {mk : Form → Instr} {opc : BitVec 8} {body : Form → State → Issue → List (Nat × Prep) → State → Ready → LaneOut}
    {eff : Form → State → Issue → Ready → Res}
    (he : ∀ f s, exec (mk f) s = runLanes opc f s (body f s))
    (hb : ∀ f s iss r, r ∈ readyLanes (prepared s iss opc f) → (s.threads[r.tid]?).isSome → ∀ s', LaneView (idle s) s' r.tid →
      body f s iss (prepared s iss opc f) s' r = .ok s' (eff f s iss r)) : Gives mk opc eff := by
  intro f s iss h
  rw [completes, he]
  exact runLanes_completes h _ fun p hp r hr s' hv => hb f s iss r (readyLanes_mem hp hr) (preparedBy_ready hp hr).2 s' hv

/-- `ADDC` (R106): the sum and its carry, the carry in read from the predicate C where MOD does not give it. -/
theorem addc_gives : Gives .addc 0x22 fun f s _ r =>
    { vals := regsOf (typeOf f) (BitVec.ofNat 64 (carrySum f s r % 2 ^ (typeOf f).2))
      preds := [(f.c.toNat, decide (2 ^ (typeOf f).2 ≤ carrySum f s r))] } :=
  gives_of (body := fun f _ _ _ s r =>
    .ok s { vals := valueWords (outWidth (itOf f)) (addcPair f s r).1, preds := [(f.c.toNat, (addcPair f s r).2)] })
    (fun _ _ => rfl) fun f s iss r _ hsome s' hv => by
    have hpred : predAt s' r.tid f.c.toNat = predicate s r.tid f.c.toNat := pred_view hv hsome f.c.toNat
    have hpair : addcPair f s' r =
        (BitVec.ofNat 64 (carrySum f s r % 2 ^ (typeOf f).2), decide (2 ^ (typeOf f).2 ≤ carrySum f s r)) := by
      rw [addcPair, aluAddc_eq, hpred, typeOf_eq]; rfl
    rw [hpair, valueWords_eq, typeOf_eq]

/-- Settles O1: each integer instruction is the model's `runValue` of its exact result, and `ADDC` a result and a predicate. -/
theorem integerResults : Obligations.IntegerResults :=
  ⟨add_gives, sub_gives, addc_gives, mul_gives, mulh_gives, mad_gives, madw_gives, abs_gives, min_gives, max_gives, dot4_gives,
    sad_gives⟩

/-! Bit results. -/

/-- A bit instruction with a result of its type's width. -/
theorem givesBits {mk : Form → Instr} {opc : BitVec 8} {alu : BitVec 3 → Form → Ready → DWord} {v : Form → Ready → DWord}
    (he : ∀ f s, exec (mk f) s = runValue opc f s (outWidth (itOf f)) fun r => alu (itOf f) f r)
    (hv : ∀ f r, alu (itOf f) f r = v f r) : GivesWords mk opc fun f r => bitRegs f (v f r) :=
  givesWords_of he fun f r => by rw [hv, outWidth_bits]; rfl

theorem widthOf_bitsOf (f : Form) : widthOf (itOf f) = bitsOf f := rfl

theorem and_gives : GivesWords .and 0x30 fun f r =>
    bitRegs f (bitsImage ((r.a &&& maybeNot (f.mod.getLsbD 4) r.b).setWidth (bitsOf f))) :=
  givesBits (alu := fun it f r => aluAnd it (f.mod.getLsbD 4) r.a r.b) (fun _ _ => rfl)
    fun f r => by rw [aluAnd, lowBits_eq, notIf_eq, bitWidth_eq]; rfl

theorem or_gives : GivesWords .or 0x31 fun f r =>
    bitRegs f (bitsImage ((r.a ||| maybeNot (f.mod.getLsbD 4) r.b).setWidth (bitsOf f))) :=
  givesBits (alu := fun it f r => aluOr it (f.mod.getLsbD 4) r.a r.b) (fun _ _ => rfl)
    fun f r => by rw [aluOr, lowBits_eq, notIf_eq, bitWidth_eq]; rfl

theorem xor_gives : GivesWords .xor 0x32 fun f r =>
    bitRegs f (bitsImage ((r.a ^^^ maybeNot (f.mod.getLsbD 4) r.b).setWidth (bitsOf f))) :=
  givesBits (alu := fun it f r => aluXor it (f.mod.getLsbD 4) r.a r.b) (fun _ _ => rfl)
    fun f r => by rw [aluXor, lowBits_eq, notIf_eq, bitWidth_eq]; rfl

theorem bfn_gives : GivesWords .bfn 0x33 fun f r =>
    bitRegs f (bitsImage ((tableBits ((imm32Of f).extractLsb' 0 16) r.dOld r.a r.b r.c).setWidth (bitsOf f))) :=
  givesBits (alu := fun it f r => aluBfn it ((imm32Of f).truncate 16) r.dOld r.a r.b r.c) (fun _ _ => rfl)
    fun f r => by rw [aluBfn_eq, BitVec.truncate, ← BitVec.setWidth_eq_extractLsb' (by decide)]; rfl

theorem fsh_gives : GivesWords .fsh 0x38 fun f r =>
    let w := bitsOf f
    let x := r.b.setWidth w ++ r.a.setWidth w
    let m := countOf r.c % w
    bitRegs f (if f.mod.getLsbD 4 then bitsImage ((x <<< m).extractLsb' w w) else bitsImage ((x >>> m).extractLsb' 0 w)) :=
  givesBits (alu := fun it f r => aluFsh it (f.mod.getLsbD 4) r.a r.b r.c) (fun _ _ => rfl) fun _ _ => aluFsh_eq _ _ _ _ _

/-- Settles O2: each bit instruction is the model's `runValue` of its result. -/
theorem bitResults : Obligations.BitResults :=
  ⟨and_gives, or_gives, xor_gives, bfn_gives,
    givesBits (alu := fun it _ r => aluShl it r.a r.b) (fun _ _ => rfl) fun _ _ => aluShl_eq _ _ _,
    givesBits (alu := fun it _ r => aluShr it r.a r.b) (fun _ _ => rfl) fun _ _ => aluShr_eq _ _ _,
    givesBits (alu := fun it _ r => aluShra it r.a r.b) (fun _ _ => rfl) fun _ _ => aluShra_eq _ _ _,
    givesBits (alu := fun it _ r => aluRol it r.a r.b) (fun _ _ => rfl) fun _ _ => aluRol_eq _ _ _,
    fsh_gives,
    givesWords_of (w := fun _ => 32) (value := fun f r => aluPopc (itOf f) r.a) (fun _ _ => rfl)
      fun _ _ => by rw [regs32, aluPopc_eq, widthOf_bitsOf],
    givesWords_of (w := fun _ => 32) (value := fun f r => aluClz (itOf f) r.a) (fun _ _ => rfl)
      fun _ _ => by rw [regs32, aluClz_eq, widthOf_bitsOf],
    givesBits (alu := fun it _ r => aluBrev it r.a) (fun _ _ => rfl) fun _ _ => aluBrev_eq _ _,
    givesBits (alu := fun it _ r => aluBfe it r.a r.b) (fun _ _ => rfl) fun _ _ => aluBfe_eq _ _ _,
    givesBits (alu := fun it _ r => aluBfi it r.a r.b r.c) (fun _ _ => rfl) fun _ _ => aluBfi_eq _ _ _ _⟩

/-! Floating point: one value and its flags, under the controls of the lane's group. -/

theorem fWidth_eq (f : Form) : fWidth (fOf f) = formatWidth f := rfl

theorem formatWidth_cases (f : Form) : formatWidth f = 32 ∨ formatWidth f = 64 := by
  unfold formatWidth; split
  · exact .inr rfl
  · exact .inl rfl

/-- An instruction that writes a value of a format and raises its flags. -/
theorem givesFloats {mk : Form → Instr} {opc : BitVec 8} {w : Form → Nat} {value : Form → State → Issue → Ready → FRes}
    (he : ∀ f s, exec (mk f) s = runFlagged opc f s (w f) (fun s _ => s) (value f s))
    (hw : ∀ f, w f = 32 ∨ w f = 64) : Gives mk opc fun f s iss r => floats (w f) (value f s iss r) := by
  intro f s iss h
  rw [completes, he, runFlagged_completes h]
  simp only [floats_eq _ (hw f)]

theorem rounds_of {mk : Form → Instr} {opc : BitVec 8} {op : Rnd → Val → Val → Val → Exact}
    (he : ∀ f s, exec (mk f) s = runFloat opc f s op) : Rounds mk opc op :=
  givesFloats (w := formatWidth) he formatWidth_cases

theorem passes_of {mk : Form → Instr} {opc : BitVec 8} {op : Rnd → Val → Val → Exact}
    (he : ∀ f s, exec (mk f) s = runPass opc f s op) : Passes mk opc op :=
  givesFloats (w := formatWidth) he formatWidth_cases

theorem fscale_gives : Gives .fscale 0x5F fun f s _ r => floats (formatWidth f)
    (fApply (formatOf f) (ctlOf 0x5F f s r.tid 0) (fun x _ _ => exactScale x (num (true, 32) r.b)) r.a r.a r.a) :=
  givesFloats (w := formatWidth) (fun f s => by
    simp only [← intLow_eq true 32 (by decide)]; rfl) formatWidth_cases

theorem fdot2_gives : Gives .fdot2 0x60 fun f s _ r => floats 32 (fDot2 (formatOf f) (ctlOf 0x60 f s r.tid 0) r.a r.b r.c) :=
  givesFloats (w := fun _ => 32) (fun _ _ => rfl) fun _ => .inl rfl

/-- Settles O5: each floating-point instruction is the model's `runFloat` or `runPass` of its exact value. -/
theorem floatResults : Obligations.FloatResults :=
  ⟨rounds_of fun _ _ => rfl, rounds_of fun _ _ => rfl, rounds_of fun _ _ => rfl, rounds_of fun _ _ => rfl,
    passes_of fun _ _ => rfl, passes_of fun _ _ => rfl, rounds_of fun _ _ => rfl, rounds_of fun _ _ => rfl,
    rounds_of fun _ _ => rfl, rounds_of fun _ _ => rfl, rounds_of fun _ _ => rfl, rounds_of fun _ _ => rfl,
    rounds_of fun _ _ => rfl, rounds_of fun _ _ => rfl, rounds_of fun _ _ => rfl, fscale_gives, fdot2_gives,
    passes_of fun _ _ => rfl⟩

end Sys2Proof.Compute

/-! SUPPORT. Statements settled: predicate instructions (R102, R103), conversions (R118 to R123), moves and index registers
(R92, R131, R133, R134). -/

namespace Sys2Proof.Compute

open Sys2Proof.Machine Sys2Proof.Claims

/-! Predicates (R102, R103). -/

theorem modThread_self (s : State) (t : Nat) : modThread s t (fun th => th) = s := by
  have : (fun th : Thread => th) = id := rfl
  simp [modThread, modAt, this]

theorem icmp_gives : Gives .icmp 0x10 fun f _ _ r =>
    { preds := [(f.d.toNat, compares (f.mod.extractLsb' 3 3) (numA f r) (numB f r))] } :=
  gives_of (body := fun f _ _ _ s r => .ok s { preds := [(f.d.toNat, aluIcmp (ccOf f) (modIt f.mod) r.a r.b)] })
    (fun _ _ => rfl) fun f s iss r _ _ s' _ => by rw [aluIcmp_eq]; rfl

theorem fcmp_gives : Gives .fcmp 0x11 fun f _ _ r =>
    let v := fCompare (f.mod.extractLsb' 3 3) (formatOf f) r.a r.b
    { preds := [(f.d.toNat, v.1)], flags := v.2 } :=
  gives_of (body := fun f _ _ _ s r =>
    let v := fCompare (ccOf f) (modIt f.mod) r.a r.b
    .ok s { preds := [(f.d.toNat, v.1)], flags := v.2 }) (fun _ _ => rfl) fun _ _ _ _ _ _ _ _ => rfl

theorem plopOp_combine (op : BitVec 2) (a b : Bool) : plopOp op a b = combine op a b := plopOp_eq op a b

theorem plop_gives : Gives .plop 0x12 fun f s _ r =>
    let op := f.mod.extractLsb' 0 2
    let a := xor (predicate s r.tid f.a.toNat) (f.mod.getLsbD 2)
    let b := xor (predicate s r.tid f.b.toNat) (f.mod.getLsbD 3)
    let c := xor (predicate s r.tid f.c.toNat) (f.mod.getLsbD 4)
    { preds := [(f.d.toNat, combine op (combine op a b) c)] } :=
  gives_of (body := fun f _ _ _ s r => .ok s { preds := [(f.d.toNat, plopValue f s r.tid)] }) (fun _ _ => rfl)
    fun f s iss r _ hsome s' hv => by
      have hp : ∀ n, predAt s' r.tid n = predicate s r.tid n := pred_view (s0 := idle s) hv hsome
      simp only [plopValue, hp, plopOp_combine]

/-- `SEL` chooses by the predicate C as the lane has it (R103). -/
theorem selFirst_eq {f : Form} {s s' : State} {t : Nat} (hs : (s.threads[t]?).isSome) (hv : LaneView (idle s) s' t) :
    ((s'.threads[t]?).map (selFirst f)).getD true = xor (predicate s t f.c.toNat) (f.mod.getLsbD 1) := by
  have hp : predAt s' t f.c.toNat = predicate s t f.c.toNat := pred_view (s0 := idle s) hv hs f.c.toNat
  have ht : s'.threads[t]? = s.threads[t]? := hv.thread
  obtain ⟨th, hth⟩ := Option.isSome_iff_exists.mp hs
  have hth' : s'.threads[t]? = some th := ht.trans hth
  rw [← hp, predAt, hth']; rfl

theorem sel_completes {f : Form} {s : State} {iss : Issue} (h : runsBy s iss 0x13 (selSig f) f = true) :
    exec (.sel f) s = .next (afterLanes (idle s) iss.pc f.len.bytes (preparedBy s iss (selSig f) f) (fun _ th => th) fun r =>
      { vals := regsBy (f.mod.getLsbD 0) (if xor (predicate s r.tid f.c.toNat) (f.mod.getLsbD 1) then r.a else r.b) }) := by
  change execSel f s = _
  refine runWith_completes (start := fun s _ => s) h (fun _ th => th) _ rfl (fun _ _ => rfl) fun p hp r hr s' hv => ?_
  simp only [modThread_self, selFirst_eq (preparedBy_ready hp hr).2 hv]
  cases f.mod.getLsbD 0 <;> rfl

/-- The predicates as eight bits, p7 being 1 (R29). -/
theorem predBits_sum (b : BitVec 7) :
    128 + b.toNat = ((List.range 8).map fun i => if decide (i = 7) || b.getLsbD i then 2 ^ i else 0).sum := by
  revert b; decide

theorem pmovGet_gives : Gives .pmovGet 0x14 fun _ s _ r =>
    { vals := oneReg (BitVec.ofNat 64 (((List.range 8).map fun i => if predicate s r.tid i then 2 ^ i else 0).sum)) } :=
  gives_of (body := fun _ _ _ _ s r => .ok s { vals := valueWords 32 (predBits s r.tid) }) (fun _ _ => rfl)
    fun f s iss r _ hsome s' hv => by
      obtain ⟨th, hth⟩ := Option.isSome_iff_exists.mp hsome
      have hth' : s'.threads[r.tid]? = some th := hv.thread.trans hth
      simp only [regs32, predBits, hth', Option.map_some, Option.getD_some, predBits_sum, predicate, hth, Option.any_some]

theorem map_filter_eq_filterMap {α β : Type} (l : List α) (p : α → Bool) (g : α → β) :
    (l.filter p).map g = l.filterMap fun x => if p x then some (g x) else none := by
  induction l with
  | nil => rfl
  | cons x l ih => by_cases h : p x <;> simp [h, ih]

theorem pmovPut_gives : Gives .pmovPut 0x14 fun _ _ _ r =>
    { preds := (List.range 7).filterMap fun i => if r.b.getLsbD i then some (i, r.a.getLsbD i) else none } :=
  gives_of (body := fun _ _ _ _ s r => .ok s { preds := ((List.range 7).filter fun i => r.b.getLsbD i).map fun i => (i, r.a.getLsbD i) })
    (fun _ _ => rfl) fun _ _ _ _ _ _ _ _ => by rw [map_filter_eq_filterMap]

theorem fclass_gives : Gives .fclass 0x15 fun f _ _ r =>
    { preds := [(f.d.toNat, match typeFp (f.mod.extractLsb' 0 4).toNat with
        | some t => r.b.getLsbD (fClass t (r.a.toNat % 2 ^ fpWidth t))
        | none => false)] } :=
  gives_of (body := fun f _ _ _ s r => .ok s { preds := [(f.d.toNat, fclassBit f r.a r.b)] }) (fun _ _ => rfl)
    fun f s iss r _ _ s' _ => by
      rw [fclassBit, modBits_at f.mod 3 0 4 rfl (by decide)]
      cases typeFp (f.mod.extractLsb' 0 4).toNat <;> rfl

/-- Settles O3: `SEL` completes under its own signature, the others under their opcode's. -/
theorem predicateResults : Obligations.PredicateResults :=
  ⟨icmp_gives, fcmp_gives, plop_gives, fun _ _ _ h => sel_completes h, pmovGet_gives, pmovPut_gives, fclass_gives⟩

/-! Conversions (R118 to R123): the generator's advance is the state the lanes start from. -/

theorem converts {mk : Form → Instr} {opc : BitVec 8} {f : Form} {s : State} {iss : Issue} {w : Nat} {value : Issue → Ready → FRes}
    (he : exec (mk f) s = runFlagged opc f s w (convStart opc f) value) (hw : w = 32 ∨ w = 64) (h : runs s iss opc f = true) :
    exec (mk f) s = .next (afterLanes (convStart opc f (idle s) iss) iss.pc f.len.bytes (prepared s iss opc f) (fun _ th => th)
      fun r => floats w (value iss r)) := by
  have hthreads : (convStart opc f (idle s) iss).threads = s.threads := convStart_threads opc f (idle s) iss
  rw [he, runFlagged_start h hthreads]
  simp only [floats_eq w hw]

/-- Settles O6: each conversion is the model's `runFlagged` of its value, `CVT`, `QNT` and `PACK` behind the generator's advance. -/
theorem conversionResults : Obligations.ConversionResults := by
  refine ⟨?_, ?_, ?_, ?_, ?_, fun _ _ _ => rfl⟩
  · intro f s iss h
    have hw : (if typeIs64 f.b.toNat then 64 else 32) = 32 ∨ (if typeIs64 f.b.toNat then 64 else 32) = 64 := by
      cases typeIs64 f.b.toNat
      · exact .inl rfl
      · exact .inr rfl
    exact converts (mk := .cvt) (value := fun iss r =>
      fCvt f.b.toNat f.c.toNat (ctlOf 0x70 f s r.tid (laneU s iss r.lane)) r.a) rfl hw h
  · exact fun f s iss h => converts (mk := .qnt) (value := fun iss r =>
      fQnt f.c.toNat (scaleKind f) (ctlOf 0x71 f s r.tid (laneU s iss r.lane)) r.a r.b) rfl (.inl rfl) h
  · exact givesFloats (mk := .dqnt) (w := fun _ => 32) (value := fun f _ _ r => fDqnt f.c.toNat (scaleKind f) r.a r.b)
      (fun _ _ => rfl) fun _ => .inl rfl
  · exact fun f s iss h => converts (mk := .pack) (value := fun iss r =>
      fPack f.c.toNat (f.mod.getLsbD 5) (ctlOf 0x73 f s r.tid (laneU s iss r.lane))
        (ctlOf 0x73 f s r.tid ((laneBits s iss r.lane).toNat / 65536)) r.dOld r.a r.b) rfl (.inl rfl) h
  · exact givesFloats (mk := .unpk) (w := fun _ => 64) (value := fun f _ _ r => fUnpk f.c.toNat (f.mod.getLsbD 5) r.a)
      (fun _ _ => rfl) fun _ => .inr rfl

/-! Moves and index registers (R92, R131, R133, R134). -/

theorem width0_regs (f : Form) (v : DWord) : valueWords (width0 f) v = regsBy (f.mod.getLsbD 0) v := by
  unfold width0; cases f.mod.getLsbD 0 <;> rfl

theorem nop_gives : Gives .nop 0x00 fun _ _ _ _ => {} :=
  gives_of (body := fun _ _ _ _ s _ => .ok s {}) (fun _ _ => rfl) fun _ _ _ _ _ _ _ _ => rfl

theorem mov_gives : GivesWords .mov 0x84 fun f r => regsBy (f.mod.getLsbD 0) r.a :=
  givesWords_of (w := width0) (value := fun _ r => r.a) (fun _ _ => rfl) fun f r => width0_regs f r.a

theorem movi_gives : GivesWords .movi 0x86 fun f _ => regsBy (f.mod.getLsbD 0) (f.x2 ++ f.x1) :=
  givesWords_of (w := width0) (value := fun f _ => f.x2 ++ f.x1) (fun _ _ => rfl) fun f _ => width0_regs f _

/-- Where `XSET` puts an index register: A's position, above the window's base with anchor (R133). -/
def xsetBase (s : State) (f : Form) (r : Ready) : Nat :=
  (r.a.extractLsb' 0 12).toNat + if f.mod.getLsbD 0 then ((s.threads[r.tid]?).map (·.wb)).getD 0 else 0

theorem natLow_extract (w : Nat) (x : DWord) : natLow w x = (x.extractLsb' 0 w).toNat := by simp [natLow]

theorem xset_completes {f : Form} {s : State} {iss : Issue} (h : runs s iss 0x87 f = true)
    (hb : ∀ r ∈ readyLanes (prepared s iss 0x87 f), xsetBase s f r ≤ 4095) :
    completes (.xset f) 0x87 f s iss fun r =>
      { xset := some (f.d.toNat, ⟨f.mod.getLsbD 0, r.b.extractLsb' 0 10, r.a.extractLsb' 22 6, r.a.extractLsb' 12 10,
          BitVec.ofNat 12 (xsetBase s f r)⟩) } := by
  change execXset f s = _
  refine runLanes_completes h _ fun p hp r hr s' hv => ?_
  have hle := hb r (readyLanes_mem hp hr)
  have ht : s'.threads[r.tid]? = s.threads[r.tid]? := hv.thread
  have hbase : natLow 12 r.a + (if f.mod.getLsbD 0 then ((s'.threads[r.tid]?).map (·.wb)).getD 0 else 0) = xsetBase s f r := by
    rw [ht, natLow_extract]; rfl
  simp only [xsetReg, hbase, if_neg (Nat.not_lt.mpr hle)]

/-- The image of an index register, field by field (R22). -/
theorem xImage_eq (x : XReg) : xImage x = imageOf x := by
  apply BitVec.eq_of_toNat_eq
  have h1 := x.base.isLt
  have h2 := x.bound.isLt
  have h3 := x.stride.isLt
  have h4 := x.offset.isLt
  simp only [xImage, imageOf, BitVec.toNat_append, BitVec.toNat_ofNat, BitVec.toNat_ofBool]
  have app : ∀ {n a b : Nat}, b < 2 ^ n → a <<< n ||| b = a * 2 ^ n + b := fun h => by
    rw [Nat.shiftLeft_eq, Nat.mul_comm, Nat.two_pow_add_eq_or_of_lt h]
  rw [app h4, app h3, app h2, app h1]
  cases x.anchor <;> simp <;> omega

theorem xget_gives : Gives .xget 0x88 fun f s _ r =>
    { vals := pairRegs ((((s.threads[r.tid]?).bind fun th => th.xs[f.a.toNat]?).map imageOf).getD 0) } :=
  gives_of (body := fun f _ _ _ s r => .ok s { vals := valueWords 64 (xgetValue f s r.tid) }) (fun _ _ => rfl)
    fun f s iss r _ _ s' hv => by
      have ht : s'.threads[r.tid]? = s.threads[r.tid]? := hv.thread
      have hi : xImage = imageOf := funext xImage_eq
      rw [regs64, xgetValue, ht, hi]

theorem xadj_gives : Gives .xadj 0x89 fun f _ _ r =>
    { xset := (r.xs[f.d.toNat]?).map fun x => (f.d.toNat, match (f.mod.extractLsb' 0 2).toNat with
        | 0 => { x with offset := r.a.extractLsb' 0 10 }
        | 1 => { x with offset := x.offset + r.a.extractLsb' 0 10 }
        | _ => { x with stride := r.a.extractLsb' 0 6 }) } :=
  gives_of (body := fun f _ _ _ s r =>
    .ok s { xset := (r.xs[f.d.toNat]?).map fun x => (f.d.toNat, xadjReg (modBits f.mod 1 0) x r.a) }) (fun _ _ => rfl)
    fun f s iss r _ _ s' _ => by
      rw [modBits_at f.mod 1 0 2 rfl (by decide)]
      match (f.mod.extractLsb' 0 2).toNat with
      | 0 => rfl
      | 1 => rfl
      | n + 2 => rfl

/-- Settles O7: each of these instructions completes in every active lane with what it names. -/
theorem moveResults : Obligations.MoveResults :=
  ⟨nop_gives, mov_gives, movi_gives, fun _ _ _ h hb => xset_completes h hb, xget_gives, xadj_gives⟩

end Sys2Proof.Compute

/-! SUPPORT. Statements settled: addresses and other lanes (R91, R111, R112, R124 to R132), branches (R93, R98), calls and returns
(R94, R95), exits and loops (R96 to R99). -/

namespace Sys2Proof.Compute

open Sys2Proof.Machine Sys2Proof.Claims

/-! Addresses (R111, R112). -/

theorem lea_gives : GivesWords .lea 0x40 fun f r =>
    pairRegs (r.a + BitVec.ofInt 64 (num (f.mod.getLsbD 3, 32) r.b * 2 ^ (f.mod.extractLsb' 0 3).toNat)) :=
  givesWords_of (w := fun _ => 64) (value := fun f r => aluLea (modBits f.mod 2 0) (f.mod.getLsbD 3) r.a r.b) (fun _ _ => rfl)
    fun f r => by rw [regs64, aluLea_eq, modBits_at f.mod 2 0 3 rfl (by decide)]

theorem tensorAddr_eq (f : Form) (x : Tensor) (a b : DWord) : tensorAddr f x a b =
    (if f.mod.getLsbD 0 then x.base else a)
      + BitVec.ofInt 64 (num (true, 32) b) * ((x.strides[(f.mod.extractLsb' 1 3).toNat]?).getD 0) := by
  rw [tensorAddr, intLow_eq true 32 (by decide), strideOf, modBits_at f.mod 3 1 3 rfl (by decide), BitVec.ofInt_mul,
    BitVec.ofInt_toInt]

theorem taddr_completes {f : Form} {s : State} {iss : Issue} {x : Tensor} (h : runs s iss 0x41 f = true)
    (hx : ∀ r ∈ readyLanes (prepared s iss 0x41 f), ∃ k, contextOf s r.tid = some k ∧ lookupNat k.tensors f.c.toNat = some x)
    (hl : x.layout ≤ 1) :
    completes (.taddr f) 0x41 f s iss fun r => { vals := pairRegs (
      (if f.mod.getLsbD 0 then x.base else r.a)
        + BitVec.ofInt 64 (num (true, 32) r.b) * ((x.strides[(f.mod.extractLsb' 1 3).toNat]?).getD 0)) } := by
  change execTaddr f s = _
  refine runLanes_completes h _ fun p hp r hr s' hv => ?_
  obtain ⟨k, hk, hlook⟩ := hx r (readyLanes_mem hp hr)
  have hctx : contextOf s' r.tid = some k := (contextOf_view hv).trans hk
  have hten : tensorOf s' r.tid f.c.toNat = some x := by rw [tensorOf, hctx]; exact hlook
  simp only [hten, if_pos hl, regs64, tensorAddr_eq]

/-! Instructions that read other lanes (R91, R124, R125, R127 to R130, R132). -/

theorem bpln_gives : Gives .bpln 0x75 fun f s iss r => { vals := oneReg (
    if r.lane < (f.mod.extractLsb' 0 3).toNat then laneWord fun j =>
      (contributor s (prepared s iss 0x75 f) r j).any fun x => x.a.getLsbD r.lane
    else 0) } :=
  gives_of (body := fun f s _ ps s1 r => .ok s1 { vals := valueWords 32 (bplnValue (modBits f.mod 2 0) s ps r) })
    (fun _ _ => rfl) fun f s iss r _ _ s' _ => by rw [regs32, bplnValue, modBits_at f.mod 2 0 3 rfl (by decide)]

theorem bit_fold_eq_sum (g : Nat → Bool) (w : Nat) :
    (List.range w).foldl (fun acc i => acc + (if g i then 2 ^ i else 0)) 0 =
      ((List.range w).map fun i => if g i then 2 ^ i else 0).sum := by
  rw [List.sum_eq_foldl, List.foldl_map]

/-- A code of w bits, sign-extended to 32: one that is not below half its range stands 2^w lower. -/
theorem signExtend_code {w c : Nat} (hc : c < 2 ^ w) (hw : w ≤ 7) :
    (BitVec.ofNat 64 (if 0 < w ∧ 2 ^ (w - 1) ≤ c then c + 2 ^ 32 - 2 ^ w else c) : DWord) =
      ((BitVec.ofNat w c).signExtend 32).setWidth 64 := by
  apply BitVec.eq_of_toNat_eq
  have hpow : (2 : Nat) ^ w ≤ 2 ^ 7 := Nat.pow_le_pow_right (by decide) hw
  rw [BitVec.toNat_setWidth, BitVec.toNat_signExtend, BitVec.toNat_setWidth, BitVec.toNat_ofNat, BitVec.toNat_ofNat,
    Nat.mod_eq_of_lt hc, BitVec.msb_eq_decide, BitVec.toNat_ofNat, Nat.mod_eq_of_lt hc]
  rcases Nat.eq_zero_or_pos w with rfl | hpos
  · obtain rfl : c = 0 := by simpa using hc
    simp
  · by_cases hh : 2 ^ (w - 1) ≤ c
    · simp only [hpos, hh, and_self, if_true, decide_true]
      omega
    · simp only [hpos, hh, and_false, if_false, decide_false, Bool.false_eq_true]
      omega

theorem bunp_gives : Gives .bunp 0x76 fun f s iss r =>
    let w := (f.mod.extractLsb' 0 3).toNat
    let c := ((List.range w).map fun i =>
      if (partnerA s iss (sigOf 0x76 f) f r i).any fun a => a.getLsbD r.lane then 2 ^ i else 0).sum
    { vals := oneReg (if f.mod.getLsbD 3 then ((BitVec.ofNat w c).signExtend 32).setWidth 64 else BitVec.ofNat 64 c) } :=
  gives_of (body := fun f s iss _ s1 r => .ok s1 { vals := valueWords 32 (bunpValue f s iss r) }) (fun _ _ => rfl)
    fun f s iss r _ _ s' _ => by
      have hw : (f.mod.extractLsb' 0 3).toNat ≤ 7 := by have := (f.mod.extractLsb' 0 3).isLt; omega
      rw [regs32, bunpValue, modBits_at f.mod 2 0 3 rfl (by decide)]
      simp only [bit_fold_eq_sum]
      generalize hg : (fun i => (partnerA s iss (sigOf 0x76 f) f r i).any fun a => a.getLsbD r.lane) = g
      have hc := bits_fold_lt g (f.mod.extractLsb' 0 3).toNat
      rw [bit_fold_eq_sum] at hc
      subst hg
      cases hs : f.mod.getLsbD 3
      · simp only [Bool.false_eq_true, false_and, if_false]
      · simp only [true_and, if_true, signExtend_code hc hw]

theorem scmax_gives : Gives .scmax 0x77 fun f s iss r => floats 32
    (fScmax f.c.toNat (f.mod.extractLsb' 0 2) ((contributors s (prepared s iss 0x77 f) r).map (·.a))) :=
  fun f s iss h => by
    change execScmax f s = _
    refine runLanes_completes h _ fun p hp r hr s' hv => ?_
    dsimp only
    rw [floats_eq 32 (.inl rfl)]

/-- `PGATH`'s comparison, by its code (R127). -/
theorem gathTruth_eq (cc m n b : Nat) : gathTruth cc m n b = (match cc with
    | 0 => decide (m = b)
    | 1 => decide (m ≠ b)
    | 2 => decide (m < b)
    | 3 => decide (m ≤ b)
    | 4 => decide (m > b)
    | 5 => decide (m ≥ b)
    | 6 => decide (m = n)
    | _ => decide (0 < m ∧ m < n)) := by
  match cc with
  | 0 | 1 | 2 | 3 | 4 | 5 | 6 => rfl
  | k + 7 => rfl

theorem contains_lanes (l : List (Nat × Bool)) (j : Nat) :
    ((l.filter (·.2)).map (·.1)).contains j = l.any fun p => decide (p.1 = j) && p.2 := by
  induction l with
  | nil => rfl
  | cons p l ih =>
    obtain ⟨k, b⟩ := p
    cases b
    · simp only [List.filter_cons, List.any_cons, Bool.false_eq_true, if_false, Bool.and_false, Bool.false_or, ih]
    · simp only [List.filter_cons, List.any_cons, if_true, List.map_cons, List.contains_cons, ih, Bool.and_true]
      congr 1
      rw [Bool.eq_iff_iff, beq_iff_eq, decide_eq_true_iff]; exact eq_comm

theorem gathValue_eq (form : Nat) (l : List (Nat × Bool)) : gathValue form l = (match form with
    | 0 => laneWord fun j => l.any fun p => decide (p.1 = j) && p.2
    | 1 => BitVec.ofNat 64 (l.filter (·.2)).length
    | _ => BitVec.ofNat 64 (((l.filter (·.2)).map (·.1)).foldl min 32)) := by
  match form with
  | 0 => simp only [gathValue, if_true, contains_lanes]
  | 1 => simp only [gathValue, one_ne_zero, if_false, if_true, List.length_map]
  | k + 2 => rw [gathValue, if_neg (by omega), if_neg (by omega)]; rfl

theorem toNat_eq_three (x : BitVec 2) : x.toNat = 3 ↔ x = 3#2 := by revert x; decide

theorem pgath_gives : Gives .pgath 0x80 fun f s iss r =>
    let l := gathered f s iss r
    let m := (l.filter (·.2)).length
    if f.mod.extractLsb' 0 2 = 3#2 then
      { preds := [(f.d.toNat, match (f.mod.extractLsb' 3 3).toNat with
          | 0 => decide (m = countOf r.b)
          | 1 => decide (m ≠ countOf r.b)
          | 2 => decide (m < countOf r.b)
          | 3 => decide (m ≤ countOf r.b)
          | 4 => decide (m > countOf r.b)
          | 5 => decide (m ≥ countOf r.b)
          | 6 => decide (m = l.length)
          | _ => decide (0 < m ∧ m < l.length))] }
    else { vals := oneReg (match (f.mod.extractLsb' 0 2).toNat with
      | 0 => laneWord fun j => l.any fun p => decide (p.1 = j) && p.2
      | 1 => BitVec.ofNat 64 m
      | _ => BitVec.ofNat 64 (((l.filter (·.2)).map (·.1)).foldl min 32)) } :=
  gives_of (body := fun f s iss _ s1 r =>
    let l := gathered f s iss r
    if modBits f.mod 1 0 = 3 then
      .ok s1 { preds := [(f.d.toNat, gathTruth (modBits f.mod 5 3) (l.filter (·.2)).length l.length (natLow 32 r.b))] }
    else .ok s1 { vals := valueWords 32 (gathValue (modBits f.mod 1 0) l) }) (fun _ _ => rfl)
    fun f s iss r _ _ s' _ => by
      simp only [modBits_at f.mod 1 0 2 rfl (by decide), modBits_at f.mod 5 3 3 rfl (by decide), toNat_eq_three, natLow32_eq,
        regs32, gathTruth_eq, gathValue_eq]
      split <;> rfl

theorem lxch_gives : Gives .lxch 0x81 fun f s iss r =>
    { vals := regsBy (f.mod.getLsbD 5)
        (match lxchSource (f.mod.extractLsb' 0 2).toNat (f.mod.extractLsb' 2 3).toNat r.lane r.b with
         | some j => (partnerA s iss (sigOf 0x81 f) f r j).getD r.a
         | none => r.a) } :=
  gives_of (body := fun f s iss _ s1 r =>
    .ok s1 { vals := valueWords (if f.mod.getLsbD 5 then 64 else 32) (lxchValue f s iss r) }) (fun _ _ => rfl)
    fun f s iss r _ _ s' _ => by
      rw [lxchValue, modBits_at f.mod 1 0 2 rfl (by decide), modBits_at f.mod 4 2 3 rfl (by decide)]
      cases f.mod.getLsbD 5 <;> rfl

theorem natLow_eq_iff (w : Nat) (x y : DWord) : natLow w x = natLow w y ↔ x.setWidth w = y.setWidth w := by
  rw [natLow_eq, natLow_eq, BitVec.toNat_inj]

theorem matchLanes_gives : Gives .matchLanes 0x82 fun f s iss r =>
    let w := if f.mod.getLsbD 0 then 64 else 32
    { vals := oneReg (laneWord fun j =>
        (contributor s (prepared s iss 0x82 f) r j).any fun x => x.a.setWidth w = r.a.setWidth w) } :=
  gives_of (body := fun f s _ ps s1 r =>
    let w := if f.mod.getLsbD 0 then 64 else 32
    .ok s1 { vals := valueWords 32 (laneWord fun j => (contributor s ps r j).any fun x => natLow w x.a = natLow w r.a) })
    (fun _ _ => rfl) fun f s iss r _ _ s' _ => by simp only [natLow_eq_iff, regs32]

theorem gred_gives : Gives .gred 0x83 fun f s iss r => floats 32 (gredTree (f.mod.extractLsb' 0 2) (f.mod.extractLsb' 2 3)
    ((List.range 32).map fun j => (contributor s (prepared s iss 0x83 f) r j).map (·.a))) :=
  fun f s iss h => by
    change execGred f s = _
    refine runLanes_completes h _ fun p hp r hr s' hv => ?_
    dsimp only
    rw [floats_eq 32 (.inl rfl)]

theorem movk_gives : Gives .movk 0x85 fun f s iss r =>
    { vals := regsBy (f.mod.getLsbD 0)
        (((contributor s (prepared s iss 0x85 f) r (countOf r.b % 32)).map (·.a)).getD r.a) } :=
  gives_of (body := fun f s _ ps s1 r =>
    .ok s1 { vals := valueWords (width0 f) (((contributor s ps r (natLow 32 r.b % 32)).map (·.a)).getD r.a) }) (fun _ _ => rfl)
    fun f s iss r _ _ s' _ => by rw [natLow32_eq, width0_regs]

/-- Settles O4: `LEA` is a value, `TADDR` a value where the identifier is found, and the others read partners as prepared. -/
theorem addressLaneResults : Obligations.AddressLaneResults :=
  ⟨⟨lea_gives, fun _ _ _ _ h hx hl => taddr_completes h hx hl⟩, bpln_gives, bunp_gives, scmax_gives, pgath_gives, lxch_gives,
    matchLanes_gives, gred_gives, movk_gives⟩

/-! Branches (R81, R93, R98). -/

theorem bra_completes {f : Form} {s : State} {iss : Issue} (h : runs s iss 0x01 f = true)
    (he : evenTarget (iss.pc + displacement f) = true) :
    exec (.bra f) s = .next (afterLanes (idle s) iss.pc f.len.bytes (prepared s iss 0x01 f)
      (fun _ => outOfLoop (iss.pc + displacement f)) fun _ => { next := .jump (iss.pc + displacement f) }) := by
  change execBra f s = _
  exact runLanes_pre h _ _ (fun _ th => outOfLoop_group _ th) fun _ _ _ _ _ _ => branchTo_ok he

theorem jmp_completes {f : Form} {s : State} {iss : Issue} (h : runs s iss 0x02 f = true)
    (he : ∀ r ∈ readyLanes (prepared s iss 0x02 f), evenTarget r.a = true) :
    exec (.jmp f) s = .next (afterLanes (idle s) iss.pc f.len.bytes (prepared s iss 0x02 f)
      (fun r => outOfLoop r.a) fun r => { next := .jump r.a }) := by
  change execJmp f s = _
  exact runLanes_pre h _ _ (fun _ th => outOfLoop_group _ th) fun _ hp r hr _ _ => branchTo_ok (he r (readyLanes_mem hp hr))

theorem displacement_low (f : Form) : (displacement f).extractLsb' 0 2 = (imm32Of f).extractLsb' 0 2 := by
  ext i hi
  have h1 : i < 64 := by omega
  have h2 : i < 32 := by omega
  simp [displacement, BitVec.getElem_signExtend, h1, h2]

/-- A displacement that is no multiple of four is ILLMOD (R81). -/
theorem illMod_of_displacement {opc : BitVec 8} {f : Form} (ho : opc = 0x01 ∨ opc = 0x03 ∨ opc = 0x07)
    (he : evenTarget (displacement f) = false) : illMod (sigOf opc f) f = true := by
  have hlow : (imm32Of f).extractLsb' 0 2 ≠ 0#2 := by
    rw [← displacement_low]; simpa [evenTarget] using he
  have himm : (sigOf opc f).imm = .disp := by rcases ho with rfl | rfl | rfl <;> rfl
  simp [illMod, himm, hlow]

/-- Settles O8: a target is a multiple of four in every lane, or the lane traps with it. -/
theorem branchResults : Obligations.BranchResults :=
  ⟨fun _ _ _ h he => bra_completes h he, fun _ _ _ h he => jmp_completes h he, fun _ _ ho he => illMod_of_displacement ho he,
    fun _ _ _ _ h he => runLanes_traps (body := fun _ _ s r => branchTo s r r.a) h (branchTo_trap he)⟩

/-! Calls and returns (R17, R18, R94, R95). -/

theorem call_completes {f : Form} {s : State} {iss : Issue} (h : runs s iss 0x03 f = true)
    (hf : ∀ r ∈ readyLanes (prepared s iss 0x03 f), callFits s f r (iss.pc + displacement f)) :
    exec (.call f) s = .next (afterLanes (idle s) iss.pc f.len.bytes (prepared s iss 0x03 f)
      (fun _ => intoFrame (iss.pc + BitVec.ofNat 64 f.len.bytes) f.d.toNat)
      fun _ => { next := .jump (iss.pc + displacement f) }) := by
  change execCall f s = _
  exact runLanes_pre h _ _ (fun _ th => intoFrame_group _ _ th) fun _ hp r hr _ hv => callTo_ok hv (hf r (readyLanes_mem hp hr))

theorem calli_completes {f : Form} {s : State} {iss : Issue} (h : runs s iss 0x04 f = true)
    (hf : ∀ r ∈ readyLanes (prepared s iss 0x04 f), callFits s f r r.a) :
    exec (.calli f) s = .next (afterLanes (idle s) iss.pc f.len.bytes (prepared s iss 0x04 f)
      (fun _ => intoFrame (iss.pc + BitVec.ofNat 64 f.len.bytes) f.d.toNat) fun r => { next := .jump r.a }) := by
  change execCalli f s = _
  exact runLanes_pre h _ _ (fun _ th => intoFrame_group _ _ th) fun _ hp r hr _ hv => callTo_ok hv (hf r (readyLanes_mem hp hr))

theorem modThread_modThread (s : State) (t : Nat) (g h : Thread → Thread) :
    modThread (modThread s t g) t h = modThread s t (h ∘ g) := by
  simp only [modThread, modAt, List.modify_modify_eq]

/-- A return of a lane that is not at depth 0 and whose caller's frame is resident (R95). -/
theorem returnLane_ok {s : State} {r : Ready} {th : Thread} {top fr : Frame} {rest : List Frame}
    (ht : s.threads[r.tid]? = some th) (hf : th.frames = top :: fr :: rest) (hr : th.resident < th.frames.length - 1) :
    returnLane (idle s) r = .ok
      { idle s with seed := s.seed + 1, threads := s.threads.modify r.tid (outOfFrame s.seed (windowOf s r.tid) fr rest) }
      { next := .jump fr.ret } := by
  have ht' : (idle s).threads[r.tid]? = some th := ht
  have hwin : windowOf (modThread (idle s) r.tid fun th => { th with wb := th.wb - fr.slide, frames := fr :: rest }) r.tid =
      windowOf s r.tid := windowOf_modThread (idle s) r.tid r.tid (fun th => { th with wb := th.wb - fr.slide, frames := fr :: rest })
    fun _ => rfl
  have hres : ¬ depthOf th - 1 < th.resident := by unfold depthOf; omega
  simp only [returnLane, ht', hf, if_neg hres, hwin, undefStack]
  have hthreads : (modThread { (modThread (idle s) r.tid fun th => { th with wb := th.wb - fr.slide, frames := fr :: rest }) with
      seed := s.seed + 1 } r.tid fun x => setStacks x (th.wb - fr.slide + windowOf s r.tid)
        ((List.range fr.slide).map fun i => Config.freeReg s.seed (th.wb - fr.slide + windowOf s r.tid + i))).threads =
      s.threads.modify r.tid (outOfFrame s.seed (windowOf s r.tid) fr rest) := by
    simp only [modThread, modAt, idle, List.modify_modify_eq]
    apply List.ext_getElem?
    intro i
    simp only [List.getElem?_modify]
    by_cases hi : r.tid = i
    · subst hi; simp [ht, outOfFrame]
    · simp [hi]
  simp only [modThread, modAt, idle] at hthreads ⊢
  rw [hthreads]

theorem ret_leaves {f : Form} {s : State} {iss : Issue} {r : Ready} {th : Thread} {top fr : Frame} {rest : List Frame}
    (h : Single s iss 0x05 f r) (ht : s.threads[r.tid]? = some th) (hf : th.frames = top :: fr :: rest)
    (hr : th.resident < th.frames.length - 1) :
    exec (.ret f) s = .next (leaves
      { idle s with seed := s.seed + 1, threads := s.threads.modify r.tid (outOfFrame s.seed (windowOf s r.tid) fr rest) }
      iss f r { next := .jump fr.ret }) := by
  change execRet f s = _
  exact runLanes_leaves h (returnLane_ok ht hf hr) (some_of_length (single_sat h) (List.length_modify _ _ _))

/-- A call whose frame does not fit the reservation (R94). -/
theorem callTo_past {s : State} {pc : DWord} {f : Form} {r : Ready} {t : DWord} {th : Thread} (ht : s.threads[r.tid]? = some th)
    (he : evenTarget t = true) (h1 : th.wb + f.d.toNat + windowOf s r.tid - 1 ≤ 4095) (h2 : depthOf th < 4095)
    (hq : resvOf s r.tid < windowOf s r.tid + f.d.toNat) :
    callTo (idle s) pc f r t = .trap ⟨8, depthOf th, 0, windowOf s r.tid + f.d.toNat⟩ := by
  have ht' : (idle s).threads[r.tid]? = some th := ht
  have h0 : t.extractLsb' 0 2 = 0#2 := by simpa [evenTarget] using he
  have hw : windowOf (idle s) r.tid = windowOf s r.tid := rfl
  have hr : resvOf (idle s) r.tid = resvOf s r.tid := rfl
  simp only [callTo, ht', hw, hr, h0]
  rw [if_neg (by simp), if_neg (by omega), if_pos hq]
  rfl

/-- Settles O9: the checks of a call in R94's order, and a return's frame. -/
theorem callResults : Obligations.CallResults :=
  ⟨fun _ _ _ h hf => call_completes h hf, fun _ _ _ h hf => calli_completes h hf,
    fun _ _ _ _ _ _ _ _ h ht hf hr => ret_leaves h ht hf hr,
    fun f _ _ _ _ h ht he h1 h2 hq =>
      runLanes_traps (body := fun iss _ s r => callTo s iss.pc f r (iss.pc + dispOf f)) h (callTo_past ht he h1 h2 hq)⟩

/-! Exits and loops (R31, R96 to R99). -/

theorem exit_ends {s : State} {r : Ready} {th : Thread} (ht : s.threads[r.tid]? = some th) (hu : unattached s r.tid)
    (iss : Issue) (f : Form) : Ended s r th (leaves (exitThread (idle s) r.tid) iss f r { next := .stay }) :=
  exited_ended rfl ht (exitThread_frame (s := idle s) hu (by simp [idle, ht])) iss f

theorem exitThread_some {s : State} {t : Nat} (ht : ((idle s).threads[t]?).isSome) (hu : unattached s t) :
    ((exitThread (idle s) t).threads[t]?).isSome := by
  obtain ⟨⟨gs, ts, cs, he⟩, -⟩ := exitThread_frame (s := idle s) hu ht
  rw [he]
  refine some_of_length ht ?_
  simp only [exitedState, Machine.modCore_threads, List.length_modify]

theorem loopLane_skips {s : State} {pc : DWord} {f : Form} {r : Ready} (hc : r.a.setWidth 32 = 0#32) :
    loopLane s pc f r = .ok s { next := .jump (pc + displacement f) } := by
  have : (r.a.truncate 32 : Word) = 0#32 := hc
  simp only [loopLane, this, if_true]; rfl

theorem enterLoop_takeLoop {s : State} {d c p g x : Nat} {a b : DWord} {v : State × Nat}
    (h : enterLoop s d c p g x a b = some v) : takeLoop s d c p g x a b = some v := by
  unfold enterLoop at h
  split at h
  · cases h
  · exact h

theorem loopLane_enters {s s1 : State} {pc : DWord} {f : Form} {r : Ready} {g : Group} {m : Team} {v : Nat}
    (hc : r.a.setWidth 32 ≠ 0#32) (hg : groupOf s r.tid = some g) (hm : teamOf s r.tid = some m)
    (he : enterLoop (idle s) m.die m.site g.part m.grid (ctxOf s r.tid) (pc + BitVec.ofNat 64 f.len.bytes)
      (pc + displacement f) = some (s1, v)) :
    loopLane (idle s) pc f r = .ok
      { takeGrant s1 m.die m.site r.tid with
        threads := s.threads.modify r.tid (inLoop ⟨pc + BitVec.ofNat 64 f.len.bytes, pc + displacement f, r.a.setWidth 32, v⟩) }
      { next := .jump (pc + BitVec.ofNat 64 f.len.bytes) } := by
  have hc' : (r.a.truncate 32 : Word) ≠ 0#32 := hc
  have hg' : groupOf (idle s) r.tid = some g := hg
  have hm' : teamOf (idle s) r.tid = some m := hm
  have hx : ctxOf (idle s) r.tid = ctxOf s r.tid := rfl
  have hd : dispOf f = displacement f := rfl
  have hthreads : (takeGrant s1 m.die m.site r.tid).threads = s.threads := by
    rw [takeGrant, Machine.modCore_threads, takeLoop_threads (enterLoop_takeLoop he)]; rfl
  simp only [loopLane, if_neg hc', hg', hm', hx, hd, he, modThread, modAt, hthreads]
  rfl

theorem loopLane_waits {s : State} {pc : DWord} {f : Form} {r : Ready} {g : Group} {m : Team}
    (hc : r.a.setWidth 32 ≠ 0#32) (hg : groupOf s r.tid = some g) (hm : teamOf s r.tid = some m)
    (he : enterLoop (idle s) m.die m.site g.part m.grid (ctxOf s r.tid) (pc + BitVec.ofNat 64 f.len.bytes)
      (pc + displacement f) = none) :
    loopLane (idle s) pc f r = .hold (.loopBuffer (pc + BitVec.ofNat 64 f.len.bytes) (pc + displacement f)) := by
  have hc' : (r.a.truncate 32 : Word) ≠ 0#32 := hc
  have hg' : groupOf (idle s) r.tid = some g := hg
  have hm' : teamOf (idle s) r.tid = some m := hm
  have hx : ctxOf (idle s) r.tid = ctxOf s r.tid := rfl
  have hd : dispOf f = displacement f := rfl
  simp only [loopLane, if_neg hc', hg', hm', hx, hd, he]

/-- Settles O10: an unattached thread's end is `exitThread` alone, and `LOOP` skips, enters or waits by its count and buffer. -/
theorem exitLoopResults : Obligations.ExitLoopResults := by
  refine ⟨fun f s iss r th ht hu => ⟨fun h => ?_, fun h hl => ?_⟩, ?_, ?_, ?_⟩
  · refine ⟨_, ?_, exit_ends ht hu iss f⟩
    change execExit f s = _
    exact runLanes_leaves h rfl (exitThread_some (single_sat h) hu)
  · refine ⟨_, ?_, exit_ends ht hu iss f⟩
    change execRet f s = _
    refine runLanes_leaves h ?_ (exitThread_some (single_sat h) hu)
    obtain ⟨fr, hfr⟩ := List.length_eq_one_iff.mp hl
    have ht' : (idle s).threads[r.tid]? = some th := ht
    simp only [returnLane, ht', hfr]
  · intro f s iss r h hc
    change execLoop f s = _
    exact runLanes_leaves h (loopLane_skips hc) (single_sat h)
  · intro f s iss r g m s1 v h hc hg hm he
    change execLoop f s = _
    exact runLanes_leaves h (loopLane_enters hc hg hm he) (some_of_length (single_sat h) (List.length_modify _ _ _))
  · intro f s iss r g m h hc hg hm he
    change execLoop f s = _
    exact runLanes_waits h (loopLane_waits hc hg hm he)

end Sys2Proof.Compute

/-! SUPPORT. Statements settled: memory reads back what is written to it, and the package right after reset. -/

namespace Sys2Proof.Bytes

open Sys2Proof.Machine

theorem memRead_of_unlisted {m : Memory} {a : Nat} (h : ∀ x ∈ m, x.1 ≠ a) : memRead m a = memDefault := by
  induction m with
  | nil => rfl
  | cons x r ih =>
    simp only [memRead, if_neg (h x List.mem_cons_self)]
    exact ih fun y hy => h y (List.mem_cons_of_mem _ hy)

theorem memRead_append_right {l r : Memory} {a : Nat} (h : ∀ x ∈ l, x.1 ≠ a) : memRead (l ++ r) a = memRead r a := by
  induction l with
  | nil => rfl
  | cons x l ih =>
    simp only [List.cons_append, memRead, if_neg (h x List.mem_cons_self)]
    exact ih fun y hy => h y (List.mem_cons_of_mem _ hy)

theorem memRead_append_left {l r : Memory} {a : Nat} (h : ∀ x ∈ r, x.1 ≠ a) : memRead (l ++ r) a = memRead l a := by
  induction l with
  | nil => rw [List.nil_append, memRead_of_unlisted h]; rfl
  | cons x l ih => simp only [List.cons_append, memRead, ih]

/-- The cells of consecutive bytes read as those bytes. -/
theorem memRead_memCells (bs : List Byte) : ∀ a i : Nat, memRead (memCells a bs) (a + i) = (bs[i]?).getD 0 := by
  induction bs with
  | nil => intro a i; rfl
  | cons b bs ih =>
    intro a i
    cases i with
    | zero =>
      simp only [memCells]
      split
      next hb =>
        rw [memRead_of_unlisted fun x hx => by have := memCells_bound (a + 1) bs x hx; omega]
        simpa using hb.symm
      next => simp [memRead]
    | succ i =>
      have hi := ih (a + 1) i
      rw [show a + 1 + i = a + (i + 1) by omega] at hi
      simp only [memCells]
      split
      · simpa using hi
      · simp only [memRead, if_neg (show a ≠ a + (i + 1) by omega)]; simpa using hi

/-- A run of bytes at or below every cell is the bytes one by one. -/
theorem memRun_eq (n : Nat) : ∀ (m : Memory) (a : Nat), m.Pairwise (fun x y => x.1 < y.1) → (∀ x ∈ m, a ≤ x.1) →
    memRun m a n = (List.range n).map fun i => memRead m (a + i) := by
  induction n with
  | zero => intro m a _ _; cases m <;> rfl
  | succ n ih =>
    intro m a hs hb
    have hshift : ∀ m : Memory, ((List.range n).map fun i => memRead m (a + 1 + i)) =
        (List.range n).map (fun i => memRead m (a + (i + 1))) := fun m => by
      simp only [Nat.add_assoc, Nat.add_comm 1]
    rw [List.range_succ_eq_map, List.map_cons, List.map_map]
    match m, hs, hb with
    | [], _, _ =>
      simp only [memRun, memRead, List.replicate_succ, Function.comp_def, List.map_const', List.length_range]
    | (k, v) :: r, hs, hb =>
      have hcons := List.pairwise_cons.1 hs
      have hk : a ≤ k := hb (k, v) List.mem_cons_self
      simp only [memRun]
      split
      next hka =>
        subst hka
        rw [ih r (k + 1) hcons.2 fun x hx => hcons.1 x hx, hshift]
        refine congrArg₂ _ (by simp [memRead]) (List.map_congr_left fun i _ => ?_)
        simp only [Function.comp_def, memRead, if_neg (show k ≠ k + i.succ by omega)]
      next hka =>
        have hlow : ∀ x ∈ (k, v) :: r, a + 1 ≤ x.1 := fun x hx => by
          rcases List.mem_cons.1 hx with rfl | hx
          · show a + 1 ≤ k; omega
          · have := hcons.1 x hx; simp only at this; omega
        rw [ih _ (a + 1) hs hlow, hshift]
        refine congrArg₂ _ ?_ rfl
        exact (memRead_of_unlisted fun x hx => by have := hlow x hx; omega).symm

/-- Consecutive bytes of a memory in canonical form are its bytes one by one. -/
theorem memReadN_eq {m : Memory} (h : Memory.wf m) (a n : Nat) :
    memReadN m a n = (List.range n).map fun i => memRead m (a + i) := by
  have hs := ((memWf_iff m).1 h).1
  have hrun := memRun_eq n (m.dropWhile fun x => x.1 < a) a (hs.sublist (List.dropWhile_sublist _)) (mem_dropWhile_rising hs a)
  have hsplit : ∀ i, memRead m (a + i) = memRead (m.dropWhile fun x => x.1 < a) (a + i) := fun i => by
    conv_lhs => rw [← List.takeWhile_append_dropWhile (p := fun x => decide (x.1 < a)) (l := m)]
    refine memRead_append_right fun x hx => ?_
    have := List.mem_takeWhile_imp hx
    simp only [decide_eq_true_eq] at this; omega
  rw [memReadN, hrun]
  simp only [hsplit]

/-- A byte that a write covers reads as written. -/
theorem memRead_memWriteN_inside {m : Memory} (h : Memory.wf m) (a : Nat) (bs : List Byte) (i : Nat) (hi : i < bs.length) :
    memRead (memWriteN m a bs) (a + i) = (bs[i]?).getD 0 := by
  have hs := ((memWf_iff m).1 h).1
  unfold memWriteN
  rw [memRead_append_left fun x hx => by have := mem_dropWhile_rising hs (a + bs.length) x hx; omega,
    memRead_append_right fun x hx => by have := List.mem_takeWhile_imp hx; simp only [decide_eq_true_eq] at this; omega,
    memRead_memCells]

/-- A byte that a write does not cover reads as before. -/
theorem memRead_memWriteN_outside {m : Memory} (h : Memory.wf m) (a : Nat) (bs : List Byte) (b : Nat) (hb : b < a ∨ a + bs.length ≤ b) :
    memRead (memWriteN m a bs) b = memRead m b := by
  have hs := ((memWf_iff m).1 h).1
  have hcells : ∀ x ∈ memCells a bs, x.1 ≠ b := fun x hx => by have := memCells_bound a bs x hx; omega
  unfold memWriteN
  rcases hb with hb | hb
  · conv_rhs => rw [← List.takeWhile_append_dropWhile (p := fun x => decide (x.1 < a)) (l := m)]
    rw [List.append_assoc, memRead_append_left fun x hx => ?_, memRead_append_left fun x hx => ?_]
    · have := mem_dropWhile_rising hs a x hx; omega
    · rcases List.mem_append.1 hx with hx | hx
      · exact hcells x hx
      · have := mem_dropWhile_rising hs (a + bs.length) x hx; omega
  · conv_rhs => rw [← List.takeWhile_append_dropWhile (p := fun x => decide (x.1 < a + bs.length)) (l := m)]
    rw [memRead_append_right fun x hx => ?_, memRead_append_right fun x hx => ?_]
    · have := List.mem_takeWhile_imp hx; simp only [decide_eq_true_eq] at this; omega
    · rcases List.mem_append.1 hx with hx | hx
      · have := List.mem_takeWhile_imp hx; simp only [decide_eq_true_eq] at this; omega
      · exact hcells x hx

/-- Settles O60: a read of a canonical memory is its bytes one by one, and a write's cells stand between the cells below and above. -/
theorem memoryReadWrite : Obligations.MemoryReadWrite := by
  intro m a bs h
  refine ⟨?_, memRead_memWriteN_inside h a bs, memRead_memWriteN_outside h a bs⟩
  rw [memReadN_eq (memWriteN_wf h a bs)]
  refine List.ext_getElem (by simp) fun i hi hi' => ?_
  simp only [List.getElem_map, List.getElem_range]
  rw [memRead_memWriteN_inside h a bs i hi', List.getElem?_eq_getElem hi', Option.getD_some]

end Sys2Proof.Bytes

/-! SUPPORT. Statement settled: the package right after reset. -/

namespace Sys2Proof.AfterReset

open Sys2Proof.Machine

/-- Every home of the package right after reset is a fresh one. -/
theorem reset_home {i : Nat} {h : Home} (hh : State.reset.homes[i]? = some h) : h = Home.fresh := by
  have hmem : h ∈ List.replicate 12 Home.fresh := List.mem_of_getElem? hh
  exact List.eq_of_mem_replicate hmem

theorem reset_keyAt (home slot : Nat) : keyAt State.reset home slot = if slot = 0 then ⟨1, 0#8, 0⟩ else ⟨0, 0#8, 0⟩ := by
  unfold keyAt
  cases hh : State.reset.homes[home]? with
  | none => rfl
  | some h => rw [reset_home hh]; rfl

theorem reset_phyAt (b : PhyBlock) : phyAt State.reset b = phyFresh b := by
  unfold phyAt
  cases hh : State.reset.homes[b.stack]? with
  | none => rfl
  | some h => rw [reset_home hh]; rfl

/-- A register of a block that nothing has written. -/
theorem phyReg_phyFresh (b : PhyBlock) (off : Nat) :
    phyReg (phyFresh b) off = if (0x100 ≤ off ∧ off ≤ 0x180) ∨ (0x200 ≤ off ∧ off ≤ 0x280) then 32 else 0 := rfl

theorem reset_delays (b : PhyBlock) (i : Nat) (hi : i ≤ 32) :
    phyReg (phyAt State.reset b) (0x100 + 4 * i) = 32 ∧ phyReg (phyAt State.reset b) (0x200 + 4 * i) = 32 := by
  rw [reset_phyAt, phyReg_phyFresh, phyReg_phyFresh]
  exact ⟨if_pos (.inl (by omega)), if_pos (.inr (by omega))⟩

/-- Settles O58: the fields are those of the reset state; a home's keys and registers are those of a fresh home. -/
theorem resetValues : Obligations.ResetValues := by
  refine ⟨rfl, rfl, rfl, rfl, rfl, rfl, rfl, rfl, rfl, rfl, rfl, rfl, reset_memory, fun _ => rfl, rfl, ?_, ?_,
    rfl, rfl, rfl, rfl, rfl, rfl, rfl, rfl, rfl⟩
  · intro h
    refine ⟨by rw [reset_keyAt]; rfl, fun slot hs => ?_⟩
    rw [reset_keyAt, if_neg (by omega)]
  · intro b i hi
    obtain ⟨hrd, hwr⟩ := reset_delays b i hi
    refine ⟨hrd, hwr, ?_, ?_, ?_⟩ <;> rw [reset_phyAt] <;> rfl

end Sys2Proof.AfterReset

/-! SUPPORT. Statement settled: which move a step makes, and in which state. -/

namespace Sys2Proof.Moves

open Sys2Proof.Machine Sys2Proof.Laws Sys2Proof.Claims

/-- Little-endian bytes as a number. -/
theorem bitsOfBytes_eq_valueOf (bs : List Byte) : bitsOfBytes bs = valueOf bs := by
  induction bs with
  | nil => rfl
  | cons b bs ih =>
    rw [show bitsOfBytes (b :: bs) = b.toNat + 256 * bitsOfBytes bs from rfl, ih]; rfl

/-! A step, move by move. -/

variable {s : State}

theorem step_running (h : s.clockStopped = false) : step s = match nextMove (settleReady s) with
    | .run i => exec i (takeMove (settleReady s) i)
    | .start t => .next (startIteration (takeChoice (settleReady s)) t)
    | .preempt m => .next (preemptStep (takeChoice (settleReady s)) m)
    | .error e => .next (hwError { settleReady s with errors := (settleReady s).errors.tail } e)
    | .message n bs => serveMessage n bs { settleReady s with inbox := (settleReady s).inbox.tail }
    | .idle => .next (passClk (takeChoice (settleReady s)))
    | .issue x =>
      match decode (issueBytes (settleReady s) x) with
      | .error e => .next (badInstruction (beginIssue (takeChoice (settleReady s)) x (classF (headOpcode (issueBytes (settleReady s) x)))) x
          (issueBytes (settleReady s) x) e)
      | .ok (i, _) => exec i (beginIssue (takeChoice (settleReady s)) x (classF (headOpcode (issueBytes (settleReady s) x)))) := by
  have hn : ¬ s.clockStopped = true := by rw [h]; decide
  exact if_neg hn

theorem step_of_run {i : Instr} (h : s.clockStopped = false) (hm : nextMove (settleReady s) = .run i) :
    step s = exec i (takeMove (settleReady s) i) := by rw [step_running h, hm]

theorem step_of_issue_ok {x : Issue} {i : Instr} {rest : List Byte} (h : s.clockStopped = false)
    (hm : nextMove (settleReady s) = .issue x) (hd : decode (issueBytes (settleReady s) x) = .ok (i, rest)) :
    step s = exec i (beginIssue (takeChoice (settleReady s)) x (classF (headOpcode (issueBytes (settleReady s) x)))) := by
  rw [step_running h, hm]; simp only [hd]

theorem step_of_issue_error {x : Issue} {e : DecodeError} (h : s.clockStopped = false)
    (hm : nextMove (settleReady s) = .issue x) (hd : decode (issueBytes (settleReady s) x) = .error e) :
    step s = .next (badInstruction (beginIssue (takeChoice (settleReady s)) x (classF (headOpcode (issueBytes (settleReady s) x)))) x
      (issueBytes (settleReady s) x) e) := by
  rw [step_running h, hm]; simp only [hd]

/-! What settling and the start of an issue leave as it was. -/

theorem settleReady_keeps (s : State) : ∃ cs ts, settleReady s = { s with cores := cs, threads := ts } := by
  obtain ⟨cs, f, h, -⟩ := settleReady_frame s
  exact ⟨cs, _, h⟩

/-- Settling gives a thread at most an age of now. -/
theorem settleReady_thread {k : Nat} {th u : Thread} (ht : s.threads[k]? = some th) (hu : (settleReady s).threads[k]? = some u) :
    u = { th with age := u.age, promoted := u.promoted } ∧ (u.age ≠ th.age → u.age = s.clk) := by
  obtain ⟨cs, f, h, hf⟩ := settleReady_frame s
  rw [h] at hu
  simp only [List.getElem?_mapIdx, ht, Option.map_some, Option.some.injEq] at hu
  rcases hf k th with hk | hk
  · rw [hk] at hu; subst hu; exact ⟨rfl, fun hne => absurd rfl hne⟩
  · rw [hk] at hu; subst hu; exact ⟨rfl, fun _ => rfl⟩

theorem beginIssue_threads (s : State) (x : Issue) (b : Bool) :
    (beginIssue s x b).threads = s.threads.mapIdx fun k th =>
      if k ∈ x.lanes.map (·.2) then { th with wait := .ready, counted := some x.pc } else th := by
  simp only [beginIssue, modCore_threads]
  refine congrArg (List.mapIdx · s.threads) (funext fun k => funext fun th => if_congr ?_ rfl rfl)
  rw [List.any_eq_true, List.mem_map]
  simp only [decide_eq_true_eq]

/-- The state in which an issued instruction executes. -/
theorem beginIssue_state (s : State) (x : Issue) (b : Bool) :
    let t := beginIssue (takeChoice (settleReady s)) x b
    t.cur = some x ∧ t.clk = s.clk ∧ t.seed = s.seed + 1 ∧ t.mem = s.mem ∧ t.homes = s.homes ∧ t.groups = s.groups ∧
    t.threads = (settleReady s).threads.mapIdx fun k th =>
      if k ∈ x.lanes.map (·.2) then { th with wait := .ready, counted := some x.pc } else th := by
  obtain ⟨cs, ts, h⟩ := settleReady_keeps s
  refine ⟨rfl, ?_, ?_, ?_, ?_, ?_, beginIssue_threads _ _ _⟩ <;> simp [beginIssue, takeChoice, h]

/-! Which move comes next. -/

theorem nextMove_agenda {i : Instr} {l : List Instr} (h : s.agenda = i :: l) : nextMove s = .run i := by
  simp only [nextMove, h]

theorem nextMove_error {e : HwError} {l : List HwError} (ha : s.agenda = []) (h : s.errors = e :: l) : nextMove s = .error e := by
  simp only [nextMove, ha, h]

theorem nextMove_message {m : Nat × List Byte} {l : List (Nat × List Byte)} (ha : s.agenda = []) (he : s.errors = [])
    (h : s.inbox = m :: l) : nextMove s = .message m.1 m.2 := by
  simp only [nextMove, ha, he, h]

theorem step_of_agenda {i : Instr} {l : List Instr} (h : s.clockStopped = false) (ha : s.agenda = i :: l) :
    step s = exec i { settleReady s with agenda := l } := by
  obtain ⟨cs, ts, hs⟩ := settleReady_keeps s
  have ha' : (settleReady s).agenda = i :: l := by rw [hs]; exact ha
  rw [step_of_run h (nextMove_agenda ha')]
  simp only [takeMove, ha']

theorem step_of_error {e : HwError} {l : List HwError} (h : s.clockStopped = false) (ha : s.agenda = []) (he : s.errors = e :: l) :
    step s = .next (hwError { settleReady s with errors := l } e) := by
  obtain ⟨cs, ts, hs⟩ := settleReady_keeps s
  have he' : (settleReady s).errors = e :: l := by rw [hs]; exact he
  rw [step_running h, nextMove_error (by rw [hs]; exact ha) he']
  simp only [he', List.tail_cons]

theorem step_of_message {n : Nat} {bs : List Byte} {l : List (Nat × List Byte)} (h : s.clockStopped = false) (ha : s.agenda = [])
    (he : s.errors = []) (hi : s.inbox = (n, bs) :: l) : step s = serveMessage n bs { settleReady s with inbox := l } := by
  obtain ⟨cs, ts, hs⟩ := settleReady_keeps s
  have hi' : (settleReady s).inbox = (n, bs) :: l := by rw [hs]; exact hi
  rw [step_running h, nextMove_message (by rw [hs]; exact ha) (by rw [hs]; exact he) hi']
  simp only [hi', List.tail_cons]

/-! Messages of unlisted codes (R345). -/

theorem requestOf_unlisted (h : HostHead) {bs : List Byte} (hc : valueOf (bs.take 1) = 0 ∨ 12 < valueOf (bs.take 1)) :
    requestOf h bs = none := by
  have hcode : messageField bs 0 1 = valueOf (bs.take 1) := by rw [messageField, List.drop_zero, bitsOfBytes_eq_valueOf]
  unfold requestOf
  rw [hcode]
  dsimp only
  split
  case h_13 => rfl
  all_goals omega

/-- A message that the device does not take is answered with status 1 while the Lode ports are up. -/
theorem refuseMessage_up (h : HostHead) (hup : s.lodeUp = true) : refuseMessage h s = answered s h 1 0 := by
  unfold refuseMessage served
  rw [hup]
  simp only [Bool.not_true, Bool.false_eq_true, if_false, ite_self]
  rfl

theorem headOf_eq (n : Nat) (bs : List Byte) :
    headOf n bs = ⟨n, valueOf ((bs.drop 2).take 2), valueOf ((bs.drop 4).take 4)⟩ := by
  simp only [headOf, messageField, bitsOfBytes_eq_valueOf]

theorem step_of_unlisted {n : Nat} {bs : List Byte} {l : List (Nat × List Byte)} (h : s.clockStopped = false) (ha : s.agenda = [])
    (he : s.errors = []) (hi : s.inbox = (n, bs) :: l) (hup : s.lodeUp = true)
    (hc : valueOf (bs.take 1) = 0 ∨ 12 < valueOf (bs.take 1)) :
    step s = .next (answered { settleReady s with inbox := l } ⟨n, valueOf ((bs.drop 2).take 2), valueOf ((bs.drop 4).take 4)⟩ 1 0) := by
  obtain ⟨cs, ts, hs⟩ := settleReady_keeps s
  rw [step_of_message h ha he hi, serveMessage, requestOf_unlisted _ hc, ← headOf_eq]
  dsimp only
  rw [refuseMessage_up]
  rw [hs]; exact hup

/-! A package whose clocks have stopped (R359, R371). -/

theorem step_stopped (h : s.clockStopped = true) : step s = stepStopped s := by
  unfold step; rw [if_pos h]

theorem dropWhile_of_skipped {l : List Instr} {r : List Instr} (hl : ∀ j ∈ l, isReset j = false) :
    (l ++ r).dropWhile (fun i => !isReset i) = r.dropWhile fun i => !isReset i := by
  rw [List.dropWhile_append_of_pos fun j hj => by rw [hl j hj]; rfl]

theorem stepStopped_fault (ha : ∀ i ∈ s.agenda, isReset i = false) : stepStopped s = .fault .clockStopped := by
  have hd := dropWhile_of_skipped (r := []) ha
  rw [List.append_nil] at hd
  simp only [stepStopped, hd, List.dropWhile_nil]

theorem stepStopped_reset {l r : List Instr} {i : Instr} (ha : s.agenda = l ++ i :: r) (hl : ∀ j ∈ l, isReset j = false)
    (hi : isReset i = true) : stepStopped s = exec i { s with agenda := r } := by
  have hd : s.agenda.dropWhile (fun i => !isReset i) = i :: r := by
    rw [ha, dropWhile_of_skipped hl, List.dropWhile_cons_of_neg (by rw [hi]; decide)]
  simp only [stepStopped, hd]

/-- Settles O57: `step` is its next move, made in the settled state. -/
theorem stepRunsDecoded : Obligations.StepRunsDecoded := by
  refine ⟨fun s x i rest h hm hd => ⟨step_of_issue_ok h hm hd, beginIssue_state s x _⟩, fun s => ⟨?_, fun k th u => settleReady_thread⟩,
    fun s x e => step_of_issue_error, fun s i => step_of_run, fun s i l => step_of_agenda,
    fun s m h hm => by rw [step_running h, hm], fun s t h hm => by rw [step_running h, hm],
    fun s h hm => by rw [step_running h, hm], fun s e l => step_of_error,
    fun s n bs l h ha he hi => ⟨fun i hr => ?_, fun hup => step_of_unlisted h ha he hi hup⟩,
    fun s h => ⟨fun ha => by rw [step_stopped h, stepStopped_fault ha],
      fun l i r ha hl hi => by rw [step_stopped h, stepStopped_reset ha hl hi]⟩⟩
  · obtain ⟨cs, f, hs, -⟩ := settleReady_frame s
    rw [hs]; exact List.length_mapIdx
  · rw [step_of_message h ha he hi, serveMessage, hr]

end Sys2Proof.Moves

/-! SUPPORT. Statement settled: the copy of a range of registers (R135). -/

namespace Sys2Proof.Ranges

open Sys2Proof.Machine Sys2Proof.Laws Sys2Proof.Claims

/-! How one lane is prepared. -/

/-- The lane of an issue group of one lane, and its thread. -/
theorem alone_lane {s : State} {iss : Issue} {opc : BitVec 8} {sig : Thread → Sig} {f : Form} {r : Ready} {th : Thread}
    (h : Alone s iss opc sig f r) (ht : s.threads[r.tid]? = some th) :
    ∃ lane, iss.lanes = [(lane, r.tid)] ∧ prepLane (idle s) iss (sig th) f lane r.tid = .ready r := by
  have honly := h.only
  simp only [preparedBy, prepAll] at honly
  obtain ⟨⟨lane, t⟩, hl, hp⟩ := List.map_eq_singleton_iff.1 honly
  simp only [Prod.mk.injEq] at hp
  obtain ⟨rfl, hp⟩ := hp
  have ht' : (idle s).threads[r.tid]? = some th := ht
  rw [ht'] at hp
  exact ⟨lane, hl, hp⟩

/-- A lane that is ready holds on no register, and its guard holds. -/
theorem prepLane_ready {s : State} {iss : Issue} {sg : Sig} {f : Form} {lane t : Nat} {th : Thread} {r : Ready}
    (ht : s.threads[t]? = some th) (h : prepLane s iss sg f lane t = .ready r) : prepActive s iss sg f lane t th = .ready r := by
  simp only [prepLane, ht] at h
  split at h
  · cases h
  · split at h
    · exact h
    · cases h

/-- A lane whose guard holds and whose registers are not pending is prepared as an active one. -/
theorem prepLane_active {s : State} {iss : Issue} {sg : Sig} {f : Form} {lane t : Nat} {th : Thread} (ht : s.threads[t]? = some th)
    (hu : usesPending s t th sg f = none) (hg : guardHolds th f = true) :
    prepLane s iss sg f lane t = prepActive s iss sg f lane t th := by
  simp only [prepLane, ht, hu, hg, if_true]

/-- An issue group of one lane whose preparation finds a trap takes it. -/
theorem runLanes_prepTrap {opc : BitVec 8} {f : Form} {s : State} {body : Issue → List (Nat × Prep) → State → Ready → LaneOut}
    {iss : Issue} {lane t : Nat} {th : Thread} {i : TrapInfo} (hc : s.cur = some iss) (hl : iss.lanes = [(lane, t)])
    (hg : groupTrap s iss opc (sigOf opc f) f = none) (ht : s.threads[t]? = some th)
    (hp : prepLane (idle s) iss (sigOf opc f) f lane t = .trap i) :
    runLanes opc f s body = .next (trapped (idle s) iss opc f t i) := by
  have hps : prepAll (idle s) iss (fun _ => sigOf opc f) f = [(t, .trap i)] := by
    have ht' : (idle s).threads[t]? = some th := ht
    simp only [prepAll, hl, List.map_cons, List.map_nil, ht', hp]
  have hri : readyIssue iss [(t, .trap i)] = iss := by
    rw [readyIssue, hl]; simp only [isHeld, List.any_cons, List.any_nil, Bool.and_false, Bool.or_false, Bool.not_false,
      List.filter_true, ← hl]
  have hidle : ({ s with cur := none } : State) = idle s := rfl
  simp only [runLanes, runWith, hc, hg, hidle, hps, hri, ite_self]
  rfl

/-! `RCPY`'s own signature and preparation. -/

theorem rcpy_roles (f : Form) : (sigOf 0x8A f).b = .count ∧ roleA (sigOf 0x8A f) = .range false ∧ roleB (sigOf 0x8A f) = .count ∧
    (sigOf 0x8A f).c = .off ∧ (sigOf 0x8A f).a = .range false := ⟨rfl, rfl, rfl, rfl, rfl⟩

/-- The lane whose count and ranges are resolved is ready with the registers of A's range. -/
theorem rangeReady_fields {s : State} {iss : Issue} {sg : Sig} {f : Form} {lane t n : Nat} {th : Thread} {a d : Loc} {xs : List XReg}
    {r : Ready} (h : rangeReady s iss sg f lane t th n a d xs = .ready r) :
    r.b = BitVec.ofNat 64 n ∧ r.d = d ∧ r.xs = xs ∧
      r.vals = readRegs s (sourceAt s iss lane t (laneSource sg f 0) (extEdge (extWord sg f)) f.a a) n := by
  simp only [rangeReady] at h
  split at h
  · cases h
  · split at h
    · cases h
    · cases h
    · cases h; exact ⟨rfl, rfl, rfl, rfl⟩

/-- What a ready lane's preparation has found: a count of 1 to 32 and both ranges. -/
theorem prepRange_ready {s : State} {iss : Issue} {sg : Sig} {f : Form} {lane t : Nat} {th : Thread} {r : Ready}
    (h : prepRange s iss sg f lane t th = .ready r) :
    ∃ n a xs ys, 1 ≤ n ∧ n ≤ 32 ∧ rangeAt th (windowOf s t) f.a n 0 th.xs = .ok (a, xs) ∧
      rangeAt th (windowOf s t) f.d n 3 ys = .ok (r.d, r.xs) ∧ r.b = BitVec.ofNat 64 n ∧
      r.vals = readRegs s (sourceAt s iss lane t (laneSource sg f 0) (extEdge (extWord sg f)) f.a a) n := by
  simp only [prepRange] at h
  split at h
  · cases h
  next b xsb hb =>
    split at h
    next p _ _ hp =>
      split at hp
      · cases hp; cases h
      · cases hp
    · cases h
    · cases h
    · split at h
      · cases h
      next hn =>
        split at h
        · cases h
        next a xs ha =>
          split at h
          · cases h
          next d xs' hd =>
            obtain ⟨hb', hd', hxs', hvals⟩ := rangeReady_fields h
            subst hd' hxs'
            exact ⟨_, a, xs, xsb, by omega, by omega, ha, hd, hb', hvals⟩

theorem prepActive_range {s : State} {iss : Issue} {f : Form} {lane t : Nat} {th : Thread} {r : Ready}
    (h : prepActive s iss (sigOf 0x8A f) f lane t th = .ready r) : prepRange s iss (sigOf 0x8A f) f lane t th = .ready r := by
  simp only [prepActive] at h
  split at h
  · cases h
  · rwa [if_pos (rcpy_roles f).1] at h

/-- A source field whose lane source is the lane itself reads its own place. -/
theorem sourceAt_own (s : State) (iss : Issue) (lane t : Nat) (edge : BitVec 2) (x : BitVec 10) (own : Loc) :
    sourceAt s iss lane t 0#2 edge x own = some (t, own) := rfl

theorem countOf_ofNat {n : Nat} (h : n ≤ 32) : countOf (BitVec.ofNat 64 n) = n := by
  simp only [countOf, BitVec.toNat_setWidth, BitVec.toNat_ofNat]; omega

/-- The lane of a copy that runs: a count of 1 to 32, and the registers that it reads. -/
theorem rcpy_lane {f : Form} {s : State} {iss : Issue} {r : Ready} {th : Thread} (h : Single s iss 0x8A f r)
    (ht : s.threads[r.tid]? = some th) :
    1 ≤ countOf r.b ∧ countOf r.b ≤ 32 ∧ r.vals.length = countOf r.b ∧
    ∃ a xs ys, rangeAt th (windowOf s r.tid) f.a (countOf r.b) 0 th.xs = .ok (a, xs) ∧
      rangeAt th (windowOf s r.tid) f.d (countOf r.b) 3 ys = .ok (r.d, r.xs) ∧
      (laneSource (sigOf 0x8A f) f 0 = 0#2 → r.vals = (List.range (countOf r.b)).map fun i => readLoc s r.tid a i) := by
  obtain ⟨lane, -, hp⟩ := alone_lane h ht
  have ht' : (idle s).threads[r.tid]? = some th := ht
  obtain ⟨n, a, xs, ys, h1, h32, ha, hd, hb, hvals⟩ := prepRange_ready (prepActive_range (prepLane_ready ht' hp))
  rw [hb, countOf_ofNat h32]
  refine ⟨h1, h32, by rw [hvals, readRegs, List.length_map, List.length_range], a, xs, ys, ha, hd, fun hls => ?_⟩
  rw [hvals, hls, sourceAt_own]
  rfl

/-! A count that `RCPY` does not take. -/

/-- The count operand of an issue group of which no lane has an illegal operand is a small value, an immediate or a uniform
register, and is the lane's own. -/
theorem count_field {l : Limits} {sg : Sig} {f : Form} {x : BitVec 10} {ls : BitVec 2} (h : fieldBad l sg f .count x ls = false) :
    (specIsSmall x = true ∨ x = immSpec ∨ specIsUniform x = true) ∧ ls = 0#2 := by
  simp only [fieldBad, Bool.or_eq_false_iff, Bool.not_eq_false', Bool.or_eq_true, decide_eq_true_eq] at h
  obtain ⟨⟨-, hls⟩, hx⟩ := h
  have hx' : specIsSmall x = true ∨ x = immSpec ∨ specIsUniform x = true := by tauto
  refine ⟨hx', ?_⟩
  have hnd : specIsDirect x = false := by
    rcases hx' with hs | hs | hs
    · simp only [specIsSmall, specIsDirect, decide_eq_true_eq, decide_eq_false_iff_not] at hs ⊢; omega
    · subst hs; rfl
    · simp only [specIsUniform, specIsDirect, decide_eq_true_eq, decide_eq_false_iff_not] at hs ⊢; omega
  simpa [hnd] using hls

/-- The operands of an issue group of one lane that no check finds illegal. -/
theorem groupTrap_fields {s : State} {iss : Issue} {opc : BitVec 8} {sg : Sig} {f : Form} {lane t : Nat} (hl : iss.lanes = [(lane, t)])
    (h : groupTrap s iss opc sg f = none) : illOpnd (limitsOf s t) sg f = false := by
  simp only [groupTrap, hl, List.any_cons, List.any_nil, Bool.or_false] at h
  by_contra hne
  rw [Bool.not_eq_false] at hne
  rw [hne] at h
  rw [if_pos rfl] at h
  split at h
  · cases h
  · split at h <;> cases h

theorem rcpy_fields {s : State} {iss : Issue} {f : Form} {lane t : Nat} (hl : iss.lanes = [(lane, t)])
    (h : groupTrap s iss 0x8A (sigOf 0x8A f) f = none) :
    specIsVec f.a = true ∧ (specIsSmall f.b = true ∨ f.b = immSpec ∨ specIsUniform f.b = true) ∧ laneSource (sigOf 0x8A f) f 1 = 0#2 := by
  have hi := groupTrap_fields hl h
  simp only [illOpnd, Bool.or_eq_false_iff] at hi
  obtain ⟨⟨⟨ha, hb⟩, -⟩, -⟩ := hi
  obtain ⟨hb', hls⟩ := count_field hb
  refine ⟨?_, hb', hls⟩
  change fieldBad _ _ f (.range false) f.a _ = false at ha
  simp only [fieldBad, Bool.or_eq_false_iff, Bool.not_eq_false'] at ha
  exact ha.1.1

/-- A small value, an immediate or a uniform register stands in no stack register. -/
theorem count_place {s : State} {t w : Nat} {th : Thread} {x : BitVec 10} {xs xs' : List XReg} {b : Src}
    (hx : specIsSmall x = true ∨ x = immSpec ∨ specIsUniform x = true) (h : resolveField s t th w .count x xs = some (b, xs')) :
    (∃ k, b = .loc (.uni k)) ∨ (∃ v, b = .small v) ∨ b = .imm := by
  have hspec : Role.count.isSpec = true := rfl
  unfold resolveField at h
  rcases hx with hs | hs | hs
  · have hd : specIsDirect x = false ∧ specIsUniform x = false ∧ specIsIndirect x = false := by
      simp only [specIsSmall, specIsDirect, specIsUniform, specIsIndirect, decide_eq_true_eq, decide_eq_false_iff_not] at hs ⊢
      omega
    simp only [hspec, hd.1, hd.2.1, hd.2.2, hs, Bool.not_true, Bool.false_eq_true, if_false, if_true, Option.some.injEq,
      Prod.mk.injEq] at h
    exact .inr (.inl ⟨_, h.1.symm⟩)
  · subst hs
    cases h
    exact .inr (.inr rfl)
  · have hd : specIsDirect x = false := by
      simp only [specIsDirect, specIsUniform, decide_eq_true_eq, decide_eq_false_iff_not] at hs ⊢
      omega
    simp only [hspec, hd, hs, Bool.not_true, Bool.false_eq_true, if_false, if_true, Option.some.injEq, Prod.mk.injEq] at h
    exact .inl ⟨_, h.1.symm⟩

theorem holdMissing_of_not_hold {th : Thread} {r : Role} {x : BitVec 10} (h : specIsHold x = false) : holdMissing th r x = false := by
  rw [holdMissing, h, Bool.and_false, Bool.false_and]

theorem not_hold_of_vec {x : BitVec 10} (h : specIsVec x = true) : specIsHold x = false := by
  simp only [specIsVec, specIsHold, decide_eq_true_eq, decide_eq_false_iff_not] at h ⊢; omega

theorem not_hold_of_count {x : BitVec 10} (h : specIsSmall x = true ∨ x = immSpec ∨ specIsUniform x = true) :
    specIsHold x = false := by
  rcases h with hs | hs | hs
  · simp only [specIsSmall, specIsHold, decide_eq_true_eq, decide_eq_false_iff_not] at hs ⊢; omega
  · subst hs; rfl
  · simp only [specIsUniform, specIsHold, decide_eq_true_eq, decide_eq_false_iff_not] at hs ⊢; omega

/-- The count as the lane reads it. -/
theorem count_value {s : State} {t : Nat} {f : Form} {b : Src}
    (hb : (∃ k, b = .loc (.uni k)) ∨ (∃ v, b = .small v) ∨ b = .imm) :
    sourceValue s (some (t, b.place)) f .count b = srcValue s t f .count b := by
  rcases hb with ⟨k, rfl⟩ | ⟨v, rfl⟩ | rfl <;> rfl

theorem natLow_count (x : DWord) : natLow 32 x = countOf x := rfl

/-- The lane's own count finds no neighbour's register pending, no register out of residence and none poisoned. -/
theorem prepRange_badCount {s : State} {iss : Issue} {sg : Sig} {f : Form} {lane t : Nat} {th : Thread} {b : Src} {xs : List XReg}
    (hsg : sg.b = .count) (hls : laneSource sg f 1 = 0#2)
    (hr : resolveField s t th (windowOf s t) .count f.b (afterRange th (windowOf s t) f.a) = some (b, xs))
    (hb : (∃ k, b = .loc (.uni k)) ∨ (∃ v, b = .small v) ∨ b = .imm)
    (hn : countOf (srcValue s t f .count b) < 1 ∨ 32 < countOf (srcValue s t f .count b)) :
    prepRange s iss sg f lane t th = .trap ⟨2, countOf (srcValue s t f .count b), 0, 0⟩ := by
  have hplace : stackPos b.place 1 = [] := by rcases hb with ⟨k, rfl⟩ | ⟨v, rfl⟩ | rfl <;> rfl
  have hheld : sourceHeld s t [(some (t, b.place), 1)] = false := by
    simp [sourceHeld]
  have hres : residency th (windowOf s t) (resvOf s t) [] = none := rfl
  have hpoison : poisonTrap s [(some (t, b.place), 1)] = none := by
    simp only [poisonTrap, List.findSome?_cons, List.findSome?_nil, hplace, List.find?_nil, Option.map_none]
    cases s.threads[t]? <;> rfl
  simp only [prepRange, hsg, hr, hls, sourceAt_own, hplace, hheld, hres, hpoison, ite_self, Bool.false_eq_true, if_false,
    count_value hb, natLow_count]
  rw [if_pos hn]
  rfl

theorem rcpy_badCount {f : Form} {s : State} {iss : Issue} {lane t : Nat} {th : Thread} {b : Src} {xs : List XReg}
    (hc : s.cur = some iss) (hl : iss.lanes = [(lane, t)]) (hg : groupTrap s iss 0x8A (sigOf 0x8A f) f = none)
    (ht : s.threads[t]? = some th) (hguard : guardHolds th f = true) (hu : usesPending (idle s) t th (sigOf 0x8A f) f = none)
    (hr : resolveField (idle s) t th (windowOf s t) .count f.b (afterRange th (windowOf s t) f.a) = some (b, xs))
    (hn : countOf (srcValue s t f .count b) < 1 ∨ 32 < countOf (srcValue s t f .count b)) :
    exec (.rcpy f) s = .next (trapped (idle s) iss 0x8A f t ⟨2, countOf (srcValue s t f .count b), 0, 0⟩) := by
  obtain ⟨hva, hcb, hls⟩ := rcpy_fields hl hg
  have hb := count_place hcb hr
  have ht' : (idle s).threads[t]? = some th := ht
  have hmissing : (holdMissing th (roleA (sigOf 0x8A f)) f.a || holdMissing th (roleB (sigOf 0x8A f)) f.b
      || holdMissing th (sigOf 0x8A f).c f.c) = false := by
    rw [holdMissing_of_not_hold (not_hold_of_vec hva), holdMissing_of_not_hold (not_hold_of_count hcb)]; rfl
  change runLanes 0x8A f s (fun _ _ s r => rcpyLane s r) = _
  refine runLanes_prepTrap hc hl hg ht ?_
  rw [prepLane_active ht' hu hguard, prepActive, hmissing, if_neg Bool.false_ne_true, if_pos (rcpy_roles f).1]
  exact prepRange_badCount (rcpy_roles f).1 hls hr hb hn

/-- Settles O11: the lane's preparation finds the count and both ranges, and a count out of range before either. -/
theorem rangeCopyResults : Obligations.RangeCopyResults := by
  refine ⟨fun f s iss r th h ht => ⟨?_, rcpy_lane h ht⟩, fun f s iss lane t th b xs hc hl hg ht hguard hu hr => ?_,
    fun th w x n at_ xs hsave hrestore hx => ?_⟩
  · exact runLanes_leaves (body := fun _ _ s r => rcpyLane s r) h rfl (single_sat h)
  · exact rcpy_badCount hc hl hg ht hguard hu hr
  · have hd : specIsDirect x = true := by simpa only [specIsDirect, decide_eq_true_eq] using hx
    have hroutine : decide (th.routine = .save ∨ th.routine = .restore) = false := by simp [hsave, hrestore]
    rw [rangeAt]
    simp only [hd, hroutine, if_true, Bool.false_eq_true, if_false]
    split
    · rw [if_neg (by omega)]; rfl
    · rw [if_pos (by omega)]

end Sys2Proof.Ranges

/-! SUPPORT. Statements settled: loads, stores, tensor elements and atomics as they are issued (R143 to R145, R149, R160 to R162). -/

namespace Sys2Proof.Issuing

open Sys2Proof.Machine Sys2Proof.Claims

/-! What yielding a write-back copy changes (R313). -/

theorem modDie_frame (s : State) (d : Nat) (g : Die → Die) : ∃ ds, modDie s d g = { s with dies := ds } := ⟨_, rfl⟩

theorem setCore_frame (s : State) (c : Core) : ∃ cs, setCore s c = { s with cores := cs } := by
  unfold setCore; split <;> exact ⟨_, rfl⟩

theorem l1Yield_frame (s : State) (c : Core) (x : L1Sector) : ∃ cs ds, l1Yield s c x = { s with cores := cs, dies := ds } := by
  unfold l1Yield
  obtain ⟨cs, hc⟩ := setCore_frame s (l1Put c { x with own := false, dirty := false, granted := s.clk })
  rw [hc]
  dsimp only
  split
  · exact ⟨cs, _, rfl⟩
  · exact ⟨cs, s.dies, rfl⟩

theorem collapseL1_frame (s : State) (die sec : Nat) : ∃ cs ds, collapseL1 s die sec = { s with cores := cs, dies := ds } := by
  unfold collapseL1
  split
  · split
    · exact l1Yield_frame _ _ _
    · exact ⟨s.cores, s.dies, rfl⟩
  · exact ⟨s.cores, s.dies, rfl⟩

/-- An `LD.S` notes copies, and the L1 that owned the sector yields. -/
theorem withCopies_frame (s : State) (a : Access) :
    ∃ cs ds l, withCopies s a = ({ s with cores := cs, dies := ds }, { a with copies := l }) ∨ withCopies s a = (s, a) := by
  unfold withCopies
  split
  · split
    · exact ⟨s.cores, s.dies, [], .inr rfl⟩
    · unfold staleCopies
      dsimp only
      split
      · exact ⟨s.cores, s.dies, _, .inl rfl⟩
      · obtain ⟨cs, ds, h⟩ := collapseL1_frame s a.die _
        rw [h]
        exact ⟨cs, ds, _, .inl rfl⟩
  · exact ⟨s.cores, s.dies, [], .inr rfl⟩

theorem withCopies_threads (s : State) (a : Access) : (withCopies s a).1.threads = s.threads := by
  obtain ⟨cs, ds, l, h | h⟩ := withCopies_frame s a <;> rw [h]

theorem withCopies_tid (s : State) (a : Access) : (withCopies s a).2.tid = a.tid ∧ (withCopies s a).2.owners = a.owners := by
  obtain ⟨cs, ds, l, h | h⟩ := withCopies_frame s a <;> simp [h]

/-- An access that is no `LD.S` notes nothing. -/
theorem withCopies_not_stale {s : State} {a : Access} {fresh sext : Bool} (h : a.kind = .load fresh false sext) :
    withCopies s a = (s, a) := by
  unfold withCopies
  rw [h]

/-! One lane that issues an access. -/

/-- An instruction of one lane, under a signature per thread, whose lane issues an access. -/
theorem runWith_issues {opc f s sig pick body iss r a} (h : Alone s iss opc sig f r)
    (hpick : pick (idle s) [(r.tid, .ready r)] = [(r.tid, .ready r)])
    (hb : body iss [(r.tid, .ready r)] (idle s) r = .ok (enqueue (idle s) a) {}) (ho : a.owners = [a.tid]) :
    runWith opc f s sig (fun s _ => s) pick body = .next (leaves (withAccess (idle s) a) iss f r {}) := by
  rw [enqueue_eq _ _ ho] at hb
  exact runWith_ok h hpick hb (withAccess_some (single_sat h))

/-! Loads. -/

section Loads

variable {opc : BitVec 8} {f : Form} {s : State} {r : Ready}

/-- A load that its checks let pass, as the lane issues it. -/
def loadAt (opc : BitVec 8) (f : Form) (s : State) (r : Ready) (p : Place) (ea : Nat) (x : Xlat) (ks : List (Nat × Nat)) : Access :=
  { issued s r.tid (.load (decide (extFresh (extWord (sigOf opc f) f) = 2)) (decide (extFresh (extWord (sigOf opc f) f) = 1))
      (f.mod.getLsbD 0)) p (accessBytes (f.mod.extractLsb' 0 3)) ea x ks with
    writeBack := decide (f.mod.extractLsb' 3 2 = 3)
    dest := destOf s r.tid r.d ((accessBytes (f.mod.extractLsb' 0 3) + 3) / 4) r.span
    ctr := .ld }

theorem loadAccess_eq (ea : Nat) (p : Place) (x : Xlat) (ks : List (Nat × Nat)) :
    loadAccess (idle s) f r opc ea p x ks = loadAt opc f s r p ea x ks := by
  unfold loadAccess loadAt
  dsimp only
  rw [issued_eq, accessBytes_eq, spaceOf_eq, private_eq]
  rfl

/-- A load's lane with room in ld, by what its checks find. -/
theorem loadLane_free (hu : unfull s r.tid .ld) : loadLane opc f (idle s) r =
    match locate (idle s) r.tid (f.mod.extractLsb' 3 2).toNat
      (byteAddress r.a r.b (if f.mod.getLsbD 5 then accessBytes (f.mod.extractLsb' 0 3) else 1))
      (accessBytes (f.mod.extractLsb' 0 3)) (accessBytes (f.mod.extractLsb' 0 3)) needR [] with
    | .trap i => .trap i
    | .hold w => .hold w
    | .ok p x ks => .ok (enqueueLoad (idle s) (loadAt opc f s r p
        (byteAddress r.a r.b (if f.mod.getLsbD 5 then accessBytes (f.mod.extractLsb' 0 3) else 1)) x ks)) {} := by
  simp only [loadLane, counterHold_free hu, loadAccess_eq, spaceOf_eq, memAddr_eq]
  rw [show sizeBytes (modIt f.mod) = accessBytes (f.mod.extractLsb' 0 3) from accessBytes_eq _] <;> rfl

theorem loadLane_full (hf : full s r.tid .ld) : loadLane opc f (idle s) r = .hold (.counterFull .ld) := by
  simp only [loadLane, counterHold_full hf]

/-- A load and its twin of each group's lowest lane are both the load's lane where one lane issues. -/
theorem load_out {mk : Form → Instr} (hmk : mk = .ld ∧ opc = 0x90 ∨ mk = .ldk ∧ opc = 0x92) {iss : Issue} (h : Single s iss opc f r) :
    exec (mk f) s = .next (aloneOut (idle s) iss opc f r (loadLane opc f (idle s) r)) := by
  rcases hmk with ⟨rfl, rfl⟩ | ⟨rfl, rfl⟩
  · exact runLanes_alone (body := fun _ _ s r => loadLane 0x90 f s r) h
  · exact runWith_alone (start := fun s _ => s) (pick := lowestActive) (body := fun _ _ s r => loadLane 0x92 f s r) h
      (lowestActive_one _ _ _)

end Loads

theorem load_issue {mk : Form → Instr} {opc : BitVec 8} (hmk : mk = .ld ∧ opc = 0x90 ∨ mk = .ldk ∧ opc = 0x92) {f : Form} {s : State}
    {iss : Issue} {r : Ready} {p : Place} {x : Xlat} {ks : List (Nat × Nat)} (h : Single s iss opc f r) (hu : unfull s r.tid .ld)
    (hl : locate (idle s) r.tid (f.mod.extractLsb' 3 2).toNat
      (byteAddress r.a r.b (if f.mod.getLsbD 5 then accessBytes (f.mod.extractLsb' 0 3) else 1))
      (accessBytes (f.mod.extractLsb' 0 3)) (accessBytes (f.mod.extractLsb' 0 3)) needR [] = .ok p x ks) :
    let l := loadAt opc f s r p (byteAddress r.a r.b (if f.mod.getLsbD 5 then accessBytes (f.mod.extractLsb' 0 3) else 1)) x ks
    exec (mk f) s = .next (leaves (withAccess (withCopies (idle s) l).1 (withCopies (idle s) l).2) iss f r {}) := by
  intro l
  have htid : (withCopies (idle s) l).2.tid = r.tid ∧ (withCopies (idle s) l).2.owners = [r.tid] := withCopies_tid (idle s) l
  rw [load_out hmk h, loadLane_free hu, hl]
  dsimp only
  rw [enqueueLoad, enqueue_eq _ _ (by rw [htid.1, htid.2]), aloneOut_ok]
  refine withAccess_some ?_
  rw [withCopies_threads]
  exact single_sat h

/-- A load that is no `LD.S` finds no copies to note. -/
theorem load_plain {mk : Form → Instr} {opc : BitVec 8} (hmk : mk = .ld ∧ opc = 0x90 ∨ mk = .ldk ∧ opc = 0x92) {f : Form} {s : State}
    {iss : Issue} {r : Ready} {p : Place} {x : Xlat} {ks : List (Nat × Nat)} (h : Single s iss opc f r) (hu : unfull s r.tid .ld)
    (hl : locate (idle s) r.tid (f.mod.extractLsb' 3 2).toNat
      (byteAddress r.a r.b (if f.mod.getLsbD 5 then accessBytes (f.mod.extractLsb' 0 3) else 1))
      (accessBytes (f.mod.extractLsb' 0 3)) (accessBytes (f.mod.extractLsb' 0 3)) needR [] = .ok p x ks)
    (hk : extFresh (extWord (sigOf opc f) f) ≠ 1) :
    exec (mk f) s = .next (leaves (withAccess (idle s)
      (loadAt opc f s r p (byteAddress r.a r.b (if f.mod.getLsbD 5 then accessBytes (f.mod.extractLsb' 0 3) else 1)) x ks)) iss f r {}) := by
  have hload := load_issue hmk h hu hl
  have hkind : (loadAt opc f s r p (byteAddress r.a r.b (if f.mod.getLsbD 5 then accessBytes (f.mod.extractLsb' 0 3) else 1)) x ks).kind =
      .load (decide (extFresh (extWord (sigOf opc f) f) = 2)) false (f.mod.getLsbD 0) := by
    rw [← decide_eq_false hk]; rfl
  simp only [withCopies_not_stale hkind] at hload
  exact hload

/-- Settles O12: the lane's own checks, then the access, and `PRF` changes nothing. -/
theorem loadIssue : Obligations.LoadIssue := by
  refine ⟨fun mk opc hmk f s iss r h => ⟨fun p x ks hu hl => ⟨fun hk => load_plain hmk h hu hl hk, fun _ => load_issue hmk h hu hl⟩,
    fun i hu hl => ?_, fun hf => ?_⟩, fun f s iss h => ?_⟩
  · rw [load_out hmk h, loadLane_free hu, hl]; rfl
  · rw [load_out hmk h, loadLane_full hf]; rfl
  · exact Compute.gives_of (body := fun _ _ _ _ s _ => .ok s {}) (eff := fun _ _ _ _ => {}) (fun _ _ => rfl)
      (fun _ _ _ _ _ _ _ _ => rfl) f s iss h

/-! Stores. -/

theorem storeLane_trap {s : State} {r : Ready} {space ea n al : Nat} {bs : List Byte} {i : TrapInfo} {ws : List Nat}
    (hu : unfull s r.tid .st) (hl : locate (idle s) r.tid space ea n al needW ws = .trap i) :
    storeLane (idle s) r space ea n al bs ws = .trap i := by
  simp only [storeLane, counterHold_free hu, hl]

/-- A store of one lane that writes no sector whole. -/
theorem store_out {mk : Form → Instr} {opc : BitVec 8} (hmk : mk = .st ∧ opc = 0x91 ∨ mk = .stk ∧ opc = 0x93) {f : Form} {s : State}
    {iss : Issue} {r : Ready} (h : Single s iss opc f r) (hw : lanesWhole f s [(r.tid, .ready r)] = []) :
    exec (mk f) s = .next (aloneOut (idle s) iss opc f r (storeLane (idle s) r (f.mod.extractLsb' 3 2).toNat
      (byteAddress r.a r.b (if f.mod.getLsbD 5 then accessBytes (f.mod.extractLsb' 0 3) else 1))
      (accessBytes (f.mod.extractLsb' 0 3)) (accessBytes (f.mod.extractLsb' 0 3))
      (bytesOf (accessBytes (f.mod.extractLsb' 0 3)) (r.c.toNat + 2 ^ 64 * r.cHi.toNat)) [])) := by
  rw [← spaceOf_eq, ← memAddr_eq, ← accessBytes_eq, ← hw]
  rcases hmk with ⟨rfl, rfl⟩ | ⟨rfl, rfl⟩
  · exact runLanes_alone (body := fun _ ps s1 r => storeLane s1 r (spaceOf f) (memAddr f r) (sizeBytes (modIt f.mod))
      (sizeBytes (modIt f.mod)) (storeBytes (sizeBytes (modIt f.mod)) r) (lanesWhole f s ps)) h
  · exact runWith_alone (start := fun s _ => s) (pick := lowestActive) (body := fun _ ps s1 r => storeLane s1 r (spaceOf f) (memAddr f r)
      (sizeBytes (modIt f.mod)) (sizeBytes (modIt f.mod)) (storeBytes (sizeBytes (modIt f.mod)) r) (lanesWhole f s (lowestActive s ps))) h
      (lowestActive_one _ _ _)

/-- Settles O13: the store's lane under its checks. -/
theorem storeIssue : Obligations.StoreIssue := by
  refine fun mk opc hmk f s iss r h hu hw => ⟨fun p x ks hl => ?_, fun i hl => ?_⟩
  · rw [store_out hmk h hw, storeLane_ok hu hl, aloneOut_ok (withAccess_some (single_sat h)), private_eq]
  · rw [store_out hmk h hw, storeLane_trap hu hl]; rfl

/-! Tensor elements. -/

section Elements

variable {f : Form} {s : State} {r : Ready} {x : Tensor}

/-- A direct or uniform pair that can hold the element. -/
theorem pair_fits {n t : Nat} {d : BitVec 10} (h : n = 2 → oddPair s t d = false) : (decide (n = 2) && oddPair s t d) = false := by
  by_cases hn : n = 2
  · rw [h hn, Bool.and_false]
  · rw [decide_eq_false hn, Bool.false_and]

theorem wide_fits {n t : Nat} {d : BitVec 10} (h : n = 64 → oddPair s t d = false) : (decide (n = 64) && oddPair s t d) = false := by
  by_cases hn : n = 64
  · rw [h hn, Bool.and_false]
  · rw [decide_eq_false hn, Bool.false_and]

theorem ldtLane_outside (hu : unfull s r.tid .ld) (he : elementOf f (idle s) r = .outside x)
    (hp : (if elemBits x = 64 then 2 else 1) = 2 → oddPair (idle s) r.tid f.d = false) :
    ldtLane f (idle s) r = .ok (enqueue (idle s)
      { issued s r.tid (.load false false false) .nothing (4 * if elemBits x = 64 then 2 else 1) 0 noXlat [] with
        bytes := bytesOf (4 * if elemBits x = 64 then 2 else 1) x.fill.toNat
        dest := destOf s r.tid r.d (if elemBits x = 64 then 2 else 1) r.span, ctr := .ld }) {} := by
  simp only [ldtLane, counterHold_free hu, he, pair_fits hp, Bool.false_eq_true, if_false, issued_eq]
  rfl

theorem ldtLane_inside {ea : Nat} {p : Place} {xl : Xlat} {ks : List (Nat × Nat)} (hu : unfull s r.tid .ld)
    (he : elementOf f (idle s) r = .inside x ea) (hp : (if elemBits x = 64 then 2 else 1) = 2 → oddPair (idle s) r.tid f.d = false)
    (hl : locate (idle s) r.tid 0 ea (elemBits x / 8) (elemBits x / 8) needR [] = .ok p xl ks) :
    ldtLane f (idle s) r = .ok (enqueue (idle s)
      { issued s r.tid (.load false false (decide (x.fmt = 0x10 ∨ x.fmt = 0x11))) p (elemBits x / 8) ea xl ks with
        dest := destOf s r.tid r.d (if elemBits x = 64 then 2 else 1) r.span, ctr := .ld }) {} := by
  simp only [ldtLane, counterHold_free hu, he, pair_fits hp, Bool.false_eq_true, if_false, elemSize, hl, issued_eq]
  rfl

theorem sttLane_outside {ws : List Nat} (hu : unfull s r.tid .st) (he : elementOf f (idle s) r = .outside x)
    (hp : elemBits x = 64 → oddPair (idle s) r.tid f.b = false) :
    sttLane f (idle s) r ws = .ok (enqueue (idle s) { issued s r.tid .store .nothing 0 0 noXlat [] with ctr := .st }) {} := by
  simp only [sttLane, counterHold_free hu, he, wide_fits hp, Bool.false_eq_true, if_false, issued_eq]

theorem sttLane_inside {ea : Nat} {ws : List Nat} (hu : unfull s r.tid .st) (he : elementOf f (idle s) r = .inside x ea)
    (hp : elemBits x = 64 → oddPair (idle s) r.tid f.b = false) :
    sttLane f (idle s) r ws =
      storeLane (idle s) r 0 ea (elemBits x / 8) (elemBits x / 8) (bytesOf (elemBits x / 8) r.b.toNat) ws := by
  simp only [sttLane, counterHold_free hu, he, wide_fits hp, Bool.false_eq_true, if_false, elemSize]

end Elements

/-- Settles O14: the lane's element, outside its tensor or inside it. -/
theorem elementIssue : Obligations.ElementIssue := by
  refine ⟨fun f s iss r x h hu hp he => ?_, fun f s iss r x ea p xl ks h hu hp he hl => ?_, fun f s iss r x h hu hp he => ?_,
    fun f s iss r x ea p xl ks h hu hp he hw hl => ?_⟩
  · exact runWith_issues (pick := fun _ ps => ps) (body := fun _ _ s r => ldtLane f s r) h rfl (ldtLane_outside hu he hp) rfl
  · exact runWith_issues (pick := fun _ ps => ps) (body := fun _ _ s r => ldtLane f s r) h rfl (ldtLane_inside hu he hp hl) rfl
  · exact runWith_issues (pick := fun _ ps => ps) (body := fun _ ps s1 r => sttLane f s1 r (elementsWhole f s ps)) h rfl
      (sttLane_outside hu he hp) rfl
  · refine runWith_ok (start := fun s _ => s) (pick := fun _ ps => ps) (body := fun _ ps s1 r => sttLane f s1 r (elementsWhole f s ps)) h rfl ?_
      (withAccess_some (single_sat h))
    rw [hw, sttLane_inside hu he hp, storeLane_ok hu hl]
    rfl

/-! Atomics. -/

section Atomics

variable {f : Form} {s : State} {r : Ready} {p : Place} {x : Xlat} {ks : List (Nat × Nat)}

theorem atomLane_ok (hu : unfull s r.tid .ld)
    (hl : atomLocate (idle s) r.tid (byteAddress r.a r.b (widthOf (f.mod.extractLsb' 0 3) / 8)) (widthOf (f.mod.extractLsb' 0 3) / 8)
      needRW = .ok p x ks) :
    atomLane f (idle s) r = .ok (enqueue (idle s)
      { issued s r.tid (.atom (f.mod.extractLsb' 3 3) (f.mod.extractLsb' 0 3)) p (widthOf (f.mod.extractLsb' 0 3) / 8)
          (byteAddress r.a r.b (widthOf (f.mod.extractLsb' 0 3) / 8)) x ks with
        cmp := r.c, dest := destOf s r.tid r.d (widthOf (f.mod.extractLsb' 0 3) / 8 / 4) r.span, ctr := .ld }) {} := by
  simp only [atomLane, counterHold_free hu, elementAddr, byteAddress_eq, modIt, tyBytes_eq, hl, issued_eq]
  rfl

theorem acasLane_ok (hu : unfull s r.tid .ld)
    (hl : atomLocate (idle s) r.tid r.a.toNat (if f.mod.getLsbD 0 then 8 else 4) needRW = .ok p x ks) :
    acasLane f (idle s) r = .ok (enqueue (idle s)
      { issued s r.tid (.acas (if f.mod.getLsbD 0 then 8 else 4)) p (if f.mod.getLsbD 0 then 8 else 4) r.a.toNat x ks with
        cmp := r.b, bytes := bytesOf (if f.mod.getLsbD 0 then 8 else 4) r.c.toNat
        dest := destOf s r.tid r.d ((if f.mod.getLsbD 0 then 8 else 4) / 4) r.span, ctr := .ld }) {} := by
  simp only [acasLane, counterHold_free hu, hl, issued_eq]
  rfl

theorem redLane_ok (hu : unfull s r.tid .st)
    (hl : atomLocate (idle s) r.tid (byteAddress r.a r.b (widthOf (f.mod.extractLsb' 0 3) / 8)) (widthOf (f.mod.extractLsb' 0 3) / 8)
      needW = .ok p x ks)
    (hn : redUnderWay s (placeAddr p / 64) = none) :
    redLane f (idle s) r = .ok (enqueue (idle s)
      { issued s r.tid (.red (tagOf (f.mod.extractLsb' 3 3) (f.mod.extractLsb' 0 3))
          (laneSteps (f.mod.extractLsb' 0 3) (placeAddr p % 64 / (widthOf (f.mod.extractLsb' 0 3) / 8)) r.c) false)
        (.phys [(placeAddr p / 64 * 64, 64)]) 64 (byteAddress r.a r.b (widthOf (f.mod.extractLsb' 0 3) / 8)) x ks with ctr := .st }) {} := by
  have hn' : redUnderWay (idle s) (placeAddr p / 64) = none := hn
  simp only [redLane, counterHold_free hu, elementAddr, byteAddress_eq, modIt, tyBytes_eq, hl, hn', issued_eq, atomOpOf]

end Atomics

/-- Settles O15: the atomic's lane under its checks. -/
theorem atomicIssue : Obligations.AtomicIssue := by
  refine ⟨fun f s iss r p x ks h hu hl => ?_, fun f s iss r p x ks h hu hl => ?_, fun f s iss r p x ks h hu hl hn => ?_⟩
  · exact runLanes_issues (body := fun _ _ s r => atomLane f s r) h (atomLane_ok hu hl) rfl
  · exact runLanes_issues (body := fun _ _ s r => acasLane f s r) h (acasLane_ok hu hl) rfl
  · exact runLanes_issues (body := fun _ _ s r => redLane f s r) h (redLane_ok hu hl hn) rfl

end Sys2Proof.Issuing

/-! SUPPORT. Statements settled: copies, ranges and pinned windows as they are issued (R151 to R158). -/

namespace Sys2Proof.Copying

open Sys2Proof.Machine Sys2Proof.Claims Sys2Proof.Issuing

variable {f : Form} {s : State} {r : Ready}

/-! Checks that pass and traps that are taken. -/

theorem threadChecked_ok {t : Nat} {ps : List (Nat × Nat)} {x : Xlat} {ks : List (Nat × Nat)} (h : ownCopyMeets s t ps = false) :
    threadChecked s t (.ok ps x ks) = .ok ps x ks := by
  simp only [threadChecked, h, Bool.false_eq_true, if_false]

theorem rangeLimit_none {a n : Nat} (ha : a < 2 ^ 57) (hn : a + n ≤ 2 ^ 57) : rangeLimit a n = none := by
  rw [rangeLimit, if_neg]; omega

/-! Copies (R151 to R154). -/

/-- Caching translations changes cached translations only (R352). -/
theorem cacheRange_frame (s : State) (c va n : Nat) : ∃ l, cacheRange s c va n = { s with tlb := l } := by
  simp only [cacheRange]
  split
  · exact ⟨s.tlb, rfl⟩
  · exact cachePages_frame _ _ _ _

theorem cacheRanges_frame (s : State) (c va n va' n' : Nat) :
    ∃ l, cacheRange (cacheRange s c va n) c va' n' = { s with tlb := l } := by
  obtain ⟨l, hl⟩ := cacheRange_frame s c va n
  obtain ⟨l', hl'⟩ := cacheRange_frame { s with tlb := l } c va' n'
  exact ⟨l', by rw [hl, hl']⟩

theorem startOp_threads (s : State) (e : EngineOp) : (startOp s e).threads = s.threads := by
  unfold startOp; dsimp only; split <;> rfl

/-- The three copies are one lane's copy, each under its own opcode. -/
theorem copy_out {mk : Form → Instr} {opc : BitVec 8} (hmk : mk = .cpy ∧ opc = 0x98 ∨ mk = .cpyt ∧ opc = 0x99 ∨ mk = .cpye ∧ opc = 0x9A)
    {iss : Issue} (h : Single s iss opc f r) : exec (mk f) s = .next (aloneOut (idle s) iss opc f r (copyLane opc f (idle s) r)) := by
  rcases hmk with ⟨rfl, rfl⟩ | ⟨rfl, rfl⟩ | ⟨rfl, rfl⟩
  · exact runLanes_alone (body := fun _ _ s r => copyLane 0x98 f s r) h
  · exact runLanes_alone (body := fun _ _ s r => copyLane 0x99 f s r) h
  · exact runLanes_alone (body := fun _ _ s r => copyLane 0x9A f s r) h

/-- The transform that a copy names. -/
def transformOf (opc : BitVec 8) (f : Form) : Nat := if opc = 0x98#8 then 0 else f.d.toNat

theorem transformOf_fold (opc : BitVec 8) (f : Form) : (if opc = 0x98#8 then 0 else f.d.toNat) = transformOf opc f := rfl

theorem copyLane_empty {opc : BitVec 8} (hn : countOf r.c = 0) : copyLane opc f (idle s) r = .ok (idle s) {} := by
  simp only [copyLane, count_eq, hn, if_true]

theorem copyLane_align {opc : BitVec 8} {i : TrapInfo} (hn : countOf r.c ≠ 0) (hu : unfull s r.tid .cp) (hx : transformOf opc f < 32)
    (ha : copyAlign (transformOf opc f) r.a.toNat r.b.toNat (countOf r.c) = some i) : copyLane opc f (idle s) r = .trap i := by
  have hloaded : ¬ (32 ≤ transformOf opc f ∧ (lookupNat (idle s).routines (transformOf opc f)).isNone = true) := by omega
  simp only [copyLane, transformOf_fold, count_eq, hn, if_false, counterHold_free hu, hloaded, ha]

section Passed

variable {opc : BitVec 8} {iss : Issue} {ps : List (Nat × Nat)} {x : Xlat} {ks : List (Nat × Nat)}

/-- The pages of a copy's destination, and of its source. -/
def targetPages (s : State) (r : Ready) : List (Nat × Xlat) := rangeXlats (idle s) (ctxOf s r.tid) r.a.toNat (countOf r.c)
def sourcePages (opc : BitVec 8) (f : Form) (s : State) (r : Ready) : List (Nat × Xlat) :=
  rangeXlats (idle s) (ctxOf s r.tid) r.b.toNat (copySrcLen (idle s) (transformOf opc f) (countOf r.c))

/-- The pieces of a copy's destination and of its source in physical memory. -/
def targetRuns (s : State) (r : Ready) : List (Nat × Nat) := (targetPages s r).map fun p => (p.2.pa, p.1)
def sourceRuns (opc : BitVec 8) (f : Form) (s : State) (r : Ready) : List (Nat × Nat × Bool) :=
  (sourcePages opc f s r).map fun p => (p.2.pa, p.1, lbcData p.2)

/-- The state in which both ranges' translations are cached. -/
def copyCached (opc : BitVec 8) (f : Form) (s : State) (r : Ready) : State :=
  cacheRange (cacheRange (idle s) (ctxOf s r.tid) r.a.toNat (countOf r.c)) (ctxOf s r.tid) r.b.toNat
    (copySrcLen (idle s) (transformOf opc f) (countOf r.c))

/-- The access of a copy that is to be recorded. -/
def copyAccess (opc : BitVec 8) (f : Form) (s : State) (r : Ready) : Access :=
  { issued s r.tid (.copy (transformOf opc f) (targetRuns s r).length (countOf r.c) ((sourceRuns opc f s r).map (·.2.2))
      ((targetPages s r).map (·.2.point)))
      (.phys (targetRuns s r ++ (sourceRuns opc f s r).map fun p => (p.1, p.2.1))) (countOf r.c) r.a.toNat
      (((targetPages s r).map (·.2)).headD noXlat) (pieceKeys (rangePieces (idle s) (ctxOf s r.tid) r.a.toNat (countOf r.c))) with ctr := .cp }

/-- The operation of a copy that is eager. -/
def copyOp (opc : BitVec 8) (f : Form) (s : State) (r : Ready) : EngineOp :=
  eagerOp (copyCached opc f s r) r.tid (transformOf opc f) (countOf r.c) r.a.toNat (targetRuns s r) (sourceRuns opc f s r)
    (pieceKeys (rangePieces (idle s) (ctxOf s r.tid) r.a.toNat (countOf r.c)))

/-- Whether a copy is eager at issue. -/
def eagerAtIssue (opc : BitVec 8) (f : Form) (s : State) (r : Ready) : Bool :=
  copyEager opc (transformOf opc f) (targetRuns s r) ((sourceRuns opc f s r).map fun p => (p.1, p.2.1))
    ((targetPages s r ++ sourcePages opc f s r).map fun p => p.2.key)

theorem copyLane_passed (hn : countOf r.c ≠ 0) (hu : unfull s r.tid .cp)
    (hloaded : 32 ≤ transformOf opc f → (lookupNat s.routines (transformOf opc f)).isSome)
    (ha : copyAlign (transformOf opc f) r.a.toNat r.b.toNat (countOf r.c) = none)
    (hlbc : lbcAlign (idle s) (ctxOf s r.tid) (transformOf opc f) r.a.toNat r.b.toNat (countOf r.c) = none)
    (hc : copyChecks (idle s) r.tid (transformOf opc f) r.a.toNat r.b.toNat (countOf r.c) = .ok ps x ks)
    (hps : ownCopyMeets (idle s) r.tid ps = false)
    (hruns : ownCopyMeets (idle s) r.tid (targetRuns s r ++ (sourceRuns opc f s r).map fun p => (p.1, p.2.1)) = false) :
    copyLane opc f (idle s) r =
      if eagerAtIssue opc f s r then .ok (startOp (raiseCtr (copyCached opc f s r) r.tid .cp) (copyOp opc f s r)) {}
      else .ok (enqueue (copyCached opc f s r) { accessOf (copyCached opc f s r) r.tid (copyAccess opc f s r).kind
        (copyAccess opc f s r).place (countOf r.c) r.a.toNat (((targetPages s r).map (·.2)).headD noXlat)
        (copyAccess opc f s r).keys with ctr := .cp }) {} := by
  have hroutine : ¬ (32 ≤ transformOf opc f ∧ (lookupNat (idle s).routines (transformOf opc f)).isNone = true) := by
    rintro ⟨h32, hno⟩
    have hsome : (lookupNat (idle s).routines (transformOf opc f)).isSome = true := hloaded h32
    rw [← Option.not_isSome, hsome] at hno
    cases hno
  have hctx : ctxOf (idle s) r.tid = ctxOf s r.tid := rfl
  have hmeets : ¬ ownCopyMeets (idle s) r.tid (targetRuns s r ++ (sourceRuns opc f s r).map fun p => (p.1, p.2.1)) = true := by
    rw [hruns]; decide
  simp only [copyLane, transformOf_fold, count_eq, if_neg hn, counterHold_free hu, hctx, if_neg hroutine, ha, hlbc, hc,
    threadChecked_ok hps]
  exact if_neg hmeets

theorem copyCached_frame (opc : BitVec 8) (f : Form) (s : State) (r : Ready) :
    ∃ l, copyCached opc f s r = { idle s with tlb := l } := cacheRanges_frame _ _ _ _ _ _

theorem copyCached_threads (opc : BitVec 8) (f : Form) (s : State) (r : Ready) : (copyCached opc f s r).threads = s.threads := by
  obtain ⟨l, hl⟩ := copyCached_frame opc f s r
  rw [hl]; rfl

theorem raiseCtr_copyCached (opc : BitVec 8) (f : Form) (s : State) (r : Ready) : raiseCtr (copyCached opc f s r) r.tid .cp =
    { copyCached opc f s r with threads := s.threads.modify r.tid (counted .cp) } := by
  simp only [counted_eq, modThread, modAt, copyCached_threads]

/-- What the access of a recorded copy says does not depend on the cached translations. -/
theorem accessOf_copyCached (opc : BitVec 8) (f : Form) (s : State) (r : Ready) :
    ({ accessOf (copyCached opc f s r) r.tid (copyAccess opc f s r).kind (copyAccess opc f s r).place (countOf r.c) r.a.toNat
        (((targetPages s r).map (·.2)).headD noXlat) (copyAccess opc f s r).keys with ctr := .cp } : Access) = copyAccess opc f s r := by
  obtain ⟨l, hl⟩ := copyCached_frame opc f s r
  rw [hl]; rfl

end Passed

/-- A copy that its checks let pass: outstanding to be recorded, or an eager operation. -/
theorem copy_passed {mk : Form → Instr} {opc : BitVec 8} (hmk : mk = .cpy ∧ opc = 0x98 ∨ mk = .cpyt ∧ opc = 0x99 ∨ mk = .cpye ∧ opc = 0x9A)
    {iss : Issue} {ps : List (Nat × Nat)} {x : Xlat} {ks : List (Nat × Nat)} (h : Single s iss opc f r) (hn : countOf r.c ≠ 0)
    (hu : unfull s r.tid .cp) (hloaded : 32 ≤ transformOf opc f → (lookupNat s.routines (transformOf opc f)).isSome)
    (ha : copyAlign (transformOf opc f) r.a.toNat r.b.toNat (countOf r.c) = none)
    (hlbc : lbcAlign (idle s) (ctxOf s r.tid) (transformOf opc f) r.a.toNat r.b.toNat (countOf r.c) = none)
    (hc : copyChecks (idle s) r.tid (transformOf opc f) r.a.toNat r.b.toNat (countOf r.c) = .ok ps x ks)
    (hps : ownCopyMeets (idle s) r.tid ps = false)
    (hruns : ownCopyMeets (idle s) r.tid (targetRuns s r ++ (sourceRuns opc f s r).map fun p => (p.1, p.2.1)) = false) :
    (eagerAtIssue opc f s r = false →
      exec (mk f) s = .next (leaves (withAccess (copyCached opc f s r) (copyAccess opc f s r)) iss f r {})) ∧
    (eagerAtIssue opc f s r = true →
      exec (mk f) s = .next (leaves
        (startOp { copyCached opc f s r with threads := s.threads.modify r.tid (counted .cp) } (copyOp opc f s r)) iss f r {})) := by
  rw [copy_out hmk h, copyLane_passed hn hu hloaded ha hlbc hc hps hruns]
  have hsome : ((copyCached opc f s r).threads[r.tid]?).isSome := by rw [copyCached_threads]; exact single_sat h
  refine ⟨fun he => ?_, fun he => ?_⟩
  · rw [he, if_neg Bool.false_ne_true, accessOf_copyCached, enqueue_eq _ _ rfl, aloneOut_ok (withAccess_some hsome)]
  · rw [he, if_pos rfl, raiseCtr_copyCached, aloneOut_ok]
    rw [startOp_threads]
    exact some_of_length (single_sat h) (List.length_modify _ _ _)

/-- Settles O16: the copy's lane, under its checks in their order. -/
theorem copyIssue : Obligations.CopyIssue := by
  intro mk opc hmk f s iss r xf dst src n c dx sx ds ss keys s1 h
  refine ⟨fun hn => ?_, fun i hn hu hx ha => ?_, fun ps x ks hn hu hloaded ha hlbc hc hps hruns =>
    copy_passed hmk h hn hu hloaded ha hlbc hc hps hruns⟩
  · rw [copy_out hmk h, copyLane_empty hn, aloneOut_ok (single_sat h)]
  · rw [copy_out hmk h, copyLane_align hn hu hx ha]; rfl

/-! Ranges (R155, R156, R158). -/

section Ranges

variable {ps : List (Nat × Nat)} {x : Xlat} {ks : List (Nat × Nat)}

theorem matzLane_ok (hu : unfull s r.tid .cp) (ha : r.a.toNat % 16 = 0) (hn : countOf r.c % 16 = 0)
    (hl : rangeLimit r.a.toNat (countOf r.c) = none)
    (hc : phyCheck r.a.toNat (checkWrite (idle s) r.tid r.a.toNat (countOf r.c) false) = .ok ps x ks)
    (hps : ownCopyMeets (idle s) r.tid ps = false) :
    matzLane (idle s) r = .ok (enqueue (idle s) { issued s r.tid .matz (.phys ps) (countOf r.c) r.a.toNat x ks with ctr := .cp }) {} := by
  simp only [matzLane, count_eq, counterHold_free hu, ha, hn, hl, hc, threadChecked_ok hps, issued_eq, ne_eq, not_true_eq_false, if_false]

theorem alqLane_ok (hu : unfull s r.tid .ld) (hl : rangeLimit r.a.toNat (countOf r.c) = none)
    (hc : phyCheck r.a.toNat (checkPages (idle s) r.tid (r.a.toNat / 16 * 16)
      (if countOf r.c = 0 then 0 else (r.a.toNat + countOf r.c + 15) / 16 * 16 - r.a.toNat / 16 * 16) needNone false) = .ok ps x ks) :
    alqLane (idle s) r = .ok (enqueue (idle s)
      { issued s r.tid .alq (.phys ps)
          (if countOf r.c = 0 then 0 else (r.a.toNat + countOf r.c + 15) / 16 * 16 - r.a.toNat / 16 * 16) r.a.toNat x ks with
        dest := destOf s r.tid r.d 1 r.span, ctr := .ld }) {} := by
  simp only [alqLane, count_eq, counterHold_free hu, hl, hc, issued_eq]
  rfl

theorem flushLane_ok {need : Need} {discard : Bool} (hu : unfull s r.tid .st) (ha : r.a.toNat % 256 = 0) (hn : countOf r.c % 256 = 0)
    (hl : rangeLimit r.a.toNat (countOf r.c) = none)
    (hc : phyCheck r.a.toNat (checkPages (idle s) r.tid r.a.toNat (countOf r.c) need true) = .ok ps x ks)
    (hps : ownCopyMeets (idle s) r.tid ps = false) :
    flushLane f (idle s) r need discard = .ok (enqueue (idle s)
      { issued s r.tid (.flush (f.mod.getLsbD 0) (f.mod.getLsbD 1) discard) (.phys ps) (countOf r.c) r.a.toNat x ks with ctr := .st }) {} := by
  simp only [flushLane, count_eq, counterHold_free hu, ha, hn, hl, hc, threadChecked_ok hps, issued_eq, ne_eq, not_true_eq_false, if_false]

theorem flushLane_address {need : Need} {discard : Bool} (hu : unfull s r.tid .st) (ha : r.a.toNat % 256 ≠ 0) :
    flushLane f (idle s) r need discard = .trap ⟨9, r.a.toNat, 0, 0⟩ := by
  simp only [flushLane, counterHold_free hu, if_pos ha]
  rfl

theorem flushLane_length {need : Need} {discard : Bool} (hu : unfull s r.tid .st) (ha : r.a.toNat % 256 = 0) (hn : countOf r.c % 256 ≠ 0) :
    flushLane f (idle s) r need discard = .trap ⟨9, countOf r.c, 2, 0⟩ := by
  simp only [flushLane, count_eq, counterHold_free hu, ha, ne_eq, not_true_eq_false, if_false, if_pos hn]
  rfl

end Ranges

/-- Settles O17: each range instruction's lane under its checks. -/
theorem rangeIssue : Obligations.RangeIssue := by
  refine ⟨fun f s iss r ps x ks h hu ha hn hl hc hps => ?_, fun f s iss r ps x ks h hu hl hc => ?_,
    fun mk opc need discard hmk f s iss r ps x ks h hu ha hn hl hc hps => ?_, fun mk opc hmk f s iss r h hu => ⟨fun ha => ?_, fun ha hn => ?_⟩⟩
  · exact runLanes_issues (body := fun _ _ s r => matzLane s r) h (matzLane_ok hu ha hn hl hc hps) rfl
  · exact runLanes_issues (body := fun _ _ s r => alqLane s r) h (alqLane_ok hu hl hc) rfl
  · rcases hmk with ⟨rfl, rfl, rfl, rfl⟩ | ⟨rfl, rfl, rfl, rfl⟩
    · exact runLanes_issues (body := fun _ _ s r => flushLane f s r needNone false) h (flushLane_ok hu ha hn hl hc hps) rfl
    · exact runLanes_issues (body := fun _ _ s r => flushLane f s r needW true) h (flushLane_ok hu ha hn hl hc hps) rfl
  · rcases hmk with ⟨rfl, rfl⟩ | ⟨rfl, rfl⟩
    · exact runLanes_traps (body := fun _ _ s r => flushLane f s r needNone false) h (flushLane_address hu ha)
    · exact runLanes_traps (body := fun _ _ s r => flushLane f s r needW true) h (flushLane_address hu ha)
  · rcases hmk with ⟨rfl, rfl⟩ | ⟨rfl, rfl⟩
    · exact runLanes_traps (body := fun _ _ s r => flushLane f s r needNone false) h (flushLane_length hu ha hn)
    · exact runLanes_traps (body := fun _ _ s r => flushLane f s r needW true) h (flushLane_length hu ha hn)

/-! Pinned windows (R157). -/

/-- Bytes of a list of windows. -/
def pinnedBytes (l : List PinWindow) : Nat := (l.map (·.len)).sum

/-- Bytes of the windows of every context that lives. -/
def pinnedAll (s : State) : Nat := ((s.contexts.filter (·.live)).map fun k => pinnedBytes k.windows).sum

/-- The 64-KiB pages of a window that translate. -/
def windowPages (s : State) (c a n : Nat) : List Nat :=
  (List.range (n / 65536)).filterMap fun i => match translate s c (a + 65536 * i) with
    | .ok x => some (x.pa / 65536)
    | .pagef | .prot => none

section Windows

variable {c a n : Nat} {cx : Context}

theorem pinWindow_same (hc : s.contexts[c]? = some cx) (hw : ∃ w ∈ cx.windows, w.va = a ∧ w.len = n) : pinWindow s c a n =
    (modCtx s c fun k => { k with windows := k.windows.map fun w => if w.va = a then { w with fade := 255 } else w }, 0) := by
  have hany : (cx.windows.any fun w => w.va = a ∧ w.len = n) = true := by
    obtain ⟨w, hw, hwa⟩ := hw
    exact List.any_eq_true.2 ⟨w, hw, by simpa using hwa⟩
  simp only [pinWindow, hc, hany, if_true]

/-- A window that is not pinned already: the first rule it breaks, in the model's order (log 31). -/
theorem pinWindow_new (hc : s.contexts[c]? = some cx) (hw : ∀ w ∈ cx.windows, ¬ (w.va = a ∧ w.len = n)) : pinWindow s c a n =
    if 16 ≤ cx.windows.length then (s, 1)
    else if 256 * 2 ^ 20 < pinnedBytes cx.windows + n then (s, 2)
    else if 512 * 2 ^ 20 < pinnedAll s + n then (s, 3)
    else if cx.windows.any fun w => w.va < a + n ∧ a < w.va + w.len then (s, 4)
    else (modCtx s c fun k => { k with windows := k.windows ++ [⟨a, n, windowPages s c a n, 255, false⟩] }, 0) := by
  have hany : (cx.windows.any fun w => w.va = a ∧ w.len = n) = false := by
    rw [List.any_eq_false]
    intro w hmem
    simpa using hw w hmem
  simp only [pinWindow, hc, hany, Bool.false_eq_true, if_false]
  rfl

end Windows

/-- What `PIN` returns, in a state. -/
def pinReturn (s t : State) (r : Ready) (v : Nat) : State :=
  withAccess t { issued s r.tid (.load false false false) .nothing 4 0 noXlat [] with
    bytes := bytesOf 4 v, dest := destOf s r.tid r.d 1 r.span, ctr := .ld }

/-- The access that returns `PIN`'s code says nothing of the contexts. -/
theorem returning_code {t : State} {cs : List Context} (ht : t = { idle s with contexts := cs }) (v : Nat) :
    enqueue t (returning t r (bytesOf 4 v)) = pinReturn s t r v := by
  have hlen : (bytesOf 4 v).length = 4 := Laws.Encoded.bytes_length 4 v
  subst ht
  rw [enqueue_eq _ _ rfl]
  unfold returning
  rw [hlen]
  rfl

theorem pin_gives {iss : Issue} {t : State} {cs : List Context} {v : Nat} (h : Single s iss 0x9D f r) (hu : unfull s r.tid .ld)
    (ha : r.a.toNat % 65536 = 0) (hn : countOf r.c % 65536 = 0) (hn0 : countOf r.c ≠ 0)
    (hl : rangeLimit r.a.toNat (countOf r.c) = none)
    (hp : pinWindow (idle s) (ctxOf s r.tid) r.a.toNat (countOf r.c) = (t, v)) (ht : t = { idle s with contexts := cs }) :
    exec (.pin f) s = .next (leaves (pinReturn s t r v) iss f r {}) := by
  have hctx : ctxOf (idle s) r.tid = ctxOf s r.tid := rfl
  refine runLanes_leaves (body := fun _ _ s r => pinLane s r) h ?_ ?_
  · simp only [pinLane, count_eq, counterHold_free hu, ha, hn, hn0, hl, hctx, hp, ne_eq, not_true_eq_false, or_self, if_false,
      returning_code ht]
  · refine withAccess_some ?_
    have hs : ((idle s).threads[r.tid]?).isSome := single_sat h
    rw [ht]; exact hs

/-- The state with the contexts of a changed one. -/
theorem modCtx_eq (s : State) (c : Nat) (g : Context → Context) : modCtx s c g = { s with contexts := s.contexts.modify c g } := rfl

theorem pinLane_full (h : full s r.tid .ld) : pinLane (idle s) r = .hold (.counterFull .ld) := by
  simp only [pinLane, counterHold_full h]

theorem pinLane_address (hu : unfull s r.tid .ld) (ha : r.a.toNat % 65536 ≠ 0) : pinLane (idle s) r = .trap ⟨9, r.a.toNat, 0, 0⟩ := by
  simp only [pinLane, counterHold_free hu, if_pos ha]
  rfl

theorem pinLane_length (hu : unfull s r.tid .ld) (ha : r.a.toNat % 65536 = 0) (hn : countOf r.c % 65536 ≠ 0 ∨ countOf r.c = 0) :
    pinLane (idle s) r = .trap ⟨9, countOf r.c, 2, 0⟩ := by
  simp only [pinLane, count_eq, counterHold_free hu, ha, ne_eq, not_true_eq_false, if_false]
  rw [if_pos hn]
  rfl

/-- A window that is not pinned already. -/
theorem pin_new {iss : Issue} {cx : Context} (h : Single s iss 0x9D f r) (hu : unfull s r.tid .ld)
    (hc : s.contexts[ctxOf s r.tid]? = some cx) (ha : r.a.toNat % 65536 = 0) (hn : countOf r.c % 65536 = 0) (hn0 : countOf r.c ≠ 0)
    (hl : rangeLimit r.a.toNat (countOf r.c) = none) (hw : ∀ w ∈ cx.windows, ¬ (w.va = r.a.toNat ∧ w.len = countOf r.c)) :
    (16 ≤ cx.windows.length → exec (.pin f) s = .next (leaves (pinReturn s (idle s) r 1) iss f r {})) ∧
    (cx.windows.length < 16 → 256 * 2 ^ 20 < pinnedBytes cx.windows + countOf r.c →
      exec (.pin f) s = .next (leaves (pinReturn s (idle s) r 2) iss f r {})) ∧
    (cx.windows.length < 16 → pinnedBytes cx.windows + countOf r.c ≤ 256 * 2 ^ 20 → 512 * 2 ^ 20 < pinnedAll s + countOf r.c →
      exec (.pin f) s = .next (leaves (pinReturn s (idle s) r 3) iss f r {})) ∧
    (cx.windows.length < 16 → pinnedBytes cx.windows + countOf r.c ≤ 256 * 2 ^ 20 → pinnedAll s + countOf r.c ≤ 512 * 2 ^ 20 →
      ((∃ w ∈ cx.windows, w.va < r.a.toNat + countOf r.c ∧ r.a.toNat < w.va + w.len) →
        exec (.pin f) s = .next (leaves (pinReturn s (idle s) r 4) iss f r {})) ∧
      ((∀ w ∈ cx.windows, ¬ (w.va < r.a.toNat + countOf r.c ∧ r.a.toNat < w.va + w.len)) →
        exec (.pin f) s = .next (leaves (pinReturn s { idle s with contexts := s.contexts.modify (ctxOf s r.tid) fun k =>
          { k with windows := k.windows ++ [⟨r.a.toNat, countOf r.c, windowPages (idle s) (ctxOf s r.tid) r.a.toNat (countOf r.c), 255, false⟩] } }
          r 0) iss f r {}))) := by
  have hc' : (idle s).contexts[ctxOf s r.tid]? = some cx := hc
  have hall : pinnedAll (idle s) = pinnedAll s := rfl
  have hpin := pinWindow_new hc' hw
  rw [hall] at hpin
  refine ⟨fun h16 => ?_, fun h16 h2 => ?_, fun h16 h2 h3 => ?_, fun h16 h2 h3 => ⟨fun h4 => ?_, fun h4 => ?_⟩⟩
  · exact pin_gives h hu ha hn hn0 hl (hpin.trans (if_pos h16)) (cs := s.contexts) rfl
  · rw [if_neg (by omega), if_pos h2] at hpin
    exact pin_gives h hu ha hn hn0 hl hpin (cs := s.contexts) rfl
  · rw [if_neg (by omega), if_neg (by omega), if_pos h3] at hpin
    exact pin_gives h hu ha hn hn0 hl hpin (cs := s.contexts) rfl
  · have hany : (cx.windows.any fun w => w.va < r.a.toNat + countOf r.c ∧ r.a.toNat < w.va + w.len) = true := by
      obtain ⟨w, hmem, hmeet⟩ := h4
      exact List.any_eq_true.2 ⟨w, hmem, by simpa using hmeet⟩
    rw [if_neg (by omega), if_neg (by omega), if_neg (by omega), if_pos hany] at hpin
    exact pin_gives h hu ha hn hn0 hl hpin (cs := s.contexts) rfl
  · have hany : ¬ (cx.windows.any fun w => w.va < r.a.toNat + countOf r.c ∧ r.a.toNat < w.va + w.len) = true := by
      rw [Bool.not_eq_true, List.any_eq_false]
      intro w hmem
      simpa using h4 w hmem
    rw [if_neg (by omega), if_neg (by omega), if_neg (by omega), if_neg hany] at hpin
    exact pin_gives h hu ha hn hn0 hl hpin rfl

/-- Settles O18: `PIN` is the first rule that its window breaks; `UNPIN` and `TOUCH` change the context's windows. -/
theorem windowResults : Obligations.WindowResults := by
  refine ⟨?_, ?_, fun f s iss r h => ⟨fun hf => ?_, fun hu ha => ?_, fun hu ha hn => ?_⟩, fun f s iss r h => ?_, fun f s iss r h => ?_⟩
  · intro f s iss r c cx a n total gives h hu hctx hc ha hn hn0 hlo hhi hw
    subst hctx
    obtain ⟨h1, h2, h3, h4⟩ := pin_new h hu hc ha hn hn0 (rangeLimit_none hlo hhi) hw
    exact ⟨h1, h2, h3, fun h16 hb hall => ⟨(h4 h16 hb hall).1, fun hmeet => ⟨_, (h4 h16 hb hall).2 hmeet⟩⟩⟩
  · intro f s iss r c cx a n h hu hctx hc ha hn hn0 hlo hhi hw
    subst hctx
    have hc' : (idle s).contexts[ctxOf s r.tid]? = some cx := hc
    exact pin_gives h hu ha hn hn0 (rangeLimit_none hlo hhi) (pinWindow_same hc' hw) rfl
  · exact runLanes_waits (body := fun _ _ s r => pinLane s r) h (pinLane_full hf)
  · exact runLanes_traps (body := fun _ _ s r => pinLane s r) h (pinLane_address hu ha)
  · exact runLanes_traps (body := fun _ _ s r => pinLane s r) h (pinLane_length hu ha hn)
  · exact runLanes_leaves (body := fun _ _ s r => .ok (modCtx s (ctxOf s r.tid) fun k =>
      { k with windows := k.windows.filter fun w => w.va ≠ r.a.toNat }) {}) h rfl (show ((idle s).threads[r.tid]?).isSome from single_sat h)
  · exact runLanes_leaves (body := fun _ _ s r => .ok (modCtx s (ctxOf s r.tid) fun k => { k with windows := k.windows.map fun w =>
      if w.va ≤ r.a.toNat ∧ r.a.toNat < w.va + w.len then { w with fade := 255 } else w }) {}) h rfl (show ((idle s).threads[r.tid]?).isSome from single_sat h)

end Sys2Proof.Copying

/-! SUPPORT. Statements settled: queues, condition waits and operations over Lode as they are issued (R164 to R168). -/

namespace Sys2Proof.Remote

open Sys2Proof.Machine Sys2Proof.Claims Sys2Proof.Issuing Sys2Proof.Copying Sys2Proof.Encoding

variable {f : Form} {s : State} {r : Ready}

/-! Bytes in sequence. -/

theorem bytesOfBits_add (a b v : Nat) : bytesOfBits (a + b) v = bytesOfBits a v ++ bytesOfBits b (v / 256 ^ a) := by
  induction a generalizing v with
  | zero => simp [bytesOfBits]
  | succ a ih =>
    rw [show a + 1 + b = (a + b) + 1 by omega, bytesOfBits, ih, bytesOfBits, List.cons_append, Nat.div_div_eq_div_mul,
      Nat.pow_succ, Nat.mul_comm 256]

theorem bytesOf_word (v : Nat) : bytesOf 4 (BitVec.ofNat 32 v).toNat = bytesOf 4 v := by
  rw [BitVec.toNat_ofNat]
  exact bytesOfBits_congr (Nat.mod_mod _ _)

/-- A doubleword's bytes are those of its two words. -/
theorem bytesOf_pair (x : DWord) : bytesOf 4 (x.extractLsb' 0 32).toNat ++ bytesOf 4 (x.extractLsb' 32 32).toNat = bytesOf 8 x.toNat := by
  have hlow : (x.extractLsb' 0 32).toNat = x.toNat % 256 ^ 4 := by
    rw [BitVec.extractLsb'_toNat, Nat.shiftRight_zero]; rfl
  have hhigh : (x.extractLsb' 32 32).toNat = x.toNat / 256 ^ 4 % 256 ^ 4 := by
    rw [BitVec.extractLsb'_toNat, Nat.shiftRight_eq_div_pow]; rfl
  unfold bytesOf
  rw [show (8 : Nat) = 4 + 4 from rfl, bytesOfBits_add, hlow, hhigh, bytesOfBits_congr (Nat.mod_mod _ _),
    bytesOfBits_congr (Nat.mod_mod (x.toNat / 256 ^ 4) _)]

/-- The bytes of a queue's entry (R168). -/
theorem entryBytes (e : CqEntry) : (entryWords e).flatMap (fun w => bytesOf 4 w.toNat) =
    bytesOf 8 e.old.toNat ++ bytesOf 4 (e.status * 65536 + e.tid % 65536) ++ bytesOf 4 e.addr.toNat := by
  simp only [entryWords, List.flatMap_cons, List.flatMap_nil, List.append_nil, bytesOf_word, ← bytesOf_pair, List.append_assoc]

/-! Teams whose queues change. -/

/-- A team's place and grid do not depend on what else changes in a team. -/
theorem coreOf_modTeam (s : State) (m t : Nat) (g : Team → Team) (hg : ∀ k, (g k).die = k.die ∧ (g k).site = k.site) :
    coreOf (modTeam s m g) t = coreOf s t := by
  have hgroup : groupOf (modTeam s m g) t = groupOf s t := rfl
  unfold coreOf teamOf
  rw [hgroup]
  cases groupOf s t with
  | none => rfl
  | some gr =>
    simp only [Option.bind_some, modTeam, modAt, List.getElem?_modify]
    cases s.teams[gr.team]? with
    | none => rfl
    | some k =>
      split
      · exact congrArg₂ Prod.mk (hg k).1 (hg k).2
      · rfl

theorem ctxOf_modTeam (s : State) (m t : Nat) (g : Team → Team) (hg : ∀ k, (g k).grid = k.grid) :
    ctxOf (modTeam s m g) t = ctxOf s t := by
  have hgroup : groupOf (modTeam s m g) t = groupOf s t := rfl
  unfold ctxOf gridOf teamOf
  rw [hgroup]
  cases groupOf s t with
  | none => rfl
  | some gr =>
    simp only [Option.bind_some, modTeam, modAt, List.getElem?_modify]
    cases s.teams[gr.team]? with
    | none => rfl
    | some k =>
      split
      · exact congrArg (fun x => ((s.grids[x]?).map (·.ctx)).getD 0) (hg k)
      · rfl

/-! Results that come through ld. -/

/-- The access that returns bytes, in a state whose teams have changed otherwise. -/
theorem returning_modTeam (m : Nat) (g : Team → Team) (hd : ∀ k, (g k).die = k.die ∧ (g k).site = k.site) (hg : ∀ k, (g k).grid = k.grid)
    (bs : List Byte) : returning (modTeam (idle s) m g) r bs = returning (idle s) r bs := by
  unfold returning accessOf
  simp only [coreOf_modTeam _ _ _ _ hd, ctxOf_modTeam _ _ _ _ hg]
  rfl

theorem returning_modQueue (m q : Nat) (g : CQueue → CQueue) (bs : List Byte) :
    returning (modQueue (idle s) m q g) r bs = returning (idle s) r bs :=
  returning_modTeam m (fun t => { t with queues := modAt t.queues q g }) (fun _ => ⟨rfl, rfl⟩) (fun _ => rfl) bs

/-- The four registers of an entry, in a state. -/
def popReturn (s t : State) (r : Ready) (bs : List Byte) : State :=
  withAccess t { issued s r.tid (.load false false false) .nothing 16 0 noXlat [] with
    bytes := bs, dest := destOf s r.tid r.d 4 r.span, ctr := .ld }

/-- The access that returns an entry's sixteen bytes. -/
theorem returning_entry {bs : List Byte} (h : bs.length = 16) : returning (idle s) r bs =
    { issued s r.tid (.load false false false) .nothing 16 0 noXlat [] with
      bytes := bs, dest := destOf s r.tid r.d 4 r.span, ctr := .ld } := by
  unfold returning
  rw [h]
  rfl

theorem entryBytes_length (e : CqEntry) :
    (bytesOf 8 e.old.toNat ++ bytesOf 4 (e.status * 65536 + e.tid % 65536) ++ bytesOf 4 e.addr.toNat).length = 16 := by
  simp only [List.length_append, bytesOf, Laws.Encoded.bytes_length]

/-! `CQPOP` (R168). -/

/-- A queue of a team with its entries replaced. -/
def queueLeft (s : State) (m q : Nat) (rest : List CqEntry) : State :=
  { idle s with teams := s.teams.modify m fun t => { t with queues := t.queues.modify q fun x => { x with entries := rest } } }

theorem cqpopLane_entry {e : CqEntry} {rest : List CqEntry} (hu : unfull s r.tid .ld)
    (hq : (queueAt s (teamIdOf s r.tid) f.a.toNat).entries = e :: rest) :
    cqpopLane f (idle s) r = .ok (popReturn s (queueLeft s (teamIdOf s r.tid) f.a.toNat rest) r
      (bytesOf 8 e.old.toNat ++ bytesOf 4 (e.status * 65536 + e.tid % 65536) ++ bytesOf 4 e.addr.toNat)) {} := by
  have hq' : (queueAt (idle s) (teamIdOf (idle s) r.tid) f.a.toNat).entries = e :: rest := hq
  simp only [cqpopLane, counterHold_free hu, hq', entryBytes]
  rw [returning_modQueue, enqueue_eq _ _ rfl, returning_entry (entryBytes_length e)]
  rfl

theorem cqpopLane_waits (hu : unfull s r.tid .ld) (hq : (queueAt s (teamIdOf s r.tid) f.a.toNat).entries = [])
    (hm : f.mod.getLsbD 0 = true) : cqpopLane f (idle s) r = .hold (.cqEntry f.a.toNat) := by
  have hq' : (queueAt (idle s) (teamIdOf (idle s) r.tid) f.a.toNat).entries = [] := hq
  simp only [cqpopLane, counterHold_free hu, hq', hm, if_true]

theorem cqpopLane_empty (hu : unfull s r.tid .ld) (hq : (queueAt s (teamIdOf s r.tid) f.a.toNat).entries = [])
    (hm : f.mod.getLsbD 0 = false) :
    cqpopLane f (idle s) r = .ok (popReturn s { idle s with seed := s.seed + 1 } r
      (bytesOf 8 (freeWord s.seed).toNat ++ bytesOf 4 0xFF0000 ++ bytesOf 4 0)) {} := by
  have hq' : (queueAt (idle s) (teamIdOf (idle s) r.tid) f.a.toNat).entries = [] := hq
  have hlen := entryBytes_length ⟨freeWord s.seed, 0xFF, 0, 0⟩
  simp only [cqpopLane, counterHold_free hu, hq', hm, Bool.false_eq_true, if_false, entryBytes]
  have hret : ∀ bs, returning ({ idle s with seed := (idle s).seed + 1 } : State) r bs = returning (idle s) r bs := fun _ => rfl
  rw [hret, enqueue_eq _ _ rfl]
  exact congrArg (fun a => LaneOut.ok (withAccess { idle s with seed := s.seed + 1 } a) {}) (returning_entry hlen)

theorem cqpopLane_full (h : full s r.tid .ld) : cqpopLane f (idle s) r = .hold (.counterFull .ld) := by
  simp only [cqpopLane, counterHold_full h]

/-! `ATOMQ` (R167). -/

/-- The operation that an `ATOMQ` names. -/
def queuedOp (f : Form) (s : State) (r : Ready) : LodeOp :=
  { lodeOp s r.tid 3 [] 0 none with
    node := countOf r.b, remote := r.a, fval := r.c, len := widthOf (f.mod.extractLsb' 0 3) / 8
    aop := (f.mod.extractLsb' 3 3).toNat, aty := (f.mod.extractLsb' 0 3).toNat, queue := f.d.toNat
    wide := decide (widthOf (f.mod.extractLsb' 0 3) / 8 = 8) }

/-- The state in which an `ATOMQ` has reserved its entry and raised st. -/
def reservedEntry (f : Form) (s : State) (r : Ready) : State :=
  { idle s with
    nextId := s.nextId + 1
    lodes := s.lodes ++ [queuedOp f s r]
    teams := s.teams.modify (teamIdOf s r.tid) fun t => { t with queues := t.queues.modify f.d.toNat fun q =>
      { q with reserved := q.reserved + 1 } }
    threads := s.threads.modify r.tid (counted .st) }

theorem reservedEntry_some (h : ((idle s).threads[r.tid]?).isSome) : ((reservedEntry f s r).threads[r.tid]?).isSome :=
  some_of_length h (List.length_modify _ _ _)

theorem atomqLane_room (hu : unfull s r.tid .st)
    (hq : 256 ≤ (queueAt s (teamIdOf s r.tid) f.d.toNat).entries.length + (queueAt s (teamIdOf s r.tid) f.d.toNat).reserved) :
    atomqLane f (idle s) r = .hold (.cqRoom f.d.toNat) := by
  simp only [atomqLane, counterHold_free hu]
  exact if_pos hq

/-- `ATOMQ` with room for its entry. -/
theorem atomqLane_reserved (hu : unfull s r.tid .st)
    (hq : (queueAt s (teamIdOf s r.tid) f.d.toNat).entries.length + (queueAt s (teamIdOf s r.tid) f.d.toNat).reserved < 256) :
    atomqLane f (idle s) r = if reachable (reservedEntry f s r) (countOf r.b) then
        .ok { reservedEntry f s r with out := s.out ++ [.atomq (queuedOp f s r).id (queuedOp f s r).node (ctxidOf (reservedEntry f s r) r.tid)
          r.a (f.mod.extractLsb' 3 3).toNat (f.mod.extractLsb' 0 3).toNat r.c] } {}
      else .ok (atomqFinish { reservedEntry f s r with seed := s.seed + 1 } (queuedOp f s r) 1 (freeWord s.seed)) {} := by
  have hroom : ¬ 256 ≤ (queueAt (idle s) (teamIdOf (idle s) r.tid) f.d.toNat).entries.length +
      (queueAt (idle s) (teamIdOf (idle s) r.tid) f.d.toNat).reserved := Nat.not_le.2 hq
  simp only [atomqLane, counterHold_free hu, if_neg hroom, count_eq, modIt, tyBytes_eq, atomOpOf]
  rfl

theorem atomqLane_full (h : full s r.tid .st) : atomqLane f (idle s) r = .hold (.counterFull .st) := by
  simp only [atomqLane, counterHold_full h]

theorem atomqFinish_length (s : State) (o : LodeOp) (st : Nat) (old : DWord) :
    (atomqFinish s o st old).threads.length = s.threads.length := by
  unfold atomqFinish
  rw [raiseFences_length]
  simp [lowerCtr, modQueue, modTeam, modThread, modAt]

/-- Settles O19: `ATOMQ`'s entry is reserved first; `CQPOP` gives the oldest one. -/
theorem queueResults : Obligations.QueueResults := by
  refine ⟨?_, fun f s iss r e rest h hu hq => ?_, fun f s iss r h hu hq => ⟨fun hm => ?_, fun hm => ⟨freeWord s.seed, ?_⟩⟩,
    fun f s iss r => ⟨fun h hf => ?_, fun h hf => ?_⟩⟩
  · intro f s iss r m ty op n o s1 h hu
    refine ⟨fun hq => ?_, fun hq hr => ?_, fun hq hr => ⟨freeWord s.seed, ?_⟩⟩
    · exact runLanes_waits (body := fun _ _ s r => atomqLane f s r) h (atomqLane_room hu hq)
    · refine runLanes_leaves (body := fun _ _ s r => atomqLane f s r) h ((atomqLane_reserved hu hq).trans (if_pos hr)) ?_
      exact reservedEntry_some (f := f) (single_sat h)
    · have hr' : ¬ reachable (reservedEntry f s r) (countOf r.b) = true := by rw [Bool.not_eq_true]; exact hr
      refine runLanes_leaves (body := fun _ _ s r => atomqLane f s r) h ((atomqLane_reserved hu hq).trans (if_neg hr')) ?_
      exact some_of_length (reservedEntry_some (f := f) (single_sat h)) (atomqFinish_length _ _ _ _)
  · exact runLanes_leaves (body := fun _ _ s r => cqpopLane f s r) h (cqpopLane_entry hu hq)
      (withAccess_some (show ((idle s).threads[r.tid]?).isSome from single_sat h))
  · exact runLanes_waits (body := fun _ _ s r => cqpopLane f s r) h (cqpopLane_waits hu hq hm)
  · exact runLanes_leaves (body := fun _ _ s r => cqpopLane f s r) h (cqpopLane_empty hu hq hm)
      (withAccess_some (show ((idle s).threads[r.tid]?).isSome from single_sat h))
  · exact runLanes_waits (body := fun _ _ s r => cqpopLane f s r) h (cqpopLane_full hf)
  · exact runLanes_waits (body := fun _ _ s r => atomqLane f s r) h (atomqLane_full hf)

/-! `WAITC` (R164). -/

/-- The bytes that a condition reads. -/
theorem waitBytes_eq (f : Form) : (if itWidth (modIt f.mod) = 64 then 8 else 4) = widthOf (f.mod.extractLsb' 0 3) / 8 := by
  have h : ∀ z : BitVec 3, (if itWidth z = 64 then 8 else 4) = widthOf z / 8 := by decide
  exact h _

/-- The read event of a `WAITC`: the state after it, the bytes, and its time. -/
def conditionRead (f : Form) (s : State) (r : Ready) (p : Place) (th : Thread) : State × List Byte × Nat :=
  readBytesNow (cacheRange (idle s) (ctxOf s r.tid) (byteAddress r.a r.b (widthOf (f.mod.extractLsb' 0 3) / 8))
    (widthOf (f.mod.extractLsb' 0 3) / 8)) (placeAddr p) (widthOf (f.mod.extractLsb' 0 3) / 8) (some (ctxOf s r.tid)) th.ptime

/-- The state after the read event, which the thread's ptime follows. -/
def conditionState (f : Form) (s : State) (r : Ready) (p : Place) (th : Thread) : State :=
  raisePtime (conditionRead f s r p th).1 r.tid (conditionRead f s r p th).2.2

/-- The value that it read. -/
def conditionValue (f : Form) (s : State) (r : Ready) (p : Place) (th : Thread) : DWord :=
  BitVec.ofNat 64 (bitsOfBytes (conditionRead f s r p th).2.1)

theorem waitcLane_read {p : Place} {x : Xlat} {ks : List (Nat × Nat)} {th : Thread} (ht : s.threads[r.tid]? = some th)
    (ha : hasAccess s r.tid = false)
    (hl : atomLocate (idle s) r.tid (byteAddress r.a r.b (widthOf (f.mod.extractLsb' 0 3) / 8)) (widthOf (f.mod.extractLsb' 0 3) / 8)
      needRW = .ok p x ks) :
    waitcLane f (idle s) r =
      if compares (f.mod.extractLsb' 3 3) (num (kindOf (f.mod.extractLsb' 0 3)) (conditionValue f s r p th))
          (num (kindOf (f.mod.extractLsb' 0 3)) r.c) then
        .ok (modTeam (conditionState f s r p th) (teamIdOf (conditionState f s r p th) r.tid) fun k => { k with waitcSince := none })
          { vals := valueWords (8 * (widthOf (f.mod.extractLsb' 0 3) / 8)) (conditionValue f s r p th) }
      else .suspend (suspendOn (conditionState f s r p th) r.tid (placeAddr p / 64) x.ms
        ⟨placeAddr p / 64, r.tid, f.mod.extractLsb' 3 3, f.mod.extractLsb' 0 3, r.c, placeAddr p % 64⟩) := by
  have ha' : hasAccess (idle s) r.tid = false := ha
  have ht' : (idle s).threads[r.tid]? = some th := ht
  simp only [waitcLane, ha', Bool.false_eq_true, if_false, waitBytes_eq, elementAddr, byteAddress_eq, hl, ht', Option.map_some,
    Option.getD_some, aluIcmp_eq, ccOf]
  rfl

/-- A thread that waits for its condition: its wait, and a monitor where one is free. -/
theorem suspendOn_effect (s : State) (t sec : Nat) (ms : Bool) (m : Monitor) :
    (if ms ∨ 1024 ≤ sliceMonitors s sec then
      (suspendOn s t sec ms m).threads = (waitsAt s t (.poll (s.clk + 256))).threads ∧ (suspendOn s t sec ms m).dies = s.dies
    else (suspendOn s t sec ms m).threads = (waitsAt s t (.monitor sec)).threads ∧
      (suspendOn s t sec ms m).dies = s.dies.modify (homeDie (sec * 64)) fun d => { d with monitors := d.monitors ++ [m] }) ∧
    (suspendOn s t sec ms m).mem = s.mem ∧ (suspendOn s t sec ms m).homes = s.homes ∧ (suspendOn s t sec ms m).accs = s.accs := by
  unfold suspendOn
  by_cases h : ms = true ∨ 1024 ≤ sliceMonitors s sec
  · rw [if_pos h, if_pos h]; exact ⟨⟨rfl, rfl⟩, rfl, rfl, rfl⟩
  · rw [if_neg h, if_neg h]; exact ⟨⟨rfl, rfl⟩, rfl, rfl, rfl⟩

/-- Settles O20: one read event, then the condition. -/
theorem conditionResults : Obligations.ConditionResults := by
  intro f s iss r p x ks th n pa sec h v s1 k hs ht ha hl hsome
  have hlane := waitcLane_read ht ha hl
  refine ⟨fun hc => ?_, fun hc => ⟨_, ?_, suspendOn_effect s1 r.tid sec x.ms
    ⟨sec, r.tid, f.mod.extractLsb' 3 3, f.mod.extractLsb' 0 3, r.c, pa % 64⟩⟩⟩
  · exact runLanes_leaves (body := fun _ _ s r => waitcLane f s r) hs (hlane.trans (if_pos hc)) hsome
  · refine runLanes_suspends (body := fun _ _ s r => waitcLane f s r) hs (hlane.trans (if_neg ?_))
    rw [Bool.not_eq_true]; exact hc

/-! `PUTR`, `GETR` and `WSIG` (R165, R166). -/

section Lode

variable {mk : Form → Instr} {opc : BitVec 8} {kind : Nat} {iss : Issue}

theorem lode_out (hmk : mk = .putr ∧ opc = 0xB7 ∧ kind = 0 ∨ mk = .getr ∧ opc = 0xB8 ∧ kind = 1 ∨ mk = .wsig ∧ opc = 0xB6 ∧ kind = 2)
    (h : Single s iss opc f r) : exec (mk f) s = .next (aloneOut (idle s) iss opc f r (lodeLane kind f (idle s) r)) := by
  rcases hmk with ⟨rfl, rfl, rfl⟩ | ⟨rfl, rfl, rfl⟩ | ⟨rfl, rfl, rfl⟩
  · exact runLanes_alone (body := fun _ _ s r => lodeLane 0 f s r) h
  · exact runLanes_alone (body := fun _ _ s r => lodeLane 1 f s r) h
  · exact runLanes_alone (body := fun _ _ s r => lodeLane 2 f s r) h

theorem lode_leaves (hmk : mk = .putr ∧ opc = 0xB7 ∧ kind = 0 ∨ mk = .getr ∧ opc = 0xB8 ∧ kind = 1 ∨ mk = .wsig ∧ opc = 0xB6 ∧ kind = 2)
    (h : Single s iss opc f r) {t t' : State} (hb : lodeLane kind f (idle s) r = .ok t {}) (ht : t = t') (hs : (t'.threads[r.tid]?).isSome) :
    exec (mk f) s = .next (leaves t' iss f r {}) := by
  subst ht
  rw [lode_out hmk h, hb, aloneOut_ok hs]

variable {s1 : State} {bs : List Byte} {at_ : Option SpadRef}

theorem lodeLane_bad {off : Nat} (hu : unfull s r.tid .cp)
    (hr : readAtIssue (idle s) r.tid (if f.mod.getLsbD 0 then 1 else 0) r.a.toNat 64 64 = .ok s1 bs at_) (hb : lodeBad kind bs = some off) :
    lodeLane kind f (idle s) r = .trap ⟨23, 0, off, 0⟩ := by
  simp only [lodeLane, counterHold_free hu, hr, hb]
  rfl

theorem lodeLane_starts {ps : List (Nat × Nat)} {x : Xlat} {ks : List (Nat × Nat)} (hu : unfull s r.tid .cp)
    (hr : readAtIssue (idle s) r.tid (if f.mod.getLsbD 0 then 1 else 0) r.a.toNat 64 64 = .ok s1 bs at_) (hb : lodeBad kind bs = none)
    (hl : lodeLocal s1 r.tid kind (lodeOp s1 r.tid kind bs r.a.toNat at_).local_.toNat (lodeOp s1 r.tid kind bs r.a.toNat at_).len = .ok ps x ks) :
    lodeLane kind f (idle s) r = .ok (lodeStart s1 (lodeOp s1 r.tid kind bs r.a.toNat at_) ps ks) {} := by
  simp only [lodeLane, counterHold_free hu, hr, hb, hl]

/-- The state in which an operation over Lode has raised its counter. -/
def lodeRaised (s : State) (o : LodeOp) : State :=
  { cacheRange s o.ctx o.local_.toNat o.len with nextId := s.nextId + 1, threads := s.threads.modify o.tid (counted .cp) }

theorem lodeRaised_eq (s : State) (o : LodeOp) :
    raiseCtr { cacheRange s o.ctx o.local_.toNat o.len with nextId := (cacheRange s o.ctx o.local_.toNat o.len).nextId + 1 } o.tid .cp =
      lodeRaised s o := by
  obtain ⟨l, hl⟩ := cacheRange_frame s o.ctx o.local_.toNat o.len
  rw [lodeRaised, hl, counted_eq]
  rfl

theorem lodeRaised_keeps (s : State) (o : LodeOp) : (lodeRaised s o).lodes = s.lodes ∧ (lodeRaised s o).out = s.out ∧
    (lodeRaised s o).contexts = s.contexts ∧ (lodeRaised s o).threads = s.threads.modify o.tid (counted .cp) := by
  obtain ⟨l, hl⟩ := cacheRange_frame s o.ctx o.local_.toNat o.len
  rw [lodeRaised, hl]
  exact ⟨rfl, rfl, rfl, rfl⟩

/-- The start of an operation over Lode, in the state in which its counter is raised. -/
theorem lodeStart_eq (s : State) (o : LodeOp) (ps ks : List (Nat × Nat)) : lodeStart s o ps ks =
    if !reachable (lodeRaised s o) o.node then lodeFinish (lodeRaised s o) o 1
    else if o.kind = 0 then { lodeRaised s o with lodes := s.lodes ++ [o], out := s.out ++
      [.put o.id o.node (((s.contexts[o.ctx]?).map (·.ctxid)).getD 0) o.remote (virtLoad (lodeRaised s o) o.ctx o.local_.toNat o.len)] }
    else if o.kind = 2 then { lodeRaised s o with lodes := s.lodes ++ [o], out := s.out ++
      [.signal o.id o.node (((s.contexts[o.ctx]?).map (·.ctxid)).getD 0) o.remote (virtLoad (lodeRaised s o) o.ctx o.local_.toNat o.len)
        o.flag o.fval o.flagop] }
    else
      let e := landingOp (lodeRaised s o) o ps ks
      let s3 := startOp { lodeRaised s o with lodes := s.lodes ++ [{ o with engine := some e.id }] } e
      if s3.engines.any fun x => x.id = e.id && x.locked then sendGet s3 e else s3 := by
  obtain ⟨hlodes, hout, hctx, -⟩ := lodeRaised_keeps s o
  simp only [lodeStart, lodeRaised_eq, hlodes, hout, hctx]

theorem sendGet_threads (s : State) (e : EngineOp) : (sendGet s e).threads = s.threads := by
  unfold sendGet; split <;> rfl

/-- Settles O21: the descriptor's fields, the local range's checks, then the operation's start. -/
theorem remoteResults : Obligations.RemoteResults := by
  intro mk opc kind hmk f s iss r s1 bs at_ h hu hsome hr
  refine ⟨fun off hb => ?_, ?_⟩
  · rw [lode_out hmk h, lodeLane_bad hu hr hb]; rfl
  · intro ps x ks hb o hl s2 ctxid
    have hraised : ((lodeRaised s1 o).threads[r.tid]?).isSome := by
      rw [(lodeRaised_keeps s1 o).2.2.2]; exact some_of_length hsome (List.length_modify _ _ _)
    have hstart := lodeStart_eq s1 o ps ks
    have hlane := lodeLane_starts hu hr hb hl
    refine ⟨fun hn hfin => ?_, fun hn hk => ?_, fun hn hk => ?_, fun hn hk => ?_⟩
    · have hn' : (!reachable (lodeRaised s1 o) o.node) = true := by rw [Bool.not_eq_true']; exact hn
      exact lode_leaves hmk h hlane (hstart.trans (if_pos hn')) hfin
    all_goals
      have hn' : ¬ (!reachable (lodeRaised s1 o) o.node) = true := by
        rw [Bool.not_eq_true', Bool.not_eq_false]; exact hn
      rw [if_neg hn'] at hstart
      subst hk
    · exact lode_leaves hmk h hlane (hstart.trans (if_pos rfl)) hraised
    · rw [if_neg (show ¬ o.kind = 0 from Nat.succ_ne_zero 1)] at hstart
      exact lode_leaves hmk h hlane (hstart.trans (if_pos rfl)) hraised
    · rw [if_neg (show ¬ o.kind = 0 from Nat.one_ne_zero), if_neg (show ¬ o.kind = 2 from Nat.ne_of_lt Nat.one_lt_two)] at hstart
      refine lode_leaves hmk h hlane hstart ?_
      split
      · rw [sendGet_threads, startOp_threads]; exact hraised
      · rw [startOp_threads]; exact hraised

end Lode

end Sys2Proof.Remote

/-! SUPPORT. Statements settled: barriers, arrival objects, fences and counter waits (R169 to R177). -/

namespace Sys2Proof.Barriers

open Sys2Proof.Machine Sys2Proof.Claims Sys2Proof.Issuing

variable {f : Form} {s : State} {r : Ready}

/-! Largest values and threads that change one after another. -/

theorem le_foldl_max_init {α : Type} (g : α → Nat) (l : List α) : ∀ m : Nat, m ≤ l.foldl (fun m x => max m (g x)) m := by
  induction l with
  | nil => intro m; exact Nat.le_refl m
  | cons x l ih => intro m; exact Nat.le_trans (Nat.le_max_left _ _) (ih _)

/-- The largest of some values is at least each of them. -/
theorem le_foldl_max {α : Type} (g : α → Nat) (l : List α) : ∀ (m : Nat), ∀ x ∈ l, g x ≤ l.foldl (fun m x => max m (g x)) m := by
  induction l with
  | nil => intro m x hx; cases hx
  | cons y l ih =>
    intro m x hx
    rcases List.mem_cons.1 hx with rfl | hx
    · exact Nat.le_trans (Nat.le_max_right _ _) (le_foldl_max_init g l _)
    · exact ih _ x hx

theorem threads_modThread_same {t : Nat} {g : Thread → Thread} {th : Thread} (h : s.threads[t]? = some th) :
    (modThread s t g).threads[t]? = some (g th) := by
  simp only [modThread, modAt, List.getElem?_modify_eq, h]
  rfl

theorem threads_modThread_other {t u : Nat} {g : Thread → Thread} (h : u ≠ t) : (modThread s t g).threads[u]? = s.threads[u]? := by
  simp only [modThread, modAt]
  exact List.getElem?_modify_ne _ _ (Ne.symm h)

/-! The release of an episode (R169). -/

/-- One thread's release: it passes the barrier with the largest ptime. -/
def releaseOne (pc : DWord) (len top clk : Nat) (th : Thread) : Thread :=
  let u := becomeReady { fallThrough th pc len with counted := none } (clk + 1)
  { u with ptime := max u.ptime top }

theorem fallThrough_keeps (th : Thread) (pc : DWord) (len : Nat) :
    (fallThrough th pc len).regs = th.regs ∧ (fallThrough th pc len).preds = th.preds ∧ (fallThrough th pc len).ptime = th.ptime := by
  unfold fallThrough
  dsimp only
  split
  · split
    · split
      · split <;> exact ⟨rfl, rfl, rfl⟩
      · exact ⟨rfl, rfl, rfl⟩
    · exact ⟨rfl, rfl, rfl⟩
  · exact ⟨rfl, rfl, rfl⟩

theorem releaseOne_keeps (pc : DWord) (len top clk : Nat) (th : Thread) :
    (releaseOne pc len top clk th).wait = .ready ∧ (releaseOne pc len top clk th).regs = th.regs ∧
    (releaseOne pc len top clk th).preds = th.preds ∧ (releaseOne pc len top clk th).ptime = max th.ptime top := by
  obtain ⟨hregs, hpreds, hptime⟩ := fallThrough_keeps th pc len
  exact ⟨rfl, hregs, hpreds, by rw [← hptime]; rfl⟩

/-- The release of a thread in the state. -/
theorem release_step (s : State) (t top : Nat) (pc : DWord) (len : Nat) :
    raisePtime (advance s t pc len) t top = modThread s t (releaseOne pc len top s.clk) := by
  unfold raisePtime advance
  simp only [modThread, modAt, List.modify_modify_eq]
  rfl

/-- Of threads released one after another, each once, one is as its own release leaves it. -/
theorem threads_releases (pc : DWord) (len top : Nat) {t : Nat} (l : List Nat) : ∀ (s : State) (th : Thread), l.Nodup →
    s.threads[t]? = some th →
    (l.foldl (fun s t => raisePtime (advance s t pc len) t top) s).threads[t]? =
      some (if t ∈ l then releaseOne pc len top s.clk th else th) := by
  induction l with
  | nil => intro s th _ h; exact h
  | cons x l ih =>
    intro s th hn h
    obtain ⟨hx, hl⟩ := List.nodup_cons.1 hn
    have hclk : (modThread s x (releaseOne pc len top s.clk)).clk = s.clk := rfl
    rw [List.foldl_cons, release_step]
    by_cases hxt : t = x
    · subst hxt
      rw [ih _ _ hl (threads_modThread_same h), if_neg hx, if_pos List.mem_cons_self]
    · rw [ih _ _ hl ((threads_modThread_other hxt).trans h), hclk]
      simp only [List.mem_cons, hxt, false_or]

/-- Releasing changes threads only. -/
theorem releaseEpisode_clusters (s : State) (e : Episode) (ts : List Nat) : (releaseEpisode s e ts).clusters = s.clusters := by
  unfold releaseEpisode
  generalize ts.foldl (fun a t => max a (((s.threads[t]?).map (·.ptime)).getD 0)) 0 = top
  generalize e.waiting = l
  dsimp only
  induction l generalizing s with
  | nil => rfl
  | cons x l ih => rw [List.foldl_cons, ih]; rfl

/-! When an episode is complete. -/

theorem allArrived_iff (s : State) (ts waiting : List Nat) : allArrived s ts waiting = true ↔
    ∀ t ∈ ts, waiting.contains t = true ∨ (threadExited s t = true ∧ ∀ a ∈ s.accs, ¬ t ∈ a.owners) := by
  simp only [allArrived, List.all_eq_true, Bool.or_eq_true, Bool.and_eq_true, Bool.not_eq_true', List.any_eq_false,
    List.contains_iff_mem]

section Settle

variable {m : Nat} {tm : Team} {e : Episode}

/-- A team's own episode settled, where its cluster has none. -/
theorem settleBarriers_team (hm : s.teams[m]? = some tm) (he : tm.episode = some e)
    (hk : ∀ k, s.clusters[tm.cluster]? = some k → k.episode = none) : settleBarriers s m =
      if allArrived s (teamThreads s m) e.waiting then
        releaseEpisode (modTeam s m fun m => { m with episode := none }) e (teamThreads s m) else s := by
  have hnone : (s.clusters[tm.cluster]?).bind (·.episode) = none := by
    cases hc : s.clusters[tm.cluster]? with
    | none => rfl
    | some k => exact hk k hc
  simp only [settleBarriers, hm, he]
  by_cases ha : allArrived s (teamThreads s m) e.waiting = true
  · simp only [if_pos ha]
    rw [releaseEpisode_clusters]
    rw [show (modTeam s m fun m => { m with episode := none }).clusters = s.clusters from rfl, hnone]
  · simp only [if_neg ha, hnone]

theorem settleBarriers_waits {t : Nat} (hm : s.teams[m]? = some tm) (he : tm.episode = some e)
    (hk : ∀ k, s.clusters[tm.cluster]? = some k → k.episode = none) (ht : t ∈ teamThreads s m) (hx : threadExited s t = false)
    (hw : e.waiting.contains t = false) : settleBarriers s m = s := by
  rw [settleBarriers_team hm he hk, if_neg]
  intro ha
  rcases (allArrived_iff _ _ _).1 ha t ht with h | ⟨h, -⟩
  · rw [hw] at h; cases h
  · rw [hx] at h; cases h

theorem settleBarriers_releases (hm : s.teams[m]? = some tm) (he : tm.episode = some e)
    (hk : ∀ k, s.clusters[tm.cluster]? = some k → k.episode = none)
    (ha : ∀ t ∈ teamThreads s m, e.waiting.contains t = true ∨ (threadExited s t = true ∧ ∀ a ∈ s.accs, ¬ t ∈ a.owners))
    (hn : e.waiting.Nodup) {t : Nat} (ht : t ∈ e.waiting) {th : Thread} (hth : s.threads[t]? = some th) :
    ∃ th', (settleBarriers s m).threads[t]? = some th' ∧ th'.wait = .ready ∧ th'.regs = th.regs ∧ th'.preds = th.preds ∧
      th.ptime ≤ th'.ptime ∧ ∀ u ∈ teamThreads s m, ∀ tu, s.threads[u]? = some tu → tu.ptime ≤ th'.ptime := by
  rw [settleBarriers_team hm he hk, if_pos ((allArrived_iff _ _ _).2 ha)]
  have hrel := threads_releases e.pc e.len ((teamThreads s m).foldl (fun a t => max a (((s.threads[t]?).map (·.ptime)).getD 0)) 0)
    e.waiting (modTeam s m fun m => { m with episode := none }) th hn hth
  rw [if_pos ht] at hrel
  obtain ⟨hwait, hregs, hpreds, hptime⟩ := releaseOne_keeps e.pc e.len
    ((teamThreads s m).foldl (fun a t => max a (((s.threads[t]?).map (·.ptime)).getD 0)) 0) s.clk th
  refine ⟨_, hrel, hwait, hregs, hpreds, by rw [show (modTeam s m _).clk = s.clk from rfl, hptime]; exact Nat.le_max_left _ _,
    fun u hu tu htu => ?_⟩
  have hle := le_foldl_max (fun t => ((s.threads[t]?).map (·.ptime)).getD 0) (teamThreads s m) 0 u hu
  simp only [htu, Option.map_some, Option.getD_some] at hle
  rw [show (modTeam s m _).clk = s.clk from rfl, hptime]
  exact Nat.le_trans hle (Nat.le_max_right _ _)

end Settle

/-! `BAR` and `CBAR` as they issue (R169 to R171). -/

theorem barMask_one (s : State) (t : Nat) (r : Ready) : barMask s [(t, .ready r)] = [(t, .ready r)] := rfl

theorem bar_out {iss : Issue} (h : Single s iss 0xC0 f r) :
    exec (.bar f) s = .next (aloneOut (idle s) iss 0xC0 f r (barLane iss f (idle s) r)) :=
  runWith_alone (start := fun s _ => s) (pick := barMask) (body := fun iss _ s r => barLane iss f s r) h (barMask_one _ _ _)

theorem cbar_out {iss : Issue} (h : Single s iss 0xC1 f r) :
    exec (.cbar f) s = .next (aloneOut (idle s) iss 0xC1 f r (cbarLane iss f (idle s) r)) :=
  runWith_alone (start := fun s _ => s) (pick := barMask) (body := fun iss _ s r => cbarLane iss f s r) h (barMask_one _ _ _)

/-- The record of BARDIV (R171). -/
theorem barDiv_eq (t : Nat) (pc : DWord) (n : Nat) (e : Episode) : barDiv (idle s) t pc n e =
    ⟨11, pc.toNat, e.pc.toNat, (laneMask s (mates s t e.waiting)).toNat + 2 ^ 32 * e.num + 2 ^ 36 * n⟩ := rfl

section Arrivals

variable {iss : Issue} {tm : Team}

theorem clusterIdOf_eq (ht : teamOf s r.tid = some tm) : clusterIdOf (idle s) r.tid = tm.cluster := by
  have ht' : teamOf (idle s) r.tid = some tm := ht
  rw [clusterIdOf, ht', Option.map_some, Option.getD_some]

theorem barLane_first (ha : hasAccess s r.tid = false) (ht : teamOf s r.tid = some tm) (he : tm.episode = none)
    (hk : ∀ k, s.clusters[tm.cluster]? = some k → k.episode = none) :
    barLane iss f (idle s) r = .suspend (arriveTeam (idle s) r.tid ⟨iss.pc, f.len.bytes, f.a.toNat, []⟩) := by
  have ha' : hasAccess (idle s) r.tid = false := ha
  have ht' : teamOf (idle s) r.tid = some tm := ht
  have hnone : ((idle s).clusters[tm.cluster]?).bind (·.episode) = none := by
    have hc : (idle s).clusters = s.clusters := rfl
    rw [hc]
    cases hcl : s.clusters[tm.cluster]? with
    | none => rfl
    | some k => exact hk k hcl
  simp only [barLane, ha', Bool.false_eq_true, if_false, ht', Option.bind_some, he, clusterIdOf_eq ht, hnone]

theorem barLane_later {e : Episode} (ha : hasAccess s r.tid = false) (ht : teamOf s r.tid = some tm) (he : tm.episode = some e) :
    barLane iss f (idle s) r = if e.pc = iss.pc ∧ e.num = f.a.toNat then .suspend (arriveTeam (idle s) r.tid e)
      else .trap (barDiv (idle s) r.tid iss.pc f.a.toNat e) := by
  have ha' : hasAccess (idle s) r.tid = false := ha
  have ht' : teamOf (idle s) r.tid = some tm := ht
  simp only [barLane, ha', Bool.false_eq_true, if_false, ht', Option.bind_some, he]

variable {k : Cluster}

theorem clusterBars_none (ht : teamOf s r.tid = some tm) (he : tm.episode = none) (hk : s.clusters[tm.cluster]? = some k)
    (hts : ∀ u ∈ k.teams, ∀ t, s.teams[u]? = some t → t.episode = none) : clusterBars (idle s) r.tid tm.cluster = none := by
  have ht' : teamOf (idle s) r.tid = some tm := ht
  have hk' : (idle s).clusters[tm.cluster]? = some k := hk
  simp only [clusterBars, ht', Option.bind_some, he, hk', Option.map_some, Option.getD_some]
  rw [List.findSome?_eq_none_iff]
  intro u hu
  cases hu' : (idle s).teams[u]? with
  | none => rfl
  | some t => exact hts u hu t hu'

theorem cbarLane_first (ha : hasAccess s r.tid = false) (ht : teamOf s r.tid = some tm) (hk : s.clusters[tm.cluster]? = some k)
    (hke : k.episode = none) (hts : ∀ u ∈ k.teams, ∀ t, s.teams[u]? = some t → t.episode = none) (he : tm.episode = none) :
    cbarLane iss f (idle s) r = .suspend (arriveCluster (idle s) r.tid ⟨iss.pc, f.len.bytes, f.a.toNat, []⟩) := by
  have ha' : hasAccess (idle s) r.tid = false := ha
  have hk' : (idle s).clusters[tm.cluster]? = some k := hk
  simp only [cbarLane, ha', Bool.false_eq_true, if_false, clusterIdOf_eq ht, hk', Option.bind_some, hke, clusterBars_none ht he hk hts]

theorem cbarLane_later {e : Episode} (ha : hasAccess s r.tid = false) (ht : teamOf s r.tid = some tm)
    (hk : s.clusters[tm.cluster]? = some k) (hke : k.episode = some e) :
    cbarLane iss f (idle s) r = if e.pc = iss.pc ∧ e.num = f.a.toNat then .suspend (arriveCluster (idle s) r.tid e)
      else .trap (barDiv (idle s) r.tid iss.pc f.a.toNat e) := by
  have ha' : hasAccess (idle s) r.tid = false := ha
  have hk' : (idle s).clusters[tm.cluster]? = some k := hk
  simp only [cbarLane, ha', Bool.false_eq_true, if_false, clusterIdOf_eq ht, hk', Option.bind_some, hke]

/-- A thread's arrival in its cluster's episode. -/
theorem arriveCluster_eq (ht : teamOf s r.tid = some tm) (e : Episode) : arriveCluster (idle s) r.tid e =
    settleBarriers { waitsAt (idle s) r.tid (.barrier true) with
      clusters := s.clusters.modify tm.cluster fun c => { c with episode := some { e with waiting := e.waiting ++ [r.tid] } } }
      (teamIdOf s r.tid) := by
  rw [arriveCluster, clusterIdOf_eq ht]
  rfl

end Arrivals

/-- Settles O22: an arrival opens or joins its episode, or diverges from it; a complete episode releases its threads. -/
theorem barrierResults : Obligations.BarrierResults := by
  refine ⟨fun f s iss r m tm h ha hm _ ht => ⟨fun he hk => ?_, fun e he hpc hnum => ?_, fun e he hne => ?_⟩,
    fun f s iss r m tm k h ha hm ht hk => ⟨fun hke hts he => ?_, fun e hke hpc hnum => ?_, fun e hke hne => ?_⟩,
    fun s m tm e hm he hk ha hn t ht th hth => settleBarriers_releases hm he hk ha hn ht hth,
    fun s m tm e t hm he hk ht hx hw => settleBarriers_waits hm he hk ht hx hw⟩
  · subst hm
    rw [bar_out h, barLane_first ha ht he hk]; rfl
  · subst hm
    rw [bar_out h, barLane_later ha ht he, if_pos ⟨hpc, hnum⟩]; rfl
  · rw [bar_out h, barLane_later ha ht he, if_neg hne, barDiv_eq]; rfl
  · subst hm
    rw [cbar_out h, cbarLane_first ha ht hk hke hts he, arriveCluster_eq ht]; rfl
  · subst hm
    rw [cbar_out h, cbarLane_later ha ht hk hke, if_pos ⟨hpc, hnum⟩, arriveCluster_eq ht]; rfl
  · rw [cbar_out h, cbarLane_later ha ht hk hke, if_neg hne, barDiv_eq]; rfl

/-! Arrival objects (R172, R173). -/

section Objects

variable {p : Place} {x : Xlat} {ks : List (Nat × Nat)}

theorem abinitLane_ok (hu : unfull s r.tid .st) (h0 : ¬ (countOf r.b = 0 ∧ countOf r.c = 0)) (hb : countOf r.b ≤ 32767)
    (hc : countOf r.c < 2 ^ 31) (hl : locate (idle s) r.tid (if f.mod.getLsbD 0 then 2 else 1) r.a.toNat 16 16 needW [] = .ok p x ks) :
    abinitLane f (idle s) r = .ok (enqueue (idle s)
      { issued s r.tid (.abinit (countOf r.b) (countOf r.c)) p 16 r.a.toNat x ks with ctr := .st }) {} := by
  have hfit : ¬ ((countOf r.b = 0 ∧ countOf r.c = 0) ∨ 32767 < countOf r.b ∨ 2 ^ 31 ≤ countOf r.c) := by omega
  simp only [abinitLane, counterHold_free hu, count_eq, if_neg hfit, objectSpace, hl, issued_eq]

theorem abarvLane_ok (hu : unfull s r.tid .ld)
    (hl : locate (idle s) r.tid (if f.mod.getLsbD 0 then 2 else 1) r.a.toNat 16 16 needRW [] = .ok p x ks) :
    abarvLane f (idle s) r = .ok (enqueue (idle s)
      { issued s r.tid (.abarv (countOf r.b)) p 16 r.a.toNat x ks with dest := destOf s r.tid r.d 1 r.span, ctr := .ld }) {} := by
  simp only [abarvLane, counterHold_free hu, count_eq, objectSpace, hl, issued_eq]
  rfl

/-- The read of an arrival object. -/
def objectRead (s : State) (r : Ready) (at_ : SpadRef) (n : Nat) : State × List Byte × Nat :=
  spadRead (spadFill (idle s) at_ n) at_ 16 ((((spadFill (idle s) at_ n).threads[r.tid]?).map (·.ptime)).getD 0)

theorem abwaitLane_read {at_ : SpadRef} {n : Nat} (ha : hasAccess s r.tid = false)
    (hl : locate (idle s) r.tid (if f.mod.getLsbD 0 then 2 else 1) r.a.toNat 16 16 needR [] = .ok (.spad at_ n) x ks)
    (hr : spadReady (spadFill (idle s) at_ n) at_ n = true) :
    abwaitLane f (idle s) r =
      if 1 ≤ (bitsOfBytes ((objectRead s r at_ n).2.1.take 4) + 2 ^ 32 - countOf r.b) % 2 ^ 32 ∧
          (bitsOfBytes ((objectRead s r at_ n).2.1.take 4) + 2 ^ 32 - countOf r.b) % 2 ^ 32 < 2 ^ 31 then
        .ok (raisePtime (objectRead s r at_ n).1 r.tid (objectRead s r at_ n).2.2) {}
      else .suspend (holdAt (raisePtime (objectRead s r at_ n).1 r.tid (objectRead s r at_ n).2.2) r.tid (.arrival at_ (countOf r.b))) := by
  have ha' : hasAccess (idle s) r.tid = false := ha
  simp only [abwaitLane, ha', Bool.false_eq_true, if_false, objectSpace, hl, hr, Bool.not_true, count_eq]
  rfl

end Objects

/-- Settles O23: each instruction's lane under its checks, and `ABWAIT`'s after its read. -/
theorem arrivalIssue : Obligations.ArrivalIssue := by
  refine ⟨fun f s iss r p x ks h hu h0 hb hc hl => ?_, fun f s iss r p x ks h hu hl => ?_, ?_⟩
  · exact runLanes_issues (body := fun _ _ s r => abinitLane f s r) h (abinitLane_ok hu h0 hb hc hl) rfl
  · exact runLanes_issues (body := fun _ _ s r => abarvLane f s r) h (abarvLane_ok hu hl) rfl
  · intro f s iss r p x ks n hs ha hl s1 hr h gap hsome
    have hlane := abwaitLane_read ha hl hr
    refine ⟨fun hg => ?_, fun hg => ?_⟩
    · exact runLanes_leaves (body := fun _ _ s r => abwaitLane f s r) hs (hlane.trans (if_pos hg)) hsome
    · exact runLanes_suspends (body := fun _ _ s r => abwaitLane f s r) hs (hlane.trans (if_neg hg))

/-! Fences (R174, R175). -/

/-- The largest ptime among a thread's grid on its core. -/
def matesPtime (s : State) (t : Nat) : Nat := (coreMates s t).foldl (fun m t => max m (((s.threads[t]?).map (·.ptime)).getD 0)) 0

theorem le_matesPtime {t u : Nat} {th : Thread} (hu : u ∈ coreMates s t) (h : s.threads[u]? = some th) : th.ptime ≤ matesPtime s t := by
  have hle := le_foldl_max (fun t => ((s.threads[t]?).map (·.ptime)).getD 0) (coreMates s t) 0 u hu
  simp only [h, Option.map_some, Option.getD_some] at hle
  exact hle

theorem fencegLane_eq {iss : Issue} {accs ops : List Nat} (h : outstanding s (coreMates s r.tid) = (accs, ops)) :
    fencegLane iss f (idle s) r =
      if accs.isEmpty ∧ ops.isEmpty then .ok (raisePtime (idle s) r.tid (matesPtime s r.tid)) {}
      else .suspend (holdAt (advance (raisePtime (idle s) r.tid (matesPtime s r.tid)) r.tid iss.pc f.len.bytes) r.tid (.fence accs ops)) := by
  have h' : outstanding (idle s) (coreMates (idle s) r.tid) = (accs, ops) := h
  simp only [fencegLane, h']
  rfl

theorem fencexLane_eq : fencexLane f (idle s) r =
    if (outstanding s [r.tid]).1.isEmpty ∧ (outstanding s [r.tid]).2.isEmpty ∧
        (if f.mod.getLsbD 0 then (s.lodes.filter fun o => o.tid = r.tid).map (·.id) else []).isEmpty then .ok (idle s) {}
    else .hold (.fence (outstanding s [r.tid]).1 ((outstanding s [r.tid]).2 ++
      if f.mod.getLsbD 0 then (s.lodes.filter fun o => o.tid = r.tid).map (·.id) else [])) := rfl

/-- The thread that `FENCEG` suspends, and the others. -/
theorem fenceg_suspended {iss : Issue} {accs ops : List Nat} (hsome : (s.threads[r.tid]?).isSome) (top : Nat) :
    let t := holdAt (advance (raisePtime (idle s) r.tid top) r.tid iss.pc f.len.bytes) r.tid (.fence accs ops)
    ∃ th, t.threads[r.tid]? = some th ∧ th.wait = .fence accs ops ∧ t.mem = s.mem ∧ t.accs = s.accs ∧
      ∀ u, u ≠ r.tid → t.threads[u]? = s.threads[u]? := by
  obtain ⟨th, hth⟩ := Option.isSome_iff_exists.1 hsome
  have hth' : (idle s).threads[r.tid]? = some th := hth
  refine ⟨_, threads_modThread_same (threads_modThread_same (threads_modThread_same hth')), rfl, rfl, rfl, fun u hu => ?_⟩
  exact (threads_modThread_other hu).trans ((threads_modThread_other hu).trans (threads_modThread_other hu))

/-! `WAIT` (R176). -/

/-- A counter at or below its threshold; 0x3FF is no threshold. -/
theorem atMost_threshold (x : BitVec 10) (n : Nat) : atMost n (thresholdOf x) = true ↔ x = 0x3FF ∨ n ≤ x.toNat := by
  unfold thresholdOf
  by_cases h : x = 0x3FF#10
  · rw [if_pos h]
    exact ⟨fun _ => .inl h, fun _ => rfl⟩
  · rw [if_neg h]
    simp only [atMost, decide_eq_true_eq]
    exact ⟨.inr, fun hx => hx.resolve_left h⟩

theorem waitLane_eq {th : Thread} (ht : s.threads[r.tid]? = some th) : waitLane f (idle s) r =
    if atMost th.ld (thresholdOf f.d) && atMost th.st (thresholdOf f.a) && atMost th.cp (thresholdOf f.b) && atMost th.tl (thresholdOf f.c)
    then .ok (idle s) {} else .hold (.counters (thresholdOf f.d) (thresholdOf f.a) (thresholdOf f.b) (thresholdOf f.c)) := by
  have ht' : (idle s).threads[r.tid]? = some th := ht
  simp only [waitLane, ht']

theorem waitLane_passes {th : Thread} : (atMost th.ld (thresholdOf f.d) && atMost th.st (thresholdOf f.a) && atMost th.cp (thresholdOf f.b)
      && atMost th.tl (thresholdOf f.c)) = true ↔
    (f.d = 0x3FF ∨ th.ld ≤ f.d.toNat) ∧ (f.a = 0x3FF ∨ th.st ≤ f.a.toNat) ∧ (f.b = 0x3FF ∨ th.cp ≤ f.b.toNat) ∧
      (f.c = 0x3FF ∨ th.tl ≤ f.c.toNat) := by
  rw [Bool.and_eq_true, Bool.and_eq_true, Bool.and_eq_true, atMost_threshold, atMost_threshold, atMost_threshold, atMost_threshold]
  tauto

/-! `CVG` (R177). -/

theorem cvgLane_eq {tm : Team} {c : Conv} (hm : s.teams[teamIdOf s r.tid]? = some tm) (hc : tm.convs[f.d.toNat]? = some c) :
    cvgLane f (idle s) r =
      if countOf r.a < 1 ∨ (teamThreads s (teamIdOf s r.tid)).length < countOf r.a then .trap ⟨2, countOf r.a, 0, 0⟩
      else if (!c.sigs.isEmpty ∨ heldSigners s (teamIdOf s r.tid) f.d.toNat ≠ []) ∧ c.count ≠ some (countOf r.a) then
        .trap ⟨12, countOf r.a, f.d.toNat, c.count.getD 0⟩
      else .ok { idle s with teams := s.teams.modify (teamIdOf s r.tid) fun t =>
        { t with convs := t.convs.set f.d.toNat { c with count := some (countOf r.a) } } } {} := by
  have hm' : (idle s).teams[teamIdOf (idle s) r.tid]? = some tm := hm
  simp only [cvgLane, hm', Option.bind_some, hc, count_eq]
  rfl

/-- Settles O24: each lane's condition decides whether it goes on. -/
theorem fenceResults : Obligations.FenceResults := by
  refine ⟨fun f s iss r h ho => ⟨matesPtime s r.tid, fun u hu th hth => le_matesPtime hu hth, ?_⟩, fun f s iss r accs ops h ho hne => ?_,
    ?_, ?_, ?_⟩
  · refine runLanes_leaves (body := fun iss _ s r => fencegLane iss f s r) h ((fencegLane_eq ho).trans (if_pos ⟨rfl, rfl⟩)) ?_
    exact some_of_length (show ((idle s).threads[r.tid]?).isSome from single_sat h) (List.length_modify _ _ _)
  · have hne' : ¬ (accs.isEmpty = true ∧ ops.isEmpty = true) := by simpa only [List.isEmpty_iff] using hne
    obtain ⟨th, hth, hrest⟩ := fenceg_suspended (f := f) (iss := iss) (accs := accs) (ops := ops)
      (show ((idle s).threads[r.tid]?).isSome from single_sat h) (matesPtime s r.tid)
    exact ⟨_, th, runLanes_suspends (body := fun iss _ s r => fencegLane iss f s r) h ((fencegLane_eq ho).trans (if_neg hne')), hth, hrest⟩
  · intro f s iss r own rem h
    refine ⟨fun ha ho hr => ?_, fun hne => ?_⟩
    · refine runLanes_leaves (body := fun _ _ s r => fencexLane f s r) h (fencexLane_eq.trans (if_pos ?_)) (single_sat h)
      exact ⟨List.isEmpty_iff.2 ha, List.isEmpty_iff.2 ho, List.isEmpty_iff.2 hr⟩
    · refine runLanes_waits (body := fun _ _ s r => fencexLane f s r) h (fencexLane_eq.trans (if_neg ?_))
      simpa only [List.isEmpty_iff] using hne
  · intro f s iss r th h ht low
    refine ⟨fun hlow => ?_, fun hlow => ⟨.counters (thresholdOf f.d) (thresholdOf f.a) (thresholdOf f.b) (thresholdOf f.c),
      (by intro hw; cases hw), ?_⟩⟩
    · exact runLanes_leaves (body := fun _ _ s r => waitLane f s r) h ((waitLane_eq ht).trans (if_pos (waitLane_passes.2 hlow))) (single_sat h)
    · exact runLanes_waits (body := fun _ _ s r => waitLane f s r) h ((waitLane_eq ht).trans (if_neg fun hp => hlow (waitLane_passes.1 hp)))
  · intro f s iss r tm c m n h hm hc
    have hlane := cvgLane_eq hm hc
    refine ⟨fun hn => ?_, fun h1 hn hs hcount => ?_, fun h1 hn hs => ?_⟩
    · exact runLanes_traps (body := fun _ _ s r => cvgLane f s r) h (hlane.trans (if_pos hn))
    all_goals rw [if_neg (show ¬ (n < 1 ∨ (teamThreads s m).length < n) by omega)] at hlane
    · refine runLanes_traps (body := fun _ _ s r => cvgLane f s r) h (hlane.trans (if_pos ⟨?_, hcount⟩))
      simpa using hs
    · refine runLanes_leaves (body := fun _ _ s r => cvgLane f s r) h (hlane.trans (if_neg ?_)) (show ((idle s).threads[r.tid]?).isSome from single_sat h)
      rintro ⟨hsig, hcount⟩
      rcases hs with ⟨hs, hheld⟩ | hs
      · rcases hsig with hsig | hsig
        · rw [hs] at hsig; cases hsig
        · exact hsig hheld
      · exact hcount hs

end Sys2Proof.Barriers

/-! SUPPORT. Statements settled: the tile engine's claims, states and queues, and the signing instructions (R15, R181, R184, R190,
R193). -/

namespace Sys2Proof.Tiles

open Sys2Proof.Machine Sys2Proof.Claims Sys2Proof.Issuing Sys2Proof.Remote Sys2Proof.Barriers Sys2Proof.Ranges

variable {f : Form} {s : State} {r : Ready} {iss : Issue} {d c : Nat}

theorem coreOf_idle (h : coreOf s r.tid = (d, c)) : coreOf (idle s) r.tid = (d, c) := h

theorem modCore_some (g : Core → Core) (h : ((idle s).threads[r.tid]?).isSome) : ((modCore (idle s) d c g).threads[r.tid]?).isSome := by
  rw [modCore_threads]; exact h

theorem raisePtime_some {t : State} (ts : Nat) (h : (t.threads[r.tid]?).isSome) : ((raisePtime t r.tid ts).threads[r.tid]?).isSome :=
  some_of_length h (List.length_modify _ _ _)

/-! `TCLAIM` and `TREL` (R184). -/

theorem tclaim_eq (h : coreOf s r.tid = (d, c)) {o : Option Nat} (ho : tileClaim (coreAt s d c) f.a.toNat = o) :
    tclaimLane f (idle s) r = o.elim
      (.ok (modCore (idle s) d c fun k => claimTile k f.a.toNat (teamIdOf s r.tid)) { vals := [0] })
      fun x => if x = teamIdOf s r.tid then .ok (idle s) { vals := [0] }
        else if f.mod.getLsbD 0 then .hold (.claim f.a.toNat) else .ok (idle s) { vals := [1] } := by
  have ho' : tileClaim (coreAt (idle s) d c) f.a.toNat = o := ho
  simp only [tclaimLane, coreOf_idle h, ho']
  cases o <;> rfl

theorem trel_eq (h : coreOf s r.tid = (d, c)) : trelLane f (idle s) r =
    if tileClaim (coreAt s d c) f.a.toNat ≠ some (teamIdOf s r.tid) then .ok (idle s) {}
    else if releasable (coreAt s d c) f.a.toNat then .ok (modCore (idle s) d c fun k => freeTile k f.a.toNat) {}
    else .hold (.release f.a.toNat) := by
  simp only [trelLane, coreOf_idle h]
  rfl

theorem releasable_iff (k : Core) (code : Nat) : releasable k code = true ↔ tileBusy k code = false ∧ opsName k code = false := by
  simp only [releasable, Bool.and_eq_true, Bool.not_eq_true']

/-! `TSTAT` and `TWAIT` (R193). -/

/-- What `TWAIT` waits for, by its mode. -/
def waitOver (k : Core) (code mode : Nat) : Prop :=
  if 0x50 ≤ code then queueLen k (code - 0x50) = 0
  else match mode with
    | 0 => tileStateOf k code = .empty ∨ tileStateOf k code = .ready
    | 1 => tileStateOf k code = .ready
    | _ => tileStateOf k code = .empty

/-- An entry that is neither filling nor draining is empty or ready. -/
theorem not_tileBusy (k : Core) (code : Nat) :
    (!tileBusy k code) = true ↔ tileStateOf k code = .empty ∨ tileStateOf k code = .ready := by
  unfold tileBusy
  cases tileStateOf k code <;> decide

theorem twaitDone_iff (k : Core) (code mode : Nat) : twaitDone k code mode = true ↔ waitOver k code mode := by
  unfold twaitDone waitOver
  by_cases h : 0x50 ≤ code
  · simp only [if_pos h, decide_eq_true_eq]
  · simp only [if_neg h]
    match mode with
    | 0 => simp only [if_true]; exact not_tileBusy k code
    | 1 => simp only [Nat.one_ne_zero, if_false, if_true, decide_eq_true_eq]
    | n + 2 => simp only [Nat.add_eq_zero_iff, OfNat.ofNat_ne_zero, and_false, if_false, show ¬ n + 2 = 1 by omega, decide_eq_true_eq]

theorem twait_eq (h : coreOf s r.tid = (d, c)) : twaitLane f (idle s) r =
    if twaitDone (coreAt s d c) f.a.toNat (f.mod.extractLsb' 0 2).toNat then
      .ok (raisePtime (idle s) r.tid (tileTime (coreAt s d c) f.a.toNat)) {}
    else .hold (.tile f.a.toNat (f.mod.extractLsb' 0 2).toNat) := by
  have hmode : modBits f.mod 1 0 = (f.mod.extractLsb' 0 2).toNat := modBits_at f.mod 1 0 2 rfl (by decide)
  simp only [twaitLane, coreOf_idle h, hmode]
  rfl

/-! `MQPUSH` and `MQCLR` (R190). -/

section Queues

variable {ps : List (Nat × Prep)} {q : Nat}

theorem mqpush_unclaimed (h : coreOf s r.tid = (d, c)) (hc : tileClaim (coreAt s d c) (0x50 + f.d.toNat) ≠ some (teamIdOf s r.tid)) :
    mqpushLane f s ps (idle s) r = .trap ⟨2, 0x50 + f.d.toNat, 0, 0⟩ := by
  have hc' : tileClaim (coreAt (idle s) d c) (0x50 + f.d.toNat) ≠ some (teamIdOf (idle s) r.tid) := hc
  simp only [mqpushLane, coreOf_idle h, if_pos hc']
  rfl

theorem mqpush_full (h : coreOf s r.tid = (d, c)) (hc : tileClaim (coreAt s d c) (0x50 + f.d.toNat) = some (teamIdOf s r.tid))
    (hq : queueRoom s d c f.d.toNat < readyCount ps) : mqpushLane f s ps (idle s) r = .hold (.mqRoom f.d.toNat (readyCount ps)) := by
  have hc' : ¬ tileClaim (coreAt (idle s) d c) (0x50 + f.d.toNat) ≠ some (teamIdOf (idle s) r.tid) := not_not_intro hc
  simp only [mqpushLane, coreOf_idle h, if_neg hc', if_pos hq]

theorem mqpush_ok {p : Place} {x : Xlat} {ks : List (Nat × Nat)} (h : coreOf s r.tid = (d, c))
    (hc : tileClaim (coreAt s d c) (0x50 + f.d.toNat) = some (teamIdOf s r.tid)) (hq : readyCount ps ≤ queueRoom s d c f.d.toNat)
    (hu : unfull s r.tid .tl) (hl : locate (idle s) r.tid (if f.mod.getLsbD 0 then 1 else 0) r.a.toNat 512 64 needR [] = .ok p x ks) :
    mqpushLane f s ps (idle s) r = .ok (enqueue (idle s) { issued s r.tid (.mqPush f.d.toNat) p 512 r.a.toNat x ks with ctr := .tl }) {} := by
  have hc' : ¬ tileClaim (coreAt (idle s) d c) (0x50 + f.d.toNat) ≠ some (teamIdOf (idle s) r.tid) := not_not_intro hc
  simp only [mqpushLane, coreOf_idle h, if_neg hc', if_neg (Nat.not_lt.2 hq), counterHold_free hu, hl, issued_eq]

theorem mqclr_eq (h : coreOf s r.tid = (d, c)) : mqclrLane f (idle s) r =
    if tileClaim (coreAt s d c) (0x50 + f.d.toNat) ≠ some (teamIdOf s r.tid) then .trap ⟨2, 0x50 + f.d.toNat, 0, 0⟩
    else .ok (modCore (idle s) d c fun k => { k with mqs := k.mqs.modify f.d.toNat fun x => { x with entries := [] } }) {} := by
  simp only [mqclrLane, coreOf_idle h]
  rfl

end Queues

/-- Settles O25: each lane's branches on the entry's claim and state. -/
theorem tileClaimResults : Obligations.TileClaimResults := by
  refine ⟨?_, ?_, fun f s iss r d c h hc => ?_, ?_, ?_, ?_⟩
  · intro f s iss r d c code m h hc
    refine ⟨fun ho => ?_, fun ho => ?_, fun n ho hn hw => ?_, fun n ho hn hw => ?_⟩
    · exact runLanes_leaves (body := fun _ _ s r => tclaimLane f s r) h (tclaim_eq hc ho) (modCore_some _ (single_sat h))
    · exact runLanes_leaves (body := fun _ _ s r => tclaimLane f s r) h ((tclaim_eq hc ho).trans (if_pos rfl)) (single_sat h)
    · refine runLanes_leaves (body := fun _ _ s r => tclaimLane f s r) h (((tclaim_eq hc ho).trans (if_neg hn)).trans (if_neg ?_))
        (single_sat h)
      rw [hw]; decide
    · exact runLanes_waits (body := fun _ _ s r => tclaimLane f s r) h (((tclaim_eq hc ho).trans (if_neg hn)).trans (if_pos hw))
  · intro f s iss r d c code m h hc
    refine ⟨fun ho => ?_, fun ho hb hn => ?_, fun ho hb => ?_⟩
    · exact runLanes_leaves (body := fun _ _ s r => trelLane f s r) h ((trel_eq hc).trans (if_pos ho)) (single_sat h)
    · exact runLanes_leaves (body := fun _ _ s r => trelLane f s r) h
        (((trel_eq hc).trans (if_neg (not_not_intro ho))).trans (if_pos ((releasable_iff _ _).2 ⟨hb, hn⟩))) (modCore_some _ (single_sat h))
    · refine runLanes_waits (body := fun _ _ s r => trelLane f s r) h
        (((trel_eq hc).trans (if_neg (not_not_intro ho))).trans (if_neg fun hr => ?_))
      obtain ⟨hb', hn'⟩ := (releasable_iff _ _).1 hr
      rcases hb with hb | hb
      · rw [hb'] at hb; cases hb
      · rw [hn'] at hb; cases hb
  · refine runLanes_leaves (body := fun _ _ s r => .ok s { vals :=
      [BitVec.ofNat 32 (tstatWord (coreAt s (coreOf s r.tid).1 (coreOf s r.tid).2) (teamIdOf s r.tid) f.a.toNat)] }) h ?_ (single_sat h)
    rw [coreOf_idle hc]
    rfl
  · intro f s iss r d c k code isOver h hc
    refine ⟨fun ho => ?_, fun ho => ?_⟩
    · exact runLanes_leaves (body := fun _ _ s r => twaitLane f s r) h ((twait_eq hc).trans (if_pos ((twaitDone_iff _ _ _).2 ho)))
        (raisePtime_some _ (single_sat h))
    · exact runLanes_waits (body := fun _ _ s r => twaitLane f s r) h
        ((twait_eq hc).trans (if_neg fun hd => ho ((twaitDone_iff _ _ _).1 hd)))
  · intro f s iss r d c q h hc
    refine ⟨fun ho => ?_, fun ho hq => ?_, fun p x ks ho hq hu hl => ?_⟩
    · exact runLanes_traps (body := fun _ ps s1 r => mqpushLane f s ps s1 r) h (mqpush_unclaimed hc ho)
    · exact runLanes_waits (body := fun _ ps s1 r => mqpushLane f s ps s1 r) h
        (mqpush_full hc ho (by rw [hq]; exact Nat.zero_lt_one))
    · exact runLanes_issues (body := fun _ ps s1 r => mqpushLane f s ps s1 r) h (mqpush_ok hc ho hq hu hl) rfl
  · intro f s iss r d c q h hc
    refine ⟨fun ho => ?_, fun ho => ?_⟩
    · exact runLanes_traps (body := fun _ _ s r => mqclrLane f s r) h ((mqclr_eq hc).trans (if_pos ho))
    · exact runLanes_leaves (body := fun _ _ s r => mqclrLane f s r) h ((mqclr_eq hc).trans (if_neg (not_not_intro ho)))
        (modCore_some _ (single_sat h))

/-! The state that a signature leaves (R15, R181). -/

section Signing

variable {opc : BitVec 8}

/-- A lane's signature. -/
def signatureOf (opc : BitVec 8) (iss : Issue) (f : Form) (r : Ready) : Signature :=
  ⟨r.tid, opc, f, r.c.setWidth 32, f.mod.getLsbD 0, iss.pc,
    (match r.aLoc with | .vec p => p | .scr n => scratchPos n | .uni _ | .void => 0), r.xs, r.hold⟩

/-- The registers that a signature names besides its operands. -/
def signedRegs (opc : BitVec 8) (f : Form) (r : Ready) : List Nat := if opc = 0xD7#8 then spanPos r.aLoc (movvCount f.mod) else []

/-- The lane has signed and holds. -/
def signedState (s : State) (r : Ready) (k : Nat) (sigs : List Signature) : State :=
  { idle s with
    threads := s.threads.modify r.tid fun th => { counted .tl th with wait := .signed k }
    teams := s.teams.modify (teamIdOf s r.tid) fun t => { t with convs := t.convs.modify k fun x => { x with sigs := sigs } } }

theorem signedState_eq (k : Nat) (sigs : List Signature) :
    holdAt (modTeam (raiseCtr (idle s) r.tid .tl) (teamIdOf s r.tid) fun t =>
      { t with convs := modAt t.convs k fun x => { x with sigs := sigs } }) r.tid (.signed k) = signedState s r k sigs := by
  unfold holdAt signedState
  rw [counted_eq]
  simp only [modThread, modTeam, modAt, List.modify_modify_eq]
  rfl

/-- A lane whose register takes its signature. -/
theorem signLane_signs {k n : Nat} {tm : Team} {cv : Conv} (hk : k = f.d.toNat) (hu : unfull s r.tid .tl) (ha : hasAccess s r.tid = false)
    (hp : anyPending s r.tid (signedRegs opc f r) [] = false) (hm : s.teams[teamIdOf s r.tid]? = some tm) (hc : tm.convs[k]? = some cv)
    (hn : cv.count = some n) (hnew : ∀ x ∈ cv.sigs, x.tid ≠ r.tid) (hheld : r.tid ∉ heldSigners s (teamIdOf s r.tid) k) :
    signLane opc iss f (idle s) r =
      if n ≤ (cv.sigs ++ [signatureOf opc iss f r]).length then
        .suspend (issueTileOp (signedState s r k (cv.sigs ++ [signatureOf opc iss f r])) (cv.sigs ++ [signatureOf opc iss f r])
          (signatureOf opc iss f r))
      else .suspend (if f.mod.getLsbD 0 then
          releaseSigner r.tid (signedState s r k (cv.sigs ++ [signatureOf opc iss f r])) (signatureOf opc iss f r)
        else signedState s r k (cv.sigs ++ [signatureOf opc iss f r])) := by
  subst hk
  have ha' : ¬ ((opc = 0xD2#8 ∨ opc = 0xD3#8) ∧ hasAccess (idle s) r.tid = true) := by
    rintro ⟨-, hacc⟩
    rw [show hasAccess (idle s) r.tid = false from ha] at hacc; cases hacc
  have hp' : ¬ anyPending (idle s) r.tid (signedRegs opc f r) [] = true := by
    rw [Bool.not_eq_true]; exact hp
  have hm' : (idle s).teams[teamIdOf (idle s) r.tid]? = some tm := hm
  have hdup : ¬ ((cv.sigs.any fun g => g.tid = r.tid) = true ∨ (heldSigners (idle s) (teamIdOf (idle s) r.tid) f.d.toNat).contains r.tid = true) := by
    rintro (hany | hcon)
    · obtain ⟨x, hx, hxt⟩ := List.any_eq_true.1 hany
      exact hnew x hx (by simpa using hxt)
    · exact hheld (List.contains_iff_mem.1 hcon)
  have hcval : BitVec.ofNat 32 (natLow 32 r.c) = r.c.setWidth 32 := by
    rw [count_eq, countOf, BitVec.ofNat_toNat, BitVec.setWidth_eq]
  unfold signedRegs at hp'
  simp only [signLane, if_neg ha', if_neg hp', counterHold_free hu, hm', Option.bind_some, hc, hn, if_neg hdup, hcval, ← signedState_eq]
  rfl

/-- The same register re-armed, when the count is reached. -/
def rearmed (s : State) (r : Ready) (k : Nat) (sigs : List Signature) : State :=
  { signedState s r k sigs with
    teams := (signedState s r k sigs).teams.modify (teamIdOf s r.tid) fun t => { t with convs := t.convs.modify k fun x => { x with sigs := [] } } }

theorem signedState_modThread (k : Nat) (sigs : List Signature) : signedState s r k sigs =
    modThread (modTeam (idle s) (teamIdOf s r.tid) fun t => { t with convs := t.convs.modify k fun x => { x with sigs := sigs } }) r.tid
      (fun th => { counted .tl th with wait := .signed k }) := rfl

theorem teamIdOf_signedState (k : Nat) (sigs : List Signature) : teamIdOf (signedState s r k sigs) r.tid = teamIdOf s r.tid := by
  rw [signedState_modThread]
  exact teamIdOf_modThread _ _ _ _ fun _ => rfl

theorem coreOf_modThread (s : State) (t u : Nat) (g : Thread → Thread) (hg : ∀ th, (g th).group = th.group) :
    coreOf (modThread s t g) u = coreOf s u := by
  simp only [coreOf, teamOf_modThread s t u g hg]

theorem coreOf_signedState (k : Nat) (sigs : List Signature) : coreOf (signedState s r k sigs) r.tid = coreOf s r.tid := by
  rw [signedState_modThread, coreOf_modThread, coreOf_modTeam]
  · rfl
  · exact fun _ => ⟨rfl, rfl⟩
  · exact fun _ => rfl

/-- A team's register after its entry in the convergence registers has changed. -/
theorem conv_modify {l : List Team} {m k : Nat} {tm : Team} {cv : Conv} (g : Conv → Conv) (hm : l[m]? = some tm) (hc : tm.convs[k]? = some cv) :
    (l.modify m fun t => { t with convs := t.convs.modify k g })[m]? = some { tm with convs := tm.convs.modify k g } ∧
    (tm.convs.modify k g)[k]? = some (g cv) := by
  rw [List.getElem?_modify_eq, hm, List.getElem?_modify_eq, hc]
  exact ⟨rfl, rfl⟩

theorem signedState_conv {k : Nat} {sigs : List Signature} {tm : Team} {cv : Conv} (hm : s.teams[teamIdOf s r.tid]? = some tm)
    (hc : tm.convs[k]? = some cv) :
    (((signedState s r k sigs).teams[teamIdOf s r.tid]?).bind fun t => t.convs[k]?) = some { cv with sigs := sigs } := by
  obtain ⟨hteam, hconv⟩ := conv_modify (fun x => { x with sigs := sigs }) hm hc
  rw [show (signedState s r k sigs).teams[teamIdOf s r.tid]? = some _ from hteam, Option.bind_some]
  exact hconv

theorem rearmed_conv {k : Nat} {sigs : List Signature} {tm : Team} {cv : Conv} (hm : s.teams[teamIdOf s r.tid]? = some tm)
    (hc : tm.convs[k]? = some cv) :
    ∃ tm', (rearmed s r k sigs).teams[teamIdOf s r.tid]? = some tm' ∧ tm'.convs[k]? = some { cv with sigs := [] } := by
  obtain ⟨hteam, hconv⟩ := conv_modify (fun x => { x with sigs := sigs }) hm hc
  exact ⟨_, conv_modify (cv := { cv with sigs := sigs }) (fun x => { x with sigs := [] }) hteam hconv⟩

/-! An operation queued (R15, R179). -/

theorem modTile_keeps (k : Core) (code : Nat) (fs : Slot → Slot) (fa : Acc32 → Acc32) (fq : MQueue → MQueue) :
    (modTile k code fs fa fq).ops = k.ops ∧ (modTile k code fs fa fq).die = k.die ∧ (modTile k code fs fa fq).site = k.site := by
  unfold modTile
  split
  · exact ⟨rfl, rfl, rfl⟩
  · split <;> exact ⟨rfl, rfl, rfl⟩

/-- A core with an operation queued. -/
def withOp (o : TileOp) (k : Core) : Core :=
  let k := { k with ops := k.ops ++ [o] }
  if tileBusy k (opTarget o) then k else setTileState k (opTarget o) (opState o)

theorem withOp_keeps (o : TileOp) (k : Core) :
    (withOp o k).ops = k.ops ++ [o] ∧ (withOp o k).die = k.die ∧ (withOp o k).site = k.site := by
  unfold withOp
  dsimp only
  split
  · exact ⟨rfl, rfl, rfl⟩
  · exact modTile_keeps _ _ _ _ _

/-- A signer's release changes its thread only. -/
theorem releaseSigner_frame (last : Nat) (s : State) (g : Signature) : ∃ ths, releaseSigner last s g = { s with threads := ths } := by
  unfold releaseSigner
  split
  · exact ⟨_, rfl⟩
  · exact ⟨s.threads, rfl⟩

theorem releaseSigners_frame (last : Nat) (l : List Signature) : ∀ s : State, ∃ ths,
    l.foldl (releaseSigner last) s = { s with threads := ths } := by
  induction l with
  | nil => intro s; exact ⟨s.threads, rfl⟩
  | cons g l ih =>
    intro s
    obtain ⟨ths, h⟩ := releaseSigner_frame last s g
    obtain ⟨ths', h'⟩ := ih (releaseSigner last s g)
    exact ⟨ths', by rw [List.foldl_cons, h', h]⟩

/-- A team's register armed again. -/
def rearm (s : State) (m k : Nat) : State :=
  modTeam s m fun t => { t with convs := modAt t.convs k fun x => { x with sigs := [] } }

/-- The state with an operation queued at its core, its register armed again. -/
def queuedState (s : State) (last : Signature) (d c : Nat) (o : TileOp) : State :=
  modCore { rearm s (teamIdOf s last.tid) last.form.d.toNat with nextId := s.nextId + 1 } d c
    (withOp { o with held := poisonOpen (coreAt s d c) o })

section Queued

variable {sigs : List Signature} {last : Signature} {o : TileOp}

theorem issueTileOp_eq (hcore : coreOf s last.tid = (d, c)) (hd : firstDiffer sigs last = none)
    (ho : opCheck (rearm s (teamIdOf s last.tid) last.form.d.toNat) (coreAt s d c)
      (buildOp (rearm s (teamIdOf s last.tid) last.form.d.toNat) sigs last) last = .ok o) :
    issueTileOp s sigs last =
      if poisonOpen (coreAt s d c) o then
        if last.nb then releaseSigner last.tid (queuedState s last d c o) last else queuedState s last d c o
      else sigs.foldl (releaseSigner last.tid) (queuedState s last d c o) := by
  have hat : coreAt (rearm s (teamIdOf s last.tid) last.form.d.toNat) d c = coreAt s d c := rfl
  unfold rearm at ho hat
  simp only [issueTileOp, hcore, hd, hat, ho]
  rfl

/-- The last signature queues the operation that passes its checks; the signers' threads go on or hold. -/
theorem issueTileOp_queues (hcore : coreOf s last.tid = (d, c)) (hd : firstDiffer sigs last = none)
    (ho : opCheck (rearm s (teamIdOf s last.tid) last.form.d.toNat) (coreAt s d c)
      (buildOp (rearm s (teamIdOf s last.tid) last.form.d.toNat) sigs last) last = .ok o) :
    ∃ ths, issueTileOp s sigs last = { queuedState s last d c o with threads := ths } := by
  rw [issueTileOp_eq hcore hd ho]
  generalize queuedState s last d c o = q
  split
  · split
    · exact releaseSigner_frame _ _ _
    · exact ⟨q.threads, rfl⟩
  · exact releaseSigners_frame _ _ _

end Queued

/-! A signing instruction of one lane. -/

theorem issueTeams_single (h : Single s iss opc f r) (hsome : (s.threads[r.tid]?).isSome) : issueTeams s = [teamIdOf s r.tid] := by
  obtain ⟨th, hth⟩ := Option.isSome_iff_exists.1 hsome
  obtain ⟨lane, hl, -⟩ := alone_lane h hth
  rw [issueTeams, runsBy_cur h.runs]
  simp only [Option.map_some, Option.getD_some, hl, List.map_cons, List.map_nil, (List.nodup_singleton _).dedup]

theorem runSigning_suspends {t : State} (h : Single s iss opc f r) (hb : signLane opc iss f (idle s) r = .suspend t) :
    runSigning opc f s = .next (convUnreachable t (teamIdOf s r.tid) f.d.toNat) := by
  have hrun := runLanes_suspends (body := fun iss _ s r => signLane opc iss f s r) h hb
  simp only [runSigning, hrun, issueTeams_single h (single_sat h), List.foldl_cons, List.foldl_nil]

theorem runSigning_traps {i : TrapInfo} (h : Single s iss opc f r) (hb : signLane opc iss f (idle s) r = .trap i) :
    runSigning opc f s = .next (convUnreachable (trapped (idle s) iss opc f r.tid i) (teamIdOf s r.tid) f.d.toNat) := by
  have hrun := runLanes_traps (body := fun iss _ s r => signLane opc iss f s r) h hb
  simp only [runSigning, hrun, issueTeams_single h (single_sat h), List.foldl_cons, List.foldl_nil]

theorem signing_exec {mk : Form → Instr} (hmk : mk = .tld ∧ opc = 0xD2 ∨ mk = .tst ∧ opc = 0xD3 ∨ mk = .tzero ∧ opc = 0xD4 ∨
    mk = .tmma ∧ opc = 0xD5 ∨ mk = .tmmas ∧ opc = 0xD6 ∨ mk = .tmovv ∧ opc = 0xD7) : exec (mk f) s = runSigning opc f s := by
  rcases hmk with ⟨rfl, rfl⟩ | ⟨rfl, rfl⟩ | ⟨rfl, rfl⟩ | ⟨rfl, rfl⟩ | ⟨rfl, rfl⟩ | ⟨rfl, rfl⟩ <;> rfl

/-- A register whose count can still be reached stays as it is. -/
theorem convUnreachable_open {m k : Nat} {cv : Conv} (hc : ((s.teams[m]?).bind fun t => t.convs[k]?) = some cv)
    (h : cv.sigs = [] ∨ convLacks cv ≤ unsigned s m cv) : convUnreachable s m k = s := by
  simp only [convUnreachable, hc]
  exact if_pos (h.imp_left fun h => by rw [h]; rfl)

/-- A signature short of the count. -/
theorem sign_short {mk : Form → Instr} (hmk : mk = .tld ∧ opc = 0xD2 ∨ mk = .tst ∧ opc = 0xD3 ∨ mk = .tzero ∧ opc = 0xD4 ∨
    mk = .tmma ∧ opc = 0xD5 ∨ mk = .tmmas ∧ opc = 0xD6 ∨ mk = .tmovv ∧ opc = 0xD7) {k n : Nat} {tm : Team} {cv : Conv} {t : State}
    (h : Single s iss opc f r) (hk : k = f.d.toNat)
    (hlane : signLane opc iss f (idle s) r =
      if n ≤ (cv.sigs ++ [signatureOf opc iss f r]).length then
        .suspend (issueTileOp (signedState s r k (cv.sigs ++ [signatureOf opc iss f r])) (cv.sigs ++ [signatureOf opc iss f r])
          (signatureOf opc iss f r))
      else .suspend (if f.mod.getLsbD 0 then
          releaseSigner r.tid (signedState s r k (cv.sigs ++ [signatureOf opc iss f r])) (signatureOf opc iss f r)
        else signedState s r k (cv.sigs ++ [signatureOf opc iss f r])))
    (hm : s.teams[teamIdOf s r.tid]? = some tm) (hc : tm.convs[k]? = some cv) (hn : cv.count = some n)
    (ht : t = if f.mod.getLsbD 0 then
        releaseSigner r.tid (signedState s r k (cv.sigs ++ [signatureOf opc iss f r])) (signatureOf opc iss f r)
      else signedState s r k (cv.sigs ++ [signatureOf opc iss f r]))
    (hshort : cv.sigs.length + 1 < n)
    (hun : n - (cv.sigs.length + 1) ≤ unsigned t (teamIdOf s r.tid) { cv with sigs := cv.sigs ++ [signatureOf opc iss f r] }) :
    exec (mk f) s = .next t := by
  have hlen : (cv.sigs ++ [signatureOf opc iss f r]).length = cv.sigs.length + 1 := by
    rw [List.length_append, List.length_singleton]
  have hteams : t.teams = (signedState s r k (cv.sigs ++ [signatureOf opc iss f r])).teams := by
    rw [ht]
    split
    · obtain ⟨ths, hths⟩ := releaseSigner_frame r.tid (signedState s r k (cv.sigs ++ [signatureOf opc iss f r])) (signatureOf opc iss f r)
      rw [hths]
    · rfl
  rw [signing_exec hmk, runSigning_suspends h (hlane.trans (if_neg (by rw [hlen]; omega))), ← ht, ← hk]
  refine congrArg _ (convUnreachable_open (cv := { cv with sigs := cv.sigs ++ [signatureOf opc iss f r] }) ?_ (.inr ?_))
  · rw [hteams]; exact signedState_conv hm hc
  · rw [convLacks, hn, Option.getD_some, hlen]; exact hun

/-- The signature that reaches the count of an operation that passes its checks. -/
theorem sign_last {mk : Form → Instr} (hmk : mk = .tld ∧ opc = 0xD2 ∨ mk = .tst ∧ opc = 0xD3 ∨ mk = .tzero ∧ opc = 0xD4 ∨
    mk = .tmma ∧ opc = 0xD5 ∨ mk = .tmmas ∧ opc = 0xD6 ∨ mk = .tmovv ∧ opc = 0xD7) {k site : Nat} {tm : Team} {cv : Conv} {o : TileOp}
    {sigs : List Signature} (h : Single s iss opc f r) (hk : k = f.d.toNat)
    (hlane : signLane opc iss f (idle s) r = .suspend (issueTileOp (signedState s r k sigs) sigs (signatureOf opc iss f r)))
    (hm : s.teams[teamIdOf s r.tid]? = some tm) (hc : tm.convs[k]? = some cv) (hcore : coreOf s r.tid = (d, site))
    (hd : firstDiffer sigs (signatureOf opc iss f r) = none)
    (ho : opCheck (rearmed s r k sigs) (coreAt s d site) (buildOp (rearmed s r k sigs) sigs (signatureOf opc iss f r))
      (signatureOf opc iss f r) = .ok o) :
    ∃ t, exec (mk f) s = .next t ∧
      (coreAt t d site).ops = (coreAt s d site).ops ++ [{ o with held := poisonOpen (coreAt s d site) o }] ∧
      (∃ tm', t.teams[teamIdOf s r.tid]? = some tm' ∧ tm'.convs[k]? = some { cv with sigs := [] }) ∧
      t.nextId = s.nextId + 1 ∧ t.mem = s.mem ∧ t.accs = s.accs ∧ t.contexts = s.contexts := by
  have hteam : teamIdOf (signedState s r k sigs) (signatureOf opc iss f r).tid = teamIdOf s r.tid := teamIdOf_signedState _ _
  have hre : rearm (signedState s r k sigs) (teamIdOf (signedState s r k sigs) (signatureOf opc iss f r).tid)
      (signatureOf opc iss f r).form.d.toNat = rearmed s r k sigs := by rw [hteam, hk]; rfl
  have hat : coreAt (signedState s r k sigs) d site = coreAt s d site := rfl
  obtain ⟨ths, ht⟩ := issueTileOp_queues (s := signedState s r k sigs) (last := signatureOf opc iss f r) (sigs := sigs) (o := o)
    ((coreOf_signedState k sigs).trans hcore) hd (by rw [hre]; exact ho)
  rw [queuedState, hre, hat] at ht
  obtain ⟨tm', htm', hcv'⟩ := rearmed_conv (sigs := sigs) hm hc
  have hteams : (issueTileOp (signedState s r k sigs) sigs (signatureOf opc iss f r)).teams[teamIdOf s r.tid]? = some tm' := by
    rw [ht]
    simp only [modCore_teams]
    exact htm'
  refine ⟨issueTileOp (signedState s r k sigs) sigs (signatureOf opc iss f r), ?_, ?_, ⟨tm', hteams, hcv'⟩, ?_⟩
  · rw [signing_exec hmk, runSigning_suspends h hlane, ← hk]
    refine congrArg _ (convUnreachable_open (cv := { cv with sigs := [] }) ?_ (.inl rfl))
    rw [hteams, Option.bind_some]; exact hcv'
  · rw [ht]
    have hcoreAt := coreAt_modCore { rearmed s r k sigs with nextId := s.nextId + 1 } d site
      (withOp { o with held := poisonOpen (coreAt s d site) o }) fun k => (withOp_keeps _ k).2
    exact (congrArg Core.ops hcoreAt).trans (withOp_keeps _ _).1
  · rw [ht]
    refine ⟨?_, ?_, ?_, ?_⟩ <;> simp only [modCore_nextId, modCore_mem, modCore_accs, modCore_contexts] <;> rfl

/-! Signatures that are refused (R181). -/

/-- A lane of a product or a `TZERO` whose register takes no signature. -/
theorem signLane_refused {tm : Team} {cv : Conv} (hopc : opc ≠ 0xD2#8 ∧ opc ≠ 0xD3#8 ∧ opc ≠ 0xD7#8) (hu : unfull s r.tid .tl)
    (hp : anyPending s r.tid [] [] = false) (hm : s.teams[teamIdOf s r.tid]? = some tm) (hc : tm.convs[f.d.toNat]? = some cv) :
    (cv.count = none → signLane opc iss f (idle s) r = .trap ⟨12, f.d.toNat, 5, 0⟩) ∧
    (∀ n, cv.count = some n → (∃ x ∈ cv.sigs, x.tid = r.tid) ∨ r.tid ∈ heldSigners s (teamIdOf s r.tid) f.d.toNat →
      signLane opc iss f (idle s) r = .trap ⟨13, f.d.toNat, 0, 0⟩) := by
  obtain ⟨h2, h3, h7⟩ := hopc
  have hwait : ¬ ((opc = 0xD2#8 ∨ opc = 0xD3#8) ∧ hasAccess (idle s) r.tid = true) := by
    rintro ⟨h | h, -⟩
    · exact h2 h
    · exact h3 h
  have hp' : ¬ anyPending (idle s) r.tid [] [] = true := by rw [Bool.not_eq_true]; exact hp
  have hm' : (idle s).teams[teamIdOf (idle s) r.tid]? = some tm := hm
  refine ⟨fun hn => ?_, fun n hn hdup => ?_⟩
  · simp only [signLane, if_neg hwait, if_neg h7, if_neg hp', counterHold_free hu, hm', Option.bind_some, hc, hn]
    rfl
  · have hdup' : (cv.sigs.any fun g => g.tid = r.tid) = true ∨ (heldSigners (idle s) (teamIdOf (idle s) r.tid) f.d.toNat).contains r.tid = true := by
      rcases hdup with ⟨x, hx, hxt⟩ | hmem
      · exact .inl (List.any_eq_true.2 ⟨x, hx, by simpa using hxt⟩)
      · exact .inr (List.contains_iff_mem.2 hmem)
    simp only [signLane, if_neg hwait, if_neg h7, if_neg hp', counterHold_free hu, hm', Option.bind_some, hc, hn, if_pos hdup']
    rfl

end Signing

/-- Settles O26: a lane's signature joins its register; the last one queues the operation; a register that takes none is a trap. -/
theorem signingResults : Obligations.SigningResults := by
  refine ⟨?_, ?_⟩
  · intro mk opc hmk f s iss r m tm k cv n d site pos regs g s1 h hu hm htm hk hc hn hcore ha hp hnew hheld
    subst hm
    have hlane := signLane_signs (iss := iss) (opc := opc) hk hu ha hp htm hc hn hnew hheld
    refine ⟨?_, fun o hlen hd ho => ?_⟩
    · intro t hshort hun
      exact sign_short hmk h hk hlane htm hc hn rfl hshort hun
    · refine sign_last hmk h hk (hlane.trans (if_pos ?_)) htm hc hcore hd ho
      rw [List.length_append, List.length_singleton, hlen]
  · intro mk opc hmk f s iss r tm cv after h hu hm hc hp
    have hopc : opc ≠ 0xD2#8 ∧ opc ≠ 0xD3#8 ∧ opc ≠ 0xD7#8 := by
      rcases hmk with ⟨-, rfl⟩ | ⟨-, rfl⟩ | ⟨-, rfl⟩ <;> decide
    obtain ⟨hnone, hdup⟩ := signLane_refused (iss := iss) hopc hu hp hm hc
    have hsign : exec (mk f) s = runSigning opc f s :=
      signing_exec (.inr (.inr (hmk.imp_right fun h => h.imp_right .inl)))
    refine ⟨fun hn => ?_, fun n hn hd => ?_⟩
    · rw [hsign, runSigning_traps h (hnone hn)]
    · rw [hsign, runSigning_traps h (hdup n hn hd)]

end Sys2Proof.Tiles

/-! SUPPORT. Statements settled: tensor identifiers and engine commands as they are issued (R196 to R201, R316). -/

namespace Sys2Proof.Commands

open Sys2Proof.Machine Sys2Proof.Claims

variable {f : Form} {s s1 : State} {iss : Issue} {r : Ready} {bs : List Byte} {at_ : Option SpadRef}

/-! Tensor identifiers. -/

/-- The access that `TIDSET` issues. -/
def tidsetAccess (f : Form) (s : State) (r : Ready) (image : Option Tensor) : Access :=
  { issued s r.tid (.tidSet f.d.toNat image) .nothing 128 r.a.toNat noXlat [] with ctr := .ld }

/-- Whether the image's first word has bit 63 set. -/
def imageValid (bs : List Byte) : Bool := imgBits bs 0 63 63 = 1

theorem tidsetLane_bad {off : Nat} (hu : unfull s r.tid .ld)
    (hr : readAtIssue (idle s) r.tid (if f.mod.getLsbD 0 then 1 else 0) r.a.toNat 128 64 = .ok s1 bs at_)
    (hv : imageValid bs = true) (hb : badField bs = some off) : tidsetLane f (idle s) r = .trap ⟨2, 0, off, 0⟩ := by
  have hv' : imgBits bs 0 63 63 = 1 := of_decide_eq_true hv
  simp only [tidsetLane, counterHold_free hu, hr, hv', if_true, hb]
  rfl

theorem tidsetLane_set (hu : unfull s r.tid .ld)
    (hr : readAtIssue (idle s) r.tid (if f.mod.getLsbD 0 then 1 else 0) r.a.toNat 128 64 = .ok s1 bs at_)
    (hv : imageValid bs = true) (hb : badField bs = none) :
    tidsetLane f (idle s) r = .ok (withAccess s1 (tidsetAccess f s1 r (some (tensorOfImage bs)))) {} := by
  have hv' : imgBits bs 0 63 63 = 1 := of_decide_eq_true hv
  rw [← enqueue_eq s1 (tidsetAccess f s1 r _) rfl]
  simp only [tidsetLane, counterHold_free hu, hr, hv', if_true, hb]
  rfl

theorem tidsetLane_clear (hu : unfull s r.tid .ld)
    (hr : readAtIssue (idle s) r.tid (if f.mod.getLsbD 0 then 1 else 0) r.a.toNat 128 64 = .ok s1 bs at_)
    (hv : imageValid bs = false) :
    tidsetLane f (idle s) r = .ok (withAccess s1 (tidsetAccess f s1 r none)) {} := by
  have hv' : ¬ imgBits bs 0 63 63 = 1 := of_decide_eq_false hv
  rw [← enqueue_eq s1 (tidsetAccess f s1 r _) rfl]
  simp only [tidsetLane, counterHold_free hu, hr, if_neg hv']
  rfl

/-- The scratchpad's number in `TIDGET`'s space field. -/
def tidSpace (f : Form) : Nat := if f.mod.getLsbD 0 then 1 else 0

/-- The sectors that `TIDGET` writes whole. -/
def imageWholes (f : Form) (s : State) (r : Ready) : List Nat :=
  storesWhole (fun w => (storePlace (idle s) r.tid (tidSpace f) r.a.toNat 128 64 w).toList)
    (touchedSectors (idle s) r.tid (tidSpace f) r.a.toNat 128)

/-- The store of the image's first sector. -/
def lowHalf (f : Form) (s : State) (r : Ready) (p : Place) (x : Xlat) (ks : List (Nat × Nat)) : Access :=
  { issued s r.tid .store (halfPlace p false) 64 r.a.toNat x ks with
    bytes := (tensorImage (tensorOf s r.tid f.d.toNat)).take 64, wholes := imageWholes f s r }

/-- The store of its second one, which counts. -/
def highHalf (f : Form) (s : State) (r : Ready) (p : Place) (x : Xlat) (ks : List (Nat × Nat)) : Access :=
  { issued s r.tid .store (halfPlace p true) 64 (r.a.toNat + 64) x ks with
    id := s.nextId + 1, bytes := (tensorImage (tensorOf s r.tid f.d.toNat)).drop 64, ctr := .st, wholes := imageWholes f s r }

theorem withAccess_nextId (s : State) (a : Access) : (withAccess s a).nextId = s.nextId + 1 := by
  obtain ⟨l, hl⟩ := cacheAccess_frame { s with accs := s.accs ++ [a], nextId := s.nextId + 1 } a
  rw [withAccess, hl]

theorem tidgetLane_ok {p : Place} {x : Xlat} {ks : List (Nat × Nat)} (hu : unfull s r.tid .st)
    (hl : locate (idle s) r.tid (if f.mod.getLsbD 0 then 1 else 0) r.a.toNat 128 64 needW
      (storesWhole (fun w => (storePlace (idle s) r.tid (if f.mod.getLsbD 0 then 1 else 0) r.a.toNat 128 64 w).toList)
        (touchedSectors (idle s) r.tid (if f.mod.getLsbD 0 then 1 else 0) r.a.toNat 128)) = .ok p x ks) :
    tidgetLane f (idle s) r = .ok (withAccess (withAccess (idle s) (lowHalf f s r p x ks)) (highHalf f s r p x ks)) {} := by
  have hid : (enqueue (idle s) (lowHalf f s r p x ks)).nextId = s.nextId + 1 := by
    rw [enqueue_eq _ _ rfl, withAccess_nextId]; rfl
  rw [← enqueue_eq _ (highHalf f s r p x ks) rfl, ← enqueue_eq _ (lowHalf f s r p x ks) rfl, highHalf, ← hid]
  simp only [tidgetLane, counterHold_free hu, hl]
  rfl

/-- Settles O27: the image is checked as it is read, and `TIDGET` issues a store for each of its sectors. -/
theorem identifierResults : Obligations.IdentifierResults := by
  refine ⟨?_, ?_⟩
  · intro f s iss r s1 bs at_ valid h hu hr hs
    refine ⟨fun off hv hb => ?_, fun hv hb => ?_, fun hv => ?_⟩
    · exact runLanes_traps (body := fun _ _ s r => tidsetLane f s r) h (tidsetLane_bad hu hr hv hb)
    · exact runLanes_leaves (body := fun _ _ s r => tidsetLane f s r) h (tidsetLane_set hu hr hv hb) (withAccess_some hs)
    · exact runLanes_leaves (body := fun _ _ s r => tidsetLane f s r) h (tidsetLane_clear hu hr hv) (withAccess_some hs)
  · intro f s iss r p x ks space bs wholes h hu hl
    exact runLanes_leaves (body := fun _ _ s r => tidgetLane f s r) h (tidgetLane_ok hu hl)
      (withAccess_some (withAccess_some (show ((idle s).threads[r.tid]?).isSome from single_sat h)))

/-! Engine commands. -/

/-- The engine and the function are fields of B. -/
theorem fnOf_eq (b : BitVec 10) : fnOf b = ((b.extractLsb' 7 3).toNat, (b.extractLsb' 0 7).toNat) := by
  simp only [fnOf, BitVec.extractLsb'_toNat, Prod.mk.injEq]
  omega

section Command

variable {reply : Bool} {ts : List (Nat × Tensor)} {eng fn : Nat}

/-- The lane of a command whose counter has room and whose function is listed, by its descriptor. -/
theorem xopLane_unlisted (hu : unfull s r.tid .cp) (hf : fnOf f.b = (eng, fn)) (hn : listedFn eng fn = false) :
    xopLane reply f s (idle s) r = .trap ⟨23, 0, 0, 0⟩ := by
  simp only [xopLane, hf, counterHold_free hu, hn, Bool.not_false, if_true]
  rfl

theorem xopLane_badDesc {off : Nat} (hu : unfull s r.tid .cp) (hf : fnOf f.b = (eng, fn)) (hn : listedFn eng fn = true)
    (hr : readAtIssue (idle s) r.tid (if f.mod.getLsbD 0 then 1 else 0) r.a.toNat 64 64 = .ok s1 bs at_)
    (hd : descBad eng fn bs (launchOf (idle s) r.tid).spad = some off) :
    xopLane reply f s (idle s) r = .trap ⟨23, 0, off, 0⟩ := by
  simp only [xopLane, hf, counterHold_free hu, hn, hr, hd, Bool.not_true, Bool.false_eq_true, if_false]
  rfl

/-- The operation that a command starts, before its unit and its slot. -/
def commandStart (reply : Bool) (s s1 : State) (r : Ready) (eng fn : Nat) (bs : List Byte) (at_ : Option SpadRef)
    (ts : List (Nat × Tensor)) : EngineOp :=
  commandOp s1 { plainOp s1 r.tid eng fn with
    descVa := r.a.toNat
    descSpad := at_
    ctr := .cp
    param := r.c.setWidth 32
    dest := if reply then replyDest s1 s r.tid r.d r.span else .none } bs ts

/-- The command with its unit, once its slot is taken. -/
def commandPlaced (reply : Bool) (s s1 : State) (r : Ready) (eng fn : Nat) (bs : List Byte) (at_ : Option SpadRef)
    (ts : List (Nat × Tensor)) : State × EngineOp :=
  let e := commandStart reply s s1 r eng fn bs at_ ts
  takeSlot s1 r.tid { e with unit := unitOf e.param e }

theorem ofNat_natLow (x : DWord) : BitVec.ofNat 32 (natLow 32 x) = x.setWidth 32 := by
  rw [Ranges.natLow_count, countOf, BitVec.ofNat_toNat, BitVec.setWidth_eq]

theorem xopLane_starts (hu : unfull s r.tid .cp) (hf : fnOf f.b = (eng, fn)) (hn : listedFn eng fn = true)
    (hr : readAtIssue (idle s) r.tid (if f.mod.getLsbD 0 then 1 else 0) r.a.toNat 64 64 = .ok s1 bs at_)
    (hd : descBad eng fn bs (launchOf (idle s) r.tid).spad = none)
    (ht : commandTensors (idle s) (ctxOf (idle s) r.tid) (descIds eng fn bs) = .ok ts) (hb : tensorsBad eng fn (ts.map (·.2)) = none)
    (hc : commandClaim eng fn bs = none) :
    xopLane reply f s (idle s) r = .ok (startOp (modThread (commandPlaced reply s s1 r eng fn bs at_ ts).1 r.tid (counted .cp))
      (commandPlaced reply s s1 r eng fn bs at_ ts).2) {} := by
  simp only [xopLane, hf, counterHold_free hu, hn, hr, hd, ht, hb, hc, Bool.not_true, Bool.false_eq_true, if_false,
    Option.filter_none, ofNat_natLow, counted_eq]
  rfl

/-- A command and a command with a reply are one lane's effect where one lane issues. -/
theorem xop_out {mk : Form → Instr} {opc : BitVec 8} (hmk : mk = .xop ∧ opc = 0xE0 ∧ reply = false ∨ mk = .xopr ∧ opc = 0xE1 ∧ reply = true)
    (h : Single s iss opc f r) : exec (mk f) s = .next (aloneOut (idle s) iss opc f r (xopLane reply f s (idle s) r)) := by
  rcases hmk with ⟨rfl, rfl, rfl⟩ | ⟨rfl, rfl, rfl⟩
  · exact runLanes_alone (body := fun _ _ s1 r => xopLane false f s s1 r) h
  · exact runLanes_alone (body := fun _ _ s1 r => xopLane true f s s1 r) h

end Command

/-- Settles O28: the function, the descriptor's fields, then the start. -/
theorem commandResults : Obligations.CommandResults := by
  intro mk opc reply hmk f s iss r eng fn h hu
  have hf : fnOf f.b = (eng, fn) := fnOf_eq f.b
  refine ⟨fun hn => ?_, fun s1 bs at_ hn hr => ⟨fun off hd => ?_, ?_⟩⟩
  · rw [xop_out hmk h, xopLane_unlisted hu hf hn]; rfl
  · rw [xop_out hmk h, xopLane_badDesc hu hf hn hr hd]; rfl
  · intro ts hd ht hb hc e0 e1 e2 p s3 hs
    rw [xop_out hmk h, xopLane_starts hu hf hn hr hd ht hb hc]
    exact congrArg _ (aloneOut_ok hs)

end Sys2Proof.Commands

/-! SUPPORT. Statement settled: the system registers (R39, R53, R56, R205, R340). -/

namespace Sys2Proof.Registers

open Sys2Proof.Machine Sys2Proof.Claims

variable {f : Form} {s : State} {iss : Issue} {r : Ready} {c : Context}

/-! What `MFS` reads. -/

theorem mfs_leaves (h : Single s iss 0xF0 f r) {n : Nat} (hn : f.a.toNat = n) : exec (.mfs f) s = .next (leaves (idle s) iss f r
    { vals := regsBy (sysregIs64 n) (sysregRead (idle s) r.tid n) }) := by
  subst hn
  refine runLanes_leaves (s' := idle s) (x := { vals := regsBy (sysregIs64 f.a.toNat) (sysregRead (idle s) r.tid f.a.toNat) })
    (body := fun _ _ s r => .ok s
      { vals := valueWords (if sysregIs64 f.a.toNat then 64 else 32) (sysregRead s r.tid f.a.toNat) }) h ?_ (single_sat h)
  cases sysregIs64 f.a.toNat <;> rfl

/-- The registers of 32 bits that a context holds. -/
theorem context_narrow {n : Nat} (hc : contextOf s r.tid = some c) (hn : n ∈ [0x003, 0x004, 0x005, 0x006, 0x007, 0x008, 0x00B]) :
    sysregIs64 n = false ∧ sysregRead (idle s) r.tid n = contextRegister c n := by
  have hc' : contextOf (idle s) r.tid = some c := hc
  simp only [List.mem_cons, List.not_mem_nil, or_false] at hn
  rcases hn with rfl | rfl | rfl | rfl | rfl | rfl | rfl <;>
    exact ⟨rfl, by simp only [sysregRead, hc', Option.map_some, Option.getD_some]; rfl⟩

/-- Those of 64 bits. -/
theorem context_wide {n : Nat} (hc : contextOf s r.tid = some c) (hn : n ∈ [0x000, 0x001, 0x009]) :
    sysregIs64 n = true ∧ sysregRead (idle s) r.tid n = contextRegister c n := by
  have hc' : contextOf (idle s) r.tid = some c := hc
  simp only [List.mem_cons, List.not_mem_nil, or_false] at hn
  rcases hn with rfl | rfl | rfl <;>
    exact ⟨rfl, by simp only [sysregRead, hc', Option.map_some, Option.getD_some]; rfl⟩

theorem read_privlim (hc : contextOf s r.tid = some c) :
    sysregRead (idle s) r.tid 0x00A = BitVec.ofNat 64 (min (launchOf s r.tid).privlim c.privlim.toNat) := by
  have hc' : contextOf (idle s) r.tid = some c := hc
  simp only [sysregRead, privLimit, hc', Option.map_some, Option.getD_some]
  rfl

theorem low_of_wide (x : Word) : (x.zeroExtend 64).extractLsb' 0 32 = x := by
  apply BitVec.eq_of_toNat_eq
  simp only [BitVec.extractLsb'_toNat, BitVec.toNat_setWidth, Nat.shiftRight_zero]
  omega

theorem read_fpctl {g : Group} (hg : groupOf s r.tid = some g) : oneReg (sysregRead (idle s) r.tid 0x002) = [g.fpctl] := by
  have hg' : groupOf (idle s) r.tid = some g := hg
  simp only [oneReg, sysregRead, hg', Option.map_some, Option.getD_some]
  exact congrArg (fun x => [x]) (low_of_wide g.fpctl)

theorem read_pos {m : Team} (hm : teamOf s r.tid = some m) : oneReg (sysregRead (idle s) r.tid 0x00C) = [m.pos] := by
  have hm' : teamOf (idle s) r.tid = some m := hm
  simp only [oneReg, sysregRead, hm', Option.map_some, Option.getD_some]
  exact congrArg (fun x => [x]) (low_of_wide m.pos)

theorem read_sitemap {d : Nat} (hd : d < 4) :
    sysregIs64 (0x00D + d) = true ∧ sysregRead (idle s) r.tid (0x00D + d) = siteMap s d := by
  have : d = 0 ∨ d = 1 ∨ d = 2 ∨ d = 3 := by omega
  rcases this with rfl | rfl | rfl | rfl <;> exact ⟨rfl, rfl⟩

/-! What `MTS` writes. -/

/-- One lane alone is the lowest of the issue group and of its own group. -/
theorem writes_alone (n : Nat) : writesSysreg (idle s) [(r.tid, .ready r)] n r.tid = true := by
  simp [writesSysreg, isReady]

/-- The bits 10 down to 8 of a number. -/
theorem and_0x700 (x : Nat) : x &&& 0x700 = x / 256 % 8 * 256 := by
  have h : x / 2 ^ 8 % 2 ^ 3 = x / 2 ^ 8 &&& 2 ^ 3 - 1 := (Nat.and_two_pow_sub_one_eq_mod _ _).symm
  rw [show x / 256 % 8 = x / 2 ^ 8 % 2 ^ 3 from rfl, h, ← Nat.shiftRight_eq_div_pow,
    show (256 : Nat) = 2 ^ 8 from rfl, ← Nat.shiftLeft_eq, Nat.shiftLeft_and_distrib]
  apply Nat.eq_of_testBit_eq
  intro i
  by_cases hi : 8 ≤ i
  · simp [Nat.testBit_and, Nat.testBit_shiftLeft, hi]
  · have h7 : Nat.testBit 0x700 i = false := by
      have : i < 8 := by omega
      interval_cases i <;> rfl
    simp [Nat.testBit_and, Nat.testBit_shiftLeft, hi, h7]

theorem and_0x1F (x : Nat) : x &&& 0x1F = x % 32 := Nat.and_two_pow_sub_one_eq_mod x 5

theorem or_0x700 {a b : Nat} (ha : a < 32) : a ||| b * 256 = a + b * 256 := by
  have h := Nat.shiftLeft_add_eq_or_of_lt (show a < 2 ^ 8 by omega) b
  rw [Nat.shiftLeft_eq] at h
  rw [Nat.or_comm, ← h]
  omega

/-- `FPCTL` keeps five flags and the rounding mode, and a mode of 6 or 7 as 0. -/
theorem fpctl_write (v : DWord) : fpctlOf (v.truncate 32) =
    (v.setWidth 32 &&& 0x1F) ||| (if (v.extractLsb' 8 3).toNat ≤ 5 then v.setWidth 32 &&& 0x700 else 0) := by
  change fpctlOf (v.setWidth 32) = _
  have hrm : (v.extractLsb' 8 3).toNat = (v.setWidth 32).toNat / 256 % 8 := by
    simp only [BitVec.extractLsb'_toNat, BitVec.toNat_setWidth, Nat.shiftRight_eq_div_pow]; omega
  rw [hrm]
  generalize v.setWidth 32 = x
  apply BitVec.eq_of_toNat_eq
  have hlt : x.toNat % 32 < 32 := Nat.mod_lt _ (by decide)
  simp only [fpctlOf, BitVec.toNat_or, BitVec.toNat_and, BitVec.toNat_ofNat]
  split
  · rw [if_neg (by omega)]
    change _ = x.toNat &&& 0x1F ||| 0
    rw [Nat.or_zero, and_0x1F]
    omega
  · rw [if_pos (by omega), BitVec.toNat_and]
    change _ = x.toNat &&& 0x1F ||| x.toNat &&& 0x700
    rw [and_0x1F, and_0x700, or_0x700 hlt]
    omega

theorem budget_write (v : DWord) :
    budgetOf v = (v &&& 0x0000FFFFFFFF0000) ||| BitVec.ofNat 64 (min (v.extractLsb' 8 8).toNat 176 * 256) := by
  simp only [budgetOf, BitVec.extractLsb'_toNat, Nat.shiftRight_eq_div_pow]
  rfl

/-- A context's register as `MTS` writes it. -/
theorem context_write {n : Nat} (v : DWord) (hn : n ∈ [0x000, 0x001, 0x003, 0x004, 0x005, 0x006, 0x007, 0x008, 0x00A, 0x00B]) :
    ctxRegWrite c n v = withRegister c n v := by
  simp only [List.mem_cons, List.not_mem_nil, or_false] at hn
  rcases hn with rfl | rfl | rfl | rfl | rfl | rfl | rfl | rfl | rfl | rfl <;>
    simp [ctxRegWrite, withRegister, BitVec.toNat_setWidth]

/-- The lane of a write of a context's register. -/
theorem mtsLane_context {n : Nat} (h2 : n ≠ 2) : mtsLane n [(r.tid, .ready r)] (idle s) r =
    let t := withCtx (idle s) (ctxOf s r.tid) fun k => ctxRegWrite (if n = 0x00B then { k with fadeClk := s.clk } else k) n r.a
    .ok (if n = 3 then reseed t (ctxOf s r.tid) else t) {} := by
  rw [mtsLane, if_pos (writes_alone n), if_neg h2]
  rfl

theorem mtsLane_group : mtsLane 2 [(r.tid, .ready r)] (idle s) r =
    .ok (modGroup (idle s) (groupIdOf s r.tid) fun g => { g with fpctl := fpctlOf (r.a.truncate 32) }) {} := by
  rw [mtsLane, if_pos (writes_alone 2), if_pos rfl]
  rfl

theorem mts_leaves (h : Single s iss 0xF1 f r) {n : Nat} (hn : f.d.toNat = n) {t : State}
    (hb : mtsLane n [(r.tid, .ready r)] (idle s) r = .ok t {}) (ht : t.threads = s.threads) :
    exec (.mts f) s = .next (leaves t iss f r {}) := by
  subst hn
  refine runLanes_leaves (body := fun _ ps s r => mtsLane f.d.toNat ps s r) h hb ?_
  rw [ht]; exact single_sat h

/-- Settles O29: each register's read, and each register's write under the bits that it keeps. -/
theorem systemRegisters : Obligations.SystemRegisters := by
  refine ⟨fun f s iss r c h hc => ⟨fun hn => ?_, fun hn => ?_, fun hn => ?_, fun g hg hn => ?_, fun m hm hn => ?_,
    fun d hd hn => ?_⟩, fun f s iss r h => ⟨fun hn => ?_, fun hn => ?_, fun hn => ?_, fun hn => ?_, fun hn => ?_⟩⟩
  · obtain ⟨hw, hv⟩ := context_narrow hc hn
    rw [mfs_leaves h rfl, hw, hv]; rfl
  · obtain ⟨hw, hv⟩ := context_wide hc hn
    rw [mfs_leaves h rfl, hw, hv]; rfl
  · rw [mfs_leaves h hn, read_privlim hc]; rfl
  · rw [mfs_leaves h hn, ← read_fpctl hg]; rfl
  · rw [mfs_leaves h hn, ← read_pos hm]; rfl
  · obtain ⟨hw, hv⟩ := read_sitemap (r := r) (s := s) hd
    rw [mfs_leaves h hn, hw, hv]; rfl
  · rw [← fpctl_write]
    exact mts_leaves h hn mtsLane_group rfl
  · have h2 : f.d.toNat ≠ 2 := fun e => by rw [e] at hn; exact absurd hn (by decide)
    have h3 : f.d.toNat ≠ 3 := fun e => by rw [e] at hn; exact absurd hn (by decide)
    have hB : f.d.toNat ≠ 0x00B := fun e => by rw [e] at hn; exact absurd hn (by decide)
    have hall : f.d.toNat ∈ [0x000, 0x001, 0x003, 0x004, 0x005, 0x006, 0x007, 0x008, 0x00A, 0x00B] := by
      revert hn; simp only [List.mem_cons, List.not_mem_nil, or_false]; tauto
    have hlane := mtsLane_context (s := s) (r := r) h2
    simp only [if_neg h3, if_neg hB, context_write _ hall] at hlane
    exact mts_leaves h rfl hlane rfl
  · have hlane := mtsLane_context (s := s) (r := r) (n := 0x00B) (by decide)
    exact mts_leaves h hn hlane rfl
  · have hlane := mtsLane_context (s := s) (r := r) (n := 0x003) (by decide)
    exact mts_leaves h hn hlane rfl
  · have hlane := mtsLane_context (s := s) (r := r) (n := 0x009) (by decide)
    simp only [← budget_write]
    exact mts_leaves h hn hlane rfl

end Sys2Proof.Registers

/-! SUPPORT. Statements settled: saving and restoring a context, and the other system instructions (R207 to R214). -/

namespace Sys2Proof.SystemOps

open Sys2Proof.Machine Sys2Proof.Claims

variable {f : Form} {s s1 s2 s3 : State} {iss : Issue} {r : Ready} {th : Thread}

/-! `CTXSV`. -/

section Saving

variable (ht : s.threads[r.tid]? = some th)
include ht

theorem ctxsvLane_counters (hn : ¬ (th.ld = 0 ∧ th.st = 0 ∧ th.cp = 0)) :
    ctxsvLane iss f (idle s) r = .hold (.counters (some 0) (some 0) (some 0) none) := by
  have ht' : (idle s).threads[r.tid]? = some th := ht
  simp only [ctxsvLane, ht']
  exact if_pos (by tauto)

variable (hz : th.ld = 0 ∧ th.st = 0 ∧ th.cp = 0)
include hz

theorem ctxsvLane_accesses (ha : hasAccess s r.tid = true) : ctxsvLane iss f (idle s) r = .hold .accesses := by
  have ht' : (idle s).threads[r.tid]? = some th := ht
  have hz' : ¬ (th.ld ≠ 0 ∨ th.st ≠ 0 ∨ th.cp ≠ 0) := by tauto
  simp only [ctxsvLane, ht', if_neg hz']
  exact if_pos ha

theorem ctxsvLane_stored (ha : hasAccess s r.tid = false)
    (h1 : (if f.mod.getLsbD 0 then partStore (idle s) r.tid r.a.toNat 0
      (threadPart (idle s) r.tid (iss.pc + BitVec.ofNat 64 f.len.bytes)) else .ok (idle s)) = .ok s1)
    (h2 : (if f.mod.getLsbD 1 then partStore s1 r.tid r.a.toNat 0x100 (groupPart s1 r.tid) else .ok s1) = .ok s2)
    (h3 : (if f.mod.getLsbD 2 then partStore s2 r.tid r.a.toNat 0x300 (teamPart s2 r.tid) else .ok s2) = .ok s3) :
    ctxsvLane iss f (idle s) r = .ok (if f.mod.getLsbD 2 then noteSaved s3 (teamIdOf s3 r.tid) else s3) {} := by
  have ht' : (idle s).threads[r.tid]? = some th := ht
  have hz' : ¬ (th.ld ≠ 0 ∨ th.st ≠ 0 ∨ th.cp ≠ 0) := by tauto
  have ha' : ¬ hasAccess (idle s) r.tid = true := by rw [Bool.not_eq_true]; exact ha
  simp only [ctxsvLane, ht', if_neg hz', if_neg ha', h1, h2, h3]

end Saving

/-! `CTXRS`. -/

section Restoring

variable (hp : savedBlock (phaseOf s (teamIdOf s r.tid)) = none) (ha : hasAccess s r.tid = false)
include hp ha

theorem ctxrsLane_noTeam (h2 : f.mod.getLsbD 2 = false) (hr : ((teamOf s r.tid).map (·.partRestored)).getD false = false) :
    ctxrsLane iss f (idle s) r = .trap ⟨2, 0, 0, 0⟩ := by
  have hp' : savedBlock (phaseOf (idle s) (teamIdOf (idle s) r.tid)) = none := hp
  have ha' : hasAccess (idle s) r.tid = false := ha
  have hr' : ((teamOf (idle s) r.tid).map (·.partRestored)).getD false = false := hr
  simp only [ctxrsLane, hp', ha', h2, hr', Option.isSome_none, Bool.false_eq_true, if_false, Bool.not_false, Bool.and_self, if_true]
  rfl

theorem ctxrsLane_restored {b0 b1 b2 : List Byte}
    (hr : f.mod.getLsbD 2 = true ∨ ((teamOf s r.tid).map (·.partRestored)).getD false = true)
    (h1 : (if f.mod.getLsbD 0 then partLoad (idle s) r.tid r.a.toNat 0 256 else .ok (idle s, [])) = .ok (s1, b0))
    (h2 : (if f.mod.getLsbD 1 then partLoad s1 r.tid r.a.toNat 0x100 512 else .ok (s1, [])) = .ok (s2, b1))
    (h3 : (if f.mod.getLsbD 2 then partLoad s2 r.tid r.a.toNat 0x300 17408 else .ok (s2, [])) = .ok (s3, b2))
    (hc : f.mod.getLsbD 2 = true → capacityFor s3 r.tid b2 = true) :
    ctxrsLane iss f (idle s) r =
      let s4 := if f.mod.getLsbD 2 then restoreTeam s3 r.tid b2 else s3
      let s5 := if f.mod.getLsbD 1 then restoreGroup s4 r.tid b1 else s4
      .ok (if f.mod.getLsbD 0 then restoreThread s5 r.tid b0 else s5) {} := by
  have hp' : savedBlock (phaseOf (idle s) (teamIdOf (idle s) r.tid)) = none := hp
  have ha' : hasAccess (idle s) r.tid = false := ha
  have hteam : (!f.mod.getLsbD 2 && !((teamOf (idle s) r.tid).map (·.partRestored)).getD false) = false := by
    rw [← Bool.not_or, Bool.not_eq_false', Bool.or_eq_true]; exact hr
  have hcap : (f.mod.getLsbD 2 && !capacityFor s3 r.tid b2) = false := by
    by_cases h : f.mod.getLsbD 2 = true
    · rw [hc h, Bool.not_true, Bool.and_false]
    · rw [Bool.not_eq_true] at h; rw [h, Bool.false_and]
  simp only [ctxrsLane, hp', ha', hteam, h1, h2, h3, hcap, Option.isSome_none, Bool.false_eq_true, if_false]

end Restoring

/-- Settles O30: the parts in their order, each under its bit of MOD. -/
theorem contextResults : Obligations.ContextResults := by
  refine ⟨fun f s iss r th h ht => ⟨fun hn => ?_, fun hl hs hc ha => ?_, ?_⟩, ?_⟩
  · exact runLanes_waits (body := fun iss _ s r => ctxsvLane iss f s r) h (ctxsvLane_counters ht hn)
  · exact runLanes_waits (body := fun iss _ s r => ctxsvLane iss f s r) h (ctxsvLane_accesses ht ⟨hl, hs, hc⟩ ha)
  · intro s1 s2 s3 hl hs hc ha h1 h2 h3 s4 hsome
    refine runLanes_leaves (body := fun iss _ s r => ctxsvLane iss f s r) h (ctxsvLane_stored ht ⟨hl, hs, hc⟩ ha h1 h2 h3) ?_
    dsimp only [s4]
    split <;> exact hsome
  · intro f s iss r s1 b0 s2 b1 s3 b2 h hp ha
    refine ⟨fun h2 hr => ?_, ?_⟩
    · exact runLanes_traps (body := fun iss _ s r => ctxrsLane iss f s r) h (ctxrsLane_noTeam hp ha h2 hr)
    · intro hr h1 h2 h3 hc s4 s5 s6 hsome
      exact runLanes_leaves (body := fun iss _ s r => ctxrsLane iss f s r) h (ctxrsLane_restored hp ha hr h1 h2 h3 hc) hsome

/-! A thread of no group at the end of a restore routine: a refutation. -/

/-- The issue group of thread 0. -/
def strayIssue : Issue := ⟨0, 0, 0, 4096, [(0, 0)]⟩

/-- Thread 0's group is none of the package's, and team 0, which thread 1 is of, ends its restore routine while its context is
held: its save block stands past the virtual addresses. -/
def stray : State :=
  { State.reset with
    contexts := [{ plainContext with bringUp := false, held := true, nblk := 1, blksz := 4096, savebase := 2 ^ 58 }]
    grids := [⟨plainLaunch 4096 0, 0, none, [], 1, [], (0, 0), [], none, none, false⟩]
    clusters := [⟨0, 0, [0], none⟩]
    teams := [{ plainTeam 0 0 [0] with phase := .restoring 0 }]
    groups := [⟨0, 0, 0, 0, 0, [], 0, 0, 0, none, 0, false⟩]
    threads := [startThread 1 0 0 0 0 4096 .restore, startThread 0 0 0 0 0 4096 .none]
    cur := some strayIssue }

/-- `EXITP`'s fields. -/
def strayForm : Form := ⟨.l64, 0, 0, 0, 0, 0, 0, 0, false, 7, 0, 0⟩

/-- Its lane as prepared. -/
def strayLane : Ready := ⟨0, 0, 0, 0, 0, 0, .void, .void, none, [], none, 0, List.replicate 16 ⟨false, 0, 0, 0, 0⟩, none⟩

/-- How the threads of an instruction's outcome wait. -/
def waitsAfter (i : Instr) (s : State) : List Wait :=
  match exec i s with
  | .next t => t.threads.map fun (th : Thread) => th.wait
  | _ => []

theorem stray_single : Single stray strayIssue 0xF9 strayForm strayLane := by
  refine ⟨?_, ?_⟩ <;> decide +kernel

theorem stray_stops : waitsAfter (.exitp strayForm) stray = [.stopped, .stopped] := by
  decide +kernel

/-- Refutes O31: where a thread of no group ends a restore routine, the routine of team 0 ends with it, whatever the thread's
own team; the cluster of team 0 then leaves, and its context stops when the save block cannot be written. -/
theorem not_supervisorResults : ¬ Obligations.SupervisorResults := by
  intro ⟨_, _, _, hrestore, _, _⟩
  obtain ⟨t, ht, hall⟩ := hrestore strayForm stray strayIssue strayLane _ stray_single rfl rfl (fun b h => nomatch h)
    (fun m h => nomatch h)
  obtain ⟨th, hth, hreturns, -⟩ := hall 0 _ rfl
  have hw : (t.threads.map fun (x : Thread) => x.wait) = [.stopped, .stopped] := by
    rw [← stray_stops, waitsAfter, ht]
  have hwait : th.wait = .ready := (hreturns rfl).2.2
  have h0 := congrArg (fun l => l[0]?) hw
  simp [hth, hwait] at h0

/-! What a lane that stays where it is leaves of its thread. -/

theorem setHold_stays (th : Thread) (h : Option (BitVec 2 × HoldName)) :
    (setHold th h).routine = th.routine ∧ (setHold th h).pc = th.pc ∧ (setHold th h).wait = th.wait := by
  cases h with
  | none => exact ⟨rfl, rfl, rfl⟩
  | some p => simp only [setHold]; split <;> [exact ⟨rfl, rfl, rfl⟩; (split <;> exact ⟨rfl, rfl, rfl⟩)]

theorem writeThread_nothing (d : Loc) (th : Thread) : writeThread d [] th = th := by
  cases d <;> rfl

theorem doneThread_stays (pc : DWord) (len clk : Nat) (r : Ready) (th : Thread) :
    (doneThread pc len clk r { next := .stay } th).routine = th.routine ∧ (doneThread pc len clk r { next := .stay } th).pc = th.pc ∧
      (doneThread pc len clk r { next := .stay } th).wait = th.wait := by
  have h : doneThread pc len clk r { next := .stay } th = setHold { th with xs := r.xs } r.hold := writeThread_nothing _ _
  rw [h]
  exact setHold_stays { th with xs := r.xs } r.hold

/-! One trap, taken by record (R82, R86). -/

section Record

variable {q : TrapReq} {gr : Group} {k : Context}

/-- One trap that neither the fault queue nor the spill unit serves goes to its group. -/
theorem takeTraps_one (ht : s.threads[q.tid]? = some th) (hp : q.info.code ≠ cPAGEF)
    (hu : ¬ (q.info.code = cSPILL ∨ q.info.code = cFILL)) : takeTraps s [q] = vectorTraps s th.group [q] := by
  simp only [takeTraps, hu, hp, false_and, decide_false, Bool.not_false, not_false_eq_true,
    ne_eq, and_self, decide_true, List.filter_cons, List.filter_nil, if_true, Bool.false_eq_true, if_false, List.foldl_nil,
    List.map_nil, List.map_cons, List.dedup_nil, List.find?_cons, ht, Option.map_some, Option.getD_some]
  generalize (decide (q.info.code = cPROT) &&
    ((s.groups[th.group]?.bind fun a => a.record).isSome || [q].all fun x => decide (cPROT ≤ x.info.code))) = b
  cases b <;> simp [ht]

/-- A group's one trap is delivered by record, where its context runs: PROT always, another where neither its thread is in a
handler nor its group's record busy. -/
theorem vectorTraps_one {g : Nat} (hk : s.contexts[ctxOf s q.tid]? = some k) (hb : k.bringUp = false) (hs : k.stopped = false)
    (hc : q.info.code < 255)
    (hf : q.info.code = cPROT ∨ (s.threads[q.tid]?).bind (·.handler) = none ∧ (s.groups[g]?).bind (·.record) = none) :
    vectorTraps s g [q] = takeRecord s g q [q.tid] := by
  have hfind : ([q].find? fun r => r.info.code ≠ cPROT ∧ ((s.threads[r.tid]?).bind (·.handler)).isSome) = none := by
    rcases hf with hp | ⟨hh, -⟩
    · simp [hp]
    · simp [hh]
  have hhere : (if ((s.groups[g]?).bind (·.record)).isSome then [q].filter fun r => r.info.code = cPROT else [q]) = [q] := by
    rcases hf with hp | ⟨-, hr⟩
    · simp [hp]
    · simp [hr]
  simp only [vectorTraps, hk, Option.map_some, Option.getD_some, hb, hs, Bool.false_eq_true, if_false, hfind, hhere]
  simp [hc]

theorem trapped_record {opc : BitVec 8} {i : TrapInfo} (ht : s.threads[r.tid]? = some th) (hk : s.contexts[ctxOf s r.tid]? = some k)
    (hb : k.bringUp = false) (hs : k.stopped = false) (hi : i.code ≠ cPAGEF ∧ ¬ (i.code = cSPILL ∨ i.code = cFILL) ∧ i.code < 255)
    (hf : i.code = cPROT ∨ th.handler = none ∧ (s.groups[th.group]?).bind (·.record) = none) :
    trapped s iss opc f r.tid i = takeRecord s th.group (trapReq iss opc f r.tid i) [r.tid] := by
  rw [trapped, takeTraps_one (q := trapReq iss opc f r.tid i) ht hi.1 hi.2.1]
  refine vectorTraps_one hk hb hs hi.2.2 ?_
  rw [show (trapReq iss opc f r.tid i).tid = r.tid from rfl, ht]
  exact hf

end Record

/-! `PERF`, `SLEEP` and `HALT`. -/

theorem clock_gives : Gives .clock 0xFA (fun f s _ r => { vals := pairRegs (BitVec.ofNat 64
    (if f.mod.getLsbD 0 then ((s.threads[r.tid]?).map (·.ptime)).getD 0 % 2 ^ 48 else s.clk)) }) := by
  refine Compute.gives_of (body := fun f _ _ _ s r => .ok s { vals := valueWords 64 (BitVec.ofNat 64
    (if f.mod.getLsbD 0 then ((s.threads[r.tid]?).map (·.ptime)).getD 0 % 2 ^ 48 else s.clk)) }) (fun _ _ => rfl)
    fun f s iss r _ _ s' hv => ?_
  obtain ⟨ths, gs, hs⟩ := hv.rest
  have hclk : s'.clk = s.clk := by rw [hs]; rfl
  have hth : s'.threads[r.tid]? = s.threads[r.tid]? := hv.thread
  rw [hclk, hth]
  rfl

theorem perf_value (h : Single s iss 0xFB f r) {n : Nat} (hn : perfCount s r.tid (countOf r.a) (countOf r.b) = some n) :
    exec (.perf f) s = .next (leaves (idle s) iss f r { vals := pairRegs (BitVec.ofNat 64 n) }) := by
  refine runLanes_leaves (body := fun _ _ s r => match perfCount s r.tid (natLow 32 r.a) (natLow 32 r.b) with
    | some n => .ok s { vals := valueWords 64 (BitVec.ofNat 64 n) }
    | none => .trap (trapAt cILLOPND 0)) h ?_ (single_sat h)
  have hn' : perfCount (idle s) r.tid (natLow 32 r.a) (natLow 32 r.b) = some n := hn
  simp only [hn']
  rfl

theorem perf_unlisted (h : Single s iss 0xFB f r) (hn : perfCount s r.tid (countOf r.a) (countOf r.b) = none) :
    exec (.perf f) s = .next (trapped (idle s) iss 0xFB f r.tid ⟨2, 0, 0, 0⟩) := by
  refine runLanes_traps (body := fun _ _ s r => match perfCount s r.tid (natLow 32 r.a) (natLow 32 r.b) with
    | some n => .ok s { vals := valueWords 64 (BitVec.ofNat 64 n) }
    | none => .trap (trapAt cILLOPND 0)) h ?_
  have hn' : perfCount (idle s) r.tid (natLow 32 r.a) (natLow 32 r.b) = none := hn
  simp only [hn']
  rfl

/-- A thread that sleeps has passed its instruction. -/
def asleep (iss : Issue) (f : Form) (clk n : Nat) (th : Thread) : Thread :=
  { becomeReady { fallThrough th iss.pc f.len.bytes with counted := none } (clk + 1) with wait := .sleep (clk + min n 1048576) }

theorem sleep_out (h : Single s iss 0xFC f r) : exec (.sleep f) s = .next (leaves
    { idle s with threads := s.threads.modify r.tid (asleep iss f s.clk (countOf r.a)) } iss f r { next := .stay }) := by
  refine runLanes_leaves (body := fun iss _ s r => .ok (holdAt (advance s r.tid iss.pc f.len.bytes) r.tid
    (.sleep (s.clk + min (natLow 32 r.a) 1048576))) { next := .stay }) h ?_ (some_of_length (single_sat h) (List.length_modify _ _ _))
  simp only [holdAt, advance, modThread, modAt, List.modify_modify_eq]
  rfl

section Halting

variable {c : Context} {d site : Nat} (ht : s.threads[r.tid]? = some th) (hx : th.exited = false) (hc : contextOf s r.tid = some c)
include hc

theorem haltLane_stops (hb : c.bringUp = true) (ht : s.threads[r.tid]? = some th) (hx : th.exited = false)
    (hd : coreOf s r.tid = (d, site)) : haltLane (idle s) r = .suspend (stopCore { idle s with
      dies := s.dies.modify d fun k => { k with halts := k.halts ++ [(site, r.a.setWidth 32)] } } r.tid (countOf r.a)) := by
  have hc' : contextOf (idle s) r.tid = some c := hc
  have hd' : coreOf (idle s) r.tid = (d, site) := hd
  have hx' : threadExited (idle s) r.tid = false := by
    change ((s.threads[r.tid]?).map (·.exited)).getD true = false
    rw [ht]; exact hx
  simp only [haltLane, hc', Option.map_some, Option.getD_some, hb, if_true, hx', Bool.false_eq_true, if_false, hd', Commands.ofNat_natLow]
  rfl

theorem haltLane_traps (hb : c.bringUp = false) : haltLane (idle s) r = .trap ⟨18, countOf r.a, 0, 0⟩ := by
  have hc' : contextOf (idle s) r.tid = some c := hc
  simp only [haltLane, hc', Option.map_some, Option.getD_some, hb, Bool.false_eq_true, if_false]
  rfl

end Halting

/-- PROT's record is sent: its thread stands still until its stores have been performed. -/
theorem takeRecord_stops {q : TrapReq} {g t a : Nat} (hq : q.info.code = cPROT) (h : sendRecord s g q [t] true = .sent s1 a) :
    takeRecord s g q [t] = { s1 with threads := s1.threads.modify t fun th => { th with wait := .recordStore a, promoted := false } } := by
  simp only [takeRecord, hq, decide_true, h, if_true]
  rfl

/-- Settles O32: `HALT`'s record is PROT's, and each other instruction is its lane's own effect. -/
theorem clockResults : Obligations.ClockResults := by
  refine ⟨clock_gives, ?_, ?_, ?_, fun s a code => ⟨_, rfl⟩⟩
  · intro f s iss r d c h hl hd
    refine ⟨fun n hn => perf_value hl hn, fun hn => perf_unlisted hl hn, ?_, ?_, ?_, fun hu hh => ?_⟩
    · simp only [perfCount, hd]
    · simp only [perfCount, hd]
    · simp only [perfCount, hd]
    · have hn : ¬ 12 ≤ countOf r.b := Nat.not_le.2 hu
      simp only [perfCount, if_neg hn, hh, Option.map_some, and_self]
  · intro f s iss r th h ht
    obtain ⟨-, hpc, hwait⟩ := doneThread_stays iss.pc f.len.bytes s.clk r (asleep iss f s.clk (countOf r.a) th)
    refine ⟨_, _, sleep_out h, ?_, hwait, hpc, rfl, fun u hu => ?_⟩
    · simp only [leaves, List.getElem?_modify, ht, Option.map_eq_map, Option.map_some, if_true]
      rfl
    · simp only [leaves, List.getElem?_modify, if_neg (Ne.symm hu), Option.map_eq_map, Option.map_id']
  · intro f s iss r c d site th h ht hx hc hs hd
    refine ⟨fun hb => ?_, ?_⟩
    · exact runLanes_suspends (body := fun _ _ s r => haltLane s r) h (haltLane_stops hc hb ht hx hd)
    · intro s1 a q hb hsent
      change runLanes 0xFE f s (fun _ _ s r => haltLane s r) = _
      rw [runLanes_traps h (haltLane_traps hc hb), trapped_record (s := idle s) ht hc hb hs ⟨(by decide : (18 : Nat) ≠ 17), (by decide : ¬ ((18 : Nat) = 6 ∨ (18 : Nat) = 7)), (by decide : (18 : Nat) < 255)⟩ (.inl rfl),
        takeRecord_stops rfl hsent]

end Sys2Proof.SystemOps

/-! SUPPORT. Statement settled: traps by record, the record's bytes, `RTT`, and an access's first checks (R84 to R87, R139, R206). -/

namespace Sys2Proof.Traps

open Sys2Proof.Machine Sys2Proof.Claims Sys2Proof.SystemOps Sys2Proof.Encoding

/-! Bytes of a record (R85). -/

theorem valueOf_bytesOf (n v : Nat) : valueOf (bytesOf n v) = v % 256 ^ n := by
  have h := bitsOfBytes_append n v []
  rw [List.append_nil] at h
  rw [← Moves.bitsOfBytes_eq_valueOf]
  exact h.trans (by rw [bitsOfBytes, Nat.mul_zero, Nat.add_zero])

theorem bytesOf_length (n v : Nat) : (bytesOf n v).length = n := Laws.Encoded.bytes_length n v

theorem flatMap_bytes_length (n : Nat) (ws : List Nat) : (ws.flatMap (bytesOf n)).length = n * ws.length := by
  induction ws with
  | nil => rfl
  | cons w ws ih => rw [List.flatMap_cons, List.length_append, ih, bytesOf_length, List.length_cons, Nat.mul_succ, Nat.add_comm]

/-- The bytes from the i-th doubleword on. -/
theorem drop_words (ws : List Nat) (tail : List Byte) : ∀ i, i ≤ ws.length →
    (ws.flatMap (bytesOf 8) ++ tail).drop (8 * i) = (ws.drop i).flatMap (bytesOf 8) ++ tail := by
  intro i hi
  have h := flatMap_bytes_length 8 (ws.take i)
  rw [List.length_take, Nat.min_eq_left hi] at h
  conv_lhs => rw [← List.take_append_drop i ws, List.flatMap_append, List.append_assoc]
  rw [List.drop_append_of_le_length (by omega), List.drop_of_length_le (by omega), List.nil_append]

/-- The low n bytes of a doubleword. -/
theorem take_bytesOf {n : Nat} (hn : n ≤ 8) (w : Nat) (l : List Byte) : (bytesOf 8 w ++ l).take n = bytesOf n w := by
  have h : bytesOf 8 w = bytesOf n w ++ bytesOf (8 - n) (w / 256 ^ n) := by
    have hadd := Remote.bytesOfBits_add n (8 - n) w
    rw [show n + (8 - n) = 8 by omega] at hadd
    exact hadd
  rw [h, List.append_assoc, List.take_append_of_le_length (by rw [bytesOf_length]), List.take_of_length_le (by rw [bytesOf_length])]

/-- A field of n bytes at the i-th doubleword. -/
theorem field_value {ws : List Nat} {tail : List Byte} {i n : Nat} (w : Nat) (hi : ws[i]? = some w) (hn : n ≤ 8) :
    valueOf (((ws.flatMap (bytesOf 8) ++ tail).drop (8 * i)).take n) = w % 256 ^ n := by
  obtain ⟨hlt, hw⟩ := List.getElem?_eq_some_iff.1 hi
  rw [drop_words ws tail i hlt.le, List.drop_eq_getElem_cons hlt, List.flatMap_cons, List.append_assoc, take_bytesOf hn, hw, valueOf_bytesOf]

section Record

variable (s : State) (g : Nat) (q : TrapReq) (m : BitVec 32)

/-- The first doubleword of a record. -/
def recordHead : Nat :=
  q.info.code + 256 * 1 + 2 ^ 16 * (((s.groups[g]?).map (·.slot)).getD 0) + 2 ^ 22 * (((s.groups[g]?).map (·.part)).getD 0)
    + 2 ^ 25 + (if (!resumesNext q.info.code && !noResume q.info.code) = true then 2 ^ 26 else 0) +
    2 ^ 32 * (((s.contexts[ctxOf s q.tid]?).map (·.ctxid)).getD 0)

/-- The PC at which a trap resumes, zero where R83 gives none. -/
def recordResume : Nat :=
  if noResume q.info.code then 0
  else if resumesNext q.info.code then (q.pc + BitVec.ofNat 64 q.len).toNat else q.pc.toNat

/-- The record's doublewords below its lanes' fields. -/
def recordWords : List Nat :=
  [recordHead s g q, q.pc.toNat, recordResume q,
    m.toNat + 2 ^ 32 * (laneMask s (q.issued.filter fun t => ((s.threads[t]?).map (·.group)) = some g)).toNat,
    q.info.addr, q.info.extra0, q.info.extra1, ((s.threads[q.tid]?).map (·.ptime)).getD 0, q.word0.toNat, q.word1.toNat,
    ((s.groups[g]?).map fun x => x.fpctl.toNat).getD 0,
    ((s.threads[q.tid]?).map fun th => th.ld + 2 ^ 8 * th.st + 2 ^ 16 * th.cp + 2 ^ 24 * th.tl).getD 0]

/-- The lanes' window bases and depths. -/
def recordLanes : List Byte :=
  (List.range 32).flatMap (fun i => bytesOf 2 (((s.threads.find? fun th => th.group = g ∧ th.lane = i).map (·.wb)).getD 0))
    ++ (List.range 32).flatMap (fun i => bytesOf 2 (((s.threads.find? fun th => th.group = g ∧ th.lane = i).map depthOf).getD 0))

theorem recordBytes_eq : recordBytes s g q m =
    (recordWords s g q m).flatMap (bytesOf 8) ++ (recordLanes s g ++ List.replicate 32 0) := by
  simp only [recordBytes, recordWords, recordLanes, List.flatMap_cons, List.flatMap_nil, List.append_nil, List.append_assoc]
  rfl

theorem flatMap_two_length (l : List Nat) (w : Nat → Nat) : (l.flatMap fun i => bytesOf 2 (w i)).length = 2 * l.length := by
  induction l with
  | nil => rfl
  | cons i l ih => rw [List.flatMap_cons, List.length_append, ih, bytesOf_length, List.length_cons, Nat.mul_succ, Nat.add_comm]

theorem recordLanes_length : (recordLanes s g).length = 128 := by
  rw [recordLanes, List.length_append, flatMap_two_length, flatMap_two_length, List.length_range]

theorem recordBytes_length : (recordBytes s g q m).length = 256 := by
  rw [recordBytes_eq, List.length_append, flatMap_bytes_length, List.length_append, recordLanes_length, List.length_replicate]
  rfl

/-- A field at a doubleword of the record. -/
theorem record_field {i n w : Nat} (hi : (recordWords s g q m)[i]? = some w) (hn : n ≤ 8) :
    valueOf (((recordBytes s g q m).drop (8 * i)).take n) = w % 256 ^ n := by
  rw [recordBytes_eq]; exact field_value w hi hn

theorem record_code (hc : q.info.code < 256) : valueOf ((recordBytes s g q m).take 1) = q.info.code := by
  have h := record_field s g q m (i := 0) (n := 1) (w := recordHead s g q) rfl (by decide)
  rw [Nat.mul_zero, List.drop_zero] at h
  rw [h, recordHead]
  split <;> omega

theorem second_byte (w : Nat) (l : List Byte) : ((bytesOf 8 w ++ l).drop 1).take 1 = bytesOf 1 (w / 256) := rfl

theorem record_busy (hc : q.info.code < 256) : valueOf (((recordBytes s g q m).drop 1).take 1) = 1 := by
  have hhead : recordHead s g q / 256 % 256 ^ 1 = 1 := by
    rw [recordHead]; split <;> omega
  rw [recordBytes_eq, recordWords, List.flatMap_cons, List.append_assoc, second_byte, valueOf_bytesOf, hhead]

theorem record_zeros : ∀ b ∈ (recordBytes s g q m).drop 0xE0, b = 0 := by
  have hlen : ((recordWords s g q m).flatMap (bytesOf 8) ++ recordLanes s g).length = 0xE0 := by
    rw [List.length_append, flatMap_bytes_length, recordLanes_length]; rfl
  rw [recordBytes_eq, ← List.append_assoc, List.drop_append_of_le_length hlen.ge, List.drop_of_length_le hlen.le, List.nil_append]
  exact fun b hb => List.eq_of_mem_replicate hb

theorem recordResume_eq : recordResume q = (if q.info.code = 25 ∨ q.info.code = 26 then (q.pc + BitVec.ofNat 64 q.len).toNat
      else if q.info.code ∈ [18, 21, 22, 24] then 0 else q.pc.toNat) := by
  have hno : noResume q.info.code = true ↔ q.info.code ∈ [18, 21, 22, 24] := by
    rw [noResume, decide_eq_true_iff]
    simp [cPROT, cPREEMPT, cRESTCAP, cFRAMEERR]
  have hnext : resumesNext q.info.code = true ↔ q.info.code = 25 ∨ q.info.code = 26 := by
    rw [resumesNext, decide_eq_true_iff]
    exact Iff.rfl
  unfold recordResume
  by_cases h : q.info.code = 25 ∨ q.info.code = 26
  · have hn : ¬ noResume q.info.code = true := by
      rw [hno, List.mem_cons, List.mem_cons, List.mem_cons, List.mem_cons]
      simp only [List.not_mem_nil, or_false]
      omega
    rw [if_neg hn, if_pos (hnext.2 h), if_pos h]
  · rw [if_neg (mt hnext.1 h), if_neg h]
    simp only [hno]

theorem recordResume_lt : recordResume q < 256 ^ 8 := by
  unfold recordResume
  split
  · exact Nat.pos_of_ne_zero (by decide)
  · split <;> exact BitVec.isLt _

end Record

/-! Sending a record. -/

variable {f : Form} {s : State} {iss : Issue} {r : Ready} {th : Thread}

theorem laneMask_one (ht : s.threads[r.tid]? = some th) : laneMask s [r.tid] = BitVec.ofNat 32 (2 ^ th.lane) := by
  simp only [laneMask, List.foldl_cons, List.foldl_nil, ht, Option.map_some, Option.getD_some, BitVec.zero_or]

/-- The stores of a trap's record, as an access of its thread. -/
def recordAccess (s : State) (g : Nat) (q : TrapReq) (m : BitVec 32) (stop : Bool) (ps : List (Nat × Nat)) (x : Xlat)
    (keys : List (Nat × Nat)) : Access :=
  { id := s.nextId, tid := q.tid, owners := [q.tid], ctx := ctxOf s q.tid, die := (coreOf s q.tid).1, site := (coreOf s q.tid).2
    issue := s.issueNo, kind := .record q.info.code stop, place := .phys ps, size := 256, va := recordAddr s g, keys := keys
    ms := x.ms, lbc := false, writeBack := false, bytes := recordBytes s g q m, cmp := BitVec.ofNat 64 q.info.addr, dest := .none
    ctr := .none, node := none, wholes := pieceWholes ps, copies := [], peeked := [] }

theorem sendRecord_ok {g : Nat} {q : TrapReq} {stop : Bool} {ps : List (Nat × Nat)} {x : Xlat} {keys : List (Nat × Nat)}
    (hc : storeChecks s (ctxOf s q.tid) (some q.tid) (recordAddr s g) 256 = .ok ps x keys) :
    sendRecord s g q [q.tid] stop = .sent { s with
      accs := s.accs ++ [recordAccess s g q (laneMask s [q.tid]) stop ps x keys], nextId := s.nextId + 1 } s.nextId := by
  simp only [sendRecord, recordBytes_length, hc]
  rfl

/-- A trap that is vectored: its record's stores are outstanding, the record is busy, and the thread stands at its handler. -/
theorem takeRecord_vectors {g : Nat} {q : TrapReq} {k : Context} {ps : List (Nat × Nat)} {x : Xlat} {keys : List (Nat × Nat)}
    (hk : s.contexts[ctxOf s q.tid]? = some k) (hq : q.info.code ≠ cPROT)
    (hc : storeChecks s (ctxOf s q.tid) (some q.tid) (recordAddr s g) 256 = .ok ps x keys) :
    takeRecord s g q [q.tid] = { s with
      accs := s.accs ++ [recordAccess s g q (laneMask s [q.tid]) false ps x keys]
      nextId := s.nextId + 1
      groups := s.groups.modify g fun y => { y with record := some ⟨q.info.code, laneMask s [q.tid], recordAddr s g⟩ }
      threads := s.threads.modify q.tid (inHandler k.trapvec q.info.code s.nextId) } := by
  simp only [takeRecord, hq, decide_false, sendRecord_ok hc, Bool.false_eq_true, if_false, hk, Option.map_some, Option.getD_some]
  rfl

/-- `TRAP` and `BKPT` enter their handler. -/
theorem trap_enters {mk : Form → Instr} {opc : BitVec 8} {code : Nat} (hmk : mk = .trap ∧ opc = 0x0A ∧ code = 26 ∨ mk = .bkpt ∧ opc = 0x0B ∧ code = 25)
    {gr : Group} {k : Context} {ps : List (Nat × Nat)} {x : Xlat} {keys : List (Nat × Nat)} (h : Single s iss opc f r)
    (ht : s.threads[r.tid]? = some th) (hh : th.handler = none) (hg : s.groups[th.group]? = some gr) (hr : gr.record = none)
    (hk : s.contexts[ctxOf s r.tid]? = some k) (hb : k.bringUp = false) (hs : k.stopped = false)
    (hc : storeChecks (idle s) (ctxOf s r.tid) (some r.tid) (recordAddr s th.group) 256 = .ok ps x keys) :
    exec (mk f) s = .next { idle s with
      accs := s.accs ++ [recordAccess (idle s) th.group (trapReq iss opc f r.tid ⟨code, 0, countOf r.a, 0⟩)
        (BitVec.ofNat 32 (2 ^ th.lane)) false ps x keys]
      nextId := s.nextId + 1
      groups := s.groups.modify th.group fun y => { y with record := some ⟨code, BitVec.ofNat 32 (2 ^ th.lane), recordAddr s th.group⟩ }
      threads := s.threads.modify r.tid (inHandler k.trapvec code s.nextId) } := by
  have hexec : exec (mk f) s = .next (trapped (idle s) iss opc f r.tid ⟨code, 0, countOf r.a, 0⟩) := by
    rcases hmk with ⟨rfl, rfl, rfl⟩ | ⟨rfl, rfl, rfl⟩
    · exact runLanes_traps (body := fun _ _ _ r => .trap ⟨cTRAP, 0, natLow 32 r.a, 0⟩) h rfl
    · exact runLanes_traps (body := fun _ _ _ r => .trap ⟨cBKPT, 0, natLow 32 r.a, 0⟩) h rfl
  have hcode : code = 25 ∨ code = 26 := by rcases hmk with ⟨-, -, rfl⟩ | ⟨-, -, rfl⟩ <;> decide
  have hrec : ((idle s).groups[th.group]?).bind (·.record) = none := by
    change (s.groups[th.group]?).bind (·.record) = none
    rw [hg]; exact hr
  rw [hexec, trapped_record (s := idle s) ht hk hb hs (by simp only [cPAGEF, cSPILL, cFILL]; omega) (.inr ⟨hh, hrec⟩)]
  refine congrArg _ ((takeRecord_vectors (s := idle s) (q := trapReq iss opc f r.tid ⟨code, 0, countOf r.a, 0⟩) hk ?_ hc).trans ?_)
  · change code ≠ 18; omega
  · have hm : laneMask (idle s) [r.tid] = BitVec.ofNat 32 (2 ^ th.lane) := laneMask_one (s := idle s) ht
    rw [show (trapReq iss opc f r.tid ⟨code, 0, countOf r.a, 0⟩).tid = r.tid from rfl, hm]
    rfl

/-! `RTT` (R206). -/

theorem group_of (ht : s.threads[r.tid]? = some th) {gr : Group} (hg : s.groups[th.group]? = some gr) : groupOf s r.tid = some gr := by
  rw [groupOf, ht]; exact hg

theorem rttLane_unnamed {gr : Group} (ht : s.threads[r.tid]? = some th) (hg : s.groups[th.group]? = some gr)
    (hb : ∀ b, gr.record = some b → b.mask.getLsbD th.lane = false) : rttLane f (idle s) r = .trap ⟨2, 0, 0, 0⟩ := by
  have ht' : (idle s).threads[r.tid]? = some th := ht
  have hg' : groupOf (idle s) r.tid = some gr := group_of ht hg
  simp only [rttLane, hg', ht', Option.bind_some]
  cases hr : gr.record with
  | none => rfl
  | some b => exact if_pos (hb b hr)

theorem rttLane_returns {gr : Group} {b : BusyRecord} {s0 : State} {bs : List Byte} (ht : s.threads[r.tid]? = some th)
    (hg : s.groups[th.group]? = some gr) (hr : gr.record = some b) (hm : b.mask.getLsbD th.lane = true) (ha : hasAccess s r.tid = false)
    (hl : ownLoad (idle s) r.tid b.addr 256 false = .ok (s0, bs)) :
    rttLane f (idle s) r = .ok (leaveRecord (modThread (rewind s0 r.tid (valueOf ((bs.drop (0x60 + 2 * th.lane)).take 2) % 4096)
      (valueOf ((bs.drop (0xA0 + 2 * th.lane)).take 2) % 4096)) r.tid fun y => { y with handler := none }) r.tid)
      { next := .jump (if f.mod.getLsbD 0 = true then
          BitVec.ofNat 64 (valueOf ((bs.drop 8).take 8) + lengthOf (valueOf ((bs.drop 0x40).take 8)))
        else BitVec.ofNat 64 (valueOf ((bs.drop 0x10).take 8))) } := by
  have ht' : (idle s).threads[r.tid]? = some th := ht
  have hg' : groupOf (idle s) r.tid = some gr := group_of ht hg
  have hm' : ¬ b.mask.getLsbD th.lane = false := by rw [hm]; decide
  have ha' : ¬ hasAccess (idle s) r.tid = true := by rw [Bool.not_eq_true]; exact ha
  simp only [rttLane, hg', ht', Option.bind_some, hr, if_neg hm', if_neg ha', hl, Moves.bitsOfBytes_eq_valueOf]

/-! The first checks of an access (R139). -/

theorem locate_align {t space ea n a : Nat} (ha : ea % a ≠ 0) : locate s t space ea n a needR [] = .trap ⟨9, ea, 0, 0⟩ := if_pos ha

section Checks

variable {t ea n a : Nat} (ha : ea % a = 0)
include ha

theorem locate_private (hl : min (launchOf s t).privlim (((contextOf s t).map fun k => k.privlim.toNat).getD 0) < ea + n) :
    locate s t 3 ea n a needR [] =
      .trap ⟨8, ea, 0, min (launchOf s t).privlim (((contextOf s t).map fun k => k.privlim.toNat).getD 0)⟩ := by
  rw [locate, if_neg (not_not_intro ha), if_pos rfl]
  exact if_pos hl

theorem locate_scratchpad (hl : (launchOf s t).spad < ea + n) : locate s t 1 ea n a needR [] = .trap ⟨18, ea, 0, 0⟩ := by
  rw [locate, if_neg (not_not_intro ha), if_neg (by decide), if_pos rfl]
  exact if_pos hl

theorem locate_cluster (hl : 2 ^ 24 ≤ ea ∨ siblingTeam s t (ea / 2 ^ 20) = none) :
    locate s t 2 ea n a needR [] = .trap ⟨18, ea, 0, 0⟩ := by
  rw [locate, if_neg (not_not_intro ha), if_neg (by decide), if_neg (by decide), if_pos rfl]
  by_cases hbig : 2 ^ 24 ≤ ea
  · rw [if_pos hbig]; rfl
  · rw [if_neg hbig, hl.resolve_left hbig]; rfl

theorem locate_global (hl : 2 ^ 57 ≤ ea) : locate s t 0 ea n a needR [] = .trap ⟨18, ea, 0, 0⟩ := by
  rw [locate, if_neg (not_not_intro ha), if_neg (by decide), if_neg (by decide), if_neg (by decide), if_pos (.inl hl)]
  rfl

end Checks

/-- A load whose checks find a trap takes it. -/
theorem ld_traps {i : TrapInfo} (h : Single s iss 0x90 f r) (hu : unfull s r.tid .ld)
    (hl : locate (idle s) r.tid (f.mod.extractLsb' 3 2).toNat
      (byteAddress r.a r.b (if f.mod.getLsbD 5 then accessBytes (f.mod.extractLsb' 0 3) else 1))
      (accessBytes (f.mod.extractLsb' 0 3)) (accessBytes (f.mod.extractLsb' 0 3)) needR [] = .trap i) :
    exec (.ld f) s = .next (trapped (idle s) iss 0x90 f r.tid i) := by
  rw [Issuing.load_out (mk := .ld) (.inl ⟨rfl, rfl⟩) h, Issuing.loadLane_free hu, hl]
  rfl

theorem record_performed {a : Access} {code : Nat} (ha : readyAccess s a.id = some a) (hk : a.kind = .record code false) :
    exec (.accessAcknowledge a.id) s = .next (performRecord s a code false) := by
  change Host.Outcome.next (acknowledge s a.id) = _
  rw [acknowledge, ha]
  simp only [hk, acknowledges, returnsData, performAccess]
  rfl

theorem recordAddr_eq {g : Nat} {gr : Group} {tm : Team} {gd : Grid} {k : Context} (hg : s.groups[g]? = some gr)
    (ht : s.teams[gr.team]? = some tm) (hd : s.grids[tm.grid]? = some gd) (hk : s.contexts[gd.ctx]? = some k) :
    recordAddr s g = k.traprec.toNat / 256 * 256 + 256 * (((tm.die * 48 + tm.site) * 6 + gr.part) * 48 + gr.slot) := by
  simp only [recordAddr, hg, ht, hd, hk, Option.map_some, Option.getD_some]

/-- Settles O52: the record's stores, its bytes, the return, and the checks of a load in their order. -/
theorem trapEntry : Obligations.TrapEntry := by
  refine ⟨?_, ?_, ?_, ?_, ?_, ?_, ?_⟩
  · intro mk opc code hmk f s iss r th gr k ps x keys h ht hh hg hr hk hb hs hc a
    exact trap_enters hmk h ht hh hg hr hk hb hs hc
  · intro s a code ha hk w t
    exact record_performed ha hk
  · intro s g gr tm gd k hg ht hd hk
    exact recordAddr_eq hg ht hd hk
  · intro s g q m bs
    refine ⟨recordBytes_length s g q m, fun hc => ⟨record_code s g q m hc, record_busy s g q m hc⟩, ?_, ?_, ?_, ?_, ?_, ?_, ?_, ?_,
      record_zeros s g q m⟩
    · exact (record_field s g q m (i := 1) rfl (Nat.le_refl 8)).trans (Nat.mod_eq_of_lt q.pc.isLt)
    · rw [← recordResume_eq]
      exact (record_field s g q m (i := 2) rfl (Nat.le_refl 8)).trans (Nat.mod_eq_of_lt (recordResume_lt q))
    · refine (record_field s g q m (i := 3) (n := 4) rfl (by decide)).trans ?_
      have := m.isLt
      omega
    · exact record_field s g q m (i := 4) rfl (Nat.le_refl 8)
    · exact record_field s g q m (i := 5) rfl (Nat.le_refl 8)
    · exact record_field s g q m (i := 6) rfl (Nat.le_refl 8)
    · exact (record_field s g q m (i := 8) rfl (Nat.le_refl 8)).trans (Nat.mod_eq_of_lt q.word0.isLt)
    · exact (record_field s g q m (i := 9) rfl (Nat.le_refl 8)).trans (Nat.mod_eq_of_lt q.word1.isLt)
  · intro f s iss r th gr h ht hg hb
    exact runLanes_traps (body := fun _ _ s r => rttLane f s r) h (rttLane_unnamed ht hg hb)
  · intro f s iss r th gr b s0 bs h ht hg hr hm ha hl back s1 s2 hsome
    exact runLanes_leaves (body := fun _ _ s r => rttLane f s r) h (rttLane_returns ht hg hr hm ha hl) hsome
  · intro f s iss r h hu n ea space limit
    refine ⟨fun ha => ?_, fun ha hsp hl => ?_, fun ha hsp hl => ?_, fun ha hsp hl => ?_, fun ha hsp hl => ?_⟩
    · exact ld_traps h hu (locate_align ha)
    all_goals
      refine ld_traps h hu ?_
      change locate (idle s) r.tid space ea n n needR [] = _
      rw [hsp]
    · exact locate_private (s := idle s) ha hl
    · exact locate_scratchpad (s := idle s) ha hl
    · exact locate_cluster (s := idle s) ha hl
    · exact locate_global (s := idle s) ha hl

end Sys2Proof.Traps

/-! SUPPORT. Statement settled: instruction fetch, promotion, loop buffers and the tables of the grouping stage (R32 to R34, R65, R99). -/

namespace Sys2Proof.Fetching

open Sys2Proof.Machine Sys2Proof.Claims

/-! The tables take threads in. -/

/-- A core whose tables alone have changed. -/
def TableFrame (c c' : Core) : Prop := ∃ pcs rest, c' = { c with pcs := pcs, overflow := rest }

theorem TableFrame.refl (c : Core) : TableFrame c c := ⟨c.pcs, c.overflow, rfl⟩

theorem TableFrame.trans {a b c : Core} (h1 : TableFrame a b) (h2 : TableFrame b c) : TableFrame a c := by
  obtain ⟨p, q, rfl⟩ := h1
  obtain ⟨p', q', rfl⟩ := h2
  exact ⟨p', q', rfl⟩

theorem foldl_tables {α : Type} {g : Core → α → Core} (hg : ∀ c x, TableFrame c (g c x)) :
    ∀ (l : List α) (c : Core), TableFrame c (l.foldl g c) := by
  intro l
  induction l with
  | nil => exact TableFrame.refl
  | cons x l ih => exact fun c => (hg c x).trans (ih (g c x))

theorem joinTable_frame (c : Core) (a : Seen) : TableFrame c (joinTable c a) := by
  unfold joinTable
  split
  · exact TableFrame.refl c
  · split
    · exact ⟨_, c.overflow, rfl⟩
    · split
      · exact ⟨_, c.overflow, rfl⟩
      · exact ⟨c.pcs, _, rfl⟩

theorem fromOverflow_frame (rs : List Seen) (c : Core) (a : Seen) : TableFrame c (fromOverflow rs c a) := by
  unfold fromOverflow
  split
  · exact ⟨_, _, rfl⟩
  · exact TableFrame.refl c

theorem settleTable_frame (rs : List Seen) (c : Core) : TableFrame c (settleTable rs c) := by
  have hleave : TableFrame c (leaveTable (rs.filter fun a => a.die = c.die && a.site = c.site) c) := ⟨_, _, rfl⟩
  exact (hleave.trans (foldl_tables (fromOverflow_frame _) _ _)).trans (foldl_tables joinTable_frame _ _)

theorem coreAt_settling (d c d' c' : Nat) (s : State) : coreAt (modCore s d c fun k => k) d' c' = coreAt s d' c' := by
  by_cases h : d' = d ∧ c' = c
  · rw [h.1, h.2]; exact coreAt_modCore s d c _ fun _ => ⟨rfl, rfl⟩
  · exact coreAt_modCore_ne (fun _ => ⟨rfl, rfl⟩) h

theorem coreAt_settled (d c : Nat) : ∀ (l : List Seen) (s : State),
    coreAt (l.foldl (fun s a => modCore s a.die a.site fun k => k) s) d c = coreAt s d c := by
  intro l
  induction l with
  | nil => exact fun _ => rfl
  | cons a l ih => exact fun s => (ih _).trans (coreAt_settling a.die a.site d c s)

/-- A core of a package whose cores' tables have changed. -/
theorem coreAt_map_tables {s : State} {g : Core → Core} (hg : ∀ k, TableFrame k (g k)) (d c : Nat) :
    TableFrame (coreAt s d c) (coreAt { s with cores := s.cores.map g } d c) := by
  have hplace : ∀ k, (decide ((g k).die = d ∧ (g k).site = c)) = decide (k.die = d ∧ k.site = c) := by
    intro k
    obtain ⟨p, q, h⟩ := hg k
    rw [h]
  simp only [coreAt, List.find?_map, Function.comp_def, hplace]
  cases s.cores.find? fun k => decide (k.die = d ∧ k.site = c) with
  | none => exact TableFrame.refl _
  | some k => exact hg k

theorem settleReady_tables (s : State) (d c : Nat) : TableFrame (coreAt s d c) (coreAt (settleReady s) d c) := by
  rw [← coreAt_settled d c (readySeen s) s]
  exact coreAt_map_tables (settleTable_frame (readySeen s)) d c

/-! Fetch and promotion. -/

variable {s : State} {t : Nat} {th : Thread}

/-- The threads of a partition that wait for a block. -/
theorem fetch_waits (s : State) (die site part block : Nat) :
    ((fetchWaiters s).filter fun a => decide ((a.die, a.site, a.part) = (die, site, part) ∧ a.pc.toNat / 32 = block)) =
      (seenThreads s).filter fun x => decide ((x.die, x.site, x.part) = (die, site, part)) && x.bytes.isNone && !x.start
        && decide (x.pc.toNat / 32 = block) := by
  simp only [fetchWaiters, List.filter_filter]
  congr 1
  funext x
  rw [Bool.decide_and]
  cases decide ((x.die, x.site, x.part) = (die, site, part)) <;> cases x.bytes.isNone <;> cases x.start <;>
    cases decide (x.pc.toNat / 32 = block) <;> rfl

section Block

variable {die site part block : Nat} {a : Seen} {waits : List Seen}
  (hw : waits = (seenThreads s).filter fun x => decide ((x.die, x.site, x.part) = (die, site, part)) && x.bytes.isNone && !x.start
    && decide (x.pc.toNat / 32 = block)) (ha : oldestSeen waits = some a)
include hw ha

theorem fetchBlock_found {b : CodeBlock} (hb : codeBlock s die site (ctxOf s a.tid) (block * 32) = some b) :
    fetchBlock s die site part block =
      modCore (cacheRange s (ctxOf s a.tid) (block * 32) 32) die site fun c => { c with code := b :: c.code } := by
  simp only [fetchBlock, fetch_waits, ← hw, ha, hb]

theorem fetchBlock_missing (hb : codeBlock s die site (ctxOf s a.tid) (block * 32) = none) {i : TrapInfo}
    (hi : translate s (ctxOf s a.tid) (block * 32) = .pagef ∧ i = ⟨17, block * 32, 4, 0⟩ ∨
      translate s (ctxOf s a.tid) (block * 32) ≠ .pagef ∧ i = ⟨18, block * 32, 0, 0⟩) :
    fetchBlock s die site part block = takeTraps s ((candidate waits a).lanes.map fun p =>
        ⟨p.2, i, a.pc, 0, 0, 0, (candidate waits a).lanes.map (·.2)⟩) := by
  simp only [fetchBlock, fetch_waits, ← hw, ha, hb]
  rcases hi with ⟨ht, rfl⟩ | ⟨ht, rfl⟩
  · rw [ht]; rfl
  · cases hx : translate s (ctxOf s a.tid) (block * 32) with
    | pagef => exact absurd hx ht
    | ok x => rfl
    | prot => rfl

end Block

theorem promote_old {d c : Nat} (ht : s.threads[t]? = some th) (hp : th.promoted = false) (ha : th.age + 2048 ≤ s.clk)
    (hc : coreOf s t = (d, c))
    (hin : (∃ e ∈ (coreAt s d c).pcs, t ∈ e.threads) ∨ (∃ p ∈ (coreAt s d c).overflow, p.2 = t)) :
    promote s t = modThread s t fun th => { th with promoted := true } := by
  have htable : (inTable (coreAt s d c) t || inOverflow (coreAt s d c) t) = true := by
    rw [Bool.or_eq_true, inTable, inOverflow, List.any_eq_true, List.any_eq_true]
    simpa using hin
  have hpr : promotable s t th = true := by
    simp only [promotable, hc, hp, decide_eq_true ha, htable, Bool.not_false, Bool.and_self]
  rw [promote, ht]
  exact if_pos hpr

theorem promote_young (ht : s.threads[t]? = some th) (ha : s.clk < th.age + 2048) : promote s t = s := by
  have hpr : ¬ promotable s t th = true := by
    simp only [promotable, decide_eq_false (Nat.not_le.2 ha), Bool.and_false, Bool.false_and, Bool.false_eq_true, not_false_eq_true]
  rw [promote, ht]
  exact if_neg hpr

/-- Settles O33: the fetch's outcome by its page, and the tables' frame. -/
theorem fetchEvents : Obligations.FetchEvents := by
  refine ⟨?_, ?_, ?_, ?_, ?_⟩
  · intro s die site part block a waits ha
    refine ⟨fun b hb => congrArg _ (fetchBlock_found rfl ha hb), fun hb ht => congrArg _ (fetchBlock_missing rfl ha hb (.inl ⟨ht, rfl⟩)),
      fun hb ht => congrArg _ (fetchBlock_missing rfl ha hb (.inr ⟨ht, rfl⟩))⟩
  · intro s t th d c ht hp ha hc hin
    exact congrArg _ (promote_old ht hp ha hc hin)
  · intro s t th ht ha
    exact congrArg _ (promote_young ht ha)
  · intro s die site part t age grid a b s1 v hl ht
    change Host.Outcome.next (grantLoop s die site part) = _
    simp only [grantLoop, hl, ht, modCore_clk]
    rfl
  · intro s
    obtain ⟨cs, f, hs, hf⟩ := Laws.settleReady_frame s
    refine ⟨cs, s.threads.mapIdx f, hs, List.length_mapIdx, fun t th ht => ?_, fun d c => ?_⟩
    · rw [List.getElem?_mapIdx, ht, Option.map_some]
      exact (hf t th).imp (congrArg some) (congrArg some)
    · obtain ⟨p, q, h⟩ := settleReady_tables s d c
      exact ⟨p, q, h⟩

end Sys2Proof.Fetching

/-! SUPPORT. Statements settled: what a die answers, and what the home does with requests and replies (R296 to R302, R310 to R313). -/

namespace Sys2Proof.DieProtocol

open Sys2Proof.Machine Sys2Proof.Claims

variable {s : State} {die sec : Nat} {x : L2Sector}

/-! The die. -/

/-- A sector that no L1 of a die owns has nothing to yield. -/
theorem collapseL1_unowned (h : unowned s die sec) : collapseL1 s die sec = s := by
  have hnone : s.cores.find? (fun c => c.die = die ∧ c.l1.any fun x => x.sec = sec ∧ x.own) = none := by
    rw [List.find?_eq_none]
    intro c hc hp
    simp only [decide_eq_true_eq, List.any_eq_true] at hp
    obtain ⟨hd, y, hy, hsec, hown⟩ := hp
    rw [h c hc hd y hy hsec] at hown
    exact Bool.false_ne_true hown
  rw [collapseL1, hnone]

theorem dieSector_unowned (h : unowned s die sec) : dieSector s die sec = (s, l2At s die sec) := by
  rw [dieSector, collapseL1_unowned h]

theorem dieInv_none (h : unowned s die sec) (hn : l2At s die sec = none) :
    dieInv s die sec = send s [.ack ⟨sec, die, none, [], [], 0, 0, 0, false, false, none⟩] := by
  simp only [dieInv, dieSector_unowned h, hn]
  rfl

theorem dieFwd_some {dest : Nat} (h : unowned s die sec) (hx : l2At s die sec = some x) (inval : Bool) :
    dieFwd s die dest sec inval = send (if inval then l2Del s die sec
        else l2Mod s die { x with st := if decide (x.st = .m ∨ x.st = .o) then .o else .s })
      [.data ⟨sec, dest, some x.bytes, [], [], 0, x.wts, x.rts, false, false, none⟩,
        .ack ⟨sec, die, none, [], [], 0, x.wts, x.rts, decide (x.st = .m ∨ x.st = .o), true, none⟩] := by
  simp only [dieFwd, dieSector_unowned h, hx]
  rfl

theorem diePrecall_pooled (hx : l2At s die sec = some x) (hp : x.st = .p) : diePrecall s die sec = send (l2Del s die sec)
    [.ack ⟨sec, die, none, x.partials, x.touched, x.tag, x.wts, x.rts, false, false, x.ctx⟩] := by
  simp only [diePrecall, hx, hp, if_true]
  rfl

theorem diePrecall_other (h : ∀ x, l2At s die sec = some x → x.st ≠ .p) :
    diePrecall s die sec = send s [.ack ⟨sec, die, none, [], [], 0, 0, 0, false, false, none⟩] := by
  cases hx : l2At s die sec with
  | none => simp only [diePrecall, hx]; rfl
  | some y => simp only [diePrecall, hx, if_neg (h y hx)]; rfl

theorem diePeek_some (h : unowned s die sec) (hx : l2At s die sec = some x) : diePeek s die sec =
    send s [.ack ⟨sec, die, some x.bytes, [], [], 0, x.wts, x.rts, false, false, none⟩] := by
  simp only [diePeek, dieSector_unowned h, hx]
  rfl

/-- A sector of a line that the L2 holds is put in place. -/
theorem l2Install_held {d : Die} (hd : s.dies[die]? = some d) (hy : ∃ y ∈ d.l2, y.sec / 4 = x.sec / 4) :
    l2Install s die x = modDie s die fun d => { d with l2 := x :: d.l2.filter fun y => y.sec ≠ x.sec } := by
  have hline : (d.l2.any fun y => y.sec / 4 = x.sec / 4) = true := by
    rw [List.any_eq_true]
    obtain ⟨y, hy, he⟩ := hy
    exact ⟨y, hy, decide_eq_true he⟩
  have hroom : l2Room s die (x.sec / 4) = s := by
    rw [l2Room, hd]; exact if_pos hline
  have hfits : l2Fits s die (x.sec / 4) = true := by
    rw [l2Fits, hd, Option.any_some, hline, Bool.true_or]
  simp only [l2Install, hroom, hfits, if_true]

theorem dieData_held {m : SectorMsg} {b : Sector} {d : Die} (hb : m.bytes = some b) (hd : s.dies[m.die]? = some d)
    (hy : ∃ y ∈ d.l2, y.sec / 4 = m.sec / 4) : dieData s m = modDie s m.die fun d => { d with
      l2 := ⟨m.sec, if m.own then (if m.dirty then .m else .e) else .s, b, m.wts, m.rts, 0, [], [], s.clk, false, m.ctx⟩
        :: d.l2.filter fun y => y.sec ≠ m.sec } := by
  simp only [dieData, hb]
  exact l2Install_held (x := ⟨m.sec, _, b, m.wts, m.rts, 0, [], [], s.clk, false, m.ctx⟩) hd hy

theorem dieGrant_owner {m : SectorMsg} (ht : m.tag = 0) (hx : l2At s m.die m.sec = some x) :
    dieGrant s m = l2Mod s m.die { x with st := .m, wts := max x.wts m.wts, rts := max x.rts m.rts, used := s.clk } := by
  simp only [dieGrant, ht, ne_eq, not_true_eq_false, if_false, hx]

/-- The empty partial with which a die takes its place in P. -/
def emptyPartial (s : State) (m : SectorMsg) : L2Sector :=
  ⟨m.sec, .p, 0, m.wts, m.rts, m.tag, List.replicate (tyElems (tagTy m.tag) * tyHalves (tagTy m.tag)) none,
    List.replicate (tyElems (tagTy m.tag)) false, s.clk, false, none⟩

theorem dieGrant_pooled {m : SectorMsg} {d : Die} (ht : m.tag ≠ 0) (hd : s.dies[m.die]? = some d) (hx : l2At s m.die m.sec = none)
    (hy : ∃ y ∈ d.l2, y.sec / 4 = m.sec / 4) :
    dieGrant s m = modDie s m.die fun d => { d with l2 := emptyPartial s m :: d.l2.filter fun y => y.sec ≠ m.sec } := by
  simp only [dieGrant, ht, ne_eq, not_false_eq_true, if_true, hx]
  exact l2Install_held (x := emptyPartial s m) hd hy

/-- Settles O35: each message's answer, by the copy that the die holds. -/
theorem dieMessages : Obligations.DieMessages := by
  refine ⟨?_, ?_, ?_, ?_, ?_, ?_, ?_⟩
  · intro s die sec h
    refine ⟨fun x hx => ?_, fun hn => congrArg _ (dieInv_none h hn)⟩
    change Host.Outcome.next (dieInv s die sec) = _
    simp only [dieInv, dieSector_unowned h, hx]
    cases x.st <;> rfl
  · intro s owner dest sec x h hx dirty answers
    exact ⟨congrArg _ (dieFwd_some h hx true), congrArg _ (dieFwd_some h hx false)⟩
  · intro s die sec
    exact ⟨fun x hx hp => congrArg _ (diePrecall_pooled hx hp), fun h => congrArg _ (diePrecall_other h)⟩
  · intro s owner sec acc x h hx
    exact congrArg _ (diePeek_some h hx)
  · intro s m x d hb hd hy
    exact congrArg _ (dieData_held hb hd hy)
  · intro s m ht x hx
    exact congrArg _ (dieGrant_owner ht hx)
  · intro s m d ht hd hx hy
    exact ⟨emptyPartial s m, congrArg _ (dieGrant_pooled ht hd hx hy), rfl, rfl, rfl, fun v hv => List.eq_of_mem_replicate hv,
      fun b hb => List.eq_of_mem_replicate hb⟩

/-! Requests at the home. -/

section Requests

variable {h : Home} {req : HomeReq}

theorem homeRequest_busy {b : Busy} (hb : busyOf s sec = some b) :
    homeRequest s sec req = busyPut s sec (some { b with queue := b.queue ++ [req] }) := by
  simp only [homeRequest, hb]

section Free

variable (hh : s.homes[homeOf (sec * 64)]? = some h)
include hh

theorem dirVictim_room (he : ∃ e ∈ h.dir, e.line = sec / 4) : dirVictim s sec = .room := by
  obtain ⟨e, hmem, hline⟩ := he
  have hany : (h.dir.any fun e => e.line = sec / 4) = true := List.any_eq_true.2 ⟨e, hmem, decide_eq_true hline⟩
  simp only [dirVictim, hh]
  exact if_pos (.inl hany)

theorem firstWaiting_none (hw : h.dirWait = []) : firstWaiting s sec = none := by
  rw [firstWaiting, hh, Option.bind_some, hw]; rfl

variable (hb : busyOf s sec = none) (hw : h.dirWait = [])
include hb hw

/-- Where every entry of the directory set has a busy sector, the request waits. -/
theorem homeRequest_full (hf : dirVictim s sec = .full) : homeRequest s sec req = dirHold s sec [req] := by
  have hroom : dirRoom s sec = none := by rw [dirRoom, hf]
  simp only [homeRequest, hb, firstWaiting_none hh hw, hroom]

/-- A request for a sector of a line with an entry is served. -/
theorem homeRequest_served (he : ∃ e ∈ h.dir, e.line = sec / 4) : homeRequest s sec req = homeServe s sec req [] := by
  have hroom : dirRoom s sec = some s := by rw [dirRoom, dirVictim_room hh he]
  simp only [homeRequest, hb, firstWaiting_none hh hw, hroom]

end Free

/-- A sector is busy no more. -/
def released (s : State) (sec : Nat) : State := busyPut s sec none

/-- What a home answers `RdS` with, by the directory's state. -/
theorem serve_rds (hv : dirVictim s sec = .room) : homeServe s sec ⟨0, die, 0⟩ [] =
    let t := dirTouch s sec
    let d := dirSec t sec
    let hs := holdersOf d.holders
    if d.st = 5 then awaitAcks t sec ⟨0, die, 0⟩ hs false (hs.map fun x => .precall x sec) []
    else if d.st = 0 then
      if monitored t sec then released (dirPut (dataFrom t sec die false false) sec (dirOf 1 [die] 0)) sec
      else released (dirPut (dataFrom t sec die false true) sec (dirOf 2 [die] die)) sec
    else if d.st = 1 then released (dirPut (dataFrom t sec die false false) sec (dirOf 1 (die :: hs.filter fun x => x ≠ die) 0)) sec
    else awaitAcks t sec ⟨0, die, 0⟩ [(d.aux.extractLsb' 0 2).toNat] true [.fwd (d.aux.extractLsb' 0 2).toNat die sec false] [] := by
  simp only [homeServe, hv]
  rfl

/-- What it answers `RdX` with where no die owns the sector. -/
theorem serve_rdx (hv : dirVictim s sec = .room) (h5 : (dirSec (dirTouch s sec) sec).st ≠ 5) : homeServe s sec ⟨1, die, 0⟩ [] =
    let t := dirTouch s sec
    let d := dirSec t sec
    let hs := holdersOf d.holders
    let owner := (d.aux.extractLsb' 0 2).toNat
    let u := wakeMonitors t sec
    if d.st = 0 then released (dirPut (dataFrom u sec die true true) sec (dirOf 3 [die] die)) sec
    else if d.st = 1 then awaitAcks u sec ⟨1, die, 0⟩ hs false (hs.map fun x => .inv x sec) []
    else awaitAcks u sec ⟨1, die, 0⟩ (owner :: hs.filter fun x => x ≠ owner) true
      ([.fwd owner die sec true] ++ (hs.filter fun x => x ≠ owner).map fun x => .inv x sec) [] := by
  simp only [homeServe, hv, if_neg h5]
  rfl

/-- What it answers `Upg` of a sharer with. -/
theorem serve_upg (hv : dirVictim s sec = .room) (h1 : (dirSec (dirTouch s sec) sec).st = 1)
    (hm : die ∈ holdersOf (dirSec (dirTouch s sec) sec).holders) : homeServe s sec ⟨2, die, 0⟩ [] =
    let t := dirTouch s sec
    let others := (holdersOf (dirSec t sec).holders).filter fun x => x ≠ die
    let u := wakeMonitors t sec
    if others.isEmpty then released (send (dirPut u sec (dirOf 3 [die] die))
      [.grant ⟨sec, die, none, [], [], 0, (homeTimes t sec).1, (homeTimes t sec).2, false, true, none⟩]) sec
    else awaitAcks u sec ⟨2, die, 0⟩ others false (others.map fun x => .inv x sec) [] := by
  have hkind : ¬ ((!(holdersOf (dirSec (dirTouch s sec) sec).holders).contains die) = true ∨
      (dirSec (dirTouch s sec) sec).st ≠ 1 ∧ (dirSec (dirTouch s sec) sec).st ≠ 4) := by
    rw [List.contains_iff_mem.2 hm, h1]; decide
  simp only [homeServe, hv, hkind, and_false, if_false]
  simp only [h1]
  rfl

/-- What it answers `PJoin` with. -/
theorem serve_pjoin {tag : Nat} (hv : dirVictim s sec = .room) : homeServe s sec ⟨3, die, tag⟩ [] =
    let t := dirTouch s sec
    let d := dirSec t sec
    let hs := holdersOf d.holders
    let grant : Instr := .grant ⟨sec, die, none, [], [], tag, (homeTimes t sec).1, (homeTimes t sec).2, false, false, none⟩
    if monitored t sec then released t sec
    else if d.st = 5 then
      if d.aux.toNat = tag then released (send (dirPut t sec (dirOf 5 (die :: hs.filter fun x => x ≠ die) tag)) [grant]) sec
      else awaitAcks t sec ⟨3, die, tag⟩ hs false (hs.map fun x => .precall x sec) []
    else if d.st = 0 then released (send (dirPut t sec (dirOf 5 [die] tag)) [grant]) sec
    else awaitAcks t sec ⟨3, die, tag⟩ hs false (hs.map fun x => .inv x sec) [] := by
  simp only [homeServe, hv, Nat.reduceEqDiff, false_and, if_false, true_and, or_self]
  rfl

end Requests

/-- Settles O36: the request's service, by the directory's state. -/
theorem homeRequests : Obligations.HomeRequests := by
  refine ⟨?_, ?_, ?_⟩
  · intro s die sec tag b hb waits
    exact ⟨congrArg _ (homeRequest_busy hb), congrArg _ (homeRequest_busy hb), congrArg _ (homeRequest_busy hb),
      congrArg _ (homeRequest_busy hb)⟩
  · intro s die sec h hb hh hw hf
    exact congrArg _ (homeRequest_full hh hb hw hf)
  · intro s0 die sec h hb hh hw he s d hs ended waits times
    have hv := dirVictim_room hh he
    have hserve : ∀ req, homeRequest s0 sec req = homeServe s0 sec req [] := fun req => homeRequest_served hh hb hw he
    have hx : d.st ≤ 1 → d.st ≠ 5 := fun h e => by omega
    have hdone : ∀ {req t}, homeServe s0 sec req [] = t → Host.Outcome.next (homeRequest s0 sec req) = (.next t : Host.Outcome State Fault Refusal) :=
      fun {req} {t} hr => congrArg _ ((hserve req).trans hr)
    refine ⟨fun h0 hm => hdone ((serve_rds hv).trans ?_), fun h0 hm => hdone ((serve_rds hv).trans ?_),
      fun h1 => hdone ((serve_rds hv).trans ?_), fun ho => hdone ((serve_rds hv).trans ?_),
      fun h0 => hdone ((serve_rdx hv (hx (by omega))).trans (if_pos h0)),
      fun h1 => hdone ((serve_rdx hv (hx (by omega))).trans ((if_neg (show ¬ d.st = 0 by omega)).trans (if_pos h1))),
      fun h1 hm ho => hdone ((serve_upg hv h1 hm).trans (if_neg (by rwa [List.isEmpty_iff]))),
      fun h1 hm ho => hdone ((serve_upg hv h1 hm).trans (if_pos (by rwa [List.isEmpty_iff]))),
      fun tag hm => hdone ((serve_pjoin hv).trans (if_pos hm)),
      fun tag hm h0 => hdone ((serve_pjoin hv).trans ?_), fun tag hm h5 ht => hdone ((serve_pjoin hv).trans ?_),
      fun tag hm h5 ht => hdone ((serve_pjoin hv).trans ?_)⟩
    · exact (if_neg (hx (by omega))).trans ((if_pos h0).trans (if_neg (by rw [Bool.not_eq_true]; exact hm)))
    · exact (if_neg (hx (by omega))).trans ((if_pos h0).trans (if_pos hm))
    · exact (if_neg (hx (by omega))).trans ((if_neg (show ¬ d.st = 0 by omega)).trans (if_pos h1))
    · exact (if_neg (show ¬ d.st = 5 by omega)).trans ((if_neg (show ¬ d.st = 0 by omega)).trans (if_neg (show ¬ d.st = 1 by omega)))
    · exact (if_neg (by rw [Bool.not_eq_true]; exact hm)).trans ((if_neg (hx (by omega))).trans (if_pos h0))
    · exact (if_neg (by rw [Bool.not_eq_true]; exact hm)).trans ((if_pos h5).trans (if_pos ht))
    · exact (if_neg (by rw [Bool.not_eq_true]; exact hm)).trans ((if_pos h5).trans (if_neg ht))

/-! Replies at the home. -/

section Replies

variable {m : SectorMsg} {b : Busy}

/-- A busy sector's record with an acknowledgement gathered. -/
def gathered (b : Busy) (m : SectorMsg) : Busy :=
  { b with
    awaited := b.awaited.filter fun x => x ≠ m.die
    wts := max b.wts m.wts
    rts := max b.rts m.rts
    supplied := b.supplied || m.own
    dirty := b.dirty || m.dirty
    ctx := match b.ctx with | some c => some c | none => m.ctx
    partials := if m.parts = [] then b.partials else b.partials ++ [(m.die, m.parts, m.marks)] }

/-- An acknowledgement without data is gathered, and the last one ends the wait. -/
theorem homeAck_gathered (hn : m.bytes = none) (hb : busyOf s m.sec = some b) :
    homeAck s m = if (gathered b m).awaited.isEmpty then homeFinish s (gathered b m) else busyPut s m.sec (some (gathered b m)) := by
  have hpeek : (if b.req.kind = 4 then notePeek s b.req.tag m else s) = s := by
    simp only [notePeek, hn, ite_self]
  simp only [homeAck, hn, hb, hpeek, List.isEmpty_iff (l := m.parts)]
  rfl

theorem homeAck_more (hn : m.bytes = none) (hb : busyOf s m.sec = some b) (ho : ∃ x ∈ b.awaited, x ≠ m.die) :
    homeAck s m = busyPut s m.sec (some (gathered b m)) := by
  obtain ⟨x, hx, hd⟩ := ho
  have hmem : x ∈ (gathered b m).awaited := List.mem_filter.2 ⟨hx, decide_eq_true hd⟩
  rw [homeAck_gathered hn hb, if_neg]
  rw [List.isEmpty_iff]
  exact List.ne_nil_of_mem hmem

/-- The last acknowledgement of an upgrade grants it. -/
theorem homeFinish_upgrade (hk : b.req.kind = 2) (h5 : (dirSec s b.sec).st ≠ 5) (hq : b.queue = []) : homeFinish s b =
    let s1 := homeTimesMax s b.sec b.wts b.rts
    released (send (dirPut s1 b.sec (dirOf 3 [b.req.die] b.req.die))
      [.grant ⟨b.sec, b.req.die, none, [], [], 0, (homeTimes s1 b.sec).1, (homeTimes s1 b.sec).2, false, true, none⟩]) b.sec := by
  simp only [homeFinish, hk, if_neg h5, hq, Nat.reduceEqDiff, false_and, if_false, if_true]
  rfl

theorem homeAck_last (hn : m.bytes = none) (hb : busyOf s m.sec = some b) (hsec : b.sec = m.sec) (ha : ∀ x ∈ b.awaited, x = m.die)
    (hk : b.req.kind = 2) (h5 : (dirSec s m.sec).st ≠ 5) (hq : b.queue = []) : homeAck s m =
    let s1 := homeTimesMax s m.sec (max b.wts m.wts) (max b.rts m.rts)
    released (send (dirPut s1 m.sec (dirOf 3 [b.req.die] b.req.die))
      [.grant ⟨m.sec, b.req.die, none, [], [], 0, (homeTimes s1 m.sec).1, (homeTimes s1 m.sec).2, false, true, none⟩]) m.sec := by
  have hempty : (gathered b m).awaited = [] := by
    rw [gathered, List.filter_eq_nil_iff]
    intro x hx
    rw [ha x hx]
    simp
  have hfin := homeFinish_upgrade (s := s) (b := gathered b m) hk (by rw [← hsec] at h5; exact h5) hq
  rw [homeAck_gathered hn hb, hempty, List.isEmpty_nil, if_pos rfl, hfin, show (gathered b m).sec = m.sec from hsec]
  rfl

theorem homeAck_idle (hn : m.bytes = none) (hb : busyOf s m.sec = none) : homeAck s m = homeTimesMax s m.sec m.wts m.rts := by
  simp only [homeAck, hn, hb]

theorem homeWbm_owner {v : Sector} (hx : m.bytes = some v)
    (hst : (dirSec s m.sec).st = 2 ∨ (dirSec s m.sec).st = 3 ∨ (dirSec s m.sec).st = 4)
    (ho : ((dirSec s m.sec).aux.extractLsb' 0 2).toNat = m.die) :
    homeWbm s m = dirPut (writeBackSector (homeTimesMax s m.sec m.wts m.rts) m.sec v m.ctx) m.sec
      (if (dirSec s m.sec).st = 4 then dirOf 1 ((holdersOf (dirSec s m.sec).holders).filter fun y => y ≠ m.die) 0 else dirIdle) := by
  have h5 : ¬ ((dirSec s m.sec).st = 5 ∧ m.tag ≠ 0) := by omega
  simp only [homeWbm, if_neg h5, hx]
  exact if_pos ⟨hst, ho⟩

end Replies

/-- Settles O37: acknowledgements gathered or the last of them, write-backs, and drops by the directory's state. -/
theorem homeReplies : Obligations.HomeReplies := by
  refine ⟨fun s m b hn hb ho => congrArg _ (homeAck_more hn hb ho), ?_, fun s m hn hb => congrArg _ (homeAck_idle hn hb), ?_, ?_⟩
  · intro s m b hn hb hsec ha hk h5 hq s1 times
    exact congrArg _ (homeAck_last hn hb hsec ha hk h5 hq)
  · intro s m x d hx hst ho
    exact congrArg _ (homeWbm_owner hx hst ho)
  · intro s die sec d
    refine ⟨fun hst => congrArg _ (if_pos hst), fun h1 h2 => congrArg _ (if_neg ?_)⟩
    rintro (h | h)
    · exact h1 h
    · exact h2 h

end Sys2Proof.DieProtocol

/-! SUPPORT. Statement settled: accesses as they are performed (R140 to R144, R160, R161, R261, R265, R300, R308, R312). -/

namespace Sys2Proof.Performing

open Sys2Proof.Machine Sys2Proof.Claims

variable {s : State} {a b : Access} {rest : List Access} {th : Thread}

/-! Order. -/

/-- An event of the package order is one of the model's ordered kinds. -/
theorem orderedKind_event (h : anEvent a) : orderedKind a = true := by
  obtain ⟨hload, hmatz, halq, hflush, hplace⟩ := h
  unfold orderedKind
  cases hk : a.kind with
  | load fresh stale sext =>
    cases stale with
    | true => exact absurd hk (hload fresh sext)
    | false => simp [hplace]
  | store => simp [hplace]
  | matz => exact absurd hk hmatz
  | alq => exact absurd hk halq
  | flush inv peat discard =>
    cases discard with
    | true => rfl
    | false => exact absurd hk (hflush inv peat)
  | atom _ _ => rfl
  | acas _ => rfl
  | red _ _ _ => rfl
  | record _ _ => rfl
  | copy _ _ _ _ _ => rfl
  | tidSet _ _ => rfl
  | mqPush _ => rfl
  | abinit _ _ => rfl
  | abarv _ => rfl
  | graphFire => rfl
  | nodeq _ _ => rfl
  | done => rfl

/-- Events of one thread hold later ones up. -/
theorem holdsUp_events (ho : ∃ t ∈ b.owners, t ∈ a.owners) (ha : anEvent a) (hb : anEvent b) : holdsUp b a = true := by
  have hmine : (b.owners.any fun t => a.owners.contains t) = true := by
    obtain ⟨t, htb, hta⟩ := ho
    exact List.any_eq_true.2 ⟨t, htb, List.contains_iff_mem.2 hta⟩
  simp only [holdsUp, orderedKind_event ha, orderedKind_event hb, hmine, if_true, Bool.true_or, Bool.and_self]

theorem performable_held {l1 l2 : List Access} (hn : ∀ x ∈ l1, x.id ≠ a.id) (hb : b.id ≠ a.id) (hh : holdsUp b a = true) :
    performable (l1 ++ b :: l2) a = false := by
  induction l1 with
  | nil => rw [List.nil_append, performable, if_neg hb, if_pos hh]
  | cons x l1 ih =>
    rw [List.cons_append, performable, if_neg (hn x List.mem_cons_self)]
    split
    · rfl
    · exact ih fun y hy => hn y (List.mem_cons_of_mem _ hy)

theorem performable_free (h : ∀ b, holdsUp b a = false) : ∀ l, performable l a = true := by
  intro l
  induction l with
  | nil => rfl
  | cons b l ih =>
    rw [performable]
    split
    · rfl
    · rw [h b, if_neg Bool.false_ne_true, ih]

/-- `MATZ`, `ALQ` and `CFLUSH` wait for no access. -/
theorem holdsUp_unordered (h : a.kind = .matz ∨ a.kind = .alq ∨ (∃ inv peat, a.kind = .flush inv peat false)) (b : Access) :
    holdsUp b a = false := by
  rcases h with h | h | ⟨inv, peat, h⟩ <;> simp only [holdsUp, orderedKind, h, Bool.false_eq_true, if_false]

theorem readyAccess_none {id : Nat} (h : ∀ x, s.accs.find? (fun x => x.id = id) = some x → mayPerform s x = false) :
    readyAccess s id = none := by
  rw [readyAccess]
  cases hf : s.accs.find? fun x => x.id = id with
  | none => rfl
  | some x => exact if_neg (by rw [h x hf]; exact Bool.false_ne_true)

/-- An access that is not ready is not performed. -/
theorem not_performed {id : Nat} (h : readyAccess s id = none) : exec (.loadReturn id) s = .next s ∧
    exec (.accessAcknowledge id) s = .next s ∧ exec (.sliceRedUpdate id) s = .next s := by
  refine ⟨congrArg Host.Outcome.next ?_, congrArg Host.Outcome.next ?_, congrArg Host.Outcome.next ?_⟩
  · rw [loadReturnOf, h]
  · rw [acknowledge, h]
  · rw [sliceUpdate, h]

/-- An earlier event of its thread keeps an event from being performed. -/
theorem event_waits {l1 l2 l3 : List Access} (hs : s.accs = l1 ++ b :: l2 ++ a :: l3) (hn : ∀ x ∈ l1 ++ l2, x.id ≠ a.id)
    (hb : b.id ≠ a.id) (ho : ∃ t ∈ b.owners, t ∈ a.owners) (ha : anEvent a) (hbe : anEvent b) : readyAccess s a.id = none := by
  refine readyAccess_none fun x hx => ?_
  have hskip : ∀ y ∈ l1 ++ b :: l2, ¬ (decide (y.id = a.id)) = true := by
    intro y hy
    rw [decide_eq_true_eq]
    rw [List.mem_append, List.mem_cons] at hy
    rcases hy with hy | rfl | hy
    · exact hn y (List.mem_append_left _ hy)
    · exact hb
    · exact hn y (List.mem_append_right _ hy)
  rw [hs, List.find?_append, List.find?_eq_none.2 hskip, Option.none_or, List.find?_cons_of_pos (p := fun x : Access => decide (x.id = a.id)) (decide_eq_true rfl)] at hx
  cases hx
  have hp : performable s.accs a = false := by
    rw [hs, List.append_assoc]
    exact performable_held (fun x hx => hn x (List.mem_append_left _ hx)) hb (holdsUp_events ho ha hbe)
  rw [mayPerform, hp, Bool.false_and, Bool.false_and, Bool.false_and]

/-- A message of its slice that has begun keeps a `RED` from its sector. -/
theorem red_waits {tag tag' pa n pb m : Nat} {steps rest : List (Nat × Nat × DWord)} (hf : s.accs.find? (fun x => x.id = a.id) = some a)
    (hk : a.kind = .red tag steps false) (hb : b ∈ s.accs) (hid : b.id ≠ a.id) (hd : b.die = a.die) (hbk : b.kind = .red tag' rest true)
    (hpa : a.place = .phys [(pa, n)]) (hpb : b.place = .phys [(pb, m)]) (h1 : pa < pb + m) (h2 : pb < pa + n) :
    readyAccess s a.id = none := by
  refine readyAccess_none fun x hx => ?_
  rw [hf] at hx
  cases hx
  have hmsg : behindMessage s a = true := by
    simp only [behindMessage, hk]
    refine List.any_eq_true.2 ⟨b, hb, ?_⟩
    simp [hid, hd, hbk, hpa, hpb, placesMeet, h1, h2]
  rw [mayPerform, hmsg, Bool.not_true, Bool.and_false]

/-! The oldest access. -/

theorem oldest_ready (h : Oldest s a rest th) : readyAccess s a.id = some a := by
  obtain ⟨haccs, -, -, -, -, -, -, hengines, hlocks, hred⟩ := h
  have hperf : performable s.accs a = true := by rw [haccs, performable, if_pos rfl]
  have hcopy : behindCopy s a = false := by
    rw [behindCopy, List.any_eq_false]
    intro e he
    simp [hengines e he]
  have hlock : lockedOut s a = false := by
    have hnone : lockHit s (accessPieces a) = [] := by
      rw [lockHit, List.flatMap_eq_nil_iff]
      intro x hx
      rw [hlocks x hx]; rfl
    rw [lockedOut, lockHitOf, hnone, List.filter_nil, List.any_nil, Bool.and_false]
  have hmsg : behindMessage s a = false := by
    unfold behindMessage
    split
    · rw [haccs, List.any_eq_false]
      intro x hx
      rw [List.mem_cons] at hx
      rcases hx with rfl | hx
      · simp
      · have hbegun := hred x hx
        cases hk : x.kind with
        | red tag steps begun =>
          cases begun with
          | true => exact absurd hk (hbegun tag steps)
          | false => simp
        | _ => simp
    · rfl
  rw [readyAccess, haccs, List.find?_cons_of_pos (p := fun x : Access => decide (x.id = a.id)) (decide_eq_true rfl), Option.bind_some, mayPerform, hperf, hcopy, hlock, hmsg]
  rfl

theorem oldest_loads {fresh stale sext : Bool} (h : Oldest s a rest th) (hk : a.kind = .load fresh stale sext) :
    exec (.loadReturn a.id) s = .next (performLoad s a fresh stale sext) := by
  refine congrArg Host.Outcome.next ?_
  simp only [loadReturnOf, oldest_ready h, hk, returnsData, if_true, performAccess]

theorem oldest_acknowledged (h : Oldest s a rest th) (hk : acknowledges a.kind = true) :
    exec (.accessAcknowledge a.id) s = .next (performAccess s a) := by
  refine congrArg Host.Outcome.next ?_
  simp only [acknowledge, oldest_ready h, hk, if_true]

theorem oldest_steps {tag : Nat} {steps : List (Nat × Nat × DWord)} {begun : Bool} (h : Oldest s a rest th)
    (hk : a.kind = .red tag steps begun) : exec (.sliceRedUpdate a.id) s = .next (redStep s a tag steps) := by
  refine congrArg Host.Outcome.next ?_
  simp only [sliceUpdate, oldest_ready h, hk]

/-! The end of an access. -/

/-- No thread waits for a fence. -/
def fenceless (s : State) : Prop := ∀ u ∈ s.threads, ∀ p q, u.wait ≠ .fence p q

theorem fenceless_modify {l : List Thread} {t : Nat} {g : Thread → Thread} (hg : ∀ u, (g u).wait = u.wait)
    (h : ∀ u ∈ l, ∀ p q, u.wait ≠ .fence p q) : ∀ u ∈ l.modify t g, ∀ p q, u.wait ≠ .fence p q := by
  intro u hu
  obtain ⟨i, hi⟩ := List.mem_iff_getElem?.1 hu
  rw [List.getElem?_modify] at hi
  cases hx : l[i]? with
  | none => rw [hx] at hi; cases hi
  | some v =>
    have hv := h v (List.mem_of_getElem? hx)
    rw [hx] at hi
    by_cases ht : t = i
    · simp only [ht, if_true, Option.map_eq_map, Option.map_some, Option.some.injEq] at hi
      rw [← hi, hg]
      exact hv
    · simp only [ht, if_false, Option.map_eq_map, Option.map_some, Option.some.injEq] at hi
      rw [← hi]
      exact hv

theorem raiseFences_fenceless (h : fenceless s) (id t : Nat) : raiseFences s id t = s := by
  have hmap : (raiseFences s id t).threads = s.threads := by
    refine (List.map_congr_left fun u hu => ?_).trans (List.map_id _)
    have hw := h u hu
    split
    · next p q hx => exact absurd hx (hw p q)
    · rfl
  have hstate : raiseFences s id t = { s with threads := (raiseFences s id t).threads } := rfl
  rw [hstate, hmap]

theorem lowered_wait (c : Ctr) (u : Thread) : (lowered c u).wait = u.wait := by cases c <;> rfl

theorem lowered_exited (c : Ctr) (u : Thread) : (lowered c u).exited = u.exited := by cases c <;> rfl

theorem lowerCtr_eq (s : State) (t : Nat) (c : Ctr) : lowerCtr s t c = modThread s t (lowered c) := rfl

/-- A living thread's own access ends: its counter falls, and no fence or barrier goes on. -/
theorem endAccess_owner (ho : a.owners = [a.tid]) (hn : a.node = none) (ht : s.threads[a.tid]? = some th) (hx : th.exited = false)
    (hf : fenceless s) : endAccess s a = { s with
      accs := s.accs.filter fun b => b.id ≠ a.id, threads := s.threads.modify a.tid (lowered a.ctr) } := by
  have hf' : fenceless (modThread { s with accs := s.accs.filter fun b => b.id ≠ a.id } a.tid (lowered a.ctr)) :=
    fenceless_modify (lowered_wait a.ctr) hf
  have hex : threadExited (modThread { s with accs := s.accs.filter fun b => b.id ≠ a.id } a.tid (lowered a.ctr)) a.tid = false := by
    change (((s.threads.modify a.tid (lowered a.ctr))[a.tid]?).map (·.exited)).getD true = false
    rw [List.getElem?_modify, ht]
    simp [lowered_exited, hx]
  simp only [endAccess, ho, hn, List.foldl_cons, List.foldl_nil, lowerCtr_eq, raiseFences_fenceless hf', hex, Bool.false_eq_true, if_false]
  rfl

theorem oldest_filter (h : Oldest s a rest th) : s.accs.filter (fun b => b.id ≠ a.id) = rest := by
  obtain ⟨haccs, hids, -⟩ := h
  rw [haccs, List.filter_cons_of_neg (by simp), List.filter_eq_self]
  exact fun b hb => decide_eq_true (hids b hb)

/-! Values loaded. -/

theorem ofNat_setWidth {w : Nat} (hw : w ≤ 64) (v : Nat) : (BitVec.ofNat 64 v : DWord).setWidth w = BitVec.ofNat w v := by
  apply BitVec.eq_of_toNat_eq
  rw [BitVec.toNat_setWidth, BitVec.toNat_ofNat, BitVec.toNat_ofNat]
  exact Nat.mod_mod_of_dvd _ (Nat.pow_dvd_pow 2 hw)

/-- A narrow value's register, extended with its sign or with zeros. -/
theorem extended {w : Nat} (hw : w ≤ 64) (v : Nat) (sext : Bool) :
    (if sext then (BitVec.ofNat w v).signExtend 32 else (BitVec.ofNat w v).zeroExtend 32 : Word) =
      BitVec.ofInt 32 (num (sext, w) (BitVec.ofNat 64 v)) := by
  simp only [num, ofNat_setWidth hw]
  cases sext with
  | true => rfl
  | false =>
    simp only [Bool.false_eq_true, if_false]
    apply BitVec.eq_of_toNat_eq
    rw [BitVec.toNat_ofInt, BitVec.toNat_setWidth]
    omega

theorem loadImage_eq (bs : List Byte) (sext : Bool) : loadImage bs sext = loaded bs sext := by
  unfold loadImage loaded
  split
  · next h =>
    rw [if_pos (.inl h), h, ← Moves.bitsOfBytes_eq_valueOf, ← extended (by decide)]
  · next h =>
    rw [if_pos (.inr h), h, ← Moves.bitsOfBytes_eq_valueOf, ← extended (by decide)]
  · next h1 h2 =>
    rw [if_neg (by rintro (h | h); exact h1 h; exact h2 h)]
    simp only [Moves.bitsOfBytes_eq_valueOf]

/-! Where an access goes. -/

section OneSector

variable {pa n : Nat} (h1 : oneSector a pa n)
include h1

theorem oneSector_pieces : placePieces a.place = [(pa / 64, pa % 64, n)] := by
  obtain ⟨hplace, hn, hin, -⟩ := h1
  have hrange : (pa + n - 1) / 64 - pa / 64 + 1 = 1 := by omega
  have hlo : max pa (pa / 64 * 64) - pa / 64 * 64 = pa % 64 := by omega
  have hlen : min (pa + n) (pa / 64 * 64 + 64) - max pa (pa / 64 * 64) = n := by omega
  simp only [hplace, placePieces, List.flatMap_cons, List.flatMap_nil, List.append_nil, if_neg (Nat.pos_iff_ne_zero.1 hn), hrange,
    List.range_one, List.map_cons, List.map_nil, Nat.add_zero, hlo, hlen]

theorem oneSector_dram : ¬ phyBase ≤ pa / 64 * 64 ∧ taggedSector (pa / 64) = true := by
  obtain ⟨-, -, -, hdram, -⟩ := h1
  simp only [dramEnd] at hdram
  refine ⟨by simp only [phyBase]; omega, decide_eq_true ?_⟩
  simp only [dramEnd]
  omega

theorem oneSector_atHome : atHome a false (pa / 64) = false := by
  obtain ⟨-, -, -, -, hms, hlbc⟩ := id h1
  rw [atHome, hms, hlbc, (oneSector_dram h1).2]
  rfl

/-- A load of one sector of DRAM is its keeper's. -/
theorem performLoad_kept {sext : Bool} {s' : State} {bs : List Byte} (hl : loadKeepers 16 s a = .ok (s', bs)) :
    performLoad s a false false sext = returnLoad s' a bs sext := by
  obtain ⟨hplace, -⟩ := id h1
  have hp := oneSector_pieces h1
  have hhome := oneSector_atHome h1
  rw [hplace] at hp
  simp only [performLoad, hplace, hp, if_neg (oneSector_dram h1).1, hhome, Bool.false_eq_true, false_and, if_false, hl]

theorem performLoad_asks {sext : Bool} {l : List Nat} (hl : loadKeepers 16 s a = .error l) : performLoad s a false false sext =
    l.foldl (fun s sec => ask s a.die sec (keeperAsk s a.die sec false)) s := by
  obtain ⟨hplace, -⟩ := id h1
  have hp := oneSector_pieces h1
  have hhome := oneSector_atHome h1
  rw [hplace] at hp
  simp only [performLoad, hplace, hp, if_neg (oneSector_dram h1).1, hhome, Bool.false_eq_true, false_and, if_false, hl]

/-! An `LD.S` of one sector. -/

theorem performLoad_copied {sext : Bool} {v : Sector} {l : List Sector} (hc : lookupNat a.copies (pa / 64) = some (v :: l)) :
    performLoad s a false true sext = returnLoad { s with seed := s.seed + 1 } a
      (secGet (((v :: l)[Config.freePick s.seed % (l.length + 1)]?).getD v) (pa % 64) n) sext := by
  obtain ⟨hplace, -, -, -, hms, hlbc⟩ := id h1
  have hp := oneSector_pieces h1
  rw [hplace] at hp
  simp only [performLoad, hplace, hp, if_neg (oneSector_dram h1).1, hms, hlbc, (oneSector_dram h1).2, Bool.not_false, and_self, if_true,
    hc, Option.getD_some]

theorem performLoad_peeked {sext : Bool} {x : Sector} (hc : (lookupNat a.copies (pa / 64)).getD [] = [])
    (hx : lookupNat a.peeked (pa / 64) = some x) : performLoad s a false true sext = returnLoad s a (secGet x (pa % 64) n) sext := by
  obtain ⟨hplace, -, -, -, hms, hlbc⟩ := id h1
  have hp := oneSector_pieces h1
  rw [hplace] at hp
  simp only [performLoad, hplace, hp, if_neg (oneSector_dram h1).1, hms, hlbc, (oneSector_dram h1).2, Bool.not_false, and_self, if_true,
    hc, hx]

theorem performLoad_joins {sext : Bool} (hc : (lookupNat a.copies (pa / 64)).getD [] = [])
    (hx : lookupNat a.peeked (pa / 64) = none) : performLoad s a false true sext = joinHome s a (pa / 64) 4 := by
  obtain ⟨hplace, -, -, -, hms, hlbc⟩ := id h1
  have hp := oneSector_pieces h1
  rw [hplace] at hp
  simp only [performLoad, hplace, hp, if_neg (oneSector_dram h1).1, hms, hlbc, (oneSector_dram h1).2, Bool.not_false, and_self, if_true,
    hc, hx]

end OneSector

/-! A load from its core's copy. -/

/-- A thread whose ptime has risen to a time. -/
def raisedTo (ts : Nat) (th : Thread) : Thread := { th with ptime := max th.ptime ts }

/-- The core's copy of a sector, within its lease, is one that a thread's load may take. -/
structure CopyHit (s : State) (a : Access) (th : Thread) (l : L1Sector) (sec : Nat) : Prop where
  thread : s.threads[a.tid]? = some th
  copy : l1At (coreAt s a.die a.site) sec = some l
  shared : l.own = false
  readable : th.ptime ≤ l.rts
  leased : s.clk - l.granted < 128 * leaseOf s a.ctx

/-- The state after a read of a core's copy: its use is noted, and the thread's ptime follows it. -/
def copyRead (s : State) (a : Access) (th : Thread) (l : L1Sector) : State :=
  raisePtime (modCore s a.die a.site fun c => l1Put c { l with used := s.clk }) a.tid (max th.ptime l.wts)

theorem l1At_sec {c : Core} {sec : Nat} {l : L1Sector} (h : l1At c sec = some l) : l.sec = sec := by
  have := List.find?_some h
  exact of_decide_eq_true this

theorem l1At_l1Put (c : Core) (l : L1Sector) : l1At (l1Put c l) l.sec = some l :=
  List.find?_cons_of_pos (p := fun x : L1Sector => decide (x.sec = l.sec)) (decide_eq_true rfl)

section Copy

variable {l : L1Sector} {sec : Nat} (h : CopyHit s a th l sec)
include h

theorem keeperRead_copy (wb : Bool) :
    keeperRead s a.tid a.die a.site a.ctx sec wb = some (copyRead s a th l, l.bytes) := by
  have ho : ¬ l.own = true := by rw [h.shared]; exact Bool.false_ne_true
  simp only [keeperRead, h.thread, Option.map_some, Option.getD_some, h.copy, if_neg ho, if_pos (And.intro h.readable h.leased)]
  rfl

omit h in
theorem copyRead_frame : ∃ cs, copyRead s a th l = { s with
    cores := cs, threads := s.threads.modify a.tid (raisedTo (max th.ptime l.wts)) } := by
  obtain ⟨cs, hcs⟩ := modCore_cores s a.die a.site fun c => l1Put c { l with used := s.clk }
  refine ⟨cs, ?_⟩
  rw [copyRead, hcs]
  rfl

/-- The copy may be taken again. -/
theorem copyHit_again (hw : l.wts ≤ l.rts) :
    CopyHit (copyRead s a th l) a (raisedTo (max th.ptime l.wts) th) { l with used := s.clk } sec := by
  obtain ⟨cs, hcs⟩ := copyRead_frame (s := s) (a := a) (th := th) (l := l)
  have hcore : coreAt (copyRead s a th l) a.die a.site = l1Put (coreAt s a.die a.site) { l with used := s.clk } :=
    coreAt_modCore s a.die a.site (fun c => l1Put c { l with used := s.clk }) fun _ => ⟨rfl, rfl⟩
  have hr := h.readable
  refine ⟨?_, ?_, h.shared, ?_, ?_⟩
  · rw [hcs]
    simp only [List.getElem?_modify, h.thread, if_true, Option.map_eq_map, Option.map_some]
  · rw [hcore, ← l1At_sec h.copy]
    exact l1At_l1Put _ { l with used := s.clk }
  · simp only [raisedTo]; omega
  · rw [hcs]; exact h.leased

end Copy

section CopyLoad

variable {pa n : Nat} (h1 : oneSector a pa n) {l : L1Sector}
include h1

theorem unreadable_copy (h : CopyHit s a th l (pa / 64)) : unreadable s a = [] := by
  rw [unreadable, oneSector_pieces h1, List.filterMap_cons, keeperRead_copy h]
  rfl

theorem loadPass_copy (h : CopyHit s a th l (pa / 64)) : loadPass s a = (copyRead s a th l, secGet l.bytes (pa % 64) n) := by
  rw [loadPass, oneSector_pieces h1, List.foldl_cons, List.foldl_nil, keeperRead_copy h]
  rfl

/-- A second read at the time of the first leaves the thread's ptime. -/
theorem loadKeepers_copy (h : CopyHit s a th l (pa / 64)) (hw : l.wts ≤ l.rts) (k : Nat) : ∃ cs,
    loadKeepers (k + 2) s a = .ok ({ s with cores := cs, threads := s.threads.modify a.tid (raisedTo (max th.ptime l.wts)) },
      secGet l.bytes (pa % 64) n) := by
  have hagain := copyHit_again h hw
  obtain ⟨cs, hcs⟩ := copyRead_frame (s := s) (a := a) (th := th) (l := l)
  obtain ⟨cs', hcs'⟩ := copyRead_frame (s := copyRead s a th l) (a := a)
    (th := raisedTo (max th.ptime l.wts) th) (l := { l with used := s.clk })
  have hts : max (raisedTo (max th.ptime l.wts) th).ptime l.wts = max th.ptime l.wts := by
    simp only [raisedTo]; omega
  have hsame : (((copyRead (copyRead s a th l) a (raisedTo (max th.ptime l.wts) th) { l with used := s.clk }).threads[a.tid]?).map (·.ptime)) =
      (((copyRead s a th l).threads[a.tid]?).map (·.ptime)) := by
    rw [hcs']
    simp only [List.getElem?_modify, hagain.thread, if_true, Option.map_eq_map, Option.map_some, hts]
    simp only [raisedTo]
    congr 1
    omega
  have hstep : loadKeepers (k + 1) (copyRead s a th l) a =
      .ok (copyRead (copyRead s a th l) a (raisedTo (max th.ptime l.wts) th) { l with used := s.clk }, secGet l.bytes (pa % 64) n) := by
    simp only [loadKeepers, unreadable_copy h1 hagain, loadPass_copy h1 hagain, hsame, if_true]
  by_cases hp : ((copyRead s a th l).threads[a.tid]?).map (·.ptime) = (s.threads[a.tid]?).map (·.ptime)
  · refine ⟨cs, ?_⟩
    rw [loadKeepers, unreadable_copy h1 h]
    simp only [loadPass_copy h1 h, if_pos hp]
    rw [hcs]
  · refine ⟨cs', ?_⟩
    have hfirst : loadKeepers (k + 2) s a = loadKeepers (k + 1) (copyRead s a th l) a := by
      rw [loadKeepers, unreadable_copy h1 h]
      simp only [loadPass_copy h1 h, if_neg hp]
    rw [hfirst, hstep, hcs', hts, hcs]
    simp only [List.modify_modify_eq]
    congr 3
    congr 1
    funext u
    simp only [Function.comp_apply, raisedTo, Nat.max_assoc, Nat.max_self]

end CopyLoad


theorem modify_at {α : Type} {f g : α → α} {i : Nat} {x : α} : ∀ {l : List α}, l[i]? = some x → f x = g x → l.modify i f = l.modify i g := by
  intro l hx hfg
  apply List.ext_getElem?
  intro j
  rw [List.getElem?_modify, List.getElem?_modify]
  by_cases h : i = j
  · subst h
    simp only [if_true, hx, Option.map_eq_map, Option.map_some, hfg]
  · simp only [h, if_false]

theorem setStacks_lives (ws : List Word) : ∀ (u : Thread) (p : Nat), (setStacks u p ws).wait = u.wait ∧ (setStacks u p ws).exited = u.exited := by
  induction ws with
  | nil => exact fun u p => ⟨rfl, rfl⟩
  | cons w ws ih => exact fun u p => ih (setStack u p w) (p + 1)

/-- A returned load of an oldest access: its destination is written and its counter falls. -/
theorem returnLoad_vec {s' : State} {bs : List Byte} {sext : Bool} {p k lo len : Nat} {cs : List Core} {g : Thread → Thread}
    (h : Oldest s a rest th) (hd : a.dest = .vec p k lo len) (hs : s' = { s with cores := cs, threads := s.threads.modify a.tid g })
    (hg : ∀ u, (g u).wait = u.wait ∧ (g u).exited = u.exited) : returnLoad s' a bs sext = { s with
      cores := cs, accs := rest
      threads := s.threads.modify a.tid fun u => lowered a.ctr (setStacks (g u) p ((loaded bs sext).take k)) } := by
  obtain ⟨-, -, ho, hn, ht, hx, hf, -⟩ := id h
  have hthreads : (deliverTo s' a.tid a.dest (loadImage bs sext)).threads =
      s.threads.modify a.tid fun u => setStacks (g u) p ((loaded bs sext).take k) := by
    rw [hd, hs, loadImage_eq]
    exact List.modify_modify_eq _ _ _ _
  have ht' : (deliverTo s' a.tid a.dest (loadImage bs sext)).threads[a.tid]? = some (setStacks (g th) p ((loaded bs sext).take k)) := by
    rw [hthreads, List.getElem?_modify, ht]
    simp only [if_true, Option.map_eq_map, Option.map_some]
  have hf' : fenceless (deliverTo s' a.tid a.dest (loadImage bs sext)) := by
    unfold fenceless
    rw [hthreads]
    exact fenceless_modify (fun u => (setStacks_lives _ _ _).1.trans (hg u).1) hf
  rw [returnLoad, endAccess_owner ho hn ht' ((setStacks_lives _ _ _).2.trans ((hg th).2.trans hx)) hf', hthreads, List.modify_modify_eq, ← oldest_filter h,
    hd, hs]
  rfl

/-- A load of the core's copy. -/
theorem copy_returns {sext : Bool} {pa n p k lo len : Nat} {l : L1Sector} (h : Oldest s a rest th) (hk : a.kind = .load false false sext)
    (h1 : oneSector a pa n) (hc : CopyHit s a th l (pa / 64)) (hw : l.wts ≤ l.rts) (hd : a.dest = .vec p k lo len) : ∃ cs,
    exec (.loadReturn a.id) s = .next { s with
      cores := cs, accs := rest
      threads := s.threads.modify a.tid fun th =>
        lowered a.ctr (setStacks { th with ptime := max th.ptime l.wts } p ((loaded (secGet l.bytes (pa % 64) n) sext).take k)) } := by
  obtain ⟨cs, hcs⟩ := loadKeepers_copy h1 hc hw 14
  refine ⟨cs, ?_⟩
  rw [oldest_loads h hk, performLoad_kept h1 hcs, returnLoad_vec (g := raisedTo (max th.ptime l.wts)) h hd rfl fun _ => ⟨rfl, rfl⟩]
  have hth : s.threads.modify a.tid (fun u => lowered a.ctr (setStacks (raisedTo (max th.ptime l.wts) u) p
        ((loaded (secGet l.bytes (pa % 64) n) sext).take k))) = s.threads.modify a.tid fun th =>
        lowered a.ctr (setStacks { th with ptime := max th.ptime l.wts } p ((loaded (secGet l.bytes (pa % 64) n) sext).take k)) := by
    refine modify_at hc.thread ?_
    have hm : max th.ptime (max th.ptime l.wts) = max th.ptime l.wts := by omega
    simp only [raisedTo, hm]
  rw [hth]

/-! A load of a scratchpad. -/

theorem framePut_cores (f : SpadFrame) : ∃ cs, framePut s f = { s with cores := cs } := by
  unfold framePut
  split
  · exact ⟨_, rfl⟩
  · exact modCore_cores _ _ _ _

theorem spadRead_frame (r : SpadRef) (n floor : Nat) : ∃ cs ts, spadRead s r n floor = ({ s with cores := cs }, spadBytes s r n, ts) := by
  unfold spadRead
  split
  · next f _ =>
    obtain ⟨cs, hcs⟩ := framePut_cores { f with
      times := setAt f.times (r.off % 4096 / 64) (((f.times[r.off % 4096 / 64]?).getD (0, 0)).1,
        max ((f.times[r.off % 4096 / 64]?).getD (0, 0)).2 (max floor ((f.times[r.off % 4096 / 64]?).getD (0, 0)).1))
      used := s.clk } (s := s)
    exact ⟨cs, max floor ((f.times[r.off % 4096 / 64]?).getD (0, 0)).1, congrArg (·, _, _) hcs⟩
  · exact ⟨_, _, rfl⟩


/-- A load of a scratchpad object that its frames hold, to a uniform register. -/
theorem spad_returns {fresh stale sext : Bool} {r : SpadRef} {n k g : Nat} (h : Oldest s a rest th) (hk : a.kind = .load fresh stale sext)
    (hp : a.place = .spad r n) (hr : spadReady s r n = true) (hd : a.dest = .uni g k 1) : ∃ cs ths,
    exec (.loadReturn a.id) s = .next { s with
      cores := cs, threads := ths, accs := rest
      groups := s.groups.modify g fun x => { x with ks := setUnis x.ks k ((loaded (spadBytes s r n) sext).take 1) } } := by
  obtain ⟨-, -, ho, hn, ht, hx, hf, -⟩ := id h
  obtain ⟨cs, ts, hread⟩ := spadRead_frame (s := s) r n th.ptime
  have hraised : s.threads.modify a.tid (raisedTo ts) = (raisePtime { s with cores := cs } a.tid ts).threads := rfl
  have ht' : (deliverTo (raisePtime { s with cores := cs } a.tid ts) a.tid a.dest (loadImage (spadBytes s r n) sext)).threads[a.tid]? =
      some (raisedTo ts th) := by
    rw [hd]
    change (s.threads.modify a.tid (raisedTo ts))[a.tid]? = _
    rw [List.getElem?_modify, ht]
    simp only [if_true, Option.map_eq_map, Option.map_some]
  have hf' : fenceless (deliverTo (raisePtime { s with cores := cs } a.tid ts) a.tid a.dest (loadImage (spadBytes s r n) sext)) := by
    rw [hd]
    exact fenceless_modify (g := raisedTo ts) (fun _ => rfl) hf
  refine ⟨cs, (s.threads.modify a.tid (raisedTo ts)).modify a.tid (lowered a.ctr), ?_⟩
  rw [oldest_loads h hk]
  simp only [performLoad, hp, hr, if_true, ht, Option.map_some, Option.getD_some, hread, returnLoad, endAccess_owner ho hn ht' hx hf',
    ← oldest_filter h]
  simp only [hd, loadImage_eq]
  rfl

/-! A load or a store whose die holds no copy. -/

theorem keeperRead_absent {t die site ctx sec : Nat} {wb : Bool} (h1 : l1At (coreAt s die site) sec = none) (h2 : l2At s die sec = none) :
    keeperRead s t die site ctx sec wb = none := by
  simp only [keeperRead, h1, h2]

theorem ask_sends {die sec : Nat} {i : Instr} (hr : requested s die sec = false) (hc : l2CanAsk s die (sec / 4) = true) :
    ask s die sec i = { s with net := s.net ++ [i] } := by
  simp only [ask, hr, hc, Bool.not_true, Bool.or_self, Bool.false_eq_true, if_false]
  rfl

section Absent

variable {pa n : Nat} (h1 : oneSector a pa n) (hl1 : l1At (coreAt s a.die a.site) (pa / 64) = none) (hl2 : l2At s a.die (pa / 64) = none)
include h1 hl1 hl2

theorem loadKeepers_absent (k : Nat) : loadKeepers (k + 1) s a = .error [pa / 64] := by
  have hu : unreadable s a = [pa / 64] := by
    rw [unreadable, oneSector_pieces h1, List.filterMap_cons, keeperRead_absent hl1 hl2]
    rfl
  rw [loadKeepers, hu]

theorem performLoad_absent {sext : Bool} (hr : requested s a.die (pa / 64) = false) (hc : l2CanAsk s a.die (pa / 64 / 4) = true) :
    performLoad s a false false sext = { s with net := s.net ++ [.rds a.die (pa / 64)] } := by
  rw [performLoad_asks h1 (loadKeepers_absent h1 hl1 hl2 15), List.foldl_cons, List.foldl_nil, ask_sends hr hc]
  rfl

theorem performStore_absent (hr : requested s a.die (pa / 64) = false) (hc : l2CanAsk s a.die (pa / 64 / 4) = true) :
    performStore s a = { s with net := s.net ++ [.rdx a.die (pa / 64)] } := by
  obtain ⟨hplace, -⟩ := id h1
  have hp := oneSector_pieces h1
  have hhome := oneSector_atHome h1
  have howns : keeperOwns s a.die a.site (pa / 64) = false := by rw [keeperOwns, hl1, hl2]; rfl
  have hask : keeperAsk s a.die (pa / 64) true = .rdx a.die (pa / 64) := by simp only [keeperAsk, if_true, hl2]
  rw [hplace] at hp
  simp only [performStore, hplace, hp, if_neg (oneSector_dram h1).1, hhome, Bool.false_eq_true, if_false, List.map_cons, List.map_nil, howns,
    Bool.not_false, List.filter_cons_of_pos, List.filter_nil, List.foldl_cons, List.foldl_nil, hask, ask_sends hr hc]

end Absent

/-! Atomics. -/

theorem valueWords_atom (wide : Nat) (v : DWord) : valueWords (8 * wide) v = regsBy (decide (wide = 8)) v := by
  by_cases h : wide = 8
  · subst h; rfl
  · have h' : ¬ 8 * wide = 64 := by omega
    simp only [valueWords, h', h, decide_false, if_false, regsBy, Bool.false_eq_true, oneReg]

section Atomics

variable (h : Oldest s a rest th) (new : DWord → Option DWord)
include h

theorem performAtom_writes {v : DWord}
    (hv : new (BitVec.ofNat 64 (valueOf (readBytesNow s (placeAddr a.place) a.size (some a.ctx) th.ptime).2.1)) = some v) :
    performAtom s a new =
      (let pa := placeAddr a.place
       let rd := readBytesNow s pa a.size (some a.ctx) th.ptime
       let wr := writeBytesNow rd.1 pa (bytesOf a.size v.toNat) (some a.ctx) rd.2.2
       endAccess (deliverTo (raisePtime (refreshL1 wr.1 a.die a.site (pa / 64) wr.2) a.tid wr.2) a.tid a.dest
         (regsBy (decide (a.size = 8)) (BitVec.ofNat 64 (valueOf rd.2.1)))) a) := by
  obtain ⟨-, -, -, -, ht, -⟩ := h
  simp only [performAtom, ht, Option.map_some, Option.getD_some, Moves.bitsOfBytes_eq_valueOf, hv, valueWords_atom]

theorem performAtom_fails (hv : new (BitVec.ofNat 64 (valueOf (readBytesNow s (placeAddr a.place) a.size (some a.ctx) th.ptime).2.1)) = none) :
    performAtom s a new =
      (let pa := placeAddr a.place
       let rd := readBytesNow s pa a.size (some a.ctx) th.ptime
       endAccess (deliverTo (raisePtime rd.1 a.tid rd.2.2) a.tid a.dest (regsBy (decide (a.size = 8)) (BitVec.ofNat 64 (valueOf rd.2.1)))) a) := by
  obtain ⟨-, -, -, -, ht, -⟩ := h
  simp only [performAtom, ht, Option.map_some, Option.getD_some, Moves.bitsOfBytes_eq_valueOf, hv, valueWords_atom]

end Atomics

/-! A step of a `RED`. -/

theorem ownersTime_owner (ho : a.owners = [a.tid]) (ht : s.threads[a.tid]? = some th) : ownersTime s a = th.ptime := by
  simp only [ownersTime, ho, List.foldl_cons, List.foldl_nil, ht, Option.map_some, Option.getD_some, Nat.zero_max]

section Red

variable {tag e h sec : Nat} {u : DWord} {r : List (Nat × Nat × DWord)} (hms : a.ms = false)
  (hsec : placeAddr a.place / 64 = sec) (hd : sec * 64 < dramEnd) (hm : monitored s sec = false)
include hms hsec hd hm

theorem redStep_asks (hl : l2At s a.die sec = none) (hr : requested s a.die sec = false) (hc : l2CanAsk s a.die (sec / 4) = true) :
    redStep s a tag ((e, h, u) :: r) = { s with net := s.net ++ [.pjoin a.die sec tag] } := by
  have ht : taggedSector sec = true := decide_eq_true hd
  simp only [redStep, hms, hsec, hm, ht, hl, Bool.not_true, Bool.false_eq_true, or_self, if_false, ask_sends hr hc]

/-- The step updates the die's partial under the message's tag. -/
theorem redStep_updates {x : L2Sector} (ho : a.owners = [a.tid]) (ht : s.threads[a.tid]? = some th) (hl : l2At s a.die sec = some x)
    (hp : x.st = .p) (htag : x.tag = tag) :
    redStep s a tag ((e, h, u) :: r) =
      (let y := stepPartial tag x.partials x.touched e h u
       let ts := max th.ptime (x.rts + 1)
       let t := raisePtime (l2Mod s a.die { x with
         partials := y.1, touched := y.2, wts := ts, rts := ts, used := s.clk, ctx := some a.ctx }) a.tid ts
       { t with accs := t.accs.map fun b => if b.id = a.id then { b with kind := if r.isEmpty then .done else .red tag r true } else b }) := by
  have hg : taggedSector sec = true := decide_eq_true hd
  simp only [redStep, hms, hsec, hm, hg, hl, hp, htag, Bool.not_true, Bool.false_eq_true, or_self, if_false, and_self, if_true,
    ownersTime_owner ho ht, ho, List.foldl_cons, List.foldl_nil]

end Red


/-! Bytes of a sector. -/

theorem getLsbD_ofLowByte (m : Nat) : (0xFF#512).getLsbD m = decide (m < 8) := by
  have hb : (0xFF : Nat) = 2 ^ 8 - 1 := rfl
  rw [BitVec.getLsbD_ofNat, hb, Nat.testBit_two_pow_sub_one]
  by_cases h : m < 8
  · simp only [h, decide_true, Bool.and_true, decide_eq_true_eq]; omega
  · simp only [h, decide_false, Bool.and_false]

theorem secByte_secSet {x : Sector} {i j : Nat} (b : Byte) (hi : i < 64) (hj : j < 64) :
    secByte (secSet x i b) j = if j = i then b else secByte x j := by
  apply BitVec.eq_of_getLsbD_eq
  intro k hk
  have hin : 8 * j + k < 512 := by omega
  by_cases h : j = i
  · subst h
    have hl : ¬ 8 * j + k < 8 * j := by omega
    have hs : 8 * j + k - 8 * j = k := by omega
    simp only [secByte, secSet, if_true, BitVec.getLsbD_extractLsb', hk, decide_true, Bool.true_and, BitVec.getLsbD_or, BitVec.getLsbD_and,
      BitVec.getLsbD_not, BitVec.getLsbD_shiftLeft, hin, hl, decide_false, Bool.not_false, hs, getLsbD_ofLowByte, BitVec.getLsbD_setWidth,
      Bool.not_true, Bool.and_false, Bool.false_or, show k < 512 from by omega]
  · have hout : ¬ 8 * j + k < 8 * i → ¬ 8 * j + k - 8 * i < 8 := by omega
    simp only [secByte, secSet, if_neg h, BitVec.getLsbD_extractLsb', hk, decide_true, Bool.true_and, BitVec.getLsbD_or, BitVec.getLsbD_and,
      BitVec.getLsbD_not, BitVec.getLsbD_shiftLeft, hin, getLsbD_ofLowByte, BitVec.getLsbD_setWidth]
    by_cases hlt : 8 * j + k < 8 * i
    · simp only [hlt, decide_true, Bool.not_true, Bool.false_and, Bool.not_false, Bool.and_true, Bool.or_false]
    · rw [BitVec.getLsbD_of_ge b _ (Nat.le_of_not_lt (hout hlt))]
      simp only [hlt, hout hlt, decide_false, Bool.not_false, Bool.and_false, Bool.and_true, Bool.or_false]

theorem secByte_secPut (bs : List Byte) : ∀ (x : Sector) (i : Nat) {j : Nat}, i + bs.length ≤ 64 → j < 64 →
    secByte (secPut x i bs) j = if i ≤ j ∧ j < i + bs.length then (bs[j - i]?).getD 0 else secByte x j := by
  induction bs with
  | nil =>
    intro x i j _ _
    rw [List.length_nil, if_neg (by omega), secPut]
  | cons b bs ih =>
    intro x i j hlen hj
    rw [List.length_cons] at hlen
    rw [secPut, ih (secSet x i b) (i + 1) (by omega) hj, secByte_secSet b (by omega) hj, List.length_cons]
    by_cases h : j = i
    · subst h
      rw [if_neg (by omega), if_pos rfl, if_pos (by omega), Nat.sub_self]
      rfl
    · by_cases hin : i + 1 ≤ j ∧ j < i + 1 + bs.length
      · have hsucc : j - i = j - (i + 1) + 1 := by omega
        rw [if_pos hin, if_pos (by omega), hsucc, List.getElem?_cons_succ]
      · rw [if_neg hin, if_neg h, if_neg (by omega)]

theorem secByte_maskSector (old x : Sector) (mask : BitVec 64) {j : Nat} (hj : j < 64) :
    secByte (maskSector old x mask) j = if mask.getLsbD j then secByte x j else secByte old j := by
  have hprefix : ∀ n, n ≤ 64 → secByte ((List.range n).foldl (fun v i => if mask.getLsbD i then secSet v i (secByte x i) else v) old) j =
      if j < n ∧ mask.getLsbD j then secByte x j else secByte old j := by
    intro n
    induction n with
    | zero => intro _; simp
    | succ n ih =>
      intro hn
      rw [List.range_succ, List.foldl_append, List.foldl_cons, List.foldl_nil]
      by_cases hm : mask.getLsbD n
      · rw [if_pos hm, secByte_secSet _ (by omega) hj, ih (by omega)]
        by_cases h : j = n
        · subst h; simp [hm]
        · rw [if_neg h]
          exact if_congr (and_congr_left fun _ => by omega) rfl rfl
      · rw [if_neg hm, ih (by omega)]
        refine if_congr ⟨fun h => ⟨by omega, h.2⟩, fun h => ⟨?_, h.2⟩⟩ rfl rfl
        have : j ≠ n := by rintro rfl; exact hm h.2
        omega
  rw [maskSector, hprefix 64 (Nat.le_refl _)]
  simp only [hj, true_and]

theorem getLsbD_bytesMask (off n : Nat) {j : Nat} (hj : j < 64) :
    (BitVec.ofNat 64 ((2 ^ n - 1) * 2 ^ off)).getLsbD j = decide (off ≤ j ∧ j < off + n) := by
  rw [BitVec.getLsbD_ofNat, Nat.testBit_mul_two_pow, Nat.testBit_two_pow_sub_one]
  by_cases h : off ≤ j
  · simp only [hj, h, decide_true, Bool.true_and, true_and]
    exact decide_eq_decide.2 (by omega)
  · simp only [h, decide_false, Bool.false_and, Bool.and_false, false_and]

/-- The bytes of a sector after a store into a part of it. -/
theorem stored_bytes (old : Sector) {bs : List Byte} {off n : Nat} (hlen : bs.length = n) (hin : off + n ≤ 64) {j : Nat} (hj : j < 64) :
    secByte (maskSector old (secPut 0 off bs) (BitVec.ofNat 64 ((2 ^ n - 1) * 2 ^ off))) j =
      if off ≤ j ∧ j < off + n then (bs[j - off]?).getD 0 else secByte old j := by
  rw [secByte_maskSector _ _ _ hj, getLsbD_bytesMask off n hj, secByte_secPut bs 0 off (by omega) hj, hlen]
  by_cases h : off ≤ j ∧ j < off + n
  · simp only [h, decide_true, if_true, and_self]
  · simp only [h, decide_false, Bool.false_eq_true, if_false]


/-! A store into a line that its die owns. -/

section NoReed

variable {sec : Nat} (hr : noReed s)
include hr

theorem aliasFor_noReed (g : Nat) : aliasFor s g = none := by
  rw [aliasFor]
  cases hh : s.homes[homeOf (g * 16)]? with
  | none => rfl
  | some h =>
    rw [Option.bind_some, (hr h (List.mem_of_getElem? hh)).1]
    rfl

theorem prepareGrain_noReed (g : Nat) (whole : Bool) : prepareGrain s g whole = s := by
  have hw : watchersOf s g = [] := by
    rw [watchersOf]
    cases hh : s.homes[homeOf (g * 16)]? with
    | none => rfl
    | some h =>
      simp only [(hr h (List.mem_of_getElem? hh)).2]
      rfl
  rw [prepareGrain, hw, List.foldl_nil, aliasFor_noReed hr]

theorem prepareMask_noReed (mask : BitVec 64) : prepareMask s sec mask = s := by
  have hfold : ∀ l : List Nat, l.foldl (fun s k => if mask.extractLsb' (16 * k) 16 = 0#16 then s
      else prepareGrain s (sec * 4 + k) (decide (mask.extractLsb' (16 * k) 16 = 0xFFFF#16))) s = s := by
    intro l
    induction l with
    | nil => rfl
    | cons k l ih => rw [List.foldl_cons, prepareGrain_noReed hr, ite_self, ih]
  exact hfold _

theorem formedBytes_noReed (mask : BitVec 64) : formedBytes s sec mask = 0#64 := by
  have hfold : ∀ (l : List Nat) (acc : BitVec 64), l.foldl (fun acc k =>
      match aliasFor s (sec * 4 + k) with
      | some e => if entryBlock e = 1 ∧ mask.extractLsb' (16 * k) 16 ≠ 0#16 ∧ mask.extractLsb' (16 * k) 16 ≠ 0xFFFF#16 then
          acc ||| (((mask.extractLsb' (16 * k) 16).setWidth 64) <<< (16 * k)) else acc
      | none => acc) acc = acc := by
    intro l
    induction l with
    | nil => exact fun _ => rfl
    | cons k l ih => intro acc; rw [List.foldl_cons, aliasFor_noReed hr, ih]
  exact hfold _ _

end NoReed

/-- A line that its die's L2 holds, of which no L1 of the die has a copy. -/
structure L2Only (s : State) (die site sec : Nat) (x : L2Sector) : Prop where
  l1 : l1At (coreAt s die site) sec = none
  unowned : unowned s die sec
  l2 : l2At s die sec = some x

theorem l1At_absent {die site sec : Nat} (h : ∀ c ∈ s.cores, c.die = die → ∀ y ∈ c.l1, y.sec ≠ sec) : l1At (coreAt s die site) sec = none := by
  rw [l1At, List.find?_eq_none]
  intro y hy
  rw [decide_eq_true_iff]
  cases hc : s.cores.find? fun c => c.die = die ∧ c.site = site with
  | none =>
    rw [coreAt, hc] at hy
    cases hy
  | some c =>
    rw [coreAt, hc] at hy
    have hcore := List.find?_some hc
    exact h c (List.mem_of_find?_eq_some hc) (of_decide_eq_true hcore).1 y hy

section Owned

variable {die site sec : Nat} {x : L2Sector} (h : L2Only s die site sec x)
include h

theorem keeperOwns_l2 (hst : x.st = .e ∨ x.st = .m) : keeperOwns s die site sec = true := by
  rw [keeperOwns, h.l1, h.l2, Option.any_some, decide_eq_true hst, Bool.or_true]

/-- A store's time is above the lease that the L2's copy gave. -/
theorem keeperStamp_l2 (floor : Nat) : keeperStamp s die site sec floor = max floor (x.rts + 1) := by
  have hcore : ∀ c : Core, (c.die = die → ∀ x ∈ c.l1, x.sec = sec → x.own = false) → ∀ m : Nat, (if c.die = die then
      c.l1.foldl (fun a x => if x.sec = sec ∧ x.own then max a x.rts else a) m else m) = m := by
    intro c hc m
    by_cases hd : c.die = die
    · rw [if_pos hd]
      have hl := hc hd
      generalize c.l1 = l at hl
      induction l with
      | nil => rfl
      | cons y l ih =>
        have hy : ¬ (y.sec = sec ∧ y.own = true) := by
          rintro ⟨hs, ho⟩
          rw [hl y List.mem_cons_self hs] at ho
          exact Bool.false_ne_true ho
        rw [List.foldl_cons, if_neg hy, ih fun z hz => hl z (List.mem_cons_of_mem _ hz)]
    · rw [if_neg hd]
  have hall : ∀ l : List Core, (∀ c ∈ l, c.die = die → ∀ x ∈ c.l1, x.sec = sec → x.own = false) → l.foldl (fun a c => if c.die = die then
      c.l1.foldl (fun a x => if x.sec = sec ∧ x.own then max a x.rts else a) a else a) 0 = 0 := by
    intro l
    induction l with
    | nil => exact fun _ => rfl
    | cons c l ih =>
      intro hc
      rw [List.foldl_cons, hcore c (hc c List.mem_cons_self), ih fun z hz => hc z (List.mem_cons_of_mem _ hz)]
  simp only [keeperStamp, h.l1, Option.filter_none, h.l2]
  rw [hall s.cores h.unowned, Nat.max_zero]

theorem keeperWrite_l2 (hr : noReed s) (y : Sector) (mask : BitVec 64) (ts : Nat) (k : Option Nat) : keeperWrite s die site sec y mask ts k =
    l2Mod s die { x with bytes := maskSector x.bytes y mask, st := .m, wts := ts, rts := ts, used := s.clk, ctx := k } := by
  simp only [keeperWrite, formedBytes_noReed hr, prepareMask_noReed hr, if_true, h.l1, DieProtocol.collapseL1_unowned h.unowned, h.l2]

end Owned

theorem l2At_sec {die sec : Nat} {x : L2Sector} (h : l2At s die sec = some x) : x.sec = sec := by
  rw [l2At, Option.bind_eq_some_iff] at h
  obtain ⟨d, -, hx⟩ := h
  have hs := List.find?_some hx
  exact of_decide_eq_true hs

/-- What a die's L2 holds after a sector is replaced. -/
theorem l2At_l2Mod {die sec : Nat} {x y : L2Sector} (h : l2At s die y.sec = some x) :
    l2At (l2Mod s die y) die sec = if sec = y.sec then some y else l2At s die sec := by
  have hfind : ∀ l : List L2Sector, (l.find? fun z => z.sec = y.sec) = some x →
      ((l.map fun z => if z.sec = y.sec then y else z).find? fun z => z.sec = sec) =
        if sec = y.sec then some y else l.find? fun z => z.sec = sec := by
    intro l hl
    by_cases hs : sec = y.sec
    · subst hs
      rw [if_pos rfl]
      induction l with
      | nil => cases hl
      | cons z l ih =>
        by_cases hz : z.sec = y.sec
        · rw [List.map_cons, if_pos hz]
          exact List.find?_cons_of_pos (p := fun z : L2Sector => decide (z.sec = y.sec)) (decide_eq_true rfl)
        · rw [List.find?_cons_of_neg (p := fun z : L2Sector => decide (z.sec = y.sec)) (by simpa using hz)] at hl
          rw [List.map_cons, if_neg hz, List.find?_cons_of_neg (p := fun z : L2Sector => decide (z.sec = y.sec)) (by simpa using hz)]
          exact ih hl
    · rw [if_neg hs]
      clear hl
      induction l with
      | nil => rfl
      | cons z l ih =>
        rw [List.map_cons, List.find?_cons, List.find?_cons, ih]
        by_cases hz : z.sec = y.sec
        · have hne : ¬ z.sec = sec := fun he => hs (he.symm.trans hz)
          simp only [hz, if_true, Ne.symm hs, decide_false]
        · simp only [hz, if_false]
  rw [l2At, Option.bind_eq_some_iff] at h
  obtain ⟨d, hd, hx⟩ := h
  simp only [l2At, l2Mod, modDie, modAt, List.getElem?_modify, hd, if_true, Option.map_eq_map, Option.map_some, Option.bind_some]
  exact hfind d.l2 hx

/-- A store that writes no sector whole leaves the marks. -/
theorem retagWholes_none (hw : a.wholes = []) : retagWholes s a = s := by
  have hnil : (((placePieces a.place).map (·.1)).filter fun sec => a.wholes.contains sec
      && !s.accs.any fun b => b.id ≠ a.id && b.issue = a.issue && b.wholes.contains sec
        && (placePieces b.place).any fun p => p.1 = sec) = [] := by
    rw [List.filter_eq_nil_iff]
    intro sec _
    rw [hw]
    simp
  rw [retagWholes, hnil, List.foldl_nil]

section StoreOwned

variable {pa n : Nat} {x : L2Sector} (h : Oldest s a rest th) (h1 : oneSector a pa n) (hlen : a.bytes.length = n) (hwb : a.writeBack = false)
  (hw : a.wholes = []) (hr : noReed s) (hl : L2Only s a.die a.site (pa / 64) x) (hst : x.st = .e ∨ x.st = .m) (hk : a.kind = .store)

/-- The L2's line after the store. -/
def storedLine (s : State) (a : Access) (th : Thread) (pa n : Nat) (x : L2Sector) : L2Sector :=
  { x with
    bytes := maskSector x.bytes (secPut 0 (pa % 64) a.bytes) (BitVec.ofNat 64 ((2 ^ n - 1) * 2 ^ (pa % 64))), st := .m
    wts := max th.ptime (x.rts + 1), rts := max th.ptime (x.rts + 1), used := s.clk, ctx := some a.ctx }

include h h1 hlen hwb hw hr hl hst

theorem performStore_owned : performStore s a =
    endAccess (raisePtime (l2Mod s a.die (storedLine s a th pa n x)) a.tid (max th.ptime (x.rts + 1))) a := by
  obtain ⟨-, -, -, -, ht, -⟩ := id h
  obtain ⟨hplace, -⟩ := id h1
  have hp := oneSector_pieces h1
  have hhome := oneSector_atHome h1
  rw [hplace] at hp
  have hmax : max th.ptime (max th.ptime (x.rts + 1)) = max th.ptime (x.rts + 1) := by omega
  have htake : (a.bytes.drop 0).take n = a.bytes := by rw [List.drop_zero, ← hlen, List.take_length]
  simp only [performStore, hplace, hp, if_neg (oneSector_dram h1).1, hhome, Bool.false_eq_true, if_false, List.map_cons, List.map_nil,
    keeperOwns_l2 hl hst, Bool.not_true, not_false_eq_true, List.filter_cons_of_neg, List.filter_nil, ht, Option.map_some, Option.getD_some,
    List.foldl_cons, List.foldl_nil, keeperStamp_l2 hl, hwb, storePiece, htake, keeperWrite_l2 hl hr, hmax, storeDone, retagWholes_none hw]
  rfl

include hk in
theorem store_owned : exec (.accessAcknowledge a.id) s = .next { l2Mod s a.die (storedLine s a th pa n x) with
    accs := rest
    threads := s.threads.modify a.tid fun u => lowered a.ctr { u with ptime := max u.ptime (max th.ptime (x.rts + 1)) } } := by
  obtain ⟨-, -, ho, hn, ht, hx, hf, -⟩ := id h
  have ht' : (raisePtime (l2Mod s a.die (storedLine s a th pa n x)) a.tid (max th.ptime (x.rts + 1))).threads[a.tid]? =
      some (raisedTo (max th.ptime (x.rts + 1)) th) := by
    change (s.threads.modify a.tid (raisedTo (max th.ptime (x.rts + 1))))[a.tid]? = _
    rw [List.getElem?_modify, ht]
    simp only [if_true, Option.map_eq_map, Option.map_some]
  have hf' : fenceless (raisePtime (l2Mod s a.die (storedLine s a th pa n x)) a.tid (max th.ptime (x.rts + 1))) :=
    fenceless_modify (g := raisedTo (max th.ptime (x.rts + 1))) (fun _ => rfl) hf
  have hths : (s.threads.modify a.tid (raisedTo (max th.ptime (x.rts + 1)))).modify a.tid (lowered a.ctr) =
      s.threads.modify a.tid fun u => lowered a.ctr (raisedTo (max th.ptime (x.rts + 1)) u) := List.modify_modify_eq _ _ _ _
  rw [oldest_acknowledged h (by rw [hk]; rfl), performAccess, hk]
  simp only [performStore_owned h h1 hlen hwb hw hr hl hst, endAccess_owner ho hn ht' hx hf']
  exact congrArg₂ (fun l ths => Host.Outcome.next { l2Mod s a.die (storedLine s a th pa n x) with accs := l, threads := ths })
    (oldest_filter h) hths

end StoreOwned

/-- Settles O38: an access waits behind its thread's earlier ones, and the oldest is performed at the place its checks gave. -/
theorem accessPerformed : Obligations.AccessPerformed := by
  refine ⟨?_, ?_, ?_, ?_, ?_, ?_, ?_, ?_, ?_, ?_, ?_, ?_, ?_, ?_⟩
  · intro s a b l1 l2 l3 hs hn hb ho ha hbe
    exact not_performed (event_waits hs hn hb ho ha hbe)
  · intro l a hk
    exact performable_free (holdsUp_unordered hk) l
  · intro s a b tag steps tag' rest pa n pb m hf hk hb hid hd hbk hpa hpb h1 h2
    exact (not_performed (red_waits hf hk hb hid hd hbk hpa hpb h1 h2)).2.2
  · intro s a rest th sext pa n l p k lo len h hk h1 hl ho hr hw hlease hd
    obtain ⟨-, -, -, -, ht, -⟩ := id h
    obtain ⟨cs, hcs⟩ := copy_returns h hk h1 ⟨ht, hl, ho, hr, hlease⟩ hw hd
    exact ⟨_, hcs, rfl, rfl, rfl, rfl, rfl, rfl⟩
  · intro s a rest th fresh stale sext r n k g h hk hp hr hd
    obtain ⟨cs, ths, hcs⟩ := spad_returns h hk hp hr hd
    exact ⟨_, hcs, rfl, rfl, rfl, rfl, rfl⟩
  · intro s a rest th sext pa n h hk h1 hl1 hl2 hr hc
    rw [oldest_loads h hk, performLoad_absent h1 hl1 hl2 hr hc]
  · intro s a rest th sext pa n v l h hk h1 hc
    have hlt : Config.freePick s.seed % (l.length + 1) < (v :: l).length := Nat.mod_lt _ (Nat.succ_pos _)
    refine ⟨(v :: l)[Config.freePick s.seed % (l.length + 1)], List.getElem_mem hlt, ?_⟩
    rw [oldest_loads h hk, performLoad_copied h1 hc, List.getElem?_eq_getElem hlt, Option.getD_some, returnLoad, loadImage_eq]
  · intro s a rest th sext pa n h hk h1 hc
    refine ⟨fun x hx => ?_, fun hx hq => ?_⟩
    · rw [oldest_loads h hk, performLoad_peeked h1 hc hx, returnLoad, loadImage_eq]
    · rw [oldest_loads h hk, performLoad_joins h1 hc hx, joinHome, if_neg (by rw [hq]; exact Bool.false_ne_true)]
  · intro s a rest th pa n x d h hk h1 hlen hwb hw hr hu habs hd hl hst
    have hon : L2Only s a.die a.site (pa / 64) x := ⟨l1At_absent habs, hu, hl⟩
    have hsec : (storedLine s a th pa n x).sec = pa / 64 := (l2At_sec hl : x.sec = pa / 64)
    have hat : ∀ sec, l2At (l2Mod s a.die (storedLine s a th pa n x)) a.die sec =
        if sec = pa / 64 then some (storedLine s a th pa n x) else l2At s a.die sec := by
      intro sec
      rw [l2At_l2Mod (by rw [hsec]; exact hl), hsec]
    refine ⟨_, storedLine s a th pa n x, store_owned h h1 hlen hwb hw hr hon hst hk, ?_, ?_, rfl, rfl, rfl, ?_, ?_, rfl, rfl, rfl⟩
    · exact (hat _).trans (if_pos rfl)
    · exact fun i hi => stored_bytes x.bytes hlen h1.2.2.1 hi
    · exact fun sec hne => (hat sec).trans (if_neg hne)
    · rfl
  · intro s a rest th pa n h hk h1 hl1 hl2 hr hc
    rw [oldest_acknowledged h (by rw [hk]; rfl), performAccess, hk]
    exact congrArg _ (performStore_absent h1 hl1 hl2 hr hc)
  · intro s a rest th op ty h hk
    rw [oldest_acknowledged h (by rw [hk]; rfl), performAccess, hk]
    exact congrArg _ (performAtom_writes h _ rfl)
  · intro s a rest th w h hk pa rd old hne
    rw [oldest_acknowledged h (by rw [hk]; rfl), performAccess, hk]
    exact congrArg _ (performAtom_fails h _ (if_neg hne))
  · intro s a rest th tag e hh u r begun x h hk hms sec hd hm hl hp htag y ts
    obtain ⟨haccs, -, ho, -, ht, -⟩ := id h
    rw [oldest_steps h hk, redStep_updates hms rfl hd hm ho ht hl hp htag]
    refine ⟨_, rfl, rfl, rfl, ?_, rfl, rfl⟩
    refine ⟨{ a with kind := if r.isEmpty then .done else .red tag r true }, ?_, rfl, ?_⟩
    · refine List.mem_map.2 ⟨a, ?_, if_pos rfl⟩
      change a ∈ s.accs
      rw [haccs]; exact List.mem_cons_self
    · cases r <;> rfl
  · intro s a rest th tag e hh u r begun h hk hms sec hd hm hl hr hc
    rw [oldest_steps h hk]
    exact congrArg _ (redStep_asks hms rfl hd hm hl hr hc)

end Sys2Proof.Performing

/-! SUPPORT. Statement refuted: copies as they are performed (R153, R154, R281, R282). -/

namespace Sys2Proof.CopyEvents

open Sys2Proof.Machine Sys2Proof.Claims

/-- An operation with no ranges that waits for its locks. -/
def waitingOp : EngineOp := plainOp State.reset 0 8 0

/-- A second operation of the same number, of another parameter. -/
def sameNumber : EngineOp := { waitingOp with param := 1 }

/-- A package in which two waiting operations have one number. -/
def twoOfANumber : State := { State.reset with engines := [waitingOp, sameNumber] }

/-- Both operations are launched, each with its own fields. -/
theorem grant_params : (grantLocks twoOfANumber waitingOp.id).engines.map (·.param) = [0, 1] := by decide +kernel

theorem noLocks : ∀ h ∈ twoOfANumber.homes, h.locks = [] := by decide +kernel

/-- Refutes O39: a grant launches every operation of its number, and the clause on grants puts the first one's fields in the place
of a second of the same number (`twoOfANumber`). -/
theorem not_copyEvents : ¬ Obligations.CopyEvents := by
  rintro ⟨-, -, hgrant, -⟩
  have h := hgrant twoOfANumber waitingOp rfl rfl (by decide +kernel) rfl (Nat.zero_le _) noLocks (fun a ha => nomatch ha) (fun x hx => by
    have hx' : x = waitingOp ∨ x = sameNumber := by simpa [twoOfANumber] using hx
    rcases hx' with rfl | rfl
    · exact .inr (.inr (.inr (Nat.le_refl _)))
    · exact .inr (.inr (.inr (Nat.le_refl _))))
  have hs : grantLocks twoOfANumber waitingOp.id = _ := Host.Outcome.next.inj h
  have hp := congrArg (fun s => s.engines.map (·.param)) hs
  rw [grant_params] at hp
  exact absurd hp (by decide +kernel)

end Sys2Proof.CopyEvents

/-! SUPPORT. Statement settled: the Reed tables (R278 to R290). -/

namespace Sys2Proof.Peat

open Sys2Proof.Machine

/-! What a home's caches do to its other tables and to memory (R248 to R252). -/

/-- A home's caches moved bytes: its Reed tables are as they were, and memory keeps its canonical form. -/
structure Moved (p q : Home × Memory) : Prop where
  aliases : q.1.aliases = p.1.aliases
  watches : q.1.watches = p.1.watches
  canonical : Memory.wf p.2 → Memory.wf q.2

variable {h : Home} {m : Memory} {k : PeatCall}

theorem Moved.refl (p : Home × Memory) : Moved p p := ⟨rfl, rfl, id⟩

theorem Moved.trans {p q r : Home × Memory} (h1 : Moved p q) (h2 : Moved q r) : Moved p r :=
  ⟨h2.aliases.trans h1.aliases, h2.watches.trans h1.watches, fun h => h2.canonical (h1.canonical h)⟩

/-- A change of other fields of the home. -/
theorem Moved.home {h' : Home} (ha : h'.aliases = h.aliases) (hw : h'.watches = h.watches) : Moved (h, m) (h', m) := ⟨ha, hw, id⟩

/-- The same before a move. -/
theorem Moved.after {h' : Home} {q : Home × Memory} (hq : Moved (h', m) q) (ha : h'.aliases = h.aliases) (hw : h'.watches = h.watches) :
    Moved (h, m) q := (Moved.home ha hw).trans hq

theorem noteMoved_moved (k : PeatCall) (h : Home) (m : Memory) (n : Nat) : Moved (h, m) (noteMoved k h n, m) := by
  unfold noteMoved
  split
  · exact .refl _
  · exact .home rfl rfl

theorem peatSpill_moved (k : PeatCall) (h : Home) (m : Memory) (p : PeatLine) : Moved (h, m) (peatSpill k h m p) := by
  unfold peatSpill
  split
  · have hn := noteMoved_moved k h m 256
    exact ⟨hn.aliases, hn.watches, fun hm => dramPut_wf hm _ _⟩
  · exact .refl _

theorem peatDrop_moved (k : PeatCall) (h : Home) (m : Memory) (line : Nat) : Moved (h, m) (peatDrop k h m line) := by
  unfold peatDrop
  split
  · exact (peatSpill_moved _ _ _ _).after rfl rfl
  · exact .refl _

theorem evictUntil_moved (k : PeatCall) (set phys line units fuel : Nat) : ∀ (h : Home) (m : Memory),
    Moved (h, m) ((evictUntil k set phys line units fuel h m).1, (evictUntil k set phys line units fuel h m).2.1) := by
  induction fuel with
  | zero => exact fun h m => .refl _
  | succ fuel ih =>
    intro h m
    rw [evictUntil]
    cases physRoom h set phys line units with
    | some a => exact .refl _
    | none =>
      cases oldestLine ((physLines h set phys line).filter fun p => k.pinned p.line = false) with
      | none => exact .refl _
      | some p => exact (peatDrop_moved k h m p.line).trans (ih _ _)

theorem peatDrops_moved (k : PeatCall) (l : List PeatLine) : ∀ p : Home × Memory,
    Moved p (l.foldl (fun acc q => peatDrop k acc.1 acc.2 q.line) p) := by
  induction l with
  | nil => exact .refl
  | cons q l ih => exact fun p => (peatDrop_moved k p.1 p.2 q.line).trans (ih _)

theorem peatTag_moved {line : Nat} {p : Home × Memory} (hp : peatTag k h m line = some p) : Moved (h, m) p := by
  unfold peatTag at hp
  simp only at hp
  split at hp
  · cases hp; exact .refl _
  · obtain ⟨b, -, hb⟩ := Option.map_eq_some_iff.1 hp
    rw [← hb]
    exact peatDrops_moved k _ (h, m)

theorem peatPut_moved (h : Home) (m : Memory) (n : PeatLine) (phys pos : Nat) : Moved (h, m) (peatPut h n phys pos, m) := .home rfl rfl

theorem peatPlace_moved (k : PeatCall) (h : Home) (m : Memory) (n : PeatLine) : Moved (h, m) (peatPlace k h m n) := by
  unfold peatPlace
  simp only
  split
  · next p _ =>
    split
    · exact peatPut_moved _ _ _ _ _
    · split
      · exact peatPut_moved _ _ _ _ _
      · refine (evictUntil_moved k (peatSet n.line) p.phys n.line (n.own.getD (lineUnits n.bytes)) 4 h m).trans ?_
        split
        · exact (peatPut_moved _ _ _ _ _).after rfl rfl
        · exact (peatSpill_moved _ _ _ _).after rfl rfl
  · split
    · exact peatSpill_moved _ _ _ _
    · next h' m' htag =>
      refine (peatTag_moved htag).trans ?_
      split
      · exact peatPut_moved _ _ _ _ _
      · split
        · exact peatSpill_moved _ _ _ _
        · next v _ =>
          exact (evictUntil_moved k (peatSet n.line) v.phys n.line (n.own.getD (lineUnits n.bytes)) 4 h' m').trans
            (peatPut_moved _ _ _ _ _)

theorem oldLine_moved (k : PeatCall) (h : Home) (m : Memory) (line : Nat) : Moved (h, m) ((oldLine k h m line).1, m) := by
  unfold oldLine
  split
  · exact .refl _
  · exact noteMoved_moved _ _ _ _

theorem wcFall_moved (k : PeatCall) (h : Home) (m : Memory) (line : Nat) : Moved (h, m) (wcFall k h m line) := by
  unfold wcFall
  split
  · exact .refl _
  · next w _ =>
    exact (oldLine_moved { k with ctx := w.ctx } h m line).trans ((peatPlace_moved _ _ _ _).after rfl rfl)

/-- A new write-combining entry, which falls back at once for a context that does not wait. -/
theorem wcJoin_moved (k : PeatCall) (line : Nat) (w : WcEntry) (q : Home × Memory) :
    Moved q (if k.wait = 0 then wcFall k { q.1 with wc := q.1.wc ++ [w] } q.2 line else ({ q.1 with wc := q.1.wc ++ [w] }, q.2)) := by
  split
  · exact (wcFall_moved _ _ _ _).after rfl rfl
  · exact .home rfl rfl

theorem homePut_moved (k : PeatCall) (h : Home) (m : Memory) (line : Nat) (x : Line) (mask : BitVec 256) :
    Moved (h, m) (homePut k h m line x mask) := by
  cases hp : h.peat.find? fun p => p.line = line ∧ p.units = 8 with
  | some p =>
    simp only [homePut, hp]
    exact peatPlace_moved _ _ _ _
  | none =>
    cases hw : h.wc.find? fun w => w.line = line with
    | some w =>
      simp only [homePut, hp, hw]
      split
      · exact (peatPlace_moved _ _ _ _).after rfl rfl
      · exact .home rfl rfl
    | none =>
      simp only [homePut, hp, hw]
      by_cases hm : mask = ~~~ 0#256
      · rw [if_pos hm]
        exact peatPlace_moved _ _ _ _
      · rw [if_neg hm]
        by_cases hl : h.wc.length < 64
        · simp only [if_pos hl]
          exact wcJoin_moved k line _ (h, m)
        · cases ho : h.wc.head? with
          | none =>
            simp only [if_neg hl]
            exact wcJoin_moved k line _ (h, m)
          | some o =>
            simp only [if_neg hl]
            exact (wcFall_moved k h m o.line).trans (wcJoin_moved k line _ (wcFall k h m o.line))

theorem homeTouch_moved (k : PeatCall) (h : Home) (m : Memory) (line : Nat) (own : Option Nat) :
    Moved (h, m) (homeTouch k h m line own) := by
  unfold homeTouch
  refine (wcFall_moved k h m line).trans ?_
  generalize wcFall k h m line = q
  obtain ⟨h', m'⟩ := q
  simp only
  split
  · exact .home rfl rfl
  · have hp := (noteMoved_moved k h' m' 256).trans
      (peatPlace_moved k (noteMoved k h' 256) m' (peatLineOf h' line (dramLine m' line) own false))
    exact hp.trans ⟨rfl, rfl, id⟩

end Sys2Proof.Peat

namespace Sys2Proof.Reed

open Sys2Proof.Machine Sys2Proof.Claims Sys2Proof.Peat

variable {s : State}

/-! Writes of raw bytes and the Reed tables. -/

/-- Two states whose homes have the same Reed tables. -/
def SameReed (s t : State) : Prop :=
  ∀ i : Nat, (t.homes[i]?).map (fun h : Home => (h.aliases, h.watches)) = (s.homes[i]?).map fun h : Home => (h.aliases, h.watches)

theorem SameReed.trans {s t u : State} (h1 : SameReed s t) (h2 : SameReed t u) : SameReed s u := fun i => (h2 i).trans (h1 i)

theorem putSector_reed (s : State) (sec : Nat) (x : Sector) (mask : BitVec 64) (c : Option Nat) : SameReed s (putSector s sec x mask c) := by
  intro i
  unfold putSector
  split
  · cases hh : s.homes[homeOf (sec * 64)]? with
    | none => rfl
    | some h =>
      simp only
      have hm := homePut_moved (peatCall s c) h s.mem (sec / 4) (lineSetSec 0 (sec % 4) x) ((mask.setWidth 256) <<< (64 * (sec % 4)))
      generalize homePut (peatCall s c) h s.mem (sec / 4) (lineSetSec 0 (sec % 4) x) ((mask.setWidth 256) <<< (64 * (sec % 4))) = q at hm
      change ((s.homes.set (homeOf (sec * 64)) q.1)[i]?).map _ = _
      rw [List.getElem?_set]
      by_cases hi : homeOf (sec * 64) = i
      · rw [if_pos hi, ← hi, hh, if_pos (List.getElem?_eq_some_iff.1 hh).1, Option.map_some, Option.map_some, hm.aliases, hm.watches]
      · rw [if_neg hi]
  · rfl

theorem putBytes_reed (s : State) (pa : Nat) (bs : List Byte) (c : Option Nat) : SameReed s (putBytes s pa bs c) := by
  have hfold : ∀ (sec : Nat → Nat) (x : Nat → Sector) (mask : Nat → BitVec 64) (l : List Nat) (s : State),
      SameReed s (l.foldl (fun s i => putSector s (sec i) (x i) (mask i) c) s) := by
    intro sec x mask l
    induction l with
    | nil => exact fun s i => rfl
    | cons i l ih => exact fun s => (putSector_reed s _ _ _ _).trans (ih _)
  exact hfold _ _ _ _ s

theorem aliases_of_same {s t : State} (h : SameReed s t) {i : Nat} {k : Home} (hk : s.homes[i]? = some k) :
    ∃ k', t.homes[i]? = some k' ∧ k'.aliases = k.aliases ∧ k'.watches = k.watches := by
  have hi := h i
  rw [hk, Option.map_some, Option.map_eq_some_iff] at hi
  obtain ⟨k', hk', he⟩ := hi
  exact ⟨k', hk', congrArg (·.1) he, congrArg (·.2) he⟩

/-! An entry of one plain grain. -/

section OneGrain

variable {e : AliasEntry} (h : oneGrain e)
include h

theorem entryBlock_oneGrain : entryBlock e = 1 := by
  obtain ⟨-, hx0, hx1, -⟩ := h
  rw [entryBlock, hx0, hx1]
  rfl

theorem blockSource_oneGrain : blockSource e 0 = (e.src * 16, 16) := by
  obtain ⟨-, hx0, hx1, -, hlow⟩ := id h
  simp only [blockSource, entrySource, entryBlock_oneGrain h, hx0, hx1, hlow, Nat.zero_mul, Nat.add_zero, Nat.one_mul]
  rfl

theorem entryReads_oneGrain : entryReads e e.src 1 = true := by
  obtain ⟨hlen, hx0, hx1, -, hlow⟩ := h
  have hn : xf2SrcLen 0 0 16 = 16 := rfl
  simp only [entryReads, entrySource, hlow, hlen, hx0, hx1, Nat.one_mul, hn, decide_eq_true_iff]
  omega

theorem blocksReading_oneGrain : blocksReading e e.src = [0] := by
  obtain ⟨hlen, -, -, -, hlow⟩ := id h
  have hhi : (e.src * 16 + 15 - e.src * 16) / 16 = 0 := by omega
  simp only [blocksReading, blockSource_oneGrain h, entrySource, entryBlock_oneGrain h, hlow, hlen, Nat.add_zero, Nat.lt_irrefl, if_false,
    Nat.sub_self, Nat.zero_div, hhi, Nat.mul_one]
  rfl

omit h in
theorem blockHere_oneGrain (home : Nat) : blockHere home e 0 = decide (homeOf (e.dst * 16) = home) := by
  rw [blockHere, Nat.zero_mul, Nat.add_zero]

omit h in
theorem rawBytes_length (s : State) (g : Nat) : (rawBytes s (g * 16) 16).length = 16 := by
  have hget : ∀ x, (secGet x 0 64).length = 64 := fun x => by rw [secGet, List.length_map, List.length_range]
  simp only [rawBytes, List.length_take, List.length_drop, List.length_flatMap, hget, List.map_const', List.sum_replicate, List.length_range,
    smul_eq_mul]
  omega

theorem materialiseBlock_oneGrain : materialiseBlock s e 0 = putBytes s (e.dst * 16) (rawBytes s (e.src * 16) 16) (ctxOfId s e.ctxid) := by
  obtain ⟨-, hx0, hx1, hlbc, -⟩ := id h
  have happly : ∀ hdr (bs : List Byte), bs.length = 16 → xf2Apply 0 0 hdr bs = bs := by
    intro hdr bs hbs
    have hb : xfSrcBlock 0 = 16 := rfl
    simp only [xf2Apply, if_true, hb, hbs, Nat.div_self, Nat.zero_lt_succ, List.range_one, List.flatMap_cons, List.flatMap_nil,
      List.append_nil, Nat.mul_zero, List.drop_zero]
    rw [← hbs, List.take_length]
    rfl
  simp only [materialiseBlock, blockBytes, blockSource_oneGrain h, hx0, hx1, hlbc, Bool.false_eq_true, false_and, if_false, Nat.zero_mul,
    Nat.add_zero]
  rw [happly _ _ (rawBytes_length s e.src)]

theorem releaseNotice_oneGrain (home : Nat) : releaseNotice s home e 0 1 = { s with net := s.net ++ [.aliasReleaseNotice home e.src 1] } := by
  have h1 : e.src * 16 / 16 = e.src := by omega
  have h2 : (e.src * 16 + 16 * 1 + 15) / 16 - e.src = 1 := by omega
  simp only [releaseNotice, blockSource_oneGrain h, h1, h2]

/-- A whole entry is written out and leaves its home. -/
theorem materialiseEntry_oneGrain {home : Nat} (hh : homeOf (e.dst * 16) = home) : materialiseEntry s home e = grainOut s home e := by
  obtain ⟨hlen, -⟩ := id h
  simp only [materialiseEntry, entryBlock_oneGrain h, hlen, Nat.div_self, Nat.zero_lt_succ, List.range_one, List.foldl_cons, List.foldl_nil,
    blockHere_oneGrain, hh, decide_true, if_true, materialiseBlock_oneGrain h, releaseNotice_oneGrain h]
  rfl

end OneGrain

theorem watchHome_full {home : Nat} {k : Home} (hk : s.homes[home]? = some k) (hal : k.aliases.length ≤ 28672) (hw : k.watches.length ≤ 28672) :
    watchHome s home = s := by
  have h1 : decide (reedHigh < k.aliases.length) = false := decide_eq_false (Nat.not_lt.2 hal)
  have h2 : decide (reedHigh < k.watches.length) = false := decide_eq_false (Nat.not_lt.2 hw)
  simp only [watchHome, hk, h1, h2, Bool.false_and, Bool.or_self, Bool.false_eq_true, if_false]

/-! A destination home gives up the grain's only entry. -/

section OnlyEntry

variable {e : AliasEntry} {home : Nat} {h : Home} (h1 : oneGrain e) (hh : homeOf (e.dst * 16) = home) (hs : s.homes[home]? = some h)
  (ha : h.aliases = [e])
include h1 hh hs ha

theorem aliasFor_only : aliasFor s e.dst = some e := by
  obtain ⟨hlen, -⟩ := h1
  rw [aliasFor, hh, hs, Option.bind_some, ha]
  exact List.find?_cons_of_pos (p := fun e : AliasEntry => _) (by rw [hlen]; simp)

omit hh in
theorem removeBlock_only (hw : h.watches.length ≤ 28672) : removeBlock s home e 0 = { s with
    homes := s.homes.modify home fun h => { h with aliases := h.aliases.filter fun x => x ≠ e }
    net := s.net ++ [.aliasReleaseNotice home e.src 1] } := by
  obtain ⟨hlen, -⟩ := id h1
  have hgone : ∀ l : List AliasEntry, (l.flatMap fun x => if x = e then [] else [x]) = l.filter fun x => x ≠ e := by
    intro l
    induction l with
    | nil => rfl
    | cons x l ih =>
      rw [List.flatMap_cons, ih]
      by_cases hx : x = e
      · rw [if_pos hx, List.filter_cons_of_neg (by simp [hx]), List.nil_append]
      · rw [if_neg hx, List.filter_cons_of_pos (by simp [hx]), List.singleton_append]
  have hkept : (s.homes.modify home fun h => { h with aliases := h.aliases.filter fun x => x ≠ e })[home]? =
      some { h with aliases := h.aliases.filter fun x => x ≠ e } := by
    rw [List.getElem?_modify, hs]
    simp only [if_true, Option.map_eq_map, Option.map_some]
  have hshort : (h.aliases.filter fun x => x ≠ e).length ≤ 28672 := by
    rw [ha]; simp
  simp only [removeBlock, entryBlock_oneGrain h1, hlen, Nat.zero_add, Nat.mul_one, Nat.lt_irrefl, decide_false, Bool.false_eq_true, false_and,
    if_false, if_true, List.append_nil, releaseNotice_oneGrain h1, hgone]
  exact watchHome_full hkept hshort hw

theorem dhomeMaterialise_only (hw : h.watches.length ≤ 28672) : dhomeMaterialiseGrain s home e.src = grainOut s home e := by
  have hsame := putBytes_reed s (e.dst * 16) (rawBytes s (e.src * 16) 16) (ctxOfId s e.ctxid)
  obtain ⟨k, hk, hka, hkw⟩ := aliases_of_same hsame hs
  have hhere : ([0].filter (blockHere home e)).map (fun i => e.dst + i * 1) = [e.dst] := by
    rw [List.filter_cons_of_pos (by rw [blockHere_oneGrain, hh]; exact decide_eq_true rfl)]
    rfl
  have hreads : [e].filter (fun x => entryReads x e.src 1) = [e] :=
    List.filter_cons_of_pos (p := fun x : AliasEntry => entryReads x e.src 1) (entryReads_oneGrain h1)
  have hindex : blockIndex e e.dst = 0 := by rw [blockIndex, Nat.sub_self, Nat.zero_div]
  simp only [dhomeMaterialiseGrain, hs, Option.map_some, Option.getD_some, ha, hreads,
    List.flatMap_cons, List.flatMap_nil, List.append_nil, blocksReading_oneGrain h1, entryBlock_oneGrain h1, hhere, List.foldl_cons,
    List.foldl_nil, aliasFor_only h1 hh hs ha, hindex, materialiseBlock_oneGrain h1]
  exact removeBlock_only h1 hk (hka.trans ha) (by rw [hkw]; exact hw)

end OnlyEntry

/-- The oldest entry, where every other is younger. -/
theorem oldestAlias_eq {e : AliasEntry} {l : List AliasEntry} (he : e ∈ l) (hall : ∀ x ∈ l, x ≠ e → e.wts < x.wts) : oldestAlias l = some e := by
  have hfold : ∀ (l : List AliasEntry) (o : AliasEntry), o = e ∨ e.wts < o.wts ∧ e ∈ l → (∀ x ∈ l, x ≠ e → e.wts < x.wts) →
      l.foldl (fun acc x => match acc with
        | none => some x
        | some o => if x.wts < o.wts then some x else some o) (some o) = some e := by
    intro l
    induction l with
    | nil =>
      rintro o (rfl | ⟨-, he⟩) _
      · rfl
      · cases he
    | cons x l ih =>
      intro o ho hall
      have hrest : ∀ y ∈ l, y ≠ e → e.wts < y.wts := fun y hy => hall y (List.mem_cons_of_mem _ hy)
      rw [List.foldl_cons]
      by_cases hx : x = e
      · subst hx
        rcases ho with rfl | ⟨hlt, -⟩
        · simp only [Nat.lt_irrefl, if_false]
          exact ih _ (.inl rfl) hrest
        · simp only [hlt, if_true]
          exact ih _ (.inl rfl) hrest
      · have hlt := hall x List.mem_cons_self hx
        rcases ho with rfl | ⟨ho, he⟩
        · simp only [Nat.not_lt.2 (Nat.le_of_lt hlt), if_false]
          exact ih _ (.inl rfl) hrest
        · have he' : e ∈ l := (List.mem_cons.1 he).resolve_left (Ne.symm hx)
          by_cases hxo : x.wts < o.wts
          · simp only [hxo, if_true]
            exact ih _ (.inr ⟨hlt, he'⟩) hrest
          · simp only [hxo, if_false]
            exact ih _ (.inr ⟨ho, he'⟩) hrest
  cases l with
  | nil => cases he
  | cons x l =>
    refine hfold l x ?_ fun y hy => hall y (List.mem_cons_of_mem _ hy)
    by_cases hx : x = e
    · exact .inl hx
    · exact .inr ⟨hall x List.mem_cons_self hx, (List.mem_cons.1 he).resolve_left (Ne.symm hx)⟩

/-- A source block's line stands in its home's Peat. -/
theorem touchSector_hit {sec : Nat} {h : Home} (hd : sec * 64 < dramEnd) (hs : s.homes[homeOf (sec * 64)]? = some h)
    (hwc : ∀ w ∈ h.wc, w.line ≠ sec / 4) (hp : ∃ p ∈ h.peat, p.line = sec / 4) (hc : ∀ c ∈ s.contexts, c.windows = []) :
    touchSector s sec none = { s with homes := s.homes.set (homeOf (sec * 64)) { h with
      peatHits := h.peatHits + 1
      peat := h.peat.map fun p => if p.line = sec / 4 then { p with used := s.clk } else p } } := by
  have hfall : wcFall (peatCall s none) h s.mem (sec / 4) = (h, s.mem) := by
    have hnone : h.wc.find? (fun w => w.line = sec / 4) = none := by
      rw [List.find?_eq_none]
      intro w hw
      simpa using hwc w hw
    rw [wcFall, hnone]
  obtain ⟨p, hp, hline⟩ := hp
  have hfound : (h.peat.find? fun p => p.line = sec / 4).isSome := by
    rw [List.find?_isSome]
    exact ⟨p, hp, decide_eq_true hline⟩
  obtain ⟨q, hq⟩ := Option.isSome_iff_exists.1 hfound
  have hwin : ∀ t : State, t.contexts = s.contexts → windowHit t (sec / 4) = t := by
    intro t ht
    have hmap : t.contexts.map (fun c => if c.windows.any fun w => w.pages.contains (sec / 4 / 256) then
        { c with windows := c.windows.map fun w => if w.pages.contains (sec / 4 / 256) then { w with hit := true } else w } else c) =
        t.contexts := by
      refine (List.map_congr_left fun c hcm => ?_).trans (List.map_id _)
      rw [ht] at hcm
      rw [hc c hcm]
      rfl
    rw [windowHit, hmap]
  simp only [touchSector, touchLine, if_pos hd, hs, homeTouch, hfall, hq]
  exact hwin _ rfl

/-- Settles O40: each event of the Reed tables, on an entry of one plain grain. -/
theorem reedEvents : Obligations.ReedEvents := by
  refine ⟨?_, ?_, ?_, ?_, ?_, ?_, ?_, ?_⟩
  · intro s home sec h hd hs hwc hp hc
    exact congrArg _ (touchSector_hit hd hs hwc hp hc)
  · intro s dhome h e hs ha hw h1 hh
    exact congrArg _ (dhomeMaterialise_only h1 hh hs ha hw)
  · intro s dhome g h hs hnone
    refine congrArg Host.Outcome.next ?_
    have hf : h.aliases.filter (fun e => entryReads e g 1) = [] := by
      rw [List.filter_eq_nil_iff]
      intro e he
      rw [hnone e he]; exact Bool.false_ne_true
    simp only [dhomeMaterialiseGrain, hs, Option.map_some, Option.getD_some, hf, List.flatMap_nil, List.foldl_nil]
  · intro s home g n h hs
    refine congrArg Host.Outcome.next ?_
    have hfree : ∀ k : Home, k.watches.filter (fun w => !decide (w.dhome = home ∧ w.src < g + n ∧ g < w.src + w.len) ||
        h.aliases.any fun e => entryReads e w.src w.len) = k.watches.filter fun w =>
        decide (w.dhome ≠ home) || decide (g + n ≤ w.src) || decide (w.src + w.len ≤ g) || h.aliases.any fun e => entryReads e w.src w.len := by
      intro k
      refine List.filter_congr fun w _ => congrArg (· || _) ?_
      rw [Bool.eq_iff_iff]
      simp only [Bool.not_eq_true', decide_eq_false_iff_not, Bool.or_eq_true, decide_eq_true_eq]
      omega
    simp only [freeWatches, hs, Option.map_some, Option.getD_some, hfree]
  · intro s home h e hs ha h1 hh t
    refine congrArg Host.Outcome.next ?_
    have hin : (decide (e.dst ≤ e.dst) && decide (e.dst < e.dst + e.len)) = true := by rw [h1.1]; simp
    simp only [hotMaterialiseOf, hs, Option.map_some, Option.bind_some, ha,
      List.find?_cons_of_pos (p := fun x : AliasEntry => decide (x.dst ≤ e.dst) && decide (e.dst < x.dst + x.len)) hin,
      materialiseEntry_oneGrain h1 hh]
    rfl
  · intro s home g h hs hnone
    refine congrArg Host.Outcome.next ?_
    have hf : h.aliases.find? (fun e => decide (e.dst ≤ g) && decide (g < e.dst + e.len)) = none := by
      rw [List.find?_eq_none]
      intro e he
      have := hnone e he
      simp only [Bool.and_eq_true, decide_eq_true_eq]
      omega
    simp only [hotMaterialiseOf, hs, Option.map_some, Option.bind_some, hf]
  · intro s home h e hs hdr hdw hlen he hall h1 hh t
    refine congrArg Host.Outcome.next ?_
    have hlow : decide (reedLow < h.aliases.length) = true := decide_eq_true hlen
    simp only [drainOne, hs, hdr, hdw, hlow, Bool.and_self, Bool.false_and, if_true, oldestAlias_eq he hall, Option.map_some,
      materialiseEntry_oneGrain h1 hh]
    rfl
  · intro s home h hs ha hw
    refine congrArg Host.Outcome.next ?_
    have h1 : decide (reedLow < h.aliases.length) = false := decide_eq_false (Nat.not_lt.2 ha)
    have h2 : decide (reedLow < h.watches.length) = false := decide_eq_false (Nat.not_lt.2 hw)
    simp only [drainOne, hs, h1, h2, Bool.and_false, Bool.false_eq_true, if_false]
    rfl

end Sys2Proof.Reed

/-! SUPPORT. Statement settled: operations of the tile engine (R179, R180, R182, R186 to R188, R191). -/

namespace Sys2Proof.TileWork

open Sys2Proof.Machine Sys2Proof.Claims

variable {s : State} {die site : Nat} {o : TileOp} {c : Core} {t : Acc32}

/-- What a core is after a change, by its value before. -/
theorem coreAt_changed {f : Core → Core} {x : Core} (hc : coreAt s die site = c) (hf : f c = x) (hd : x.die = c.die) (hs : x.site = c.site) :
    coreAt (modCore s die site f) die site = x := by
  have hm : modCore s die site f = modCore s die site fun k => { x with die := k.die, site := k.site } := by
    simp only [modCore, hc, hf, ← hd, ← hs]
  have hat := coreAt_modCore s die site (fun k => { x with die := k.die, site := k.site }) fun _ => ⟨rfl, rfl⟩
  rw [hm, hat, hc, ← hd, ← hs]

theorem modify_set {α : Type} {f : α → α} {x : α} {l : List α} {i : Nat} (h : l[i]? = some x) : l.modify i f = l.set i (f x) := by
  apply List.ext_getElem?
  intro j
  rw [List.getElem?_modify, List.getElem?_set]
  by_cases hij : i = j
  · subst hij
    rw [h, if_pos rfl, if_pos (List.getElem?_eq_some_iff.1 h).1]
    simp only [if_true, Option.map_eq_map, Option.map_some]
  · simp only [hij, if_false, Option.map_eq_map, Option.map_id']

/-! The queue of a core. -/

theorem tileOp_only (hc : coreAt s die site = c) (ho : c.ops = [o]) : tileOp s die site o.id = some o := by
  rw [tileOp, hc, ho]
  exact List.find?_cons_of_pos (p := fun x : TileOp => decide (x.id = o.id)) (decide_eq_true rfl)

theorem opStartable_only : opStartable [o] o = true := if_pos rfl

/-- An operation behind one that it clashes with does not start. -/
theorem tileIssue_behind {p : TileOp} (hc : coreAt s die site = c) (ho : c.ops = [p, o]) (hid : p.id ≠ o.id) (hs : o.started = false)
    (ht : opTarget p = opTarget o) : tileIssue s die site o.id = s := by
  have hop : tileOp s die site o.id = some o := by
    rw [tileOp, hc, ho, List.find?_cons_of_neg (p := fun x : TileOp => decide (x.id = o.id)) (by simpa using hid)]
    exact List.find?_cons_of_pos (p := fun x : TileOp => decide (x.id = o.id)) (decide_eq_true rfl)
  have hclash : opsClash p o = true := by
    have hmem : (opNames o).contains (opTarget p) = true := List.contains_iff_mem.2 (by rw [ht]; exact List.mem_cons_self)
    rw [opsClash, hmem, Bool.true_or, Bool.true_or, Bool.true_or]
  have hwait : opStartable [p, o] o = false := by rw [opStartable, if_neg hid, if_pos hclash]
  simp only [tileIssue, hop, hc, ho, hs, hwait, Bool.not_false, Bool.true_or, Bool.false_eq_true, if_false, if_true]

/-! The start of an operation. -/

/-- Only the entry that an operation writes or reads out may keep a decoder's slot from it. -/
theorem decoderFills_only (ho : c.ops = [o]) (hn : opReads o = []) (hq : opQueue o = none) : decoderFills c o = false := by
  have hany : (c.ops.any fun p => opTarget p = opTarget o) = true := by rw [ho]; simp
  have hnames : opNames o = [opTarget o] := by rw [opNames, hn, hq]; rfl
  simp only [decoderFills, hnames, List.any_cons, List.any_nil, hany, Bool.not_true, Bool.and_false, Bool.or_false]

theorem startTileOp_slot {x : Tensor} (ht : o.tensor = some x) (hop : o.opc = 0xD2#8) (hbit : o.form.mod.getLsbD 1 = false) :
    startTileOp c o = { o with started := true, todo := touchedBlocks 64 (windowRanges x o.cval (shapeOf x o.cval)) } := by
  simp only [startTileOp, ht, opShape, if_pos hop, if_pos (And.intro hop (by rw [hbit]; rfl : (!o.form.mod.getLsbD 1) = true))]

/-- The state in which an operation has started. -/
def startedState (s : State) (die site : Nat) (o : TileOp) : State :=
  modCore (putTileOp s die site (startTileOp (coreAt s die site) o)) die site fun k =>
    if ownsTarget k o then setTileState k (opTarget o) (opState o) else k

/-- An operation that owns its target starts, and the target is being filled. -/
theorem tileIssue_starts (hc : coreAt s die site = c) (ho : c.ops = [o]) (hs : o.started = false) (hh : o.held = false)
    (hfill : decoderFills c o = false) (howns : tileClaim c (opTarget o) = some o.team) (hst : opState o = .filling)
    (hkeep : (startTileOp c o).id = o.id ∧ (startTileOp c o).held = false) :
    ∃ u, exec (.tileOperationIssue die site o.id) s = .next u ∧
      coreAt u die site = setTileState { c with ops := [startTileOp c o] } (opTarget o) .filling ∧
      u.threads = s.threads ∧ u.mem = s.mem ∧ u.homes = s.homes := by
  have hheld : { startTileOp c o with held := false } = startTileOp c o := by rw [← hkeep.2]
  have hput : coreAt (putTileOp s die site (startTileOp c o)) die site = { c with ops := [startTileOp c o] } := by
    refine coreAt_changed hc ?_ rfl rfl
    simp only [ho, List.map_cons, List.map_nil, hkeep.1, if_true]
  have hclaim : ∀ k : Core, k.slots = c.slots → k.accs = c.accs → k.mqs = c.mqs → ownsTarget k o = true := by
    intro k h1 h2 h3
    rw [ownsTarget, tileClaim, h1, h2, h3]
    exact decide_eq_true howns
  refine ⟨startedState s die site o, congrArg Host.Outcome.next ?_, ?_, ?_, ?_, ?_⟩
  · simp only [tileIssue, tileOp_only hc ho, hc, hs, hh, ho, opStartable_only, hfill, Bool.not_true, Bool.or_self, Bool.false_eq_true, if_false,
      hheld, startedState]
  · rw [startedState, hc]
    refine coreAt_changed hput ?_ (Tiles.modTile_keeps _ _ _ _ _).2.1 (Tiles.modTile_keeps _ _ _ _ _).2.2
    exact (if_pos (hclaim _ rfl rfl rfl)).trans (by rw [hst])
  · simp only [startedState, putTileOp, modCore_threads]
  · simp only [startedState, putTileOp, modCore_mem]
  · simp only [startedState, putTileOp, modCore_homes]

theorem claim_tile {a : Nat} (ha : a < 16) (ht : c.accs[a]? = some t) : tileClaim c (0x40 + a) = t.claim := by
  rw [tileClaim, if_neg (by omega), if_pos (by omega), Nat.add_sub_cancel_left, ht]
  rfl

theorem claim_slot {a : Nat} {x : Slot} (ha : a < 64) (hx : c.slots[a]? = some x) : tileClaim c a = x.claim := by
  rw [tileClaim, if_pos (by omega), hx]
  rfl

theorem setState_tile {a : Nat} (ha : a < 16) (ht : c.accs[a]? = some t) (x : TileState) :
    setTileState c (0x40 + a) x = { c with accs := c.accs.set a { t with state := x } } := by
  rw [setTileState, modTile, if_neg (by omega), if_pos (by omega), Nat.add_sub_cancel_left, modAt, modify_set ht]

theorem setState_slot {a : Nat} {y : Slot} (ha : a < 64) (hy : c.slots[a]? = some y) (x : TileState) :
    setTileState c a x = { c with slots := c.slots.set a { y with state := x } } := by
  rw [setTileState, modTile, if_pos (by omega), modAt, modify_set hy]

/-! A load's next sector. -/

theorem tileIssue_reads {v pa key : Nat} {rest : List Nat} (hc : coreAt s die site = c) (ho : c.ops = [o]) (hs : o.started = true)
    (htodo : o.todo = v :: rest) (hx : opXlat o (v * 64) = (pa, key, false)) (hl : lockHit s [(pa, 64)] = []) :
    tileIssue s die site o.id =
      (let rd := readNow s (pa / 64) (some o.ctx) o.ts
       let bad := (pa / 64 :: sourceSectors s (pa / 64)).any fun x => (readMark s 0 x key).isSome
       putTileOp rd.1 die site { o with todo := rest, secs := (v, rd.2.1, bad) :: o.secs, ts := max o.ts rd.2.2 }) := by
  have hfree : (lockHitOf s (opMember o) none [(pa, 64)]).isEmpty = true := by rw [lockHitOf, hl]; rfl
  simp only [tileIssue, tileOp_only hc ho, hs, if_true, tileProgress, htodo, tldSector, hx, hfree, Bool.not_true, Bool.false_eq_true, if_false,
    Bool.false_and, Bool.or_false]

theorem tileIssue_locked {v pa key : Nat} {rest : List Nat} {k : RangeLock} (hc : coreAt s die site = c) (ho : c.ops = [o])
    (hs : o.started = true) (htodo : o.todo = v :: rest) (hx : opXlat o (v * 64) = (pa, key, false)) (hk : k ∈ lockHit s [(pa, 64)])
    (hf : fallbackLock s (opMember o) ≠ some k.op) : tileIssue s die site o.id = s := by
  have hheld : (lockHitOf s (opMember o) none [(pa, 64)]).isEmpty = false := by
    have hmem : k ∈ lockHitOf s (opMember o) none [(pa, 64)] := List.mem_filter.2 ⟨hk, by simp [hf]⟩
    cases hl : lockHitOf s (opMember o) none [(pa, 64)] with
    | nil => rw [hl] at hmem; cases hmem
    | cons _ _ => rfl
  simp only [tileIssue, tileOp_only hc ho, hs, if_true, tileProgress, htodo, tldSector, hx, hheld, Bool.not_false]

/-! The end of an operation. -/

/-- An operation with nothing left to read, write or pop ends. -/
theorem tileComplete_ends (hc : coreAt s die site = c) (ho : c.ops = [o]) (hs : o.started = true) (ht : o.todo = []) (hw : o.writes = [])
    (hq : opQueue o = none) : tileComplete s die site o.id = finishTileOp s die site o := by
  have hop := tileOp_only hc ho
  have hpops : popsLeft (coreAt s die site) o = false := by rw [popsLeft, hq]; rfl
  have hdone : ∀ n, tileProgressN n s die site o.id = s := by
    intro n
    cases n with
    | zero => rfl
    | succ n => simp only [tileProgressN, hop, ht, hw, List.isEmpty_nil, hpops, Bool.not_false, Bool.and_self, if_true]
  simp only [tileComplete, hop, hs, hdone, ht, hw, List.isEmpty_nil, hpops, Bool.not_true, Bool.not_false, Bool.and_self, Bool.false_eq_true,
    if_false, if_true]

/-- A team with a living thread keeps its entries. -/
theorem settleClaims_alive {team u : Nat} {th : Thread} (hg : teamGone s team = false) (hm : u ∈ teamThreads s team) (hth : s.threads[u]? = some th)
    (hx : th.exited = false) : settleClaims s die site team = s := by
  have hall : ((teamThreads s team).all fun t => threadExited s t) = false := by
    rw [List.all_eq_false]
    exact ⟨u, hm, by rw [threadExited, hth]; simp [hx]⟩
  simp only [settleClaims, hg, hall, Bool.or_self, Bool.false_eq_true, if_false]

theorem groupThreads_modify {g : Thread → Thread} (hg : ∀ th, (g th).group = th.group) (u x : Nat) :
    groupThreads { s with threads := s.threads.modify u g } x = groupThreads s x := by
  have hidx : ∀ (l : List Thread) (i u : Nat), indicesOf (fun th => th.group = x) i (l.modify u g) = indicesOf (fun th => th.group = x) i l := by
    intro l
    induction l with
    | nil => intro i u; cases u <;> rfl
    | cons th l ih =>
      intro i u
      cases u with
      | zero => simp only [List.modify_zero_cons, indicesOf, hg]
      | succ u => simp only [List.modify_succ_cons, indicesOf, ih]
  exact hidx _ _ _

theorem teamThreads_modify {g : Thread → Thread} (hg : ∀ th, (g th).group = th.group) (u m : Nat) :
    teamThreads { s with threads := s.threads.modify u g } m = teamThreads s m := by
  unfold teamThreads
  simp only
  split
  · simp only [groupThreads_modify hg]
  · rfl

/-- A signer whose operation has ended at a time. -/
def signerDone (ts : Nat) (th : Thread) : Thread := { th with ptime := max th.ptime ts, tl := th.tl - 1 }

section Finish

variable {g : Signature} {th : Thread} (hc : coreAt s die site = c) (hsig : o.signers = [g]) (hth : s.threads[g.tid]? = some th)
  (hgone : teamGone s o.team = false) (hmem : g.tid ∈ teamThreads s o.team) (hx : th.exited = false) (hop : o.opc ≠ 0xD7#8)
include hc hsig hth hgone hmem hx hop

/-- The core takes the operation's effect, and its only signer's tl falls. -/
theorem finishTileOp_core (hkeep : (stampTile (dropTileOp (tileEffect c o) o) (opTarget o) o.ts).die = c.die ∧
      (stampTile (dropTileOp (tileEffect c o) o) (opTarget o) o.ts).site = c.site) :
    coreAt (finishTileOp s die site o) die site = stampTile (dropTileOp (tileEffect c o) o) (opTarget o) o.ts ∧
      (finishTileOp s die site o).threads = s.threads.modify g.tid (fun th => { th with ptime := max th.ptime o.ts, tl := th.tl - 1 }) ∧
      (finishTileOp s die site o).mem = s.mem ∧ (finishTileOp s die site o).homes = s.homes := by
  obtain ⟨cs, hcs⟩ := modCore_cores s die site fun c => stampTile (dropTileOp (tileEffect c o) o) (opTarget o) o.ts
  have hat := coreAt_changed hc rfl hkeep.1 hkeep.2 (f := fun c => stampTile (dropTileOp (tileEffect c o) o) (opTarget o) o.ts)
  rw [hcs] at hat
  have hthreads : (s.threads.modify g.tid fun th => { th with ptime := max th.ptime o.ts }).modify g.tid (lowered .tl) =
      s.threads.modify g.tid (signerDone o.ts) := List.modify_modify_eq _ _ _ _
  have hlow : lowerCtr (raisePtime { s with cores := cs } g.tid o.ts) g.tid .tl = { s with
      cores := cs, threads := s.threads.modify g.tid (signerDone o.ts) } := by
    rw [← hthreads]
    rfl
  have hsame : teamThreads { s with cores := cs, threads := s.threads.modify g.tid (signerDone o.ts) } o.team = teamThreads s o.team :=
    teamThreads_modify (s := { s with cores := cs }) (g := signerDone o.ts) (fun _ => rfl) g.tid o.team
  have hth' : (s.threads.modify g.tid (signerDone o.ts))[g.tid]? = some (signerDone o.ts th) := by
    rw [List.getElem?_modify, hth]
    simp only [if_true, Option.map_eq_map, Option.map_some]
  have hfin : finishTileOp s die site o = { s with cores := cs, threads := s.threads.modify g.tid (signerDone o.ts) } := by
    simp only [finishTileOp, if_neg hop, hcs, hsig, List.foldl_cons, List.foldl_nil, hlow]
    exact settleClaims_alive (s := { s with cores := cs, threads := s.threads.modify g.tid (signerDone o.ts) }) hgone (by rw [hsame]; exact hmem)
      hth' hx
  rw [hfin]
  exact ⟨hat, rfl, rfl, rfl⟩

end Finish

/-- An operation that its team still owns the tile of leaves it ready, at its time. -/
theorem dropped_tile {a : Nat} {u : Acc32} (ha : a < 16) (ht : c.accs[a]? = some u) (hcl : u.claim = some o.team) (htar : opTarget o = 0x40 + a)
    (ho : c.ops = [o]) : stampTile (dropTileOp c o) (opTarget o) o.ts =
      { c with ops := [], accs := c.accs.set a { u with state := .ready, ts := max u.ts o.ts } } := by
  have hempty : c.ops.filter (fun p => p.id ≠ o.id) = [] := by rw [ho]; simp
  have ht' : ({ c with ops := [] } : Core).accs[a]? = some u := ht
  have howns : ownsTarget { c with ops := [] } o = true := by
    rw [ownsTarget, htar, claim_tile ha ht', hcl]
    exact decide_eq_true rfl
  have hset : (c.accs.set a { u with state := .ready })[a]? = some { u with state := .ready } := by
    rw [List.getElem?_set, if_pos rfl, if_pos (List.getElem?_eq_some_iff.1 ht).1]
  simp only [dropTileOp, hempty, howns, if_true, List.find?_nil, htar, setState_tile ha ht']
  rw [stampTile, modTile, if_neg (by omega), if_pos (by omega), Nat.add_sub_cancel_left, modAt, modify_set hset, List.set_set]

/-- The same of an operation whose effect is on its tile alone. -/
theorem finished_tile {a : Nat} {u : Acc32} (heff : tileEffect c o = { c with accs := c.accs.set a u }) (ha : a < 16) (ht : c.accs[a]? = some t)
    (hcl : u.claim = some o.team) (htar : opTarget o = 0x40 + a) (ho : c.ops = [o]) :
    stampTile (dropTileOp (tileEffect c o) o) (opTarget o) o.ts =
      { c with ops := [], accs := c.accs.set a { u with state := .ready, ts := max u.ts o.ts } } := by
  have hset : (c.accs.set a u)[a]? = some u := by rw [List.getElem?_set, if_pos rfl, if_pos (List.getElem?_eq_some_iff.1 ht).1]
  rw [heff, dropped_tile (c := { c with accs := c.accs.set a u }) ha hset hcl htar ho, List.set_set]

/-! The effects. -/

/-- The accumulator that `TZERO` leaves. -/
def zeroed (u : Acc32) : Acc32 := { u with elems := List.replicate 16384 0, poisoned := false, damaged := false }

theorem effect_tzero {u : Acc32} (hop : o.opc = 0xD4) (ht : c.accs[o.form.a.toNat]? = some u) :
    tileEffect c o = { c with accs := c.accs.set o.form.a.toNat (zeroed u) } := by
  rw [tileEffect, hop]
  exact congrArg (fun l => { c with accs := l }) (modify_set ht)

/-- The accumulator that a product of good slots leaves. -/
def multiplied (o : TileOp) (a b : Slot) (u : Acc32) : Acc32 :=
  { u with elems := productElems o a b u.elems, damaged := u.damaged || a.damaged || b.damaged }

theorem poisonRows_none (l : List Word) : poisonRows [] [] l = l := by
  apply List.ext_getElem?
  intro n
  rw [poisonRows, List.getElem?_mapIdx]
  cases l[n]? <;> rfl

theorem effect_product {u : Acc32} {a b : Slot} (hop : o.opc = 0xD5) (ht : c.accs[o.form.a.toNat]? = some u)
    (ha : c.slots[o.form.b.toNat]? = some a) (hb : c.slots[o.form.c.toNat]? = some b) (hab : a.banks = 0) (hbb : b.banks = 0)
    (hbe : o.bankErrors = []) (hre : o.rowErrors = []) :
    tileEffect c o = { c with accs := c.accs.set o.form.a.toNat (multiplied o a b u) } := by
  have herr : productErrors o a b = [] := by
    rw [productErrors, List.filterMap_eq_nil_iff]
    intro n _
    rw [hab, hbb, hbe]
    simp
  have hslots : c.slots.modify o.form.c.toNat (fun x => { x with banks := x.banks ||| 0, poisoned := x.poisoned || (0 : BitVec 8) ≠ 0#8 }) =
      c.slots := by
    rw [modify_set hb]
    have hsame : ({ b with banks := b.banks ||| 0, poisoned := b.poisoned || (0 : BitVec 8) ≠ 0#8 } : Slot) = b := by
      rw [show b.banks ||| 0 = b.banks from BitVec.or_zero]
      simp
    obtain ⟨hlt, hget⟩ := List.getElem?_eq_some_iff.1 hb
    rw [hsame, ← hget]
    exact List.set_getElem_self hlt
  have haccs : c.accs.modify o.form.a.toNat (fun t => { t with
      elems := poisonRows [] [] (productElems o a b t.elems), poisoned := t.poisoned || false
      cause := if t.poisoned then t.cause else t.cause, damaged := t.damaged || a.damaged || b.damaged }) =
      c.accs.set o.form.a.toNat (multiplied o a b u) := by
    rw [modify_set ht, poisonRows_none, Bool.or_false, ite_self]
    rfl
  have hprod : tileEffect c o = runProduct c o := by rw [tileEffect, hop]; rfl
  rw [hprod]
  simp only [runProduct, ha, hb, herr, hbe, hre, productCause, List.map_nil, List.foldl_nil, Option.isSome_none, Option.getD_none, modAt]
  exact congrArg₂ (fun x y => { c with accs := x, slots := y }) haccs hslots

/-- Settles O41: operations start, read, wait and end as their entries and signers say. -/
theorem tileOperations : Obligations.TileOperations := by
  refine ⟨?_, ?_, ?_, ?_, ?_, ?_, ?_⟩
  · intro s die site o c t hc ho hs hh hop htensor ha ht hcl
    have htar : opTarget o = 0x40 + o.form.a.toNat := by rw [opTarget, hop]; rfl
    have hstart : startTileOp c o = { o with started := true } := by simp only [startTileOp, htensor]
    obtain ⟨u, hu, hcore, hrest⟩ := tileIssue_starts hc ho hs hh (decoderFills_only ho (by rw [opReads, hop]; rfl) (by rw [opQueue, hop]; rfl))
      (by rw [htar, claim_tile ha ht, hcl]) (by rw [opState, hop]; rfl) (by rw [hstart]; exact ⟨rfl, hh⟩)
    refine ⟨u, hu, ?_, hrest⟩
    rw [hcore, htar, hstart]
    exact setState_tile (c := { c with ops := [{ o with started := true }] }) ha ht .filling
  · intro s die site o c x t hc ho hs hh hop hbit htensor ha ht hcl
    have htar : opTarget o = o.form.a.toNat := by rw [opTarget, hop]; exact if_neg (by rw [hbit]; exact Bool.false_ne_true)
    have hstart : startTileOp c o = { o with started := true, todo := touchedBlocks 64 (windowRanges x o.cval (shapeOf x o.cval)) } := by
      exact startTileOp_slot htensor hop hbit
    obtain ⟨u, hu, hcore, hrest⟩ := tileIssue_starts hc ho hs hh (decoderFills_only ho (by rw [opReads, hop]; rfl) (by rw [opQueue, hop]; rfl))
      (by rw [htar, claim_slot ha ht, hcl]) (by rw [opState, hop]; rfl) (by rw [hstart]; exact ⟨rfl, hh⟩)
    refine ⟨u, hu, ?_, hrest⟩
    rw [hcore, htar, hstart]
    exact setState_slot (c := { c with ops := [{ o with started := true, todo := touchedBlocks 64 (windowRanges x o.cval (shapeOf x o.cval)) }] })
      ha ht .filling
  · intro s die site o p c hc ho hid hs ht
    exact congrArg _ (tileIssue_behind hc ho hid hs ht)
  · intro s die site o c v rest pa key hc ho hs htodo hx
    exact ⟨fun hl => congrArg Host.Outcome.next (tileIssue_reads hc ho hs htodo hx hl),
      fun k hk hf => congrArg Host.Outcome.next (tileIssue_locked hc ho hs htodo hx hk hf)⟩
  · intro s die site o c t g th hc ho hs htodo hw hsig hth hgone hmem hx hop ha ht hcl
    have htar : opTarget o = 0x40 + o.form.a.toNat := by rw [opTarget, hop]; rfl
    have hdrop := finished_tile (u := zeroed t) (effect_tzero hop ht) ha ht hcl htar ho
    obtain ⟨hcore, hrest⟩ := finishTileOp_core hc hsig hth hgone hmem hx (by rw [hop]; decide) (by rw [hdrop]; exact ⟨rfl, rfl⟩)
    refine ⟨_, congrArg Host.Outcome.next (tileComplete_ends hc ho hs htodo hw (by rw [opQueue, hop]; rfl)), ?_, hrest⟩
    rw [hcore, hdrop]
    rfl
  · intro s die site o c t a b g th hc ho hs htodo hw hsig hth hgone hmem hx hop ha ht hcl hsa hsb hab hbb hbe hre
    have htar : opTarget o = 0x40 + o.form.a.toNat := by rw [opTarget, hop]; rfl
    have hdrop := finished_tile (u := multiplied o a b t) (effect_product hop ht hsa hsb hab hbb hbe hre) ha ht hcl htar ho
    obtain ⟨hcore, hrest⟩ := finishTileOp_core hc hsig hth hgone hmem hx (by rw [hop]; decide) (by rw [hdrop]; exact ⟨rfl, rfl⟩)
    refine ⟨_, congrArg Host.Outcome.next (tileComplete_ends hc ho hs htodo hw (by rw [opQueue, hop]; rfl)), ?_, hrest⟩
    rw [hcore, hdrop]
    rfl
  · intro s die site o hop hs
    refine congrArg Host.Outcome.next ?_
    simp only [tileComplete, hop, hs, Bool.not_false, if_true]

end Sys2Proof.TileWork

/-! SUPPORT. Statement settled: the window spill unit (R18, R27, R219, R232). -/

namespace Sys2Proof.WindowMoves

open Sys2Proof.Machine Sys2Proof.Claims

variable {s s1 : State} {t n d : Nat} {th u : Thread} {i : TrapInfo} {w : Wait}

/-! SPILL. -/

section Spill

variable (ht : s.threads[t]? = some th) (hw : th.wait = .spill n) (hr : windowReady s t th = true)
include ht hw hr

theorem spillUnit_done (hs : spillFrames t (spillDepths s t n th) s = (s1, none)) : spillUnit s t =
    modThread s1 t fun u => becomeReady { u with resident := u.resident + (spillDepths s t n th).length } (s1.clk + 1) := by
  simp only [spillUnit, ht, hw, hr, if_true, hs]

theorem spillUnit_trap (hs : spillFrames t (spillDepths s t n th) s = (s1, some (.trap i))) (hu : s1.threads[t]? = some u) :
    spillUnit s t = takeTraps (holdAt s1 t .ready) [waitingReq s1 t u i] := by
  simp only [spillUnit, ht, hw, hr, if_true, hs, waitingTrap, hu]

theorem spillUnit_hold (hs : spillFrames t (spillDepths s t n th) s = (s1, some (.hold w))) : spillUnit s t = s := by
  simp only [spillUnit, ht, hw, hr, if_true, hs]

end Spill

/-! FILL. -/

section Fill

variable (ht : s.threads[t]? = some th) (hw : th.wait = .fill d) (hr : windowReady s t th = true)
include ht hw hr

theorem fillUnit_done (hs : fillDown t (th.resident + 1) d s = .ok s1) :
    fillUnit s t = modThread s1 t fun u => becomeReady u (s1.clk + 1) := by
  simp only [fillUnit, ht, hw, hr, if_true, hs]

theorem fillUnit_trap (hs : fillDown t (th.resident + 1) d s = .error (.trap i)) :
    fillUnit s t = takeTraps (holdAt s t .ready) [waitingReq s t th i] := by
  simp only [fillUnit, ht, hw, hr, if_true, hs, waitingTrap]

theorem fillUnit_hold (hs : fillDown t (th.resident + 1) d s = .error (.hold w)) : fillUnit s t = s := by
  simp only [fillUnit, ht, hw, hr, if_true, hs]

end Fill

/-- While the unit cannot serve a thread, the thread waits. -/
theorem units_wait (ht : s.threads[t]? = some th) (hr : windowReady s t th = false) : spillUnit s t = s ∧ fillUnit s t = s := by
  refine ⟨?_, ?_⟩
  · simp only [spillUnit, ht, hr, Bool.false_eq_true, if_false]
    split <;> rfl
  · simp only [fillUnit, ht, hr, Bool.false_eq_true, if_false]
    split <;> rfl

/-! The frames that leave. -/

/-- The first of some numbers that passes a test, or their end. -/
theorem find_range (p : Nat → Bool) (m : Nat) :
    ((List.range m).find? p).getD m ≤ m ∧ ∀ k, k < ((List.range m).find? p).getD m → p k = false := by
  cases hf : (List.range m).find? p with
  | none =>
    rw [List.find?_eq_none] at hf
    exact ⟨Nat.le_refl _, fun k hk => by simpa using hf k (List.mem_range.2 hk)⟩
  | some x =>
    have hx := List.mem_range.1 (List.mem_of_find?_eq_some hf)
    refine ⟨Nat.le_of_lt hx, fun k hk => ?_⟩
    rw [List.find?_range_eq_some] at hf
    simpa using hf.2.2 k hk

theorem spillCount_least (th : Thread) (w q n : Nat) : spillCount th w q n ≤ depthOf th + 1 - th.resident ∧
    ∀ k, k < spillCount th w q n → q < th.wb + w - baseAt th (th.resident + k) + n := by
  obtain ⟨hle, hlow⟩ := find_range (fun k => decide (th.wb + w - baseAt th (th.resident + k) + n ≤ q)) (depthOf th + 1 - th.resident)
  exact ⟨hle, fun k hk => Nat.not_le.1 (of_decide_eq_false (hlow k hk))⟩

/-! Frame records. -/

/-- The four words of a frame record. -/
theorem frameBytes_words (fr : Frame) : ∃ a b n on, frameBytes fr =
      [fr.ret.toNat, a.toNat, b.toNat, n + 2 ^ 32 * on + 2 ^ 33 * (fr.slide % 1024)].flatMap (bytesOf 8) ++ [] ∧
    ((fr.loop = none ∧ a = 0 ∧ b = 0 ∧ n = 0 ∧ on = 0) ∨ ∃ l, fr.loop = some l ∧ a = l.start ∧ b = l.stop ∧ n = l.remaining.toNat ∧ on = 1) := by
  cases hl : fr.loop with
  | none =>
    refine ⟨0, 0, 0, 0, ?_, .inl ⟨rfl, rfl, rfl, rfl, rfl⟩⟩
    simp only [frameBytes, hl, List.flatMap_cons, List.flatMap_nil, List.append_nil, List.append_assoc]
  | some l =>
    refine ⟨l.start, l.stop, l.remaining.toNat, 1, ?_, .inr ⟨l, rfl, rfl, rfl, rfl, rfl⟩⟩
    simp only [frameBytes, hl, List.flatMap_cons, List.flatMap_nil, List.append_nil, List.append_assoc]

theorem frame_roundtrip {fr : Frame} (hs : fr.slide < 1024) (hv : ∀ l, fr.loop = some l → l.version = 0) : frameOfBytes (frameBytes fr) = fr := by
  obtain ⟨a, b, n, on, hbytes, hloop⟩ := frameBytes_words fr
  have hn : n < 2 ^ 32 ∧ on ≤ 1 := by
    rcases hloop with ⟨-, -, -, rfl, rfl⟩ | ⟨l, -, -, -, rfl, rfl⟩
    · exact ⟨by decide, by decide⟩
    · exact ⟨l.remaining.isLt, by decide⟩
  have hword : ∀ i x, [fr.ret.toNat, a.toNat, b.toNat, n + 2 ^ 32 * on + 2 ^ 33 * (fr.slide % 1024)][i]? = some x →
      bitsOfBytes (((frameBytes fr).drop (8 * i)).take 8) = x % 256 ^ 8 := by
    intro i x hx
    rw [hbytes, Moves.bitsOfBytes_eq_valueOf]
    exact Traps.field_value x hx (Nat.le_refl 8)
  have h0 := hword 0 _ rfl
  have h1 := hword 1 _ rfl
  have h2 := hword 2 _ rfl
  have h3 := hword 3 _ rfl
  have hdword : ∀ x : DWord, (BitVec.ofNat 64 (x.toNat % 256 ^ 8) : DWord) = x := by
    intro x
    have hx : x.toNat % 256 ^ 8 = x.toNat := Nat.mod_eq_of_lt x.isLt
    rw [hx, BitVec.ofNat_toNat, BitVec.setWidth_eq]
  have hlast : (n + 2 ^ 32 * on + 2 ^ 33 * (fr.slide % 1024)) % 256 ^ 8 = n + 2 ^ 32 * on + 2 ^ 33 * fr.slide := by omega
  have hslide : (n + 2 ^ 32 * on + 2 ^ 33 * fr.slide) / 2 ^ 33 % 1024 = fr.slide := by omega
  have hon : (n + 2 ^ 32 * on + 2 ^ 33 * fr.slide) / 2 ^ 32 % 2 = on := by omega
  rw [hlast] at h3
  simp only [frameOfBytes, h0, h1, h2, h3, hdword, hslide, hon]
  rcases hloop with ⟨hl, -, -, -, rfl⟩ | ⟨l, hl, rfl, rfl, rfl, rfl⟩
  · rw [if_neg (by decide), ← hl]
  · have hrem : (BitVec.ofNat 32 (l.remaining.toNat + 2 ^ 32 * 1 + 2 ^ 33 * fr.slide) : Word) = l.remaining := by
      apply BitVec.eq_of_toNat_eq
      rw [BitVec.toNat_ofNat]
      have := l.remaining.isLt
      omega
    rw [if_pos rfl, hrem, ← hv l hl, ← hl]

/-- Settles O42: the unit's outcomes, the least count of frames, and the frame record's bytes. -/
theorem windowUnit : Obligations.WindowUnit := by
  refine ⟨?_, ?_, ?_, ?_, ?_, ?_, ?_, spillCount_least, fun fr => frame_roundtrip⟩
  · intro s t th n s1 ht hw hr ds hs
    exact congrArg Host.Outcome.next (spillUnit_done ht hw hr hs)
  · intro s t th n s1 i u ht hw hr hs hu
    exact congrArg Host.Outcome.next (spillUnit_trap ht hw hr hs hu)
  · intro s t th n s1 w ht hw hr hs
    exact congrArg Host.Outcome.next (spillUnit_hold ht hw hr hs)
  · intro s t th d w ht hw hr hs
    exact congrArg Host.Outcome.next (fillUnit_hold ht hw hr hs)
  · intro s t th d i ht hw hr hs
    exact congrArg Host.Outcome.next (fillUnit_trap ht hw hr hs)
  · intro s t th d s1 ht hw hr hs
    exact congrArg Host.Outcome.next (fillUnit_done ht hw hr hs)
  · intro s t th ht hr
    obtain ⟨h1, h2⟩ := units_wait ht hr
    exact ⟨congrArg Host.Outcome.next h1, congrArg Host.Outcome.next h2⟩

end Sys2Proof.WindowMoves

/-! SUPPORT. Statement settled: the work of the Sluice, the decoder and the security block (R199 to R201, R337 to R339, R373 to R375). -/

namespace Sys2Proof.EngineTasks

open Sys2Proof.Machine Sys2Proof.Claims

variable {s : State} {e : EngineOp} {eng fn : Nat}

/-- An operation with nothing left to read or push does its function's work. -/
theorem engineStep_works (h : Working s e eng fn) (work : State → EngineOp → State) : engineStep s e.id eng fn work = work s e := by
  obtain ⟨hfind, heng, hfn, hlocked, hstatus, hpower, htodo, hpushes⟩ := h
  have hop : engineOp s e.id = some e := hfind
  have hready : engineReady s e = true := by
    rw [engineReady, hlocked, hstatus, hpower]
    rfl
  simp only [engineStep, hop, heng, hfn, hready, ne_eq, not_true_eq_false, Bool.not_true, Bool.false_eq_true, or_self, if_false, htodo, hpushes]

theorem engineResult_done (s : State) (e : EngineOp) (l : List (Nat × Sector × BitVec 64)) (reply : Nat) :
    engineResult s e l [] reply = withEngine s (withResult e l reply) := rfl

/-! `sl_copy`. -/

section Copy

variable {m n : Nat} {d a : Tensor}

theorem slCopy_plain (ht : e.tensors = [(m, d), (n, a)]) (hrc : bodyWord e 0x10 / 2 ^ 16 % 8 ≠ 6) :
    slCopy s e = withEngine s (withResult e (placeElems d ((allCoords a).map fun xy =>
      (xy, gridElem d.fmt a.fmt (rndOf (BitVec.ofNat 3 (bodyWord e 0x10 / 2 ^ 16)) e.rm 0) (snapElem e a xy)))) (allCoords a).length) := by
  have hrc' : ¬ (BitVec.ofNat 3 (descWord e.desc 0x10 / 2 ^ 16) = 6#3) := by
    intro h
    exact hrc (congrArg BitVec.toNat h)
  have hels : ((allCoords a).zipIdx).map (fun p => (p.1, gridElem d.fmt a.fmt (rndOf (BitVec.ofNat 3 (descWord e.desc 0x10 / 2 ^ 16)) e.rm 0)
      (snapElem e a p.1))) = (allCoords a).map fun xy =>
      (xy, gridElem d.fmt a.fmt (rndOf (BitVec.ofNat 3 (descWord e.desc 0x10 / 2 ^ 16)) e.rm 0) (snapElem e a xy)) := by
    conv_rhs => rw [← List.zipIdx_map_fst 0 (allCoords a), List.map_map]
    rfl
  simp only [slCopy, ht, if_neg hrc', hels, List.length_map]
  rfl

theorem slCopy_same (ht : e.tensors = [(m, d), (n, a)]) (hf : d.fmt = a.fmt) (hrc : bodyWord e 0x10 / 2 ^ 16 % 8 ≠ 6) :
    slCopy s e = withEngine s (withResult e (placeElems d ((allCoords a).map fun xy => (xy, snapElem e a xy))) (allCoords a).length) := by
  have hcode : ∀ rnd code, gridElem d.fmt a.fmt rnd code = code := fun rnd code => if_pos hf
  rw [slCopy_plain ht hrc]
  simp only [hcode]

end Copy

/-! `sl_sparse`. -/

theorem flatMap_length_const {α β : Type} {f : α → List β} {k : Nat} (h : ∀ x, (f x).length = k) (l : List α) :
    (l.flatMap f).length = l.length * k := by
  induction l with
  | nil => simp only [List.flatMap_nil, List.length_nil, Nat.zero_mul]
  | cons x l ih => rw [List.flatMap_cons, List.length_append, h, ih, List.length_cons, Nat.succ_mul, Nat.add_comm]

/-- The metadata entries of some planes: one for each block of 32 of each panel of 128 rows, of 128 words. -/
def metadata (word : List Int → Nat → Nat → Nat → Nat) (planes : List (List Int)) (panels blocks : Nat) : List (List Byte) :=
  planes.flatMap fun pl => (List.range panels).flatMap fun panel => (List.range blocks).map fun blk =>
    (List.range 128).flatMap fun i => bytesOf 4 (word pl panel i blk)

theorem metadata_length (word : List Int → Nat → Nat → Nat → Nat) (planes : List (List Int)) (panels blocks : Nat) :
    (metadata word planes panels blocks).length = planes.length * panels * blocks := by
  rw [metadata, flatMap_length_const (k := panels * blocks), Nat.mul_assoc]
  intro pl
  rw [flatMap_length_const (k := blocks), List.length_range]
  intro panel
  rw [List.length_map, List.length_range]

theorem metadata_entry {word : List Int → Nat → Nat → Nat → Nat} {planes : List (List Int)} {panels blocks : Nat} :
    ∀ x ∈ metadata word planes panels blocks, x.length = 512 := by
  intro x hx
  obtain ⟨pl, -, hx⟩ := List.mem_flatMap.1 hx
  obtain ⟨panel, -, hx⟩ := List.mem_flatMap.1 hx
  obtain ⟨blk, -, rfl⟩ := List.mem_map.1 hx
  rw [flatMap_length_const (k := 4) fun i => Traps.bytesOf_length 4 _, List.length_range]

/-- The positions that a group of four keeps, by the magnitudes of its elements as read. -/
def keptOf (e : EngineOp) (a : Tensor) (xy : List Int) (g : Nat) : Nat × Nat :=
  sparseKeep fun i => typeVal a.fmt false (BitVec.ofNat 64 (snapElem e a (((4 * g + i : Nat) : Int) :: xy)))

/-- The metadata word of a row of a panel for a block of 32, zero past the tensor's rows. -/
def metaWord (e : EngineOp) (a : Tensor) (pl : List Int) (panel i blk : Nat) : Nat :=
  if panel * 128 + i < extentOf a 1 then
    (List.range 8).foldl (fun n g => n + ((keptOf e a (((panel * 128 + i : Nat) : Int) :: pl) (8 * blk + g)).1 +
      4 * (keptOf e a (((panel * 128 + i : Nat) : Int) :: pl) (8 * blk + g)).2) * 2 ^ (4 * g)) 0
  else 0

/-! The decoder. -/

theorem fdOpen_lowest {n : Nat} (hn : n < 64) (hfree : ∀ x ∈ s.sessions, ¬ (x.decoder = e.unit ∧ x.num = n))
    (hlow : ∀ k, k < n → ∃ x ∈ s.sessions, x.decoder = e.unit ∧ x.num = k) :
    (List.range 64).find? (fun n => !s.sessions.any fun x => x.decoder = e.unit ∧ x.num = n) = some n := by
  rw [List.find?_range_eq_some]
  refine ⟨?_, List.mem_range.2 hn, fun k hk => ?_⟩
  · rw [Bool.not_eq_true', List.any_eq_false]
    intro x hx
    simpa using hfree x hx
  · obtain ⟨x, hx, hd, hnum⟩ := hlow k hk
    rw [Bool.not_not, List.any_eq_true]
    exact ⟨x, hx, by simp [hd, hnum]⟩

theorem fdOpen_full (hall : ∀ k, k < 64 → ∃ x ∈ s.sessions, x.decoder = e.unit ∧ x.num = k) :
    (List.range 64).find? (fun n => !s.sessions.any fun x => x.decoder = e.unit ∧ x.num = n) = none := by
  rw [List.find?_eq_none]
  intro k hk
  obtain ⟨x, hx, hd, hnum⟩ := hall k (List.mem_range.1 hk)
  have hany : (s.sessions.any fun x => x.decoder = e.unit ∧ x.num = k) = true := List.any_eq_true.2 ⟨x, hx, by simp [hd, hnum]⟩
  rw [hany]
  exact Bool.false_ne_true

theorem sessionOf_none {unit num ctx : Nat} (h : ∀ x ∈ s.sessions, ¬ (x.decoder = unit ∧ x.num = num ∧ x.ctx = ctx)) :
    sessionOf s unit num ctx = none := by
  rw [sessionOf, List.find?_eq_none]
  intro x hx
  rw [decide_eq_true_iff]
  exact h x hx

/-- Settles O43: each function's work, as its tensors, sessions or descriptor give it. -/
theorem engineWork : Obligations.EngineWork := by
  refine ⟨?_, ?_, ?_, ?_, ?_, ?_, ?_, ?_, ?_, ?_, ?_, ?_, ?_, ?_⟩
  · intro s e m d n a h ht hf hrc
    exact congrArg Host.Outcome.next ((engineStep_works h slCopy).trans (slCopy_same ht hf hrc))
  · intro s e m d n a h ht hrc
    exact congrArg Host.Outcome.next ((engineStep_works h slCopy).trans (slCopy_plain ht hrc))
  · intro s e m d h ht
    refine congrArg Host.Outcome.next ((engineStep_works h slFill).trans ?_)
    simp only [slFill, ht, List.length_map]
    rfl
  · intro s e m d n a k i h ht src
    refine ⟨fun hs => congrArg Host.Outcome.next ((engineStep_works h slGather).trans ?_),
      fun hs => congrArg Host.Outcome.next ((engineStep_works h slGather).trans ?_)⟩
    · simp only [slGather, ht, if_pos hs]
      rfl
    · simp only [slGather, ht, if_neg hs]
      rfl
  · intro s e m d n a h ht val rows keep els
    refine ⟨metadata (metaWord e a) ((rows.map fun xy => xy.drop 1).dedup) ((extentOf a 1 + 127) / 128) (extentOf a 0 / 32),
      congrArg Host.Outcome.next ((engineStep_works h slSparse).trans ?_), metadata_length _ _ _ _, metadata_entry⟩
    simp only [slSparse, ht, engineResult, List.isEmpty_iff]
    rfl
  · intro s e h img
    refine congrArg Host.Outcome.next ((engineStep_works h slLoad).trans ?_)
    simp only [slLoad]
    rfl
  · intro s e n h hn hfree hlow
    refine congrArg Host.Outcome.next ((engineStep_works h fdOpen).trans ?_)
    simp only [fdOpen, fdOpen_lowest hn hfree hlow]
    rfl
  · intro s e h hall
    refine congrArg Host.Outcome.next ((engineStep_works h fdOpen).trans ?_)
    simp only [fdOpen, fdOpen_full hall]
    rfl
  · intro s e h
    exact congrArg Host.Outcome.next (engineStep_works h fdClose)
  · intro s e h hnone
    refine congrArg Host.Outcome.next ((engineStep_works h fdFrame).trans ?_)
    have hs := sessionOf_none hnone
    rw [fdFrame]
    simp only [show sessionOf s e.unit (descWord e.desc 0x10 % 64) e.ctx = none from hs]
    rfl
  · intro s e x h hx u s1 dam o s2
    refine congrArg Host.Outcome.next ((engineStep_works h fdFrame).trans ?_)
    rw [fdFrame]
    simp only [show sessionOf s e.unit (descWord e.desc 0x10 % 64) e.ctx = some x from hx]
    exact if_congr (and_congr_right fun _ => decide_eq_true_iff) rfl
      (if_congr (Bool.not_eq_true' _).to_iff rfl (if_congr Iff.rfl rfl rfl))
  · intro s e h bs
    exact congrArg Host.Outcome.next (engineStep_works h sbHash)
  · intro s e h
    refine ⟨fun hlt => congrArg Host.Outcome.next ((engineStep_works h sbReport).trans (if_pos hlt)), fun hle => ?_⟩
    intro head
    exact congrArg Host.Outcome.next ((engineStep_works h sbReport).trans (if_neg (Nat.not_lt.2 hle)))
  · intro s e h
    refine ⟨fun hlt => congrArg Host.Outcome.next ((engineStep_works h sbExtend).trans (if_pos hlt)), fun hle =>
      congrArg Host.Outcome.next ((engineStep_works h sbExtend).trans (if_neg (Nat.not_lt.2 hle)))⟩

end Sys2Proof.EngineTasks

/-! SUPPORT. Statement settled: the completion of an engine operation (R154, R198, R275). -/

namespace Sys2Proof.Completion

open Sys2Proof.Machine Sys2Proof.Claims

variable {s : State} {e : EngineOp} {st : Nat} (hf : s.engines.find? (fun x => x.id = e.id) = some e)
include hf

/-- An operation that may not work now does nothing. -/
theorem engineStep_idle (hr : engineReady s e = false) (eng fn : Nat) (work : State → EngineOp → State) : engineStep s e.id eng fn work = s := by
  have hop : engineOp s e.id = some e := hf
  simp only [engineStep, hop, hr, Bool.not_false, or_true, if_true]

theorem engineComplete_none (hs : e.status = none) : engineComplete s e.id = s := by
  have hop : engineOp s e.id = some e := hf
  simp only [engineComplete, hop, hs]

/-- A command of the Sluice, the decoder or the security block completes as a command. -/
theorem engineComplete_command (hs : e.status = some st) (he : e.engine ≤ 2) (hfn : e.fn ≠ 16) :
    engineComplete s e.id = commandComplete s e st := by
  have hop : engineOp s e.id = some e := hf
  have h8 : e.engine ≠ 8 := by omega
  have h9 : e.engine ≠ 9 := by omega
  have hnode : nodeWork e = false := by
    rw [nodeWork, decide_eq_false_iff_not]
    rintro (h | ⟨-, h⟩)
    · omega
    · exact hfn h
  simp only [engineComplete, hop, hs, h8, h9, hnode, Bool.false_eq_true, if_false]

omit hf

theorem finishSlot_none (s : State) (hsl : e.slot = none) (st : Nat) : finishSlot s e st = s := by rw [finishSlot, hsl]

theorem creditObject_none (s : State) (hobj : descWord e.desc 0 / 2 ^ 16 % 2 = 0) (ts : Nat) : creditObject s e ts = s := by
  have h : ¬ descWord e.desc 0 / 2 ^ 16 % 2 = 1 := by omega
  cases ht : e.team with
  | none => simp only [creditObject, ht]
  | some m => simp only [creditObject, ht, if_neg h]

/-- Marks that let every write land leave a command its status. -/
theorem landStatus_clear (h : ∀ p ∈ e.swrites, writeMark s 0 p.1 (destKey e p.1) (decide (p.2.2 = ~~~ 0#64)) = none) : landStatus s e = none := by
  rw [landStatus, List.findSome?_eq_none_iff.2 h, Option.map_none]

theorem commandComplete_status (hm : st = 0 → ∀ p ∈ e.swrites, writeMark s 0 p.1 (destKey e p.1) (decide (p.2.2 = ~~~ 0#64)) = none) :
    (if st = 0 then (landStatus s e).getD 0 else st) = st := by
  by_cases h : st = 0
  · rw [if_pos h, landStatus_clear (hm h), Option.getD_none, h]
  · rw [if_neg h]

/-- The state after a command's writes: nothing lands on a status other than 0. -/
def landed (s : State) (e : EngineOp) (st : Nat) : State × Nat :=
  if st = 0 then landWrites { s with engines := s.engines.filter fun x => x.id ≠ e.id } e
  else ({ s with engines := s.engines.filter fun x => x.id ≠ e.id }, e.ts)

theorem commandComplete_ends (hn : e.node = none) (hsl : e.slot = none) (hobj : descWord e.desc 0 / 2 ^ 16 % 2 = 0)
    (hw : frameWaits s e = false)
    (hm : st = 0 → ∀ p ∈ e.swrites, writeMark s 0 p.1 (destKey e p.1) (decide (p.2.2 = ~~~ 0#64)) = none) :
    commandComplete s e st = raiseFences (lowerCtr (deliverTo (descStore (raisePtime (freeLocks (landed s e st).1 e.id) e.tid (landed s e st).2)
      e.tid e.ctx e.descSpad e.descVa 0 [BitVec.ofNat 8 st]) e.tid e.dest [BitVec.ofNat 32 (if st = 0 then e.reply else 0)]) e.tid e.ctr) e.id e.tid := by
  simp only [commandComplete, hw, Bool.false_eq_true, if_false, commandComplete_status hm, finishSlot_none _ hsl, creditObject_none _ hobj, ite_self, hn]
  rfl

/-- Settles O44: an operation works only when it may, and a command's end lands its writes, its status and its reply. -/
theorem engineCompletion : Obligations.EngineCompletion := by
  refine ⟨?_, ?_, ?_, ?_⟩
  · intro s e hf hr
    have hidle : ∀ eng fn work, Host.Outcome.next (engineStep s e.id eng fn work) = (.next s : Host.Outcome State Fault Refusal) :=
      fun eng fn work => congrArg Host.Outcome.next (engineStep_idle hf hr eng fn work)
    exact ⟨hidle _ _ _, hidle _ _ _, hidle _ _ _, hidle _ _ _, hidle _ _ _, hidle _ _ _, hidle _ _ _, hidle _ _ _, hidle _ _ _,
      hidle _ _ _, hidle _ _ _⟩
  · intro s e st hf hs he hfn hn hsl hobj hw hm
    exact congrArg Host.Outcome.next ((engineComplete_command hf hs he hfn).trans (commandComplete_ends hn hsl hobj hw hm))
  · intro s e st hf hs he hfn hw
    refine congrArg Host.Outcome.next ((engineComplete_command hf hs he hfn).trans ?_)
    rw [commandComplete, if_pos hw]
  · intro s e hf hs
    exact congrArg Host.Outcome.next (engineComplete_none hf hs)

end Sys2Proof.Completion

/-! SUPPORT. Statement settled: tickets, batches and admission (R220 to R226, R328). -/

namespace Sys2Proof.Tickets

open Sys2Proof.Machine Sys2Proof.Claims

variable {s s1 : State} {die grid origin next stop ticket : Nat} {gr : Grid}

/-! Pull mode. -/

theorem pullTicket_admits (hg : s.grids[grid]? = some gr) (hc : canTake s die grid = some origin) (ht : gr.tickets[die]? = some (next, stop))
    (hlt : next < stop) (ha : admitCluster s grid next die origin = some s1) :
    pullTicket s die grid = modGrid s1 grid fun x => { x with tickets := x.tickets.set die (next + 1, stop) } := by
  simp only [pullTicket, hg, hc, ht, if_pos hlt, ha]
  rfl

theorem pullTicket_full (hc : canTake s die grid = none) : pullTicket s die grid = s := by
  rw [pullTicket, hc]
  split
  · next h => cases h
  · rfl

theorem stealTickets_full (hc : canTake s die grid = none) : stealTickets s die grid = s := by
  rw [stealTickets, hc]
  split
  · next h => cases h
  · rfl

theorem pullTicket_empty {a : Nat} (hg : s.grids[grid]? = some gr) (ht : gr.tickets[die]? = some (a, a)) : pullTicket s die grid = s := by
  cases hc : canTake s die grid with
  | none => exact pullTicket_full hc
  | some o => simp only [pullTicket, hg, hc, ht, Nat.lt_irrefl, if_false]

/-- The fuller of a die and the best so far, which stays of two that are equal. -/
def fuller (gr : Grid) (best : Option Nat) (d : Nat) : Option Nat :=
  if ticketsLeft gr d = 0 then best
  else match best with
    | none => some d
    | some b => if ticketsLeft gr b < ticketsLeft gr d then some d else some b

theorem stealVictim_eq (gr : Grid) (die : Nat) :
    stealVictim gr die = fuller gr (fuller gr (fuller gr none ((die + 1) % 4)) ((die + 2) % 4)) ((die + 3) % 4) := rfl

/-- The best so far has fewer tickets than a number. -/
def Below (gr : Grid) (n : Nat) (best : Option Nat) : Prop := ∀ b, best = some b → ticketsLeft gr b < n

theorem fuller_below {n d : Nat} {best : Option Nat} (hb : Below gr n best) (hd : ticketsLeft gr d < n) : Below gr n (fuller gr best d) := by
  unfold fuller
  split
  · exact hb
  · split
    · rintro b ⟨⟩; exact hd
    · split
      · rintro b ⟨⟩; exact hd
      · exact hb

theorem fuller_takes {n d : Nat} {best : Option Nat} (hb : Below gr n best) (hd : ticketsLeft gr d = n) (hpos : 0 < n) :
    fuller gr best d = some d := by
  cases best with
  | none => simp only [fuller, hd, if_neg (Nat.pos_iff_ne_zero.1 hpos)]
  | some b => simp only [fuller, hd, if_neg (Nat.pos_iff_ne_zero.1 hpos), if_pos (hb b rfl)]

theorem fuller_keeps {n d b : Nat} (hb : ticketsLeft gr b = n) (hd : ticketsLeft gr d ≤ n) : fuller gr (some b) d = some b := by
  unfold fuller
  split
  · rfl
  · exact if_neg (by rw [hb]; exact Nat.not_lt.2 hd)

/-- The fullest of the other dies, the first of several. -/
theorem stealVictim_fullest {i n : Nat} (h1 : 1 ≤ i) (h3 : i ≤ 3) (hn : ticketsLeft gr ((die + i) % 4) = n) (hpos : 0 < n)
    (hmax : ∀ j, 1 ≤ j → j ≤ 3 → (j < i → ticketsLeft gr ((die + j) % 4) < n) ∧ (i < j → ticketsLeft gr ((die + j) % 4) ≤ n)) :
    stealVictim gr die = some ((die + i) % 4) := by
  have hnone : Below gr n none := fun b h => nomatch h
  have hcase : i = 1 ∨ i = 2 ∨ i = 3 := by omega
  obtain ⟨low1, -⟩ := hmax 1 (by decide) (by decide)
  obtain ⟨low2, high2⟩ := hmax 2 (by decide) (by decide)
  obtain ⟨-, high3⟩ := hmax 3 (by decide) (by decide)
  rw [stealVictim_eq]
  rcases hcase with rfl | rfl | rfl
  · rw [fuller_takes hnone hn hpos, fuller_keeps hn (high2 (by decide)), fuller_keeps hn (high3 (by decide))]
  · rw [fuller_takes (fuller_below hnone (low1 (by decide))) hn hpos, fuller_keeps hn (high3 (by decide))]
  · rw [fuller_takes (fuller_below (fuller_below hnone (low1 (by decide))) (low2 (by decide))) hn hpos]

theorem stealTickets_takes {a i : Nat} (hg : s.grids[grid]? = some gr) (hc : canTake s die grid = some origin)
    (hd : gr.tickets[die]? = some (a, a)) (h1 : 1 ≤ i) (h3 : i ≤ 3) (ht : gr.tickets[(die + i) % 4]? = some (next, stop)) (hlt : next < stop)
    (hmax : ∀ j, 1 ≤ j → j ≤ 3 →
      (j < i → ticketsLeft gr ((die + j) % 4) < stop - next) ∧ (i < j → ticketsLeft gr ((die + j) % 4) ≤ stop - next)) :
    stealTickets s die grid = modGrid s grid fun x => { x with
      tickets := (x.tickets.set ((die + i) % 4) (next, stop - max 1 ((stop - next) / 8))).set die (stop - max 1 ((stop - next) / 8), stop) } := by
  have hleft : ticketsLeft gr ((die + i) % 4) = stop - next := by rw [ticketsLeft, ht]; rfl
  have hnone : ticketsLeft gr die = 0 := by
    rw [ticketsLeft, hd]
    exact Nat.sub_self a
  have hv := stealVictim_fullest h1 h3 hleft (Nat.sub_pos_of_lt hlt) hmax
  simp only [stealTickets, hg, hc, hnone, ne_eq, not_true_eq_false, if_false, hv, hleft, ht]
  rfl

/-! Push mode. -/

theorem pushBatchTo_new (hg : s.grids[grid]? = some gr) (ha : admits s gr = true) (hb : gr.bringDie = none) (hp : ∀ p ∈ gr.pushed, p.1 ≠ die)
    (hr : gr.returned = []) : pushBatchTo s grid die =
      (let k := min (min 64 (freeRecords s die false) / (gr.launch.width * gr.launch.height)) (gr.central.2 - gr.central.1)
       { s with grids := s.grids.set grid { gr with
          pushed := gr.pushed ++ (List.range k).map fun i => (die, gr.central.1 + i), central := (gr.central.1 + k, gr.central.2) } }) := by
  have hany : (gr.pushed.any fun p => p.1 = die) = false := by
    rw [List.any_eq_false]
    intro p hmem
    simpa using hp p hmem
  have hnext : ∀ n, nextTickets gr n = ((List.range (min n (gr.central.2 - gr.central.1))).map (gr.central.1 + ·),
      { gr with central := (gr.central.1 + min n (gr.central.2 - gr.central.1), gr.central.2) }) := by
    intro n
    simp only [nextTickets, hr, List.take_nil, List.length_nil, Nat.sub_zero, List.nil_append, List.drop_nil]
  simp only [pushBatchTo, hg, ha, hb, hany, Option.isSome_none, Bool.not_true, Bool.false_eq_true, false_and, or_self, if_false, hnext,
    List.map_map]
  rfl

theorem pushBatchTo_busy {p : Nat × Nat} (hg : s.grids[grid]? = some gr) (hp : p ∈ gr.pushed) (hd : p.1 = die) : pushBatchTo s grid die = s := by
  have hany : (gr.pushed.any fun p => p.1 = die) = true := List.any_eq_true.2 ⟨p, hp, decide_eq_true hd⟩
  simp only [pushBatchTo, hg, hany, or_true, if_true]

theorem admitPushed_admits (hg : s.grids[grid]? = some gr) (hp : (die, ticket) ∈ gr.pushed) (hc : canTake s die grid = some origin)
    (ha : admitCluster s grid ticket die origin = some s1) :
    admitPushed s grid ticket die = modGrid s1 grid fun x => { x with pushed := x.pushed.filter fun p => p ≠ (die, ticket) } := by
  have hmem : gr.pushed.contains (die, ticket) = true := List.contains_iff_mem.2 hp
  simp only [admitPushed, hg, hmem, Bool.not_true, Bool.false_eq_true, if_false, hc, ha]

/-- A cluster that finds no room goes back. -/
theorem admitPushed_returns (hg : s.grids[grid]? = some gr) (hp : gr.pushed = [(die, ticket)]) (hr : gr.returned = [])
    (hc : canTake s die grid = none) : admitPushed s grid ticket die = { s with grids := s.grids.modify grid fun x => { x with
      pushed := [], returned := [ticket] } } := by
  have hmem : gr.pushed.contains (die, ticket) = true := by rw [hp]; simp
  simp only [admitPushed, hg, hmem, Bool.not_true, Bool.false_eq_true, if_false, hc]
  refine congrArg (fun l => { s with grids := l }) (Performing.modify_at hg ?_)
  simp only [hp, hr, ne_eq, not_true_eq_false, decide_false, decide_true, List.filter_cons_of_neg, List.filter_cons_of_pos, List.filter_nil,
    List.foldl_cons, List.foldl_nil, insertTicket, Bool.false_eq_true, not_false_eq_true]

/-- Settles O45: pulls, steals, batches and admissions, by the room that the die has. -/
theorem ticketEvents : Obligations.TicketEvents := by
  refine ⟨?_, ?_, ?_, ?_, ?_, ?_, ?_, ?_⟩
  · intro s die grid gr next stop origin s1 hg hc ht hlt ha
    exact congrArg Host.Outcome.next (pullTicket_admits hg hc ht hlt ha)
  · intro s die grid hc
    exact ⟨congrArg Host.Outcome.next (pullTicket_full hc), congrArg Host.Outcome.next (stealTickets_full hc)⟩
  · intro s die grid gr a hg ht
    exact congrArg Host.Outcome.next (pullTicket_empty hg ht)
  · intro s die grid gr origin a i next stop hg hc hd h1 h3 ht hlt hmax
    exact congrArg Host.Outcome.next (stealTickets_takes hg hc hd h1 h3 ht hlt hmax)
  · intro s die grid gr hg ha hb hp hr
    exact congrArg Host.Outcome.next (pushBatchTo_new hg ha hb hp hr)
  · intro s die grid gr p hg hp hd
    exact congrArg Host.Outcome.next (pushBatchTo_busy hg hp hd)
  · intro s die grid gr ticket origin s1 hg hp hc ha
    refine congrArg Host.Outcome.next ?_
    rw [if_pos (.inl hc)]
    exact admitPushed_admits hg hp hc ha
  · intro s die grid gr ticket origin hg hp hr hc
    refine congrArg Host.Outcome.next ?_
    rw [if_pos (.inr hc)]
    exact admitPushed_returns hg hp hr hc

end Sys2Proof.Tickets

/-! SUPPORT. What keeps memory in its canonical form, one lemma per function: the homes, the dies' copies and the Reed tables. -/

namespace Sys2Proof.Canonical

open Sys2Proof.Machine

variable {s : State}

/-! Folds. -/

theorem foldl_kept {α β : Type} {p : β → Prop} {g : β → α → β} (hg : ∀ b x, p b → p (g b x)) :
    ∀ (l : List α) {b : β}, p b → p (l.foldl g b) := by
  intro l
  induction l with
  | nil => exact id
  | cons x l ih => exact fun h => ih (hg _ x h)

theorem foldl_mem {α : Type} {g : State → α → State} (hg : ∀ s x, (g s x).mem = s.mem) (l : List α) (s : State) : (l.foldl g s).mem = s.mem :=
  foldl_kept (p := fun t : State => t.mem = s.mem) (fun _ x h => (hg _ x).trans h) l rfl

theorem foldl_wf {α : Type} {g : State → α → State} (hg : ∀ s x, Memory.wf s.mem → Memory.wf (g s x).mem) (l : List α)
    (h : Memory.wf s.mem) : Memory.wf (l.foldl g s).mem := foldl_kept (p := fun s : State => Memory.wf s.mem) hg l h

/-! Branches. -/

@[simp] theorem ite_mem {c : Prop} [Decidable c] (a b : State) : (if c then a else b).mem = if c then a.mem else b.mem := apply_ite _ _ _ _

@[simp] theorem memWf_ite {c : Prop} [Decidable c] (m n : Memory) : memWf (if c then m else n) = if c then memWf m else memWf n :=
  apply_ite _ _ _ _

/-! The places where memory is written. -/

@[simp] theorem putSector_wf (h : Memory.wf s.mem) (sec : Nat) (x : Sector) (mask : BitVec 64) (c : Option Nat) :
    Memory.wf (putSector s sec x mask c).mem := by
  unfold putSector
  split
  · split
    · exact (Peat.homePut_moved _ _ _ _ _ _).canonical h
    · exact h
  · exact memWrites_wf _ _ _ _ _ h

@[simp] theorem touchSector_wf (h : Memory.wf s.mem) (sec : Nat) (c : Option Nat) : Memory.wf (touchSector s sec c).mem := by
  unfold touchSector touchLine
  split
  · split
    · exact (Peat.homeTouch_moved _ _ _ _ _).canonical h
    · exact h
  · exact h

@[simp] theorem putBytes_wf (h : Memory.wf s.mem) (pa : Nat) (bs : List Byte) (c : Option Nat) : Memory.wf (putBytes s pa bs c).mem :=
  foldl_wf (fun _ _ h => putSector_wf h _ _ _ _) _ h

/-! The dies' copies. -/

@[simp] theorem l2Mod_mem (die : Nat) (x : L2Sector) : (l2Mod s die x).mem = s.mem := rfl
@[simp] theorem l2Del_mem (die sec : Nat) : (l2Del s die sec).mem = s.mem := rfl
@[simp] theorem dirPut_mem (sec : Nat) (d : DirSector) : (dirPut s sec d).mem = s.mem := rfl
@[simp] theorem busyPut_mem (sec : Nat) (b : Option Busy) : (busyPut s sec b).mem = s.mem := rfl
@[simp] theorem homeTimesPut_mem (sec w r : Nat) : (homeTimesPut s sec w r).mem = s.mem := rfl
@[simp] theorem homeTimesMax_mem (sec w r : Nat) : (homeTimesMax s sec w r).mem = s.mem := rfl
@[simp] theorem wakeMonitors_mem (sec : Nat) : (wakeMonitors s sec).mem = s.mem := rfl
@[simp] theorem sendFirst_mem (l : List Instr) : (sendFirst s l).mem = s.mem := rfl
@[simp] theorem dirHold_mem (sec : Nat) (l : List HomeReq) : (dirHold s sec l).mem = s.mem := rfl
@[simp] theorem dirTouch_mem (sec : Nat) : (dirTouch s sec).mem = s.mem := rfl
@[simp] theorem releaseNotice_mem (home : Nat) (e : AliasEntry) (i n : Nat) : (releaseNotice s home e i n).mem = s.mem := rfl
@[simp] theorem msPartsPut_mem (sec : Nat) (ps : List MsPart) : (msPartsPut s sec ps).mem = s.mem := rfl
@[simp] theorem markPut_mem (m : SecMark) : (markPut s m).mem = s.mem := rfl
@[simp] theorem awaitAcks_mem (sec : Nat) (req : HomeReq) (dies : List Nat) (fwd : Bool) (msgs : List Instr) (queue : List HomeReq) :
    (awaitAcks s sec req dies fwd msgs queue).mem = s.mem := rfl

@[simp] theorem l1Yield_mem (c : Core) (x : L1Sector) : (l1Yield s c x).mem = s.mem := by
  unfold l1Yield
  simp only
  split <;> simp

@[simp] theorem collapseL1_mem (die sec : Nat) : (collapseL1 s die sec).mem = s.mem := by
  unfold collapseL1
  split
  · split <;> simp
  · rfl

@[simp] theorem notePeek_mem (id : Nat) (m : SectorMsg) : (notePeek s id m).mem = s.mem := by
  unfold notePeek
  split <;> rfl

@[simp] theorem watchHome_mem (i : Nat) : (watchHome s i).mem = s.mem := by
  unfold watchHome
  split
  · simp only
    split
    · split <;> rfl
    · rfl
  · rfl

@[simp] theorem noteAliasRead_mem (sec : Nat) : (noteAliasRead s sec).mem = s.mem := by
  unfold noteAliasRead
  refine foldl_mem (fun s e => ?_) _ s
  simp only
  exact (apply_ite State.mem _ _ _).trans (ite_self _)

@[simp] theorem l2Leave_mem (die : Nat) (x : L2Sector) : (l2Leave s die x).mem = s.mem := by
  unfold l2Leave
  simp only
  split <;> simp

@[simp] theorem l2Room_mem (die line : Nat) : (l2Room s die line).mem = s.mem := by
  unfold l2Room
  split
  · rfl
  · simp only
    split
    · rfl
    · split
      · rfl
      · split
        · rfl
        · exact foldl_mem (fun s x => l2Leave_mem _ x) _ s

@[simp] theorem l2Install_mem (die : Nat) (x : L2Sector) : (l2Install s die x).mem = s.mem := by
  unfold l2Install
  simp only
  split <;> simp

/-! The messages of the die protocol. -/

@[simp] theorem dieSector_mem (die sec : Nat) : (dieSector s die sec).1.mem = s.mem := collapseL1_mem die sec

@[simp] theorem dieInv_mem (die sec : Nat) : (dieInv s die sec).mem = s.mem := by
  unfold dieInv
  simp only
  split <;> simp

@[simp] theorem dieFwd_mem (die r sec : Nat) (inval : Bool) : (dieFwd s die r sec inval).mem = s.mem := by
  unfold dieFwd
  simp only
  split
  · cases inval <;> simp
  · split <;> simp

@[simp] theorem diePrecall_mem (die sec : Nat) : (diePrecall s die sec).mem = s.mem := by
  unfold diePrecall
  split
  · split <;> simp
  · rfl

@[simp] theorem diePeek_mem (die sec : Nat) : (diePeek s die sec).mem = s.mem := by
  unfold diePeek
  simp only
  split
  · simp
  · split <;> simp

@[simp] theorem dieData_mem (m : SectorMsg) : (dieData s m).mem = s.mem := by
  unfold dieData
  split <;> simp

@[simp] theorem dieGrant_mem (m : SectorMsg) : (dieGrant s m).mem = s.mem := by
  unfold dieGrant
  split
  · split
    · split <;> rfl
    · simp
  · split <;> simp

@[simp] theorem homeDrop_mem (die sec : Nat) : (homeDrop s die sec).mem = s.mem := by
  unfold homeDrop
  simp only
  split <;> simp

/-! The Reed tables. -/

@[simp] theorem materialiseBlock_wf (h : Memory.wf s.mem) (e : AliasEntry) (i : Nat) : Memory.wf (materialiseBlock s e i).mem :=
  putBytes_wf h _ _ _

@[simp] theorem removeBlock_wf (h : Memory.wf s.mem) (home : Nat) (e : AliasEntry) (i : Nat) : Memory.wf (removeBlock s home e i).mem := by
  unfold removeBlock
  simp only [watchHome_mem, releaseNotice_mem, modHome_mem]
  split
  · refine foldl_wf (fun s k h => ?_) _ h
    split
    · exact materialiseBlock_wf h _ _
    · exact h
  · exact h

@[simp] theorem dhomeMaterialiseGrain_wf (h : Memory.wf s.mem) (dhome g : Nat) : Memory.wf (dhomeMaterialiseGrain s dhome g).mem := by
  unfold dhomeMaterialiseGrain
  refine foldl_wf (fun s d h => ?_) _ h
  split
  · exact removeBlock_wf (materialiseBlock_wf h _ _) _ _ _
  · exact h

@[simp] theorem prepareGrain_wf (h : Memory.wf s.mem) (g : Nat) (whole : Bool) : Memory.wf (prepareGrain s g whole).mem := by
  have hd : Memory.wf ((watchersOf s g).foldl (fun s d => dhomeMaterialiseGrain s d g) s).mem :=
    foldl_wf (fun _ _ h => dhomeMaterialiseGrain_wf h _ _) _ h
  unfold prepareGrain
  simp only
  split
  · exact hd
  · refine removeBlock_wf ?_ _ _ _
    split
    · exact hd
    · exact materialiseBlock_wf hd _ _

@[simp] theorem prepareMask_wf (h : Memory.wf s.mem) (sec : Nat) (mask : BitVec 64) : Memory.wf (prepareMask s sec mask).mem := by
  unfold prepareMask
  refine foldl_wf (fun s k h => ?_) _ h
  simp only
  split
  · exact h
  · exact prepareGrain_wf h _ _

/-! The home. -/

@[simp] theorem mergeHome_wf (h : Memory.wf s.mem) (sec tag : Nat) (ps : List (Nat × List (Option DWord) × List Bool)) (c : Option Nat) :
    Memory.wf (mergeHome s sec tag ps c).mem := by
  unfold mergeHome
  simp only
  split
  · exact h
  · exact putSector_wf (prepareMask_wf h _ _) _ _ _ _

@[simp] theorem mergeMs_wf (h : Memory.wf s.mem) (sec lo n : Nat) (c : Option Nat) : Memory.wf (mergeMs s sec lo n c).mem := by
  have hp : ∀ ps, Memory.wf (msPartsPut s sec ps).mem := fun _ => h
  unfold mergeMs
  simp only
  split
  · exact h
  · split
    · exact hp _
    · exact putSector_wf (prepareMask_wf (hp _) _ _) _ _ _ _

@[simp] theorem writeBackSector_wf (h : Memory.wf s.mem) (sec : Nat) (x : Sector) (c : Option Nat) :
    Memory.wf (writeBackSector s sec x c).mem := putSector_wf h _ _ _ _

/-- Every die's copy is taken through one change. -/
theorem dies_mem {g : State → Nat → State} (hg : ∀ s x, (g s x).mem = s.mem) (l : List Nat) (h : Memory.wf s.mem) :
    Memory.wf (l.foldl g s).mem := by rwa [foldl_mem hg]

@[simp] theorem settleRaw_wf (h : Memory.wf s.mem) (sec : Nat) : Memory.wf (settleRaw s sec).mem := by
  have hc := dies_mem (fun s d => collapseL1_mem (s := s) d sec) (List.range 4) h
  unfold settleRaw
  simp only
  split
  · exact mergeHome_wf (dies_mem (fun s d => l2Del_mem d sec) _ hc) _ _ _ _
  · simp only [homeTimesMax_mem, ite_mem, dirPut_mem, ite_self]
    refine dies_mem (fun s d => ?_) _ hc
    split
    · split <;> rfl
    · rfl

@[simp] theorem excludeRaw_wf (h : Memory.wf s.mem) (sec : Nat) : Memory.wf (excludeRaw s sec).mem := by
  have hd := dies_mem (fun s d => l2Del_mem d sec) (List.range 4) (settleRaw_wf h sec)
  unfold excludeRaw
  simp only [dirPut_mem]
  split
  · exact writeBackSector_wf hd _ _ _
  · exact hd

/-- A read that a home serves, from its aliases' sources where it has aliases. -/
@[simp] theorem homeRead_wf (h : Memory.wf s.mem) (sec : Nat) (c : Option Nat) : Memory.wf (homeRead s sec c).mem := by
  unfold homeRead
  split
  · rwa [noteAliasRead_mem]
  · exact touchSector_wf h _ _

@[simp] theorem dataFrom_wf (h : Memory.wf s.mem) (sec die : Nat) (dirty own : Bool) : Memory.wf (dataFrom s sec die dirty own).mem :=
  homeRead_wf h sec (askerCtx s die sec)

@[simp] theorem homeServe_wf (h : Memory.wf s.mem) (sec : Nat) (req : HomeReq) (queue : List HomeReq) :
    Memory.wf (homeServe s sec req queue).mem := by
  unfold homeServe
  split
  · exact h
  · exact h
  · have hw : Memory.wf (if req.kind = 1 ∨ req.kind = 2 then wakeMonitors (dirTouch s sec) sec else dirTouch s sec).mem := by
      split <;> exact h
    simp only
    generalize (if req.kind = 1 ∨ req.kind = 2 then wakeMonitors (dirTouch s sec) sec else dirTouch s sec) = s1 at hw
    have ht := fun c => touchSector_wf hw sec c
    have hd := fun dirty own => dataFrom_wf hw sec req.die dirty own
    change memWf _ = true
    simp [hw, ht, hd]

@[simp] theorem homeFinish_wf (h : Memory.wf s.mem) (b : Busy) : Memory.wf (homeFinish s b).mem := by
  have hm : ∀ sec tag ps c, Memory.wf (mergeHome (homeTimesMax s b.sec b.wts b.rts) sec tag ps c).mem :=
    fun _ _ _ _ => mergeHome_wf (s := homeTimesMax s _ _ _) h _ _ _ _
  unfold homeFinish
  simp only
  split
  · exact h
  · split
    · refine homeServe_wf ?_ _ _ _
      rw [busyPut_mem, ite_mem, wakeMonitors_mem, homeTimesPut_mem, ite_self]
      exact hm _ _ _ _
    · split
      · exact h
      · split
        · rwa [sendFirst_mem, busyPut_mem, send_mem, dirPut_mem, homeTimesMax_mem]
        · split
          · rwa [sendFirst_mem, busyPut_mem, send_mem, dirPut_mem, homeTimesMax_mem]
          · refine homeServe_wf ?_ _ _ _
            rwa [busyPut_mem, dirPut_mem, homeTimesMax_mem]

/-- Modified bytes that an answer carries reach its home. -/
theorem answerBytes_wf (h : Memory.wf s.mem) (m : SectorMsg) (b : Bool) : Memory.wf (match m.bytes with
    | some x => if b then writeBackSector s m.sec x m.ctx else s
    | none => s).mem := by
  split
  · cases b
    · exact h
    · exact writeBackSector_wf h _ _ _
  · exact h

@[simp] theorem homeAck_wf (h : Memory.wf s.mem) (m : SectorMsg) : Memory.wf (homeAck s m).mem := by
  unfold homeAck
  simp only
  split
  · rw [homeTimesMax_mem]
    exact answerBytes_wf h m m.dirty
  · split
    · refine homeFinish_wf ?_ _
      rw [ite_mem, notePeek_mem, ite_self]
      exact answerBytes_wf h m m.dirty
    · rw [busyPut_mem, ite_mem, notePeek_mem, ite_self]
      exact answerBytes_wf h m m.dirty

@[simp] theorem homeWbm_wf (h : Memory.wf s.mem) (m : SectorMsg) : Memory.wf (homeWbm s m).mem := by
  unfold homeWbm
  simp only
  split
  · rw [ite_mem, wakeMonitors_mem, homeTimesMax_mem, ite_self]
    exact mergeHome_wf (s := homeTimesMax s _ _ _) h _ _ _ _
  · split
    · rw [dirPut_mem]
      split
      · exact writeBackSector_wf (s := homeTimesMax s _ _ _) h _ _ _
      · exact h
    · exact h

@[simp] theorem arrive_wf (h : Memory.wf s.mem) (i : Instr) : Memory.wf (arrive s i).mem := by
  unfold arrive
  split
  · rwa [dieInv_mem]
  · rwa [dieFwd_mem]
  · rwa [diePrecall_mem]
  · rwa [diePeek_mem]
  · rwa [homeDrop_mem]
  · exact homeAck_wf h _
  · rwa [dieData_mem]
  · rwa [dieGrant_mem]
  · exact homeWbm_wf h _
  · exact h

@[simp] theorem quiesceN_wf (n : Nat) (sec : Nat) : ∀ {s : State}, Memory.wf s.mem → Memory.wf (quiesceN n s sec).mem := by
  induction n with
  | zero => exact id
  | succ n ih =>
    intro s h
    unfold quiesceN
    split
    · exact h
    · exact ih (arrive_wf (by exact h) _)

@[simp] theorem quiesce_wf (h : Memory.wf s.mem) (sec : Nat) : Memory.wf (quiesce s sec).mem := quiesceN_wf 64 sec h
@[simp] theorem settle_wf (h : Memory.wf s.mem) (sec : Nat) : Memory.wf (settle s sec).mem := settleRaw_wf (quiesce_wf h sec) sec
@[simp] theorem exclude_wf (h : Memory.wf s.mem) (sec : Nat) : Memory.wf (exclude s sec).mem := excludeRaw_wf (quiesce_wf h sec) sec

/-! Events at the home. -/

@[simp] theorem readSettled_wf (h : Memory.wf s.mem) (sec : Nat) (c : Option Nat) (floor : Nat) :
    Memory.wf (readSettled s sec c floor).1.mem := by
  unfold readSettled
  simp only
  rw [homeTimesMax_mem]
  exact homeRead_wf (settle_wf h sec) sec c

@[simp] theorem readNow_wf (h : Memory.wf s.mem) (sec : Nat) (c : Option Nat) (floor : Nat) : Memory.wf (readNow s sec c floor).1.mem :=
  readSettled_wf (mergeMs_wf h _ _ _ _) _ _ _

@[simp] theorem putNow_wf (h : Memory.wf s.mem) (sec : Nat) (x : Sector) (mask : BitVec 64) (c : Option Nat) :
    Memory.wf (putNow s sec x mask c).mem := by
  unfold putNow
  refine putSector_wf (prepareMask_wf (foldl_wf (fun s p h => ?_) _ (exclude_wf h sec)) _ _) _ _ _ _
  split
  · exact h
  · exact mergeMs_wf h _ _ _ _

@[simp] theorem writeNow_wf (h : Memory.wf s.mem) (sec : Nat) (x : Sector) (mask : BitVec 64) (c : Option Nat) (ts : Nat) :
    Memory.wf (writeNow s sec x mask c ts).mem := putNow_wf h _ _ _ _

@[simp] theorem retag_mem (sec key : Nat) : (retag s sec key).mem = s.mem := by
  unfold retag
  split
  · rfl
  · simp only
    split <;> rfl

@[simp] theorem retain_wf (h : Memory.wf s.mem) (die sec : Nat) : Memory.wf (retain s die sec).mem := by
  have hs := settle_wf h sec
  unfold retain
  simp only
  split
  · split
    · exact hs
    · exact hs
  · rwa [l2Install_mem, dirPut_mem]

@[simp] theorem retainSector_wf (h : Memory.wf s.mem) (die sec : Nat) (ms : Bool) : Memory.wf (retainSector s die sec ms).mem := by
  unfold retainSector
  split
  · exact h
  · exact retain_wf h _ _

@[simp] theorem frameBack_wf (h : Memory.wf s.mem) (f : SpadFrame) : Memory.wf (frameBack s f).mem := by
  unfold frameBack
  split
  · exact h
  · split
    · refine foldl_wf (fun s i h => ?_) _ h
      simp only [homeTimesMax_mem]
      split
      · exact retainSector_wf (writeNow_wf (by rwa [retag_mem]) _ _ _ _ _) _ _ _
      · exact h
    · exact h
    · exact h

end Sys2Proof.Canonical

/-! SUPPORT. What keeps memory in its canonical form: traps, exits, and the lanes of an instruction. -/

namespace Sys2Proof.Canonical

open Sys2Proof.Machine

variable {s : State}

/-! Threads and barriers. -/

@[simp] theorem holdAt_mem (t : Nat) (w : Wait) : (holdAt s t w).mem = s.mem := rfl
@[simp] theorem raisePtime_mem (t ts : Nat) : (raisePtime s t ts).mem = s.mem := rfl
@[simp] theorem advance_mem (t : Nat) (pc : DWord) (len : Nat) : (advance s t pc len).mem = s.mem := rfl
@[simp] theorem goto_mem (t : Nat) (x : DWord) : (goto s t x).mem = s.mem := rfl
@[simp] theorem lowerCtr_mem (t : Nat) (c : Ctr) : (lowerCtr s t c).mem = s.mem := rfl
@[simp] theorem dropMonitor_mem (t : Nat) : (dropMonitor s t).mem = s.mem := rfl
@[simp] theorem busyRecord_mem (g : Nat) (r : TrapReq) (ts : List Nat) : (busyRecord s g r ts).mem = s.mem := rfl
@[simp] theorem raiseFences_mem (id t : Nat) : (raiseFences s id t).mem = s.mem := rfl

@[simp] theorem holdThreads_mem (w : Wait) (ts : List Nat) : (ts.foldl (fun s t => holdAt s t w) s).mem = s.mem :=
  foldl_mem (fun _ _ => by rfl) ts s

@[simp] theorem holdRequests_mem (w : Wait) (rs : List TrapReq) : (rs.foldl (fun s r => holdAt s r.tid w) s).mem = s.mem :=
  foldl_mem (fun _ _ => by rfl) rs s

@[simp] theorem enterHandler_mem (ts : List Nat) (acc : Nat) (f : Thread → Thread) : (enterHandler s ts acc f).mem = s.mem :=
  foldl_mem (fun _ _ => by rfl) ts s

@[simp] theorem retagAll_mem (secs : List Nat) (ks : List (Nat × Nat)) : (retagAll s secs ks).mem = s.mem :=
  foldl_mem (fun _ _ => retag_mem _ _) secs s

@[simp] theorem releaseEpisode_mem (e : Episode) (ts : List Nat) : (releaseEpisode s e ts).mem = s.mem :=
  foldl_mem (fun _ _ => by rfl) e.waiting s

@[simp] theorem settleBarriers_mem (team : Nat) : (settleBarriers s team).mem = s.mem := by
  unfold settleBarriers
  split
  · rfl
  · simp only
    split
    · rw [ite_mem, releaseEpisode_mem, modCluster_mem, ite_self]
      split
      · rw [ite_mem, releaseEpisode_mem, modTeam_mem, ite_self]
      · rfl
    · split
      · rw [ite_mem, releaseEpisode_mem, modTeam_mem, ite_self]
      · rfl

@[simp] theorem stopContext_mem (c code addr : Nat) (record : List Byte) (second : Option Nat) :
    (stopContext s c code addr record second).mem = s.mem := by
  unfold stopContext
  split
  · rfl
  · simp only [modCtx_mem]
    exact foldl_mem (fun _ _ => by rfl) _ s

@[simp] theorem reclaim_mem (t : Nat) : (reclaim s t).mem = s.mem := by
  unfold reclaim
  split
  · rfl
  · simp only
    split
    · rw [ite_mem, modGroup_mem, ite_self]
    · rw [ite_mem, modCore_mem, modTeam_mem, ite_mem, modGroup_mem, ite_self, ite_self]

@[simp] theorem endAccess_mem (a : Access) : (endAccess s a).mem = s.mem := by
  unfold endAccess
  refine (foldl_mem (fun s t => ?_) _ _).trans ?_
  · rw [ite_mem, settleBarriers_mem, raiseFences_mem, lowerCtr_mem, ite_self]
  · split <;> rfl

/-! Bytes that the device writes as one event. -/

@[simp] theorem writeBytesNow_wf (h : Memory.wf s.mem) (pa : Nat) (bs : List Byte) (c : Option Nat) (floor : Nat) :
    Memory.wf (writeBytesNow s pa bs c floor).1.mem := by
  unfold writeBytesNow
  split
  · exact h
  · exact foldl_wf (fun _ _ h => writeNow_wf h _ _ _ _ _) _ h

/-- Pieces written one after another. -/
theorem writePiecesNow_wf (c : Option Nat) (l : List (Nat × Nat)) (bs : List Byte) (floor : Nat) (h : Memory.wf s.mem) :
    Memory.wf (l.foldl (fun (acc : State × List Byte × Nat) p =>
      ((writeBytesNow acc.1 p.1 (acc.2.1.take p.2) c acc.2.2).1, acc.2.1.drop p.2,
        (writeBytesNow acc.1 p.1 (acc.2.1.take p.2) c acc.2.2).2)) (s, bs, floor)).1.mem :=
  foldl_kept (p := fun acc : State × List Byte × Nat => Memory.wf acc.1.mem) (fun _ _ h => writeBytesNow_wf h _ _ _ _) l h

theorem virtStore_wf {c va floor : Nat} {bs : List Byte} {p : State × Nat} (h : Memory.wf s.mem)
    (hv : virtStore s c va bs floor = .ok p) : Memory.wf p.1.mem := by
  unfold virtStore at hv
  split at hv
  · cases hv
  · cases hv
  · cases hv
    exact writePiecesNow_wf _ _ _ _ (by rwa [retagAll_mem])

/-! Reads of events. -/

@[simp] theorem readBytesNow_wf (h : Memory.wf s.mem) (pa n : Nat) (c : Option Nat) (floor : Nat) :
    Memory.wf (readBytesNow s pa n c floor).1.mem := by
  unfold readBytesNow
  extract_lets bs secs s1
  have h1 : Memory.wf s1.mem := foldl_wf (fun _ _ h => mergeMs_wf h _ _ _ _) _ h
  refine foldl_wf (fun s sec h => ?_) _ ?_
  · rw [homeTimesMax_mem]
    exact h
  · refine foldl_kept (p := fun acc : State × Nat => Memory.wf acc.1.mem) (fun acc sec h => ?_) _ h1
    exact readSettled_wf (s := acc.1) h sec c acc.2

/-! Traps. -/

@[simp] theorem leaveRecord_wf (h : Memory.wf s.mem) (t : Nat) : Memory.wf (leaveRecord s t).mem := by
  unfold leaveRecord
  split
  · exact h
  · split
    · exact h
    · simp only
      split
      · exact h
      · split
        · split
          · split
            · exact virtStore_wf (s := modGroup s _ _) h ‹_›
            · exact h
          · exact h
        · exact h

@[simp] theorem exitCore_wf (h : Memory.wf s.mem) (t : Nat) : Memory.wf (exitCore s t).mem := by
  unfold exitCore
  simp only [settleBarriers_mem, modCore_mem, modThread_mem, dropMonitor_mem]
  exact leaveRecord_wf h t

@[simp] theorem stopCore_wf (h : Memory.wf s.mem) (t code : Nat) : Memory.wf (stopCore s t code).mem := by
  unfold stopCore
  simp only [modCore_mem]
  refine foldl_wf (fun s x h => ?_) _ h
  rw [reclaim_mem]
  exact exitCore_wf h x

@[simp] theorem faultEntry_wf (h : Memory.wf s.mem) (c g : Nat) (r : TrapReq) (ts : List Nat) : Memory.wf (faultEntry s c g r ts).mem := by
  unfold faultEntry
  split
  · exact h
  · split
    · rwa [holdThreads_mem]
    · simp only
      split
      · rw [stopContext_mem]
        exact h
      · have h1 := virtStore_wf h ‹_›
        split
        · rw [stopContext_mem]
          exact h1
        · have h2 := virtStore_wf h1 ‹_›
          rw [holdThreads_mem]
          exact h2

theorem sendRecord_sent {g acc : Nat} {r : TrapReq} {ts : List Nat} {stop : Bool} {s1 : State}
    (hr : sendRecord s g r ts stop = .sent s1 acc) : s1.mem = s.mem := by
  unfold sendRecord at hr
  simp only at hr
  split at hr
  · split at hr <;> cases hr
  · cases hr
  · cases hr
    rfl

@[simp] theorem takeRecord_wf (h : Memory.wf s.mem) (g : Nat) (r : TrapReq) (ts : List Nat) : Memory.wf (takeRecord s g r ts).mem := by
  unfold takeRecord
  simp only
  split
  · rw [holdThreads_mem]
    exact h
  · exact faultEntry_wf h _ _ _ _
  · rw [stopContext_mem]
    exact h
  · have hm := sendRecord_sent ‹_›
    rw [ite_mem, enterHandler_mem, enterHandler_mem, busyRecord_mem, ite_self, hm]
    exact h

@[simp] theorem vectorTraps_wf (h : Memory.wf s.mem) (g : Nat) (rs : List TrapReq) : Memory.wf (vectorTraps s g rs).mem := by
  unfold vectorTraps
  split
  · exact h
  · simp only
    split
    · exact stopCore_wf h _ _
    · split
      · rwa [holdRequests_mem]
      · split
        · rwa [stopContext_mem]
        · split
          · rwa [holdRequests_mem]
          · refine takeRecord_wf (foldl_wf (fun s x h => ?_) _ h) _ _ _
            rwa [ite_mem, holdAt_mem, ite_self]

/-- Threads that wait for the window's unit. -/
theorem windowWaits_mem (rs : List TrapReq) : (rs.foldl (fun s r =>
    if r.info.code = cSPILL then holdAt s r.tid (.spill (r.word0.extractLsb' 14 10).toNat) else holdAt s r.tid (.fill r.info.addr)) s).mem
      = s.mem :=
  foldl_mem (fun _ _ => by rw [ite_mem, holdAt_mem, holdAt_mem, ite_self]) rs s

@[simp] theorem takeTraps_wf (h : Memory.wf s.mem) (rs : List TrapReq) : Memory.wf (takeTraps s rs).mem := by
  unfold takeTraps
  extract_lets unit faults rest s1 groupOfReq s2 taken
  have h1 : Memory.wf s1.mem := by rwa [windowWaits_mem]
  have h2 : Memory.wf s2.mem := by
    refine foldl_wf (fun s k h => ?_) _ h1
    simp only
    split
    · exact h
    · exact faultEntry_wf h _ _ _ _
  split
  · exact vectorTraps_wf (by rwa [holdRequests_mem]) _ _
  · exact foldl_wf (fun _ _ h => vectorTraps_wf h _ _) _ h2

end Sys2Proof.Canonical

/-! SUPPORT. What keeps memory in its canonical form: the lanes of an instruction, and control transfer. -/

namespace Sys2Proof.Canonical

open Sys2Proof.Machine

variable {s : State}

/-! Outcomes. -/

/-- The state that an outcome goes on in keeps memory in its canonical form. -/
def StepKeeps (o : Host.Outcome State Fault Refusal) : Prop := ∀ t, o = .next t → Memory.wf t.mem

@[simp] theorem stepKeeps_next : StepKeeps (.next s) ↔ memWf s.mem = true :=
  ⟨fun h => h s rfl, fun h t ht => by cases ht; exact h⟩

/-- The same of a lane's outcome. -/
def LaneKeeps : LaneOut → Prop
  | .ok s _ => Memory.wf s.mem
  | .suspend s => Memory.wf s.mem
  | .trap _ => True
  | .hold _ => True

@[simp] theorem laneKeeps_ok (r : Res) : LaneKeeps (.ok s r) ↔ memWf s.mem = true := Iff.rfl
@[simp] theorem laneKeeps_suspend : LaneKeeps (.suspend s) ↔ memWf s.mem = true := Iff.rfl
@[simp] theorem laneKeeps_trap (i : TrapInfo) : LaneKeeps (.trap i) := trivial
@[simp] theorem laneKeeps_hold (w : Wait) : LaneKeeps (.hold w) := trivial

@[simp] theorem laneKeeps_ite {c : Prop} [Decidable c] (a b : LaneOut) :
    LaneKeeps (if c then a else b) ↔ if c then LaneKeeps a else LaneKeeps b := by split <;> rfl

/-! The lanes of an instruction. -/

@[simp] theorem orFlags_mem (t : Nat) (fl : Flags) : (orFlags s t fl).mem = s.mem := by
  unfold orFlags
  split <;> rfl

@[simp] theorem moveOn_mem (t : Nat) (pc : DWord) (len : Nat) (n : Next) : (moveOn s t pc len n).mem = s.mem := by
  cases n <;> rfl

@[simp] theorem writeLoc_mem (t : Nat) (l : Loc) (ws : List Word) : (writeLoc s t l ws).mem = s.mem := by
  cases l <;> rfl

@[simp] theorem laneWrite_mem (r : Ready) (x : Res) (wrote : List Nat) : (laneWrite s r x wrote).1.mem = s.mem := by
  unfold laneWrite
  split
  · simp only
    split
    · rfl
    · exact writeLoc_mem _ _ _
  · exact writeLoc_mem _ _ _

@[simp] theorem laneDone_mem (r : Ready) (x : Res) (wrote : List Nat) (pc : DWord) (len : Nat) :
    (laneDone s r x wrote pc len).1.mem = s.mem := by
  unfold laneDone
  simp only [moveOn_mem, orFlags_mem, laneWrite_mem]
  rfl

section Body

variable {body : State → Ready → LaneOut} (hb : ∀ s r, Memory.wf s.mem → LaneKeeps (body s r))
include hb

theorem laneStep_wf {acc : LaneAcc} (h : Memory.wf acc.s.mem) (pc : DWord) (len : Nat) (p : Nat × Prep) :
    Memory.wf (laneStep pc len body acc p).s.mem := by
  unfold laneStep
  split
  · exact h
  · exact h
  · exact h
  · next r _ =>
    have hr := hb acc.s r h
    split
    · exact h
    · exact h
    · next hs => rwa [hs] at hr
    · next hs =>
      rw [hs] at hr
      rw [laneDone_mem]
      exact hr

theorem runPreps_wf (h : Memory.wf s.mem) (iss : Issue) (opc : BitVec 8) (f : Form) (ps : List (Nat × Prep)) :
    Memory.wf (runPreps s iss opc f ps body).mem := by
  have hacc : Memory.wf (ps.foldl (laneStep iss.pc f.len.bytes body) ⟨s, [], []⟩).s.mem :=
    foldl_kept (p := fun acc : LaneAcc => Memory.wf acc.s.mem) (fun _ p h => laneStep_wf hb h _ _ p) ps h
  unfold runPreps
  simp only
  split
  · exact hacc
  · exact takeTraps_wf hacc _

end Body

@[simp] theorem holdNotReady_mem (ps : List (Nat × Prep)) : (holdNotReady s ps).mem = s.mem := by
  refine foldl_mem (fun s p => ?_) ps s
  split <;> rfl

theorem runWith_keeps {opc : BitVec 8} {f : Form} {sig : Thread → Sig} {start : State → Issue → State}
    {pick : State → List (Nat × Prep) → List (Nat × Prep)} {body : Issue → List (Nat × Prep) → State → Ready → LaneOut}
    (hs : ∀ s iss, (start s iss).mem = s.mem) (hb : ∀ iss ps s r, Memory.wf s.mem → LaneKeeps (body iss ps s r))
    (h : Memory.wf s.mem) : StepKeeps (runWith opc f s sig start pick body) := by
  unfold runWith
  split
  · exact stepKeeps_next.2 h
  · split
    · exact stepKeeps_next.2 (takeTraps_wf (s := { s with cur := none }) h _)
    · refine stepKeeps_next.2 (runPreps_wf (hb _ _) ?_ _ _ _ _)
      rw [ite_mem, hs, ite_self, holdNotReady_mem]
      exact h

theorem runLanes_keeps {opc : BitVec 8} {f : Form} {body : Issue → List (Nat × Prep) → State → Ready → LaneOut}
    (hb : ∀ iss ps s r, Memory.wf s.mem → LaneKeeps (body iss ps s r)) (h : Memory.wf s.mem) : StepKeeps (runLanes opc f s body) :=
  runWith_keeps (fun _ _ => rfl) hb h

theorem runValue_keeps (h : Memory.wf s.mem) (opc : BitVec 8) (f : Form) (w : Nat) (value : Ready → DWord) :
    StepKeeps (runValue opc f s w value) := runLanes_keeps (fun _ _ _ _ h => h) h

theorem runFlagged_keeps (h : Memory.wf s.mem) (opc : BitVec 8) (f : Form) (w : Nat) {start : State → Issue → State}
    (hs : ∀ s iss, (start s iss).mem = s.mem) (value : Issue → Ready → FRes) : StepKeeps (runFlagged opc f s w start value) :=
  runWith_keeps hs (fun _ _ _ _ h => h) h

theorem runFloat_keeps (h : Memory.wf s.mem) (opc : BitVec 8) (f : Form) (op : Rnd → Val → Val → Val → Exact) :
    StepKeeps (runFloat opc f s op) := runFlagged_keeps h _ _ _ (fun _ _ => rfl) _

theorem runPass_keeps (h : Memory.wf s.mem) (opc : BitVec 8) (f : Form) (op : Rnd → Val → Val → Exact) :
    StepKeeps (runPass opc f s op) := runFlagged_keeps h _ _ _ (fun _ _ => rfl) _

@[simp] theorem convStart_mem (opc : BitVec 8) (f : Form) (iss : Issue) : (convStart opc f s iss).mem = s.mem := by
  unfold convStart advanceGen
  split
  · exact modCore_mem _ _ _ _
  · rfl

/-! The end of a thread. -/

@[simp] theorem trapSigners_wf (h : Memory.wf s.mem) (sigs : List Signature) (i : TrapInfo) : Memory.wf (trapSigners s sigs i).mem := by
  refine takeTraps_wf ?_ _
  rw [foldl_mem fun _ _ => by rfl]
  exact h

@[simp] theorem convUnreachable_wf (h : Memory.wf s.mem) (team k : Nat) : Memory.wf (convUnreachable s team k).mem := by
  unfold convUnreachable
  split
  · exact h
  · split
    · exact h
    · refine trapSigners_wf ?_ _ _
      rw [foldl_mem fun _ _ => by rfl]
      exact h

@[simp] theorem exitThread_wf (h : Memory.wf s.mem) (t : Nat) : Memory.wf (exitThread s t).mem := by
  unfold exitThread
  simp only [reclaim_mem]
  exact foldl_wf (fun _ _ h => convUnreachable_wf h _ _) _ (exitCore_wf h t)

/-! Control transfer. -/

theorem branchTo_keeps (h : Memory.wf s.mem) (r : Ready) (t : DWord) : LaneKeeps (branchTo s r t) := by
  unfold branchTo
  split
  · trivial
  · exact h

theorem callTo_keeps (h : Memory.wf s.mem) (pc : DWord) (f : Form) (r : Ready) (t : DWord) : LaneKeeps (callTo s pc f r t) := by
  unfold callTo
  split
  · exact h
  · simp [h]

@[simp] theorem undefStack_mem (t at_ n : Nat) : (undefStack s t at_ n).mem = s.mem := rfl

theorem returnLane_keeps (h : Memory.wf s.mem) (r : Ready) : LaneKeeps (returnLane s r) := by
  unfold returnLane
  split
  · exact h
  · split
    · simp [h]
    · exact exitThread_wf h r.tid

@[simp] theorem freeLoops_mem (die site part : Nat) : (freeLoops s die site part).mem = s.mem := modCore_mem _ _ _ _
@[simp] theorem takeGrant_mem (die site t : Nat) : (takeGrant s die site t).mem = s.mem := modCore_mem _ _ _ _

theorem takeLoop_mem {die site part grid ctx : Nat} {start stop : DWord} {s1 : State} {v : Nat}
    (hp : takeLoop s die site part grid ctx start stop = some (s1, v)) : s1.mem = s.mem := by
  unfold takeLoop at hp
  split at hp
  · split at hp <;> cases hp
    · exact modCore_mem _ _ _ _
    · rfl
  · simp only at hp
    split at hp <;> cases hp
    rw [modCore_mem, freeLoops_mem]

theorem enterLoop_mem {die site part grid ctx : Nat} {start stop : DWord} {s1 : State} {v : Nat}
    (hp : enterLoop s die site part grid ctx start stop = some (s1, v)) : s1.mem = s.mem := by
  unfold enterLoop at hp
  split at hp
  · cases hp
  · exact takeLoop_mem hp

theorem loopLane_keeps (h : Memory.wf s.mem) (pc : DWord) (f : Form) (r : Ready) : LaneKeeps (loopLane s pc f r) := by
  unfold loopLane
  simp only
  split
  · exact h
  · split
    · split
      · trivial
      · next hp => simp [enterLoop_mem hp, h]
    · exact h

@[simp] theorem grantLoop_mem (die site part : Nat) : (grantLoop s die site part).mem = s.mem := by
  unfold grantLoop
  split
  · rfl
  · split
    · rfl
    · next hp => simp [takeLoop_mem hp]

/-! Memory instructions as they issue. -/

@[simp] theorem cachePage_mem (c page : Nat) : (cachePage s c page).mem = s.mem := by
  unfold cachePage
  split
  · rfl
  · split
    · split <;> rfl
    · rfl
    · rfl

@[simp] theorem cacheRange_mem (c va n : Nat) : (cacheRange s c va n).mem = s.mem := by
  unfold cacheRange
  split
  · rfl
  · exact foldl_mem (fun _ _ => cachePage_mem _ _) _ s

@[simp] theorem cacheAccess_mem (a : Access) : (cacheAccess s a).mem = s.mem := by
  unfold cacheAccess
  split <;> simp

@[simp] theorem raiseCtr_mem (t : Nat) (c : Ctr) : (raiseCtr s t c).mem = s.mem := rfl

@[simp] theorem enqueue_mem (a : Access) : (enqueue s a).mem = s.mem :=
  (foldl_mem (fun _ _ => by rfl) a.owners _).trans (cacheAccess_mem a)

@[simp] theorem staleCopies_mem (t die site sec : Nat) : (staleCopies s t die site sec).1.mem = s.mem := by
  unfold staleCopies
  simp

@[simp] theorem withCopies_mem (a : Access) : (withCopies s a).1.mem = s.mem := by
  unfold withCopies
  split
  · split
    · rfl
    · exact staleCopies_mem a.tid a.die a.site _
  · rfl

@[simp] theorem enqueueLoad_mem (a : Access) : (enqueueLoad s a).mem = s.mem := (enqueue_mem _).trans (withCopies_mem a)

@[simp] theorem startOp_mem (e : EngineOp) : (startOp s e).mem = s.mem := by
  unfold startOp
  simp only
  split <;> rfl

theorem loadLane_keeps (h : Memory.wf s.mem) (opc : BitVec 8) (f : Form) (r : Ready) : LaneKeeps (loadLane opc f s r) := by
  unfold loadLane
  split
  · trivial
  · simp only
    split <;> simp [h]

theorem storeLane_keeps (h : Memory.wf s.mem) (r : Ready) (space ea n align : Nat) (bs : List Byte) (wholes : List Nat) :
    LaneKeeps (storeLane s r space ea n align bs wholes) := by
  unfold storeLane
  split
  · trivial
  · split <;> simp [h]

theorem ldtLane_keeps (h : Memory.wf s.mem) (f : Form) (r : Ready) : LaneKeeps (ldtLane f s r) := by
  unfold ldtLane
  split
  · trivial
  · split
    · trivial
    · simp [h]
    · extract_lets n
      split
      · trivial
      · split <;> simp [h]

theorem sttLane_keeps (h : Memory.wf s.mem) (f : Form) (r : Ready) (wholes : List Nat) : LaneKeeps (sttLane f s r wholes) := by
  unfold sttLane
  split
  · trivial
  · split
    · trivial
    · simp [h]
    · split
      · trivial
      · exact storeLane_keeps h _ _ _ _ _ _ _

theorem copyLane_keeps (h : Memory.wf s.mem) (opc : BitVec 8) (f : Form) (r : Ready) : LaneKeeps (copyLane opc f s r) := by
  unfold copyLane
  extract_lets xf d a n c m dx sx ds ss src ks s1
  have h1 : s1.mem = s.mem := by simp only [s1, cacheRange_mem]
  split
  · exact h
  · split
    · trivial
    · split
      · trivial
      · split
        · trivial
        · trivial
        · split
          · trivial
          · trivial
          · simp [h, h1]

theorem matzLane_keeps (h : Memory.wf s.mem) (r : Ready) : LaneKeeps (matzLane s r) := by
  unfold matzLane
  simp only
  split
  · trivial
  · split
    · trivial
    · split
      · trivial
      · split
        · trivial
        · split <;> simp [h]

theorem alqLane_keeps (h : Memory.wf s.mem) (r : Ready) : LaneKeeps (alqLane s r) := by
  unfold alqLane
  simp only
  split
  · trivial
  · split
    · trivial
    · split <;> simp [h]

@[simp] theorem pinWindow_mem (c a n : Nat) : (pinWindow s c a n).1.mem = s.mem := by
  unfold pinWindow
  split
  · rfl
  · simp [apply_ite Prod.fst]

theorem pinLane_keeps (h : Memory.wf s.mem) (r : Ready) : LaneKeeps (pinLane s r) := by
  unfold pinLane
  simp only
  split
  · trivial
  · split
    · trivial
    · split
      · trivial
      · split <;> simp [h]

theorem flushLane_keeps (h : Memory.wf s.mem) (f : Form) (r : Ready) (need : Need) (discard : Bool) :
    LaneKeeps (flushLane f s r need discard) := by
  unfold flushLane
  simp only
  split
  · trivial
  · split
    · trivial
    · split
      · trivial
      · split
        · trivial
        · split <;> simp [h]

theorem atomLane_keeps (h : Memory.wf s.mem) (f : Form) (r : Ready) : LaneKeeps (atomLane f s r) := by
  unfold atomLane
  simp only
  split
  · trivial
  · split <;> simp [h]

theorem acasLane_keeps (h : Memory.wf s.mem) (f : Form) (r : Ready) : LaneKeeps (acasLane f s r) := by
  unfold acasLane
  simp only
  split
  · trivial
  · split <;> simp [h]

theorem redLane_keeps (h : Memory.wf s.mem) (f : Form) (r : Ready) : LaneKeeps (redLane f s r) := by
  unfold redLane
  simp only
  split
  · trivial
  · split
    · trivial
    · trivial
    · split
      · exact h
      · simp [h]

end Sys2Proof.Canonical

/-! SUPPORT. What keeps memory in its canonical form: a core's copies, the scratchpads and the window's unit. -/

namespace Sys2Proof.Canonical

open Sys2Proof.Machine

variable {s : State}

/-! A core's copies. -/

@[simp] theorem l1Room_mem (die site line : Nat) : (l1Room s die site line).mem = s.mem := by
  unfold l1Room
  simp only
  split
  · rfl
  · split
    · rfl
    · split
      · rfl
      · rw [modCore_mem]
        exact foldl_mem (fun _ _ => l1Yield_mem _ _) _ s

@[simp] theorem l1Fill_mem (die site : Nat) (x : L1Sector) : (l1Fill s die site x).mem = s.mem := by
  unfold l1Fill
  simp only [setCore_mem, l1Room_mem]

theorem keeperRead_mem {t die site ctx sec : Nat} {wb : Bool} {r : State × Sector}
    (h : keeperRead s t die site ctx sec wb = some r) : r.1.mem = s.mem := by
  unfold keeperRead at h
  extract_lets pt c lease s2 below at h
  have h2 : s2.mem = s.mem := collapseL1_mem die sec
  have hb : below = some r → r.1.mem = s.mem := by
    intro h
    unfold below at h
    split at h
    · split at h <;> cases h
      simp [h2]
    · cases h
  split at h
  · split at h
    · cases h
      simp
    · split at h
      · cases h
        simp
      · exact hb h
  · exact hb h

theorem loadPass_mem (a : Access) : (loadPass s a).1.mem = s.mem := by
  refine foldl_kept (p := fun acc : State × List Byte => acc.1.mem = s.mem) (fun acc p h => ?_) _ rfl
  split
  · next hk => exact (keeperRead_mem hk).trans h
  · exact h

theorem loadKeepers_mem {a : Access} {r : State × List Byte} (n : Nat) :
    ∀ {s : State}, loadKeepers n s a = .ok r → r.1.mem = s.mem := by
  induction n with
  | zero =>
    intro s h
    rw [← Except.ok.inj h]
    exact loadPass_mem a
  | succ n ih =>
    intro s h
    unfold loadKeepers at h
    split at h
    · simp only at h
      split at h
      · rw [← Except.ok.inj h]
        exact loadPass_mem a
      · exact (ih h).trans (loadPass_mem a)
    · cases h

@[simp] theorem refreshL1_mem (die site sec ts : Nat) : (refreshL1 s die site sec ts).mem = s.mem := by
  unfold refreshL1
  simp only
  split <;> simp

@[simp] theorem keeperAllocate_mem (die site sec : Nat) : (keeperAllocate s die site sec).mem = s.mem := by
  unfold keeperAllocate
  split <;> simp

/-- What a write of its keeper's copy does once its bytes are prepared. -/
theorem keeperWrite_wf (h : Memory.wf s.mem) (die site sec : Nat) (x : Sector) (mask : BitVec 64) (ts : Nat) (k : Option Nat) :
    Memory.wf (keeperWrite s die site sec x mask ts k).mem := by
  have hp := prepareMask_wf h sec mask
  have hf : ∀ formed, Memory.wf (if formed = 0#64 then prepareMask s sec mask else putSector (prepareMask s sec mask) sec x formed k).mem := by
    intro formed
    split
    · exact hp
    · exact putSector_wf hp _ _ _ _
  unfold keeperWrite
  extract_lets formed s1 s2 c s3
  have h2 : Memory.wf s2.mem := hf formed
  have h3 : s3.mem = s2.mem := collapseL1_mem _ _
  split
  · split
    · rw [setCore_mem]
      exact h2
    · split
      · rw [setCore_mem, l2Mod_mem, h3]
        exact h2
      · rw [h3]
        exact h2
  · split
    · rw [l2Mod_mem, h3]
      exact h2
    · rw [h3]
      exact h2

theorem dirRoom_wf {sec : Nat} {s1 : State} (h : Memory.wf s.mem) (hr : dirRoom s sec = some s1) : Memory.wf s1.mem := by
  unfold dirRoom at hr
  split at hr <;> cases hr
  · exact h
  · refine foldl_wf (fun s k h => ?_) _ h
    split
    · exact h
    · exact exclude_wf h _

@[simp] theorem homeRequest_wf (h : Memory.wf s.mem) (sec : Nat) (req : HomeReq) : Memory.wf (homeRequest s sec req).mem := by
  unfold homeRequest
  split
  · exact h
  · extract_lets serve
    have hs : ∀ {s : State}, Memory.wf s.mem → Memory.wf (serve s).mem := by
      intro s h
      unfold serve
      split
      · exact homeServe_wf (dirRoom_wf h ‹_›) _ _ _
      · exact h
    split
    · split
      · split
        · exact h
        · exact hs (by exact h)
      · split
        · exact hs h
        · exact h
    · exact hs h

@[simp] theorem acquireNow_wf (h : Memory.wf s.mem) (die site sec : Nat) (write : Bool) : Memory.wf (acquireNow s die site sec write).mem := by
  have hq := quiesce_wf h sec
  unfold acquireNow
  simp only
  generalize (if write = true then keeperOwns (quiesce s sec) die site sec else _) = held
  split
  · exact hq
  · exact quiesce_wf (homeRequest_wf hq _ _) _

theorem coreRead_wf (h : Memory.wf s.mem) (t die site ctx sec : Nat) (ms wb : Bool) :
    Memory.wf (coreRead s t die site ctx sec ms wb).1.mem := by
  have hq := acquireNow_wf h die site sec false
  unfold coreRead
  extract_lets atHome s1
  have hhome : ∀ {s : State}, Memory.wf s.mem → Memory.wf (atHome s).1.mem := by
    intro s h
    unfold atHome
    simp only [raisePtime_mem]
    exact readNow_wf h _ _ _
  split
  · exact hhome h
  · split
    · next hk =>
      rw [keeperRead_mem hk]
      exact h
    · split
      · next hk =>
        rw [keeperRead_mem hk]
        exact hq
      · exact hhome hq

theorem coreWrite_wf (h : Memory.wf s.mem) (die site ctx sec : Nat) (x : Sector) (mask : BitVec 64) (ms wb : Bool) (floor : Nat) :
    Memory.wf (coreWrite s die site ctx sec x mask ms wb floor).1.mem := by
  have hq := acquireNow_wf h die site sec true
  have hhome : ∀ {s : State}, Memory.wf s.mem → ∀ ts, Memory.wf (refreshL1 (writeNow s sec x mask (some ctx) ts) die site sec ts).mem := by
    intro s h ts
    rw [refreshL1_mem]
    exact writeNow_wf h _ _ _ _ _
  unfold coreWrite
  split
  · exact hhome h _
  · simp only
    split
    · refine keeperWrite_wf ?_ _ _ _ _ _ _ _
      rw [ite_mem, keeperAllocate_mem, ite_self]
      exact hq
    · exact hhome hq _

theorem loadPieces_wf (h : Memory.wf s.mem) (t die site c : Nat) (ps : List (Nat × Nat)) (ms wb : Bool) :
    Memory.wf (loadPieces s t die site c ps ms wb).1.mem := by
  refine foldl_kept (p := fun acc : State × List Byte => Memory.wf acc.1.mem) (fun acc p h => ?_) _ h
  exact foldl_kept (p := fun a : State × List Byte => Memory.wf a.1.mem) (fun a sec h => coreRead_wf (s := a.1) h t die site c sec ms wb) _ h

theorem storePieces_wf (h : Memory.wf s.mem) (die site c : Nat) (ps : List (Nat × Nat)) (bs : List Byte) (ms wb : Bool) (floor : Nat) :
    Memory.wf (storePieces s die site c ps bs ms wb floor).1.mem := by
  unfold storePieces
  refine foldl_kept (p := fun acc : State × List Byte × Nat => Memory.wf acc.1.mem) (fun acc p h => ?_) _ h
  exact foldl_kept (p := fun a : State × Nat => Memory.wf a.1.mem)
    (fun a sec h => coreWrite_wf (s := a.1) h die site c sec _ _ ms wb a.2) _ h

/-! The window's unit. -/

theorem ownLoad_wf {t va n : Nat} {wb : Bool} {s1 : State} {bs : List Byte} (h : Memory.wf s.mem)
    (hl : ownLoad s t va n wb = .ok (s1, bs)) : Memory.wf s1.mem := by
  unfold ownLoad at hl
  split at hl
  · cases hl
  · cases hl
  · split at hl
    · cases hl
    · split at hl
      · cases hl
      · cases hl
        exact loadPieces_wf h _ _ _ _ _ _ _

theorem unitStore_wf {t va : Nat} {bs : List Byte} {s1 : State} (h : Memory.wf s.mem) (hl : unitStore s t va bs = .ok s1) :
    Memory.wf s1.mem := by
  unfold unitStore at hl
  split at hl
  · cases hl
  · cases hl
  · split at hl <;> cases hl
    rw [raisePtime_mem, retagAll_mem]
    exact storePieces_wf h _ _ _ _ _ _ _ _

@[simp] theorem markPoison_mem (t va : Nat) : (markPoison s t va).mem = s.mem := by
  unfold markPoison
  split <;> rfl

theorem storePositions_wf {t : Nat} {s1 : State} (ps : List Nat) :
    ∀ {s : State}, Memory.wf s.mem → storePositions t ps s = .ok s1 → Memory.wf s1.mem := by
  induction ps with
  | nil =>
    intro s h hs
    cases hs
    exact h
  | cons p ps ih =>
    intro s h hs
    unfold storePositions at hs
    split at hs
    · cases hs
      exact h
    · split at hs
      · cases hs
      · next hu =>
        refine ih ?_ hs
        rw [ite_mem, markPoison_mem, ite_self]
        exact unitStore_wf h hu

theorem spillFrames_wf (t : Nat) (ds : List Nat) : ∀ {s : State}, Memory.wf s.mem → Memory.wf (spillFrames t ds s).1.mem := by
  induction ds with
  | nil => exact id
  | cons d ds ih =>
    intro s h
    unfold spillFrames
    split
    · exact h
    · split
      · exact h
      · split
        · exact h
        · have h1 := storePositions_wf _ h ‹_›
          split
          · exact h1
          · exact ih (unitStore_wf h1 ‹_›)

theorem loadPositions_wf {t : Nat} {s1 : State} (ps : List Nat) :
    ∀ {s : State}, Memory.wf s.mem → loadPositions t ps s = .ok s1 → Memory.wf s1.mem := by
  induction ps with
  | nil =>
    intro s h hs
    cases hs
    exact h
  | cons p ps ih =>
    intro s h hs
    unfold loadPositions at hs
    split at hs
    · cases hs
    · next hl =>
      refine ih ?_ hs
      rw [modThread_mem]
      exact ownLoad_wf h hl

theorem fillFrame_wf {t d : Nat} {s1 : State} (h : Memory.wf s.mem) (hf : fillFrame s t d = .ok s1) : Memory.wf s1.mem := by
  unfold fillFrame at hf
  split at hf
  · cases hf
  · next hl =>
    have h1 := ownLoad_wf h hl
    simp only at hf
    split at hf
    · cases hf
      exact h1
    · split at hf <;> cases hf
      next hp =>
      rw [modThread_mem]
      refine loadPositions_wf _ ?_ hp
      rw [modThread_mem]
      exact h1

theorem fillDown_wf {t d : Nat} {s1 : State} (n : Nat) : ∀ {s : State}, Memory.wf s.mem → fillDown t n d s = .ok s1 → Memory.wf s1.mem := by
  induction n with
  | zero =>
    intro s h hf
    cases hf
    exact h
  | succ n ih =>
    intro s h hf
    unfold fillDown at hf
    split at hf
    · cases hf
      exact h
    · split at hf
      · cases hf
        exact h
      · split at hf
        · cases hf
        · exact ih (fillFrame_wf h ‹_›) hf

/-! Scratchpads. -/

@[simp] theorem framePut_mem (f : SpadFrame) : (framePut s f).mem = s.mem := by
  unfold framePut
  split <;> simp

@[simp] theorem frameIn_mem (t : Team) (f : SpadFrame) : (frameIn s t f).mem = s.mem := modCore_mem _ _ _ _

@[simp] theorem wakeArrivals_mem (team sec : Nat) : (wakeArrivals s team sec).mem = s.mem := rfl

theorem spadRead_mem (r : SpadRef) (n floor : Nat) : (spadRead s r n floor).1.mem = s.mem := by
  unfold spadRead
  simp only
  split <;> simp

@[simp] theorem refill_wf (h : Memory.wf s.mem) (team page : Nat) : Memory.wf (refill s team page).mem := by
  unfold refill
  split
  · split
    · exact h
    · extract_lets place
      have hp : ∀ {s : State}, Memory.wf s.mem → Memory.wf (place s).mem := by
        intro s h
        unfold place
        split
        · rw [frameIn_mem]
          exact h
        · split
          · rw [frameIn_mem]
            exact foldl_wf (fun _ _ h => retainSector_wf (homeRead_wf h _ _) _ _ _) _ h
          · exact h
          · exact h
      split
      · exact h
      · exact hp h
      · refine hp ?_
        rw [modCore_mem]
        exact frameBack_wf h _
  · exact h

@[simp] theorem spadFill_wf (h : Memory.wf s.mem) (r : SpadRef) (n : Nat) : Memory.wf (spadFill s r n).mem := by
  refine foldl_wf (fun s p h => ?_) _ h
  split
  · exact h
  · exact refill_wf h _ _

@[simp] theorem touchPage_wf (h : Memory.wf s.mem) (team page : Nat) : Memory.wf (touchPage s team page).mem := by
  unfold touchPage
  split
  · exact h
  · split
    · exact h
    · simp only
      split
      · exact retainSector_wf (writeBytesNow_wf (by exact h) _ _ _ _) _ _ _
      · exact h
      · exact h

theorem spadWrite_wf (h : Memory.wf s.mem) (r : SpadRef) (bs : List Byte) (floor : Nat) : Memory.wf (spadWrite s r bs floor).1.mem := by
  unfold spadWrite
  split
  · simp only [wakeArrivals_mem]
    refine touchPage_wf ?_ _ _
    rw [framePut_mem]
    exact h
  · exact h

@[simp] theorem descStore_wf (h : Memory.wf s.mem) (t ctx : Nat) (at_ : Option SpadRef) (va off : Nat) (bs : List Byte) :
    Memory.wf (descStore s t ctx at_ va off bs).mem := by
  unfold descStore
  simp only
  split
  · exact spadWrite_wf (spadFill_wf h _ _) _ _ _
  · split
    · exact virtStore_wf h ‹_›
    · exact h

end Sys2Proof.Canonical

/-! SUPPORT. What keeps memory in its canonical form: the lanes of the other instructions. -/

namespace Sys2Proof.Canonical

open Sys2Proof.Machine

variable {s : State}

/-! Waiting, barriers and arrival objects. -/

@[simp] theorem noteWaitc_mem (t : Nat) : (noteWaitc s t).mem = s.mem := rfl

@[simp] theorem suspendOn_mem (t sec : Nat) (ms : Bool) (m : Monitor) : (suspendOn s t sec ms m).mem = s.mem := by
  unfold suspendOn
  split <;> rfl

@[simp] theorem arriveTeam_mem (t : Nat) (e : Episode) : (arriveTeam s t e).mem = s.mem := settleBarriers_mem _
@[simp] theorem arriveCluster_mem (t : Nat) (e : Episode) : (arriveCluster s t e).mem = s.mem := settleBarriers_mem _

theorem waitcLane_keeps (h : Memory.wf s.mem) (f : Form) (r : Ready) : LaneKeeps (waitcLane f s r) := by
  unfold waitcLane
  extract_lets it n
  split
  · trivial
  · split
    · trivial
    · trivial
    · have hr := fun pa c pt => readBytesNow_wf (s := cacheRange s (ctxOf s r.tid) (elementAddr r n) n)
        (by rw [cacheRange_mem]; exact h) pa n c pt
      simp only
      split
      · exact hr _ _ _
      · rw [laneKeeps_suspend, suspendOn_mem]
        exact hr _ _ _

theorem barLane_keeps (h : Memory.wf s.mem) (iss : Issue) (f : Form) (r : Ready) : LaneKeeps (barLane iss f s r) := by
  unfold barLane
  split
  · trivial
  · simp only
    split
    · simp [h]
    · split <;> simp [h]

theorem cbarLane_keeps (h : Memory.wf s.mem) (iss : Issue) (f : Form) (r : Ready) : LaneKeeps (cbarLane iss f s r) := by
  unfold cbarLane
  split
  · trivial
  · simp only
    split
    · simp [h]
    · split <;> simp [h]

theorem abinitLane_keeps (h : Memory.wf s.mem) (f : Form) (r : Ready) : LaneKeeps (abinitLane f s r) := by
  unfold abinitLane
  simp only
  split
  · trivial
  · split
    · trivial
    · split <;> simp [h]

theorem abarvLane_keeps (h : Memory.wf s.mem) (f : Form) (r : Ready) : LaneKeeps (abarvLane f s r) := by
  unfold abarvLane
  split
  · trivial
  · split <;> simp [h]

theorem abwaitLane_keeps (h : Memory.wf s.mem) (f : Form) (r : Ready) : LaneKeeps (abwaitLane f s r) := by
  unfold abwaitLane
  split
  · trivial
  · split
    · trivial
    · trivial
    · split
      · have hf := fun a n => spadFill_wf h a n
        simp only
        split
        · trivial
        · split
          · rw [laneKeeps_ok, raisePtime_mem, spadRead_mem]
            exact hf _ _
          · rw [laneKeeps_suspend, holdAt_mem, raisePtime_mem, spadRead_mem]
            exact hf _ _
      · exact h
      · exact h

theorem fencegLane_keeps (h : Memory.wf s.mem) (iss : Issue) (f : Form) (r : Ready) : LaneKeeps (fencegLane iss f s r) := by
  unfold fencegLane
  simp [h]

theorem fencexLane_keeps (h : Memory.wf s.mem) (f : Form) (r : Ready) : LaneKeeps (fencexLane f s r) := by
  unfold fencexLane
  simp [h]

theorem waitLane_keeps (h : Memory.wf s.mem) (f : Form) (r : Ready) : LaneKeeps (waitLane f s r) := by
  unfold waitLane
  split <;> simp [h]

theorem cvgLane_keeps (h : Memory.wf s.mem) (f : Form) (r : Ready) : LaneKeeps (cvgLane f s r) := by
  unfold cvgLane
  simp only
  split <;> simp [h]

/-! Operations over Lode and engine commands. -/

theorem touchPieces_wf (h : Memory.wf s.mem) (ps : List (Nat × Nat)) (c : Option Nat) (floor : Nat) :
    Memory.wf (touchPieces s ps c floor).1.mem := by
  refine foldl_kept (p := fun acc : State × Nat => Memory.wf acc.1.mem) (fun acc p h => ?_) _ h
  exact readBytesNow_wf (s := acc.1) h p.1 p.2 c acc.2

theorem spadReads_mem (r : SpadRef) (m : Nat) (l : List Nat) (bs : List Byte) (pt : Nat) :
    (l.foldl (fun (acc : State × List Byte × Nat) i =>
      ((spadRead acc.1 ⟨r.team, r.off + 64 * i⟩ (min 64 (m - 64 * i)) acc.2.2).1,
        acc.2.1 ++ (spadRead acc.1 ⟨r.team, r.off + 64 * i⟩ (min 64 (m - 64 * i)) acc.2.2).2.1,
        (spadRead acc.1 ⟨r.team, r.off + 64 * i⟩ (min 64 (m - 64 * i)) acc.2.2).2.2)) (s, bs, pt)).1.mem = s.mem :=
  foldl_kept (p := fun acc : State × List Byte × Nat => acc.1.mem = s.mem) (fun _ _ h => by exact (spadRead_mem _ _ _).trans h) l rfl

theorem readAtIssue_wf {t space ea n align : Nat} {s1 : State} {bs : List Byte} {at_ : Option SpadRef} (h : Memory.wf s.mem)
    (hr : readAtIssue s t space ea n align = .ok s1 bs at_) : Memory.wf s1.mem := by
  unfold readAtIssue at hr
  split at hr
  · cases hr
  · split at hr
    · cases hr
    · cases hr
    · simp only at hr
      split at hr
      · split at hr
        · cases hr
        · cases hr
          rw [raisePtime_mem]
          refine Eq.subst (motive := fun m => Memory.wf m) (spadReads_mem _ _ _ _ _).symm (spadFill_wf h _ _)
      · split at hr
        · cases hr
        · cases hr
          rw [raisePtime_mem]
          exact touchPieces_wf (by rw [cacheRange_mem]; exact h) _ _ _
      · cases hr
        exact h

@[simp] theorem lodeFinish_wf (h : Memory.wf s.mem) (o : LodeOp) (status : Nat) : Memory.wf (lodeFinish s o status).mem := by
  unfold lodeFinish
  simp only [raiseFences_mem, lowerCtr_mem]
  exact descStore_wf (by exact h) _ _ _ _ _ _

@[simp] theorem sendGet_mem (e : EngineOp) : (sendGet s e).mem = s.mem := by
  unfold sendGet
  split <;> rfl

@[simp] theorem lodeStart_wf (h : Memory.wf s.mem) (o : LodeOp) (ps keys : List (Nat × Nat)) : Memory.wf (lodeStart s o ps keys).mem := by
  have hc : (cacheRange s o.ctx o.local_.toNat o.len).mem = s.mem := cacheRange_mem _ _ _
  unfold lodeStart
  generalize cacheRange s o.ctx o.local_.toNat o.len = s1 at hc
  rw [← hc] at h
  simp only
  split
  · exact lodeFinish_wf (by exact h) _ _
  · split
    · exact h
    · split
      · exact h
      · rw [ite_mem, sendGet_mem, startOp_mem, ite_self]
        exact h

theorem lodeLane_keeps (h : Memory.wf s.mem) (kind : Nat) (f : Form) (r : Ready) : LaneKeeps (lodeLane kind f s r) := by
  unfold lodeLane
  split
  · trivial
  · split
    · trivial
    · trivial
    · have h1 := readAtIssue_wf h ‹_›
      split
      · trivial
      · simp only
        split
        · trivial
        · trivial
        · exact lodeStart_wf h1 _ _ _

@[simp] theorem modQueue_mem (m q : Nat) (g : CQueue → CQueue) : (modQueue s m q g).mem = s.mem := rfl
@[simp] theorem atomqFinish_mem (o : LodeOp) (status : Nat) (old : DWord) : (atomqFinish s o status old).mem = s.mem := rfl

theorem atomqLane_keeps (h : Memory.wf s.mem) (f : Form) (r : Ready) : LaneKeeps (atomqLane f s r) := by
  unfold atomqLane
  simp only
  split
  · trivial
  · simp [h]

theorem cqpopLane_keeps (h : Memory.wf s.mem) (f : Form) (r : Ready) : LaneKeeps (cqpopLane f s r) := by
  unfold cqpopLane
  simp only
  split
  · trivial
  · split <;> simp [h]

@[simp] theorem takeSlot_mem (t : Nat) (e : EngineOp) : (takeSlot s t e).1.mem = s.mem := by
  unfold takeSlot
  split
  · simp only
    split <;> simp
  · rfl

theorem xopLane_keeps (h : Memory.wf s.mem) (reply : Bool) (f : Form) (s0 : State) (r : Ready) : LaneKeeps (xopLane reply f s0 s r) := by
  unfold xopLane
  simp only
  split
  · trivial
  · split
    · trivial
    · split
      · trivial
      · trivial
      · have h1 := readAtIssue_wf h ‹_›
        split
        · trivial
        · split
          · trivial
          · split
            · trivial
            · split
              · trivial
              · trivial
              · rw [laneKeeps_ok, startOp_mem, raiseCtr_mem, takeSlot_mem]
                exact h1

theorem tidsetLane_keeps (h : Memory.wf s.mem) (f : Form) (r : Ready) : LaneKeeps (tidsetLane f s r) := by
  unfold tidsetLane
  split
  · trivial
  · split
    · trivial
    · trivial
    · have h1 := readAtIssue_wf h ‹_›
      extract_lets valid image
      split
      · trivial
      · rw [laneKeeps_ok, enqueue_mem]
        exact h1

theorem tidgetLane_keeps (h : Memory.wf s.mem) (f : Form) (r : Ready) : LaneKeeps (tidgetLane f s r) := by
  unfold tidgetLane
  extract_lets space bs wholes
  split
  · trivial
  · split
    · trivial
    · trivial
    · simp [h]

theorem gfireLane_keeps (h : Memory.wf s.mem) (r : Ready) : LaneKeeps (gfireLane s r) := by
  unfold gfireLane
  split <;> simp [h]

theorem nodeqLane_keeps (h : Memory.wf s.mem) (r : Ready) : LaneKeeps (nodeqLane s r) := by
  unfold nodeqLane
  split <;> simp [h]

/-! Tiles. -/

theorem tclaimLane_keeps (h : Memory.wf s.mem) (f : Form) (r : Ready) : LaneKeeps (tclaimLane f s r) := by
  unfold tclaimLane
  simp only
  split <;> simp [h]

theorem trelLane_keeps (h : Memory.wf s.mem) (f : Form) (r : Ready) : LaneKeeps (trelLane f s r) := by
  unfold trelLane
  simp [h]

theorem twaitLane_keeps (h : Memory.wf s.mem) (f : Form) (r : Ready) : LaneKeeps (twaitLane f s r) := by
  unfold twaitLane
  simp [h]

theorem mqpushLane_keeps (h : Memory.wf s.mem) (f : Form) (s0 : State) (ps : List (Nat × Prep)) (r : Ready) :
    LaneKeeps (mqpushLane f s0 ps s r) := by
  unfold mqpushLane
  simp only
  split
  · trivial
  · split
    · trivial
    · split
      · trivial
      · generalize (if f.mod.getLsbD 0 = true then 1 else 0) = space
        split <;> simp [h]

theorem mqclrLane_keeps (h : Memory.wf s.mem) (f : Form) (r : Ready) : LaneKeeps (mqclrLane f s r) := by
  unfold mqclrLane
  simp [h]

@[simp] theorem releaseSigner_mem (last : Nat) (g : Signature) : (releaseSigner last s g).mem = s.mem := by
  unfold releaseSigner
  split <;> rfl

@[simp] theorem failSigners_wf (h : Memory.wf s.mem) (sigs : List Signature) (last : Nat) (i : TrapInfo) :
    Memory.wf (failSigners s sigs last i).mem := by
  refine trapSigners_wf ?_ _ _
  rw [foldl_mem fun _ _ => by rfl]
  exact h

@[simp] theorem issueTileOp_wf (h : Memory.wf s.mem) (sigs : List Signature) (last : Signature) :
    Memory.wf (issueTileOp s sigs last).mem := by
  unfold issueTileOp
  simp only
  split
  · exact failSigners_wf (by exact h) _ _ _
  · split
    · exact failSigners_wf (by exact h) _ _ _
    · simp only [ite_mem, releaseSigner_mem, modCore_mem, foldl_mem fun s g => releaseSigner_mem (s := s) last.tid g, ite_self]
      exact h

theorem signLane_keeps (h : Memory.wf s.mem) (opc : BitVec 8) (iss : Issue) (f : Form) (r : Ready) : LaneKeeps (signLane opc iss f s r) := by
  unfold signLane
  extract_lets m k pos regs
  split
  · trivial
  · split
    · trivial
    · split
      · trivial
      · split
        · trivial
        · split
          · trivial
          · split
            · trivial
            · simp only
              split
              · exact issueTileOp_wf (by exact h) _ _
              · rw [laneKeeps_suspend, ite_mem, releaseSigner_mem, ite_self]
                exact h

theorem runSigning_keeps (h : Memory.wf s.mem) (opc : BitVec 8) (f : Form) : StepKeeps (runSigning opc f s) := by
  have hl := runLanes_keeps (opc := opc) (f := f) (body := fun iss _ s r => signLane opc iss f s r)
    (fun iss _ _ r h => signLane_keeps h opc iss f r) h
  unfold runSigning
  split
  · next s1 hs =>
    rw [hs, stepKeeps_next] at hl
    exact stepKeeps_next.2 (foldl_wf (fun _ _ h => convUnreachable_wf h _ _) _ hl)
  · intro t ht
    cases ht
  · intro t ht
    cases ht

end Sys2Proof.Canonical

/-! SUPPORT. What keeps memory in its canonical form: system instructions, PREEMPT, and how a step begins. -/

namespace Sys2Proof.Canonical

open Sys2Proof.Machine

variable {s : State}

/-! PREEMPT and the context blocks. -/

@[simp] theorem freeBlock_mem (m b : Nat) : (freeBlock s m b).mem = s.mem := rfl
@[simp] theorem beginPreempt_mem (m b : Nat) : (beginPreempt s m b).mem = s.mem := rfl

@[simp] theorem writeHeader_wf (h : Memory.wf s.mem) (c m b : Nat) : Memory.wf (writeHeader s c m b).mem := by
  unfold writeHeader
  split
  · exact virtStore_wf h ‹_›
  · split
    · simp only [modTeam_mem]
      split
      · exact faultEntry_wf h _ _ _ _
      · exact h
    · rw [stopContext_mem]
      exact h

@[simp] theorem preemptCluster_wf (h : Memory.wf s.mem) (k : Nat) : Memory.wf (preemptCluster s k).mem := by
  unfold preemptCluster
  split
  · exact h
  · simp only
    split
    · exact h
    · exact foldl_wf (fun s p h => writeHeader_wf (s := beginPreempt s p.1 p.2) h _ _ _) _ h

@[simp] theorem unloadTeam_mem (m b : Nat) : (unloadTeam s m b).mem = s.mem := by
  unfold unloadTeam
  split
  · rfl
  · simp only [modCore_mem, modTeam_mem]
    exact (foldl_mem (fun _ _ => by rfl) _ _).trans (foldl_mem (fun _ _ => by rfl) _ _)

@[simp] theorem routineEnds_wf (h : Memory.wf s.mem) (m : Nat) : Memory.wf (routineEnds s m).mem := by
  unfold routineEnds
  split
  · exact h
  · split
    · exact h
    · split
      · rw [ite_mem, freeBlock_mem, unloadTeam_mem, ite_self]
        exact h
      · simp only
        split
        · exact preemptCluster_wf (by exact h) _
        · exact h
      all_goals exact h

@[simp] theorem withdrawWaits_mem (m : Nat) (ts : List Nat) : (withdrawWaits s m ts).mem = s.mem :=
  (foldl_mem (fun _ _ => by rfl) ts _).trans (foldl_mem (fun _ _ => by rfl) _ _)

@[simp] theorem preemptFault_wf (h : Memory.wf s.mem) (c m b : Nat) (i : TrapInfo) : Memory.wf (preemptFault s c m b i).mem := by
  unfold preemptFault
  split
  · simp only [ite_mem, modTeam_mem, ite_self]
    exact faultEntry_wf h _ _ _ _
  · exact h

/-- Records that several groups' threads send one after another. -/
theorem sentAll_mem {α : Type} {g : RecordOut → α → RecordOut} (hs : ∀ s k x s1 k1, g (.sent s k) x = .sent s1 k1 → s1.mem = s.mem)
    (ho : ∀ o x s1 k1, g o x = .sent s1 k1 → ∃ s k, o = .sent s k) (l : List α) :
    ∀ (s s1 : State) (k k1 : Nat), l.foldl g (.sent s k) = .sent s1 k1 → s1.mem = s.mem := by
  induction l using List.reverseRecOn with
  | nil =>
    intro s s1 k k1 h
    cases h
    rfl
  | append_singleton l x ih =>
    intro s s1 k k1 h
    rw [List.foldl_append, List.foldl_cons, List.foldl_nil] at h
    obtain ⟨s2, k2, h2⟩ := ho _ _ _ _ h
    rw [h2] at h
    exact (hs _ _ _ _ _ h).trans (ih _ _ _ _ h2)

/-! System instructions. -/

@[simp] theorem reseed_mem (c : Nat) : (reseed s c).mem = s.mem := rfl
@[simp] theorem discardCode_mem (c a n : Nat) : (discardCode s c a n).mem = s.mem := rfl
@[simp] theorem noteSaved_mem (m : Nat) : (noteSaved s m).mem = s.mem := rfl
@[simp] theorem restoreGroup_mem (t : Nat) (bs : List Byte) : (restoreGroup s t bs).mem = s.mem := rfl
@[simp] theorem restoreThread_mem (t : Nat) (bs : List Byte) : (restoreThread s t bs).mem = s.mem := rfl

@[simp] theorem restoreTeam_mem (t : Nat) (bs : List Byte) : (restoreTeam s t bs).mem = s.mem := by
  unfold restoreTeam
  simp

@[simp] theorem rewind_mem (t wb d : Nat) : (rewind s t wb d).mem = s.mem := by
  unfold rewind
  split
  · rfl
  · simp only
    split <;> rfl

theorem mtsLane_keeps (h : Memory.wf s.mem) (n : Nat) (ps : List (Nat × Prep)) (r : Ready) : LaneKeeps (mtsLane n ps s r) := by
  unfold mtsLane
  simp [h]

theorem rttLane_keeps (h : Memory.wf s.mem) (f : Form) (r : Ready) : LaneKeeps (rttLane f s r) := by
  unfold rttLane
  split
  · split
    · trivial
    · split
      · trivial
      · split
        · trivial
        · trivial
        · next hl =>
          simp only
          refine leaveRecord_wf ?_ _
          rw [modThread_mem, rewind_mem]
          exact ownLoad_wf h hl
  · trivial

theorem partStore_wf {t a off : Nat} {bs : List Byte} {s1 : State} (h : Memory.wf s.mem) (hp : partStore s t a off bs = .ok s1) :
    Memory.wf s1.mem := by
  unfold partStore at hp
  split at hp
  · cases hp
  · exact unitStore_wf h hp

theorem partLoad_wf {t a off n : Nat} {bs : List Byte} {s1 : State} (h : Memory.wf s.mem) (hp : partLoad s t a off n = .ok (s1, bs)) :
    Memory.wf s1.mem := by
  unfold partLoad at hp
  split at hp
  · cases hp
  · exact ownLoad_wf h hp

theorem spillwLane_keeps (h : Memory.wf s.mem) (r : Ready) : LaneKeeps (spillwLane s r) := by
  unfold spillwLane
  split
  · exact h
  · simp only
    split
    · trivial
    · split
      · trivial
      · split
        · trivial
        · trivial
        · next hq =>
          exact (congrArg (fun p : State × Option UnitStop => Memory.wf p.1.mem) hq).mp (spillFrames_wf r.tid _ h)

theorem fillwLane_keeps (h : Memory.wf s.mem) (r : Ready) : LaneKeeps (fillwLane s r) := by
  unfold fillwLane
  split
  · exact h
  · simp only
    split
    · trivial
    · split
      · trivial
      · split
        · trivial
        · trivial
        · next hf => exact fillDown_wf _ h hf

theorem ctxsvLane_keeps (h : Memory.wf s.mem) (iss : Issue) (f : Form) (r : Ready) : LaneKeeps (ctxsvLane iss f s r) := by
  unfold ctxsvLane
  split
  · exact h
  · split
    · trivial
    · split
      · trivial
      · extract_lets next part
        have hpart : ∀ {i off : Nat} {bs : State → List Byte} {x : Except UnitStop State} {s1 : State},
            (∀ s, x = .ok s → Memory.wf s.mem) → part i off bs x = .ok s1 → Memory.wf s1.mem := by
          intro i off bs x s1 hx hp
          unfold part at hp
          split at hp
          · split at hp
            · exact partStore_wf (hx _ rfl) hp
            · cases hp
              exact hx _ rfl
          · cases hp
        split
        · next hp =>
          rw [laneKeeps_ok, ite_mem, noteSaved_mem, ite_self]
          refine hpart (fun s1 h1 => ?_) hp
          refine hpart (fun s2 h2 => ?_) h1
          refine hpart (i := 0) (off := 0) (bs := fun _ => threadPart s r.tid next) (x := .ok s) (fun s3 h3 => ?_) h2
          cases h3
          exact h
        · trivial
        · trivial

theorem restcap_wf {iss : Issue} {opc : BitVec 8} {f : Form} {gs : List Nat} {s1 : State} {k : Nat}
    (h : restcapRecords s iss opc f gs = .sent s1 k) : s1.mem = s.mem := by
  unfold restcapRecords at h
  refine sentAll_mem (fun s k x s1 k1 hs => ?_) (fun o x s1 k1 hs => ?_) gs _ _ _ _ h
  · simp only at hs
    split at hs
    · cases hs
      rfl
    · exact sendRecord_sent hs
  · cases o with
    | sent s k => exact ⟨s, k, rfl⟩
    | held w => cases hs
    | fault i => cases hs
    | trap i => cases hs

theorem refuseRestore_keeps (h : Memory.wf s.mem) (t : Nat) (iss : Issue) (opc : BitVec 8) (f : Form) :
    LaneKeeps (refuseRestore s t iss opc f) := by
  unfold refuseRestore
  extract_lets m r g
  split
  · exact h
  · split
    · trivial
    · exact faultEntry_wf h _ _ _ _
    · simp [h]
    · next hs =>
      have h1 := restcap_wf hs
      rw [laneKeeps_suspend]
      split
      · refine preemptCluster_wf ?_ _
        rw [unloadTeam_mem, h1]
        exact h
      · rw [h1]
        exact h

theorem ctxrsLane_keeps (h : Memory.wf s.mem) (iss : Issue) (f : Form) (r : Ready) : LaneKeeps (ctxrsLane iss f s r) := by
  have hload : ∀ {c : Bool} {s s1 : State} {a off n : Nat} {bs : List Byte}, Memory.wf s.mem →
      (if c then partLoad s r.tid a off n else .ok (s, [])) = .ok (s1, bs) → Memory.wf s1.mem := by
    intro c s s1 a off n bs h hl
    split at hl
    · exact partLoad_wf h hl
    · cases hl
      exact h
  unfold ctxrsLane
  extract_lets inRestore phase team a load
  split
  · exact h
  · split
    · trivial
    · split
      · trivial
      · split
        · trivial
        · trivial
        · next h0 =>
          have h0 := hload h h0
          split
          · trivial
          · trivial
          · next h1 =>
            have h1 := hload h0 h1
            split
            · trivial
            · trivial
            · next h2 =>
              have h2 := hload h1 h2
              split
              · split
                · exact refuseRestore_keeps h2 _ _ _ _
                · trivial
              · simp [h2]

theorem exitpLane_keeps (h : Memory.wf s.mem) (r : Ready) : LaneKeeps (exitpLane s r) := by
  unfold exitpLane
  split
  · exact h
  · simp only
    split
    · refine routineEnds_wf ?_ _
      exact leaveRecord_wf h r.tid
    · exact routineEnds_wf (by exact h) _
    · exact exitThread_wf h r.tid
    · exact exitThread_wf h r.tid

theorem icinvLane_keeps (h : Memory.wf s.mem) (r : Ready) : LaneKeeps (icinvLane s r) := by
  unfold icinvLane
  simp [h]

theorem haltLane_keeps (h : Memory.wf s.mem) (r : Ready) : LaneKeeps (haltLane s r) := by
  unfold haltLane
  simp only
  split
  · split
    · exact h
    · exact stopCore_wf (by exact h) _ _
  · trivial

/-! How a step begins. -/

@[simp] theorem settleReady_mem : (settleReady s).mem = s.mem := by
  obtain ⟨cs, ts, h⟩ := Moves.settleReady_keeps s
  rw [h]

@[simp] theorem takeChoice_mem : (takeChoice s).mem = s.mem := rfl

@[simp] theorem takeMove_mem (i : Instr) : (takeMove s i).mem = s.mem := by
  unfold takeMove
  split
  · rfl
  · split
    · split <;> rfl
    · rfl

@[simp] theorem startIteration_mem (t : Nat) : (startIteration s t).mem = s.mem := by
  unfold startIteration
  split
  · split
    · split
      · next hp => simp [enterLoop_mem hp]
      · rfl
    · rfl
  · rfl

@[simp] theorem beginIssue_mem (iss : Issue) (f : Bool) : (beginIssue s iss f).mem = s.mem := modCore_mem _ _ _ _
@[simp] theorem passClk_mem : (passClk s).mem = s.mem := rfl

end Sys2Proof.Canonical

/-! SUPPORT. What keeps memory in its canonical form: accesses as they are performed, and copies. -/

namespace Sys2Proof.Canonical

open Sys2Proof.Machine

variable {s : State}

/-! The PHY's registers. -/

@[simp] theorem phyPut_mem (p : Phy) : (phyPut s p).mem = s.mem := rfl
@[simp] theorem phyReadPoint_mem (b : PhyBlock) (tap : Nat) : (phyReadPoint s b tap).mem = s.mem := rfl
@[simp] theorem phyWritePoint_mem (b : PhyBlock) (tap : Nat) : (phyWritePoint s b tap).mem = s.mem := rfl
@[simp] theorem phyPrbs_mem (b : PhyBlock) : (phyPrbs s b).mem = s.mem := rfl

@[simp] theorem phyPswap_mem (b : PhyBlock) (v : Word) : (phyPswap s b v).mem = s.mem := by
  simp only [phyPswap, ite_mem, phyPut_mem, ite_self]

@[simp] theorem phyPdone_mem (b : PhyBlock) (v : Word) : (phyPdone s b v).mem = s.mem := by
  simp only [phyPdone, ite_mem, phyPut_mem, ite_self]

@[simp] theorem phyRegisterWrite_mem (b : PhyBlock) (off : Nat) (v : Word) : (phyRegisterWrite s b off v).mem = s.mem := by
  simp only [phyRegisterWrite, ite_mem, phyPut_mem, ite_self]

@[simp] theorem phyWrite_mem (b : PhyBlock) (off : Nat) (v : Word) : (phyWrite s b off v).mem = s.mem := by
  simp [phyWrite]

/-! Loads. -/

@[simp] theorem deliverTo_mem (t : Nat) (d : Dest) (ws : List Word) : (deliverTo s t d ws).mem = s.mem := by
  cases d <;> rfl

@[simp] theorem returnLoad_mem (a : Access) (bs : List Byte) (sext : Bool) : (returnLoad s a bs sext).mem = s.mem := by
  simp [returnLoad]

@[simp] theorem ask_mem (die sec : Nat) (i : Instr) : (ask s die sec i).mem = s.mem := by
  simp [ask]

theorem askAll_mem (die : Nat) (i : Nat → State → Instr) (l : List Nat) :
    (l.foldl (fun s sec => ask s die sec (i sec s)) s).mem = s.mem := foldl_mem (fun _ _ => ask_mem _ _ _) l s

@[simp] theorem askRefills_mem (r : SpadRef) (n : Nat) : (askRefills s r n).mem = s.mem := by
  refine foldl_mem (fun s p => ?_) _ s
  simp only [ite_mem, send_mem, ite_self]

@[simp] theorem joinHome_wf (h : Memory.wf s.mem) (a : Access) (sec kind : Nat) : Memory.wf (joinHome s a sec kind).mem := by
  unfold joinHome
  split
  · exact h
  · exact homeRequest_wf h _ _

theorem touchLine_wf (h : Memory.wf s.mem) (sec : Nat) (c own : Option Nat) : Memory.wf (touchLine s sec c own).mem := by
  unfold touchLine
  split
  · split
    · exact (Peat.homeTouch_moved _ _ _ _ _).canonical h
    · exact h
  · exact h

theorem touchEncoded_wf (h : Memory.wf s.mem) (a : Access) (fresh : Bool) : Memory.wf (touchEncoded s a fresh).mem := by
  unfold touchEncoded
  split
  · exact h
  · exact foldl_wf (fun _ _ h => touchLine_wf h _ _ _) _ h

theorem loadHome_wf (h : Memory.wf s.mem) (a : Access) (fresh : Bool) : Memory.wf (loadHome s a fresh).1.mem := by
  unfold loadHome
  simp only [raisePtime_mem]
  refine foldl_wf (fun s sec h => ?_) _ ?_
  · rw [homeTimesMax_mem]
    exact h
  · refine foldl_kept (p := fun acc : State × Nat => Memory.wf acc.1.mem) (fun acc p h => ?_) _ (touchEncoded_wf h a fresh)
    exact readBytesNow_wf (s := acc.1) h _ _ _ _

theorem performLoad_wf (h : Memory.wf s.mem) (a : Access) (fresh stale sext : Bool) : Memory.wf (performLoad s a fresh stale sext).mem := by
  unfold performLoad
  split
  · simpa using h
  · split
    · simp only [returnLoad_mem, raisePtime_mem, spadRead_mem]
      exact h
    · simpa using h
  · split
    · simpa using h
    · split
      · simp only
        split
        · exact h
        · rw [returnLoad_mem]
          exact h
      · split
        · split
          · rw [returnLoad_mem]
            exact h
          · rw [returnLoad_mem]
            exact h
          · exact joinHome_wf h _ _ _
        · split
          · split
            · simp only [returnLoad_mem]
              exact loadHome_wf h _ _
            · exact joinHome_wf h _ _ _
          · split
            · next hl =>
              rw [returnLoad_mem, loadKeepers_mem 16 hl]
              exact h
            · rw [askAll_mem a.die fun sec s => keeperAsk s a.die sec false]
              exact h

/-! Stores. -/

@[simp] theorem clearMark_mem (sec key : Nat) : (clearMark s sec key).mem = s.mem := by
  unfold clearMark
  split
  · exact retag_mem _ _
  · simp only
    split <;> simp

@[simp] theorem storeDone_mem (a : Access) : (storeDone s a).mem = s.mem :=
  (endAccess_mem a).trans (foldl_mem (fun _ _ => clearMark_mem _ _) _ s)

theorem storeHome_wf (h : Memory.wf s.mem) (a : Access) : Memory.wf (storeHome s a).mem := by
  unfold storeHome
  simp only [raisePtime_mem]
  refine foldl_kept (p := fun acc : State × Nat => Memory.wf acc.1.mem) (fun acc p h => ?_) _ h
  simp only [refreshL1_mem]
  exact writeNow_wf (s := acc.1) h _ _ _ _ _

theorem keeperStores_wf (h : Memory.wf s.mem) (a : Access) (ts : Nat) (ps : List (Nat × Nat × Nat)) :
    Memory.wf (ps.foldl (fun (acc : State × Nat) p =>
      (keeperWrite acc.1 a.die a.site p.1 (storePiece a.bytes acc.2 p).1 (storePiece a.bytes acc.2 p).2 ts (some a.ctx),
        acc.2 + p.2.2)) (s, 0)).1.mem :=
  foldl_kept (p := fun acc : State × Nat => Memory.wf acc.1.mem) (fun _ _ h => keeperWrite_wf h _ _ _ _ _ _ _) ps h

theorem performStore_wf (h : Memory.wf s.mem) (a : Access) : Memory.wf (performStore s a).mem := by
  unfold performStore
  split
  · simpa using h
  · split
    · simp only [storeDone_mem, raisePtime_mem]
      exact spadWrite_wf h _ _ _
    · simpa using h
  · split
    · simpa using h
    · split
      · simp only
        split
        · exact h
        · simpa using h
      · split
        · rw [storeDone_mem]
          exact storeHome_wf h a
        · simp only
          split
          · rw [storeDone_mem, raisePtime_mem]
            refine keeperStores_wf ?_ _ _ _
            rw [ite_mem, foldl_mem fun _ _ => keeperAllocate_mem _ _ _, ite_self]
            exact h
          · rw [askAll_mem a.die fun sec s => keeperAsk s a.die sec true]
            exact h

/-! Atomics. -/

theorem raiseAll_mem (ts : Nat) (l : List Nat) : (l.foldl (fun s t => raisePtime s t ts) s).mem = s.mem :=
  foldl_mem (fun _ _ => by rfl) l s

theorem performAtom_wf (h : Memory.wf s.mem) (a : Access) (new : DWord → Option DWord) : Memory.wf (performAtom s a new).mem := by
  have hr := fun pt => readBytesNow_wf h (placeAddr a.place) a.size (some a.ctx) pt
  unfold performAtom
  simp only
  split
  · simp only [endAccess_mem, deliverTo_mem, raisePtime_mem]
    exact hr _
  · simp only [endAccess_mem, deliverTo_mem, raisePtime_mem, refreshL1_mem]
    exact writeBytesNow_wf (hr _) _ _ _ _

theorem redAtUnit_wf (h : Memory.wf s.mem) (a : Access) (sec tag e k : Nat) (u : DWord) : Memory.wf (redAtUnit s a sec tag e k u).mem := by
  unfold redAtUnit
  extract_lets ty off same s1 s2 old new ts cached s3
  have h1 : Memory.wf s1.mem := touchSector_wf (prepareMask_wf (settle_wf h _) _ _) _ _
  have h2 : Memory.wf s2.mem := by
    unfold s2
    split
    · exact mergeMs_wf h1 _ _ _ _
    · exact h1
  rw [raiseAll_mem, homeTimesPut_mem]
  unfold s3
  split
  · exact h2
  · exact putSector_wf h2 _ _ _ _

theorem redAtHome_wf (h : Memory.wf s.mem) (a : Access) (sec tag e k : Nat) (u : DWord) : Memory.wf (redAtHome s a sec tag e k u).mem := by
  unfold redAtHome
  simp only [raiseAll_mem, refreshL1_mem]
  exact writeBytesNow_wf (homeRead_wf (settle_wf h _) _ _) _ _ _ _

theorem redStep_wf (h : Memory.wf s.mem) (a : Access) (tag : Nat) (steps : List (Nat × Nat × DWord)) :
    Memory.wf (redStep s a tag steps).mem := by
  unfold redStep
  simp only
  split
  · exact h
  · split
    · exact redAtUnit_wf h _ _ _ _ _ _
    · split
      · exact redAtHome_wf h _ _ _ _ _ _
      · split
        · split
          · simp only [raiseAll_mem, l2Mod_mem]
            exact h
          · simpa using h
        · simpa using h

/-! Trap records. -/

theorem performRecord_wf (h : Memory.wf s.mem) (a : Access) (code : Nat) (stop : Bool) : Memory.wf (performRecord s a code stop).mem := by
  unfold performRecord
  simp only [ite_mem, stopContext_mem, endAccess_mem, retagAll_mem, raiseAll_mem, ite_self]
  exact storePieces_wf h _ _ _ _ _ _ _ _

/-! Copies. -/

@[simp] theorem copyTurnsEager_mem (a : Access) (xf n : Nat) (ds : List (Nat × Nat)) (ss : List (Nat × Nat × Bool)) :
    (copyTurnsEager s a xf n ds ss).mem = s.mem := startOp_mem _

theorem cleanSector_wf (h : Memory.wf s.mem) (sec : Nat) : Memory.wf (cleanSector s sec).mem := by
  have hs := settle_wf h sec
  unfold cleanSector
  simp only
  split
  · exact hs
  · simp only [ite_mem, dirPut_mem, ite_self]
    rw [foldl_mem fun s d => by split <;> rfl]
    exact writeBackSector_wf hs _ _ _

theorem cleanSource_wf (h : Memory.wf s.mem) (c sec : Nat) : Memory.wf (cleanSource s c sec).mem := mergeMs_wf (cleanSector_wf h sec) _ _ _ _

theorem materialiseRun_wf (h : Memory.wf s.mem) (a n : Nat) : Memory.wf (materialiseRun s a n).mem := by
  refine foldl_wf (fun s k h => ?_) _ h
  simp only
  split
  · exact removeBlock_wf (materialiseBlock_wf h _ _) _ _ _
  · exact h

theorem composePiece_wf (dsts : List (Nat × Nat)) (fuel : Nat) :
    ∀ {s : State}, Memory.wf s.mem → ∀ p, Memory.wf (composePiece dsts fuel s p).1.mem := by
  induction fuel with
  | zero => exact fun h _ => h
  | succ fuel ih =>
    intro s h p
    unfold composePiece
    split
    · exact h
    · extract_lets sl sb db cover e? part run0 run dlen here rest
      split
      · exact ih h _
      · exact ih (materialiseRun_wf h _ _) _

theorem composePieces_wf (ds : List (Nat × Nat)) (fuel : Piece → Nat) (l : List Piece) : ∀ {acc : State × List Piece},
    Memory.wf acc.1.mem → Memory.wf (l.foldl (fun acc p =>
      ((composePiece ds (fuel p) acc.1 p).1, acc.2 ++ (composePiece ds (fuel p) acc.1 p).2)) acc).1.mem := by
  induction l with
  | nil => exact id
  | cons p l ih => exact fun h => ih (composePiece_wf ds (fuel p) h p)

theorem composeAll_wf (h : Memory.wf s.mem) (ds : List (Nat × Nat)) (ps : List Piece) : Memory.wf (composeAll ds s ps).1.mem := by
  have hp := composePieces_wf ds (fun p => p.len / 16 + 1) ps (acc := (s, [])) h
  unfold composeAll
  simp only at hp ⊢
  exact hp

@[simp] theorem countEager_mem (home : Nat) (full : Bool) : (countEager s home full).mem = s.mem := rfl

theorem clearTarget_wf (h : Memory.wf s.mem) (c : Nat) (ds : List (Nat × Nat)) (sec : Nat) : Memory.wf (clearTarget s c ds sec).mem :=
  prepareMask_wf (mergeMs_wf (exclude_wf h _) _ _ _ _) _ _

@[simp] theorem commitEntries_mem (ps : List Piece) (wts ctxid : Nat) : (commitEntries s ps wts ctxid).mem = s.mem := by
  unfold commitEntries watchOccupancy
  rw [foldl_mem fun _ _ => watchHome_mem _]

@[simp] theorem noteNode_mem (g n ts : Nat) : (noteNode s g n ts).mem = s.mem := rfl

theorem copyCommit_wf (h : Memory.wf s.mem) (id : Nat) : Memory.wf (copyCommit s id).mem := by
  unfold copyCommit
  split
  · exact h
  · split
    · extract_lets ds srcs ss s1 dsec
      split
      · simpa using h
      · next pcs0 _ =>
        have h1 : Memory.wf s1.mem := foldl_wf (fun _ _ h => cleanSource_wf h _ _) _ h
        have h2 := composeAll_wf h1 ds pcs0
        split
        rename_i s2 pcs hc
        rw [hc] at h2
        split
        · simpa using h
        · simpa using h
        · extract_lets ts1 ts hdrs s3 s4 s5 s6 s7 s8
          have h3 : Memory.wf s3.mem := by
            unfold s3
            rw [retagAll_mem]
            exact h2
          have h4 : Memory.wf s4.mem := foldl_wf (fun _ _ h => clearTarget_wf h _ _ _) _ h3
          have h8 : Memory.wf s8.mem := by
            refine foldl_wf (fun _ _ h => writeBytesNow_wf h _ _ _ _) _ ?_
            unfold s7 s6 s5
            rw [foldl_mem fun _ _ => homeTimesMax_mem _ _ _, foldl_mem fun _ _ => by rfl, commitEntries_mem]
            exact h4
          split
          · rw [endAccess_mem, noteNode_mem]
            exact h8
          · rw [endAccess_mem, raisePtime_mem, foldl_mem fun _ _ => refreshL1_mem _ _ _ _]
            exact h8
    · exact h

theorem plainGrain_wf (h : Memory.wf s.mem) (g : Nat) : Memory.wf (plainGrain s g).mem := by
  have hd : Memory.wf ((watchersOf s g).foldl (fun s d => dhomeMaterialiseGrain s d g) s).mem :=
    foldl_wf (fun _ _ h => dhomeMaterialiseGrain_wf h _ _) _ h
  unfold plainGrain
  simp only
  split
  · exact hd
  · exact removeBlock_wf (materialiseBlock_wf hd _ _) _ _ _

theorem performMatz_wf (h : Memory.wf s.mem) (a : Access) : Memory.wf (performMatz s a).mem := by
  unfold performMatz
  split
  · rw [endAccess_mem]
    exact foldl_wf (fun _ _ h => plainGrain_wf h _) _ h
  · simpa using h
  · simpa using h

/-! Cache maintenance. -/

@[simp] theorem dropCopies_mem (sec : Nat) : (dropCopies s sec).mem = s.mem :=
  foldl_mem (fun _ _ => by rfl) (List.range 4) s

@[simp] theorem discardPeat_mem (line : Nat) : (discardPeat s line).mem = s.mem := rfl

theorem performDiscard_wf (h : Memory.wf s.mem) (a : Access) : Memory.wf (performDiscard s a).mem := by
  unfold performDiscard
  extract_lets secs s1 pt ts s2 s3 s4
  have h1 : Memory.wf s1.mem := foldl_wf (fun _ _ h => quiesce_wf h _) _ h
  unfold s4 s3 s2
  rw [endAccess_mem, raisePtime_mem, foldl_mem fun _ _ => by rfl, foldl_mem fun _ _ => discardPeat_mem _,
    foldl_mem fun _ _ => dropCopies_mem _]
  exact h1

theorem flushPeat_wf (h : Memory.wf s.mem) (c line : Nat) : Memory.wf (flushPeat s c line).mem := by
  unfold flushPeat
  split
  · exact h
  · next k _ =>
    have hw := (Peat.wcFall_moved (peatCall s (some c)) k s.mem line).canonical h
    simp only
    split
    · split
      · exact (Peat.peatPlace_moved _ _ _ _).canonical ((Peat.peatSpill_moved _ _ _ _).canonical hw)
      · exact hw
    · exact (Peat.peatDrop_moved _ _ _ _).canonical hw

theorem performFlush_wf (h : Memory.wf s.mem) (a : Access) (inv peat : Bool) : Memory.wf (performFlush s a inv peat).mem := by
  unfold performFlush
  extract_lets secs s1 s2
  have h2 : Memory.wf s2.mem := by
    unfold s2
    rw [ite_mem, foldl_mem fun _ _ => dropCopies_mem _, ite_self]
    exact foldl_wf (fun _ _ h => cleanSector_wf h _) _ h
  rw [endAccess_mem]
  split
  · exact foldl_wf (fun _ _ h => flushPeat_wf h _ _) _ h2
  · exact h2

/-! The other accesses. -/

@[simp] theorem performTidSet_mem (a : Access) (n : Nat) (image : Option Tensor) : (performTidSet s a n image).mem = s.mem := by
  simp [performTidSet]

theorem pushRead_wf (h : Memory.wf s.mem) (a : Access) : Memory.wf (pushRead s a).1.mem := by
  unfold pushRead
  simp only
  split
  · exact touchPieces_wf (touchEncoded_wf h _ _) _ _ _
  · refine foldl_kept (p := fun acc : State × Nat => Memory.wf acc.1.mem) (fun acc i h => ?_) _ h
    exact (congrArg Memory.wf (spadRead_mem (s := acc.1) _ _ _)).mpr h
  · exact h

theorem performMqPush_wf (h : Memory.wf s.mem) (a : Access) (q : Nat) : Memory.wf (performMqPush s a q).mem := by
  unfold performMqPush
  extract_lets absent
  split
  · exact h
  · split
    · split <;> simpa using h
    · simp only [endAccess_mem, raisePtime_mem, modCore_mem]
      exact pushRead_wf h a

theorem performObject_wf (h : Memory.wf s.mem) (a : Access) (start : Option (Nat × Nat)) (bytes : Nat) :
    Memory.wf (performObject s a start bytes).mem := by
  unfold performObject
  split
  · split
    · simp only [endAccess_mem, deliverTo_mem, raisePtime_mem]
      refine spadWrite_wf ?_ _ _ _
      rw [spadRead_mem]
      exact h
    · simpa using h
  · simpa using h
  · simpa using h

theorem touchRanges_wf (h : Memory.wf s.mem) (c : Nat) (rs : List (Nat × Nat)) (floor : Nat) : Memory.wf (touchRanges s c rs floor).1.mem :=
  foldl_kept (p := fun acc : State × Nat => Memory.wf acc.1.mem) (fun _ _ h => touchPieces_wf h _ _ _) _ h

theorem fireGraph_wf (h : Memory.wf s.mem) (c a floor : Nat) : Memory.wf (fireGraph s c a floor).1.mem := by
  unfold fireGraph
  split
  · exact h
  · split
    · exact h
    · exact touchRanges_wf h _ _ _

theorem performNodeq_wf (h : Memory.wf s.mem) (a : Access) (g n : Nat) : Memory.wf (performNodeq s a g n).mem := by
  unfold performNodeq
  simp only [endAccess_mem, deliverTo_mem]
  split
  · rw [ite_mem, raisePtime_mem, ite_self]
    exact h
  · exact h

theorem performAccess_wf (h : Memory.wf s.mem) (a : Access) : Memory.wf (performAccess s a).mem := by
  unfold performAccess
  split
  · exact performLoad_wf h _ _ _ _
  · exact performStore_wf h _
  · exact performAtom_wf h _ _
  · exact performAtom_wf h _ _
  · exact redStep_wf h _ _ _
  · exact performRecord_wf h _ _ _
  · exact copyCommit_wf h _
  · exact performMatz_wf h _
  · simpa [performAlq] using h
  · split
    · exact performDiscard_wf h _
    · exact performFlush_wf h _ _ _
  · simpa using h
  · exact performMqPush_wf h _ _
  · exact performObject_wf h _ _ _
  · exact performObject_wf h _ _ _
  · simp only [performGfire, endAccess_mem, deliverTo_mem]
    exact fireGraph_wf h _ _ _
  · exact performNodeq_wf h _ _ _
  · simpa using h

theorem loadReturnOf_wf (h : Memory.wf s.mem) (id : Nat) : Memory.wf (loadReturnOf s id).mem := by
  unfold loadReturnOf
  split
  · split
    · exact performAccess_wf h _
    · exact h
  · exact h

theorem acknowledge_wf (h : Memory.wf s.mem) (id : Nat) : Memory.wf (acknowledge s id).mem := by
  unfold acknowledge
  split
  · split
    · exact performAccess_wf h _
    · exact h
  · exact h

theorem sliceUpdate_wf (h : Memory.wf s.mem) (id : Nat) : Memory.wf (sliceUpdate s id).mem := by
  unfold sliceUpdate
  split
  · split
    · exact redStep_wf h _ _ _
    · exact h
  · exact h

end Sys2Proof.Canonical

/-! SUPPORT. What keeps memory in its canonical form: the window's unit, the tile engines, the other engines and the homes' own work. -/

namespace Sys2Proof.Canonical

open Sys2Proof.Machine

variable {s : State}

/-! The window's unit. -/

theorem waitingTrap_wf (h : Memory.wf s.mem) (t : Nat) (i : TrapInfo) : Memory.wf (waitingTrap s t i).mem := by
  unfold waitingTrap
  split
  · exact takeTraps_wf (by exact h) _
  · exact h

theorem spillUnit_wf (h : Memory.wf s.mem) (t : Nat) : Memory.wf (spillUnit s t).mem := by
  unfold spillUnit
  split
  · exact h
  · split
    · have hs := fun ds => spillFrames_wf t ds h
      simp only
      split
      · split
        · next hq => exact waitingTrap_wf ((congrArg (fun p : State × Option UnitStop => Memory.wf p.1.mem) hq).mp (hs _)) _ _
        · exact h
        · next hq =>
          rw [modThread_mem]
          exact (congrArg (fun p : State × Option UnitStop => Memory.wf p.1.mem) hq).mp (hs _)
      · exact h
    · exact h

theorem fillUnit_wf (h : Memory.wf s.mem) (t : Nat) : Memory.wf (fillUnit s t).mem := by
  unfold fillUnit
  split
  · exact h
  · split
    · split
      · split
        · exact waitingTrap_wf h _ _
        · exact h
        · next hf =>
          rw [modThread_mem]
          exact fillDown_wf _ h hf
      · exact h
    · exact h

/-! The tile engines. -/

@[simp] theorem putTileOp_mem (die site : Nat) (o : TileOp) : (putTileOp s die site o).mem = s.mem := modCore_mem _ _ _ _

theorem tldSector_wf (h : Memory.wf s.mem) (die site : Nat) (o : TileOp) (v : Nat) (rest : List Nat) :
    Memory.wf (tldSector s die site o v rest).mem := by
  unfold tldSector
  simp only
  split
  · exact h
  · rw [putTileOp_mem]
    refine readNow_wf ?_ _ _ _
    split
    · exact touchLine_wf h _ _ _
    · exact h

theorem tstSector_wf (h : Memory.wf s.mem) (die site : Nat) (o : TileOp) (p : Nat × Sector × BitVec 64)
    (rest : List (Nat × Sector × BitVec 64)) : Memory.wf (tstSector s die site o p rest).mem := by
  unfold tstSector
  simp only
  split
  · exact h
  · split
    · simpa using h
    · rw [putTileOp_mem]
      refine writeNow_wf ?_ _ _ _ _ _
      rw [ite_mem, retag_mem, ite_self]
      exact h

@[simp] theorem popEntry_mem (die site : Nat) (o : TileOp) : (popEntry s die site o).mem = s.mem := by
  unfold popEntry
  simp only
  split
  · rfl
  · split <;> simp

theorem tileProgress_wf (h : Memory.wf s.mem) (die site : Nat) (o : TileOp) : Memory.wf (tileProgress s die site o).mem := by
  unfold tileProgress
  split
  · exact tldSector_wf h _ _ _ _ _
  · exact tstSector_wf h _ _ _ _ _
  · rw [ite_mem, popEntry_mem, ite_self]
    exact h

theorem tileProgressN_wf (n die site id : Nat) : ∀ {s : State}, Memory.wf s.mem → Memory.wf (tileProgressN n s die site id).mem := by
  induction n with
  | zero => exact fun h => h
  | succ n ih =>
    intro s h
    unfold tileProgressN
    split
    · exact h
    · split
      · exact h
      · exact ih (tileProgress_wf h _ _ _)

theorem poisonedOp_wf (h : Memory.wf s.mem) (die site : Nat) (o : TileOp) (i : TrapInfo) : Memory.wf (poisonedOp s die site o i).mem := by
  refine failSigners_wf ?_ _ _ _
  rw [modCore_mem]
  exact h

theorem tileIssue_wf (h : Memory.wf s.mem) (die site id : Nat) : Memory.wf (tileIssue s die site id).mem := by
  unfold tileIssue
  split
  · exact h
  · simp only
    split
    · exact tileProgress_wf h _ _ _
    · split
      · exact h
      · split
        · exact poisonedOp_wf h _ _ _ _
        · simp only [ite_mem, foldl_mem fun s g => releaseSigner_mem (s := s) _ g, modCore_mem, putTileOp_mem, ite_self]
          exact h

@[simp] theorem movvWrite_mem (o : TileOp) (t : Acc32) : (movvWrite s o t).mem = s.mem := foldl_mem (fun _ _ => by rfl) _ s

@[simp] theorem settleClaims_mem (die site team : Nat) : (settleClaims s die site team).mem = s.mem := by
  simp [settleClaims]

theorem finishTileOp_mem (die site : Nat) (o : TileOp) : (finishTileOp s die site o).mem = s.mem := by
  unfold finishTileOp
  simp only [settleClaims_mem]
  rw [foldl_mem fun _ _ => by rfl, modCore_mem, ite_mem]
  split
  · split <;> simp
  · rfl

theorem tileComplete_wf (h : Memory.wf s.mem) (die site id : Nat) : Memory.wf (tileComplete s die site id).mem := by
  unfold tileComplete
  split
  · exact h
  · split
    · exact h
    · extract_lets s1
      have h1 : Memory.wf s1.mem := tileProgressN_wf _ _ _ _ h
      split
      · exact h1
      · rw [ite_mem, finishTileOp_mem, ite_self]
        exact h1

/-! The functions of the engines. -/

@[simp] theorem putEngine_mem (e : EngineOp) : (putEngine s e).mem = s.mem := rfl

@[simp] theorem engineResult_mem (e : EngineOp) (l : List (Nat × Sector × BitVec 64)) (pushes : List (List Byte)) (reply : Nat) :
    (engineResult s e l pushes reply).mem = s.mem := rfl

theorem engineRead_wf {e : EngineOp} {v ts : Nat} {s1 : State} {x : Sector} (h : Memory.wf s.mem)
    (hr : engineRead s e v = .ok s1 x ts) : Memory.wf s1.mem := by
  unfold engineRead at hr
  split at hr
  · cases hr
  · cases hr
  · simp only at hr
    split at hr
    · cases hr
    · split at hr
      · cases hr
      · split at hr
        · cases hr
        · split at hr
          · cases hr
          · injection hr with hs
            rw [← hs]
            refine readNow_wf ?_ _ _ _
            split
            · exact touchLine_wf h _ _ _
            · exact h

theorem engineFetch_wf (h : Memory.wf s.mem) (e : EngineOp) (v : Nat) (rest : List Nat) : Memory.wf (engineFetch s e v rest).mem := by
  unfold engineFetch
  split
  · exact h
  · exact h
  · next hr =>
    rw [putEngine_mem]
    exact engineRead_wf h hr

@[simp] theorem enginePush_mem (e : EngineOp) (x : List Byte) (rest : List (List Byte)) : (enginePush s e x rest).mem = s.mem := by
  simp [enginePush]

theorem engineStep_wf {work : State → EngineOp → State} (hw : ∀ s e, Memory.wf s.mem → Memory.wf (work s e).mem) (h : Memory.wf s.mem)
    (id eng fn : Nat) : Memory.wf (engineStep s id eng fn work).mem := by
  unfold engineStep
  split
  · exact h
  · split
    · exact h
    · split
      · exact engineFetch_wf h _ _ _
      · rw [enginePush_mem]
        exact h
      · exact hw s _ h

theorem slCopy_mem (e : EngineOp) : (slCopy s e).mem = s.mem := by
  unfold slCopy
  split
  · simp
  · rfl

theorem slFill_mem (e : EngineOp) : (slFill s e).mem = s.mem := by
  unfold slFill
  split <;> rfl

theorem slGather_mem (e : EngineOp) : (slGather s e).mem = s.mem := by
  unfold slGather
  split
  · simp
  · rfl

theorem slSparse_mem (e : EngineOp) : (slSparse s e).mem = s.mem := by
  unfold slSparse
  split <;> rfl

theorem slLoad_mem (e : EngineOp) : (slLoad s e).mem = s.mem := by
  simp [slLoad]

theorem fdOpen_mem (e : EngineOp) : (fdOpen s e).mem = s.mem := by
  unfold fdOpen
  split <;> rfl

theorem fdClose_mem (e : EngineOp) : (fdClose s e).mem = s.mem := rfl
theorem sbHash_mem (e : EngineOp) : (sbHash s e).mem = s.mem := rfl

theorem sbReport_mem (e : EngineOp) : (sbReport s e).mem = s.mem := by
  simp [sbReport]

theorem sbExtend_mem (e : EngineOp) : (sbExtend s e).mem = s.mem := by
  simp [sbExtend]

theorem statusBit_wf (h : Memory.wf s.mem) (e : EngineOp) (va i : Nat) (b : Bool) : Memory.wf (statusBit s e va i b).mem := by
  unfold statusBit
  simp only
  split
  · exact descStore_wf h _ _ _ _ _ _
  · exact h

theorem fdFrame_wf (h : Memory.wf s.mem) (e : EngineOp) : Memory.wf (fdFrame s e).mem := by
  unfold fdFrame
  simp only
  split
  · exact h
  · simp only [ite_mem, putEngine_mem, engineResult_mem, ite_self]
    split
    · exact h
    · exact statusBit_wf (by exact h) _ _ _ _

/-! Completions. -/

@[simp] theorem freeLocks_mem (id : Nat) : (freeLocks s id).mem = s.mem := rfl

@[simp] theorem finishSlot_mem (e : EngineOp) (st : Nat) : (finishSlot s e st).mem = s.mem := by
  unfold finishSlot
  split <;> simp

theorem statusVector_wf (h : Memory.wf s.mem) (e : EngineOp) : Memory.wf (statusVector s e).mem := by
  unfold statusVector
  simp only
  split
  · exact virtStore_wf h ‹_›
  · exact h

theorem landWrites_wf (h : Memory.wf s.mem) (e : EngineOp) : Memory.wf (landWrites s e).1.mem := by
  unfold landWrites
  refine foldl_wf (fun _ _ h => writeNow_wf h _ _ _ _ _) _ ?_
  rw [foldl_mem fun _ _ => by rw [ite_mem, retag_mem, ite_self]]
  exact h

theorem nodeOpComplete_wf (h : Memory.wf s.mem) (e : EngineOp) (st : Nat) : Memory.wf (nodeOpComplete s e st).mem := by
  unfold nodeOpComplete
  split
  · exact h
  · extract_lets s1
    have h1 : Memory.wf s1.mem := by
      unfold s1
      split
      · exact statusVector_wf h e
      · exact h
    split
    · exact h1
    · split
      · exact h1
      · simp only [send_mem, noteNode_mem]
        exact landWrites_wf (by exact h1) e

theorem writePieces_wf (h : Memory.wf s.mem) (ps : List (Nat × Nat)) (bs : List Byte) (c : Option Nat) (floor : Nat) :
    Memory.wf (writePieces s ps bs c floor).1.mem :=
  foldl_kept (p := fun acc : State × List Byte => Memory.wf acc.1.mem) (fun _ _ h => by exact writeBytesNow_wf h _ _ _ _) ps h

theorem landingComplete_wf (h : Memory.wf s.mem) (e : EngineOp) (status : Nat) : Memory.wf (landingComplete s e status).mem := by
  unfold landingComplete
  extract_lets s1 pt s2 s3 s4
  have h2 : Memory.wf s2.mem := by
    unfold s2
    rw [retagAll_mem]
    exact h
  have h3 : Memory.wf s3.mem := by
    unfold s3
    split
    · simp only [raisePtime_mem]
      exact writePieces_wf h2 _ _ _ _
    · exact h
  have h4 : Memory.wf s4.mem := by
    unfold s4
    rw [freeLocks_mem]
    exact h3
  split
  · exact lodeFinish_wf h4 _ _
  · exact h4

theorem creditObject_wf (h : Memory.wf s.mem) (e : EngineOp) (ts : Nat) : Memory.wf (creditObject s e ts).mem := by
  unfold creditObject
  split
  · exact h
  · split
    · simp only
      refine spadWrite_wf (s := (spadRead _ _ _ _).1) ?_ _ _ _
      rw [spadRead_mem]
      exact spadFill_wf h _ _
    · exact h

/-- A completion's state before its descriptor's status is stored. -/
theorem landed_wf (h : Memory.wf s.mem) (e : EngineOp) (st : Nat) (p : State × Nat) (hp : p = if st = 0 then landWrites s e else (s, e.ts)) :
    Memory.wf (if st = 0 then creditObject (freeLocks (finishSlot p.1 e st) e.id) e p.2 else freeLocks (finishSlot p.1 e st) e.id).mem := by
  have h1 : Memory.wf p.1.mem := by
    rw [hp]
    split
    · exact landWrites_wf h e
    · exact h
  have h2 : Memory.wf (freeLocks (finishSlot p.1 e st) e.id).mem := by
    rw [freeLocks_mem, finishSlot_mem]
    exact h1
  split
  · exact creditObject_wf h2 _ _
  · exact h2

theorem commandComplete_wf (h : Memory.wf s.mem) (e : EngineOp) (st0 : Nat) : Memory.wf (commandComplete s e st0).mem := by
  unfold commandComplete
  split
  · exact h
  · extract_lets st s1
    generalize hp : (if st = 0 then landWrites s1 e else (s1, e.ts)) = p
    have hd := landed_wf (s := s1) h e st p hp.symm
    obtain ⟨s2, ts⟩ := p
    simp only at hd ⊢
    generalize (if st = 0 then creditObject _ e ts else _) = s3 at hd ⊢
    split
    · rw [send_mem, noteNode_mem]
      exact descStore_wf (s := raisePtime s3 e.tid ts) hd _ _ _ _ _ _
    · rw [raiseFences_mem, lowerCtr_mem, deliverTo_mem]
      exact descStore_wf (s := raisePtime s3 e.tid ts) hd _ _ _ _ _ _

theorem engineComplete_wf (h : Memory.wf s.mem) (id : Nat) : Memory.wf (engineComplete s id).mem := by
  unfold engineComplete
  split
  · exact h
  · split
    · exact h
    · split
      · exact h
      · split
        · exact nodeOpComplete_wf h _ _
        · split
          · exact landingComplete_wf h _ _
          · exact commandComplete_wf h _ _

theorem eagerComplete_wf (h : Memory.wf s.mem) (id : Nat) : Memory.wf (eagerComplete s id).mem := by
  unfold eagerComplete
  split
  · next e _ =>
    split
    · extract_lets bs src points hdrs
      have h1 := touchPieces_wf h src (some e.ctx) e.ts
      have h2 : Memory.wf (retagAll (touchPieces s src (some e.ctx) e.ts).1 (pieceWholes e.dsts) e.keys).mem := by
        rw [retagAll_mem]
        exact h1
      have h3 := fun c ts => writePieces_wf h2 e.dsts bs c ts
      have h4 := fun c floor ts =>
        foldl_wf (g := fun s p => (writeBytesNow s p.1 p.2 c ts).1) (fun _ _ h => writeBytesNow_wf h _ _ _ _) hdrs (h3 c floor)
      simp only
      split
      · exact h4 _ _ _
      · exact h4 _ _ _
    · exact h
  · exact h

@[simp] theorem grantLocks_mem (id : Nat) : (grantLocks s id).mem = s.mem := by
  unfold grantLocks
  split
  · split <;> rfl
  · rfl

/-! The homes' own work. -/

@[simp] theorem freeWatches_mem (dhome src len : Nat) : (freeWatches s dhome src len).mem = s.mem := rfl

theorem materialiseEntry_wf (h : Memory.wf s.mem) (home : Nat) (e : AliasEntry) : Memory.wf (materialiseEntry s home e).mem := by
  unfold materialiseEntry
  simp only [releaseNotice_mem, modHome_mem]
  refine foldl_wf (fun s i h => ?_) _ h
  split
  · exact materialiseBlock_wf h _ _
  · exact h

theorem hotMaterialiseOf_wf (h : Memory.wf s.mem) (home grain : Nat) : Memory.wf (hotMaterialiseOf s home grain).mem := by
  unfold hotMaterialiseOf
  split
  · exact materialiseEntry_wf h _ _
  · exact h

theorem drainOne_wf (h : Memory.wf s.mem) (home : Nat) : Memory.wf (drainOne s home).mem := by
  unfold drainOne
  split
  · exact h
  · simp only
    split
    · exact materialiseEntry_wf h _ _
    · exact h

theorem wcFallbackOf_wf (h : Memory.wf s.mem) (home line : Nat) : Memory.wf (wcFallbackOf s home line).mem := by
  unfold wcFallbackOf
  split
  · split
    · exact (Peat.wcFall_moved _ _ _ _).canonical h
    · exact h
  · exact h

/-! Time. -/

@[simp] theorem waitcAgain_mem (t : Nat) : (waitcAgain s t).mem = s.mem := by
  unfold waitcAgain
  split <;> rfl

@[simp] theorem wakeMonitor_mem (t : Nat) : (wakeMonitor s t).mem = s.mem := by
  unfold wakeMonitor
  split <;> simp

@[simp] theorem pollAgain_mem (t : Nat) : (pollAgain s t).mem = s.mem := by
  unfold pollAgain
  split <;> simp

@[simp] theorem wakeSleeper_mem (t : Nat) : (wakeSleeper s t).mem = s.mem := by
  unfold wakeSleeper
  split <;> simp

@[simp] theorem tick_mem : (tick s).mem = s.mem := rfl

@[simp] theorem reportPtime_mem : (reportPtime s).mem = s.mem := by
  unfold reportPtime
  split <;> rfl

@[simp] theorem fadeContext_mem (c : Nat) : (fadeContext s c).mem = s.mem := by
  unfold fadeContext
  split <;> simp

@[simp] theorem promote_mem (t : Nat) : (promote s t).mem = s.mem := by
  unfold promote
  split <;> simp

theorem fetchBlock_wf (h : Memory.wf s.mem) (die site part block : Nat) : Memory.wf (fetchBlock s die site part block).mem := by
  unfold fetchBlock
  simp only
  split
  · exact h
  · split
    · simpa using h
    · exact takeTraps_wf h _

end Sys2Proof.Canonical

/-! SUPPORT. What keeps memory in its canonical form: admission, teams and graphs. -/

namespace Sys2Proof.Canonical

open Sys2Proof.Machine

variable {s : State}

/-! Admission. -/

@[simp] theorem takeClaims_mem (die site m : Nat) (l : Launch) : (takeClaims s die site m l).mem = s.mem := modCore_mem _ _ _ _

theorem clearMap_wf (h : Memory.wf s.mem) (m : Nat) : Memory.wf (clearMap s m).mem := by
  unfold clearMap
  split
  · exact writeBytesNow_wf h _ _ _ _
  · exact h
  · exact h

theorem startTeam_wf (h : Memory.wf s.mem) (grid cluster die ticket origin rank : Nat) (l : Launch) (fb : Option (Nat × Nat × Nat))
    (floor : Nat) (routine : Routine) (site : Nat) (places : List (Nat × Nat × Nat)) (privs : List Nat) (spadBase : Nat) :
    Memory.wf (startTeam s grid cluster die ticket origin rank l fb floor routine site places privs spadBase).mem := by
  unfold startTeam
  refine clearMap_wf ?_ _
  rw [takeClaims_mem]
  exact h

theorem admitCluster_wf {grid ticket die origin : Nat} {s1 : State} (h : Memory.wf s.mem)
    (ha : admitCluster s grid ticket die origin = some s1) : Memory.wf s1.mem := by
  unfold admitCluster at ha
  split at ha
  · cases ha
  · simp only at ha
    split at ha
    · injection ha with ha
      rw [← ha]
      exact foldl_wf (fun _ _ h => startTeam_wf h _ _ _ _ _ _ _ _ _ _ _ _ _ _) _ (by exact h)
    · cases ha

theorem pullTicket_wf (h : Memory.wf s.mem) (die grid : Nat) : Memory.wf (pullTicket s die grid).mem := by
  unfold pullTicket
  split
  · split
    · split
      · split
        · next ha =>
          rw [modGrid_mem]
          exact admitCluster_wf h ha
        · exact h
      · exact h
    · exact h
  · exact h

@[simp] theorem stealTickets_mem (die grid : Nat) : (stealTickets s die grid).mem = s.mem := by
  unfold stealTickets
  split
  · split
    · rfl
    · split
      · rfl
      · simp only
        split <;> rfl
  · rfl

@[simp] theorem pushBatchTo_mem (grid die : Nat) : (pushBatchTo s grid die).mem = s.mem := by
  unfold pushBatchTo
  split
  · rfl
  · simp

theorem admitPushed_wf (h : Memory.wf s.mem) (grid ticket die : Nat) : Memory.wf (admitPushed s grid ticket die).mem := by
  unfold admitPushed
  split
  · exact h
  · split
    · exact h
    · split
      · split
        · next ha =>
          rw [modGrid_mem]
          exact admitCluster_wf h ha
        · exact h
      · exact h

/-! Teams. -/

@[simp] theorem endBringUp_mem : (endBringUp s).mem = s.mem := by
  unfold endBringUp
  split <;> rfl

@[simp] theorem gridComplete_mem (grid : Nat) : (gridComplete s grid).mem = s.mem := by
  unfold gridComplete
  split
  · rfl
  · simp only
    split <;> simp

@[simp] theorem completeTeam_mem (m : Nat) : (completeTeam s m).mem = s.mem := by
  unfold completeTeam
  split
  · rfl
  · split
    · rfl
    · extract_lets s1 s2 s3 s4 s5 left s6
      have h3 : s3.mem = s.mem := by
        unfold s3
        rw [foldl_mem fun _ _ => by rfl]
        exact modCore_mem _ _ _ _
      have h4 : s4.mem = s.mem := by
        unfold s4
        split
        all_goals exact h3
      have h5 : s5.mem = s.mem := by
        unfold s5
        split
        all_goals exact h4
      rw [ite_mem, gridComplete_mem, ite_self]
      exact h5

theorem endSwap_mem (m : Nat) : (endSwap s m).mem = s.mem := rfl

theorem rereadWatched_wf (h : Memory.wf s.mem) (m : Nat) (secs : List Nat) : Memory.wf (rereadWatched s m secs).mem := by
  unfold rereadWatched
  simp only [ite_mem, endSwap_mem, ite_self]
  exact foldl_wf (fun _ _ h => readBytesNow_wf h _ _ _ _) _ h

theorem swapCluster_wf (h : Memory.wf s.mem) (m : Nat) : Memory.wf (swapCluster s m).mem := by
  unfold swapCluster
  split
  · exact h
  · simp only
    split
    · refine preemptCluster_wf (foldl_wf (fun _ _ h => rereadWatched_wf h _ _) _ ?_) _
      rw [foldl_mem fun _ _ => by rfl]
      exact h
    · exact h

theorem leaveFrames_wf (h : Memory.wf s.mem) (m : Nat) : Memory.wf (leaveFrames s m).mem := by
  unfold leaveFrames
  split
  · exact h
  · simp only [modCore_mem]
    exact foldl_wf (fun _ _ h => frameBack_wf h _) _ h

theorem restartTeam_wf (h : Memory.wf s.mem) (m b die site origin : Nat) (l : Launch) (places : List (Nat × Nat × Nat)) :
    Memory.wf (restartTeam s m b die site origin l places).mem := by
  unfold restartTeam
  split
  · exact h
  · next t _ =>
    have hl : Memory.wf (if t.die = die ∧ t.site = site then s else leaveFrames s m).mem := by
      split
      · exact h
      · exact leaveFrames_wf h m
    simp only [takeClaims_mem]
    rw [foldl_mem fun _ _ => by rfl, foldl_mem fun _ _ => by rfl, modTeam_mem]
    exact hl

theorem restoreCluster_wf (h : Memory.wf s.mem) (m : Nat) : Memory.wf (restoreCluster s m).mem := by
  unfold restoreCluster
  split
  · exact h
  · split
    · exact h
    · simp only
      split
      · exact h
      · split
        · exact h
        · split
          · exact h
          · split
            · exact h
            · refine foldl_wf (fun s k h => ?_) _ h
              split
              · exact restartTeam_wf h _ _ _ _ _ _ _
              · exact h

/-! Graphs. -/

theorem graphStore_wf (h : Memory.wf s.mem) (c va : Nat) (bs : List Byte) (floor : Nat) : Memory.wf (graphStore s c va bs floor).1.mem := by
  unfold graphStore
  split
  · next hv => exact virtStore_wf h hv
  · exact h

theorem settleGraph_wf (h : Memory.wf s.mem) (g : Nat) : Memory.wf (settleGraph s g).mem := by
  unfold settleGraph
  split
  · exact h
  · split
    · exact h
    · simp only [modGraph_mem]
      refine graphStore_wf ?_ _ _ _ _
      split
      · exact graphStore_wf h _ _ _ _
      · exact h

@[simp] theorem modNode_mem (g n : Nat) (f : GNode → GNode) : (modNode s g n f).mem = s.mem := rfl

@[simp] theorem releaseNode_mem (g n : Nat) : (releaseNode s g n).mem = s.mem := by
  unfold releaseNode
  simp only
  split <;> rfl

theorem failNode_wf (h : Memory.wf s.mem) (g n code addr : Nat) : Memory.wf (failNode s g n code addr).mem := by
  unfold failNode
  split
  · split
    · refine settleGraph_wf ?_ _
      simpa using h
    · refine settleGraph_wf ?_ _
      simpa using h
    all_goals exact h
  · exact h

theorem dispatcherFault_wf (h : Memory.wf s.mem) (g n va kind : Nat) (gr : Graph) : Memory.wf (dispatcherFault s g n va kind gr).mem := by
  unfold dispatcherFault
  split
  · exact h
  · split
    · exact h
    · simp only
      split
      · rw [stopContext_mem]
        exact h
      · have h1 := virtStore_wf h ‹_›
        split
        · rw [stopContext_mem]
          exact h1
        · exact virtStore_wf h1 ‹_›

theorem finishNode_wf (h : Memory.wf s.mem) (g n : Nat) : Memory.wf (finishNode s g n).mem := by
  unfold finishNode
  split
  · exact h
  · refine settleGraph_wf ?_ _
    rw [foldl_mem fun _ _ => by rfl, modNode_mem, releaseNode_mem]
    exact h

theorem copyStatus_wf (h : Memory.wf s.mem) (c g n : Nat) (x : GNode) (st : Nat) : Memory.wf (copyStatus s c g n x st).mem :=
  graphStore_wf h c _ _ _

@[simp] theorem giveFallbacks_mem (g n : Nat) (e : EngineOp) (x : GNode) : (giveFallbacks s g n e x).mem = s.mem := by
  refine foldl_mem (fun s a => ?_) _ s
  split <;> rfl

@[simp] theorem settleNear_mem (g n : Nat) : (settleNear s g n).mem = s.mem := by
  unfold settleNear
  split
  · simp
  · rfl

theorem completeNode_wf (h : Memory.wf s.mem) (g n : Nat) : Memory.wf (completeNode s g n).mem := by
  unfold completeNode
  split
  · split
    · exact h
    · split
      · rw [settleNear_mem]
        exact h
      · refine finishNode_wf ?_ _ _
        split
        · exact copyStatus_wf h _ _ _ _ _
        · exact h
  · exact h

@[simp] theorem nodeError_mem (e : EngineOp) (code addr : Nat) : (nodeError s e code addr).mem = s.mem := rfl

@[simp] theorem hummock_mem (g n cmd : Nat) : (hummock s g n cmd).mem = s.mem := by
  unfold hummock
  split
  · split
    · rfl
    · simp only
      split <;> simp
  · rfl

@[simp] theorem parityAbort_mem (g n cmd pa : Nat) : (parityAbort s g n cmd pa).mem = s.mem := by
  unfold parityAbort
  split
  · simp
  · rfl

theorem readSectors_wf {r : State × EngineOp} (l : List Nat) :
    ∀ {s : State} {e : EngineOp}, Memory.wf s.mem → readSectors l s e = .ok r → Memory.wf r.1.mem := by
  induction l with
  | nil =>
    intro s e h hr
    cases hr
    exact h
  | cons v l ih =>
    intro s e h hr
    unfold readSectors at hr
    split at hr
    · cases hr
    · cases hr
    · next hx => exact ih (engineRead_wf h hx) hr

@[simp] theorem unitDecoded_mem (e : EngineOp) (x : Session) (u : Nat) (bytes : List Byte) : (unitDecoded s e x u bytes).mem = s.mem := by
  simp [unitDecoded]

theorem decodeUnitOf_wf (h : Memory.wf s.mem) (g n u : Nat) : Memory.wf (decodeUnitOf s g n u).mem := by
  unfold decodeUnitOf
  split
  · exact h
  · split
    · exact h
    · simp only
      split
      · exact h
      · exact h
      · next hr =>
        have h1 := readSectors_wf _ h hr
        split
        · exact h1
        · split
          · exact h
          · exact h1
          · next hr2 =>
            have h2 := readSectors_wf _ h1 hr2
            split
            · rw [unitDecoded_mem]
              exact h2
            · exact h2

theorem readNear_wf {r : State × EngineOp} (l : List Nat) :
    ∀ {s : State} {e : EngineOp}, Memory.wf s.mem → readNear l s e = some r → Memory.wf r.1.mem := by
  induction l with
  | nil =>
    intro s e h hr
    cases hr
    exact h
  | cons v l ih =>
    intro s e h hr
    unfold readNear at hr
    split at hr
    · cases hr
    · exact ih h hr
    · next hx => exact ih (engineRead_wf h hx) hr

theorem flushNear_wf (h : Memory.wf s.mem) (c : Nat) (rec_ : List Byte) : Memory.wf (flushNear s c rec_).mem := by
  unfold flushNear
  refine foldl_wf (fun s r h => ?_) _ h
  extract_lets ps secs s1 s2 s3 s4
  have h1 : Memory.wf s1.mem := foldl_wf (fun _ _ h => cleanSource_wf h _ _) _ h
  have h2 : Memory.wf s2.mem := foldl_wf (fun _ _ h => plainGrain_wf h _) _ h1
  have h3 : Memory.wf s3.mem := foldl_wf (fun _ _ h => flushPeat_wf h _ _) _ h2
  split
  · unfold s4
    rw [foldl_mem fun _ _ => discardPeat_mem _, foldl_mem fun s sec => by rw [dirPut_mem, foldl_mem fun _ _ => by rfl]]
    exact h3
  · exact h3

/-- The state that a node's start goes on in keeps memory in its canonical form. -/
def StartKeeps : StartOut → Prop
  | .ok s => Memory.wf s.mem
  | .failed s _ _ => Memory.wf s.mem
  | .wait => True
  | .pagef _ _ => True
  | .fail _ _ => True

theorem trapOut_keeps (i : TrapInfo) : StartKeeps (trapOut i) := by
  unfold trapOut
  split <;> trivial

theorem declaredCheck_keeps {c : Nat} {rec_ : List Byte} {r : StartOut} (hr : declaredCheck s c rec_ = some r) : StartKeeps r := by
  unfold declaredCheck at hr
  simp only at hr
  split at hr
  · cases hr
    trivial
  · obtain ⟨i, -, rfl⟩ := Option.map_eq_some_iff.1 hr
    trivial

@[simp] theorem addOp_mem (e : EngineOp) : (addOp s e).mem = s.mem := rfl

theorem startNear_keeps (h : Memory.wf s.mem) (c g n : Nat) (x : GNode) : StartKeeps (startNear s c g n x) := by
  have hf := flushNear_wf h c x.record
  unfold startNear
  simp only
  split
  · exact trapOut_keeps _
  · split
    · next hr => exact readNear_wf _ hf hr
    · trivial

theorem startDecode_keeps (h : Memory.wf s.mem) (c g n : Nat) (x : GNode) : StartKeeps (startDecode s c g n x) := by
  unfold startDecode
  simp only
  split
  · trivial
  · split
    · trivial
    · split
      · exact trapOut_keeps _
      · trivial
      · exact h

theorem startCommand_keeps (h : Memory.wf s.mem) (c g n : Nat) (x : GNode) : StartKeeps (startCommand s c g n x) := by
  unfold startCommand
  simp only
  split
  · trivial
  · split
    · trivial
    · exact h

theorem copyFails_keeps (h : Memory.wf s.mem) (c g n : Nat) (x : GNode) (i : TrapInfo) : StartKeeps (copyFails s c g n x i) := by
  unfold copyFails
  split
  · trivial
  · split
    · trivial
    · exact copyStatus_wf h _ _ _ _ _

theorem startCopy_keeps (h : Memory.wf s.mem) (c g n : Nat) (x : GNode) : StartKeeps (startCopy s c g n x) := by
  unfold startCopy
  extract_lets w d a len xf
  split
  · exact h
  · split
    · exact copyFails_keeps h _ _ _ _ _
    · exact copyFails_keeps h _ _ _ _ _
    · split
      · trivial
      · exact copyFails_keeps h _ _ _ _ _
      · split
        · change Memory.wf _
          rw [startOp_mem]
          exact h
        · change Memory.wf _
          rw [enqueue_mem]
          exact h

theorem startKind_keeps (h : Memory.wf s.mem) (c g n : Nat) (x : GNode) (handle : Word) : StartKeeps (startKind s c g n x handle) := by
  unfold startKind
  split
  · exact h
  · split
    · exact startCopy_keeps h _ _ _ _
    · exact startCommand_keeps h _ _ _ _
  · exact startDecode_keeps h _ _ _ _
  · exact startNear_keeps h _ _ _ _
  · exact h

theorem tryStart_keeps (h : Memory.wf s.mem) (g n : Nat) (gr : Graph) (x : GNode) : StartKeeps (tryStart s g n gr x) := by
  unfold tryStart
  split
  · next hd => exact declaredCheck_keeps hd
  · simp only
    split
    · exact startKind_keeps h _ _ _ _ _
    · split
      · trivial
      · exact startKind_keeps (by exact h) _ _ _ _ _

theorem startNode_wf (h : Memory.wf s.mem) (g n : Nat) : Memory.wf (startNode s g n).mem := by
  unfold startNode
  split
  · exact h
  · split
    · next gr x _ _ =>
      have ht := tryStart_keeps h g n gr x
      split
      · exact h
      · exact dispatcherFault_wf h _ _ _ _ _
      · exact failNode_wf h _ _ _ _
      · next hs =>
        rw [hs] at ht
        exact failNode_wf ht _ _ _ _
      · next hs =>
        rw [hs] at ht
        exact ht
    · exact h

/-! The fault queue. -/

theorem passEntry_wf (h : Memory.wf s.mem) (c : Nat) (k : Context) (i : Nat) : Memory.wf (passEntry s c k i).mem := by
  unfold passEntry
  extract_lets bs ts s1
  have h1 : Memory.wf s1.mem := by
    unfold s1
    rw [foldl_mem fun _ _ => by rfl]
    exact h
  split
  · refine takeTraps_wf ?_ _
    rw [ite_mem, stopContext_mem, ite_self]
    exact h1
  · exact h1

theorem advanceHead_wf (h : Memory.wf s.mem) (c head : Nat) : Memory.wf (advanceHead s c head).mem := by
  unfold advanceHead
  split
  · exact h
  · split
    · exact foldl_wf (fun _ _ h => passEntry_wf h _ _ _) _ (by exact h)
    · exact h

end Sys2Proof.Canonical

/-! SUPPORT. What keeps memory in its canonical form: the host's messages, Lode, reset, loss and errors. -/

namespace Sys2Proof.Canonical

open Sys2Proof.Machine

variable {s : State}

/-! The host's messages. -/

@[simp] theorem reply_mem (hd : HostHead) (status value : Nat) : (reply s hd status value).mem = s.mem := rfl

theorem served_wf {f : State → State} (hf : ∀ s, Memory.wf s.mem → Memory.wf (f s).mem) (h : Memory.wf s.mem) (hd : HostHead) :
    Memory.wf (served hd s f).mem := by
  unfold served
  split
  · exact h
  · split
    · exact hf s h
    · exact h

theorem withContext_wf {f : Nat → State → State} (hf : ∀ c s, Memory.wf s.mem → Memory.wf (f c s).mem) (h : Memory.wf s.mem)
    (hd : HostHead) : Memory.wf (withContext hd s f).mem := by
  unfold withContext
  split
  · exact hf _ s h
  · exact h

theorem createContext_wf (h : Memory.wf s.mem) (hd : HostHead) (desc : Nat) : Memory.wf (createContext s hd desc).mem := by
  have h1 := readBytesNow_wf h desc 128 none 0
  unfold createContext
  simp only
  split
  · exact h
  · split
    · exact h1
    · exact h1

@[simp] theorem removeTeam_mem (m : Nat) : (removeTeam s m).mem = s.mem := by
  unfold removeTeam
  split
  · rfl
  · extract_lets s1 s2 s3 s4 s5
    have h1 : s1.mem = s.mem := foldl_mem (fun _ _ => by rfl) _ s
    have h4 : s4.mem = s3.mem := modCore_mem _ _ _ _
    have h5 : s5.mem = s4.mem := foldl_mem (fun _ _ => by rfl) _ s4
    exact h5.trans (h4.trans h1)

@[simp] theorem removeGraph_mem (g : Nat) : (removeGraph s g).mem = s.mem := by
  unfold removeGraph
  split
  · rfl
  · rw [modGraph_mem]
    exact foldl_mem (fun _ _ => releaseNode_mem _ _) _ s

theorem settleAliases_wf (h : Memory.wf s.mem) (c ctxid : Nat) : Memory.wf (settleAliases s c ctxid).mem := by
  unfold settleAliases
  refine foldl_wf (fun s i h => foldl_wf (fun s e h => ?_) _ h) _ h
  simp only [releaseNotice_mem, modHome_mem]
  refine foldl_wf (fun s k h => ?_) _ h
  split
  · exact materialiseBlock_wf h _ _
  · exact h

theorem destroyContext_wf (h : Memory.wf s.mem) (hd : HostHead) (c : Nat) : Memory.wf (destroyContext s hd c).mem := by
  unfold destroyContext
  extract_lets stopped s1 s2 s3 s4
  have h2 : s2.mem = s.mem := (foldl_mem (fun _ _ => removeGraph_mem _) _ s1).trans (foldl_mem (fun _ _ => removeTeam_mem _) _ s)
  have h3 : Memory.wf s3.mem := by
    change Memory.wf s2.mem
    rw [h2]
    exact h
  split
  · exact h
  · rw [reply_mem, modCtx_mem]
    exact settleAliases_wf h3 c _

theorem preemptContext_wf (h : Memory.wf s.mem) (hd : HostHead) (c : Nat) : Memory.wf (preemptContext s hd c).mem := by
  unfold preemptContext
  rw [reply_mem]
  exact foldl_wf (fun _ _ h => preemptCluster_wf h _) _ h

theorem hostFire_wf (h : Memory.wf s.mem) (hd : HostHead) (c : Nat) (addr : DWord) : Memory.wf (hostFire s hd c addr).mem :=
  fireGraph_wf h c addr.toNat 0

@[simp] theorem keyPut_mem (slot : Nat) (f : KeySlot → KeySlot) : (keyPut s slot f).mem = s.mem := rfl

@[simp] theorem loadKey_mem (hd : HostHead) (slot : Nat) (k : BitVec 512) : (loadKey s hd slot k).mem = s.mem := by
  unfold loadKey
  split <;> rfl

theorem discardSector_wf (h : Memory.wf s.mem) (sec : Nat) : Memory.wf (discardSector s sec).mem := by
  unfold discardSector
  rw [discardPeat_mem, dropCopies_mem]
  exact quiesce_wf h sec

@[simp] theorem freeKeyEntries_mem (slot : Nat) : (freeKeyEntries s slot).mem = s.mem := rfl

theorem failKeyOp_wf (h : Memory.wf s.mem) (slot : Nat) (e : EngineOp) : Memory.wf (failKeyOp slot s e).mem := by
  unfold failKeyOp
  simp only
  split
  · exact h
  · split
    · split
      · split
        · rw [send_mem]
          exact copyStatus_wf (by exact h) _ _ _ _ _
        · exact h
      · exact h
    · exact h

theorem scrambleSector_wf (h : Memory.wf s.mem) (sec : Nat) : Memory.wf (scrambleSector s sec).mem := putBytes_wf (by exact h) _ _ _

theorem destroyKey_wf (h : Memory.wf s.mem) (hd : HostHead) (slot : Nat) : Memory.wf (destroyKey s hd slot).mem := by
  unfold destroyKey
  extract_lets k s1 s2 s3 s4 s5
  have h3 : Memory.wf s3.mem := foldl_wf (fun _ _ h => discardSector_wf h _) _ (by exact h)
  have h4 : Memory.wf s4.mem := foldl_wf (fun _ _ h => failKeyOp_wf h _ _) _ h3
  have h5 : Memory.wf s5.mem := foldl_wf (fun _ _ h => scrambleSector_wf h _) _ h4
  split
  · exact h
  · exact h5

@[simp] theorem rebasePackage_mem (hd : HostHead) : (rebasePackage s hd).mem = s.mem := by
  unfold rebasePackage
  split <;> rfl

theorem emptyHome_wf (h : Memory.wf s.mem) (i : Nat) : Memory.wf (emptyHome s i).mem := by
  unfold emptyHome
  split
  · exact h
  · next hm _ =>
    have hw : Memory.wf (((hm.wc.map (·.line)).foldl (fun (a : Home × Memory) l => wcFall (peatCall s none) a.1 a.2 l) (hm, s.mem))).2 :=
      foldl_kept (p := fun a : Home × Memory => Memory.wf a.2) (fun _ _ h => (Peat.wcFall_moved _ _ _ _).canonical h) _ h
    exact foldl_kept (p := fun a : Home × Memory => Memory.wf a.2) (fun _ _ h => (Peat.peatDrop_moved _ _ _ _).canonical h) _ hw

theorem powerDown_wf (h : Memory.wf s.mem) : Memory.wf (powerDown s).mem := by
  have hx : ∀ secs : List Nat, Memory.wf (secs.foldl exclude s).mem := fun secs => foldl_wf (fun _ _ h => exclude_wf h _) secs h
  unfold powerDown
  generalize (s.dies.flatMap fun d => d.l2.map (·.sec)).dedup = secs
  generalize List.range 12 = l
  exact foldl_wf (fun _ i h => emptyHome_wf h i) l (hx secs)

theorem setPower_wf (h : Memory.wf s.mem) (hd : HostHead) (state : Nat) : Memory.wf (setPower s hd state).mem := by
  unfold setPower
  split
  · exact h
  · change Memory.wf (if state = 2 then powerDown s else s).mem
    split
    · exact powerDown_wf h
    · exact h

theorem refuseMessage_wf (h : Memory.wf s.mem) (hd : HostHead) : Memory.wf (refuseMessage hd s).mem := 
  served_wf (f := fun s => reply s hd 1 0) (fun _ h => h) h hd

/-! Lode. -/

theorem landBytes_wf (h : Memory.wf s.mem) (c : Option Nat) (pa : Nat) (bs : List Byte) : Memory.wf (landBytes s c pa bs).mem :=
  foldl_wf (fun _ _ h => by
    rw [wakeMonitors_mem]
    exact putNow_wf h _ _ _ _) _ h

theorem lodeLanding_wf (h : Memory.wf s.mem) (node ctxid addr : Nat) (bytes : List Byte) :
    Memory.wf (lodeLanding s node ctxid addr bytes).mem := by
  unfold lodeLanding
  split
  · exact h
  · refine foldl_kept (p := fun a : State × List Byte => Memory.wf a.1.mem) (fun _ _ h => landBytes_wf h _ _ _) _ ?_
    rw [retagAll_mem]
    exact h

theorem lodeReadNow_wf (h : Memory.wf s.mem) (node ctxid addr n : Nat) : Memory.wf (lodeReadNow s node ctxid addr n).mem := by
  unfold lodeReadNow
  split
  · exact h
  · exact touchPieces_wf h _ _ _

theorem lodeAck_wf (h : Memory.wf s.mem) (op status : Nat) (bytes : List Byte) : Memory.wf (lodeAck s op status bytes).mem := by
  unfold lodeAck
  split
  · exact h
  · split
    · exact lodeFinish_wf h _ _
    · split <;> exact h

theorem atomServe_wf (h : Memory.wf s.mem) (m : RemoteAtom) : Memory.wf (atomServe s m).mem := by
  unfold atomServe
  simp only
  split
  · exact h
  · split
    · exact h
    · split
      · exact h
      · exact writeBytesNow_wf (readBytesNow_wf h _ _ _ _) _ _ _ _

theorem atomqArrive_wf (h : Memory.wf s.mem) (m : RemoteAtom) : Memory.wf (atomqArrive s m).mem := by
  unfold atomqArrive
  split
  · exact atomServe_wf (by exact h) _
  · exact h

@[simp] theorem atomqAnswer_mem (op status : Nat) (old : DWord) : (atomqAnswer s op status old).mem = s.mem := by
  unfold atomqAnswer
  split <;> simp

/-! Reset, and the PHY's tests. -/

@[simp] theorem phyComplete_mem (b : PhyBlock) : (phyComplete s b).mem = s.mem := by
  unfold phyComplete
  simp only
  split
  · rfl
  · simp

theorem afterReset_wf : Memory.wf (afterReset s).mem := rfl

theorem verifyImages_mem (images : List FirmwareImage) (ks : List Nat) : ∀ {s s1 : State}, verifyImages images ks s = some s1 → s1.mem = s.mem := by
  induction ks with
  | nil =>
    intro s s1 h
    cases h
    rfl
  | cons k ks ih =>
    intro s s1 h
    unfold verifyImages at h
    split at h
    · split at h
      · have h1 := ih h
        exact h1
      · cases h
    · cases h

theorem loadTraining_wf (h : Memory.wf s.mem) (c : Nat) (x : TrainingImage) : Memory.wf (loadTraining c s x).mem := by
  unfold loadTraining
  split
  · exact h
  · simp only
    split
    · exact memWriteN_wf h _ _
    · exact memWriteN_wf h _ _

theorem startTraining_wf (h : Memory.wf s.mem) (l : List TrainingImage) : Memory.wf (startTraining s l).mem := by
  unfold startTraining
  refine foldl_wf (fun s d h => ?_) _ h
  simp only
  split
  · exact h
  · exact foldl_wf (fun _ _ h => loadTraining_wf h _ _) _ (by exact h)

theorem packageReset_wf (images : List FirmwareImage) (training : List TrainingImage) : Memory.wf (packageReset s images training).mem := by
  unfold packageReset
  simp only
  split
  · exact afterReset_wf (s := s)
  · next s1 hv =>
    have h1 : Memory.wf s1.mem := by
      rw [verifyImages_mem _ _ hv]
      exact afterReset_wf (s := s)
    have ht := startTraining_wf (s := { s1 with lodeUp := true }) (by exact h1) training
    split
    · exact ht
    · exact ht

/-! Errors. -/

@[simp] theorem countCorrected_mem (source : Nat) : (countCorrected s source).mem = s.mem := rfl

@[simp] theorem machineCheck_mem (cls source die stack channel site addr : Nat) :
    (machineCheck s cls source die stack channel site addr).mem = s.mem := rfl

@[simp] theorem stopForError_mem (code c : Nat) : (stopForError code s c).mem = s.mem := by
  unfold stopForError
  split
  · rw [ite_mem, stopContext_mem, ite_self]
  · rfl

theorem stopAll_mem (code : Nat) (l : List Nat) : (l.foldl (stopForError code) s).mem = s.mem := foldl_mem (fun _ _ => stopForError_mem _ _) l s

@[simp] theorem fatalStop_mem (code : Nat) : (fatalStop s code).mem = s.mem := stopAll_mem code _

@[simp] theorem retireLink_mem (lode : Bool) (link : Nat) : (retireLink s lode link).mem = s.mem := by
  unfold retireLink
  split <;> rfl

@[simp] theorem flitError_mem (lode : Bool) (link : Nat) : (flitError s lode link).mem = s.mem := by
  unfold flitError
  simp only
  split
  · exact retireLink_mem _ _
  · rfl

@[simp] theorem poisonSector_mem (sec : Nat) : (poisonSector s sec).mem = s.mem := by
  unfold poisonSector
  simp

@[simp] theorem peatError_mem (sec : Nat) : (peatError s sec).mem = s.mem := by
  unfold peatError
  split
  · rfl
  · simp

theorem l2Error_wf (h : Memory.wf s.mem) (die sec : Nat) : Memory.wf (l2Error s die sec).mem := by
  have hq := quiesce_wf h sec
  unfold l2Error
  simp only
  split
  · exact hq
  · split
    all_goals simpa using hq

theorem l1Error_wf (h : Memory.wf s.mem) (die site sec : Nat) : Memory.wf (l1Error s die site sec).mem := by
  have hq := quiesce_wf h sec
  unfold l1Error
  simp only
  split
  · exact hq
  · split
    · simpa using hq
    · simpa using hq

@[simp] theorem frameError_mem (team page sector : Nat) : (frameError s team page sector).mem = s.mem := by
  unfold frameError
  split
  · rfl
  · split
    · rfl
    · simp only
      split <;> simp

@[simp] theorem tileOpError_mem (die site op : Nat) (f : TileOp → TileOp) : (tileOpError s die site op f).mem = s.mem := modCore_mem _ _ _ _
@[simp] theorem tileError_mem (die site acc row : Nat) : (tileError s die site acc row).mem = s.mem := modCore_mem _ _ _ _

theorem directoryError_wf (h : Memory.wf s.mem) (line : Nat) : Memory.wf (directoryError s line).mem :=
  foldl_wf (fun _ _ h => exclude_wf h _) _ h

@[simp] theorem tableError_mem (home : Nat) : (tableError s home).mem = s.mem := by simp [tableError]

theorem hwError_wf (h : Memory.wf s.mem) (e : HwError) : Memory.wf (hwError s e).mem := by
  cases e with
  | l2 die sec => exact l2Error_wf h die sec
  | l1 die site sec => exact l1Error_wf h die site sec
  | directory line => exact directoryError_wf h line
  | peat sec => exact (peatError_mem (s := s) sec).symm ▸ h
  | frame team page sector => exact (frameError_mem (s := s) team page sector).symm ▸ h
  | register tid pos => exact h
  | bank die site op bank block => exact (tileOpError_mem (s := s) die site op _).symm ▸ h
  | row die site op row => exact (tileOpError_mem (s := s) die site op _).symm ▸ h
  | tile die site acc row => exact (tileError_mem (s := s) die site acc row).symm ▸ h
  | table home => exact (tableError_mem (s := s) home).symm ▸ h

/-! Loss. -/

@[simp] theorem loseSector_mem (sec : Nat) : (loseSector s sec).mem = s.mem := dropCopies_mem sec

theorem loseCopy_wf (h : Memory.wf s.mem) (die : Nat) (x : L2Sector) : Memory.wf (loseCopy die s x).mem := by
  unfold loseCopy
  split
  · rw [loseSector_mem]
    exact h
  · rw [loseSector_mem]
    exact h
  · rw [loseSector_mem]
    exact mergeHome_wf h _ _ _ _
  all_goals exact h

theorem quiesceAll_wf (h : Memory.wf s.mem) : Memory.wf (quiesceAll s).mem := foldl_wf (fun _ _ h => quiesce_wf h _) _ h

theorem loseCore_wf (h : Memory.wf s.mem) (die site : Nat) : Memory.wf (loseCore s die site).mem := by
  unfold loseCore
  simp only [modCore_mem, machineCheck_mem, stopAll_mem]
  rw [foldl_mem fun _ _ => loseSector_mem _]
  exact quiesceAll_wf h

theorem loseDie_wf (h : Memory.wf s.mem) (die : Nat) : Memory.wf (loseDie s die).mem := by
  unfold loseDie
  simp only [modDie_mem, fatalStop_mem, machineCheck_mem, stopAll_mem]
  exact foldl_wf (fun _ _ h => loseCopy_wf h _ _) _ (quiesceAll_wf h)

theorem unitLossOf_wf (h : Memory.wf s.mem) (die : Nat) (site : Option Nat) : Memory.wf (unitLossOf s die site).mem := by
  unfold unitLossOf
  split
  · exact loseCore_wf h _ _
  · exact loseDie_wf h _

/-! DRAM. -/

@[simp] theorem scrubSector_mem (sec : Nat) (e : ScrubFinding) : (scrubSector s sec e).mem = s.mem := by
  unfold scrubSector
  split
  · rfl
  · split <;> rfl

@[simp] theorem swapRow_mem (stack channel row : Nat) : (swapRow s stack channel row).mem = s.mem := by
  unfold swapRow
  split
  · rfl
  · simp

theorem failAccess_wf (h : Memory.wf s.mem) (a : Access) : Memory.wf (failAccess s a).mem := by
  unfold failAccess
  refine takeTraps_wf ?_ _
  rw [foldl_mem fun _ _ => withdrawWaits_mem _ _, endAccess_mem]
  exact h

theorem remapError_wf (h : Memory.wf s.mem) (stack channel : Nat) (agree : Bool) : Memory.wf (remapError s stack channel agree).mem := by
  unfold remapError
  split
  · exact h
  · split
    · simp only [send_mem]
      exact foldl_wf (fun _ _ h => failAccess_wf h _) _ h
    · split
      · exact h
      · rw [fatalStop_mem]
        exact h

/-! PREEMPT, and bytes that are no instruction. -/

theorem preemptGroup_sent {c b g k : Nat} {s1 : State} (hp : preemptGroup s c b g = .sent s1 k) : s1.mem = s.mem := by
  unfold preemptGroup at hp
  split at hp
  · cases hp
    rfl
  · simp only at hp
    split at hp
    · cases hp
      rfl
    · split at hp
      · next hs =>
        cases hp
        rw [enterHandler_mem, modGroup_mem, busyRecord_mem]
        exact sendRecord_sent hs
      · next hn => exact absurd hp (hn _ _)

theorem takePreempt_wf (h : Memory.wf s.mem) (m : Nat) : Memory.wf (takePreempt s m).mem := by
  unfold takePreempt
  split
  · exact h
  · split
    · simp only
      split
      · exact h
      · split
        · next hs =>
          rw [modTeam_mem, sentAll_mem (fun _ _ _ _ _ => preemptGroup_sent) ?_ _ _ _ _ _ hs, withdrawWaits_mem]
          · exact h
          · intro o x s1 k1 ho
            cases o with
            | sent s k => exact ⟨s, k, rfl⟩
            | held _ => cases ho
            | fault _ => cases ho
            | trap _ => cases ho
        · exact h
        · exact preemptFault_wf h _ _ _ _
        · rw [stopContext_mem]
          exact h
    all_goals exact h

theorem preemptStep_wf (h : Memory.wf s.mem) (m : Nat) : Memory.wf (preemptStep s m).mem := by
  unfold preemptStep
  split
  · have hw := fun b => writeHeader_wf h (teamCtx s m) m b
    simp only
    split
    · exact takePreempt_wf (hw _) m
    · exact hw _
  · exact takePreempt_wf h m

theorem badInstruction_wf (h : Memory.wf s.mem) (iss : Issue) (bs : List Byte) (e : DecodeError) : Memory.wf (badInstruction s iss bs e).mem :=
  takeTraps_wf (by exact h) _

end Sys2Proof.Canonical

/-! SUPPORT. Statement settled: memory's canonical form (log 5). -/

namespace Sys2Proof.Canonical

open Sys2Proof.Machine

variable {s : State}

/-! What an instruction or an event of the package does to memory. -/

theorem next_keeps {t : State} (h : Memory.wf t.mem) : StepKeeps (.next t) := stepKeeps_next.2 h

theorem next_keeps_of_mem {t : State} (h : Memory.wf s.mem) (ht : t.mem = s.mem) : StepKeeps (.next t) := by
  refine next_keeps ?_
  rw [ht]
  exact h

theorem choice_wf {c : Prop} [Decidable c] {a b : State} (ha : Memory.wf a.mem) (hb : Memory.wf b.mem) :
    Memory.wf (if c then a else b).mem := by
  split
  · exact ha
  · exact hb

theorem engineStep_keeps {work : State → EngineOp → State} (hw : ∀ s e, (work s e).mem = s.mem) (h : Memory.wf s.mem) {id eng fn : Nat} :
    StepKeeps (.next (engineStep s id eng fn work)) := by
  refine next_keeps (engineStep_wf (fun s e h => ?_) h _ _ _)
  rw [hw]
  exact h

theorem runResults_keeps {opc : BitVec 8} {f : Form} {res : Issue → List (Nat × Prep) → State → Ready → Res} (h : Memory.wf s.mem) :
    StepKeeps (runLanes opc f s fun iss ps s r => .ok s (res iss ps s r)) := runLanes_keeps (fun _ _ _ _ h => h) h

theorem execSel_keeps (h : Memory.wf s.mem) (f : Form) : StepKeeps (execSel f s) := by
  refine runWith_keeps (fun _ _ => rfl) (fun _ _ _ _ h => ?_) h
  exact h

theorem execUnpin_keeps (h : Memory.wf s.mem) (f : Form) : StepKeeps (execUnpin f s) := by
  refine runLanes_keeps (fun _ _ _ _ h => ?_) h
  exact h

theorem execTouch_keeps (h : Memory.wf s.mem) (f : Form) : StepKeeps (execTouch f s) := by
  refine runLanes_keeps (fun _ _ _ _ h => ?_) h
  exact h

theorem execTlbinv_keeps (h : Memory.wf s.mem) (f : Form) : StepKeeps (execTlbinv f s) := by
  refine runLanes_keeps (fun _ _ _ _ h => ?_) h
  exact h

theorem execSleep_keeps (h : Memory.wf s.mem) (f : Form) : StepKeeps (execSleep f s) := by
  refine runLanes_keeps (fun _ _ _ _ h => ?_) h
  exact h

theorem execTaddr_keeps (h : Memory.wf s.mem) (f : Form) : StepKeeps (execTaddr f s) := by
  refine runLanes_keeps (fun _ _ _ _ h => ?_) h
  split
  · split
    · exact h
    · trivial
  · trivial

theorem execPgath_keeps (h : Memory.wf s.mem) (f : Form) : StepKeeps (execPgath f s) := by
  refine runLanes_keeps (fun _ _ _ _ h => ?_) h
  simp only
  split
  · exact h
  · exact h

theorem execXset_keeps (h : Memory.wf s.mem) (f : Form) : StepKeeps (execXset f s) := by
  refine runLanes_keeps (fun _ _ _ _ h => ?_) h
  split
  · trivial
  · exact h

theorem execPerf_keeps (h : Memory.wf s.mem) (f : Form) : StepKeeps (execPerf f s) := by
  refine runLanes_keeps (fun _ _ _ _ h => ?_) h
  split
  · exact h
  · trivial

theorem execRangeLockGrant_keeps (h : Memory.wf s.mem) (e : Nat) : StepKeeps (execRangeLockGrant e s) := by
  have hg : Memory.wf (grantLocks s e).mem := by
    rw [grantLocks_mem]
    exact h
  unfold execRangeLockGrant
  simp only
  split
  · next x _ =>
    refine next_keeps (choice_wf ?_ hg)
    rw [sendGet_mem]
    exact hg
  · exact next_keeps hg

theorem execResume_keeps (h : Memory.wf s.mem) (hd : HostHead) : StepKeeps (execResume hd s) := by
  refine next_keeps (served_wf (fun _ h => withContext_wf (fun _ _ h => ?_) h _) h _)
  exact h

theorem execSetBudget_keeps (h : Memory.wf s.mem) (hd : HostHead) (v : DWord) : StepKeeps (execSetBudget hd v s) := by
  refine next_keeps (served_wf (fun _ h => withContext_wf (fun _ _ h => ?_) h _) h _)
  exact h

theorem execSetMode_keeps (h : Memory.wf s.mem) (hd : HostHead) (mode : Nat) : StepKeeps (execSetMode hd mode s) := by
  refine next_keeps (served_wf (fun s h => ?_) h _)
  exact choice_wf (a := reply { s with pushMode := mode = 1 } hd 0 0) (b := reply s hd 1 0) h h

theorem execSetNode_keeps (h : Memory.wf s.mem) (hd : HostHead) (node table : Nat) : StepKeeps (execSetNode hd node table s) := by
  refine next_keeps (served_wf (fun s h => ?_) h _)
  exact choice_wf (a := reply { s with node := some node, routeTable := table } hd 0 0) (b := reply s hd 1 0) h h

theorem exec_keeps (i : Instr) (h : Memory.wf s.mem) : StepKeeps (exec i s) := by
  cases i with
  | nop f => exact show StepKeeps (execNop f s) from runResults_keeps h
  | yield f => exact show StepKeeps (execYield f s) from runResults_keeps h
  | icmp f => exact show StepKeeps (execIcmp f s) from runResults_keeps h
  | fcmp f => exact show StepKeeps (execFcmp f s) from runResults_keeps h
  | plop f => exact show StepKeeps (execPlop f s) from runResults_keeps h
  | pmovGet f => exact show StepKeeps (execPmovGet f s) from runResults_keeps h
  | pmovPut f => exact show StepKeeps (execPmovPut f s) from runResults_keeps h
  | fclass f => exact show StepKeeps (execFclass f s) from runResults_keeps h
  | addc f => exact show StepKeeps (execAddc f s) from runResults_keeps h
  | bpln f => exact show StepKeeps (execBpln f s) from runResults_keeps h
  | bunp f => exact show StepKeeps (execBunp f s) from runResults_keeps h
  | scmax f => exact show StepKeeps (execScmax f s) from runResults_keeps h
  | lxch f => exact show StepKeeps (execLxch f s) from runResults_keeps h
  | matchLanes f => exact show StepKeeps (execMatchLanes f s) from runResults_keeps h
  | gred f => exact show StepKeeps (execGred f s) from runResults_keeps h
  | movk f => exact show StepKeeps (execMovk f s) from runResults_keeps h
  | xget f => exact show StepKeeps (execXget f s) from runResults_keeps h
  | xadj f => exact show StepKeeps (execXadj f s) from runResults_keeps h
  | rcpy f => exact show StepKeeps (execRcpy f s) from runResults_keeps h
  | prf f => exact show StepKeeps (execPrf f s) from runResults_keeps h
  | tstat f => exact show StepKeeps (execTstat f s) from runResults_keeps h
  | mfs f => exact show StepKeeps (execMfs f s) from runResults_keeps h
  | clock f => exact show StepKeeps (execClock f s) from runResults_keeps h
  | unpin f => exact execUnpin_keeps h f
  | touch f => exact execTouch_keeps h f
  | tlbinv f => exact execTlbinv_keeps h f
  | sleep f => exact execSleep_keeps h f
  | bra f => exact show StepKeeps (execBra f s) from runLanes_keeps (fun _ _ _ _ h => branchTo_keeps h _ _) h
  | jmp f => exact show StepKeeps (execJmp f s) from runLanes_keeps (fun _ _ _ _ h => branchTo_keeps h _ _) h
  | call f => exact show StepKeeps (execCall f s) from runLanes_keeps (fun _ _ _ _ h => callTo_keeps h _ _ _ _) h
  | calli f => exact show StepKeeps (execCalli f s) from runLanes_keeps (fun _ _ _ _ h => callTo_keeps h _ _ _ _) h
  | ret f => exact show StepKeeps (execRet f s) from runLanes_keeps (fun _ _ _ _ h => returnLane_keeps h _) h
  | exit f => exact show StepKeeps (execExit f s) from runLanes_keeps (fun _ _ _ _ h => exitThread_wf h _) h
  | loop f => exact show StepKeeps (execLoop f s) from runLanes_keeps (fun _ _ _ _ h => loopLane_keeps h _ _ _) h
  | trap f => exact show StepKeeps (execTrap f s) from runLanes_keeps (fun _ _ _ _ _ => trivial) h
  | bkpt f => exact show StepKeeps (execBkpt f s) from runLanes_keeps (fun _ _ _ _ _ => trivial) h
  | sel f => exact execSel_keeps h f
  | add f => exact show StepKeeps (execAdd f s) from runValue_keeps h _ _ _ _
  | sub f => exact show StepKeeps (execSub f s) from runValue_keeps h _ _ _ _
  | mul f => exact show StepKeeps (execMul f s) from runValue_keeps h _ _ _ _
  | mulh f => exact show StepKeeps (execMulh f s) from runValue_keeps h _ _ _ _
  | mad f => exact show StepKeeps (execMad f s) from runValue_keeps h _ _ _ _
  | madw f => exact show StepKeeps (execMadw f s) from runValue_keeps h _ _ _ _
  | abs f => exact show StepKeeps (execAbs f s) from runValue_keeps h _ _ _ _
  | min f => exact show StepKeeps (execMin f s) from runValue_keeps h _ _ _ _
  | max f => exact show StepKeeps (execMax f s) from runValue_keeps h _ _ _ _
  | dot4 f => exact show StepKeeps (execDot4 f s) from runValue_keeps h _ _ _ _
  | sad f => exact show StepKeeps (execSad f s) from runValue_keeps h _ _ _ _
  | and f => exact show StepKeeps (execAnd f s) from runValue_keeps h _ _ _ _
  | or f => exact show StepKeeps (execOr f s) from runValue_keeps h _ _ _ _
  | xor f => exact show StepKeeps (execXor f s) from runValue_keeps h _ _ _ _
  | bfn f => exact show StepKeeps (execBfn f s) from runValue_keeps h _ _ _ _
  | shl f => exact show StepKeeps (execShl f s) from runValue_keeps h _ _ _ _
  | shr f => exact show StepKeeps (execShr f s) from runValue_keeps h _ _ _ _
  | shra f => exact show StepKeeps (execShra f s) from runValue_keeps h _ _ _ _
  | rol f => exact show StepKeeps (execRol f s) from runValue_keeps h _ _ _ _
  | fsh f => exact show StepKeeps (execFsh f s) from runValue_keeps h _ _ _ _
  | popc f => exact show StepKeeps (execPopc f s) from runValue_keeps h _ _ _ _
  | clz f => exact show StepKeeps (execClz f s) from runValue_keeps h _ _ _ _
  | brev f => exact show StepKeeps (execBrev f s) from runValue_keeps h _ _ _ _
  | bfe f => exact show StepKeeps (execBfe f s) from runValue_keeps h _ _ _ _
  | bfi f => exact show StepKeeps (execBfi f s) from runValue_keeps h _ _ _ _
  | bsel f => exact show StepKeeps (execBsel f s) from runValue_keeps h _ _ _ _
  | lea f => exact show StepKeeps (execLea f s) from runValue_keeps h _ _ _ _
  | mov f => exact show StepKeeps (execMov f s) from runValue_keeps h _ _ _ _
  | movi f => exact show StepKeeps (execMovi f s) from runValue_keeps h _ _ _ _
  | taddr x => exact execTaddr_keeps h x
  | fadd f => exact show StepKeeps (execFadd f s) from runFloat_keeps h _ _ _
  | fsub f => exact show StepKeeps (execFsub f s) from runFloat_keeps h _ _ _
  | fmul f => exact show StepKeeps (execFmul f s) from runFloat_keeps h _ _ _
  | ffma f => exact show StepKeeps (execFfma f s) from runFloat_keeps h _ _ _
  | frcp f => exact show StepKeeps (execFrcp f s) from runFloat_keeps h _ _ _
  | frsq f => exact show StepKeeps (execFrsq f s) from runFloat_keeps h _ _ _
  | fsqrt f => exact show StepKeeps (execFsqrt f s) from runFloat_keeps h _ _ _
  | fexp2 f => exact show StepKeeps (execFexp2 f s) from runFloat_keeps h _ _ _
  | flog2 f => exact show StepKeeps (execFlog2 f s) from runFloat_keeps h _ _ _
  | fsin f => exact show StepKeeps (execFsin f s) from runFloat_keeps h _ _ _
  | fcos f => exact show StepKeeps (execFcos f s) from runFloat_keeps h _ _ _
  | ftanh f => exact show StepKeeps (execFtanh f s) from runFloat_keeps h _ _ _
  | fdiv f => exact show StepKeeps (execFdiv f s) from runFloat_keeps h _ _ _
  | fmin f => exact show StepKeeps (execFmin f s) from runPass_keeps h _ _ _
  | fmax f => exact show StepKeeps (execFmax f s) from runPass_keeps h _ _ _
  | frnd f => exact show StepKeeps (execFrnd f s) from runPass_keeps h _ _ _
  | fscale f => exact show StepKeeps (execFscale f s) from runFlagged_keeps h _ _ _ (fun _ _ => rfl) _
  | fdot2 f => exact show StepKeeps (execFdot2 f s) from runFlagged_keeps h _ _ _ (fun _ _ => rfl) _
  | dqnt f => exact show StepKeeps (execDqnt f s) from runFlagged_keeps h _ _ _ (fun _ _ => rfl) _
  | unpk f => exact show StepKeeps (execUnpk f s) from runFlagged_keeps h _ _ _ (fun _ _ => rfl) _
  | cvt f => exact show StepKeeps (execCvt f s) from runFlagged_keeps h _ _ _ (fun _ _ => convStart_mem _ _ _) _
  | qnt f => exact show StepKeeps (execQnt f s) from runFlagged_keeps h _ _ _ (fun _ _ => convStart_mem _ _ _) _
  | pack f => exact show StepKeeps (execPack f s) from runFlagged_keeps h _ _ _ (fun _ _ => convStart_mem _ _ _) _
  | pgath x => exact execPgath_keeps h x
  | xset x => exact execXset_keeps h x
  | ld f => exact show StepKeeps (execLd f s) from runLanes_keeps (fun _ _ _ _ h => loadLane_keeps h _ _ _) h
  | st f => exact show StepKeeps (execSt f s) from runLanes_keeps (fun _ _ _ _ h => storeLane_keeps h _ _ _ _ _ _ _) h
  | ldk f => exact show StepKeeps (execLdk f s) from runWith_keeps (fun _ _ => rfl) (fun _ _ _ _ h => loadLane_keeps h _ _ _) h
  | stk f => exact show StepKeeps (execStk f s) from runWith_keeps (fun _ _ => rfl) (fun _ _ _ _ h => storeLane_keeps h _ _ _ _ _ _ _) h
  | ldt f => exact show StepKeeps (execLdt f s) from runWith_keeps (fun _ _ => rfl) (fun _ _ _ _ h => ldtLane_keeps h _ _) h
  | stt f => exact show StepKeeps (execStt f s) from runWith_keeps (fun _ _ => rfl) (fun _ _ _ _ h => sttLane_keeps h _ _ _) h
  | cpy f => exact show StepKeeps (execCpy f s) from runLanes_keeps (fun _ _ _ _ h => copyLane_keeps h _ _ _) h
  | cpyt f => exact show StepKeeps (execCpyt f s) from runLanes_keeps (fun _ _ _ _ h => copyLane_keeps h _ _ _) h
  | cpye f => exact show StepKeeps (execCpye f s) from runLanes_keeps (fun _ _ _ _ h => copyLane_keeps h _ _ _) h
  | matz f => exact show StepKeeps (execMatz f s) from runLanes_keeps (fun _ _ _ _ h => matzLane_keeps h _) h
  | alq f => exact show StepKeeps (execAlq f s) from runLanes_keeps (fun _ _ _ _ h => alqLane_keeps h _) h
  | pin f => exact show StepKeeps (execPin f s) from runLanes_keeps (fun _ _ _ _ h => pinLane_keeps h _) h
  | cflush f => exact show StepKeeps (execCflush f s) from runLanes_keeps (fun _ _ _ _ h => flushLane_keeps h _ _ _ _) h
  | cinv f => exact show StepKeeps (execCinv f s) from runLanes_keeps (fun _ _ _ _ h => flushLane_keeps h _ _ _ _) h
  | atom f => exact show StepKeeps (execAtom f s) from runLanes_keeps (fun _ _ _ _ h => atomLane_keeps h _ _) h
  | acas f => exact show StepKeeps (execAcas f s) from runLanes_keeps (fun _ _ _ _ h => acasLane_keeps h _ _) h
  | red f => exact show StepKeeps (execRed f s) from runLanes_keeps (fun _ _ _ _ h => redLane_keeps h _ _) h
  | atomq f => exact show StepKeeps (execAtomq f s) from runLanes_keeps (fun _ _ _ _ h => atomqLane_keeps h _ _) h
  | cqpop f => exact show StepKeeps (execCqpop f s) from runLanes_keeps (fun _ _ _ _ h => cqpopLane_keeps h _ _) h
  | waitc f => exact show StepKeeps (execWaitc f s) from runLanes_keeps (fun _ _ _ _ h => waitcLane_keeps h _ _) h
  | wsig f => exact show StepKeeps (execWsig f s) from runLanes_keeps (fun _ _ _ _ h => lodeLane_keeps h _ _ _) h
  | putr f => exact show StepKeeps (execPutr f s) from runLanes_keeps (fun _ _ _ _ h => lodeLane_keeps h _ _ _) h
  | getr f => exact show StepKeeps (execGetr f s) from runLanes_keeps (fun _ _ _ _ h => lodeLane_keeps h _ _ _) h
  | bar f => exact show StepKeeps (execBar f s) from runWith_keeps (fun _ _ => rfl) (fun _ _ _ _ h => barLane_keeps h _ _ _) h
  | cbar f => exact show StepKeeps (execCbar f s) from runWith_keeps (fun _ _ => rfl) (fun _ _ _ _ h => cbarLane_keeps h _ _ _) h
  | abinit f => exact show StepKeeps (execAbinit f s) from runLanes_keeps (fun _ _ _ _ h => abinitLane_keeps h _ _) h
  | abarv f => exact show StepKeeps (execAbarv f s) from runLanes_keeps (fun _ _ _ _ h => abarvLane_keeps h _ _) h
  | abwait f => exact show StepKeeps (execAbwait f s) from runLanes_keeps (fun _ _ _ _ h => abwaitLane_keeps h _ _) h
  | fenceg f => exact show StepKeeps (execFenceg f s) from runLanes_keeps (fun _ _ _ _ h => fencegLane_keeps h _ _ _) h
  | fencex f => exact show StepKeeps (execFencex f s) from runLanes_keeps (fun _ _ _ _ h => fencexLane_keeps h _ _) h
  | wait f => exact show StepKeeps (execWait f s) from runLanes_keeps (fun _ _ _ _ h => waitLane_keeps h _ _) h
  | cvg f => exact show StepKeeps (execCvg f s) from runLanes_keeps (fun _ _ _ _ h => cvgLane_keeps h _ _) h
  | tclaim f => exact show StepKeeps (execTclaim f s) from runLanes_keeps (fun _ _ _ _ h => tclaimLane_keeps h _ _) h
  | trel f => exact show StepKeeps (execTrel f s) from runLanes_keeps (fun _ _ _ _ h => trelLane_keeps h _ _) h
  | tld f => exact show StepKeeps (execTld f s) from runSigning_keeps h _ _
  | tst f => exact show StepKeeps (execTst f s) from runSigning_keeps h _ _
  | tzero f => exact show StepKeeps (execTzero f s) from runSigning_keeps h _ _
  | tmma f => exact show StepKeeps (execTmma f s) from runSigning_keeps h _ _
  | tmmas f => exact show StepKeeps (execTmmas f s) from runSigning_keeps h _ _
  | tmovv f => exact show StepKeeps (execTmovv f s) from runSigning_keeps h _ _
  | twait f => exact show StepKeeps (execTwait f s) from runLanes_keeps (fun _ _ _ _ h => twaitLane_keeps h _ _) h
  | mqpush f => exact show StepKeeps (execMqpush f s) from runLanes_keeps (fun _ _ _ _ h => mqpushLane_keeps h _ _ _ _) h
  | mqclr f => exact show StepKeeps (execMqclr f s) from runLanes_keeps (fun _ _ _ _ h => mqclrLane_keeps h _ _) h
  | xop f => exact show StepKeeps (execXop f s) from runLanes_keeps (fun _ _ _ _ h => xopLane_keeps h _ _ _ _) h
  | xopr f => exact show StepKeeps (execXopr f s) from runLanes_keeps (fun _ _ _ _ h => xopLane_keeps h _ _ _ _) h
  | tidset f => exact show StepKeeps (execTidset f s) from runLanes_keeps (fun _ _ _ _ h => tidsetLane_keeps h _ _) h
  | tidget f => exact show StepKeeps (execTidget f s) from runLanes_keeps (fun _ _ _ _ h => tidgetLane_keeps h _ _) h
  | gfire f => exact show StepKeeps (execGfire f s) from runLanes_keeps (fun _ _ _ _ h => gfireLane_keeps h _) h
  | nodeq f => exact show StepKeeps (execNodeq f s) from runLanes_keeps (fun _ _ _ _ h => nodeqLane_keeps h _) h
  | mts f => exact show StepKeeps (execMts f s) from runLanes_keeps (fun _ _ _ _ h => mtsLane_keeps h _ _ _) h
  | rtt f => exact show StepKeeps (execRtt f s) from runLanes_keeps (fun _ _ _ _ h => rttLane_keeps h _ _) h
  | ctxsv f => exact show StepKeeps (execCtxsv f s) from runLanes_keeps (fun _ _ _ _ h => ctxsvLane_keeps h _ _ _) h
  | ctxrs f => exact show StepKeeps (execCtxrs f s) from runLanes_keeps (fun _ _ _ _ h => ctxrsLane_keeps h _ _ _) h
  | spillw f => exact show StepKeeps (execSpillw f s) from runLanes_keeps (fun _ _ _ _ h => spillwLane_keeps h _) h
  | fillw f => exact show StepKeeps (execFillw f s) from runLanes_keeps (fun _ _ _ _ h => fillwLane_keeps h _) h
  | icinv f => exact show StepKeeps (execIcinv f s) from runLanes_keeps (fun _ _ _ _ h => icinvLane_keeps h _) h
  | exitp f => exact show StepKeeps (execExitp f s) from runLanes_keeps (fun _ _ _ _ h => exitpLane_keeps h _) h
  | perf x => exact execPerf_keeps h x
  | halt f => exact show StepKeeps (execHalt f s) from runLanes_keeps (fun _ _ _ _ h => haltLane_keeps h _) h
  | instructionFetch _ _ _ _ => exact next_keeps (fetchBlock_wf h _ _ _ _)
  | promotion _ => exact next_keeps_of_mem h (promote_mem _)
  | loopBufferGrant _ _ _ => exact next_keeps_of_mem h (grantLoop_mem _ _ _)
  | loadReturn _ => exact next_keeps (loadReturnOf_wf h _)
  | accessAcknowledge _ => exact next_keeps (acknowledge_wf h _)
  | spill _ => exact next_keeps (spillUnit_wf h _)
  | fill _ => exact next_keeps (fillUnit_wf h _)
  | tileOperationIssue _ _ _ => exact next_keeps (tileIssue_wf h _ _ _)
  | tileOperationComplete _ _ _ => exact next_keeps (tileComplete_wf h _ _ _)
  | slCopy _ => exact engineStep_keeps (fun _ _ => slCopy_mem _) h
  | slFill _ => exact engineStep_keeps (fun _ _ => slFill_mem _) h
  | slGather _ => exact engineStep_keeps (fun _ _ => slGather_mem _) h
  | slSparse _ => exact engineStep_keeps (fun _ _ => slSparse_mem _) h
  | slLoad _ => exact engineStep_keeps (fun _ _ => slLoad_mem _) h
  | fdOpen _ => exact engineStep_keeps (fun _ _ => fdOpen_mem _) h
  | fdFrame _ => exact next_keeps (engineStep_wf (fun _ _ h => fdFrame_wf h _) h _ _ _)
  | fdClose _ => exact engineStep_keeps (fun _ _ => fdClose_mem _) h
  | sbHash _ => exact engineStep_keeps (fun _ _ => sbHash_mem _) h
  | sbReport _ => exact engineStep_keeps (fun _ _ => sbReport_mem _) h
  | sbExtend _ => exact engineStep_keeps (fun _ _ => sbExtend_mem _) h
  | engineOperationComplete _ => exact next_keeps (engineComplete_wf h _)
  | eagerCopyComplete _ => exact next_keeps (eagerComplete_wf h _)
  | copyCommit _ => exact next_keeps (copyCommit_wf h _)
  | sourceBlockRead _ _ => exact next_keeps (touchSector_wf h _ _)
  | dhomeMaterialise _ _ => exact next_keeps (dhomeMaterialiseGrain_wf h _ _)
  | aliasReleaseNotice _ _ _ => exact next_keeps_of_mem h (freeWatches_mem _ _ _)
  | hotMaterialise _ _ => exact next_keeps (hotMaterialiseOf_wf h _ _)
  | backgroundMaterialiser _ => exact next_keeps (drainOne_wf h _)
  | rds _ _ | rdx _ _ | upg _ _ | pjoin _ _ _ => exact next_keeps (homeRequest_wf h _ _)
  | wbm _ => exact next_keeps (homeWbm_wf h _)
  | drop _ _ => exact next_keeps_of_mem h (homeDrop_mem _ _)
  | inv _ _ => exact next_keeps_of_mem h (dieInv_mem _ _)
  | fwd _ _ _ _ => exact next_keeps_of_mem h (dieFwd_mem _ _ _ _)
  | precall _ _ => exact next_keeps_of_mem h (diePrecall_mem _ _)
  | peek _ _ _ => exact next_keeps_of_mem h (diePeek_mem _ _)
  | ack _ => exact next_keeps (homeAck_wf h _)
  | data _ => exact next_keeps_of_mem h (dieData_mem _)
  | grant _ => exact next_keeps_of_mem h (dieGrant_mem _)
  | sliceRedUpdate _ => exact next_keeps (sliceUpdate_wf h _)
  | monitorWake _ => exact next_keeps_of_mem h (wakeMonitor_mem _)
  | waitcPoll _ => exact next_keeps_of_mem h (pollAgain_mem _)
  | sleepExpire _ => exact next_keeps_of_mem h (wakeSleeper_mem _)
  | ptimeTick => exact next_keeps_of_mem h tick_mem
  | ptimeLimitReport => exact next_keeps_of_mem h reportPtime_mem
  | wcFallback _ _ => exact next_keeps (wcFallbackOf_wf h _ _)
  | fadePeriod _ => exact next_keeps_of_mem h (fadeContext_mem _)
  | scratchpadRefill _ _ => exact next_keeps (refill_wf h _ _)
  | ticketPull _ _ => exact next_keeps (pullTicket_wf h _ _)
  | steal _ _ => exact next_keeps_of_mem h (stealTickets_mem _ _)
  | pushBatch _ _ => exact next_keeps_of_mem h (pushBatchTo_mem _ _)
  | teamAdmit _ _ _ _ => exact next_keeps (choice_wf (admitPushed_wf h _ _ _) h)
  | teamComplete _ => exact next_keeps_of_mem h (completeTeam_mem _)
  | swapOut _ => exact next_keeps (swapCluster_wf h _)
  | teamRestore _ => exact next_keeps (restoreCluster_wf h _)
  | nodeStart _ _ => exact next_keeps (startNode_wf h _ _)
  | nodeComplete _ _ => exact next_keeps (completeNode_wf h _ _)
  | nodeFail _ _ _ _ => exact next_keeps (failNode_wf h _ _ _ _)
  | hummockCommand _ _ _ => exact next_keeps_of_mem h (hummock_mem _ _ _)
  | parityAbort _ _ _ _ => exact next_keeps_of_mem h (parityAbort_mem _ _ _ _)
  | decodeUnit _ _ _ => exact next_keeps (decodeUnitOf_wf h _ _ _)
  | faultQueueHead _ _ => exact next_keeps (advanceHead_wf h _ _)
  | ctxCreate _ _ => exact next_keeps (served_wf (fun _ h => createContext_wf h _ _) h _)
  | ctxDestroy _ => exact next_keeps (served_wf (fun _ h => withContext_wf (fun _ _ h => destroyContext_wf h _ _) h _) h _)
  | preempt _ => exact next_keeps (served_wf (fun _ h => withContext_wf (fun _ _ h => preemptContext_wf h _ _) h _) h _)
  | resume hd => exact execResume_keeps h hd
  | setBudget hd v => exact execSetBudget_keeps h hd v
  | graphFire _ _ => exact next_keeps (served_wf (fun _ h => withContext_wf (fun _ _ h => hostFire_wf h _ _ _) h _) h _)
  | keyLoad _ _ _ => exact next_keeps (served_wf (fun _ h => (loadKey_mem _ _ _).symm ▸ h) h _)
  | keyDestroy _ _ => exact next_keeps (served_wf (fun _ h => destroyKey_wf h _ _) h _)
  | setMode hd mode => exact execSetMode_keeps h hd mode
  | setNode hd node table => exact execSetNode_keeps h hd node table
  | rebase _ => exact next_keeps (served_wf (fun _ h => (rebasePackage_mem _).symm ▸ h) h _)
  | power _ _ => exact next_keeps (served_wf (fun _ h => setPower_wf h _ _) h _)
  | lodeWriteLanding _ _ _ _ => exact next_keeps (choice_wf (lodeLanding_wf h _ _ _ _) h)
  | lodeRead _ _ _ _ => exact next_keeps (choice_wf (lodeReadNow_wf h _ _ _ _) h)
  | lodeAcknowledge _ _ _ => exact next_keeps (lodeAck_wf h _ _ _)
  | atomqCommand _ => exact next_keeps (atomqArrive_wf h _)
  | atomqReply _ _ _ => exact next_keeps_of_mem h (atomqAnswer_mem _ _ _)
  | phyTestComplete _ => exact next_keeps_of_mem h (phyComplete_mem _)
  | packageReset _ _ => exact next_keeps (packageReset_wf _ _)
  | unitLoss _ _ => exact next_keeps (unitLossOf_wf h _ _)
  | scrub _ _ => exact next_keeps_of_mem h (scrubSector_mem _ _)
  | rowSwap _ _ _ => exact next_keeps_of_mem h (swapRow_mem _ _ _)
  | remapTableError _ _ _ => exact next_keeps (remapError_wf h _ _ _)
  | linkRetire _ _ => exact next_keeps_of_mem h (retireLink_mem _ _)
  | sensorPoll | overTemperature _ | overcurrent | overTemperatureClear _ | overcurrentClear
  | correctedErrorReport _ _ _ _ _ => exact next_keeps h
  | droop _ _ | droopRecovery _ _ => exact next_keeps_of_mem h (modCore_mem _ _ _ _)
  | thermalTrip => exact next_keeps_of_mem h (fatalStop_mem _)
  | readPoint _ _ => exact next_keeps_of_mem h (phyReadPoint_mem _ _)
  | writePoint _ _ => exact next_keeps_of_mem h (phyWritePoint_mem _ _)
  | prbs _ => exact next_keeps_of_mem h (phyPrbs_mem _)
  | pswap _ _ => exact next_keeps_of_mem h (phyPswap_mem _ _)
  | pdone _ _ => exact next_keeps_of_mem h (phyPdone_mem _ _)
  | registerWrite _ _ _ => exact next_keeps_of_mem h (phyRegisterWrite_mem _ _ _)
  | flitCrcError _ _ => exact next_keeps_of_mem h (flitError_mem _ _)
  | runRateChange _ _ => exact next_keeps (choice_wf h h)
  | rangeLockGrant x => exact execRangeLockGrant_keeps h x

theorem serveMessage_keeps (node : Nat) (bytes : List Byte) (h : Memory.wf s.mem) : StepKeeps (serveMessage node bytes s) := by
  unfold serveMessage
  split
  · exact exec_keeps _ h
  · exact next_keeps (refuseMessage_wf h _)

theorem stepStopped_keeps (h : Memory.wf s.mem) : StepKeeps (stepStopped s) := by
  unfold stepStopped
  split
  · exact exec_keeps _ h
  · intro t ht
    cases ht

/-! A step. -/

theorem step_keeps (h : Memory.wf s.mem) : StepKeeps (step s) := by
  have hr : Memory.wf (settleReady s).mem := by
    rw [settleReady_mem]
    exact h
  unfold step
  split
  · exact stepStopped_keeps h
  · simp only
    generalize settleReady s = r at hr ⊢
    split
    case h_1 i _ => exact exec_keeps i (by rw [takeMove_mem]; exact hr)
    case h_2 t _ => exact next_keeps_of_mem hr (startIteration_mem (s := takeChoice r) t)
    case h_3 m _ => exact next_keeps (preemptStep_wf (s := takeChoice r) hr m)
    case h_4 e _ => exact next_keeps (hwError_wf (by exact hr) e)
    case h_5 n bs _ => exact serveMessage_keeps n bs hr
    case h_6 => exact next_keeps_of_mem hr (passClk_mem (s := takeChoice r))
    case h_7 x _ =>
      have hb : Memory.wf (beginIssue (takeChoice r) x (classF (headOpcode (issueBytes r x)))).mem := by
        rw [beginIssue_mem]
        exact hr
      split
      · exact next_keeps (badInstruction_wf hb _ _ _)
      · exact exec_keeps _ hb

end Sys2Proof.Canonical

namespace Sys2Proof

open Sys2Proof.Machine Sys2Proof.Canonical

/-- Settles O59: every event and instruction changes memory through a home's or a die's write alone, and those keep the
addresses rising and list no byte that an unlisted address reads as. -/
theorem memoryCanonical : Obligations.MemoryCanonical := by
  unfold Obligations.MemoryCanonical
  intro s t h ht
  exact step_keeps h t ht

end Sys2Proof

/-! SUPPORT. Statement settled: the host's messages on contexts (R342 to R346). -/

namespace Sys2Proof.HostMessages

open Sys2Proof.Machine Sys2Proof.Claims

variable {s : State} {h : HostHead} {f : State → State} {c : Nat}

/-- The outcomes of two states that are equal. -/
theorem next_congr {t u : State} (h : t = u) : (.next t : Host.Outcome State Fault Refusal) = .next u := congrArg _ h

/-! Whether a message is served (R345, R359). -/

theorem served_down (hd : s.lodeUp = false) : served h s f = s := by
  simp [served, hd]

theorem served_refused (hu : s.lodeUp = true) (hr : hostRole s h.node = false ∨ s.fatal = true) : served h s f = answered s h 1 0 := by
  have hn : ¬(hostRole s h.node = true ∧ (!s.fatal) = true) := by
    rcases hr with hr | hr <;> simp [hr]
  simp only [served, hu, Bool.not_true, Bool.false_eq_true, if_false, if_neg hn]
  rfl

theorem served_heard (hh : heard s h) : served h s f = f s := by
  obtain ⟨hu, hr, hf⟩ := hh
  simp [served, hu, hr, hf]

theorem withContext_some {f : Nat → State → State} (hc : ctxWith s h.ctxid = some c) : withContext h s f = f c s := by
  simp [withContext, hc]

theorem withContext_none {f : Nat → State → State} (hc : ctxWith s h.ctxid = none) : withContext h s f = answered s h 1 0 := by
  simp only [withContext, hc]
  rfl

/-! Contexts (R342, R344). -/

theorem budgetOf_bits (v : DWord) : budgetOf v = budgetBits v := by
  simp only [budgetOf, budgetBits, BitVec.extractLsb'_toNat, Nat.shiftRight_eq_div_pow]
  rw [Nat.mul_comm 256]

theorem createContext_readable {a : Nat} {s1 : State} {bs : List Byte} {ts : Nat} (ha : a % 64 = 0) (he : a + 128 ≤ dramEnd)
    (hm : ∀ sec ∈ pieceSectors [(a, 128)], readMark s a sec 0 = none) (hr : readBytesNow s a 128 none 0 = (s1, bs, ts)) :
    createContext s h a = if descriptorOk s1 bs then reply { s1 with contexts := s1.contexts ++ [contextOfDescriptor s1 bs] } h 0 0
      else reply s1 h 1 0 := by
  have hm' : ((pieceSectors [(a, 128)]).all fun sec => (readMark s a sec 0).isNone) = true := by
    simpa [List.all_eq_true] using hm
  simp [createContext, ha, he, hm', hr]

theorem createContext_unreadable {a : Nat} (ha : a % 64 ≠ 0 ∨ dramEnd < a + 128) : createContext s h a = answered s h 1 0 := by
  have hn : (decide (a % 64 = 0) && decide (a + 128 ≤ dramEnd)) = false := by
    rcases ha with ha | ha <;> simp [ha]
  simp only [createContext, hn, Bool.false_and, Bool.not_false, if_true]
  rfl

theorem settleAliases_none {ctxid : Nat} (ha : ∀ x ∈ s.homes, ∀ e ∈ x.aliases, e.ctxid ≠ ctxid) : settleAliases s c ctxid = s := by
  refine List.foldlRecOn (motive := fun t => t = s) _ _ rfl ?_
  rintro t rfl i -
  have he : ((((t.homes[i]?).map (·.aliases)).getD []).filter fun e => e.ctxid = ctxid) = [] := by
    refine List.filter_eq_nil_iff.2 fun e hm => ?_
    cases hx : t.homes[i]? with
    | none => simp [hx] at hm
    | some x =>
      rw [hx] at hm
      simpa using ha x (List.mem_of_getElem? hx) e hm
  simp only [he, List.foldl_nil]

theorem destroyContext_empty (hc : ctxTeams s c = []) (hg : ∀ x ∈ s.graphs, x.ctx ≠ c)
    (ha : ∀ x ∈ s.homes, ∀ e ∈ x.aliases, e.ctxid ≠ h.ctxid) :
    destroyContext s h c = answered (withCtx { s with
      grids := s.grids.map fun g => if g.ctx = c then { g with done := true } else g
      sessions := s.sessions.filter fun x => x.ctx ≠ c } c fun k => { k with live := false, tensors := [], windows := [], handles := [] })
      h 0 0 := by
  have hg' : ((List.range s.graphs.length).filter fun g => (s.graphs[g]?).any fun x => x.ctx = c) = [] := by
    refine List.filter_eq_nil_iff.2 fun g _ => ?_
    cases hx : s.graphs[g]? with
    | none => simp
    | some x => simpa using hg x (List.mem_of_getElem? hx)
  simp only [destroyContext, hc, List.any_nil, Bool.and_false, Bool.false_eq_true, if_false, List.foldl_nil, hg']
  rw [settleAliases_none (by exact ha)]
  rfl

theorem destroyContext_busy {k : Context} {m : Nat} (hk : s.contexts[c]? = some k) (hs : k.stopped = false) (hm : m ∈ ctxTeams s c)
    (hb : savedBlock (phaseOf s m) = none) : destroyContext s h c = answered s h 1 0 := by
  have hany : ((ctxTeams s c).any fun m => (savedBlock (phaseOf s m)).isNone) = true := List.any_eq_true.2 ⟨m, hm, by simp [hb]⟩
  simp only [destroyContext, hk, Option.map_some, Option.getD_some, hs, Bool.not_false, Bool.true_and, hany, if_true]
  rfl

/-! GRAPH_FIRE (R202, R323). -/

theorem hostFire_full {a : DWord} (hf : freeHandle s c = none) : hostFire s h c a = answered s h 0 0xFFFFFFFF := by
  simp only [hostFire, fireGraph, hf]
  rfl

theorem hostFire_bad {a : DWord} {slot gen : Nat} (hf : freeHandle s c = some (slot, gen)) (hr : readGraph s c a.toNat = none) :
    hostFire s h c a = answered s h 0 0xFFFFFFFE := by
  simp only [hostFire, fireGraph, hf, hr]
  rfl

end Sys2Proof.HostMessages

namespace Sys2Proof

open Sys2Proof.Machine Sys2Proof.Claims Sys2Proof.HostMessages

/-- Settles O48: a message is served by the state of the ports, the sender's role and the context that it names. -/
theorem hostContexts : Obligations.HostContexts := by
  refine ⟨?_, ?_, ?_, ?_, ?_, ?_, ?_, ?_⟩
  · intro s h n v hd
    have hs := fun f : State → State => next_congr (served_down (h := h) (f := f) hd)
    exact ⟨hs _, hs _, hs _, hs _, hs _, hs _⟩
  · intro s h n v hu hr
    have hs := fun f : State → State => next_congr (served_refused (f := f) hu hr)
    exact ⟨hs _, hs _, hs _, hs _, hs _, hs _⟩
  · intro s h v hh hc
    have hs := fun f : Nat → State → State => next_congr ((served_heard (f := fun s => withContext h s f) hh).trans (withContext_none hc))
    exact ⟨hs _, hs _, hs _, hs _, hs _⟩
  · intro s h a s1 bs ts hh ha he hm hr
    have hs := (served_heard (f := fun s => createContext s h a) hh).trans (createContext_readable ha he hm hr)
    refine ⟨fun hd => next_congr (hs.trans ?_), fun hd => next_congr (hs.trans ?_)⟩
    · rw [if_pos hd]
      simp only [contextOfDescriptor, budgetOf_bits]
      rfl
    · rw [hd]
      rfl
  · intro s h a hh ha
    exact next_congr ((served_heard hh).trans (createContext_unreadable ha))
  · intro s h c hh hc ht hg ha
    exact next_congr ((served_heard hh).trans ((withContext_some hc).trans (destroyContext_empty ht hg ha)))
  · intro s h c k m hh hc hk hs hm hb
    exact next_congr ((served_heard hh).trans ((withContext_some hc).trans (destroyContext_busy hk hs hm hb)))
  · intro s h c hh hc
    have hs := fun f : Nat → State → State => next_congr ((served_heard (f := fun s => withContext h s f) hh).trans (withContext_some hc))
    refine ⟨fun hm => (hs _).trans ?_, fun m hm => (hs _).trans ?_, hs _, fun v => (hs _).trans ?_, fun a hf => (hs _).trans ?_,
      fun a slot gen hf hr => (hs _).trans ?_, fun a slot gen x hf hr => (hs _).trans ?_⟩
    · simp only [preemptContext, hm]
      rfl
    · simp only [preemptContext, hm]
      rfl
    · simp only [budgetOf_bits]
      rfl
    · exact next_congr (hostFire_full hf)
    · exact next_congr (hostFire_bad hf hr)
    · simp only [hostFire, fireGraph, hf, hr]
      rfl

end Sys2Proof

/-! SUPPORT. Statement settled: the host's messages on the package, its reset, and the PHY's events. -/

namespace Sys2Proof.PackageMessages

open Sys2Proof.Machine Sys2Proof.Claims Sys2Proof.HostMessages

variable {s : State} {h : HostHead} {slot : Nat}

/-! Keys (R354, R355). -/

theorem loadKey_empty {k : BitVec 512} (h1 : 1 ≤ slot) (h2 : slot ≤ 255) (hk : (keyAt s 0 slot).st = 0) :
    loadKey s h slot k = answered { s with homes := s.homes.mapIdx fun i x => { x with
      keys := (slot, { keyAt s i slot with st := 1, key := k }) :: x.keys.filter fun e => e.1 ≠ slot } } h 0 0 := by
  rw [loadKey, if_neg (by omega)]
  rfl

theorem loadKey_refused {k : BitVec 512} (hk : slot = 0 ∨ 255 < slot ∨ (keyAt s 0 slot).st ≠ 0) : loadKey s h slot k = answered s h 1 0 := by
  rw [loadKey, if_pos hk]
  rfl

theorem lookupNat_insertNat {β : Type} (l : List (Nat × β)) (a : Nat) (v : β) : lookupNat (insertNat l a v) a = some v := by
  simp [insertNat, lookupNat]

theorem insertNat_insertNat {β : Type} (l : List (Nat × β)) (a : Nat) (v w : β) : insertNat (insertNat l a v) a w = insertNat l a w := by
  simp [insertNat]

theorem keyAt_keyPut {i : Nat} {x : Home} {f : KeySlot → KeySlot} (hx : s.homes[i]? = some x) :
    keyAt (keyPut s slot f) i slot = f (keyAt s i slot) := by
  have hp : (keyPut s slot f).homes[i]? = some { x with keys := insertNat x.keys slot (f (keyAt s i slot)) } := by
    simp [keyPut, hx]
  rw [keyAt, hp]
  simp [lookupNat_insertNat]

theorem keyPut_keyPut (f g : KeySlot → KeySlot) : keyPut (keyPut s slot f) slot g = keyPut s slot fun x => g (f x) := by
  refine congrArg (fun l => { s with homes := l }) (List.ext_getElem? fun i => ?_)
  cases hx : s.homes[i]? with
  | none => simp [keyPut, hx]
  | some x =>
    have hk := keyAt_keyPut (slot := slot) (f := f) hx
    rw [List.getElem?_mapIdx, List.getElem?_mapIdx, hk]
    simp [keyPut, hx, insertNat_insertNat]

theorem freeKeyEntries_none (hr : noReed s) : freeKeyEntries s slot = s := by
  refine (congrArg (fun l => { s with homes := l }) (List.map_congr_left fun x hx => ?_)).trans
    (congrArg (fun l => { s with homes := l }) (List.map_id s.homes))
  obtain ⟨ha, hw⟩ := hr x hx
  simp only [ha, hw, List.filter_nil]
  rw [← ha, ← hw]
  rfl

theorem keySectors_none {g : Option (BitVec 8)} (hm : ∀ x ∈ s.homes, ∀ m ∈ x.marks, m.key ≠ slot) : keySectors s slot g = [] := by
  refine List.flatMap_eq_nil_iff.2 fun x hx => ?_
  rw [List.map_eq_nil_iff, List.filter_eq_nil_iff]
  intro m hmm
  simp [hm x hx m hmm]

theorem keyPut_homes {f : KeySlot → KeySlot} {x : Home} (hx : x ∈ (keyPut s slot f).homes) :
    ∃ y ∈ s.homes, x.aliases = y.aliases ∧ x.watches = y.watches ∧ x.marks = y.marks := by
  obtain ⟨i, hi, rfl⟩ := List.mem_mapIdx.1 hx
  exact ⟨_, List.getElem_mem hi, rfl, rfl, rfl⟩

theorem destroyKey_plain (h1 : 1 ≤ slot) (h2 : slot ≤ 255) (hk : (keyAt s 0 slot).st = 1) (hr : noReed s) (he : s.engines = [])
    (hm : ∀ x ∈ s.homes, ∀ m ∈ x.marks, m.key ≠ slot) :
    destroyKey s h slot = answered { s with homes := s.homes.mapIdx fun i x => { x with
      keys := (slot, ⟨0, (keyAt s i slot).gen + 1, 0⟩) :: x.keys.filter fun e => e.1 ≠ slot } } h 0 0 := by
  have hf : ∀ f, freeKeyEntries (keyPut s slot f) slot = keyPut s slot f := fun f => freeKeyEntries_none fun x hx => by
    obtain ⟨y, hy, ha, hw, -⟩ := keyPut_homes hx
    rw [ha, hw]
    exact hr y hy
  have hn : ∀ f g, keySectors (keyPut s slot f) slot g = [] := fun f g => keySectors_none fun x hx m hmm => by
    obtain ⟨y, hy, -, -, hk⟩ := keyPut_homes hx
    exact hm y hy m (hk ▸ hmm)
  have he' : ∀ f, (keyPut s slot f).engines = [] := fun _ => he
  rw [destroyKey, if_neg (by omega)]
  simp only [hf, hn, List.foldl_nil, he', keyPut_keyPut]
  rfl

theorem destroyKey_refused (hk : slot = 0 ∨ 255 < slot ∨ (keyAt s 0 slot).st ≠ 1) : destroyKey s h slot = answered s h 1 0 := by
  rw [destroyKey, if_pos hk]
  rfl

/-! Times and power (R267, R370). -/

/-- Whether no team counts against a message: each team of the package meets a condition. -/
theorem phases_all {p : TeamPhase → Bool} (hp : ∀ t ∈ s.teams, p t.phase = false) : ((List.range s.teams.length).any fun m => p (phaseOf s m)) = false := by
  refine List.any_eq_false.2 fun m hm => ?_
  have hlt := List.mem_range.1 hm
  simp [phaseOf, List.getElem?_eq_getElem hlt, hp _ (List.getElem_mem hlt)]

theorem phases_any {p : TeamPhase → Bool} {t : Team} (ht : t ∈ s.teams) (hp : p t.phase = true) :
    ((List.range s.teams.length).any fun m => p (phaseOf s m)) = true := by
  obtain ⟨m, hm, rfl⟩ := List.getElem_of_mem ht
  exact List.any_eq_true.2 ⟨m, List.mem_range.2 hm, by simpa [phaseOf, List.getElem?_eq_getElem hm] using hp⟩

theorem rebasePackage_free (ht : ∀ t ∈ s.teams, t.phase = .complete) : rebasePackage s h = answered (rebaseTimes s) h 0 0 := by
  have hn := phases_all (s := s) (p := fun x => decide (x ≠ .complete)) fun t hm => by simp [ht t hm]
  rw [rebasePackage, hn]
  rfl

theorem rebasePackage_refused {t : Team} (ht : t ∈ s.teams) (hp : t.phase ≠ .complete) : rebasePackage s h = answered s h 1 0 := by
  have hy := phases_any (p := fun x => decide (x ≠ .complete)) ht (by simp [hp])
  rw [rebasePackage, hy]
  rfl

theorem untimed_wbm {m : SectorMsg} {l : List Instr} (hm : .wbm m ∈ l.map untimed) : m.wts = 0 ∧ m.rts = 0 := by
  obtain ⟨i, -, hi⟩ := List.mem_map.1 hm
  unfold untimed at hi
  split at hi
  all_goals cases hi
  · exact ⟨rfl, rfl⟩
  · exact (‹∀ n, Instr.wbm m = .wbm n → False› m rfl).elim

/-- Whether a team in a phase stands against a power state. -/
def stands (n : Nat) (p : TeamPhase) : Bool := p ≠ .complete && (n = 2 || (savedBlock p).isNone)

theorem powerBlocked_none {n : Nat} (ht : ∀ t ∈ s.teams, stands n t.phase = false) : powerBlocked s n = false := phases_all ht

theorem powerBlocked_team {n : Nat} {t : Team} (ht : t ∈ s.teams) (hp : stands n t.phase = true) : powerBlocked s n = true := phases_any ht hp

theorem setPower_free {p : Nat} (hp : p ≤ 2) (hf : powerBlocked s p = false) :
    setPower s h p = answered { (if p = 2 then powerDown s else s) with power := p } h 0 0 := by
  rw [setPower, if_neg (by simp [hf]; omega)]
  rfl

theorem setPower_refused {p : Nat} (hf : 2 < p ∨ p ≠ 0 ∧ powerBlocked s p = true) : setPower s h p = answered s h 1 0 := by
  rw [setPower, if_pos hf]
  rfl

theorem emptyHome_empty {i : Nat} (he : ∀ x ∈ s.homes, x.peat = [] ∧ x.wc = []) : emptyHome s i = s := by
  unfold emptyHome
  cases hx : s.homes[i]? with
  | none => rfl
  | some x =>
    obtain ⟨hp, hw⟩ := he x (List.mem_of_getElem? hx)
    obtain ⟨hi, rfl⟩ := List.getElem?_eq_some_iff.1 hx
    simp only [hp, hw, List.map_nil, List.foldl_nil, setAt, List.set_getElem_self]

theorem powerDown_empty (hl : ∀ d ∈ s.dies, d.l2 = []) (he : ∀ x ∈ s.homes, x.peat = [] ∧ x.wc = []) :
    powerDown s = { s with cores := s.cores.map fun c => { c with l1 := [], code := [], loops := [] } } := by
  have hs : (s.dies.flatMap fun d => d.l2.map (·.sec)) = [] := List.flatMap_eq_nil_iff.2 fun d hd => by rw [hl d hd]; rfl
  have hf : (List.range 12).foldl emptyHome s = s := by
    refine List.foldlRecOn (motive := fun t => t = s) _ _ rfl ?_
    rintro t rfl i -
    exact emptyHome_empty he
  simp only [powerDown, hs, List.dedup_nil, List.foldl_nil, hf]

/-! Package reset (R373, R377). -/

/-- Whether an image of a type is there and verifies. -/
def imageGood (images : List FirmwareImage) (k : Nat) : Bool :=
  (images.find? fun x => x.kind = k).any fun x => decide (x.version = descWord x.bytes 8) && imageOk k (x.bytes ++ x.signature)

/-- The measurement register of a type after its image. -/
def measured (images : List FirmwareImage) (k : Nat) (m : List Byte) : List Byte :=
  ((images.find? fun x => x.kind = k).map fun x => extendMeasure m x.bytes).getD m

theorem verifyImages_all (images : List FirmwareImage) (ks : List Nat) : ∀ s, verifyImages images ks s =
    if ks.all (imageGood images) then some { s with measures := ks.foldl (fun l k => modAt l (k - 1) (measured images k)) s.measures }
    else none := by
  induction ks with
  | nil => intro s; rfl
  | cons k ks ih =>
    intro s
    cases hx : images.find? fun x => x.kind = k with
    | none => simp [verifyImages, hx, imageGood]
    | some x =>
      have hk : x.kind = k := by simpa using List.find?_some hx
      have hb : bootImageOk k x = imageGood images k := by
        rw [bootImageOk, imageGood, hx]
        simp [hk]
      have hm : measured images k = fun m => extendMeasure m x.bytes := funext fun m => by simp [measured, hx]
      simp only [verifyImages, hx, hb, ih, List.all_cons, List.foldl_cons, hm]
      cases imageGood images k <;> rfl

theorem measures_extended (images : List FirmwareImage) (l : List (List Byte)) :
    [1, 2, 3, 4].foldl (fun l k => modAt l (k - 1) (measured images k)) l = l.mapIdx fun i m => if 4 ≤ i then m else measured images (i + 1) m := by
  refine List.ext_getElem? fun i => ?_
  simp only [List.foldl_cons, List.foldl_nil, modAt, List.getElem?_modify, List.getElem?_mapIdx]
  rcases Nat.lt_or_ge i 4 with hi | hi
  · have h4 : i = 0 ∨ i = 1 ∨ i = 2 ∨ i = 3 := by omega
    rcases h4 with rfl | rfl | rfl | rfl <;> simp
  · have hn : i ≠ 0 ∧ i ≠ 1 ∧ i ≠ 2 ∧ i ≠ 3 := by omega
    simp [hi, hn.1.symm, hn.2.1.symm, hn.2.2.1.symm, hn.2.2.2.symm]

theorem startTraining_nil : startTraining s [] = s := rfl

theorem closedReports_fresh (hh : s.homes = List.replicate 12 Home.fresh) :
    closedReports s = (List.range 12).flatMap fun st => (List.range 32).map fun ch => .machineCheck 2 1 (st / 3) st ch 0xFFFFFFFF 0 0 s.clk := by
  refine List.flatMap_congr fun st hst => ?_
  have hx : s.homes[st]? = some Home.fresh := by
    rw [hh, List.getElem?_replicate, if_pos (List.mem_range.1 hst)]
  have hc : ∀ ch, channelTrained Home.fresh st ch = false := fun ch => rfl
  simp only [hx, hc, Bool.false_eq_true, if_false, List.filterMap_eq_map']

theorem packageReset_refused {images : List FirmwareImage} (training : List TrainingImage) (hg : [1, 2, 3, 4].all (imageGood images) = false) :
    packageReset s images training = { afterReset s with out := s.out ++ [.smbus 0] } := by
  simp only [packageReset, verifyImages_all, hg, Bool.false_eq_true, if_false]
  rfl

theorem packageReset_untrained {images : List FirmwareImage} {g : Nat → List Byte → List Byte} (hg : [1, 2, 3, 4].all (imageGood images) = true)
    (hm : ∀ i m, g i m = if 4 ≤ i then m else measured images (i + 1) m) :
    packageReset s images [] = { afterReset s with
      measures := (afterReset s).measures.mapIdx g
      lodeUp := true
      bringUp := false
      out := s.out ++ (List.range 12).flatMap fun st => (List.range 32).map fun ch => .machineCheck 2 1 (st / 3) st ch 0xFFFFFFFF 0 0 0 } := by
  obtain rfl : g = fun i m => if 4 ≤ i then m else measured images (i + 1) m := funext fun i => funext fun m => hm i m
  have hv := verifyImages_all images [1, 2, 3, 4] (afterReset s)
  rw [hg, if_pos rfl, measures_extended] at hv
  have hc := closedReports_fresh (s := { afterReset s with
      measures := (afterReset s).measures.mapIdx fun i m => if 4 ≤ i then m else measured images (i + 1) m
      lodeUp := true }) rfl
  simp only [packageReset, hv, startTraining_nil]
  rw [hc]
  rfl

/-! The PHY (R379 to R382). -/

theorem lookupNat_filter_ne {β : Type} (l : List (Nat × β)) {a b : Nat} (hab : a ≠ b) :
    lookupNat (l.filter fun e => e.1 ≠ b) a = lookupNat l a := by
  induction l with
  | nil => rfl
  | cons e l ih =>
    by_cases hb : e.1 = b
    · rw [List.filter_cons_of_neg (by simpa using hb), ih, lookupNat, if_neg (by omega)]
    · rw [List.filter_cons_of_pos (by simpa using hb), lookupNat, lookupNat, ih]

theorem phyReg_phySet_ne {p : Phy} {a b : Nat} {v : Word} (hab : a ≠ b) : phyReg (phySet p b v) a = phyReg p a := by
  simp only [phyReg, phySet, insertNat, lookupNat, if_neg hab.symm, lookupNat_filter_ne _ hab]

theorem phySwapped_iff {p : Phy} {i : Nat} :
    phySwapped p = some i ↔ (phyReg p 0x010).getLsbD 6 = true ∧ (phyReg p 0x010).toNat % 32 = i := by
  simp [phySwapped]

/-- The error counts go to registers other than the one that swaps a wire. -/
theorem errorCounts {f : Nat → Word} (l : List Nat) : ∀ {p q : Phy}, phyReg p 0x010 = phyReg q 0x010 →
    l.foldl (fun p i => let wire := if phySwapped p = some i then 32 else i; phySet p (0x700 + 4 * i) (f wire)) p =
      l.foldl (fun p i => phySet p (0x700 + 4 * i) (f (if phySwapped q = some i then 32 else i))) p := by
  induction l with
  | nil => intro p q _; rfl
  | cons i l ih =>
    intro p q hp
    have hs : phySwapped p = phySwapped q := by simp only [phySwapped, hp]
    simp only [List.foldl_cons, hs]
    exact ih ((phyReg_phySet_ne (by omega)).trans hp)

theorem phyComplete_read {b : PhyBlock} {tap stop : Nat} (ht : (phyAt s b).test = some (0, tap, stop)) :
    phyComplete s b = phyPut { s with seed := s.seed + 1 } ((List.range 33).foldl (fun p i =>
      phyMark p (0x300 + 8 * i) tap (Config.phyPass true (phyWire b i) tap s.seed)) { phyAt s b with test := none }) := by
  simp only [phyComplete, ht, if_true]

theorem phyComplete_write {b : PhyBlock} {tap stop : Nat} (ht : (phyAt s b).test = some (1, tap, stop)) :
    phyComplete s b = phyPut { s with seed := s.seed + 1 } ((List.range 33).foldl (fun p i =>
      phyMark p (0x500 + 8 * i) tap (Config.phyPass false (phyWire b i) tap s.seed)) { phyAt s b with test := none }) := by
  simp only [phyComplete, ht, Nat.one_ne_zero, if_false, if_true]

theorem phyComplete_errors {b : PhyBlock} {tap stop : Nat} (ht : (phyAt s b).test = some (2, tap, stop)) :
    phyComplete s b = phyPut { s with seed := s.seed + 1 } ((List.range 32).foldl (fun p i => phySet p (0x700 + 4 * i) (BitVec.ofNat 32
      (min (Config.phyErrors (phyWire b (if phySwapped (phyAt s b) = some i then 32 else i)) s.seed) 0xFFFFFFFF))) { phyAt s b with test := none }) := by
  have hc := errorCounts (f := fun i => BitVec.ofNat 32 (min (Config.phyErrors (phyWire b i) s.seed) 0xFFFFFFFF)) (List.range 32)
    (p := { phyAt s b with test := none }) (q := phyAt s b) rfl
  simp only [phyComplete, ht, OfNat.ofNat_ne_zero, Nat.succ_ne_self, if_false]
  exact congrArg (phyPut _) hc

/-- The bits of a written word that `PSWAP` wants clear: 5, and all from 7 on. -/
theorem pswap_bits {i : Nat} (hi : i < 32) : (0xFFFFFFA0#32).getLsbD i = decide (i = 5 ∨ 7 ≤ i) := by
  revert i
  decide

theorem pswap_mask (v : Word) : v &&& 0xFFFFFFA0#32 = 0#32 ↔ v.toNat / 128 = 0 ∧ v.getLsbD 5 = false := by
  have hbits : v &&& 0xFFFFFFA0#32 = 0#32 ↔ ∀ i < 32, i = 5 ∨ 7 ≤ i → v.getLsbD i = false := by
    refine ⟨fun h i hi h5 => ?_, fun h => BitVec.eq_of_getLsbD_eq fun i hi => ?_⟩
    · have hb := congrArg (fun x => x.getLsbD i) h
      simpa [BitVec.getLsbD_and, pswap_bits hi, h5] using hb
    · rw [BitVec.getLsbD_and, pswap_bits hi, BitVec.getLsbD_zero]
      by_cases h5 : i = 5 ∨ 7 ≤ i
      · rw [h i hi h5, Bool.false_and]
      · simp [h5]
  rw [hbits]
  refine ⟨fun h => ⟨Nat.eq_of_testBit_eq fun j => ?_, h 5 (by decide) (.inl rfl)⟩, fun ⟨hs, h5⟩ i _ hi => ?_⟩
  · rw [show (128 : Nat) = 2 ^ 7 from rfl, Nat.testBit_div_two_pow, Nat.zero_testBit]
    rcases Nat.lt_or_ge (j + 7) 32 with hj | hj
    · exact h (j + 7) hj (.inr (by omega))
    · exact BitVec.getLsbD_of_ge v (j + 7) hj
  · rcases hi with rfl | hi
    · exact h5
    · exact Nat.testBit_lt_two_pow (Nat.lt_of_lt_of_le (by omega : v.toNat < 2 ^ 7) (Nat.pow_le_pow_right (by decide) hi))

theorem delay_mask (v : Word) : v &&& 0x3F#32 = BitVec.ofNat 32 (v.toNat % 64) := by
  apply BitVec.eq_of_toNat_eq
  rw [BitVec.toNat_and, show (0x3F#32).toNat = 2 ^ 6 - 1 from rfl, Nat.and_two_pow_sub_one_eq_mod, BitVec.toNat_ofNat]
  omega

theorem phyRegisterWrite_delay {b : PhyBlock} {off : Nat} {v : Word} (hr : (0x100 ≤ off ∧ off ≤ 0x180) ∨ (0x200 ≤ off ∧ off ≤ 0x280)) (h4 : off % 4 = 0) :
    phyRegisterWrite s b off v = phyPut s (phySet (phyAt s b) off (BitVec.ofNat 32 (v.toNat % 64))) := by
  rw [phyRegisterWrite, if_pos ⟨hr, h4⟩, delay_mask]

theorem phyRegisterWrite_other {b : PhyBlock} {off : Nat} {v : Word} (hr : ¬((0x100 ≤ off ∧ off ≤ 0x180) ∨ (0x200 ≤ off ∧ off ≤ 0x280))) :
    phyRegisterWrite s b off v = s := if_neg fun h => hr h.1

end Sys2Proof.PackageMessages

namespace Sys2Proof

open Sys2Proof.Machine Sys2Proof.Claims Sys2Proof.HostMessages Sys2Proof.PackageMessages

/-- Settles O49: each message by whether it is served and its own check; a reset by the images that verify. -/
theorem hostPackage : Obligations.HostPackage := by
  refine ⟨?_, ?_, ?_, ?_, ?_, ?_, ?_, ?_, ?_, ?_, ?_, ?_, ?_, ?_, ?_, ?_, ?_⟩
  · intro s h slot k m n tab p hd
    have hs := fun f : State → State => next_congr (served_down (h := h) (f := f) hd)
    exact ⟨hs _, hs _, hs _, hs _, hs _, hs _⟩
  · intro s h slot k m n tab p hu hr
    have hs := fun f : State → State => next_congr (served_refused (f := f) hu hr)
    exact ⟨hs _, hs _, hs _, hs _, hs _, hs _⟩
  · intro s h slot k hh h1 h2 hk
    exact next_congr ((served_heard hh).trans (loadKey_empty h1 h2 hk))
  · intro s h slot k hh hk
    exact next_congr ((served_heard hh).trans (loadKey_refused hk))
  · intro s h slot hh h1 h2 hk hr he hm
    exact next_congr ((served_heard hh).trans (destroyKey_plain h1 h2 hk hr he hm))
  · intro s h slot hh hk
    exact next_congr ((served_heard hh).trans (destroyKey_refused hk))
  · intro s h m hh
    exact ⟨fun hm => next_congr ((served_heard hh).trans (if_pos hm)), fun hm => next_congr ((served_heard hh).trans (if_neg (by omega)))⟩
  · intro s h n tab hh
    exact ⟨fun hn => next_congr ((served_heard hh).trans (if_pos hn)), fun hn => next_congr ((served_heard hh).trans (if_neg (by omega)))⟩
  · intro s h hh ht
    refine ⟨rebaseTimes s, next_congr ((served_heard hh).trans (rebasePackage_free ht)), ?_, ?_, ?_, ?_, ?_, ?_, fun m hm => untimed_wbm hm,
      rfl, rfl, rfl, rfl⟩
    · intro x hx
      obtain ⟨y, -, rfl⟩ := List.mem_map.1 hx
      rfl
    · intro c hc
      obtain ⟨y, -, rfl⟩ := List.mem_map.1 hc
      refine ⟨rfl, fun x hx => ?_⟩
      obtain ⟨z, -, rfl⟩ := List.mem_map.1 hx
      exact ⟨rfl, rfl⟩
    · intro d hd x hx
      obtain ⟨y, -, rfl⟩ := List.mem_map.1 hd
      obtain ⟨z, -, rfl⟩ := List.mem_map.1 hx
      exact ⟨rfl, rfl⟩
    · intro x hx
      obtain ⟨y, -, rfl⟩ := List.mem_map.1 hx
      refine ⟨rfl, fun e he => ?_⟩
      obtain ⟨z, -, rfl⟩ := List.mem_map.1 he
      rfl
    · exact List.length_map _
    · intro x hx b hb
      obtain ⟨y, -, rfl⟩ := List.mem_map.1 hx
      obtain ⟨z, -, rfl⟩ := List.mem_map.1 hb
      exact ⟨rfl, rfl⟩
  · intro s h t hh ht hp
    exact next_congr ((served_heard hh).trans (rebasePackage_refused ht hp))
  · intro s h hh
    refine ⟨next_congr ((served_heard hh).trans ?_), fun ht => next_congr ((served_heard hh).trans ?_),
      fun ht hl he => next_congr ((served_heard hh).trans ?_), fun t ht hp => next_congr ((served_heard hh).trans ?_),
      fun t ht hp hs => next_congr ((served_heard hh).trans ?_), fun p hp => next_congr ((served_heard hh).trans ?_)⟩
    · rw [setPower, if_neg (by omega)]
      rfl
    · refine (setPower_free (by omega) (powerBlocked_none fun t hm => ?_)).trans rfl
      rcases ht t hm with hp | hp
      · simp [stands, hp]
      · simp [stands, hp]
    · refine (setPower_free (by omega) (powerBlocked_none fun t hm => by simp [stands, ht t hm])).trans ?_
      rw [if_pos rfl, powerDown_empty hl he]
    · exact setPower_refused (.inr ⟨by omega, powerBlocked_team ht (by simp [stands, hp])⟩)
    · exact setPower_refused (.inr ⟨by omega, powerBlocked_team ht (by simp [stands, hp, hs])⟩)
    · exact setPower_refused (.inl hp)
  · intro s images fresh good
    have hgood : good = [1, 2, 3, 4].all (imageGood images) := by
      rw [show [1, 2, 3, 4] = (List.range 4).map (· + 1) from rfl, List.all_map]
      refine congrArg (fun p => (List.range 4).all p) (funext fun i => ?_)
      simp only [imageGood, Function.comp_apply]
      split <;> simp [*]
    refine ⟨next_congr ?_, fun training hg => next_congr (packageReset_refused training (hgood.symm.trans hg))⟩
    split
    · next hg =>
      refine packageReset_untrained (hgood.symm.trans hg) fun i m => ?_
      unfold measured
      cases images.find? fun x => x.kind = i + 1 <;> rfl
    · next hg => exact packageReset_refused [] (hgood.symm.trans (eq_false_of_ne_true hg))
  · exact fun s b tap => ⟨rfl, rfl, rfl⟩
  · intro s b kind tap stop ht p t
    refine ⟨fun hk => ?_, fun hk => ?_, fun hk => ?_⟩
    · subst hk
      exact next_congr (phyComplete_read ht)
    · subst hk
      exact next_congr (phyComplete_write ht)
    · subst hk
      refine next_congr ((phyComplete_errors ht).trans ?_)
      simp only [phySwapped_iff]
      rfl
  · intro s b ht
    exact next_congr (by simp only [phyComplete, ht])
  · intro s b v
    refine ⟨next_congr ?_, rfl⟩
    simp only [phyPswap, pswap_mask]
  · intro s b i v hi
    exact ⟨next_congr (phyRegisterWrite_delay (by omega) (by omega)), next_congr (phyRegisterWrite_delay (by omega) (by omega)),
      next_congr (phyRegisterWrite_other (by omega)), next_congr (phyRegisterWrite_other (by omega)), next_congr (phyRegisterWrite_other (by omega))⟩

end Sys2Proof

/-! SUPPORT. Statement settled: what arrives over Lode, link errors and a die's rate. -/

namespace Sys2Proof.Lode

open Sys2Proof.Machine Sys2Proof.Claims Sys2Proof.HostMessages

variable {s : State}

/-! Writes and reads (R273, R356). -/

theorem pieceSectors_within {a n : Nat} (h0 : 0 < n) (hn : a % 64 + n ≤ 64) : pieceSectors [(a, n)] = [a / 64] := by
  have h1 : (a + n - 1) / 64 - a / 64 + 1 = 1 := by omega
  rw [pieceSectors, List.flatMap_cons, List.flatMap_nil, List.append_nil, if_neg (by omega)]
  simp only [h1]
  rfl

theorem pieceWholes_part {a n : Nat} (h0 : 0 < n) (hn : a % 64 + n < 64) : pieceWholes [(a, n)] = [] := by
  rw [pieceWholes, pieceSectors_within h0 (by omega)]
  refine List.filter_eq_nil_iff.2 fun sec _ => ?_
  simp only [List.any_cons, List.any_nil, Bool.or_false, decide_eq_true_eq]
  omega

theorem putNow_plain {sec : Nat} {x : Sector} {mask : BitVec 64} {c : Option Nat} (hm : msPartsOf (exclude s sec) sec = []) :
    putNow s sec x mask c = putSector (prepareMask (exclude s sec) sec mask) sec x mask c := by
  simp only [putNow, hm, List.foldl_nil]

theorem landBytes_within {c : Option Nat} {pa : Nat} {bs : List Byte} (h0 : 0 < bs.length) (hn : pa % 64 + bs.length < 64)
    (hm : msPartsOf (exclude s (pa / 64)) (pa / 64) = []) :
    landBytes s c pa bs =
      (let mask : BitVec 64 := BitVec.ofNat 64 ((2 ^ bs.length - 1) * 2 ^ (pa % 64))
       wakeMonitors (putSector (prepareMask (exclude s (pa / 64)) (pa / 64) mask) (pa / 64) (secPut 0 (pa % 64) bs) mask c) (pa / 64)) := by
  have hmax : max pa (pa / 64 * 64) = pa := by omega
  have hmin : min (pa + bs.length) (pa / 64 * 64 + 64) = pa + bs.length := by omega
  have hlo : pa - pa / 64 * 64 = pa % 64 := by omega
  have hlen : pa + bs.length - pa = bs.length := by omega
  simp only [landBytes, pieceSectors_within h0 (Nat.le_of_lt hn), List.foldl_cons, List.foldl_nil, hmax, hmin, hlo, hlen, Nat.sub_self,
    List.drop_zero, List.take_length, putNow_plain hm]

theorem lodeLanding_within {node c pa a : Nat} {bs : List Byte} {keys : List (Nat × Nat)}
    (hp : remotePieces s node c a bs.length needW = .ok ([(pa, bs.length)], keys)) (h0 : 0 < bs.length) (hn : pa % 64 + bs.length < 64) :
    lodeLanding s node c a bs =
      (let t := landBytes s (remoteCtx s c) pa bs
       { t with out := t.out ++ [.writeReply node 0] }) := by
  simp only [lodeLanding, hp, pieceWholes_part h0 hn, retagAll, List.foldl_nil, List.foldl_cons, List.take_length]

theorem remoteCtx_named {c k : Nat} (h0 : c ≠ 0) (hk : ctxWith s c = some k) : remoteCtx s c = some k := (if_neg h0).trans hk

/-! Acknowledgements and replies (R166, R167). -/

theorem lodeAck_none {op st : Nat} {bs : List Byte} (ho : ∀ o ∈ s.lodes, o.id ≠ op) : lodeAck s op st bs = s := by
  have hf : s.lodes.find? (fun o => o.id = op) = none := List.find?_eq_none.2 fun o hm => by simpa using ho o hm
  simp only [lodeAck, hf]

theorem atomqAnswer_none {op st : Nat} {old : DWord} (ho : ∀ o ∈ s.lodes, o.id ≠ op ∨ o.kind ≠ 3) : atomqAnswer s op st old = s := by
  have hf : s.lodes.find? (fun o => o.id = op && o.kind = 3) = none := List.find?_eq_none.2 fun o hm => by
    rcases ho o hm with h | h <;> simp [h]
  simp only [atomqAnswer, hf]

theorem atomqFinish_queue {o : LodeOp} {st : Nat} {old : DWord} {tm : Team} {q : CQueue} (ht : s.teams[o.team]? = some tm)
    (hq : tm.queues[o.queue]? = some q) :
    atomqFinish s o st old =
      (let e : CqEntry := ⟨if o.wide = true then old else (old.setWidth 32).setWidth 64, st, tidOf s o.tid, o.remote.extractLsb' 0 32⟩
       let t : State := { s with
         lodes := s.lodes.filter fun x => x.id ≠ o.id
         teams := s.teams.modify o.team fun x => { x with queues := x.queues.set o.queue ⟨q.entries ++ [e], q.reserved - 1⟩ } }
       raiseFences { t with threads := t.threads.modify o.tid (lowered .st) } o.id o.tid) := by
  have hl : lowBits 32 old = (old.setWidth 32).setWidth 64 := lowBits_eq 32 old
  simp only [atomqFinish, hl, Performing.lowerCtr_eq]
  have hm : ∀ e : CqEntry, s.teams.modify o.team (fun t => { t with queues := modAt t.queues o.queue fun q => { q with entries := q.entries ++ [e], reserved := q.reserved - 1 } }) =
      s.teams.modify o.team fun x => { x with queues := x.queues.set o.queue ⟨q.entries ++ [e], q.reserved - 1⟩ } := fun e =>
    Performing.modify_at ht (congrArg (fun l => { tm with queues := l }) (by
      rw [modAt, List.modify_eq_set_getElem?, hq]
      rfl))
  refine congrArg (fun l => raiseFences (modThread { s with lodes := s.lodes.filter fun x => x.id ≠ o.id, teams := l } o.tid (lowered .st)) o.id o.tid) ?_
  exact hm _

/-! Remote atomics (R305). -/

theorem atomqArrive_queued {m : RemoteAtom} (hd : ∀ d ∈ s.dies, d.atomq.head? ≠ some m) :
    atomqArrive s m = { s with dies := s.dies.modify (atomDie s m) fun x => { x with atomq := x.atomq ++ [m] } } := by
  have hf : (List.range s.dies.length).find? (fun d => (s.dies[d]?).any fun k => k.atomq.head? = some m) = none := by
    refine List.find?_eq_none.2 fun d _ => ?_
    cases hx : s.dies[d]? with
    | none => simp
    | some k => simpa using hd k (List.mem_of_getElem? hx)
  simp only [atomqArrive, hf]
  rfl

theorem atomqArrive_head {m : RemoteAtom} {i : Nat} {d : Die} (hd : s.dies[i]? = some d) (hh : d.atomq.head? = some m)
    (hb : ∀ j e, j < i → s.dies[j]? = some e → e.atomq.head? ≠ some m) :
    atomqArrive s m = atomServe { s with dies := s.dies.modify i fun x => { x with atomq := x.atomq.tail } } m := by
  have hf : (List.range s.dies.length).find? (fun d => (s.dies[d]?).any fun k => k.atomq.head? = some m) = some i := by
    obtain ⟨hi, -⟩ := List.getElem?_eq_some_iff.1 hd
    refine List.find?_range_eq_some.2 ⟨by simp [hd, hh], List.mem_range.2 hi, fun j hj => ?_⟩
    cases hx : s.dies[j]? with
    | none => simp
    | some k => simpa using hb j k hj hx
  simp only [atomqArrive, hf]
  rfl

/-- A remote atomic that is refused: the old value that it answers is a free one. -/
def atomRefused (s : State) (m : RemoteAtom) (st : Nat) : State :=
  { s with
    seed := s.seed + 1
    out := s.out ++ [.atomReply m.op m.node st (freeWord s.seed)] }

section

variable {m : RemoteAtom}

theorem atomServe_unaligned (ha : m.addr % tyBytes (BitVec.ofNat 3 m.aty) ≠ 0) : atomServe s m = atomRefused s m 2 := by
  simp only [atomServe, if_pos ha]
  rfl

theorem atomServe_unreached {st : Nat} (ha : m.addr % tyBytes (BitVec.ofNat 3 m.aty) = 0)
    (hp : remotePieces s m.node m.ctxid m.addr (tyBytes (BitVec.ofNat 3 m.aty)) needRW = .error st) : atomServe s m = atomRefused s m st := by
  simp only [atomServe, if_neg (not_not_intro ha), hp]
  rfl

theorem atomServe_locked {ps keys : List (Nat × Nat)} (ha : m.addr % tyBytes (BitVec.ofNat 3 m.aty) = 0)
    (hp : remotePieces s m.node m.ctxid m.addr (tyBytes (BitVec.ofNat 3 m.aty)) needRW = .ok (ps, keys)) (hl : lockHit s ps ≠ []) :
    atomServe s m = atomRefused s m 2 := by
  have hl' : (!(lockHit s ps).isEmpty) = true := by simpa using hl
  simp only [atomServe, if_neg (not_not_intro ha), hp, hl', if_true]
  rfl

theorem atomServe_plain {pa : Nat} {keys : List (Nat × Nat)} (ha : m.addr % tyBytes (BitVec.ofNat 3 m.aty) = 0)
    (hp : remotePieces s m.node m.ctxid m.addr (tyBytes (BitVec.ofNat 3 m.aty)) needRW = .ok ([(pa, tyBytes (BitVec.ofNat 3 m.aty))], keys))
    (hl : lockHit s [(pa, tyBytes (BitVec.ofNat 3 m.aty))] = []) :
    atomServe s m =
      (let rd := readBytesNow s pa (tyBytes (BitVec.ofNat 3 m.aty)) (remoteCtx s m.ctxid) 0
       let old : DWord := BitVec.ofNat 64 (valueOf rd.2.1)
       let wr := writeBytesNow rd.1 pa (bytesOf (tyBytes (BitVec.ofNat 3 m.aty)) (atomOp (BitVec.ofNat 3 m.aop) (BitVec.ofNat 3 m.aty) old m.val).toNat)
         (remoteCtx s m.ctxid) rd.2.2
       { wr.1 with out := wr.1.out ++ [.atomReply m.op m.node 0 old] }) := by
  simp only [atomServe, if_neg (not_not_intro ha), hp, hl, List.isEmpty_nil, Bool.not_true, Bool.false_eq_true, if_false, List.headD_cons,
    Moves.bitsOfBytes_eq_valueOf]

end

/-! Links (R360). -/

theorem flitError_counted (s : State) (lode : Bool) (link : Nat) :
    flitError s lode link =
      (let src : Nat := if lode = true then 15 else 14
       let n : Nat := ((s.replays.find? fun r => r.1 = lode ∧ r.2.1 = link).map fun r => r.2.2).getD 0 + 1
       let t : State := { s with
         corrected := (src, ((lookupNat s.corrected src).getD 0) + 1) :: s.corrected.filter fun x => x.1 ≠ src
         replays := (lode, link, n) :: s.replays.filter fun r => ¬ (r.1 = lode ∧ r.2.1 = link) }
       if 16 < n then retireLink t lode link else t) := by
  simp only [flitError, linkErrors, countCorrected, correctedOf, insertNat, decide_not]

end Sys2Proof.Lode

namespace Sys2Proof

open Sys2Proof.Machine Sys2Proof.Claims Sys2Proof.HostMessages Sys2Proof.Lode

/-- Settles O50: what a message finds decides whether it lands, is served, is queued, or is answered with a status. -/
theorem lodeEvents : Obligations.LodeEvents := by
  refine ⟨?_, ?_, ?_, ?_, ?_, ?_, ?_, ?_, ?_, ?_, ?_, ?_, ?_, ?_, ?_⟩
  · intro s node c a bs n hd
    exact ⟨next_congr (if_neg (by simp [hd])), next_congr (if_neg (by simp [hd]))⟩
  · intro s node c a bs st hu hp
    refine next_congr ((if_pos hu).trans ?_)
    simp only [lodeLanding, hp]
  · intro s node c a bs pa keys hu hp h0 hn hm
    refine next_congr ((if_pos hu).trans ((lodeLanding_within hp h0 hn).trans ?_))
    simp only [landBytes_within h0 hn hm]
  · intro s node c a n st hu hp
    refine next_congr ((if_pos hu).trans ?_)
    simp only [lodeReadNow, hp]
  · intro s node a n ps keys hu hp
    refine next_congr ((if_pos hu).trans ?_)
    simp only [lodeReadNow, hp, remoteCtx, if_true]
  · intro s node c k a n ps keys hu h0 hk hp
    refine next_congr ((if_pos hu).trans ?_)
    simp only [lodeReadNow, hp, remoteCtx_named h0 hk]
  · intro s o st bs ho
    refine ⟨fun hk => next_congr ?_, fun e hk he => next_congr ?_⟩
    · simp only [lodeAck, ho, if_pos hk]
      rfl
    · have hn : ¬(o.kind = 0 ∨ o.kind = 2) := by omega
      simp only [lodeAck, ho, if_neg hn, he]
  · intro s op st bs ho
    exact next_congr (lodeAck_none ho)
  · intro s o st old tm q ho ht hq
    refine next_congr (Eq.trans ?_ (atomqFinish_queue ht hq))
    simp only [atomqAnswer, ho]
  · intro s op st old ho
    exact next_congr (atomqAnswer_none ho)
  · intro s m hd
    exact next_congr (atomqArrive_queued hd)
  · intro s m i d hd hh hb n t refused
    have hs : exec (.atomqCommand m) s = .next (atomServe t m) := next_congr (atomqArrive_head hd hh hb)
    exact ⟨fun ha => hs.trans (next_congr (atomServe_unaligned ha)), fun st ha hp => hs.trans (next_congr (atomServe_unreached ha hp)),
      fun ps keys ha hp hl => hs.trans (next_congr (atomServe_locked ha hp hl)), fun pa keys ha hp hl => hs.trans (next_congr (atomServe_plain ha hp hl))⟩
  · intro s lode link src n t
    have hf : exec (.flitCrcError lode link) s = .next (if 16 < n then retireLink t lode link else t) :=
      next_congr (flitError_counted s lode link)
    rw [hf]
    split <;> rfl
  · exact fun s link => ⟨rfl, rfl⟩
  · intro s die mhz
    exact ⟨fun h => next_congr (if_pos h), fun h => next_congr (if_neg h)⟩

end Sys2Proof

/-! SUPPORT. Statement settled: errors, loss and limits (R359 to R372). -/

namespace Sys2Proof.Health

open Sys2Proof.Machine Sys2Proof.Claims Sys2Proof.HostMessages

variable {s : State}

/-! Fatal errors (R359). -/

theorem stoppedThreads_contexts (l : List Nat) : ∀ s : State,
    (l.foldl (fun s t => holdAt (dropMonitor s t) t .stopped) s).contexts = s.contexts := by
  induction l with
  | nil => exact fun _ => rfl
  | cons t l ih => exact fun s => ih _

theorem stopContext_contexts {c code addr : Nat} {rec_ : List Byte} {second : Option Nat} {k : Context} (hk : s.contexts[c]? = some k)
    (hs : k.stopped = false) :
    (stopContext s c code addr rec_ second).contexts = s.contexts.modify c fun k => { k with stopped := true } := by
  rw [stopContext, hk, if_neg (by simp [hs])]
  exact congrArg (fun l => l.modify c fun k => { k with stopped := true }) (stoppedThreads_contexts _ s)

theorem stopForError_contexts (code c : Nat) :
    (stopForError code s c).contexts = s.contexts.modify c fun k => { k with stopped := k.stopped || k.live } := by
  unfold stopForError
  split
  · next k hk =>
    split
    · next h =>
      rw [stopContext_contexts hk (by simpa using h.2)]
      exact Performing.modify_at hk (by simp [h.1])
    · next h =>
      have hn : (k.stopped || k.live) = k.stopped := by
        cases hl : k.live <;> cases hs : k.stopped <;> simp_all
      rw [Performing.modify_at (g := id) hk (by simp [hn]), List.modify_id]
  · next hk =>
    rw [List.modify_eq_self (List.getElem?_eq_none_iff.1 hk)]

/-- A context has stopped if it is live. -/
def halted (s : State) (c : Nat) : Prop := ∀ k, s.contexts[c]? = some k → k.live = true → k.stopped = true

theorem stopForError_halts {code c i : Nat} (h : i = c ∨ halted s i) : halted (stopForError code s c) i := by
  intro k hk hl
  rw [stopForError_contexts, List.getElem?_modify] at hk
  cases hx : s.contexts[i]? with
  | none => simp [hx] at hk
  | some x =>
    rw [hx] at hk
    by_cases hc : c = i
    · simp only [hc, if_true, Option.map_eq_map, Option.map_some, Option.some.injEq] at hk
      subst hk
      simp only at hl ⊢
      rw [hl, Bool.or_true]
    · simp only [hc, if_false, Option.map_eq_map, Option.map_some, Option.some.injEq] at hk
      subst hk
      exact h.resolve_left (fun e => hc e.symm) x hx hl

theorem stopAll_halts {code i : Nat} (l : List Nat) : ∀ {s : State}, i ∈ l ∨ halted s i → halted (l.foldl (stopForError code) s) i := by
  induction l with
  | nil => exact fun h => h.resolve_left List.not_mem_nil
  | cons c l ih =>
    intro s h
    refine ih ?_
    rcases h with h | h
    · rcases List.mem_cons.1 h with rfl | h
      · exact .inr (stopForError_halts (.inl rfl))
      · exact .inl h
    · exact .inr (stopForError_halts (.inr h))

theorem stopAll_length {code : Nat} (l : List Nat) : ∀ {s : State}, (l.foldl (stopForError code) s).contexts.length = s.contexts.length := by
  induction l with
  | nil => exact rfl
  | cons c l ih =>
    intro s
    rw [List.foldl_cons, ih, stopForError_contexts, List.length_modify]

theorem fatalStop_stops {code : Nat} {k : Context} (hk : k ∈ (fatalStop s code).contexts) (hl : k.live = true) : k.stopped = true := by
  obtain ⟨i, hi, rfl⟩ := List.getElem_of_mem hk
  have hlt : i < s.contexts.length := by
    have h := hi
    simp only [fatalStop, stopAll_length] at h
    exact h
  exact stopAll_halts (code := code) (List.range s.contexts.length) (.inl (List.mem_range.2 hlt)) _ (List.getElem?_eq_getElem hi) hl

theorem stopForError_idle {code c : Nat} (h : ∀ k ∈ s.contexts, k.live = false ∨ k.stopped = true) : stopForError code s c = s := by
  unfold stopForError
  split
  · next k hk =>
    refine if_neg fun hn => ?_
    rcases h k (List.mem_of_getElem? hk) with h | h <;> simp [h] at hn
  · rfl

theorem stopAll_idle {code : Nat} (h : ∀ k ∈ s.contexts, k.live = false ∨ k.stopped = true) (l : List Nat) : l.foldl (stopForError code) s = s := by
  refine List.foldlRecOn (motive := fun t => t = s) _ _ rfl ?_
  rintro t rfl c -
  exact stopForError_idle h

theorem fatalStop_idle {code : Nat} (h : ∀ k ∈ s.contexts, k.live = false ∨ k.stopped = true) : fatalStop s code = { s with fatal := true } := by
  rw [fatalStop, stopAll_idle h]

/-! Loss (R364, R365). -/

theorem setCore_reported (c : Core) (o : List LodeOut) (k : List (Nat × Nat)) :
    setCore { s with out := o, corrected := k } c = { setCore s c with out := o, corrected := k } := by
  by_cases hc : (s.cores.any fun x => x.die = c.die ∧ x.site = c.site) = true
  · rw [setCore, setCore, if_pos hc, if_pos hc]
  · rw [setCore, setCore, if_neg hc, if_neg hc]

theorem modCore_reported {die site : Nat} {f : Core → Core} (o : List LodeOut) (k : List (Nat × Nat)) :
    modCore { s with out := o, corrected := k } die site f = { modCore s die site f with out := o, corrected := k } :=
  setCore_reported (f (coreAt s die site)) o k

theorem loseCore_plain {die site : Nat} (hq : quiesceAll s = s) (hl : ∀ x ∈ (coreAt s die site).l1, x.own = false)
    (hc : lostContexts s die (some site) = []) :
    loseCore s die site = { modCore s die site (fun c => { c with lost := true, l1 := [] }) with
      pushMode := true
      out := s.out ++ [.machineCheck 2 10 die 15 255 site 0 ((lookupNat s.corrected 10).getD 0) s.clk]
      corrected := (10, 0) :: s.corrected.filter fun x => x.1 ≠ 10 } := by
  have hf : ((coreAt s die site).l1.filter (·.own)) = [] := List.filter_eq_nil_iff.2 fun x hx => by simp [hl x hx]
  simp only [loseCore, hf, List.foldl_nil, hq, hc, machineCheck, modCore_reported]
  rfl

theorem loseDie_plain {die : Nat} {d : Die} (hq : quiesceAll s = s) (hd : s.dies[die]? = some d) (hl : d.l2 = [])
    (hc : lostContexts s die none = []) (hk : ∀ k ∈ s.contexts, k.live = false) :
    loseDie s die = { s with
      pushMode := true
      fatal := true
      cores := s.cores.map fun c => if c.die = die then { c with lost := true, l1 := [] } else c
      dies := s.dies.modify die fun d => { d with lost := true, l2 := [] }
      out := s.out ++ [.machineCheck 3 11 die 15 255 0xFFFFFFFF 0 ((lookupNat s.corrected 11).getD 0) s.clk]
      corrected := (11, 0) :: s.corrected.filter fun x => x.1 ≠ 11 } := by
  simp only [loseDie, hq, hd, Option.map_some, Option.getD_some, hl, List.foldl_nil, hc]
  rw [fatalStop_idle (s := machineCheck s 3 0x0B die 0xF 0xFF 0xFFFFFFFF 0) fun k hm => .inl (hk k hm)]
  rfl

/-! DRAM (R363, R366, R367). -/

section

variable {h : Home} {sec stack channel row : Nat}

theorem scrubSector_open (ht : taggedSector sec = true) (hh : s.homes[homeOf (sec * 64)]? = some h) (hb : channelOf (sec * 64) ∉ h.blocked)
    : scrubSector s sec .clean = s ∧ scrubSector s sec .corrected = countCorrected s 1 ∧
      scrubSector s sec .uncorrectable = markPut s { markOf s sec with poison := true } := by
  have hn : ¬((!taggedSector sec) = true ∨ ((s.homes[homeOf (sec * 64)]?).map fun h => h.blocked.contains (channelOf (sec * 64))).getD true = true) := by
    simp [ht, hh, hb]
  exact ⟨if_neg hn, if_neg hn, if_neg hn⟩

theorem scrubSector_blocked (hh : s.homes[homeOf (sec * 64)]? = some h) (hb : channelOf (sec * 64) ∈ h.blocked) (e : ScrubFinding) :
    scrubSector s sec e = s := by
  exact if_pos (.inr (by simp [hh, hb]))

theorem swapRow_room (hh : s.homes[stack]? = some h) (hb : channel ∉ h.blocked) (hu : (h.remaps.filter fun r => r.channel = channel).length < 1024) :
    swapRow s stack channel row = { s with
      homes := s.homes.modify stack fun x => { x with
        remaps := (x.remaps.filter fun r => ¬ (r.channel = channel ∧ r.row = row)) ++
          [⟨channel, row, (h.remaps.filter fun r => r.channel = channel).length⟩] }
      out := s.out ++ [.machineCheck 1 1 (stack / 3) stack channel 0xFFFFFFFF 0 ((lookupNat s.corrected 1).getD 0) s.clk]
      corrected := (1, 0) :: s.corrected.filter fun x => x.1 ≠ 1 } := by
  have hn : ¬(1024 ≤ (h.remaps.filter fun r => r.channel = channel).length ∨ h.blocked.contains channel = true) := by
    simp only [List.contains_iff_mem, hb, or_false]
    omega
  simp only [swapRow, hh, if_neg hn, decide_not, machineCheck, insertNat]
  rfl

theorem swapRow_full (hh : s.homes[stack]? = some h) (hu : 1024 ≤ (h.remaps.filter fun r => r.channel = channel).length) :
    swapRow s stack channel row = s := by
  simp only [swapRow, hh, if_pos (Or.inl hu)]

theorem remapError_first {agree : Bool} (hh : s.homes[stack]? = some h) (hb : channel ∉ h.blocked)
    (ha : ∀ a ∈ s.accs, inChannel stack channel a = false) :
    remapError s stack channel agree = { s with
      homes := s.homes.modify stack fun x => { x with blocked := channel :: x.blocked }
      out := s.out ++ [.machineCheck 2 9 (stack / 3) stack channel 0xFFFFFFFF 0 ((lookupNat s.corrected 9).getD 0) s.clk]
      corrected := (9, 0) :: s.corrected.filter fun x => x.1 ≠ 9
      net := s.net ++ [.remapTableError stack channel agree] } := by
  have hn : (!h.blocked.contains channel) = true := by simpa using hb
  have hf : s.accs.filter (inChannel stack channel) = [] := List.filter_eq_nil_iff.2 fun a hm => by simp [ha a hm]
  have hf' : (machineCheck (modHome s stack fun h => { h with blocked := channel :: h.blocked }) 2 9 (stack / 3) stack channel 0xFFFFFFFF 0).accs.filter
      (inChannel stack channel) = [] := hf
  simp only [remapError, hh, hn, if_true, hf', List.foldl_nil]
  rfl

theorem remapError_agree (hh : s.homes[stack]? = some h) (hb : channel ∈ h.blocked) :
    remapError s stack channel true = modHome s stack fun h => { h with blocked := h.blocked.filter (· ≠ channel) } := by
  have hn : (!h.blocked.contains channel) = false := by simpa using hb
  simp only [remapError, hh, hn, Bool.false_eq_true, if_false, if_true]

theorem remapError_fatal (hh : s.homes[stack]? = some h) (hb : channel ∈ h.blocked) (hk : ∀ k ∈ s.contexts, k.live = false) :
    remapError s stack channel false = { machineCheck s 3 9 (stack / 3) stack channel 0xFFFFFFFF 0 with fatal := true } := by
  have hn : (!h.blocked.contains channel) = false := by simpa using hb
  simp only [remapError, hh, hn, Bool.false_eq_true, if_false]
  exact fatalStop_idle fun k hm => .inl (hk k hm)

end

/-! Errors in the structures (R360). -/

theorem tileError_row {die site acc row : Nat} {x : Acc32} (hx : (coreAt s die site).accs[acc]? = some x) :
    ∃ y, (coreAt (tileError s die site acc row) die site).accs[acc]? = some y ∧ y.poisoned = true ∧ y.elems.length = x.elems.length ∧
      ∀ i v, x.elems[i]? = some v → y.elems[i]? = some (if i / 128 = row then 0x7FDA0000 else v) := by
  have hc : coreAt (tileError s die site acc row) die site = _ :=
    coreAt_modCore s die site (fun c => { c with accs := modAt c.accs acc fun t =>
      { t with elems := poisonRows [] [row] t.elems, poisoned := true, cause := if t.poisoned then t.cause else (0, row / 16, 0) } })
      fun _ => ⟨rfl, rfl⟩
  refine ⟨{ x with elems := poisonRows [] [row] x.elems, poisoned := true, cause := if x.poisoned then x.cause else (0, row / 16, 0) },
    ?_, rfl, List.length_mapIdx, fun i v hv => ?_⟩
  · simp [hc, modAt, hx]
  · simp [poisonRows, List.getElem?_mapIdx, hv]

theorem peatError_dirty {sec : Nat} {h : Home} {x : PeatLine} (ht : taggedSector sec = true) (hh : s.homes[homeOf (sec * 64)]? = some h)
    (hp : h.peat.find? (fun p => p.line = sec / 4) = some x) (hd : x.dirty = true) :
    peatError s sec = markPut s { markOf s sec with poison := true } := by
  simp only [peatError, hh, Option.bind_some, hp, if_pos (Or.inl hd), poisonSector, ht, if_true]

theorem peatError_clean {sec : Nat} {h : Home} {x : PeatLine} (hh : s.homes[homeOf (sec * 64)]? = some h)
    (hp : h.peat.find? (fun p => p.line = sec / 4) = some x) (hd : x.dirty = false) (hn : x.parts = []) :
    peatError s sec = modHome s (homeOf (sec * 64)) fun h => { h with peat := h.peat.filter fun p => p.line ≠ sec / 4 } := by
  have hc : ¬(x.dirty = true ∨ x.parts ≠ []) := by simp [hd, hn]
  simp only [peatError, hh, Option.bind_some, hp, if_neg hc]

end Sys2Proof.Health

namespace Sys2Proof

open Sys2Proof.Machine Sys2Proof.Claims Sys2Proof.HostMessages Sys2Proof.Health

/-- Settles O51: each error, loss and limit changes the tables that it concerns; a fatal one stops every live context. -/
theorem healthEvents : Obligations.HealthEvents := by
  refine ⟨?_, ?_, ?_, ?_, ?_, ?_, ?_, ?_, ?_⟩
  · exact fun s source die stack channel site => rfl
  · intro s die site hq hl hc
    exact next_congr (loseCore_plain hq hl hc)
  · intro s die d hq hd hl hc hk
    exact next_congr (loseDie_plain hq hd hl hc hk)
  · intro s sec h ht hh hb
    obtain ⟨h0, h1, h2⟩ := scrubSector_open ht hh hb
    exact ⟨next_congr h0, next_congr h1, next_congr h2⟩
  · intro s sec h e hh hb
    exact next_congr (scrubSector_blocked hh hb e)
  · intro s stack channel row h hh hb
    exact ⟨fun hu => next_congr (swapRow_room hh hb hu), fun hu => next_congr (swapRow_full hh hu)⟩
  · intro s stack channel h agree hh
    refine ⟨fun hb ha => next_congr (remapError_first hh hb ha), fun hb ha => ?_, fun hb ha hk => ?_⟩
    · subst ha
      exact next_congr (remapError_agree hh hb)
    · subst ha
      exact next_congr (remapError_fatal hh hb hk)
  · intro s e l hc ha he t
    have hs : step s = .next (hwError t e) := Moves.step_of_error hc ha he
    refine ⟨fun k p hk => ?_, fun sec h x hk ht hh hp => ?_, fun die site acc row hk => ?_, fun home hk => ?_⟩
    · subst hk
      exact hs
    · subst hk
      exact ⟨fun hd => hs.trans (next_congr (peatError_dirty ht hh hp hd)), fun hd hn => hs.trans (next_congr (peatError_clean hh hp hd hn))⟩
    · subst hk
      exact ⟨_, hs, fun x hx => tileError_row hx⟩
    · subst hk
      exact ⟨_, hs, rfl, fun k hm hl => fatalStop_stops hm hl⟩
  · intro s die site
    refine ⟨rfl, rfl, rfl, rfl, rfl, rfl, rfl, ⟨_, rfl, rfl, rfl, fun k hm hl => fatalStop_stops hm hl⟩, fun hk => next_congr ?_⟩
    rw [fatalStop_idle (s := machineCheck s 3 0x0C 0 0xF 0xFF 0xFFFFFFFF 0) hk]
    rfl

end Sys2Proof

/-! SUPPORT. Statement settled: recorded graphs (R202, R203, R325 to R337, R353). -/

namespace Sys2Proof.Graphs

open Sys2Proof.Machine Sys2Proof.Claims Sys2Proof.Issuing

variable {s : State} {g n : Nat} {gr : Graph} {x : GNode}

/-! `GFIRE` and `NODEQ`. -/

theorem gfireLane_ok {r : Ready} (hu : unfull s r.tid .ld) :
    gfireLane (idle s) r = .ok (enqueue (idle s)
      { issued s r.tid .graphFire .nothing 0 r.a.toNat noXlat [] with dest := destOf s r.tid r.d 1 r.span, ctr := .ld }) {} := by
  simp only [gfireLane, counterHold_free hu, issued_eq]
  rfl

theorem nodeqLane_ok {r : Ready} (hu : unfull s r.tid .ld) :
    nodeqLane (idle s) r = .ok (enqueue (idle s)
      { issued s r.tid (.nodeq (countOf r.a) (countOf r.b)) .nothing 0 0 noXlat [] with dest := destOf s r.tid r.d 1 r.span, ctr := .ld }) {} := by
  simp only [nodeqLane, counterHold_free hu, issued_eq, count_eq]
  rfl

/-! A node of a graph changed. -/

theorem modNode_eq (f : GNode → GNode) : modNode s g n f = withNode s g n f := rfl

theorem nodeAt_eq (hg : s.graphs[g]? = some gr) : nodeAt s g n = gr.nodes[n]? := by simp [nodeAt, hg]

theorem graph_withNode {f : GNode → GNode} (hg : s.graphs[g]? = some gr) :
    (withNode s g n f).graphs[g]? = some { gr with nodes := gr.nodes.modify n f } := by
  simp [withNode, hg]

theorem withNode_twice (f h : GNode → GNode) : withNode (withNode s g n f) g n h = withNode s g n fun y => h (f y) := by
  refine congrArg (fun l => { s with graphs := l }) ((List.modify_modify_eq _ _ g s.graphs).trans ?_)
  refine congrArg (fun k => s.graphs.modify g k) (funext fun x => congrArg (fun l => { x with nodes := l }) ?_)
  exact List.modify_modify_eq f h n x.nodes

/-! The start of a node (R325). -/

theorem declaredCheck_none {c : Nat} {rec_ : List Byte} (h : nodeRanges rec_ = []) : declaredCheck s c rec_ = none := by
  simp [declaredCheck, h]

theorem tryStart_plain (hr : nodeRanges x.record = []) : tryStart s g n gr x = startKind s gr.ctx g n x gr.handle := by
  have hl : nodeLocks s gr.ctx x.kind x.record = [] := by simp [nodeLocks, hr]
  simp only [tryStart, declaredCheck_none hr, hl, List.isEmpty_nil, if_true]

theorem startNode_ok {t : State} (hf : firstStart s = some (g, n)) (hg : s.graphs[g]? = some gr) (hx : gr.nodes[n]? = some x)
    (ht : tryStart s g n gr x = .ok t) : startNode s g n = withNode t g n fun y => { y with state := .running } := by
  have hn : nodeAt s g n = some x := (nodeAt_eq hg).trans hx
  simp only [startNode, hf, ne_eq, not_true_eq_false, if_false, hg, hn, ht]
  rfl

theorem pullGrid_eq {l : Launch} {c : Nat} (hp : s.pushMode = false) : newGrid s l c (some (g, n)) none none = pullGrid l c g n := by
  simp [newGrid, pullGrid, hp, ticketRanges, List.range_succ]

/-! The end of a node (R326). -/

theorem releaseNode_plain (hg : s.graphs[g]? = some gr) (hx : gr.nodes[n]? = some x) (hp : plainNode s x) : releaseNode s g n = s := by
  obtain ⟨he, hl⟩ := hp
  have hn : nodeAt s g n = some x := (nodeAt_eq hg).trans hx
  have hmine : ∀ e ∈ s.engines, (nodeWork e && e.node.any fun p => p.1 = g && p.2.1 = n) = false := fun e hm => by simp [he e hm]
  have hnone : (s.engines.filter fun e => (nodeWork e && e.node.any fun p => p.1 = g && p.2.1 = n) && e.engine = 1) = [] :=
    List.filter_eq_nil_iff.2 fun e hm => by simp [hmine e hm]
  have hall : (s.engines.filter fun e => !(nodeWork e && e.node.any fun p => p.1 = g && p.2.1 = n)) = s.engines :=
    List.filter_eq_self.2 fun e hm => by simp [hmine e hm]
  have hsess : (s.sessions.filter fun y => !([] : List (Nat × Nat)).contains (y.decoder, y.num)) = s.sessions :=
    List.filter_eq_self.2 fun _ _ => rfl
  unfold releaseNode
  simp only [hnone, hall, List.map_nil, hsess]
  have hn' : nodeAt { s with engines := s.engines, sessions := s.sessions } g n = some x := hn
  simp only [hn', Option.bind_some, hl]

theorem settleGraph_open {y : GNode} (hg : s.graphs[g]? = some gr) (hy : y ∈ gr.nodes) (ho : nodeOpen y = true) : settleGraph s g = s := by
  have ha : gr.nodes.any nodeOpen = true := List.any_eq_true.2 ⟨y, hy, ho⟩
  simp only [settleGraph, hg, ha, or_true, if_true]

theorem completeNode_running (hg : s.graphs[g]? = some gr) (hx : gr.nodes[n]? = some x) (hr : x.state = .running) (hop : nodeOp s g n 3 = none)
    (hp : plainNode s x) (hc : isCpyt x = false) :
    completeNode s g n = settleGraph (x.succ.foldl (fun s j => modNode s g j fun y =>
      { y with
        preds := y.preds - 1
        ts := max y.ts x.ts
        state := if y.preds = 1 ∧ y.state = .waiting then .ready else y.state
        readyClk := if y.preds = 1 then s.clk else y.readyClk }) (withNode s g n fun z => { z with state := .done })) g := by
  have hn : nodeAt s g n = some x := (nodeAt_eq hg).trans hx
  simp only [completeNode, hg, hn, hr, ne_eq, not_true_eq_false, if_false, hop, Option.isSome_none, Bool.false_eq_true, hc, finishNode,
    releaseNode_plain hg hx hp]
  rfl

theorem completeNode_next {j : Nat} {y : GNode} (hg : s.graphs[g]? = some gr) (hx : gr.nodes[n]? = some x) (hr : x.state = .running)
    (hop : nodeOp s g n 3 = none) (hp : plainNode s x) (hc : isCpyt x = false) (hs : x.succ = [j]) (hj : j ≠ n) (hy : gr.nodes[j]? = some y)
    (hw : y.state = .waiting) (h1 : y.preds = 1) (hb : nodeFbonly y.record = false) :
    completeNode s g n = withNode (withNode s g n fun z => { z with state := .done }) g j
      fun _ => { y with preds := 0, ts := max y.ts x.ts, state := .ready, readyClk := s.clk } := by
  have hg1 := graph_withNode (n := n) (f := fun z => { z with state := .done }) hg
  have hy1 : (gr.nodes.modify n fun z => { z with state := .done })[j]? = some y := by
    simp [hy, hj.symm]
  have hm : modNode (withNode s g n fun z => { z with state := .done }) g j (fun y => { y with
        preds := y.preds - 1
        ts := max y.ts x.ts
        state := if y.preds = 1 ∧ y.state = .waiting then .ready else y.state
        readyClk := if y.preds = 1 then (withNode s g n fun z => { z with state := .done }).clk else y.readyClk }) =
      withNode (withNode s g n fun z => { z with state := .done }) g j
        fun _ => { y with preds := 0, ts := max y.ts x.ts, state := .ready, readyClk := s.clk } := by
    refine congrArg (fun l => { s with graphs := l }) (Performing.modify_at hg1 ?_)
    refine congrArg (fun l => { gr with nodes := l }) (Performing.modify_at hy1 ?_)
    simp [h1, hw, withNode]
  rw [completeNode_running hg hx hr hop hp hc, hs, List.foldl_cons, List.foldl_nil, hm]
  have hg2 := graph_withNode (n := j) (f := fun _ => { y with preds := 0, ts := max y.ts x.ts, state := .ready, readyClk := s.clk }) hg1
  refine settleGraph_open hg2 (y := { y with preds := 0, ts := max y.ts x.ts, state := .ready, readyClk := s.clk }) ?_ (by simp [nodeOpen, hb])
  refine List.mem_of_getElem? (i := j) ?_
  simp [hy, hj.symm]

theorem completeNode_last (hg : s.graphs[g]? = some gr) (hx : gr.nodes[n]? = some x) (hr : x.state = .running) (hop : nodeOp s g n 3 = none)
    (hp : plainNode s x) (hc : isCpyt x = false) (hs : x.succ = []) (hf : gr.finished = false) (hfail : gr.fail = none)
    (ho : ∀ i y, i ≠ n → gr.nodes[i]? = some y → nodeOpen y = false) :
    completeNode s g n =
      (let word := gr.handle.toNat + 2 ^ 32
       let s1 := (graphStore (withNode s g n fun z => { z with state := .done }) gr.ctx gr.doneAddr.toNat (bytesOf 8 word)
         (gr.nodes.foldl (fun m y => max m y.ts) 0)).1
       { s1 with
         graphs := s1.graphs.modify g fun y => { y with finished := true }
         out := s1.out ++ [.graphDone (((s1.contexts[gr.ctx]?).map (·.ctxid)).getD 0) gr.handle (BitVec.ofNat 64 word)] }) := by
  have hg1 := graph_withNode (n := n) (f := fun z => { z with state := .done }) hg
  have hany : (gr.nodes.modify n fun z => { z with state := .done }).any nodeOpen = false := by
    refine List.any_eq_false.2 fun y hy => ?_
    obtain ⟨i, hi⟩ := List.getElem?_of_mem hy
    by_cases hin : i = n
    · subst hin
      obtain rfl : { x with state := .done } = y := by simpa [hx] using hi
      simp [nodeOpen]
    · rw [List.getElem?_modify_ne _ _ (Ne.symm hin)] at hi
      simp [ho i y hin hi]
  have hts : (gr.nodes.modify n fun z => { z with state := .done }).foldl (fun a n => max a n.ts) 0 = gr.nodes.foldl (fun m y => max m y.ts) 0 := by
    have hmap : (gr.nodes.modify n fun z => { z with state := .done }).map GNode.ts = gr.nodes.map GNode.ts := by
      refine List.ext_getElem? fun i => ?_
      rw [List.getElem?_map, List.getElem?_modify, List.getElem?_map]
      cases gr.nodes[i]? with
      | none => rfl
      | some z => by_cases hi : n = i <;> simp [hi]
    rw [← List.foldl_map (f := GNode.ts) (g := max), hmap, List.foldl_map]
  have hw : (BitVec.ofNat 64 (gr.handle.toNat + 2 ^ 32 * 1)).toNat = gr.handle.toNat + 2 ^ 32 := by
    rw [BitVec.toNat_ofNat]
    omega
  rw [completeNode_running hg hx hr hop hp hc, hs, List.foldl_nil]
  simp only [settleGraph, hg1, hf, hany, Bool.false_eq_true, or_self, if_false, hfail, Option.isSome_none, hts, hw]
  rfl

theorem failNode_running {code addr i : Nat} {y : GNode} (hg : s.graphs[g]? = some gr) (hx : gr.nodes[n]? = some x) (hr : x.state = .running)
    (hp : plainNode s x) (hf : gr.fail = none) (hi : i ≠ n) (hy : gr.nodes[i]? = some y) (ho : nodeOpen y = true)
    (hn : i ∉ reachOf (gr.nodes.map (·.succ)) n) :
    failNode s g n code addr = { s with graphs := s.graphs.modify g fun z => { z with
      fail := some (n, code, addr)
      nodes := z.nodes.mapIdx fun k w => if k = n then { w with state := .failed, code := code, addr := addr }
        else if k ∈ reachOf (gr.nodes.map (·.succ)) n then { w with state := .notRun } else w } } := by
  have hx' : nodeAt s g n = some x := (nodeAt_eq hg).trans hx
  have hm : ∀ h : Graph → Graph, h gr = { gr with
        fail := some (n, code, addr)
        nodes := gr.nodes.mapIdx fun k w => if k = n then { w with state := .failed, code := code, addr := addr }
          else if k ∈ reachOf (gr.nodes.map (·.succ)) n then { w with state := .notRun } else w } →
      settleGraph (modGraph s g h) g = modGraph s g h := fun h hh => by
    refine settleGraph_open (gr := h gr) (y := y) (by simp [modGraph, modAt, hg]) ?_ ho
    refine List.mem_of_getElem? (i := i) ?_
    rw [hh]
    simp [List.getElem?_mapIdx, hy, hi, hn]
  simp only [failNode, hg, hx', hr, releaseNode_plain hg hx hp]
  rw [hm _ (by simp [hf])]
  refine congrArg (fun l => { s with graphs := l }) (Performing.modify_at hg ?_)
  simp [hf]

/-! Commands of a near-memory node (R332). -/

section

variable {e : EngineOp} {cmd : Nat}

theorem hummock_fails {c a : Nat} (hx : nodeAt s g n = some x) (he : nodeOp s g n 3 = some e) (hs : e.status = none)
    (hc : commandOver e x cmd = false) (hlt : cmd < ((nearParam e.desc).n + 255) / 256)
    (ho : nearOutputs e x.record (min 256 ((nearParam e.desc).n - 256 * cmd)) (256 * cmd) = .error (c, a)) :
    hummock s g n cmd = nodeError s e c a := by
  have hn : ¬(e.status.isSome = true ∨ commandOver e x cmd = true ∨ commandCount e.desc ≤ cmd) := by
    simp [hs, hc, commandCount, hlt]
  simp only [hummock, he, hx, if_neg hn, commandSpan, ho]

theorem hummock_writes {l : List (Nat × Nat)} (hx : nodeAt s g n = some x) (he : nodeOp s g n 3 = some e) (hs : e.status = none)
    (hc : commandOver e x cmd = false) (hlt : cmd < ((nearParam e.desc).n + 255) / 256)
    (ho : nearOutputs e x.record (min 256 ((nearParam e.desc).n - 256 * cmd)) (256 * cmd) = .ok l) :
    hummock s g n cmd = settleNear (putEngine s { e with outs := insertNat e.outs cmd l }) g n := by
  have hn : ¬(e.status.isSome = true ∨ commandOver e x cmd = true ∨ commandCount e.desc ≤ cmd) := by
    simp [hs, hc, commandCount, hlt]
  simp only [hummock, he, hx, if_neg hn, commandSpan, ho]

theorem parityAbort_runs (hx : nodeAt s g n = some x) (he : nodeOp s g n 3 = some e) (hs : e.status = none) (hc : commandOver e x cmd = false)
    (hlt : cmd < ((nearParam e.desc).n + 255) / 256) (pa : Nat) :
    parityAbort s g n cmd pa = if nodeFallback x.record = 0xFFFFFFFF then nodeError s e cMEMERR pa
      else settleNear (modNode s g n fun y => { y with aborts := y.aborts ++ [(cmd, pa, none)] }) g n := by
  have hn : ¬(e.status.isSome = true ∨ commandOver e x cmd = true ∨ commandCount e.desc ≤ cmd) := by
    simp [hs, hc, commandCount, hlt]
  simp only [parityAbort, he, hx, if_neg hn]

end

/-! Units of a decode node (R338). -/

theorem decodeUnitOf_decodes {e e1 e2 : EngineOp} {u : Nat} {s1 s2 : State} {y : Session} (he : nodeOp s g n 1 = some e) (hst : e.stage = u)
    (hs : e.status = none) (hp : s.power = 0)
    (hr1 : readSectors (touchedBlocks 64 [(descWord e.desc 0x18 + 16 * u, 16)]) s e = .ok (s1, e1))
    (hlt : bitsOfBytes (snapBytes e1 (descWord e.desc 0x18 + 16 * u + 8) 8) < 2 ^ 32)
    (hr2 : readSectors (touchedBlocks 64 [(bitsOfBytes (snapBytes e1 (descWord e.desc 0x18 + 16 * u) 8),
      bitsOfBytes (snapBytes e1 (descWord e.desc 0x18 + 16 * u + 8) 8))]) s1 e1 = .ok (s2, e2))
    (hy : s2.sessions.find? (fun y => y.decoder = e.unit ∧ y.num = e.reply) = some y) :
    decodeUnitOf s g n u = unitDecoded s2 e2 y u (snapBytes e2 (bitsOfBytes (snapBytes e1 (descWord e.desc 0x18 + 16 * u) 8))
      (bitsOfBytes (snapBytes e1 (descWord e.desc 0x18 + 16 * u + 8) 8))) := by
  have hn : ¬(e.stage ≠ u ∨ e.status.isSome = true ∨ s.power ≠ 0) := by simp [hst, hs, hp]
  simp only [decodeUnitOf, he, if_neg hn, hr1, if_neg (Nat.not_le.2 hlt), hr2, hy]

/-! The head of a fault queue (R353). -/

theorem advanceHead_still {c head : Nat} {k : Context} (hk : s.contexts[c]? = some k) (hh : head ≤ k.fqHead ∨ k.fqTail < head) :
    advanceHead s c head = s := by
  have hn : ¬(k.fqHead < head ∧ head ≤ k.fqTail) := by omega
  simp only [advanceHead, hk, if_neg hn]

theorem passEntry_replays {c i t : Nat} {k : Context} (ht : faultThreads s c i = [t])
    (hb : bitsOfBytes (((virtBytes s c (k.fq + 256 + 256 * (i % k.fqn)) 256).getD []).take 1) ≠ cPROT) :
    passEntry s c k i = modThread s t fun th => becomeReady th s.clk := by
  simp only [passEntry, ht, List.foldl_cons, List.foldl_nil, if_neg hb]

theorem advanceHead_one {c : Nat} {k : Context} (hk : s.contexts[c]? = some k) (hq : k.fqHead < k.fqTail) :
    advanceHead s c (k.fqHead + 1) = passEntry (modCtx s c fun x => { x with fqHead := k.fqHead + 1 }) c k k.fqHead := by
  have hy : k.fqHead < k.fqHead + 1 ∧ k.fqHead + 1 ≤ k.fqTail := by omega
  simp only [advanceHead, hk, if_pos hy, Nat.add_sub_cancel_left]
  rfl

end Sys2Proof.Graphs

namespace Sys2Proof

open Sys2Proof.Machine Sys2Proof.Claims Sys2Proof.HostMessages Sys2Proof.Issuing Sys2Proof.Graphs

/-- Settles O47: nodes start, end and fail through their graph's record; commands and units leave what their operation computes. -/
theorem graphEvents : Obligations.GraphEvents := by
  refine ⟨?_, ?_, ?_, ?_, ?_, ?_, ?_, ?_, ?_, ?_, ?_, ?_, ?_, ?_, ?_, ?_⟩
  · intro f s iss r h hu
    exact runLanes_issues (body := fun _ _ s r => gfireLane s r) h (gfireLane_ok hu) rfl
  · intro f s iss r h hu
    exact runLanes_issues (body := fun _ _ s r => nodeqLane s r) h (nodeqLane_ok hu) rfl
  · intro s g n gr x hg hx hf hk hr hp
    refine next_congr ((startNode_ok hf hg hx (by rw [tryStart_plain hr, startKind, hk]; rfl)).trans ?_)
    rw [modNode_eq, withNode_twice, pullGrid_eq hp]
  · intro s g n gr x cx hg hx hf hk hr hc
    refine next_congr ((startNode_ok hf hg hx (by rw [tryStart_plain hr, startKind, hk]; rfl)).trans ?_)
    simp only [hc, Option.map_some, Option.getD_some, descWord, List.drop_zero, Moves.bitsOfBytes_eq_valueOf]
    rfl
  · intro s g n hf
    exact next_congr (if_pos hf)
  · intro s g n gr x j y hg hx hr hop hp hc hs hj hy hw h1 hb
    exact next_congr (completeNode_next hg hx hr hop hp hc hs hj hy hw h1 hb)
  · intro s g n gr x hg hx hr hop hp hc hs hf hfail ho
    exact next_congr (completeNode_last hg hx hr hop hp hc hs hf hfail ho)
  · intro s g n gr x hg hx hr
    have hn : nodeAt s g n = some x := (nodeAt_eq hg).trans hx
    exact next_congr (by simp only [completeNode, hg, hn, if_pos hr])
  · intro s g n code addr gr x i y hg hx hr hp hf hi hy ho hn
    exact next_congr (failNode_running hg hx hr hp hf hi hy ho hn)
  · intro s g n code addr gr x hg hx hw
    have hn : nodeAt s g n = some x := (nodeAt_eq hg).trans hx
    exact next_congr (by simp only [failNode, hg, hn, hw])
  · intro s g n cmd x e hx he hs hc hlt
    exact ⟨fun c a ho => next_congr (hummock_fails hx he hs hc hlt ho), fun l ho => next_congr (hummock_writes hx he hs hc hlt ho)⟩
  · intro s g n cmd pa x e hx he hs hc hlt
    have hh := parityAbort_runs hx he hs hc hlt pa
    exact ⟨fun hf => next_congr (hh.trans (if_pos hf)), fun hf => next_congr (hh.trans (if_neg hf))⟩
  · intro s g n u e s1 e1 s2 e2 x he hst hs hpw entry hr1 at_ len hlt hr2 hx hu hrep bytes dam s3 planes
    exact next_congr ((decodeUnitOf_decodes he hst hs hpw hr1 hlt hr2 hx).trans rfl)
  · intro s g n u e he hst
    exact next_congr (by simp only [decodeUnitOf, he, if_pos (Or.inl hst)])
  · intro s c k t th hk hq ht hs
    obtain ⟨hft, hb⟩ := hs _ rfl
    exact next_congr ((advanceHead_one hk hq).trans (passEntry_replays hft hb))
  · intro s c k head hk hh
    exact next_congr (advanceHead_still hk hh)

end Sys2Proof

/-! SUPPORT. The rank of a team in its cluster, which no work at a home, a die or a core changes, and the events that end, swap out and
restore a team. -/

namespace Sys2Proof.TeamEvents

open Sys2Proof.Machine

variable {s : State}

/-- The rank that each team has in its cluster. -/
def ranks (s : State) : List Nat := s.teams.map Team.rank

theorem rank_of_ranks {t : State} (h : ranks t = ranks s) {m : Nat} {u : Team} (hu : s.teams[m]? = some u) :
    ∃ v, t.teams[m]? = some v ∧ v.rank = u.rank := by
  have hr := congrArg (fun l => l[m]?) h
  simp only [ranks, List.getElem?_map, hu, Option.map_some] at hr
  exact Option.map_eq_some_iff.mp hr

theorem foldl_ranks {α : Type} {g : State → α → State} (hg : ∀ s x, ranks (g s x) = ranks s) (l : List α) (s : State) :
    ranks (l.foldl g s) = ranks s := Canonical.foldl_kept (p := fun t : State => ranks t = ranks s) (fun _ x h => (hg _ x).trans h) l rfl

@[simp] theorem ite_ranks {c : Prop} [Decidable c] (a b : State) : ranks (if c then a else b) = if c then ranks a else ranks b :=
  apply_ite _ _ _ _

@[simp] theorem modHome_ranks (i : Nat) (f : Home → Home) : ranks (modHome s i f) = ranks s := rfl
@[simp] theorem modDie_ranks (i : Nat) (f : Die → Die) : ranks (modDie s i f) = ranks s := rfl
@[simp] theorem send_ranks (l : List Instr) : ranks (send s l) = ranks s := rfl
@[simp] theorem setCore_ranks (c : Core) : ranks (setCore s c) = ranks s := congrArg (List.map Team.rank) (setCore_teams s c)
@[simp] theorem modCore_ranks (d c : Nat) (f : Core → Core) : ranks (modCore s d c f) = ranks s :=
  congrArg (List.map Team.rank) (modCore_teams s d c f)

/-! The dies' copies. -/

@[simp] theorem l2Mod_ranks (die : Nat) (x : L2Sector) : ranks (l2Mod s die x) = ranks s := rfl
@[simp] theorem l2Del_ranks (die sec : Nat) : ranks (l2Del s die sec) = ranks s := rfl
@[simp] theorem dirPut_ranks (sec : Nat) (d : DirSector) : ranks (dirPut s sec d) = ranks s := rfl
@[simp] theorem busyPut_ranks (sec : Nat) (b : Option Busy) : ranks (busyPut s sec b) = ranks s := rfl
@[simp] theorem homeTimesPut_ranks (sec w r : Nat) : ranks (homeTimesPut s sec w r) = ranks s := rfl
@[simp] theorem homeTimesMax_ranks (sec w r : Nat) : ranks (homeTimesMax s sec w r) = ranks s := rfl
@[simp] theorem sendFirst_ranks (l : List Instr) : ranks (sendFirst s l) = ranks s := rfl
@[simp] theorem dirHold_ranks (sec : Nat) (l : List HomeReq) : ranks (dirHold s sec l) = ranks s := rfl
@[simp] theorem dirTouch_ranks (sec : Nat) : ranks (dirTouch s sec) = ranks s := rfl
@[simp] theorem releaseNotice_ranks (home : Nat) (e : AliasEntry) (i n : Nat) : ranks (releaseNotice s home e i n) = ranks s := rfl
@[simp] theorem msPartsPut_ranks (sec : Nat) (ps : List MsPart) : ranks (msPartsPut s sec ps) = ranks s := rfl
@[simp] theorem markPut_ranks (m : SecMark) : ranks (markPut s m) = ranks s := rfl
@[simp] theorem awaitAcks_ranks (sec : Nat) (req : HomeReq) (dies : List Nat) (fwd : Bool) (msgs : List Instr) (queue : List HomeReq) :
    ranks (awaitAcks s sec req dies fwd msgs queue) = ranks s := rfl

@[simp] theorem wakeMonitors_ranks (sec : Nat) : ranks (wakeMonitors s sec) = ranks s := by
  unfold ranks wakeMonitors
  rw [List.map_map]
  refine List.map_congr_left fun t _ => ?_
  rw [Function.comp_apply]
  split <;> rfl

@[simp] theorem l1Yield_ranks (c : Core) (x : L1Sector) : ranks (l1Yield s c x) = ranks s := by
  unfold l1Yield
  simp only
  split <;> simp

@[simp] theorem collapseL1_ranks (die sec : Nat) : ranks (collapseL1 s die sec) = ranks s := by
  unfold collapseL1
  split
  · split <;> simp
  · rfl

@[simp] theorem notePeek_ranks (id : Nat) (m : SectorMsg) : ranks (notePeek s id m) = ranks s := by
  unfold notePeek
  split <;> rfl

@[simp] theorem watchHome_ranks (i : Nat) : ranks (watchHome s i) = ranks s := by
  unfold watchHome
  split
  · simp only
    split
    · split <;> rfl
    · rfl
  · rfl

@[simp] theorem noteAliasRead_ranks (sec : Nat) : ranks (noteAliasRead s sec) = ranks s := by
  unfold noteAliasRead
  refine foldl_ranks (fun s e => ?_) _ s
  simp only
  exact (apply_ite ranks _ _ _).trans (ite_self _)

@[simp] theorem l2Leave_ranks (die : Nat) (x : L2Sector) : ranks (l2Leave s die x) = ranks s := by
  refine Eq.trans (b := ranks (collapseL1 s die x.sec)) ?_ (collapseL1_ranks die x.sec)
  unfold l2Leave
  simp only
  split <;> rfl

@[simp] theorem l2Room_ranks (die line : Nat) : ranks (l2Room s die line) = ranks s := by
  unfold l2Room
  split
  · rfl
  · simp only
    split
    · rfl
    · split
      · rfl
      · split
        · rfl
        · exact foldl_ranks (fun s x => l2Leave_ranks _ x) _ s

@[simp] theorem l2Install_ranks (die : Nat) (x : L2Sector) : ranks (l2Install s die x) = ranks s := by
  unfold l2Install
  simp only
  split <;> simp

/-! The messages of the die protocol. -/

@[simp] theorem dieSector_ranks (die sec : Nat) : ranks (dieSector s die sec).1 = ranks s := collapseL1_ranks die sec

@[simp] theorem dieInv_ranks (die sec : Nat) : ranks (dieInv s die sec) = ranks s := by
  unfold dieInv
  simp only
  split <;> simp

@[simp] theorem dieFwd_ranks (die r sec : Nat) (inval : Bool) : ranks (dieFwd s die r sec inval) = ranks s := by
  unfold dieFwd
  simp only
  split
  · cases inval <;> simp
  · split <;> simp

@[simp] theorem diePrecall_ranks (die sec : Nat) : ranks (diePrecall s die sec) = ranks s := by
  unfold diePrecall
  split
  · split <;> simp
  · rfl

@[simp] theorem diePeek_ranks (die sec : Nat) : ranks (diePeek s die sec) = ranks s := by
  unfold diePeek
  simp only
  split
  · simp
  · split <;> simp

@[simp] theorem dieData_ranks (m : SectorMsg) : ranks (dieData s m) = ranks s := by
  unfold dieData
  split <;> simp

@[simp] theorem dieGrant_ranks (m : SectorMsg) : ranks (dieGrant s m) = ranks s := by
  unfold dieGrant
  split
  · split
    · split <;> rfl
    · simp
  · split <;> simp

@[simp] theorem homeDrop_ranks (die sec : Nat) : ranks (homeDrop s die sec) = ranks s := by
  unfold homeDrop
  simp only
  split <;> simp

/-! The Reed tables. -/

@[simp] theorem putSector_ranks (sec : Nat) (x : Sector) (mask : BitVec 64) (c : Option Nat) :
    ranks (putSector s sec x mask c) = ranks s := by
  unfold putSector
  split
  · split <;> rfl
  · rfl

@[simp] theorem touchSector_ranks (sec : Nat) (c : Option Nat) : ranks (touchSector s sec c) = ranks s := by
  unfold touchSector touchLine
  split
  · split <;> rfl
  · rfl

@[simp] theorem materialiseBlock_ranks (e : AliasEntry) (i : Nat) : ranks (materialiseBlock s e i) = ranks s :=
  foldl_ranks (fun _ _ => putSector_ranks _ _ _ _) _ s

@[simp] theorem removeBlock_ranks (home : Nat) (e : AliasEntry) (i : Nat) : ranks (removeBlock s home e i) = ranks s := by
  unfold removeBlock
  simp only [watchHome_ranks, releaseNotice_ranks, modHome_ranks]
  split
  · refine foldl_ranks (fun s k => ?_) _ s
    split
    · exact materialiseBlock_ranks _ _
    · rfl
  · rfl

@[simp] theorem dhomeMaterialiseGrain_ranks (dhome g : Nat) : ranks (dhomeMaterialiseGrain s dhome g) = ranks s := by
  unfold dhomeMaterialiseGrain
  refine foldl_ranks (fun s d => ?_) _ s
  split
  · rw [removeBlock_ranks, materialiseBlock_ranks]
  · rfl

@[simp] theorem prepareGrain_ranks (g : Nat) (whole : Bool) : ranks (prepareGrain s g whole) = ranks s := by
  have hd := foldl_ranks (fun s d => dhomeMaterialiseGrain_ranks (s := s) d g) (watchersOf s g) s
  unfold prepareGrain
  simp only
  split
  · exact hd
  · rw [removeBlock_ranks, ite_ranks, materialiseBlock_ranks, ite_self]
    exact hd

@[simp] theorem prepareMask_ranks (sec : Nat) (mask : BitVec 64) : ranks (prepareMask s sec mask) = ranks s := by
  unfold prepareMask
  refine foldl_ranks (fun s k => ?_) _ s
  simp only
  rw [ite_ranks, prepareGrain_ranks, ite_self]

/-! The home. -/

@[simp] theorem mergeHome_ranks (sec tag : Nat) (ps : List (Nat × List (Option DWord) × List Bool)) (c : Option Nat) :
    ranks (mergeHome s sec tag ps c) = ranks s := by
  unfold mergeHome
  simp only [ite_ranks, putSector_ranks, prepareMask_ranks, ite_self]

@[simp] theorem mergeMs_ranks (sec lo n : Nat) (c : Option Nat) : ranks (mergeMs s sec lo n c) = ranks s := by
  unfold mergeMs
  simp only [ite_ranks, putSector_ranks, prepareMask_ranks, msPartsPut_ranks, ite_self]

@[simp] theorem writeBackSector_ranks (sec : Nat) (x : Sector) (c : Option Nat) : ranks (writeBackSector s sec x c) = ranks s :=
  putSector_ranks _ _ _ _

@[simp] theorem settleRaw_ranks (sec : Nat) : ranks (settleRaw s sec) = ranks s := by
  have hc := foldl_ranks (fun s d => collapseL1_ranks (s := s) d sec) (List.range 4) s
  unfold settleRaw
  simp only
  split
  · rw [wakeMonitors_ranks, homeTimesMax_ranks, dirPut_ranks, mergeHome_ranks, foldl_ranks fun s d => l2Del_ranks (s := s) d sec, hc]
  · simp only [homeTimesMax_ranks, ite_ranks, dirPut_ranks, ite_self]
    refine (foldl_ranks (fun s d => ?_) _ _).trans hc
    split
    · split <;> rfl
    · rfl

@[simp] theorem excludeRaw_ranks (sec : Nat) : ranks (excludeRaw s sec) = ranks s := by
  have hd := (foldl_ranks (fun s d => l2Del_ranks (s := s) d sec) (List.range 4) (settleRaw s sec)).trans (settleRaw_ranks sec)
  unfold excludeRaw
  simp only [dirPut_ranks]
  split
  · exact (writeBackSector_ranks _ _ _).trans hd
  · exact hd

@[simp] theorem dataFrom_ranks (sec die : Nat) (dirty own : Bool) : ranks (dataFrom s sec die dirty own) = ranks s := by
  unfold dataFrom
  simp

@[simp] theorem homeServe_ranks (sec : Nat) (req : HomeReq) (queue : List HomeReq) : ranks (homeServe s sec req queue) = ranks s := by
  unfold homeServe
  split
  · rfl
  · rfl
  · have hw : ranks (if req.kind = 1 ∨ req.kind = 2 then wakeMonitors (dirTouch s sec) sec else dirTouch s sec) = ranks s := by
      rw [ite_ranks, wakeMonitors_ranks, dirTouch_ranks, ite_self]
    simp only
    generalize (if req.kind = 1 ∨ req.kind = 2 then wakeMonitors (dirTouch s sec) sec else dirTouch s sec) = s1 at hw
    simp [hw]

@[simp] theorem homeFinish_ranks (b : Busy) : ranks (homeFinish s b) = ranks s := by
  unfold homeFinish
  simp only
  split
  · rfl
  · simp

/-- Modified bytes that an answer carries reach its home. -/
theorem answerBytes_ranks (m : SectorMsg) (b : Bool) : ranks (match m.bytes with
    | some x => if b then writeBackSector s m.sec x m.ctx else s
    | none => s) = ranks s := by
  split
  · rw [ite_ranks, writeBackSector_ranks, ite_self]
  · rfl

@[simp] theorem homeAck_ranks (m : SectorMsg) : ranks (homeAck s m) = ranks s := by
  have hb := answerBytes_ranks (s := s) m m.dirty
  unfold homeAck
  simp only
  split
  · exact (homeTimesMax_ranks _ _ _).trans hb
  · rw [ite_ranks, homeFinish_ranks, busyPut_ranks, ite_ranks, notePeek_ranks, ite_self, ite_self]
    exact hb

@[simp] theorem homeWbm_ranks (m : SectorMsg) : ranks (homeWbm s m) = ranks s := by
  unfold homeWbm
  simp only
  split
  · simp only [ite_ranks, wakeMonitors_ranks, homeTimesMax_ranks, dirPut_ranks, mergeHome_ranks, ite_self]
  · rw [ite_ranks, dirPut_ranks, homeTimesMax_ranks]
    split
    · split
      · rw [writeBackSector_ranks, homeTimesMax_ranks]
      · rfl
    · rfl

@[simp] theorem arrive_ranks (i : Instr) : ranks (arrive s i) = ranks s := by
  unfold arrive
  split <;> simp

@[simp] theorem quiesceN_ranks (n sec : Nat) : ∀ s : State, ranks (quiesceN n s sec) = ranks s := by
  induction n with
  | zero => exact fun _ => rfl
  | succ n ih =>
    intro s
    unfold quiesceN
    split
    · rfl
    · exact (ih _).trans (arrive_ranks _)

@[simp] theorem settle_ranks (sec : Nat) : ranks (settle s sec) = ranks s := (settleRaw_ranks sec).trans (quiesceN_ranks 64 sec s)
@[simp] theorem exclude_ranks (sec : Nat) : ranks (exclude s sec) = ranks s := (excludeRaw_ranks sec).trans (quiesceN_ranks 64 sec s)

@[simp] theorem putNow_ranks (sec : Nat) (x : Sector) (mask : BitVec 64) (c : Option Nat) : ranks (putNow s sec x mask c) = ranks s := by
  unfold putNow
  rw [putSector_ranks, prepareMask_ranks]
  refine (foldl_ranks (fun s p => ?_) _ _).trans (exclude_ranks sec)
  rw [ite_ranks, mergeMs_ranks, ite_self]

@[simp] theorem writeNow_ranks (sec : Nat) (x : Sector) (mask : BitVec 64) (c : Option Nat) (ts : Nat) :
    ranks (writeNow s sec x mask c ts) = ranks s := by
  unfold writeNow
  rw [wakeMonitors_ranks, homeTimesPut_ranks, putNow_ranks]

@[simp] theorem retag_ranks (sec key : Nat) : ranks (retag s sec key) = ranks s := by
  unfold retag
  split
  · rfl
  · simp only
    split <;> rfl

@[simp] theorem retain_ranks (die sec : Nat) : ranks (retain s die sec) = ranks s := by
  unfold retain
  simp only
  split
  · split
    · exact settle_ranks sec
    · exact settle_ranks sec
  · rw [l2Install_ranks, dirPut_ranks, settle_ranks]

@[simp] theorem retainSector_ranks (die sec : Nat) (ms : Bool) : ranks (retainSector s die sec ms) = ranks s := by
  unfold retainSector
  rw [ite_ranks, retain_ranks, ite_self]

/-- A scratchpad frame whose team leaves its core goes back to memory, and every team keeps its rank. -/
@[simp] theorem frameBack_ranks (f : SpadFrame) : ranks (frameBack s f) = ranks s := by
  unfold frameBack
  split
  · rfl
  · split
    · refine foldl_ranks (fun s i => ?_) _ s
      simp only [homeTimesMax_ranks, ite_ranks, retainSector_ranks, writeNow_ranks, retag_ranks, ite_self]
    · rfl
    · rfl

@[simp] theorem leaveFrames_ranks (m : Nat) : ranks (leaveFrames s m) = ranks s := by
  unfold leaveFrames
  split
  · rfl
  · exact (modCore_ranks _ _ _).trans (foldl_ranks (fun _ f => frameBack_ranks f) _ s)

end Sys2Proof.TeamEvents

/-! SUPPORT. Statement settled: the events of a team (R184, R227, R230, R241, R349, R350). -/

namespace Sys2Proof.TeamEvents

open Sys2Proof.Machine

variable {s : State} {m : Nat} {t : Team} {gr : Grid}

/-! The end of a team (R241). -/

/-- A team that has ended gives back its core's claims and frames and its groups' registers. -/
def released (s : State) (m : Nat) (t : Team) : State :=
  t.groups.foldl (fun s g => modGroup s g fun x => { x with freed := true })
    (modCore (modTeam s m fun x => { x with phase := .complete }) t.die t.site fun c =>
      { releaseClaims c m with frames := c.frames.filter fun f => f.team ≠ m })

theorem released_grids : (released s m t).grids = s.grids :=
  by
  unfold released
  refine Canonical.foldl_kept (p := fun u : State => u.grids = s.grids) (fun u g h => ?_) _ (modCore_grids _ _ _ _)
  exact h

/-- The node of a grid, where it has one, has at least the time of a team of the grid. -/
def nodeNoted (s : State) (g m : Nat) : State := match (s.grids[g]?).bind (·.node) with
  | some (g, n) => noteNode s g n (teamTime s m)
  | none => s

theorem nodeNoted_none {g : Nat} (hg : s.grids[g]? = some gr) (hn : gr.node = none) : nodeNoted s g m = s := by
  simp [nodeNoted, hg, hn]

theorem nodeNoted_some {g a n : Nat} (hg : s.grids[g]? = some gr) (hn : gr.node = some (a, n)) :
    nodeNoted s g m = noteNode s a n (teamTime s m) := by
  simp [nodeNoted, hg, hn]

theorem nodeNoted_grids {g : Nat} : (nodeNoted s g m).grids = s.grids := by
  unfold nodeNoted
  split <;> rfl

/-- A grid that waits for this many teams more. -/
def teamsLeft (s : State) (g left : Nat) : State := modGrid s g fun x => { x with remaining := left }

theorem released_noted (hg : s.grids[t.grid]? = some gr) :
    (nodeNoted (released s m t) t.grid m).grids[t.grid]? = some gr := by rw [nodeNoted_grids, released_grids, hg]

/-- A team that holds no block and whose work is done counts as one less in its grid. -/
theorem completeTeam_resident (ht : s.teams[m]? = some t) (hp : t.phase = .resident) (hl : liveThreads s m = [])
    (hq : teamQuiet s m = true) (hg : s.grids[t.grid]? = some gr) :
    completeTeam s m = if gr.remaining - 1 = 0
      then gridComplete (teamsLeft (nodeNoted (released s m t) t.grid m) t.grid (gr.remaining - 1)) t.grid
      else teamsLeft (nodeNoted (released s m t) t.grid m) t.grid (gr.remaining - 1) := by
  have hr : (((nodeNoted (released s m t) t.grid m).grids[t.grid]?).map (·.remaining)).getD 0 = gr.remaining := by
    simp [released_noted hg]
  have hc : ¬(t.phase = .complete ∨ (!(liveThreads s m).isEmpty) = true ∨ (!teamQuiet s m) = true) := by simp [hp, hl, hq]
  rw [← hr]
  simp only [completeTeam, ht]
  rw [if_neg hc]
  simp only [hp]
  rfl

theorem completeTeam_idle (ht : s.teams[m]? = some t) (h : liveThreads s m ≠ [] ∨ teamQuiet s m = false ∨ t.phase = .complete) :
    completeTeam s m = s := by
  have hc : t.phase = .complete ∨ (!(liveThreads s m).isEmpty) = true ∨ (!teamQuiet s m) = true := by
    rcases h with h | h | h
    · simp [h]
    · simp [h]
    · simp [h]
  simp only [completeTeam, ht, if_pos hc]

/-- The end of a grid's last team is the end of its node. -/
theorem gridComplete_node {g a n ts : Nat} (hg : s.grids[g]? = some gr) (hn : gr.node = some (a, n)) :
    gridComplete (teamsLeft (noteNode s a n ts) g 0) g = { noteNode s a n ts with
      grids := (s.grids.modify g fun x => { x with remaining := 0 }).modify g fun x => { x with done := true }
      net := s.net ++ [.nodeComplete a n] } := by
  have hq : (teamsLeft (noteNode s a n ts) g 0).grids[g]? = some { gr with remaining := 0 } := by
    change (s.grids.modify g _)[g]? = _
    simp [hg]
  simp only [gridComplete, hq, hn]
  rfl

/-! A cluster that is swapped out while it waits (R349, R350). -/

theorem live_of_swappable (hc : clusterMates s m = [m]) (h : swappable s m = true) : liveThreads s m ≠ [] := by
  intro hl
  cases ht : s.teams[m]? with
  | none => simp [swappable, ht] at h
  | some t => simp [swappable, ht, hc, hl] at h

theorem swapCluster_single (ht : s.teams[m]? = some t) (h : swappable s m = true) (hc : clusterMates s m = [m]) :
    swapCluster s m = preemptCluster (rereadWatched (modTeam (modDie s t.die fun d => { d with wakes := d.wakes ++ [(m, watchedSectors s m)] })
      m fun x => { x with wakeSecs := watchedSectors s m }) m (watchedSectors s m)) t.cluster := by
  have hl : (clusterMates s m).filter (fun k => !(liveThreads s k).isEmpty) = [m] := by
    simp [hc, live_of_swappable hc h]
  simp only [swapCluster, ht, hl, if_pos h]
  rfl

theorem swapCluster_not (h : swappable s m = false) : swapCluster s m = s := by
  simp only [swapCluster, h]
  split <;> rfl

/-! A saved cluster that returns (R350). -/

theorem restoreCluster_watched {sec : Nat} (ht : s.teams[m]? = some t) (hs : sec ∈ t.wakeSecs)
    (hk : ∀ k, s.clusters[t.cluster]? = some k → m ∈ k.teams) (hl : liveThreads s m ≠ []) : restoreCluster s m = s := by
  have hw : t.wakeSecs.isEmpty = false := by
    cases h : t.wakeSecs with
    | nil => simp [h] at hs
    | cons _ _ => rfl
  cases hg : s.grids[t.grid]? with
  | none => simp only [restoreCluster, ht, hg]
  | some gr =>
    cases hc : s.clusters[t.cluster]? with
    | none =>
      have hn : clusterMates s m = [] := by simp [clusterMates, ht, hc]
      simp only [restoreCluster, ht, hg, hn]
      split
      · rfl
      · split
        · rfl
        · split
          · rfl
          · simp
    | some k =>
      have hm : m ∈ (clusterMates s m).filter fun k => !(liveThreads s k).isEmpty := by
        simp [clusterMates, ht, hc, hk k hc, hl]
      have ha : ((clusterMates s m).filter fun k => !(liveThreads s k).isEmpty).all
          (fun k => ((s.teams[k]?).map fun x => x.wakeSecs.isEmpty).getD true) = false := by
        rw [List.all_eq_false]
        exact ⟨m, hm, by simp [ht, hw]⟩
      simp only [restoreCluster, ht, hg]
      exact if_pos (.inr (.inr (by rw [ha]; rfl)))

/-- The dies are tried in their order. -/
theorem firstDie {f : Nat → Option Nat} {d o : Nat} (hd : d < 4) (hn : ∀ e, e < d → f e = none) (h : f d = some o) :
    ((List.range 4).findSome? fun d => (f d).map fun o => (d, o)) = some (d, o) := by
  rw [List.findSome?_eq_some_iff]
  refine ⟨List.range d, d, List.range' (d + 1) (3 - d), ?_, by simp [h], fun e he => by simp [hn e (List.mem_range.mp he)]⟩
  interval_cases d <;> rfl

theorem restoreCluster_single {k : Cluster} {b d o site : Nat} {places : List (Nat × Nat × Nat)} (ht : s.teams[m]? = some t)
    (hg : s.grids[t.grid]? = some gr) (ha : admits s gr = true) (hk : s.clusters[t.cluster]? = some k) (hm : k.teams = [m])
    (hp : t.phase = .saved b) (hw : t.wakeSecs = []) (hr : t.rank = 0) (hd : d < 4) (hl : liveThreads s m ≠ [])
    (hn : ∀ e, e < d → chooseRect s gr.ctx e gr.launch false = none) (ho : chooseRect s gr.ctx d gr.launch false = some o)
    (hpl : placeAt s gr.ctx d gr.launch o = some [(site, places)]) :
    restoreCluster s m = if framesMayLeave s m d site = true then restartTeam s m b d site o gr.launch places else s := by
  have hms : (clusterMates s m).filter (fun k => !(liveThreads s k).isEmpty) = [m] := by
    simp [clusterMates, ht, hk, hm, hl]
  simp only [restoreCluster, ht, hg, hms, firstDie hd hn ho, hpl]
  cases hf : framesMayLeave s m d site with
  | true => simp [ha, phaseOf, savedBlock, ht, hp, hw, hr, hf]
  | false => simp [ha, ht, hw, hr, hf]

/-- A team that returns stands at its new site, about to load what it saved. -/
theorem restartTeam_team {b d o site : Nat} {l : Launch} {places : List (Nat × Nat × Nat)} (ht : s.teams[m]? = some t) :
    ∃ u, (restartTeam s m b d site o l places).teams[m]? = some u ∧ u.phase = .restoring b ∧ u.die = d ∧ u.site = site ∧
      u.pos = clusterPos l o t.rank := by
  have hr : ranks (if t.die = d ∧ t.site = site then s else leaveFrames s m) = ranks s := by rw [ite_ranks, leaveFrames_ranks, ite_self]
  obtain ⟨v, hv, hrank⟩ := rank_of_ranks hr ht
  simp only [restartTeam, ht]
  generalize (if t.die = d ∧ t.site = site then s else leaveFrames s m) = s1 at hv
  obtain ⟨u, hu⟩ : ∃ u : Team, u = { v with die := d, site := site, pos := clusterPos l o v.rank, phase := .restoring b,
                                            partRestored := false, since := some s1.clk } := ⟨_, rfl⟩
  refine ⟨u, ?_, by rw [hu], by rw [hu], by rw [hu], by rw [hu, hrank]⟩
  unfold takeClaims
  rw [modCore_teams]
  refine Canonical.foldl_kept (p := fun w : State => w.teams[m]? = some u) (fun _ _ h => by exact h) _ ?_
  refine Canonical.foldl_kept (p := fun w : State => w.teams[m]? = some u) (fun _ _ h => by exact h) _ ?_
  simp [modAt, hv, hu]

end Sys2Proof.TeamEvents

namespace Sys2Proof

open Machine Claims HostMessages TeamEvents

/-- Settles O46. The model's swap-out and completion are the statement's own terms once their guards are decided; the restored team's
position needs its rank, which the frames that leave its old core do not change. -/
theorem teamEvents : Obligations.TeamEvents := by
  unfold Obligations.TeamEvents
  refine ⟨fun s m t gr ht hp hl hq hg => ⟨fun hn hr => ?_, fun g n hn hr => ?_⟩, fun s m t ht h => ?_, fun s m t ht h hc => ?_,
    fun s m h => ?_, fun s m t gr k d o b site places ht hg ha hk hm hp hw hr hd hl hn ho hpl => ⟨fun hf => ?_, fun hf => ?_, ?_⟩,
    fun s m t sec ht hs hk hl => ?_⟩
  · have h := completeTeam_resident ht hp hl hq hg
    rw [if_neg (by omega), nodeNoted_none (by rwa [released_grids]) hn] at h
    exact next_congr h
  · have h := completeTeam_resident ht hp hl hq hg
    rw [if_pos (by omega), nodeNoted_some (by rwa [released_grids]) hn, hr] at h
    exact next_congr (h.trans (gridComplete_node (by rwa [← released_grids (m := m) (t := t)] at hg) hn))
  · exact next_congr (completeTeam_idle ht h)
  · exact next_congr (swapCluster_single ht h hc)
  · exact next_congr (swapCluster_not h)
  · refine next_congr ((restoreCluster_single ht hg ha hk hm hp hw hr hd hl hn ho hpl).trans (if_neg ?_))
    simp [hf]
  · exact next_congr ((restoreCluster_single ht hg ha hk hm hp hw hr hd hl hn ho hpl).trans (if_pos hf))
  · rw [← hr]
    exact restartTeam_team ht
  · exact next_congr (restoreCluster_watched ht hs hk hl)

end Sys2Proof
